-- ==== Sys2Proof/Word.lean ====
section
/-! DEFINITION. The word types of the Trodel Umisk TRD-940-H12 and their plainest arithmetic (spec/00_scope.md R4). -/

namespace Sys2Proof

/-- One byte of memory. -/
abbrev Byte := BitVec 8

/-- A 32-bit register or memory word. -/
abbrev Word32 := BitVec 32

/-- A 64-bit register pair, virtual address or table word. -/
abbrev Word64 := BitVec 64

/-- The bytes of an `n`-byte little-endian value, lowest address first (R4). -/
def leBytes : Nat → Nat → List Byte
  | 0, _ => []
  | n + 1, v => BitVec.ofNat 8 v :: leBytes n (v / 256)

/-- The value of little-endian bytes, lowest address first (R4). -/
def leValue : List Byte → Nat
  | [] => 0
  | b :: bs => b.toNat + 256 * leValue bs

/-- An FP32 pair (hi, lo): R38. -/
structure Pair where
  hi : Word32
  lo : Word32
  deriving DecidableEq, Repr

end Sys2Proof
end

