-- ==== Sys2Proof/Syntax.lean ====
section
/-! DEFINITION. The syntax: the word formats of R127, R134, R135 and R136, the arguments of the package's events, and
`Instr`, one constructor for each row of spec/opcode_table.json. A row is either an instruction word or an event of the
package (spec/95_what_each_step_holds.md); an event's arguments name the unit it happens at. -/

namespace Sys2Proof

/-- The guard of a word: PN[19] and PRED[18:16] (R130). -/
structure Guard where
  pn : Bool
  pred : BitVec 3
  deriving DecidableEq, Repr

/-- The unconditional guard, PN 0 and PRED 7 (R130). -/
def Guard.always : Guard := ⟨false, 7⟩

/-- The fields of a register-form word but its opcode (R127). -/
structure RWord where
  dst : BitVec 9
  a : BitVec 9
  b : BitVec 9
  c : BitVec 9
  guard : Guard
  func : BitVec 12
  look : BitVec 4
  deriving DecidableEq, Repr

/-- The fields of an immediate-form word but its opcode nibble and IMOD (R134). -/
structure IWord where
  imm : BitVec 32
  dst : BitVec 9
  a : BitVec 9
  guard : Guard
  look : BitVec 4
  deriving DecidableEq, Repr

/-- The fields of a memory-form word but its opcode (R135). -/
structure MWord where
  dst : BitVec 9
  a : BitVec 9
  off : BitVec 20
  guard : Guard
  ctr : BitVec 3
  scope : BitVec 3
  size : BitVec 3
  x : Bool
  look : BitVec 4
  deriving DecidableEq, Repr

/-- One compact half of a paired word (R136). -/
structure Half where
  op : BitVec 5
  d : BitVec 8
  a : BitVec 8
  b : BitVec 8
  deriving DecidableEq, Repr

/-- A paired word: two halves and PLOOK (R136). -/
structure PWord where
  ha : Half
  hb : Half
  plook : BitVec 2
  deriving DecidableEq, Repr

/-- The four issue ports of a bay (R56). -/
inductive Port where
  | va | vb | m | c
  deriving DecidableEq, Repr

/-- The value of a handle node: ABSENT or an FP32 pair; a plain node keeps `lo` zero (R40, R247). -/
inductive NodeVal where
  | absent
  | val (p : Pair)
  deriving DecidableEq, Repr

/-- The value of one channel unit: for FMT 1 and 2 one optional element value with its count of present leaves for each
element of the unit; for FMT 3 a triple (R232, R259, R260). -/
inductive UnitVal where
  | absent
  | elems (xs : List (Option (Pair × Nat)))
  | triple (m s : Word32) (o : List Word32)
  deriving DecidableEq, Repr

/-- What a packet carries (R254, KIND). -/
inductive Payload where
  /-- KIND 0: bytes for the channel buffer at a byte offset. -/
  | data (off : Nat) (bytes : List Byte)
  /-- KIND 1: the release flag, with SEQ of the data packets of its channel that it must follow, each with what remains of the route
  that it took. [DEDUCED: log entry 69] -/
  | flag (after : List (Nat × List (BitVec 5)))
  /-- KIND 2: the node (level, index) of one unit of a channel step; `op` is the FRED operation, 4 for FSPARSE, `pairs` tells FP32
  pairs, and `leaves` are the contributors with a present leaf in it, each with what it sent. -/
  | chan (op : Nat) (pairs : Bool) (leaves : List (Nat × UnitVal)) (unit level index : Nat) (v : UnitVal)
  /-- KIND 3: the handle node (level, index), of FP32 pairs or plain. -/
  | node (pairs : Bool) (level index : Nat) (v : NodeVal)
  /-- KIND 4: a step notice. -/
  | notice
  /-- The end-to-end acknowledgement of a data packet or flag (R231), for the poster's command. -/
  | ack (cmd : Nat) (last : Bool)
  /-- Word of a drop to the package that sent: its command, and of a contribution its unit and node (R255). [DEDUCED: log entry 77] -/
  | drop (cmd : Nat) (node : Option (Nat × Nat × Nat))
  deriving DecidableEq, Repr

/-- A detour that a packet is on (R257): the package, number and link sequence of the failed link, and the links of the detour that it
has still to cross. -/
structure Detour where
  pkg : Nat
  link : Nat
  seq : Nat
  left : Nat
  deriving DecidableEq, Repr

/-- A packet of the fabric: the header of R254 and its payload. [DEDUCED: log entry 74] -/
structure Packet where
  /-- turns still to take, first turn first: the remaining route word ROUTEW -/
  route : List (BitVec 5)
  src : Nat
  ctx : Nat
  /-- CH: the channel number, or the handle for a node -/
  ch : Nat
  seq : Nat
  step : Nat
  /-- BACK: input ports recorded hop by hop, first hop first, with the package where they begin; a node made of several contributions
  keeps the path of each -/
  back : List (Nat × List (BitVec 5))
  /-- the poster's command, which an acknowledgement or a route fault retires -/
  cmd : Nat
  body : Payload
  /-- the remaining routes of an FMCAST that share their turns so far with `route` (R231) -/
  also : List (List (BitVec 5)) := []
  /-- the detours that it is on, the innermost first (R257) -/
  detours : List Detour := []
  deriving DecidableEq, Repr

/-- A flit group as a drift link delivers it (R254, R257): the sending package, its link and link sequence; a flit re-sent along a
detour carries those of the failed link in its packet; `crcOk` is the link CRC's outcome. -/
structure LinkFlit where
  packet : Packet
  sender : Nat
  senderLink : Nat
  linkSeq : Nat
  crcOk : Bool
  deriving DecidableEq, Repr

/-- The kinds of master that R317 can freeze. -/
inductive MasterKind where
  | core | copyEngine | matrixSequencer | tileFetch | hart | hostFunction
  deriving DecidableEq, Repr

/-- One host access through BAR2 (R322): a read, or a write of bytes. -/
inductive HostAccess where
  | read (off len : Nat)
  | write (off : Nat) (bytes : List Byte)
  deriving DecidableEq, Repr

/-- What the patrol or a read finds in a 64-byte sector (R315). -/
inductive EccFinding where
  | clean | corrected | uncorrectable
  deriving DecidableEq, Repr

/-- Who raises a pre-emption request (R304). -/
inductive PreemptSource where
  | admission | host | management
  deriving DecidableEq, Repr

/-- The instructions and events of the package: one constructor for each row of spec/opcode_table.json, in the table's
order. -/
inductive Instr where
  -- vector class (R144)
  | nop (w : RWord)
  | mov (w : RWord)
  | sel (w : RWord)
  | iadd (w : RWord)
  | isub (w : RWord)
  | imul (w : RWord)
  | imulhi (w : RWord)
  | imad (w : RWord)
  | imin (w : RWord)
  | imax (w : RWord)
  | iabs (w : RWord)
  | ineg (w : RWord)
  | lea (w : RWord)
  | popc (w : RWord)
  | clz (w : RWord)
  | brev (w : RWord)
  | and (w : RWord)
  | or (w : RWord)
  | xor (w : RWord)
  | not (w : RWord)
  | andn (w : RWord)
  | shl (w : RWord)
  | shr (w : RWord)
  | rotl (w : RWord)
  | fadd (w : RWord)
  | fsub (w : RWord)
  | fmul (w : RWord)
  | ffma (w : RWord)
  | fmin (w : RWord)
  | fmax (w : RWord)
  | fminn (w : RWord)
  | fmaxn (w : RWord)
  | fabs (w : RWord)
  | fneg (w : RWord)
  | fcsgn (w : RWord)
  | cvt (w : RWord)
  | pack (w : RWord)
  | unpack (w : RWord)
  | icmp (w : RWord)
  | fcmp (w : RWord)
  | fclass (w : RWord)
  | plop (w : RWord)
  | pget (w : RWord)
  | pset (w : RWord)
  -- immediate forms (R144, R173)
  | iaddImm (imod : BitVec 2) (w : IWord)
  | imulImm (imod : BitVec 2) (w : IWord)
  | andImm (w : IWord)
  | orImm (w : IWord)
  | xorImm (w : IWord)
  | andnImm (w : IWord)
  | movImm (imod : BitVec 2) (w : IWord)
  | faddImm (imod : BitVec 2) (w : IWord)
  | fmulImm (imod : BitVec 2) (w : IWord)
  | shlImm (w : IWord)
  | shrN32Imm (w : IWord)
  | shrS32Imm (w : IWord)
  | rotlImm (w : IWord)
  | pairedWord (w : PWord)
  -- special class (R147)
  | exp2 (w : RWord)
  | log2 (w : RWord)
  | rcp (w : RWord)
  | rsq (w : RWord)
  | sin (w : RWord)
  | cos (w : RWord)
  | xshfl (w : RWord)
  | xbcast (w : RWord)
  | xvote (w : RWord)
  | xballot (w : RWord)
  | xscan (w : RWord)
  | xred (w : RWord)
  -- control class (R146)
  | bra (imod : BitVec 2) (w : IWord)
  | call (imod : BitVec 2) (w : IWord)
  | brx (w : RWord)
  | ret (w : RWord)
  | exit (w : RWord)
  | spawn (w : RWord)
  | yield (w : RWord)
  | barArrive (w : RWord)
  | barArriveb (w : RWord)
  | barWait (w : RWord)
  | claim (w : RWord)
  | release (w : RWord)
  -- memory class (R145)
  | ldCa (w : MWord)
  | ldCg (w : MWord)
  | ldLu (w : MWord)
  | ldCaAcq (w : MWord)
  | ldCgAcq (w : MWord)
  | st (w : MWord)
  | stRel (w : MWord)
  | ldt (w : RWord)
  | stt (w : RWord)
  | ldfe (w : MWord)
  | stfe (w : MWord)
  | disc (w : RWord)
  | pref (w : MWord)
  | atom (w : RWord)
  | atomFadd (w : RWord)
  | ctb (w : RWord)
  | ctbseal (w : RWord)
  | fence (w : RWord)
  | wait (w : RWord)
  -- system class (R149)
  | trap (w : RWord)
  | sysret (w : RWord)
  | srd (w : RWord)
  | swr (w : RWord)
  | rinv (w : RWord)
  -- engine-command class (R148)
  | mmul (w : RWord)
  | mmerge (w : RWord)
  | mdrain (w : RWord)
  | mcfg (w : RWord)
  | cpy (w : RWord)
  | cpyt (w : RWord)
  | fsend (w : RWord)
  | fmcast (w : RWord)
  | fred (w : RWord)
  | fsparse (w : RWord)
  | rgres (w : RWord)
  | rgpub (w : RWord)
  | rgtake (w : RWord)
  | rgdone (w : RWord)
  | nrec (w : RWord)
  | bwpush (w : RWord)
  | wver (w : RWord)
  | mbsend (w : RWord)
  | mbrecv (w : RWord)
  -- events of issue and the scheduler
  | pickIssueSet (core bay : Nat) (port : Port)
  | fixedLatencyWriteback (id : Nat)
  | deferredTrapTake (thread : Nat)
  | cageEnter (entrant : Nat)
  | cageTimerExpire (core cage : Nat)
  | groupLaunch (core cage : Nat)
  | queueDoorbell (ctx : Nat) (tail : Word64)
  | launchAdmit (ctx : Nat)
  | clusterPlace
  | gridComplete (launch : Nat)
  | contextOpen (ctx : Nat) (cdesc : Word64)
  | contextClose (ctx : Nat)
  | claimGrant (core bay : Nat)
  | claimDeadlockTrap (core bay : Nat)
  | trapRecordWrite (thread : Nat)
  -- events of memory
  | coalescerRequestSend (op req : Nat)
  | sectorFill (op req : Nat)
  | loadDataReturn (op member : Nat)
  | storePerform (op : Nat)
  | atomicPerform (op : Nat)
  | atomicIntervalEnd
  | tileLockAcquire (op : Nat)
  | tileCommit (op : Nat)
  | discSectorTreat (op : Nat)
  | prefetchFill (op : Nat)
  | ctbTestReturn (op : Nat)
  | fenceSatisfied (op : Nat)
  | scaleStorePerform (op : Nat)
  | windowEnable (die w : Nat)
  | windowDisable (die w : Nat)
  | windowPurgeDone (die w : Nat)
  | translationWalk (die ctx : Nat) (va : Word64)
  | walkerInvalidate (die : Nat) (value : Word64)
  | walkerInvalidateDone (die : Nat)
  | rinvPurgeDone (op : Nat)
  -- events of the engines
  | matrixPassEnd (quad entry : Nat)
  | matrixCommandRetire (quad entry : Nat)
  | copyRetire (op : Nat)
  | pairingArrival (arrival : Nat)
  | spillSlotWrite (spill : Nat)
  | coreHoldExpire (entry : Nat)
  | portHoldExpire (entry : Nat)
  | handleDeadlineExpire (ctx h : Nat)
  | linkFlitReceive (link : Nat) (flit : LinkFlit)
  | linkFailure (link : Nat)
  | switchRoute (packet : Nat)
  | destinationDeliver (packet : Nat)
  | fabricAckReceive (cmd : Nat) (last : Bool)
  | channelDeadlineExpire (ctx ch : Nat)
  | stepNoticeReceive (ctx ch step : Nat)
  | foremanEvaluate
  | foremanPublish (ctx : Nat)
  | winzeDrainStart (ctx : Nat)
  | winzeBatchComplete (ctx : Nat)
  -- events of the Adit clusters
  | mailboxBind (mailbox : Nat) (value : Word64)
  | mailboxUnbind (mailbox : Nat) (value : Word64)
  | mailboxStart (mailbox : Nat)
  | mailboxKill (mailbox : Nat)
  | episodeHartAssign (die : Nat)
  | actionAppend (mailbox : Nat)
  | observationTake (mailbox : Nat)
  | atake (die hart : Nat) (value : Word64)
  | actionHold (die hart : Nat)
  | opostStep (die hart : Nat) (value : Word64)
  | opostEnd (die hart : Nat) (value : Word64)
  | opostTerminal (die hart : Nat) (value : Word64)
  | curfewExpire (die hart : Nat)
  | hartException (die hart : Nat)
  | episodeEndComplete (mailbox : Nat)
  -- pre-emption, reliability and the Assayer
  | preemptRequest (cores prio : Nat) (source : PreemptSource)
  | teamSaved (team : Nat)
  | clusterResume (launch : Nat)
  | residualPeriod
  | residualWindowEnd
  | inversionTimeout (launch : Nat)
  | quadRetire (die quad : Nat)
  | intervalBoundaryComplete (team : Nat)
  | patrolScrub (sector : Nat) (finding : EccFinding)
  | masterFreeze (kind : MasterKind) (identity code : Nat)
  | assayerSample (launch team : Nat)
  | assayerReplayEnd (sample : Nat)
  | rowActivationAlert (die ctrl bank row : Nat)
  | bankHoldEnd (die ctrl bank : Nat)
  | alertsRead (die : Nat)
  | asampRead
  | adropRead
  | aunverRead
  | powerLimitThrottle (average : Nat)
  -- start-up, attestation and the host
  | powerOnReset
  | pcieFundamentalReset
  | coldStart
  | warmStart
  | startStepEnd (ok : Bool)
  | getVersion (request : List Byte)
  | getCapabilities (request : List Byte)
  | negotiateAlgorithms (request : List Byte)
  | getDigests (request : List Byte)
  | getCertificate (request : List Byte)
  | challenge (request : List Byte)
  | getMeasurements (request : List Byte)
  | hostWindowAccess (access : HostAccess)
  | registerWrite (offset : Nat) (value : Word64)
  | engineWrite (op : Nat)
  | sealMarkingDone (op : Nat)
  | driftLinkRetire (port : Nat)
  | masterReset (kind : MasterKind) (identity : Nat)
  deriving DecidableEq, Repr

/-- One move of the package. An event row of the opcode table is `event`; an instruction word issues by `port`; the rest are
moves that spec/ describes and that have no row of their own. -/
inductive Turn where
  /-- a bay's port issues the next word of its clause (R55, R56) -/
  | port (core bay : Nat) (p : Port)
  /-- an event of the package takes place -/
  | event (i : Instr)
  /-- one clk passes -/
  | tick
  /-- a pending store becomes visible on its writer's die (R93 step 2) -/
  | storeToDie (op : Nat)
  /-- an L1 line of a core is evicted (R80) -/
  | l1Evict (core line : Nat)
  /-- an L2 slice writes a dirty sector back to HBM (R86, R87) -/
  | writeBack (sector : Nat)
  /-- an error in a 32-bit word of on-chip storage, corrected or not (R315) -/
  | wordError (granule : Nat) (corrected : Bool)
  /-- an error in state that no single context owns, corrected or not (R317) -/
  | ownerlessError (pa len place : Nat) (corrected : Bool)
  /-- a hart executes the user-mode instruction at its program counter, in one hart cycle or more (R277, R291) -/
  | hart (die h cycles : Nat)
  /-- a monitor interrupt that wakes a hart from WFI (R277) -/
  | hartWake (die h : Nat)
  /-- the host reads bytes of BAR0 (R322) -/
  | registerRead (off n : Nat)
  /-- the host reads or writes BAR4, the MSI-X table and its PBA (R322) -/
  | tableAccess (access : HostAccess)
  /-- the management processor retires a switch port in the field (R16) -/
  | portRetire (port : Nat)
  deriving DecidableEq, Repr, Inhabited

end Sys2Proof
end

