-- ==== Sys2Proof/Decode.lean ====
section
/-! DEFINITION. Decoding and encoding (spec/11_encoding.md R126 to R149). A word's class stands in its clause header, so an
instruction is read from a header and a word. Decoding fills a format's fields and never looks at their legality: the
checks of R143 steps 4 to 6 belong to the issue of the word. -/

namespace Sys2Proof

/-- The six clause classes of R139. -/
inductive Class where
  | vector | memory | control | special | engine | system
  deriving DecidableEq, Repr

/-- CLASS[63:61]; 6 and 7 are reserved (R139). -/
def Class.ofBits : BitVec 3 → Option Class
  | 0 => some .vector
  | 1 => some .memory
  | 2 => some .control
  | 3 => some .special
  | 4 => some .engine
  | 5 => some .system
  | _ => none

/-- The code of a class in CLASS[63:61] (R139). -/
def Class.toBits : Class → BitVec 3
  | .vector => 0
  | .memory => 1
  | .control => 2
  | .special => 3
  | .engine => 4
  | .system => 5

/-- The fields of a clause header (R139). -/
structure Header where
  cls : BitVec 3
  count : BitVec 4
  wait : BitVec 6
  hint : BitVec 3
  reserved : BitVec 48
  deriving DecidableEq, Repr

/-- Reads a clause header (R139). -/
def Header.decode (h : Word64) : Header where
  cls := h.extractLsb' 61 3
  count := h.extractLsb' 57 4
  wait := h.extractLsb' 51 6
  hint := h.extractLsb' 48 3
  reserved := h.extractLsb' 0 48

/-- Writes a clause header (R139). -/
def Header.encode (h : Header) : Word64 := h.cls ++ h.count ++ h.wait ++ h.hint ++ h.reserved

/-- Why a word gives no instruction. -/
inductive Reject where
  /-- CLASS 6 or 7 (R139, R143 step 1) -/
  | reservedClass
  /-- an opcode value that R144 to R149 leave unassigned (R143 step 4) -/
  | unassignedOpcode
  /-- fewer bytes than a header and a word -/
  | truncated
  deriving DecidableEq, Repr

/-- The guard bits PN[19] and PRED[18:16] (R130). -/
def Guard.decode (w : Word64) : Guard := ⟨w.getLsbD 19, w.extractLsb' 16 3⟩

/-- The register form (R127). -/
def RWord.decode (w : Word64) : RWord where
  dst := w.extractLsb' 47 9
  a := w.extractLsb' 38 9
  b := w.extractLsb' 29 9
  c := w.extractLsb' 20 9
  guard := Guard.decode w
  func := w.extractLsb' 4 12
  look := w.extractLsb' 0 4

/-- The immediate form; IMM lies in four pieces (R134). -/
def IWord.decode (w : Word64) : IWord where
  imm := w.extractLsb' 20 18 ++ w.extractLsb' 6 10 ++ w.extractLsb' 56 4
  dst := w.extractLsb' 47 9
  a := w.extractLsb' 38 9
  guard := Guard.decode w
  look := w.extractLsb' 0 4

/-- IMOD[5:4] of an immediate-form word (R134). -/
def imodOf (w : Word64) : BitVec 2 := w.extractLsb' 4 2

/-- The memory form; OFF lies in two pieces (R135). -/
def MWord.decode (w : Word64) : MWord where
  dst := w.extractLsb' 47 9
  a := w.extractLsb' 38 9
  off := w.extractLsb' 20 18 ++ w.extractLsb' 11 2
  guard := Guard.decode w
  ctr := w.extractLsb' 13 3
  scope := w.extractLsb' 5 3
  size := w.extractLsb' 8 3
  x := w.getLsbD 4
  look := w.extractLsb' 0 4

/-- The paired word (R136). -/
def PWord.decode (w : Word64) : PWord where
  ha := ⟨w.extractLsb' 55 5, w.extractLsb' 47 8, w.extractLsb' 39 8, w.extractLsb' 31 8⟩
  hb := ⟨w.extractLsb' 26 5, w.extractLsb' 18 8, w.extractLsb' 10 8, w.extractLsb' 2 8⟩
  plook := w.extractLsb' 0 2

/-- OPC[63:56]. -/
def opcOf (w : Word64) : BitVec 8 := w.extractLsb' 56 8

/-- The register-form rows of the vector class, by opcode (R144). -/
def vectorRForm : Nat → Option (RWord → Instr)
  | 0x00 => some .nop
  | 0x01 => some .mov
  | 0x02 => some .sel
  | 0x04 => some .iadd
  | 0x05 => some .isub
  | 0x06 => some .imul
  | 0x07 => some .imulhi
  | 0x08 => some .imad
  | 0x09 => some .imin
  | 0x0A => some .imax
  | 0x0B => some .iabs
  | 0x0C => some .ineg
  | 0x0D => some .lea
  | 0x0E => some .popc
  | 0x0F => some .clz
  | 0x10 => some .brev
  | 0x18 => some .and
  | 0x19 => some .or
  | 0x1A => some .xor
  | 0x1B => some .not
  | 0x1C => some .andn
  | 0x1D => some .shl
  | 0x1E => some .shr
  | 0x1F => some .rotl
  | 0x28 => some .fadd
  | 0x29 => some .fsub
  | 0x2A => some .fmul
  | 0x2B => some .ffma
  | 0x2C => some .fmin
  | 0x2D => some .fmax
  | 0x2E => some .fminn
  | 0x2F => some .fmaxn
  | 0x30 => some .fabs
  | 0x31 => some .fneg
  | 0x32 => some .fcsgn
  | 0x38 => some .cvt
  | 0x39 => some .pack
  | 0x3A => some .unpack
  | 0x40 => some .icmp
  | 0x41 => some .fcmp
  | 0x42 => some .fclass
  | 0x48 => some .plop
  | 0x49 => some .pget
  | 0x4A => some .pset
  | _ => none

/-- The immediate forms of the vector class, by OPC[7:4] and IMOD (R144). -/
def vectorIForm : Nat → BitVec 2 → Option (IWord → Instr)
  | 0x8, m => some (.iaddImm m)
  | 0x9, m => some (.imulImm m)
  | 0xA, 0 => some .andImm
  | 0xA, 1 => some .orImm
  | 0xA, 2 => some .xorImm
  | 0xA, _ => some .andnImm
  | 0xB, m => some (.movImm m)
  | 0xC, m => some (.faddImm m)
  | 0xD, m => some (.fmulImm m)
  | 0xE, 0 => some .shlImm
  | 0xE, 1 => some .shrN32Imm
  | 0xE, 2 => some .shrS32Imm
  | 0xE, _ => some .rotlImm
  | _, _ => none

/-- The vector class (R144): register forms below 0x80, immediate forms 0x80 to 0xEF, paired words 0xF0 to 0xFF. -/
def decodeVector (w : Word64) : Option Instr :=
  let o := (opcOf w).toNat
  if o < 0x80 then (vectorRForm o).map (· (RWord.decode w))
  else if o < 0xF0 then (vectorIForm (o / 16) (imodOf w)).map (· (IWord.decode w))
  else some (.pairedWord (PWord.decode w))

/-- The memory-form rows of the memory class, by opcode (R145). -/
def memoryMForm : Nat → Option (MWord → Instr)
  | 0x00 => some .ldCa
  | 0x01 => some .ldCg
  | 0x02 => some .ldLu
  | 0x03 => some .ldCaAcq
  | 0x04 => some .ldCgAcq
  | 0x08 => some .st
  | 0x09 => some .stRel
  | 0x12 => some .ldfe
  | 0x13 => some .stfe
  | 0x15 => some .pref
  | _ => none

/-- The register-form rows of the memory class, by opcode (R145). -/
def memoryRForm : Nat → Option (RWord → Instr)
  | 0x10 => some .ldt
  | 0x11 => some .stt
  | 0x14 => some .disc
  | 0x18 => some .atom
  | 0x19 => some .atomFadd
  | 0x20 => some .ctb
  | 0x21 => some .ctbseal
  | 0x28 => some .fence
  | 0x29 => some .wait
  | _ => none

/-- The memory class (R145). -/
def decodeMemory (w : Word64) : Option Instr :=
  let o := (opcOf w).toNat
  match memoryMForm o with
  | some f => some (f (MWord.decode w))
  | none => (memoryRForm o).map (· (RWord.decode w))

/-- The register-form rows of the control class, by opcode (R146). -/
def controlRForm : Nat → Option (RWord → Instr)
  | 0x01 => some .brx
  | 0x03 => some .ret
  | 0x04 => some .exit
  | 0x05 => some .spawn
  | 0x06 => some .yield
  | 0x08 => some .barArrive
  | 0x09 => some .barArriveb
  | 0x0A => some .barWait
  | 0x0C => some .claim
  | 0x0D => some .release
  | _ => none

/-- The control class (R146): BRA 0x10 to 0x1F and CALL 0x20 to 0x2F are immediate forms. -/
def decodeControl (w : Word64) : Option Instr :=
  let o := (opcOf w).toNat
  if o / 16 = 1 then some (.bra (imodOf w) (IWord.decode w))
  else if o / 16 = 2 then some (.call (imodOf w) (IWord.decode w))
  else (controlRForm o).map (· (RWord.decode w))

/-- The special class, by opcode (R147). -/
def specialRForm : Nat → Option (RWord → Instr)
  | 0x00 => some .exp2
  | 0x01 => some .log2
  | 0x02 => some .rcp
  | 0x03 => some .rsq
  | 0x04 => some .sin
  | 0x05 => some .cos
  | 0x08 => some .xshfl
  | 0x09 => some .xbcast
  | 0x0A => some .xvote
  | 0x0B => some .xballot
  | 0x0C => some .xscan
  | 0x0D => some .xred
  | _ => none

/-- The engine-command class, by opcode (R148). -/
def engineRForm : Nat → Option (RWord → Instr)
  | 0x00 => some .mmul
  | 0x01 => some .mmerge
  | 0x02 => some .mdrain
  | 0x03 => some .mcfg
  | 0x08 => some .cpy
  | 0x09 => some .cpyt
  | 0x10 => some .fsend
  | 0x11 => some .fmcast
  | 0x12 => some .fred
  | 0x13 => some .fsparse
  | 0x18 => some .rgres
  | 0x19 => some .rgpub
  | 0x1A => some .rgtake
  | 0x1B => some .rgdone
  | 0x1C => some .nrec
  | 0x20 => some .bwpush
  | 0x21 => some .wver
  | 0x28 => some .mbsend
  | 0x29 => some .mbrecv
  | _ => none

/-- The system class, by opcode (R149). -/
def systemRForm : Nat → Option (RWord → Instr)
  | 0x00 => some .trap
  | 0x01 => some .sysret
  | 0x02 => some .srd
  | 0x03 => some .swr
  | 0x04 => some .rinv
  | _ => none

/-- The instruction of a word in a clause of the given class; an unassigned opcode is rejected (R143 step 4, R144).
[DEDUCED: log entry 27] -/
def decodeWord (c : Class) (w : Word64) : Except Reject Instr :=
  let r := match c with
    | .vector => decodeVector w
    | .memory => decodeMemory w
    | .control => decodeControl w
    | .special => (specialRForm (opcOf w).toNat).map (· (RWord.decode w))
    | .engine => (engineRForm (opcOf w).toNat).map (· (RWord.decode w))
    | .system => (systemRForm (opcOf w).toNat).map (· (RWord.decode w))
  match r with
  | some i => .ok i
  | none => .error .unassignedOpcode

/-- Reads one header and its first word from bytes, and gives the bytes after them. [DEDUCED: log entry 27] -/
def decodeBytes (bs : List Byte) : Except Reject (Instr × List Byte) :=
  if bs.length < 16 then .error .truncated
  else
    match Class.ofBits (Header.decode (BitVec.ofNat 64 (leValue (bs.take 8)))).cls with
    | none => .error .reservedClass
    | some c =>
      match decodeWord c (BitVec.ofNat 64 (leValue ((bs.drop 8).take 8))) with
      | .ok i => .ok (i, bs.drop 16)
      | .error e => .error e

/-- The instruction of a one-word clause given as a table word: the header in bits 63 to 0 and the word in bits 127 to 64,
each stored little-endian at rising addresses (R4, R139). [DEDUCED: log entry 27] -/
def decodeTableWord (_nbits w : Nat) : Option Instr :=
  match decodeBytes (leBytes 16 w) with
  | .ok (i, _) => some i
  | .error _ => none

/-! The encoder, written from the same tables. -/

/-- PN and PRED as bits 19 to 16 (R130). -/
def Guard.encode (g : Guard) : BitVec 4 := BitVec.ofBool g.pn ++ g.pred

/-- A register-form word (R127). -/
def RWord.encode (opc : BitVec 8) (w : RWord) : Word64 :=
  opc ++ w.dst ++ w.a ++ w.b ++ w.c ++ w.guard.encode ++ w.func ++ w.look

/-- An immediate-form word (R134). -/
def IWord.encode (opc : BitVec 4) (imod : BitVec 2) (w : IWord) : Word64 :=
  opc ++ w.imm.extractLsb' 0 4 ++ w.dst ++ w.a ++ w.imm.extractLsb' 14 18 ++ w.guard.encode ++ w.imm.extractLsb' 4 10 ++ imod ++ w.look

/-- A memory-form word (R135). -/
def MWord.encode (opc : BitVec 8) (w : MWord) : Word64 :=
  opc ++ w.dst ++ w.a ++ w.off.extractLsb' 2 18 ++ w.guard.encode ++ w.ctr ++ w.off.extractLsb' 0 2 ++ w.size ++ w.scope
    ++ BitVec.ofBool w.x ++ w.look

/-- A compact half (R136). -/
def Half.encode (h : Half) : BitVec 29 := h.op ++ h.d ++ h.a ++ h.b

/-- A paired word (R136). -/
def PWord.encode (w : PWord) : Word64 := (0xF : BitVec 4) ++ w.ha.encode ++ w.hb.encode ++ w.plook

/-- The class and word of an instruction; an event has none (R144 to R149). -/
def encode : Instr → Option (Class × Word64)
  | .nop w => some (.vector, w.encode 0x00)
  | .mov w => some (.vector, w.encode 0x01)
  | .sel w => some (.vector, w.encode 0x02)
  | .iadd w => some (.vector, w.encode 0x04)
  | .isub w => some (.vector, w.encode 0x05)
  | .imul w => some (.vector, w.encode 0x06)
  | .imulhi w => some (.vector, w.encode 0x07)
  | .imad w => some (.vector, w.encode 0x08)
  | .imin w => some (.vector, w.encode 0x09)
  | .imax w => some (.vector, w.encode 0x0A)
  | .iabs w => some (.vector, w.encode 0x0B)
  | .ineg w => some (.vector, w.encode 0x0C)
  | .lea w => some (.vector, w.encode 0x0D)
  | .popc w => some (.vector, w.encode 0x0E)
  | .clz w => some (.vector, w.encode 0x0F)
  | .brev w => some (.vector, w.encode 0x10)
  | .and w => some (.vector, w.encode 0x18)
  | .or w => some (.vector, w.encode 0x19)
  | .xor w => some (.vector, w.encode 0x1A)
  | .not w => some (.vector, w.encode 0x1B)
  | .andn w => some (.vector, w.encode 0x1C)
  | .shl w => some (.vector, w.encode 0x1D)
  | .shr w => some (.vector, w.encode 0x1E)
  | .rotl w => some (.vector, w.encode 0x1F)
  | .fadd w => some (.vector, w.encode 0x28)
  | .fsub w => some (.vector, w.encode 0x29)
  | .fmul w => some (.vector, w.encode 0x2A)
  | .ffma w => some (.vector, w.encode 0x2B)
  | .fmin w => some (.vector, w.encode 0x2C)
  | .fmax w => some (.vector, w.encode 0x2D)
  | .fminn w => some (.vector, w.encode 0x2E)
  | .fmaxn w => some (.vector, w.encode 0x2F)
  | .fabs w => some (.vector, w.encode 0x30)
  | .fneg w => some (.vector, w.encode 0x31)
  | .fcsgn w => some (.vector, w.encode 0x32)
  | .cvt w => some (.vector, w.encode 0x38)
  | .pack w => some (.vector, w.encode 0x39)
  | .unpack w => some (.vector, w.encode 0x3A)
  | .icmp w => some (.vector, w.encode 0x40)
  | .fcmp w => some (.vector, w.encode 0x41)
  | .fclass w => some (.vector, w.encode 0x42)
  | .plop w => some (.vector, w.encode 0x48)
  | .pget w => some (.vector, w.encode 0x49)
  | .pset w => some (.vector, w.encode 0x4A)
  | .iaddImm m w => some (.vector, w.encode 0x8 m)
  | .imulImm m w => some (.vector, w.encode 0x9 m)
  | .andImm w => some (.vector, w.encode 0xA 0)
  | .orImm w => some (.vector, w.encode 0xA 1)
  | .xorImm w => some (.vector, w.encode 0xA 2)
  | .andnImm w => some (.vector, w.encode 0xA 3)
  | .movImm m w => some (.vector, w.encode 0xB m)
  | .faddImm m w => some (.vector, w.encode 0xC m)
  | .fmulImm m w => some (.vector, w.encode 0xD m)
  | .shlImm w => some (.vector, w.encode 0xE 0)
  | .shrN32Imm w => some (.vector, w.encode 0xE 1)
  | .shrS32Imm w => some (.vector, w.encode 0xE 2)
  | .rotlImm w => some (.vector, w.encode 0xE 3)
  | .pairedWord w => some (.vector, w.encode)
  | .exp2 w => some (.special, w.encode 0x00)
  | .log2 w => some (.special, w.encode 0x01)
  | .rcp w => some (.special, w.encode 0x02)
  | .rsq w => some (.special, w.encode 0x03)
  | .sin w => some (.special, w.encode 0x04)
  | .cos w => some (.special, w.encode 0x05)
  | .xshfl w => some (.special, w.encode 0x08)
  | .xbcast w => some (.special, w.encode 0x09)
  | .xvote w => some (.special, w.encode 0x0A)
  | .xballot w => some (.special, w.encode 0x0B)
  | .xscan w => some (.special, w.encode 0x0C)
  | .xred w => some (.special, w.encode 0x0D)
  | .bra m w => some (.control, w.encode 0x1 m)
  | .call m w => some (.control, w.encode 0x2 m)
  | .brx w => some (.control, w.encode 0x01)
  | .ret w => some (.control, w.encode 0x03)
  | .exit w => some (.control, w.encode 0x04)
  | .spawn w => some (.control, w.encode 0x05)
  | .yield w => some (.control, w.encode 0x06)
  | .barArrive w => some (.control, w.encode 0x08)
  | .barArriveb w => some (.control, w.encode 0x09)
  | .barWait w => some (.control, w.encode 0x0A)
  | .claim w => some (.control, w.encode 0x0C)
  | .release w => some (.control, w.encode 0x0D)
  | .ldCa w => some (.memory, w.encode 0x00)
  | .ldCg w => some (.memory, w.encode 0x01)
  | .ldLu w => some (.memory, w.encode 0x02)
  | .ldCaAcq w => some (.memory, w.encode 0x03)
  | .ldCgAcq w => some (.memory, w.encode 0x04)
  | .st w => some (.memory, w.encode 0x08)
  | .stRel w => some (.memory, w.encode 0x09)
  | .ldt w => some (.memory, w.encode 0x10)
  | .stt w => some (.memory, w.encode 0x11)
  | .ldfe w => some (.memory, w.encode 0x12)
  | .stfe w => some (.memory, w.encode 0x13)
  | .disc w => some (.memory, w.encode 0x14)
  | .pref w => some (.memory, w.encode 0x15)
  | .atom w => some (.memory, w.encode 0x18)
  | .atomFadd w => some (.memory, w.encode 0x19)
  | .ctb w => some (.memory, w.encode 0x20)
  | .ctbseal w => some (.memory, w.encode 0x21)
  | .fence w => some (.memory, w.encode 0x28)
  | .wait w => some (.memory, w.encode 0x29)
  | .trap w => some (.system, w.encode 0x00)
  | .sysret w => some (.system, w.encode 0x01)
  | .srd w => some (.system, w.encode 0x02)
  | .swr w => some (.system, w.encode 0x03)
  | .rinv w => some (.system, w.encode 0x04)
  | .mmul w => some (.engine, w.encode 0x00)
  | .mmerge w => some (.engine, w.encode 0x01)
  | .mdrain w => some (.engine, w.encode 0x02)
  | .mcfg w => some (.engine, w.encode 0x03)
  | .cpy w => some (.engine, w.encode 0x08)
  | .cpyt w => some (.engine, w.encode 0x09)
  | .fsend w => some (.engine, w.encode 0x10)
  | .fmcast w => some (.engine, w.encode 0x11)
  | .fred w => some (.engine, w.encode 0x12)
  | .fsparse w => some (.engine, w.encode 0x13)
  | .rgres w => some (.engine, w.encode 0x18)
  | .rgpub w => some (.engine, w.encode 0x19)
  | .rgtake w => some (.engine, w.encode 0x1A)
  | .rgdone w => some (.engine, w.encode 0x1B)
  | .nrec w => some (.engine, w.encode 0x1C)
  | .bwpush w => some (.engine, w.encode 0x20)
  | .wver w => some (.engine, w.encode 0x21)
  | .mbsend w => some (.engine, w.encode 0x28)
  | .mbrecv w => some (.engine, w.encode 0x29)
  | _ => none

/-- LOOK of a word, PLOOK of a paired word, 0 for an event (R131, R136). -/
def Instr.look : Instr → Nat
  | .pairedWord w => w.plook.toNat
  | i =>
    match encode i with
    | some (_, w) => (w.extractLsb' 0 4).toNat
    | none => 0

/-- A one-word clause holding the instruction, no WAIT and no HINT, as sixteen bytes (R139). -/
def encodeClause (i : Instr) : Option (List Byte) :=
  (encode i).map fun (c, w) =>
    leBytes 8 (Header.encode ⟨c.toBits, 0, 0, 0, 0⟩).toNat ++ leBytes 8 w.toNat

end Sys2Proof
end

