-- ==== Sys2Proof/Config.lean ====
section
/-! DEFINITION. What each unit or environment fixes and spec/ leaves open: opaque constants, so that no proof can lean on a
value. Each is named in the assumption log. -/

namespace Sys2Proof.Config

/-- The n-th free value: a result, a register or a choice that spec/ does not fix. [DESIGN CHOICE: log entry 1] -/
opaque freeWord : Nat → Word64

/-- The move that comes next when the state's agenda names none: the n-th free choice among all moves.
[DESIGN CHOICE: log entry 2] -/
opaque freeTurn : Nat → Turn

/-- What a peer package holds at an address of its memory, as a fetch finds it at the n-th free choice (R76, R140).
[DEDUCED: log entry 106] -/
opaque peerCode : Nat → Nat → Nat → Word64

/-- This package's number, of 16 bits (R254, SRC; R259, ROOTPKG). [DESIGN CHOICE: log entry 5] -/
opaque package : BitVec 16

/-- And as a number. -/
def packageNumber : Nat := package.toNat

/-- Whether a bay, by core × 8 + bay, is held while the power limit that the n-th free choice began is in force (R323).
[DESIGN CHOICE: log entry 7] -/
opaque heldBay : Nat → Nat → Bool

/-- The bank, of those of its stack, that serves a physical address (R320). [DESIGN CHOICE: log entry 7] -/
opaque dramBank : Nat → Nat
/-- The row of its bank that holds a physical address (R320). [DESIGN CHOICE: log entry 7] -/
opaque dramRow : Nat → Nat

/-- The bytes of the Sv39 tables that the monitor builds at the head of an arena, by the arena's base and size and the image's, and the
offset (R282). [DEDUCED: log entry 92] -/
opaque arenaTable : Nat → Nat → Nat → Nat → Nat → Byte

/-- The number of a master kind in a freeze record (R301). [DESIGN CHOICE: log entry 8] -/
opaque masterCode : MasterKind → Nat

/-- The first and second retired quad of a die as fused at test, before reduction to two different quads (R16).
[DESIGN CHOICE: log entry 6] -/
opaque fuse : Nat → Nat

/-- The measurement with an index 1 to 3, of a firmware image (R329). [DESIGN CHOICE: log entry 9] -/
opaque measurement : Nat → List Byte

/-- Measurement 4, of the fuses and the retirement map: retired quads and retired ports (R16, R329).
[DESIGN CHOICE: log entry 9] -/
opaque mapMeasurement : List Nat → List Nat → List Byte

/-- Measurement 5, of the calibration record that a start wrote by a free choice, or of none (R329, R330).
[DESIGN CHOICE: log entry 9] -/
opaque calMeasurement : Option Nat → List Byte

/-- The certificate chain of the unit (R329). [DESIGN CHOICE: log entry 9] -/
opaque certificate : List Byte

/-- The signature of the unit's key over a message (R329). [DESIGN CHOICE: log entry 9] -/
opaque signature : List Byte → List Byte

/-- The two retired quads of each die, as keys die × 36 + quad: always two different quads of 0 to 35 (R16).
[DESIGN CHOICE: log entry 6] -/
def fusedQuads : List Nat :=
  (List.range 4).flatMap fun die =>
    [die * 36 + fuse die % 36, die * 36 + (fuse die % 36 + 1 + fuse (4 + die) % 35) % 36]

end Sys2Proof.Config
end

