-- ==== Sys2Proof/Machine/Bits.lean ====
section
/-! DEFINITION. Bit-field and integer helpers over natural numbers, of one width at a time (R4, R8, R27, R34). -/

namespace Sys2Proof.Machine

/-- x[lo + len - 1 : lo] (R8). -/
def bits (x lo len : Nat) : Nat := x / 2 ^ lo % 2 ^ len

/-- Bit n of x. -/
def bit (x n : Nat) : Bool := x / 2 ^ n % 2 = 1

/-- The low w bits of x (R8). -/
def low (w x : Nat) : Nat := x % 2 ^ w

/-- The two's complement value of the low w bits of x (R27). -/
def signed (w x : Nat) : Int :=
  if low w x < 2 ^ (w - 1) then (low w x : Int) else (low w x : Int) - (2 ^ w : Nat)

/-- The low w bits of an exact integer, modulo 2^w (R8). -/
def wrap (w : Nat) (i : Int) : Nat := (i % ((2 ^ w : Nat) : Int)).toNat

/-- clamp(x, lo, hi): the nearest value within the bounds (R43). -/
def clampInt (x lo hi : Int) : Int := if x < lo then lo else if hi < x then hi else x

/-- x with the field [lo + len - 1 : lo] replaced by v. -/
def putBits (x lo len v : Nat) : Nat :=
  x - bits x lo len * 2 ^ lo + low len v * 2 ^ lo

/-- x with bit n set to b. -/
def putBit (x n : Nat) (b : Bool) : Nat := putBits x n 1 (if b then 1 else 0)

/-- The number of one bits among the low w bits of x (R164, POPC). -/
def popCount : Nat → Nat → Nat
  | 0, _ => 0
  | w + 1, x => x % 2 + popCount w (x / 2)

/-- The low w bits of x in reverse order (R164, BREV). -/
def bitReverse : Nat → Nat → Nat
  | 0, _ => 0
  | w + 1, x => x % 2 * 2 ^ w + bitReverse w (x / 2)

/-- The number of zero bits above the highest one bit of the low w bits of x (R164, CLZ). -/
def leadingZeros (w x : Nat) : Nat := if low w x = 0 then w else w - 1 - Nat.log2 (low w x)

/-- Bitwise complement in w bits. -/
def complement (w x : Nat) : Nat := 2 ^ w - 1 - low w x

/-- The indices below w of the one bits of x, ascending. -/
def oneBits (w x : Nat) : List Nat := (List.range w).filter (bit x)

/-- ceil(a / b). -/
def ceilDiv (a b : Nat) : Nat := (a + b - 1) / b

/-- ceil_log2(n): the least k with 2^k ≥ n (R43). -/
def ceilLog2 (n : Nat) : Nat := if n ≤ 1 then 0 else Nat.log2 (n - 1) + 1

/-- mix64 (R34). -/
def mix64 (z : Nat) : Nat :=
  let a := low 64 ((z ^^^ (z >>> 30)) * 0xBF58476D1CE4E5B9)
  let b := low 64 ((a ^^^ (a >>> 27)) * 0x94D049BB133111EB)
  b ^^^ (b >>> 31)

/-- rand32 (R34). -/
def rand32 (launch tid addr draw elem : Nat) : Nat :=
  let k := mix64 (low 64 launch ^^^ 0x9E3779B97F4A7C15)
  let k := mix64 (k ^^^ low 64 tid)
  let k := mix64 (k ^^^ low 64 addr)
  let k := mix64 (k ^^^ low 64 (low 32 draw * 65536) ^^^ low 16 elem)
  k / 2 ^ 32

end Sys2Proof.Machine
end

