-- ==== Sys2Proof/Machine/Float.lean ====
section
/-! DEFINITION. The floating-point formats, exact values, rounding and order of spec/03_numbers.md (R22 to R37). An
encoding is a natural number below 2 to the width of its format. -/

namespace Sys2Proof.Machine

/-- The binary floating-point formats of R22. -/
inductive FFmt where
  | f64 | f32 | f16 | bf16 | e5m2 | e4m3 | e2m1
  deriving DecidableEq, Repr

/-- E bits (R22). -/
def FFmt.ebits : FFmt → Nat
  | .f64 => 11
  | .f32 => 8
  | .f16 => 5
  | .bf16 => 8
  | .e5m2 => 5
  | .e4m3 => 4
  | .e2m1 => 2

/-- M bits (R22). -/
def FFmt.mbits : FFmt → Nat
  | .f64 => 52
  | .f32 => 23
  | .f16 => 10
  | .bf16 => 7
  | .e5m2 => 2
  | .e4m3 => 3
  | .e2m1 => 1

/-- The width of an encoding (R22). -/
def FFmt.width (f : FFmt) : Nat := 1 + f.ebits + f.mbits

/-- The exponent bias (R22). -/
def FFmt.bias (f : FFmt) : Nat := 2 ^ (f.ebits - 1) - 1

/-- The positive encoding of the largest finite value (R22). -/
def FFmt.maxFinite : FFmt → Nat
  | .f64 => 0x7FEFFFFFFFFFFFFF
  | .f32 => 0x7F7FFFFF
  | .f16 => 0x7BFF
  | .bf16 => 0x7F7F
  | .e5m2 => 0x7B
  | .e4m3 => 0x7E
  | .e2m1 => 0x7

/-- The canonical NaN, or +0 where the format has none (R24, R33). -/
def FFmt.canonicalNaN : FFmt → Nat
  | .f64 => 0x7FF8000000000000
  | .f32 => 0x7FC00000
  | .f16 => 0x7E00
  | .bf16 => 0x7FC0
  | .e5m2 => 0x7E
  | .e4m3 => 0x7F
  | .e2m1 => 0

/-- Whether the format has infinities (R22). -/
def FFmt.hasInf : FFmt → Bool
  | .e4m3 => false
  | .e2m1 => false
  | _ => true

/-- The magnitude of +∞: the encoding after the largest finite one, where the format has infinities (R22). -/
def FFmt.infinity (f : FFmt) : Nat := f.maxFinite + 1

/-- The sign bit's weight. -/
def FFmt.signBit (f : FFmt) : Nat := 2 ^ (f.width - 1)

/-- An encoding's sign. -/
def FFmt.isNeg (f : FFmt) (c : Nat) : Bool := bit c (f.width - 1)

/-- An encoding without its sign. -/
def FFmt.magnitude (f : FFmt) (c : Nat) : Nat := low (f.width - 1) c

/-- is_nan (R22). -/
def FFmt.isNaN (f : FFmt) (c : Nat) : Bool :=
  match f with
  | .e2m1 => false
  | .e4m3 => f.magnitude c = 0x7F
  | _ => f.infinity < f.magnitude c

/-- is_inf (R22). -/
def FFmt.isInf (f : FFmt) (c : Nat) : Bool := f.hasInf && f.magnitude c = f.infinity

/-- is_finite (R22). -/
def FFmt.isFinite (f : FFmt) (c : Nat) : Bool := !f.isNaN c && !f.isInf c

/-- Whether the encoding is a subnormal: E zero, M not (R23). -/
def FFmt.isSubnormal (f : FFmt) (c : Nat) : Bool :=
  f.magnitude c ≠ 0 && f.magnitude c < 2 ^ f.mbits

/-- An exact real, or ±∞ or NaN: what R33 rounds. `fin neg num den` is ± num / den with `den` above zero; a zero keeps its
sign. -/
inductive Exact where
  | nan
  | inf (neg : Bool)
  | fin (neg : Bool) (num den : Nat)
  deriving DecidableEq, Repr

/-- 2^e as a numerator and a denominator. -/
def pow2Frac (e : Int) : Nat × Nat := if 0 ≤ e then (2 ^ e.toNat, 1) else (1, 2 ^ (-e).toNat)

/-- m × 2^e with a sign. -/
def Exact.scaled (neg : Bool) (m : Nat) (e : Int) : Exact :=
  .fin neg (m * (pow2Frac e).1) (pow2Frac e).2

/-- decode(fmt, code) for a floating-point format (R23). -/
def FFmt.decode (f : FFmt) (c : Nat) : Exact :=
  let n := f.isNeg c
  let mag := f.magnitude c
  let e := mag / 2 ^ f.mbits
  let m := low f.mbits mag
  if f.isNaN c then .nan
  else if f.isInf c then .inf n
  else if e = 0 then .scaled n m (1 - f.bias - f.mbits : Int)
  else .scaled n (2 ^ f.mbits + m) (e - f.bias - f.mbits : Int)

/-- The rounding modes of R33. -/
inductive Mode where
  | rn | rz | rp | rm | rs
  deriving DecidableEq, Repr

/-- RND (R132); 5 to 7 are reserved. -/
def Mode.ofCode : Nat → Option Mode
  | 0 => some .rn
  | 1 => some .rz
  | 2 => some .rp
  | 3 => some .rm
  | 4 => some .rs
  | _ => none

/-- overflow (R33). -/
def FFmt.overflow (f : FFmt) (neg : Bool) (mode : Mode) (sat : Bool) : Nat :=
  let s := if neg then f.signBit else 0
  if sat || f = .e2m1 then s + f.maxFinite
  else if f = .e4m3 then f.canonicalNaN
  else match mode with
    | .rn => s + f.infinity
    | .rs => s + f.infinity
    | .rz => s + f.maxFinite
    | .rp => if neg then s + f.maxFinite else s + f.infinity
    | .rm => if neg then s + f.infinity else s + f.maxFinite

/-- floor(log2(num / den)) for num, den above zero. -/
def floorLog2Frac (num den : Nat) : Int :=
  let l : Int := (Nat.log2 num : Int) - (Nat.log2 den : Int)
  let (p, q) := pow2Frac l
  if den * p ≤ num * q then l else l - 1

/-- The rounding decision of R33 and R36: whether a magnitude lo + rem/den units, 0 < rem < den, rounds away from zero. -/
def roundsUp (mode : Mode) (neg : Bool) (lo rem den rnd : Nat) : Bool :=
  match mode with
  | .rn => den < 2 * rem || (2 * rem = den && lo % 2 = 1)
  | .rz => false
  | .rp => !neg
  | .rm => neg
  | .rs => rnd < rem * 2 ^ 32 / den

/-- A non-negative num / den rounded to an integer by the mode. -/
def roundInteger (mode : Mode) (neg : Bool) (num den rnd : Nat) : Nat :=
  let lo := num / den
  let rem := num % den
  if rem = 0 then lo else if roundsUp mode neg lo rem den rnd then lo + 1 else lo

/-- round_to (R33). The exponent of the rounding unit is that of the value or of the subnormals, whichever is larger; the
code of y units at unit exponent k above the subnormals' is k × 2^m + y. -/
def roundTo (f : FFmt) (x : Exact) (mode : Mode) (sat fz : Bool) (rnd : Nat) : Nat :=
  match x with
  | .nan => f.canonicalNaN
  | .inf n => f.overflow n mode sat
  | .fin n num den =>
    let s := if n then f.signBit else 0
    if num = 0 then s
    else
      let qmin : Int := 1 - f.bias - f.mbits
      let q : Int := max (floorLog2Frac num den - f.mbits) qmin
      let (up, dn) := pow2Frac q
      let y := roundInteger mode n (num * dn) (den * up) rnd
      let code := (q - qmin).toNat * 2 ^ f.mbits + y
      if f.maxFinite < code then f.overflow n mode sat
      else if fz && (f = .f32 || f = .f64) && code < 2 ^ f.mbits then s
      else s + code

/-- A subnormal FP32 or FP64 input read under .FZ: a zero of its own sign (R26). -/
def flushInput (f : FFmt) (fz : Bool) (c : Nat) : Nat :=
  if fz && (f = .f32 || f = .f64) && f.isSubnormal c then (if f.isNeg c then f.signBit else 0) else c

/-- The sign of an exact zero that is not fixed by its operands: −0 under .RM, +0 otherwise (R168). -/
def zeroNeg (mode : Mode) : Bool := mode = .rm

/-- Whether an exact value is a zero. -/
def Exact.isZero : Exact → Bool
  | .fin _ num _ => num = 0
  | _ => false

/-- The sign of an exact value, false for NaN. -/
def Exact.neg? : Exact → Bool
  | .nan => false
  | .inf n => n
  | .fin n _ _ => n

/-- Negation of an exact value. -/
def Exact.negate : Exact → Exact
  | .nan => .nan
  | .inf n => .inf (!n)
  | .fin n a b => .fin (!n) a b

/-- x + y exactly, with the zero of R168. -/
def Exact.add (mode : Mode) (x y : Exact) : Exact :=
  match x, y with
  | .nan, _ => .nan
  | _, .nan => .nan
  | .inf a, .inf b => if a = b then .inf a else .nan
  | .inf a, _ => .inf a
  | _, .inf b => .inf b
  | .fin na a b, .fin nc c d =>
    if a = 0 && c = 0 then .fin (if na = nc then na else zeroNeg mode) 0 1
    else
      let p := a * d
      let q := c * b
      if na = nc then .fin na (p + q) (b * d)
      else if p = q then .fin (zeroNeg mode) 0 1
      else if q < p then .fin na (p - q) (b * d)
      else .fin nc (q - p) (b * d)

/-- x × y exactly; 0 × ∞ is NaN (R168). -/
def Exact.mul (x y : Exact) : Exact :=
  match x, y with
  | .nan, _ => .nan
  | _, .nan => .nan
  | .inf a, .inf b => .inf (a != b)
  | .inf a, .fin n num _ => if num = 0 then .nan else .inf (a != n)
  | .fin n num _, .inf b => if num = 0 then .nan else .inf (n != b)
  | .fin na a b, .fin nc c d => .fin (na != nc) (a * c) (b * d)

/-- One IEEE 754 addition in a format (R8, R168). -/
def fpAdd (f : FFmt) (mode : Mode) (sat fz : Bool) (rnd a b : Nat) : Nat :=
  roundTo f (Exact.add mode (f.decode (flushInput f fz a)) (f.decode (flushInput f fz b))) mode sat fz rnd

/-- One IEEE 754 multiplication in a format (R8, R168). -/
def fpMul (f : FFmt) (mode : Mode) (sat fz : Bool) (rnd a b : Nat) : Nat :=
  roundTo f (Exact.mul (f.decode (flushInput f fz a)) (f.decode (flushInput f fz b))) mode sat fz rnd

/-- One fused multiply-add, rounded once (R168). -/
def fpFma (f : FFmt) (mode : Mode) (sat fz : Bool) (rnd a b c : Nat) : Nat :=
  roundTo f (Exact.add mode (Exact.mul (f.decode (flushInput f fz a)) (f.decode (flushInput f fz b)))
    (f.decode (flushInput f fz c))) mode sat fz rnd

/-- An encoding with its sign bit inverted (R169). -/
def fpNegate (f : FFmt) (a : Nat) : Nat := low f.width a ^^^ f.signBit

/-- An encoding with its sign bit cleared (R169). -/
def fpAbs (f : FFmt) (a : Nat) : Nat := f.magnitude a

/-- a with the sign bit of b (R169). -/
def fpCopySign (f : FFmt) (a b : Nat) : Nat := f.magnitude a + (if f.isNeg b then f.signBit else 0)

/-- One IEEE 754 subtraction: x + (−y) (R168). -/
def fpSub (f : FFmt) (mode : Mode) (sat fz : Bool) (rnd a b : Nat) : Nat :=
  fpAdd f mode sat fz rnd a (fpNegate f b)

/-- total_key (R37). -/
def totalKey (f : FFmt) (c : Nat) : Nat :=
  if f.isNeg c then complement f.width c else low f.width c ^^^ f.signBit

/-- order_min (R37). -/
def orderMin (f : FFmt) (a b : Nat) : Nat := if totalKey f a ≤ totalKey f b then a else b

/-- order_max (R37). -/
def orderMax (f : FFmt) (a b : Nat) : Nat := if totalKey f a ≤ totalKey f b then b else a

/-- min_number: IEEE 754-2019 minimumNumber (R37). -/
def minNumber (f : FFmt) (a b : Nat) : Nat :=
  if f.isNaN a && f.isNaN b then f.canonicalNaN
  else if f.isNaN a then b else if f.isNaN b then a else orderMin f a b

/-- max_number: IEEE 754-2019 maximumNumber (R37). -/
def maxNumber (f : FFmt) (a b : Nat) : Nat :=
  if f.isNaN a && f.isNaN b then f.canonicalNaN
  else if f.isNaN a then b else if f.isNaN b then a else orderMax f a b

/-- IEEE 754 compareQuietEqual (R171, EQN). -/
def quietEqual (f : FFmt) (a b : Nat) : Bool :=
  !f.isNaN a && !f.isNaN b && (low f.width a = low f.width b || (f.magnitude a = 0 && f.magnitude b = 0))

/-- IEEE 754 compareQuietLess (R171, LTN). -/
def quietLess (f : FFmt) (a b : Nat) : Bool :=
  !f.isNaN a && !f.isNaN b && !(f.magnitude a = 0 && f.magnitude b = 0) && totalKey f a < totalKey f b

/-- The class bit number of FCLASS (R172). -/
def classBit (f : FFmt) (c : Nat) : Nat :=
  let n := f.isNeg c
  if f.isNaN c then 8
  else if f.isInf c then (if n then 0 else 7)
  else if f.magnitude c = 0 then (if n then 3 else 4)
  else if f.isSubnormal c then (if n then 2 else 5)
  else (if n then 1 else 6)

end Sys2Proof.Machine
end

