-- ==== Sys2Proof/Machine/Convert.lean ====
section
/-! DEFINITION. Element types, DS8, block scales, conversions and inline constants (R27 to R36, R129, R132). -/

namespace Sys2Proof.Machine

/-- The element types of R132. -/
inductive Ty where
  | s8 | s16 | s32 | s64 | n8 | n16 | n32 | n64 | s4 | n4
  | f64 | f32 | f16 | bf16 | e5m2 | e4m3 | e2m1 | ds8
  deriving DecidableEq, Repr

/-- The type of a T code (R132). -/
def Ty.ofCode : Nat → Option Ty
  | 0x00 => some .s8
  | 0x01 => some .s16
  | 0x02 => some .s32
  | 0x03 => some .s64
  | 0x04 => some .n8
  | 0x05 => some .n16
  | 0x06 => some .n32
  | 0x07 => some .n64
  | 0x08 => some .s4
  | 0x09 => some .n4
  | 0x10 => some .f64
  | 0x11 => some .f32
  | 0x12 => some .f16
  | 0x13 => some .bf16
  | 0x14 => some .e5m2
  | 0x15 => some .e4m3
  | 0x16 => some .e2m1
  | 0x17 => some .ds8
  | _ => none

/-- The width of an element (R22, R27, R28). -/
def Ty.width : Ty → Nat
  | .s8 => 8
  | .s16 => 16
  | .s32 => 32
  | .s64 => 64
  | .n8 => 8
  | .n16 => 16
  | .n32 => 32
  | .n64 => 64
  | .s4 => 4
  | .n4 => 4
  | .f64 => 64
  | .f32 => 32
  | .f16 => 16
  | .bf16 => 16
  | .e5m2 => 8
  | .e4m3 => 8
  | .e2m1 => 4
  | .ds8 => 8

/-- The floating-point format of a type, if it is one of R22. -/
def Ty.fmt? : Ty → Option FFmt
  | .f64 => some .f64
  | .f32 => some .f32
  | .f16 => some .f16
  | .bf16 => some .bf16
  | .e5m2 => some .e5m2
  | .e4m3 => some .e4m3
  | .e2m1 => some .e2m1
  | _ => none

/-- Whether the type is a signed integer (R27). -/
def Ty.isSigned : Ty → Bool
  | .s4 => true
  | .s8 => true
  | .s16 => true
  | .s32 => true
  | .s64 => true
  | _ => false

/-- Whether the type is an integer (R27). -/
def Ty.isInt (t : Ty) : Bool := t.fmt?.isNone && t ≠ .ds8

/-- min T and max T of an integer type (R27). -/
def Ty.range (t : Ty) : Int × Int :=
  if t.isSigned then (-(2 ^ (t.width - 1) : Nat), (2 ^ (t.width - 1) : Nat) - 1) else (0, (2 ^ t.width : Nat) - 1)

/-- The value of an integer element (R27). -/
def Ty.intValue (t : Ty) (c : Nat) : Int := if t.isSigned then signed t.width c else (low t.width c : Int)

/-- sat(x) or wrap(x) in an integer type (R164). -/
def Ty.narrow (t : Ty) (sat : Bool) (x : Int) : Nat :=
  wrap t.width (if sat then clampInt x t.range.1 t.range.2 else x)

/-! DS8 (R28, R29). -/

/-- ds8_term in units of 1/64 (R28). -/
def ds8Term (s : Bool) (e : Nat) : Int := if e = 7 then 0 else if s then -(2 ^ (6 - e) : Nat) else (2 ^ (6 - e) : Nat)

/-- ds8_value in units of 1/64 (R28). -/
def ds8Value (c : Nat) : Int := ds8Term (bit c 7) (bits c 4 3) + ds8Term (bit c 3) (bits c 0 3)

/-- The value of a DS8 code as an exact value; zero is +0 (R28). -/
def ds8Decode (c : Nat) : Exact := .fin (ds8Value c < 0) (ds8Value c).natAbs 64

/-- The canonical codes of positive values: single powers of two, sums with E1 < E2, 2 itself, and those differences that
are neither a power of two nor three times one (R29). -/
def ds8Positive : List Nat :=
  0x00 :: (List.range 7).map (fun e => e * 16 + 7)
    ++ (List.range 7).flatMap (fun e1 => (List.range 7).filterMap fun e2 => if e1 < e2 then some (e1 * 16 + e2) else none)
    ++ (List.range 7).flatMap (fun e1 => (List.range 7).filterMap fun e2 => if e1 + 3 ≤ e2 then some (e1 * 16 + 8 + e2) else none)

/-- The canonical code nearest a magnitude num / den, the smaller magnitude on a tie (R29). -/
def ds8Nearest (num den : Nat) : Nat :=
  let dist (c : Nat) : Nat := ((num * 64 : Int) - ds8Value c * den).natAbs
  ds8Positive.foldl (fun best c =>
    if dist c < dist best || (dist c = dist best && (ds8Value c).natAbs < (ds8Value best).natAbs) then c else best) 0x77

/-- The code of the opposite value: both signs flip, but an absent second term keeps S2 = 0 (R29). -/
def ds8Negate (c : Nat) : Nat := if c = 0x77 then c else if low 3 c = 7 then c ^^^ 0x80 else c ^^^ 0x88

/-- ds8_encode of an FP32 encoding (R29). -/
def ds8Encode (c : Nat) : Nat :=
  match FFmt.f32.decode c with
  | .nan => 0x77
  | .inf n => if n then 0x88 else 0x00
  | .fin n num den =>
    let m := if 2 * den < num then 0x00 else ds8Nearest num den
    if n then ds8Negate m else m

/-- decode(fmt, code) (R43). -/
def Ty.decode (t : Ty) (c : Nat) : Exact :=
  match t.fmt? with
  | some f => f.decode c
  | none => if t = .ds8 then ds8Decode c else .fin (t.intValue c < 0) (t.intValue c).natAbs 1

/-! Block scales (R30 to R32). -/

/-- 2^(e − 127) for an E8M0 field other than 0xFF (R30). -/
def e8m0Value (e : Nat) : Exact := .scaled false 1 ((e : Int) - 127)

/-- decode_scaled: one FP32 multiplication rounded to nearest even (R31). -/
def decodeScaled (t : Ty) (c e : Nat) : Nat :=
  if e = 0xFF then FFmt.f32.canonicalNaN
  else roundTo .f32 (Exact.mul (t.decode c) (e8m0Value e)) .rn false false 0

/-- emax(fmt) of R32. -/
def emaxOf : Ty → Int
  | .e5m2 => 15
  | .e4m3 => 8
  | .e2m1 => 2
  | .ds8 => 1
  | .s8 => 6
  | .n8 => 6
  | _ => 2

/-- e8m0_of (R32). -/
def e8m0Of (amax : Exact) (t : Ty) : Nat :=
  match amax with
  | .nan => 0xFF
  | .inf _ => 0xFF
  | .fin _ num den =>
    if num = 0 then 127 else (clampInt (floorLog2Frac num den - emaxOf t + 127) 0 254).toNat

/-! Conversions (R35, R36, R170). -/

/-- to_int of an exact value; the result is the low bits of the clamped integer (R36). -/
def toInt (x : Exact) (t : Ty) (mode : Mode) (rnd : Nat) : Nat :=
  match x with
  | .nan => 0
  | .inf n => wrap t.width (if n then t.range.1 else t.range.2)
  | .fin n num den =>
    let r := roundInteger mode n num den rnd
    wrap t.width (clampInt (if n then -(r : Int) else r) t.range.1 t.range.2)

/-- The codes of R35's table; `x` stands for X and for the identical floating-point pairs marked —. -/
inductive ConvKind where
  | e | n | d | w | i | j | x
  deriving DecidableEq, Repr

/-- Whether every value of format a is a value of format b: the E entries among the formats of R22 (R35). -/
def exactInto (a b : FFmt) : Bool :=
  match a, b with
  | .f32, .f64 => true
  | .f16, .f64 => true
  | .f16, .f32 => true
  | .bf16, .f64 => true
  | .bf16, .f32 => true
  | .e5m2, .f64 => true
  | .e5m2, .f32 => true
  | .e5m2, .f16 => true
  | .e5m2, .bf16 => true
  | .e4m3, .f64 => true
  | .e4m3, .f32 => true
  | .e4m3, .f16 => true
  | .e4m3, .bf16 => true
  | .e2m1, .e2m1 => false
  | .e2m1, _ => true
  | _, _ => false

/-- Whether a format is one of the four widest, which integers and DS8 convert to (R35). -/
def FFmt.wide : FFmt → Bool
  | .f64 => true
  | .f32 => true
  | .f16 => true
  | .bf16 => true
  | _ => false

/-- The entry of R35's table for a source and a destination type. -/
def convKind (src dst : Ty) : ConvKind :=
  match src.fmt?, dst.fmt? with
  | some a, some b => if a = b then .x else if exactInto a b then .e else .n
  | some a, none =>
    if dst = .ds8 then (if a = .f32 then .d else .x) else if a.wide then .i else .x
  | none, some b =>
    if src = .ds8 then (if b.wide then .e else .x) else if b.wide then .w else .x
  | none, none => if src = .ds8 || dst = .ds8 then .x else .j

/-- A conversion of one element (R35, R170): SAT counts in the entries N, I and, where the result is no wider, J. The pairs marked X or — never reach it from CVT. -/
def convert (src dst : Ty) (c : Nat) (mode : Mode) (sat fz : Bool) (rnd : Nat) : Nat :=
  let x := match src.fmt? with
    | some f => f.decode (flushInput f fz c)
    | none => src.decode c
  match convKind src dst, dst.fmt? with
  | .d, _ => ds8Encode (flushInput .f32 fz c)
  | .j, _ => if src = dst then low dst.width c else dst.narrow (sat && dst.width ≤ src.width) (src.intValue c)
  | .w, some f => roundTo f x mode false fz rnd
  | .e, some f => roundTo f x .rn false fz 0
  | _, some f => roundTo f x mode sat fz rnd
  | _, none => toInt x dst mode rnd

/-! Mathematical constants, each rounded down to its last bit and followed by half a unit, so that it lies strictly between
two values of every format of R22. -/

/-- floor(π × 2^600). -/
def piFix : Nat := 0x3243F6A8885A308D313198A2E03707344A4093822299F31D0082EFA98EC4E6C89452821E638D01377BE5466CF34E90C6CC0AC29B7C97C50DD3F84D5B5B54709179216D5D98979FB1BD1310B

/-- floor(ln 2 × 2^320). -/
def ln2Fix : Nat := 0xB17217F7D1CF79ABC9E3B39803F2F6AF40F343267298B62D8A0D175B8BAAFA2BE7B876206DEBAC98

/-- An irrational magnitude known as floor(x × 2^k). -/
def Exact.between (neg : Bool) (n k : Nat) : Exact := .fin neg (2 * n + 1) (2 ^ (k + 1))

/-- The exact value of an inline constant 448 to 479 (R129). -/
def constantValue (code : Nat) : Exact :=
  match code - 448 with
  | 16 => .fin false 1 2
  | 17 => .fin false 1 1
  | 18 => .fin false 2 1
  | 19 => .fin false 4 1
  | 20 => .fin false 8 1
  | 21 => .fin false 1 4
  | 22 => .fin true 1 2
  | 23 => .fin true 1 1
  | 24 => .fin true 2 1
  | 25 => .fin true 4 1
  | 26 => .between false (2 ^ 640 / ln2Fix) 320
  | 27 => .between false ln2Fix 320
  | 28 => .between false piFix 600
  | 29 => .between false (2 ^ 1000 / (2 * piFix)) 400
  | 30 => .inf false
  | 31 => .inf true
  | k => .fin false k 1

/-- An inline constant in an operand's type (R129); codes 464 to 479 of an integer operand are illegal and never read. -/
def constantIn (t : Ty) (code : Nat) : Nat :=
  match t.fmt? with
  | some f => roundTo f (constantValue code) .rn false false 0
  | none =>
    if t = .ds8 then ds8Encode (roundTo .f32 (constantValue code) .rn false false 0) else low t.width (code - 448)

end Sys2Proof.Machine
end

