-- ==== Sys2Proof/Machine/Special.lean ====
section
/-! DEFINITION. The special functions of R174, correctly rounded to FP32. Apart from the exact cases of R174's table, each
value is irrational, so a fixed-point value with more than 100 bits below the rounding unit, kept strictly between two of
its own steps, rounds as the exact real does (log entry on special functions). -/

namespace Sys2Proof.Machine

/-- The scale of the fixed-point work of EXP2 and LOG2. -/
def fixBits : Nat := 320

/-- The Taylor sum of exp at y / 2^320, from a term and its index. -/
def expSeries : Nat → Nat → Nat → Nat → Nat
  | 0, _, _, _ => 0
  | n + 1, y, k, term => term + expSeries n y (k + 1) (term * y / 2 ^ fixBits / (k + 1))

/-- 2^x of a finite exact value (R174). -/
def exp2Exact (neg : Bool) (num den : Nat) : Exact :=
  let whole := num / den
  let frac := num % den
  if 200 ≤ whole then (if neg then .fin false 1 (2 ^ 400) else .fin false (2 ^ 400) 1)
  else if frac = 0 then .scaled false 1 (if neg then -(whole : Int) else whole)
  else
    let n : Int := if neg then -(whole : Int) - 1 else whole
    let f := if neg then den - frac else frac
    let y := f * ln2Fix / den
    let r := expSeries 80 y 0 (2 ^ fixBits)
    .scaled false (2 * r + 1) (n - fixBits - 1)

/-- Σ z^(2k+1) / (2k+1) at the scale of `fixBits`. -/
def atanhSeries : Nat → Nat → Nat → Nat → Nat
  | 0, _, _, _ => 0
  | n + 1, z2, k, power => power / (2 * k + 1) + atanhSeries n z2 (k + 1) (power * z2 / 2 ^ fixBits)

/-- log2 of a positive finite exact value: exponent plus log2 of the mantissa through atanh (R174). -/
def log2Exact (num den : Nat) : Exact :=
  let e := floorLog2Frac num den
  let (up, dn) := pow2Frac e
  let a := num * dn
  let b := den * up
  if a = b then .fin (e < 0) e.natAbs 1
  else
    let z := (a - b) * 2 ^ fixBits / (a + b)
    let ln := 2 * atanhSeries 110 (z * z / 2 ^ fixBits) 0 z
    let v : Int := e * (2 ^ fixBits : Nat) + (ln * 2 ^ fixBits / ln2Fix : Nat)
    .fin (v < 0) (2 * v + 1).natAbs (2 ^ (fixBits + 1))

/-- floor(√n), bit by bit from bit k − 1. -/
def isqrtFrom : Nat → Nat → Nat → Nat
  | 0, _, r => r
  | k + 1, n, r => isqrtFrom k n (if (r + 2 ^ k) * (r + 2 ^ k) ≤ n then r + 2 ^ k else r)

/-- 1/√x of a positive finite exact value (R174). -/
def rsqExact (num den : Nat) : Exact :=
  let n := den * 2 ^ 400 / num
  let r := isqrtFrom 300 n 0
  if r * r * num = den * 2 ^ 400 then .fin false r (2 ^ 200) else .between false r 200

/-- The scale of the argument reduction of SIN and COS. -/
def trigBits : Nat := 560

/-- An alternating Taylor sum: term, then − term × r² / ((k+1)(k+2)), at the scale of `trigBits`. -/
def trigSeries : Nat → Nat → Nat → Nat → Int
  | 0, _, _, _ => 0
  | n + 1, r2, k, term =>
    (term : Int) - trigSeries n r2 (k + 2) (term * r2 / 2 ^ trigBits / ((k + 1) * (k + 2)))

/-- sin (or cos) of a non-zero finite exact value: x is reduced by multiples of π/2 with π to 600 bits (R174). -/
def trigExact (cosine neg : Bool) (num den : Nat) : Exact :=
  let x := num * 2 ^ trigBits / den
  let half := piFix / 2 ^ 41
  let k := x / half
  let r := x % half
  let r2 := r * r / 2 ^ trigBits
  let s := trigSeries 60 r2 1 r
  let c := trigSeries 60 r2 0 (2 ^ trigBits)
  let q := (k + if cosine then 1 else 0) % 4
  let v : Int := match q with
    | 0 => s
    | 1 => c
    | 2 => -s
    | _ => -c
  let v := if neg && !cosine then -v else v
  .fin (v < 0) (2 * v + 1).natAbs (2 ^ (trigBits + 1))

/-- The six special functions of R174. -/
inductive SpecialFn where
  | exp2 | log2 | rcp | rsq | sin | cos
  deriving DecidableEq, Repr

/-- f(x) on an exact FP32 value, with the special operands of R174's table. -/
def specialExact (fn : SpecialFn) (x : Exact) : Exact :=
  match fn, x with
  | _, .nan => .nan
  | .exp2, .inf n => if n then .fin false 0 1 else .inf false
  | .exp2, .fin n a b => exp2Exact n a b
  | .log2, .inf n => if n then .nan else .inf false
  | .log2, .fin n a b => if a = 0 then .inf true else if n then .nan else log2Exact a b
  | .rcp, .inf n => .fin n 0 1
  | .rcp, .fin n a b => if a = 0 then .inf n else .fin n b a
  | .rsq, .inf n => if n then .nan else .fin false 0 1
  | .rsq, .fin n a b => if a = 0 then .inf n else if n then .nan else rsqExact a b
  | .sin, .inf _ => .nan
  | .sin, .fin n a b => if a = 0 then .fin n 0 1 else trigExact false n a b
  | .cos, .inf _ => .nan
  | .cos, .fin n a b => if a = 0 then .fin false 1 1 else trigExact true n a b

/-- One special function of an FP32 encoding (R174). -/
def special (fn : SpecialFn) (fz : Bool) (c : Nat) : Nat :=
  roundTo .f32 (specialExact fn (FFmt.f32.decode (flushInput .f32 fz c))) .rn false fz 0

end Sys2Proof.Machine
end

