-- ==== Sys2Proof/Machine/Tree.lean ====
section
/-! DEFINITION. FP32 pairs and the canonical reduction tree (R38 to R42). -/

namespace Sys2Proof.Machine

/-- FP32 addition rounded to nearest even, subnormals kept (R38). -/
def addF32 (a b : Nat) : Nat := fpAdd .f32 .rn false false 0 a b

/-- FP32 subtraction rounded to nearest even, subnormals kept (R38). -/
def subF32 (a b : Nat) : Nat := fpSub .f32 .rn false false 0 a b

/-- FP32 multiplication rounded to nearest even, subnormals kept. -/
def mulF32 (a b : Nat) : Nat := fpMul .f32 .rn false false 0 a b

/-- two_sum (R38). -/
def twoSum (a b : Nat) : Nat × Nat :=
  let s := addF32 a b
  let bb := subF32 s a
  (s, addF32 (subF32 a (subF32 s bb)) (subF32 b bb))

/-- fast_two_sum (R38). -/
def fastTwoSum (a b : Nat) : Nat × Nat :=
  let hi := addF32 a b
  (hi, subF32 b (subF32 hi a))

/-- A pair from two FP32 encodings. -/
def pairOf (hi lo : Nat) : Pair := ⟨BitVec.ofNat 32 hi, BitVec.ofNat 32 lo⟩

/-- pair_add (R38). -/
def pairAdd (p q : Pair) : Pair :=
  let (s, e) := twoSum p.hi.toNat q.hi.toNat
  if !FFmt.f32.isFinite s then pairOf s 0
  else
    let t := addF32 p.lo.toNat q.lo.toNat
    let (hi, lo) := fastTwoSum s (addF32 e t)
    if !FFmt.f32.isFinite hi || !FFmt.f32.isFinite lo then pairOf hi 0 else pairOf hi lo

/-- A plain FP32 node's sum; the value of a plain node stands in hi and lo is +0 (R38). -/
def plainAdd (p q : Pair) : Pair := pairOf (addF32 p.hi.toNat q.hi.toNat) 0

/-- node_add: an absent child contributes no operation (R40). -/
def nodeAdd (add : α → α → α) (a b : Option α) : Option α :=
  match a, b with
  | none, b => b
  | a, none => a
  | some x, some y => some (add x y)

/-- One level of the tree: node i of the next level from nodes 2i and 2i + 1 (R40). -/
def treeLevel (add : α → α → α) : List (Option α) → List (Option α)
  | a :: b :: rest => nodeAdd add a b :: treeLevel add rest
  | rest => rest

/-- `levels` levels of the tree over slots, absent slots filling up a list that is short (R40). -/
def treeLevels (add : α → α → α) : Nat → List (Option α) → List (Option α)
  | 0, xs => xs
  | n + 1, xs => treeLevels add n (treeLevel add xs)

/-- canonical_reduce over the leaf slots, in order; absent slots are none (R40). -/
def canonicalReduce (add : α → α → α) (leaves : List (Option α)) : Option α :=
  ((treeLevels add (ceilLog2 leaves.length) leaves).head?).join

/-- An FP32 leaf of a pair tree (R39). -/
def pairLeaf (x : Nat) : Pair := pairOf x 0

/-- The root that an operation must deliver when the tree is ABSENT (R42). -/
def rootValue : Option Pair → Pair
  | some p => p
  | none => ⟨0, 0⟩

/-- pair_to_f64 (R39). -/
def pairToF64 (p : Pair) : Nat :=
  roundTo .f64 (Exact.add .rn (FFmt.f32.decode p.hi.toNat) (FFmt.f32.decode p.lo.toNat)) .rn false false 0

end Sys2Proof.Machine
end

