-- ==== Sys2Proof/Machine/Table.lean ====
section
/-! DEFINITION. Sparse tables: lists of keys and values with strictly rising keys, the one form in which the state holds
registers, memory bytes and records of units. -/

namespace Sys2Proof.Machine

/-- The value at a key. -/
def tget (k : Nat) : List (Nat × α) → Option α
  | [] => none
  | (k', v) :: t => if k' = k then some v else tget k t

/-- The table with the key set to a value, keys kept strictly rising. -/
def tset (k : Nat) (v : α) : List (Nat × α) → List (Nat × α)
  | [] => [(k, v)]
  | (k', v') :: t =>
    if k < k' then (k, v) :: (k', v') :: t else if k' = k then (k, v) :: t else (k', v') :: tset k v t

/-- The table without the key. -/
def tdel (k : Nat) : List (Nat × α) → List (Nat × α)
  | [] => []
  | (k', v') :: t => if k' = k then tdel k t else (k', v') :: tdel k t

/-- The table with the value at a key, if there is one, changed by a function. -/
def tmod (k : Nat) (f : α → α) (t : List (Nat × α)) : List (Nat × α) :=
  match tget k t with
  | some v => tset k (f v) t
  | none => t

/-- Whether the keys rise strictly. -/
def tsorted : List (Nat × α) → Bool
  | [] => true
  | [_] => true
  | (a, _) :: (b, v) :: t => a < b && tsorted ((b, v) :: t)

/-- The values whose entry satisfies a test. -/
def tfilter (p : Nat → α → Bool) (t : List (Nat × α)) : List (Nat × α) := t.filter fun e => p e.1 e.2

/-- A register table's entry: what is unlisted reads as the default. -/
def tgetD (k : Nat) (d : α) (t : List (Nat × α)) : α := (tget k t).getD d

/-- One element put into a sorted list, behind its equals. -/
def insertBy (le : α → α → Bool) (x : α) : List α → List α
  | [] => [x]
  | y :: ys => if le y x then y :: insertBy le x ys else x :: y :: ys

/-- A list in ascending order; equals keep their order. -/
def sortBy (le : α → α → Bool) (xs : List α) : List α := xs.foldl (fun acc x => insertBy le x acc) []

end Sys2Proof.Machine
end

