-- ==== Sys2Proof/Machine/State.lean ====
section
/-! DEFINITION. The state of one package as plain data: every register, table, memory and operation in progress that spec/
gives it, and `State.reset`, the package right after power-on. Units that exist in numbers (threads, groups, cores, ports,
operations) are held in sparse tables keyed by a number; a core's key is die × 144 + its physical index (R15), a quad's is
die × 36 + its physical quad. -/

namespace Sys2Proof.Machine

/-! ## Reasons to stop -/

/-- The machine stops with no fault: every outcome that spec/ names is a next state. -/
inductive Fault where
  deriving DecidableEq, Repr

/-- Why the model refuses an instruction. -/
inductive Refusal where
  /-- An arm of exec whose instruction has no meaning yet, by its mnemonic; safe, since nothing is claimed of it. -/
  | notModelled (mnemonic : String)
  deriving DecidableEq, Repr

/-! ## Addresses -/

/-- Where an access lands after translation (R77, R78, R191). -/
inductive Target where
  /-- local HBM at a physical address -/
  | hbm (pa : Nat)
  /-- a core's scratchpad through the team's aperture -/
  | scratch (core off : Nat)
  /-- the on-chip map (R18) -/
  | onchip (pa : Nat)
  /-- the control space: an offset of BAR0 (R77, R322) -/
  | control (off : Nat)
  /-- a peer package's memory (R76, KIND 0b01) -/
  | peer (pkg pa : Nat)
  deriving DecidableEq, Repr

/-- A cached translation of one page (R302): the leaf entry and its page size. -/
structure TlbEntry where
  ctx : Nat
  /-- first virtual address of the page -/
  va : Nat
  size : Nat
  /-- the leaf entry of R76 -/
  leaf : Word64
  deriving DecidableEq, Repr

/-- A range lock (R97) or context lock (R98): a range of virtual addresses widened to 64-byte boundaries. -/
structure Lock where
  lo : Nat
  hi : Nat
  write : Bool
  /-- the operation, matrix command or handle that holds it -/
  owner : Nat
  deriving DecidableEq, Repr

/-! ## Kernels -/

/-- A kernel descriptor (R153). -/
structure KDesc where
  entry : Nat
  code : Nat
  cmap : Nat
  codeLen : Nat
  scratch : Nat
  t : Nat
  regs : Nat
  wsel : Nat
  prog : Nat
  det : Bool
  ckpt : Bool
  replay : Bool
  prio : Nat
  pair : Bool
  cx : Nat
  cy : Nat
  cz : Nat
  x : Nat
  y : Nat
  z : Nat
  /-- every reserved field is zero -/
  clean : Bool
  deriving DecidableEq, Repr

/-! ## Threads (R44, R63) -/

/-- A trap as its record will tell it (R297). -/
structure TrapInfo where
  cause : Nat
  /-- PC: the stopping word, and HDR: its clause's header -/
  pc : Nat
  hdr : Nat
  faddr : Nat
  info : Nat
  /-- the core that CORE names where it is not the thread's own (cause 0x40) -/
  core : Option Nat
  /-- the extension of a cause-0x20 record (R298) -/
  ext : List Byte
  deriving DecidableEq, Repr

/-- What a member brings to a rendezvous (R65, R175). -/
structure Rendezvous where
  addr : Nat
  mask : Nat
  /-- the member's predicate is false: it is silent -/
  silent : Bool
  /-- its source operands as read when its word issued -/
  a : Nat
  c : Nat
  q : Bool
  /-- a g destination takes this member's value (R67) -/
  uni : Bool
  word : Instr
  deriving DecidableEq, Repr

/-- A barrier arrival that waits for the phase to change, because the thread's arrival bit is set (R68, R207, R208). -/
structure HeldArrival where
  /-- the register that receives the phase token, where this thread writes it (R67) -/
  dst : Option Nat
  /-- the bytes that BAR.ARRIVEB adds to BEXP -/
  bytes : Nat
  deriving DecidableEq, Repr

/-- The states of R63. -/
inductive TState where
  | caged
  | ready
  | issuing
  /-- COUNTER: the counters that the next clause's WAIT selects -/
  | counter (mask : Nat)
  /-- BARRIER: the barrier, the phase waited out, an arrival still to make, and the scope of the acquire on return -/
  | barrier (b phase : Nat) (held : Option HeldArrival) (sc : Nat)
  /-- past the phase that a second arrival waited out, on the way to the release before that arrival (R207): as READY, but not picked -/
  | releasing (b : Nat) (held : HeldArrival) (sc : Nat)
  | rendezvous (r : Rendezvous)
  | claiming
  /-- GRANULE: the LDFE operation -/
  | granule (op : Nat)
  /-- ADDRESS: the WAIT operation -/
  | address (op : Nat)
  | trapped
  | exited
  deriving DecidableEq, Repr

/-- A selection of a weight version (R275). -/
structure VersionSel where
  ch : Nat
  win : Nat
  len : Nat
  base : Nat
  version : Nat
  deriving DecidableEq, Repr

/-- A thread (R44, R45). -/
structure Thread where
  ctx : Nat
  /-- key of its launch, its team and, once launched, its group -/
  launch : Nat
  team : Nat
  group : Option Nat
  /-- sr.member -/
  member : Nat
  /-- sr.tid (R45, R185) -/
  tid : Nat
  /-- sr.group (R45, R185) -/
  srGroup : Nat
  /-- system mode (R211) -/
  sys : Bool
  /-- a SPAWN child or relay thread, which TEXP does not count (R185, R265) -/
  child : Bool
  /-- a handler thread (R296) -/
  handler : Bool
  state : TState
  /-- program counter: the header of the thread's next clause -/
  pc : Nat
  /-- where the thread resumes inside a clause: header and position (R213) -/
  resume : Option (Nat × Nat)
  /-- header and address of the word it last issued -/
  curHdr : Nat
  curWord : Nat
  /-- v0 to v383 as allocated -/
  regs : List (Nat × Word32)
  /-- p0 to p7 -/
  preds : BitVec 8
  /-- w0 to w5 (R57) -/
  ctrs : List (Nat × Nat)
  /-- draw count (R34) and spawn count (R185) -/
  draw : Nat
  spawns : Nat
  /-- WVER selections by channel, and what sr.version reads (R214, R275) -/
  versions : List VersionSel
  srVersion : Nat
  /-- consecutive picks of its code image that passed it over (R59) -/
  passed : Nat
  /-- put behind others: 1 by YIELD, behind those of its port (R186); 2 by the yield hint, behind those of its bay (R58) -/
  yielded : Nat
  /-- the trap it is stopped by, and the trap-ring slot that holds its record (R296) -/
  trap : Option TrapInfo
  trapSlot : Option Nat
  /-- traps to take at a clause boundary, or after the stepped word (R124, R163, R316) -/
  deferred : List TrapInfo
  /-- STEP: trap after one word (R297) -/
  step : Bool
  /-- the model's own: the first key that operations of the word it last issued could take -/
  lastKey : Nat
  deriving DecidableEq, Repr

/-! ## Groups, teams, cages (R44 to R54, R64) -/

/-- A segment of registers (R70, R74). -/
structure Segment where
  first : Nat
  base : Nat
  count : Nat
  deriving DecidableEq, Repr

/-- A group's states (R64). -/
inductive GState where
  | resident | draining | saved
  deriving DecidableEq, Repr

/-- The matrix configuration record, by selector (R112). -/
structure MatrixCfg where
  sel0 : Word64
  sel1 : Word64
  sel2 : Word64
  sel3 : Word64
  deriving DecidableEq, Repr

/-- The reset values of R112: M 64, N 128, AFMT and BFMT 0x9, ASCALE and BSCALE 127. -/
def MatrixCfg.reset : MatrixCfg := ⟨0x8040, 0x7F7F99, 0, 0⟩

/-- A claim that waits for rows (R71): units asked, order of arrival, and the clk of its arrival. -/
structure ClaimWait where
  units : Nat
  order : Nat
  clk : Nat
  deriving DecidableEq, Repr

/-- A group (R44, R70, R74). -/
structure Group where
  ctx : Nat
  launch : Nat
  team : Nat
  core : Nat
  bay : Nat
  width : Nat
  slot0 : Nat
  /-- sr.group; 0xFFFF_FFFF for SPAWN children -/
  index : Nat
  /-- launch number, the clk of its launch, and the cage it was formed in (R59) -/
  launchNo : Nat
  born : Nat
  cage : Option Nat
  /-- group slot of its record in the control region (R74) -/
  slot : Nat
  state : GState
  /-- live mask -/
  live : Nat
  /-- g0 to g63 -/
  uni : List (Nat × Word32)
  segs : List Segment
  cfg : MatrixCfg
  claim : Option ClaimWait
  /-- the kernel its members run: the launch's, a relay's or the handler's -/
  k : KDesc
  deriving DecidableEq, Repr

/-- A hardware barrier (R68, R69). -/
structure Barrier where
  mode : Nat
  phase : Nat
  tarr : Nat
  texp : Nat
  bexp : Nat
  barr : Nat
  /-- the threads whose arrival bit is set -/
  arrived : List Nat
  deriving DecidableEq, Repr

/-- A barrier of a team just placed (R69, R206). -/
def Barrier.reset : Barrier := ⟨0, 0, 0, 0, 0, 0, []⟩

/-- A team's states (R64). -/
inductive TeamState where
  | placed | running | saving | saved | done
  deriving DecidableEq, Repr

/-- A checkpoint interval (R311 to R314): the state at its boundary, and whether its rollback is lost or spent; the held stores
are the team's `StoreOp`s marked so. -/
structure Interval where
  threads : List (Nat × Thread)
  groups : List (Nat × Group)
  barriers : List (Nat × Barrier)
  scratch : List (Nat × Byte)
  full : List Nat
  /-- barrier and phase of the boundary -/
  boundary : Nat × Nat
  lost : Bool
  rolledBack : Bool
  /-- the boundary is taken and the held stores wait to be released -/
  closing : Bool
  /-- the first operation key that was not yet given at the boundary -/
  first : Nat
  /-- uncorrectable data has been consumed: the team is rolled back as the move ends (R314) -/
  due : Bool
  deriving DecidableEq, Repr

/-- A thread that has been created and waits to enter a cage (R47, R185, R239, R296). -/
structure Entrant where
  thread : Nat
  core : Nat
  /-- kernel and entry of its cage -/
  k : KDesc
  entry : Nat
  /-- launch count, and timer value, 0 for the core's CAGE_TMO -/
  count : Nat
  timeout : Nat
  /-- the poster's counter that falls at the entry: thread and counter -/
  counted : Option (Nat × Nat)
  /-- the clk of its arrival at the cage (R48) -/
  since : Nat
  deriving DecidableEq, Repr

/-- What a saved team keeps in its image beside its threads and groups (R305): bytes and full granules by offset in the aperture,
accumulator bytes by core of the team × 2^24, tile × 2^16 and offset, its redundant marks and last writers by core of the team × 16
and tile (R124), and its caged threads as they are to enter again. -/
structure SavedTeam where
  scratch : List (Nat × Byte)
  full : List Nat
  accs : List (Nat × Byte)
  marks : List Nat
  writersOf : List (Nat × Nat)
  caged : List Entrant
  deriving DecidableEq, Repr

/-- A team (R44, R53, R54, R64). -/
structure Team where
  ctx : Nat
  launch : Nat
  /-- sr.team -/
  index : Nat
  /-- its cluster's place in curve-key order (R52) -/
  cluster : Nat
  /-- the retired quads by which its cores are numbered: its launch's, or those at its last restoration (R17) -/
  numbering : List Nat
  state : TeamState
  /-- its cores with its team slot and the base of its scratchpad allocation there -/
  cores : List (Nat × Nat × Nat)
  /-- scratchpad bytes, over all its cores -/
  scratch : Nat
  barriers : List (Nat × Barrier)
  /-- a bit of the use mask of R122: accumulators named by its commands -/
  useMask : Nat
  /-- a device-scope release count (R106) -/
  releases : Nat
  /-- range of its image in the save pool: offset and bytes -/
  image : Option (Nat × Nat)
  saved : Option SavedTeam
  interval : Option Interval
  /-- an Assayer replay's sample number (R319) -/
  replay : Option Nat
  deriving DecidableEq, Repr

/-- A cage's states (R48). -/
inductive CageState where
  | filling | full
  deriving DecidableEq, Repr

/-- A cage that is not EMPTY (R47, R48). -/
structure Cage where
  ctx : Nat
  /-- key: code image (CODE of the kernel) and entry -/
  k : KDesc
  entry : Nat
  /-- the team whose threads it may hold (R185) -/
  team : Nat
  state : CageState
  /-- the clk at which its timer expires -/
  timer : Nat
  timeout : Nat
  /-- launch count (R48) -/
  count : Nat
  /-- waiting threads with the clk of their arrival -/
  threads : List (Nat × Nat)
  deriving DecidableEq, Repr

/-- A core's control fields and caches that are not empty (R74, R80). -/
structure CoreCtl where
  /-- CAGE_TMO -/
  cageTmo : Nat
  /-- the next launch number (R59) -/
  nextLaunch : Nat
  /-- the next claim's order of arrival -/
  nextClaim : Nat
  /-- clk since which R72's condition has held, by bay -/
  deadlock : List (Nat × Nat)
  frozen : Bool
  deriving DecidableEq, Repr

/-- A core's control fields at reset (R74). -/
def CoreCtl.reset : CoreCtl := ⟨1024, 0, 0, [], false⟩

/-- An issue port of a bay (R55 to R60). -/
structure PortState where
  /-- header and position of the next word; the number of words; the class -/
  hdr : Nat
  pos : Nat
  words : Nat
  cls : BitVec 3
  hint : BitVec 3
  /-- the issue set -/
  members : List Nat
  /-- first clk on which the port may issue again (R162) -/
  busyUntil : Nat
  /-- the clk of its last issue plus one, and whether that word was paired -/
  issuedAt : Nat
  paired : Bool
  deriving DecidableEq, Repr

/-- One register write of a fixed-latency result. -/
inductive RegWrite where
  | v (thread r : Nat) (x : Word32)
  | g (group r : Nat) (x : Word32)
  | p (thread r : Nat) (x : Bool)
  /-- sr.version (R241) -/
  | version (thread v : Nat)
  deriving DecidableEq, Repr

/-- A fixed-latency result that waits for its clk (R60, R162). -/
structure FixedWrite where
  /-- the port and position of the producing word -/
  port : Nat
  pos : Nat
  due : Nat
  writes : List RegWrite
  deriving DecidableEq, Repr

/-- The word a port is issuing now: port key and the word's address. -/
structure Issuing where
  core : Nat
  bay : Nat
  port : Port
  hdr : Nat
  pos : Nat
  members : List Nat
  deriving DecidableEq, Repr

/-! ## Operations in progress (R188, R218) -/

/-- The member of a group's instruction that an operation counts for: thread and counter, 7 for none (R133). -/
structure Counted where
  thread : Nat
  ctr : Nat
  deriving DecidableEq, Repr

/-- Cache policies of the loads (R190). -/
inductive LoadKind where
  | ca | cg | lu
  deriving DecidableEq, Repr

/-- One member of an issued load; a member whose value a g register does not take has no destination (R67). -/
structure LoadMember where
  thread : Nat
  dst : Option Nat
  va : Nat
  target : Target
  done : Bool
  deriving DecidableEq, Repr

/-- A line request of the coalescer (R85): the 256-byte line and its sectors, bit by bit. -/
structure LineReq where
  line : Nat
  sectors : Nat
  sent : Bool
  filled : Nat
  deriving DecidableEq, Repr

/-- Who waits for a watched word (R204, R237). -/
inductive RingKind where
  | res | take
  deriving DecidableEq, Repr

/-- Phases of a tile access (R100). -/
inductive TilePhase where
  | locking | data
  deriving DecidableEq, Repr

/-- A load in its five forms (R190): `ctr` is the counter of its members. -/
structure LoadOp where
  kind : LoadKind
  core : Nat
  ctr : Nat
  /-- size code and scope code -/
  size : Nat
  scope : Nat
  acq : Bool
  members : List LoadMember
  reqs : List LineReq
  /-- its word, by the clause's header and its own address -/
  word : Nat × Nat
  deriving DecidableEq, Repr

/-- A store request that is not yet performed (R85, R192): the members it counts for, the bytes it writes by address, which lie in
one line, and the order in which it reached its die's L2, once it has. `held` while an interval's hold buffer keeps it (R312). -/
structure StoreOp where
  cs : List Counted
  core : Nat
  ctx : Nat
  team : Nat
  va : Nat
  target : Target
  bytes : List (Nat × Byte)
  die : Option Nat
  held : Bool
  /-- the engine command whose write it is -/
  cmd : Option Nat
  /-- the virtual addresses of the writes that it joins (R106, R192) -/
  vas : List Nat
  deriving DecidableEq, Repr

/-- A member of an atomic request: thread, operand, second operand of CAS, destination register. -/
structure AtomMember where
  thread : Nat
  b : Nat
  b2 : Nat
  dst : Option Nat
  deriving DecidableEq, Repr

/-- One request of ATOM or ATOM.FADD (R102, R198, R200). -/
structure AtomOp where
  core : Nat
  ctr : Nat
  ctx : Nat
  team : Nat
  fadd : Bool
  oper : Nat
  ty : Nat
  scope : Nat
  acq : Bool
  nr : Bool
  va : Nat
  target : Target
  members : List AtomMember
  /-- its word, by the clause's header and its own address -/
  word : Nat × Nat
  deriving DecidableEq, Repr

/-- LDT or STT of one member (R194, R195): the tile's rows with their targets and lengths, the packed block, the bytes that an
STT read, the lines of the tile, its age, the slices whose entry it holds and the lines it has locked (R100). -/
structure TileOp where
  c : Counted
  core : Nat
  ctx : Nat
  team : Nat
  va : Nat
  /-- virtual addresses of the rows -/
  vas : List Nat
  storing : Bool
  scope : Nat
  ord : Bool
  age : Nat × Nat
  phase : TilePhase
  rows : List (List (Target × Nat))
  block : List (Target × Nat)
  data : List Byte
  lines : List Nat
  entries : List Nat
  locked : List Nat
  /-- its word, by the clause's header and its own address -/
  word : Nat × Nat
  deriving DecidableEq, Repr

/-- DISC of one member: its range and the physical sectors still to treat (R87, R196). -/
structure DiscOp where
  c : Counted
  core : Nat
  ctx : Nat
  team : Nat
  sectors : List Nat
  deriving DecidableEq, Repr

/-- PREF of one line into L2, and into L1 (R197). -/
structure PrefOp where
  c : Counted
  core : Nat
  line : Nat
  l1 : Bool
  deriving DecidableEq, Repr

/-- CTB of one member, until its test has returned and its contribution is accepted (R201). -/
structure CtbOp where
  c : Counted
  core : Nat
  ctx : Nat
  h : Nat
  leaf : Nat
  value : NodeVal
  tested : Bool
  /-- its word, by the clause's header and its own address -/
  word : Nat × Nat
  deriving DecidableEq, Repr

/-- The sealing of a handle by CTBSEAL (R202). -/
structure SealOp where
  c : Counted
  ctx : Nat
  h : Nat
  deriving DecidableEq, Repr

/-- A fence: masks, scope, and the stores that it orders (R94, R203). -/
structure FenceOp where
  thread : Nat
  pred : Nat
  succ : Nat
  scope : Nat
  after : List Nat
  deriving DecidableEq, Repr

/-- WAIT of one member (R204): type code, condition, comparand. -/
structure WaitOp where
  c : Counted
  core : Nat
  team : Nat
  dst : Option Nat
  va : Nat
  target : Target
  ty : Nat
  cond : Nat
  b : Nat
  scope : Nat
  acq : Bool
  deriving DecidableEq, Repr

/-- LDFE of one member (R193): the issue of its instruction, shared by the members of one word (R83). -/
structure GranuleOp where
  c : Counted
  issue : Nat
  dst : Option Nat
  size : Nat
  va : Nat
  core : Nat
  off : Nat
  clr : Bool
  deriving DecidableEq, Repr

/-- RINV of one member: the range, the object (R216). -/
structure RinvOp where
  c : Counted
  core : Nat
  ctx : Nat
  va : Nat
  len : Nat
  obj : Target
  objVa : Nat
  /-- its word, by the clause's header and its own address -/
  word : Nat × Nat
  deriving DecidableEq, Repr

/-- A copy (R227, R228): the pieces still to write as destination, source and length in virtual addresses, with the targets of
their pages as captured at posting; the bytes it arrives and the barrier; its status and the failing bytes. -/
structure CopyOp where
  cs : List Counted
  poster : Nat
  core : Nat
  ctx : Nat
  team : Nat
  tid : Nat
  launchId : Nat
  /-- its rows as posted, and the pieces of them still to write -/
  rows : List (Nat × Nat × Nat)
  pieces : List (Nat × Nat × Nat)
  /-- destination bytes that it does not write -/
  failed : List Nat
  dst : List (Nat × Target)
  src : List (Nat × Target)
  total : Nat
  barrier : Option Nat
  status : Nat
  bad : Option (Nat × Nat × Nat)
  deriving DecidableEq, Repr

/-- The drain of a tile: the bytes still to write, by virtual address and target (R123). -/
structure DrainOp where
  entry : Nat
  core : Nat
  ctx : Nat
  team : Nat
  pieces : List (Nat × Target × List Byte)
  deriving DecidableEq, Repr

/-- FSEND, FMCAST, FRED or FSPARSE (R230 to R234): the acknowledgements or acceptances still awaited, the packets of FSEND and FMCAST
while they wait behind an earlier command of the group, and the contribution of FRED and FSPARSE, by unit, while it waits for its
step (R260). -/
structure FabricOp where
  cs : List Counted
  poster : Nat
  group : Option Nat
  core : Nat
  ctx : Nat
  team : Nat
  ch : Nat
  tid : Nat
  launchId : Nat
  acks : Nat
  oper : Nat
  contributor : Nat
  routes : List (List (BitVec 5))
  packets : List Packet
  pend : List (Nat × UnitVal)
  status : Nat
  bad : Option (Nat × Nat × Nat)
  /-- SEQ of its data packets (R258) -/
  sent : List Nat := []
  deriving DecidableEq, Repr

/-- A ring as its descriptor gives it (R235). -/
structure Ring where
  desc : Nat
  base : Nat
  slog : Nat
  logn : Nat
  expiry : Nat
  stage : Nat
  deriving DecidableEq, Repr

/-- RGRES or RGTAKE waiting for a sequence word (R237): the ring as read and the index taken; `moving` is the index reserved on
the expiry ring for an expired record (R238). -/
structure RingOp where
  kind : RingKind
  c : Counted
  core : Nat
  ctx : Nat
  dst : Option Nat
  ring : Ring
  index : Nat
  moving : Option (Ring × Nat)
  /-- its word, by the clause's header and its own address -/
  word : Nat × Nat
  deriving DecidableEq, Repr

/-- MBSEND waiting to append: mailbox, payload, version (R242). -/
structure SendOp where
  c : Counted
  ctx : Nat
  dst : Option Nat
  mailbox : Nat
  payload : List Byte
  version : Nat
  deriving DecidableEq, Repr

/-- MBRECV waiting for an observation (R243). -/
structure RecvOp where
  c : Counted
  core : Nat
  ctx : Nat
  dst : Option Nat
  mailbox : Nat
  va : Nat
  dest : List (Target × Nat)
  /-- its word, by the clause's header and its own address -/
  word : Nat × Nat
  deriving DecidableEq, Repr

/-- An operation that has issued and is not yet complete. -/
inductive Op where
  | load (o : LoadOp)
  | store (o : StoreOp)
  | atom (o : AtomOp)
  | tile (o : TileOp)
  | disc (o : DiscOp)
  | pref (o : PrefOp)
  | ctb (o : CtbOp)
  | seal (o : SealOp)
  | fence (o : FenceOp)
  | wait (o : WaitOp)
  | granule (o : GranuleOp)
  | rinv (o : RinvOp)
  | copy (o : CopyOp)
  | drain (o : DrainOp)
  | fabric (o : FabricOp)
  | ring (o : RingOp)
  /-- NREC (`record`) and SPAWN until the thread enters a cage: the poster's counter and the entrant -/
  | emit (c : Counted) (entrant : Nat) (record : Bool)
  | send (o : SendOp)
  | recv (o : RecvOp)
  deriving DecidableEq, Repr

/-! ## Format windows (R88) -/

/-- A format window (R88). -/
structure Window where
  err : Nat
  layout : Nat
  fmt : Nat
  busy : Bool
  en : Bool
  base : Nat
  sbase : Nat
  cols : Nat
  rows : Nat
  deriving DecidableEq, Repr

/-- A window at reset (R88). -/
def Window.reset : Window := ⟨0, 0, 0, false, false, 0, 0, 0, 0⟩

/-! ## The matrix engine (R107 to R125) -/

/-- What a matrix command does (R222 to R225). -/
inductive MatrixKind where
  /-- MMUL: k word, destination and chain scratch tile -/
  | mmul (k : Word64) (acc accs : Nat)
  | mmerge (d l r : Nat)
  /-- MDRAIN: format, rounding mode code, saturation, tile, random inputs of R34 (tid, word address, draw) -/
  | mdrain (fmt rnd : Nat) (sat : Bool) (acc : Nat) (tid addr draw : Nat)
  deriving DecidableEq, Repr

/-- States of a reservation-table entry that is not FREE (R110). -/
inductive MatrixState where
  | waiting | ready | running
  deriving DecidableEq, Repr

/-- One block or merge still to run of a running command (R118 to R120). -/
inductive MatrixStep where
  /-- pass: destination tile, first slot of the block in the operands, its present slots, the level that the product ends at
  when this is its last block -/
  | pass (acc slot present : Nat) (last : Option Nat)
  | merge (d l r : Nat)
  deriving DecidableEq, Repr

/-- An operand as posting found it (R109, R114): the target of each 64 KiB page it touches, by virtual page, and the format
window it starts in with the element that lies there (R89). -/
structure OperandRef where
  va : Nat
  pages : List (Nat × Target)
  window : Option (Window × Nat × Nat)
  deriving DecidableEq, Repr

/-- What the tile fetch unit read when it pinned the lines of one pass (R116): the pinned lines, the scaled FP32 values of the
present slots, by row of A and by column of B, and the clk the pass takes; `mismatch` and `poisoned` tell
what stops the command at this pass, as first failing virtual and physical address and length (R125). -/
structure PassPins where
  lines : List Nat
  a : List (List Nat)
  b : List (List Nat)
  time : Nat
  mismatch : Option (Nat × Nat × Nat)
  poisoned : Option (Nat × Nat × Nat)
  deriving DecidableEq, Repr

/-- A reservation-table entry (R108 to R110). -/
structure MatrixEntry where
  /-- entry number and sequence number: together the identifier -/
  entry : Nat
  seq : Nat
  ctx : Nat
  team : Nat
  launch : Nat
  poster : Nat
  counted : List Counted
  /-- sr.tid of the poster and its launch id -/
  tid : Nat
  launchId : Nat
  /-- the core that posted it, and the arrays it needs: one core, or leader and follower -/
  core : Nat
  cores : List Nat
  /-- clk of posting and order among the posts of one clk -/
  age : Nat × Nat
  state : MatrixState
  preds : List Nat
  kind : MatrixKind
  cfg : MatrixCfg
  a : OperandRef
  b : OperandRef
  /-- steps of the command still to run -/
  steps : List MatrixStep
  /-- format of the first A and B line pinned (R125) -/
  fmtA : Option Nat
  fmtB : Option Nat
  /-- carry slots by level: the values of the elements in row-major order (R118) -/
  carry : List (Nat × List (Option Pair))
  /-- the pass running and the next one -/
  pins : List PassPins
  /-- the clk at which the running step may end, once it has begun -/
  due : Option Nat
  /-- status: 0 none, 1 format mismatch, 2 uncorrectable data, 3 redundant mismatch (R301), with the failing bytes -/
  status : Nat
  bad : Option (Nat × Nat × Nat)
  /-- INFO and core of the redundant mismatch (R297) -/
  mismatch : Option (Nat × Nat)
  deriving DecidableEq, Repr

/-! ## Pairing, channels and the fabric (R245 to R263) -/

/-- A place with a pairing buffer (R249). -/
inductive Place where
  | core (c : Nat)
  | slice (s : Nat)
  | port (p : Nat)
  deriving DecidableEq, Repr

/-- A node tag: of a handle, or of a unit of a channel step (R247, R260). -/
inductive Tag where
  | handle (ctx h level index : Nat)
  | chan (ctx ch step unit level index : Nat)
  deriving DecidableEq, Repr

/-- A node's value: a handle node, or a channel unit with the operation that combines it and the leaves present in it; `pairs` tells FP32
pairs. -/
inductive EntryVal where
  | node (pairs : Bool) (v : NodeVal)
  | unit (op : Nat) (pairs : Bool) (leaves : List (Nat × UnitVal)) (v : UnitVal)
  deriving DecidableEq, Repr

/-- An entry of a pairing buffer, or on its way to one (R250). -/
structure PairEntry where
  place : Place
  tag : Tag
  value : EntryVal
  /-- clk at which it was kept -/
  aged : Nat
  /-- the team whose contribution it came from, for the forwarding of R250 -/
  team : Nat
  /-- the fabric command that the first acceptance retires, and the fabric's remaining route -/
  cmd : Nat
  route : List (BitVec 5)
  back : List (Nat × List (BitVec 5))
  /-- at a port: the packet has taken its turn here and leaves by this port -/
  leaving : Bool
  /-- SRC and SEQ of the packet that brought it; none once it has been merged or made here (R254) -/
  stamp : Option (Nat × Nat) := none
  /-- it comes from a home slice of its tree on this package (R248, R260) -/
  homed : Bool := false
  deriving DecidableEq, Repr

/-- A handle entry as admission read it (R245). -/
structure Handle where
  launch : Nat
  dest : Nat
  doneVa : Nat
  sump : Nat
  sumpLen : Nat
  deadline : Nat
  nm1 : Nat
  route : Word64
  chold : Nat
  plog : Nat
  prank : Nat
  squota : Nat
  cquota : Nat
  root : Bool
  dfmt : Nat
  pairNodes : Bool
  /-- STATE: 1 open, 2 sealed, 3 complete -/
  state : Nat
  /-- spill slots written but not yet in memory -/
  spilling : List Nat
  deriving DecidableEq, Repr

/-- A spill on its way to the sump (R251): the slot's virtual address and the entry. -/
structure Spill where
  ctx : Nat
  key : Tag
  slotVa : Nat
  value : EntryVal
  deriving DecidableEq, Repr

/-- A channel-table entry (R259). -/
structure Channel where
  buf : Nat
  flag : Nat
  memb : Nat
  sump : Nat
  sumpLen : Nat
  nelem : Nat
  deadline : Nat
  rootPkg : Nat
  nm1 : Nat
  d : Nat
  fmt : Nat
  grad : Bool
  mean : Bool
  replayM : Bool
  isOpen : Bool
  mlog : Nat
  route : Word64
  deriving DecidableEq, Repr

/-- The running state of a channel on this package (R260, R261). -/
structure ChanRun where
  /-- completed steps -/
  steps : Nat
  /-- per contributor: its step and the units it has covered in it -/
  contrib : List (Nat × Nat × List Nat)
  /-- root: clk at which pairing of the current step began -/
  first : Option Nat
  /-- root: clk at which the first contribution of a step reached the package, and the operation of those that have, by step (R261) -/
  reached : List (Nat × Nat × Nat)
  /-- root, under REPLAYM: MAP of the current step's record (R262) -/
  map : Option Nat
  /-- root: units whose root node exists, with its value -/
  roots : List (Nat × Nat × UnitVal)
  /-- root: contributors heard in the step, and the BACK paths for notices with the package of each -/
  present : List Nat
  backs : List (Nat × List (BitVec 5))
  /-- the nodes that places of this package have seen, for duplicates: place, step, unit, level, index -/
  seen : List (Place × Nat × Nat × Nat × Nat)
  /-- the channel sump: tag and value of the nodes spilled there -/
  spilled : List (Tag × EntryVal)
  /-- the units discarded here: 1 duplicate or 2 late, step, contributor, unit (R263) -/
  discards : List (Nat × Nat × Nat × Nat)
  deriving DecidableEq, Repr

/-- A packet in the package: at a switch input, or at the destination port it has reached (R255, R258). -/
structure InFlight where
  packet : Packet
  /-- the input port of the switch; 24 + die for the package's own -/
  input : Nat
  /-- the compute die's port, once it has arrived -/
  arrived : Option Nat
  deriving DecidableEq, Repr

/-! ## Launches and contexts (R324 to R328) -/

/-- A relay of a launch (R264). -/
structure Relay where
  desc : Nat
  batch : Nat
  btmo : Nat
  k : KDesc
  deriving DecidableEq, Repr

/-- The assay block (R326). -/
structure Assay where
  inputs : List (Nat × Nat)
  out : Nat
  ostride : Nat
  olen : Nat
  deriving DecidableEq, Repr

/-- Where a launch came from (R211, R296, R319, R327). -/
inductive LaunchKind where
  /-- a record of the context's queue, by its number -/
  | queued (k : Nat)
  | handler
  /-- a backward grid with the records of its teams (R272): ARG, LAUNCH, TEAM, GROUP -/
  | backward (records : List (Nat × Nat × Nat × Nat))
  /-- the replay of a sample (R319) -/
  | replay (sample : Nat)
  deriving DecidableEq, Repr

/-- A launch that has been admitted (R51, R328). -/
structure Launch where
  ctx : Nat
  /-- launch id (R327) -/
  id : Nat
  kind : LaunchKind
  k : KDesc
  sys : Bool
  /-- order of admission -/
  order : Nat
  /-- the retired quads at admission, by which its threads are numbered (R17) -/
  numbering : List Nat
  relays : List Relay
  handles : List Nat
  assay : Option Assay
  /-- clusters placed so far, in curve-key order, and clusters that have finished or retired -/
  placed : Nat
  finished : List Nat
  retired : Nat
  /-- clk of the first group launch (R245), of the last word issued, and of the last inversion record (R309) -/
  firstGroup : Option Nat
  lastIssue : Nat
  reported : Nat
  /-- backward records staged: (TEAM, GROUP) and the record (R240) -/
  staged : List (Nat × Nat × List Byte)
  status : Option Nat
  /-- the team last served in a residual window: cluster and sr.team (R308) -/
  residual : Option (Nat × Nat)
  /-- windows of the open version channels as admission checked them: channel, WIN, LEN (R274) -/
  windows : List (Nat × Nat × Nat)
  /-- finished teams that the Assayer is to sample: sr.team and the die it finished on (R318, R319) -/
  unsampled : List (Nat × Nat)
  deriving DecidableEq, Repr

/-- A context descriptor (R325). -/
structure CtxDesc where
  ptroot : Nat
  ashift : Nat
  tlog : Nat
  vec : Nat
  prio : Nat
  sysl : Bool
  dies : Nat
  htab : Nat
  ctab : Nat
  stab : Nat
  vtab : Nat
  ering : Nat
  tring : Nat
  hdesc : Nat
  wz : Nat
  save : Nat
  savelen : Nat
  deriving DecidableEq, Repr

/-- A winze drain in progress (R272): BASE as read at its start (R271), the batch launch, if one runs, and its size. -/
structure Drain where
  base : Nat
  launch : Option Nat
  batch : Nat
  deriving DecidableEq, Repr

/-- A role record that the Foreman waits to publish: donor and target stage, the ring and index reserved, and RING of the target, as
the evaluation read them (R235, R270). -/
structure RoleMove where
  donor : Nat
  target : Nat
  ring : Ring
  index : Nat
  tring : Nat
  deriving DecidableEq, Repr

/-- A context slot (R75, R324). -/
structure Context where
  cdesc : Nat
  qbase : Nat
  qlog : Nat
  tail : Nat
  head : Nat
  /-- STATE: 0 closed, 1 open, 2 closing, 3 terminated -/
  state : Nat
  desc : CtxDesc
  /-- sys.check (R215) -/
  schk : Bool
  /-- context lock lists by die: index and lock (R98) -/
  locks : List (Nat × List (Nat × Lock))
  handler : Option Nat
  /-- trap-ring slots in use: slot, trapped thread and first thread of its handler group (R296, R298) -/
  trapSlots : List (Nat × Nat × Nat)
  /-- save-pool allocations: offset and bytes (R299) -/
  images : List (Nat × Nat)
  drain : Option Drain
  /-- TARGET of the winze header has been written since the winze controller last read it (R272) -/
  targeted : Bool
  /-- Foreman: stages that rest, with the evaluations left, and the reservation awaited (R270) -/
  rests : List (Nat × Nat)
  foremanMove : Option RoleMove
  deriving DecidableEq, Repr

/-! ## Control blocks and units of the dies -/

/-- A compute die's memory-control block and its counters (R303, R320). -/
structure DieCtl where
  vpn : Nat
  npg : Nat
  ictx : Nat
  busy : Bool
  rmt : Nat
  alerts : Nat
  /-- activation counts by (controller, bank, row), and bank holds by (controller, bank) with their end -/
  rows : List ((Nat × Nat × Nat) × Nat)
  holds : List ((Nat × Nat) × Nat)
  /-- CBASE and CLEN of the carve-out (R279) -/
  cbase : Nat
  clen : Nat
  deriving DecidableEq, Repr

/-- A die's control fields at reset (R279, R303, R320). [DESIGN CHOICE: log entry 13] -/
def DieCtl.reset : DieCtl := ⟨0, 0, 0, false, 4096, 0, [], [], 0, 0⟩

/-- An episode descriptor (R284). -/
structure Episode where
  env : Nat
  chk : Nat
  envLen : Nat
  chkLen : Nat
  entry : Nat
  chkEntry : Nat
  stepLim : Nat
  cycLim : Nat
  tag : Nat
  clean : Bool
  deriving DecidableEq, Repr

/-- An action or observation slot's header (R287); its payload lies in the carve-out. -/
structure SlotHdr where
  /-- record number: the slot is this modulo 64 -/
  num : Nat
  ver : Nat
  step : Nat
  stale : Bool
  term : Bool
  len : Nat
  deriving DecidableEq, Repr

/-- A mailbox's states (R285). -/
inductive MbState where
  | unbound | idle | starting | running | checking | ending
  deriving DecidableEq, Repr

/-- A mailbox entry with its rings and queues (R283 to R289). -/
structure Mailbox where
  vchen : Bool
  vch : Nat
  ctx : Nat
  state : MbState
  epdesc : Nat
  steps : Nat
  dropped : Nat
  pin : Nat
  vlast : Nat
  aseq : Nat
  hart : Nat
  terms : Nat
  nstale : Nat
  /-- order of its START write, while STARTING -/
  order : Nat
  episode : Option Episode
  actions : List SlotHdr
  observations : List SlotHdr
  /-- record number of the next observation -/
  nextObs : Nat
  sends : List Nat
  recvs : List Nat
  /-- why the episode ends: 0 normal, else the reason of the kill (R291) -/
  reason : Nat
  /-- cycles used in the last step -/
  lastCycles : Nat
  /-- the checker's staged observation -/
  staged : List Byte
  deriving DecidableEq, Repr

/-- A mailbox at reset (R283). [DESIGN CHOICE: log entry 13] -/
def Mailbox.reset : Mailbox :=
  ⟨false, 0, 0, .unbound, 0, 0, 0, 0, 0, 0, 0, 0, 0, 0, none, [], [], 0, [], [], 0, 0, []⟩

/-- An entry of a hart's physical memory protection: a range and what user mode may do in it (R277, R282). -/
structure PmpEntry where
  addr : Nat
  len : Nat
  r : Bool
  w : Bool
  x : Bool
  locked : Bool
  deriving DecidableEq, Repr

/-- What a hart's Sv39 tables map for user mode: a virtual range, where it lies, and its permissions (R282). -/
structure HartMap where
  va : Nat
  pa : Nat
  len : Nat
  r : Bool
  w : Bool
  x : Bool
  deriving DecidableEq, Repr

/-- A hart (R277, R282, R290). -/
structure Hart where
  /-- the mailbox whose episode it runs -/
  mailbox : Option Nat
  pc : Word64
  /-- x1 to x31 and f0 to f31, fcsr -/
  x : List (Nat × Word64)
  f : List (Nat × Word64)
  fcsr : Word32
  cycle : Nat
  instret : Nat
  /-- the 16 PMP entries, what the Sv39 tables map, and satp, as the monitor sets them up (R282) -/
  pmp : List PmpEntry
  maps : List HartMap
  satp : Word64
  checker : Bool
  /-- the held action -/
  held : Option SlotHdr
  /-- an ATAKE that waits for an action -/
  stalled : Bool
  /-- an OPOST that waits for a free slot (R288): its value -/
  posting : Option Word64
  /-- the integer register that the next ATAKE or OPOST, or one that stalls or waits, gives its 0 to (R290) -/
  rd : Nat
  /-- a WFI that has not been woken (R277) -/
  wfi : Bool
  /-- the clk at which it began to stall or wait -/
  since : Nat
  /-- CYCLEFT -/
  cycLeft : Nat
  opay : List (Nat × Word64)
  /-- what the last LR reserved: physical address, bytes and value -/
  resv : Option (Nat × Nat × Nat)
  deriving DecidableEq, Repr

/-- A hart at reset. [DESIGN CHOICE: log entry 13] -/
def Hart.reset : Hart := ⟨none, 0, [], [], 0, 0, 0, [], [], 0, false, none, false, none, 0, false, 0, 0, [], none⟩

/-- A sample of the Assayer (R319). -/
structure Sample where
  launch : Nat
  team : Nat
  ctx : Nat
  /-- the die the team finished on, and S1 -/
  die : Nat
  s1 : List Byte
  /-- the replay's launch key, its buffer, and whether it has been marked unverifiable -/
  replay : Option Nat
  buffer : List (Nat × Byte)
  unverifiable : Bool
  /-- the output range -/
  out : Nat
  len : Nat
  deriving DecidableEq, Repr

/-- A pre-emption request (R304): the cores that are to be free for it, its priority, and the context whose launch waits for them. -/
structure Preempt where
  cores : Nat
  prio : Nat
  ctx : Option Nat
  deriving DecidableEq, Repr

/-- What a frozen master held when it froze (R317): the teams, groups, threads, cages, ports and control registers of the cores that
freeze with it, their operations and matrix commands, their storage, or the hart. -/
structure HeldMaster where
  teams : List (Nat × Team)
  groups : List (Nat × Group)
  threads : List (Nat × Thread)
  cages : List (Nat × Cage)
  ports : List (Nat × PortState)
  cores : List (Nat × CoreCtl)
  ops : List (Nat × Op)
  matrix : List (Nat × MatrixEntry)
  onchip : List Host.Cell
  rows : List (Nat × Word32)
  hart : Option Hart
  deriving DecidableEq, Repr

/-- A residual window (R308): the launch served, its core pair, the teams restored onto it, and the clk of its end once the
pair is free. -/
structure Residual where
  launch : Nat
  cores : List Nat
  teams : List Nat
  until_ : Option Nat
  deriving DecidableEq, Repr

/-- A read of the host or the completion of one (R21, R322): the bytes, or none for Unsupported Request. -/
inductive HostEvent where
  | completion (bytes : List Byte)
  | unsupported
  | interrupt (vec : Nat)
  | aer (sev : Nat)
  /-- the answer to an SPDM request, by its place in R329's list, as its parts; none for a request out of turn -/
  | spdm (request : Nat) (parts : Option (List (List Byte)))
  deriving DecidableEq, Repr

/-- The SPDM responder's connection (R329): the negotiation reached, 0 to 3. -/
structure Spdm where
  stage : Nat
  deriving DecidableEq, Repr

/-- Registers of the global block and the start in progress (R323, R330), and the clk of the
Foreman's next evaluation (R270), of the next residual period (R308) and of the end of the atomics' interval (R104). -/
structure Global where
  atomics : Nat
  foreman : Nat
  residualAt : Nat
  fail : Nat
  kind : Nat
  calok : Bool
  /-- the calibration record: the free choice that tells what it holds, once a start has written one (R329, R330) -/
  calibration : Option Nat
  ready : Bool
  wbase : Nat
  invtmo : Nat
  asamp : Nat
  adrop : Nat
  aunver : Nat
  plim : Nat
  /-- PBASE and PLEN, by range -/
  pranges : List (Nat × Nat × Nat)
  /-- the start step that runs, 0 for none; whether it is a warm start; whether steps 2 to 4 ran in it -/
  step : Nat
  warm : Bool
  ran : Bool
  /-- after a fatal error the device sends no further transactions until a start (R317) -/
  contained : Bool
  /-- alerts raised to the management processor: die, controller, bank and row (R320) -/
  alerted : List (Nat × Nat × Nat × Nat)
  deriving DecidableEq, Repr

/-- The package. -/
structure State where
  /-- clk since power-on, and the clk at which READY was set (R214, sr.clk) -/
  clk : Nat
  readyAt : Nat
  /-- the model's own: the moves to make next, the number of moves and free values taken, the next key to give out -/
  agenda : List Turn
  draws : Nat
  nextKey : Nat
  /-- the word being issued in this move -/
  issuing : Option Issuing
  -- execution
  threads : List (Nat × Thread)
  groups : List (Nat × Group)
  teams : List (Nat × Team)
  launches : List (Nat × Launch)
  contexts : List (Nat × Context)
  cores : List (Nat × CoreCtl)
  /-- cages by core × 64 + number -/
  cages : List (Nat × Cage)
  entrants : List (Nat × Entrant)
  /-- ports by (core × 8 + bay) × 4 + port -/
  ports : List (Nat × PortState)
  fixed : List (Nat × FixedWrite)
  ops : List (Nat × Op)
  /-- the order in which stores reached their die -/
  dieOrder : Nat
  -- memory
  /-- HBM, scratchpads and accumulators by physical address; what is unlisted reads zero -/
  mem : List Host.Cell
  /-- bytes of home L2 slices not yet written back, by physical address -/
  l2 : List Host.Cell
  /-- bytes held in L1, by core × 2^56 + physical address -/
  l1 : List Host.Cell
  /-- presence bits of the home slices: the dies that may hold a guest copy of a line, as a mask (R81) -/
  presence : List (Nat × Nat)
  /-- register rows that no thread owns and that do not read zero, by row (R10) -/
  rows : List (Nat × Word32)
  /-- full granules of scratchpads, by physical address of the granule (R83) -/
  full : List Nat
  /-- poisoned sectors and words, by physical address; a word of L1 by 2^64 plus its key in L1 (R315) -/
  poison : List Nat
  /-- translations cached by die (R302) -/
  tlb : List (Nat × List TlbEntry)
  /-- range-lock tables by core: index and lock (R97) -/
  rangeLocks : List (Nat × List (Nat × Lock))
  /-- register rows locked by copies: core, bay, slot, row and the copy (R73) -/
  rowLocks : List (Nat × Nat × Nat × Nat × Nat)
  /-- writer entries by launch and line: first, rel, second, count, disc (R106) -/
  writers : List ((Nat × Nat) × (Nat × Nat × Option Nat × Nat × Bool))
  /-- atomics counted in the interval by (64 KiB region, source die), and migrated homes by region (R104) -/
  atomCounts : List ((Nat × Nat) × Nat)
  homes : List (Nat × Nat)
  /-- lines marked evict-first in their home slice, and in an L1 by core × 2^56 + line (R86) -/
  evictFirst : List Nat
  l1EvictFirst : List Nat
  windows : List (Nat × Window)
  dies : List (Nat × DieCtl)
  -- engines
  matrix : List (Nat × MatrixEntry)
  /-- last sequence number given, by quad × 64 + entry -/
  matrixSeq : List (Nat × Nat)
  /-- redundant marks and the identifier that last wrote, by core × 16 + n (R124) -/
  marks : List (Nat × Nat)
  writersOf : List (Nat × Nat)
  handles : List (Nat × Handle)
  buffers : List (Nat × PairEntry)
  arrivals : List (Nat × PairEntry)
  /-- places that have treated an arrival, with the clk (R250) -/
  treated : List (Place × Nat)
  spills : List (Nat × Spill)
  channels : List (Nat × ChanRun)
  /-- highest SEQ given by (ctx, channel) -/
  seqs : List (Nat × Nat)
  packets : List (Nat × InFlight)
  /-- packets that have left on drift links, with their link sequence -/
  outbox : List (Nat × Nat × Packet)
  /-- packets on each link not yet acknowledged by the receiver, with their link sequence (R254, R257) -/
  unacked : List (Nat × Nat × Packet)
  /-- delivered sequences by (die, SRC, CTX, CH) (R258) -/
  delivered : List ((Nat × Nat × Nat × Nat) × List Nat)
  /-- flits accepted: sending package, link, link sequence (R257) -/
  accepted : List (Nat × Nat × Nat)
  /-- notice tables by port: (ctx, channel), step and order (R263) -/
  notices : List (Nat × List ((Nat × Nat) × Nat × Nat))
  detours : List (Nat × Word64)
  retiredQuads : List Nat
  retiredPorts : List Nat
  -- Adit
  mailboxes : List (Nat × Mailbox)
  harts : List (Nat × Hart)
  /-- arenas by die × 4096 + tag: ABASE and ALOG (R281) -/
  arenas : List (Nat × Nat × Nat)
  -- scheduling and reliability
  requests : List Preempt
  /-- teams chosen to be saved, whose save has not begun (R304, R305) -/
  victims : List Nat
  /-- waits that saves have withdrawn, under the keys they keep (R189, R220) -/
  withdrawn : List (Nat × Op)
  /-- quads that are being retired (R310) -/
  retiring : List Nat
  /-- residual windows in progress (R308) -/
  residual : List Residual
  samples : List (Nat × Sample)
  frozen : List (MasterKind × Nat)
  /-- what each frozen master held when it froze, for the management processor to read (R317) -/
  heldMasters : List ((MasterKind × Nat) × HeldMaster)
  /-- the free choice that tells the bays held by the power limit, while it is exceeded (R323) -/
  throttled : Option Nat
  idCounter : Nat
  mgmtLog : List (List Byte)
  -- the host
  host : List HostEvent
  /-- bytes of the MSI-X table in BAR4 that have been written, by offset (R322) -/
  msix : List (Nat × Byte)
  spdm : Spdm
  glob : Global
  deriving DecidableEq, Repr

/-- The registers of the global block at reset (R323), with the cold start that power-on begins at its first step (R330).
[DESIGN CHOICE: log entry 13; DEDUCED: log entry 14] -/
def Global.reset : Global where
  atomics := 65536
  foreman := 4096
  residualAt := 12000000
  fail := 0
  kind := 0
  calok := false
  calibration := none
  ready := false
  wbase := 0
  invtmo := 2 ^ 26
  asamp := 0
  adrop := 0
  aunver := 0
  plim := 2800
  pranges := []
  step := 1
  warm := false
  ran := false
  contained := false
  alerted := []

/-- The package right after power-on: the cold start stands at step 1 and every register holds its reset value (R330). The
two quads retired at test on each die are fused in each unit (R16): `Config.fusedQuads`.
[DESIGN CHOICE: log entry 6; DESIGN CHOICE: log entry 12; DESIGN CHOICE: log entry 13] -/
def State.reset : State where
  clk := 0
  readyAt := 0
  agenda := []
  draws := 0
  nextKey := 1
  issuing := none
  threads := []
  groups := []
  teams := []
  launches := []
  contexts := []
  cores := []
  cages := []
  entrants := []
  ports := []
  fixed := []
  ops := []
  dieOrder := 0
  mem := []
  l2 := []
  l1 := []
  presence := []
  rows := []
  full := []
  poison := []
  tlb := []
  rangeLocks := []
  rowLocks := []
  writers := []
  atomCounts := []
  homes := []
  evictFirst := []
  l1EvictFirst := []
  windows := []
  dies := []
  matrix := []
  matrixSeq := []
  marks := []
  writersOf := []
  handles := []
  buffers := []
  arrivals := []
  treated := []
  spills := []
  channels := []
  seqs := []
  packets := []
  outbox := []
  unacked := []
  delivered := []
  accepted := []
  notices := []
  detours := []
  retiredQuads := Config.fusedQuads
  retiredPorts := []
  mailboxes := []
  harts := []
  arenas := []
  requests := []
  victims := []
  withdrawn := []
  retiring := []
  residual := []
  samples := []
  frozen := []
  heldMasters := []
  throttled := none
  idCounter := 0
  mgmtLog := []
  host := []
  msix := []
  spdm := ⟨0⟩
  glob := Global.reset

end Sys2Proof.Machine
end

