-- ==== Sys2Proof/Machine/Memory.lean ====
section
/-! DEFINITION. Physical memory, its views by core and die, and address translation (spec/01_organisation.md R15 to R21,
spec/07_memory.md R75 to R93, spec/25_faults_reliability.md R302, R315). -/

namespace Sys2Proof.Machine

/-! ## The canonical byte memory -/

/-- Memory's canonical form: addresses strictly rising and no byte equal to what an unlisted address reads as.
[DESIGN CHOICE: log entry 12] -/
def Memory.wf (m : List Host.Cell) : Bool := tsorted m && m.all fun c => c.2 ≠ 0

/-- One byte; what is unlisted reads zero, as step 6 of a start leaves it (R330). [DESIGN CHOICE: log entry 12] -/
def memRead (m : List Host.Cell) (a : Nat) : Byte := tgetD a 0 m

/-- A write of one byte, canonical form kept. -/
def memWrite (m : List Host.Cell) (a : Nat) (b : Byte) : List Host.Cell := if b = 0 then tdel a m else tset a b m

/-- Consecutive bytes written. -/
def memWrites (m : List Host.Cell) : Nat → List Byte → List Host.Cell
  | _, [] => m
  | a, b :: bs => memWrites (memWrite m a b) (a + 1) bs

/-! ## Identities and the physical map -/

/-- Cores of a die, and quads of a die (R9, R15). -/
def coresPerDie : Nat := 144
def quadsPerDie : Nat := 36

/-- The die of a core key. -/
def dieOfCore (core : Nat) : Nat := core / coresPerDie

/-- The quad key of a core key (R15). -/
def quadOfCore (core : Nat) : Nat := core / 4

/-- The core keys of a core's pair (R15). -/
def pairOfCore (core : Nat) : Nat × Nat := (core / 2 * 2, core / 2 * 2 + 1)

/-- Whether a core's quad is enabled (R16). -/
def coreEnabled (s : State) (core : Nat) : Bool := !s.retiredQuads.contains (quadOfCore core)

/-- The enabled core keys in logical order (R17). -/
def enabledCores (s : State) : List Nat := (List.range (4 * coresPerDie)).filter (coreEnabled s)

/-- The logical core number of a core key under a retirement map (R17). -/
def logicalIn (retired : List Nat) (core : Nat) : Nat :=
  ((List.range core).filter fun c => !retired.contains (quadOfCore c)).length

/-- The logical core number of a core key now (R17). -/
def logicalCore (s : State) (core : Nat) : Nat := logicalIn s.retiredQuads core

/-- Bytes of HBM (R77). -/
def hbmBytes : Nat := 768 * 10 ^ 9

/-- Bytes of one die's HBM (R77). -/
def dieHbmBytes : Nat := 192 * 10 ^ 9

/-- Base of the on-chip map (R18). -/
def onchipBase : Nat := 0x00F0000000000000

/-- Base of the control space (R77). -/
def controlBase : Nat := 0x00F1000000000000

/-- The HBM stack that serves a physical address, 0 to 11 (R9, R77). -/
def stackOf (pa : Nat) : Nat := 3 * (pa / dieHbmBytes) + pa % dieHbmBytes / 256 / 4 % 3

/-- Bytes of an L2 slice, and of a core's L1, in lines of 256 bytes (R9, R10). -/
def l2SliceLines : Nat := 4096
def l1Lines : Nat := 1024

/-- The physical address of an offset in a core's window (R18). -/
def onchipPa (core off : Nat) : Nat := onchipBase + core / coresPerDie * 2 ^ 34 + core % coresPerDie * 2 ^ 24 + off

/-- The regions of a core window (R19). -/
inductive Region where
  | scratchpad (off : Nat)
  | register (bay slot row byte : Nat)
  | accumulator (n off : Nat)
  | control (off : Nat)
  | unassigned
  deriving DecidableEq, Repr

/-- The core and region of an on-chip physical address (R18, R19, R21). -/
def regionOf (s : State) (pa : Nat) : Nat × Region :=
  let o := pa - onchipBase
  let die := o / 2 ^ 34
  let c := o % 2 ^ 34 / 2 ^ 24
  let off := o % 2 ^ 24
  let core := die * coresPerDie + c
  if 4 ≤ die || coresPerDie ≤ c || !coreEnabled s core then (core, .unassigned)
  else if off < 0x80000 then (core, .scratchpad off)
  else if 0x400000 ≤ off && off < 0x600000 then
    let r := off - 0x400000
    (core, .register (r / 0x40000) (r % 0x40000 / 0x1000) (r % 0x1000 / 4) (r % 4))
  else if 0x800000 ≤ off && off < 0x900000 then
    (core, .accumulator ((off - 0x800000) / 0x10000) ((off - 0x800000) % 0x10000))
  else if 0xF00000 ≤ off then (core, .control (off - 0xF00000))
  else (core, .unassigned)

/-- The physical address of element (i, j) of an accumulator of a core (R19). -/
def accPa (core n i j : Nat) : Nat := onchipPa core (0x800000 + n * 0x10000 + (i * 128 + j) * 8)

/-- The home die of a physical address in HBM, home migration included (R77, R104). -/
def homeDie (s : State) (pa : Nat) : Nat := tgetD (pa / 65536) (pa / dieHbmBytes) s.homes

/-- The home slice key, die × 192 + slice, of a physical address in HBM (R77, R104). -/
def homeSlice (s : State) (pa : Nat) : Nat :=
  let n := pa % dieHbmBytes / 256
  homeDie s pa * 192 + (n ^^^ (n / 2 ^ 8) ^^^ (n / 2 ^ 16)) % 192

/-! ## Views of a byte -/

/-- Whether a target is local HBM. -/
def Target.isHbm : Target → Bool
  | .hbm _ => true
  | _ => false

/-- A byte of HBM at its home: the L2 slice's, else HBM's (R81). -/
def homeByte (s : State) (pa : Nat) : Byte := (tget pa s.l2).getD (memRead s.mem pa)

/-- A byte written at its home slice, once the guest copies of its line on the dies named by its presence bits have been
invalidated (R81, R93 step 3). -/
def writeHome (s : State) (pa : Nat) (b : Byte) : State :=
  { s with l2 := tset pa b s.l2, presence := tdel (pa / 256) s.presence }

/-- A die other than the home takes a guest copy of the line of an address: its presence bit is set at the home (R81).
[DEDUCED: log entry 103] -/
def takeGuest (s : State) (die pa : Nat) : State :=
  if homeDie s pa = die then s
  else { s with presence := tset (pa / 256) (tgetD (pa / 256) 0 s.presence ||| 2 ^ die) s.presence }

/-- The element block whose scale byte lies at an address of an enabled window: its base and bytes (R88 to R90). -/
def scaledBlock (s : State) (pa : Nat) : Option (Nat × Nat) :=
  s.windows.findSome? fun e =>
    let w := e.2
    let nbc := ceilDiv w.cols 32
    let blocks := ceilDiv w.rows 32 * nbc
    let eb := if w.fmt = 8 || w.fmt = 9 then 16 else if w.fmt = 2 || w.fmt = 6 || w.fmt = 7 then 4 else 8
    if w.en && w.layout = 1 && w.sbase ≤ pa && pa < w.sbase + blocks then
      some (w.base + (pa - w.sbase) * (128 * eb), 128 * eb)
    else none

/-- The byte that a pending store to local HBM shows at an address before it is performed, with the store's core and place; a
scale byte of an enabled window keeps its old value until then (R90). -/
def storeByte (s : State) (pa : Nat) : Op → Option (Nat × Option Nat × Byte)
  | .store o =>
    if o.target.isHbm && !o.held && (scaledBlock s pa).isNone then (tget pa o.bytes).map fun b => (o.core, o.die, b) else none
  | _ => none

/-- The last of the stores that have reached a die and wait to be performed at home (R81, R93 step 2). -/
def dieByte (s : State) (die pa : Nat) : Byte :=
  let c := s.ops.filterMap fun e =>
    match storeByte s pa e.2 with
    | some (core, some o, b) => if dieOfCore core = die then some (o, b) else none
    | _ => none
  match c.foldl (fun best x => match best with
      | some y => if y.1 < x.1 then some x else some y
      | none => some x) (none : Option (Nat × Byte)) with
  | some x => x.2
  | none => homeByte s pa

/-- A byte of HBM as threads of a core see it past L1: the core's own stores first (R93 step 1). [DEDUCED: log entry 48] -/
def coreByte (s : State) (core pa : Nat) : Byte :=
  let c := s.ops.filterMap fun e =>
    match storeByte s pa e.2 with
    | some (core', none, b) => if core' = core then some b else none
    | _ => none
  match c.getLast? with
  | some b => b
  | none => dieByte s (dieOfCore core) pa

/-- The sample that a team replays (R319). -/
def replayOf (s : State) (team : Nat) : Option (Nat × Sample) :=
  ((tget team s.teams).bind (·.replay)).bind fun n => (tget n s.samples).map fun x => (n, x)

/-- A byte that a team alone sees: one that a replay has redirected to its buffer, or the last held one of a checkpoint interval
(R312, R319). [DEDUCED: log entry 89] -/
def heldByte (s : State) (team pa : Nat) : Option Byte :=
  match (replayOf s team).bind fun r => tget pa r.2.buffer with
  | some b => some b
  | none => (s.ops.filterMap fun e => match e.2 with
    | .store o => if o.held && o.team = team then tget pa o.bytes else none
    | _ => none).getLast?

/-- The key of a byte in a core's L1. -/
def l1Key (core pa : Nat) : Nat := core * 2 ^ 56 + pa

/-- A byte of HBM as a load of a thread reads it; `viaL1` when its policy and scope let L1 serve it (R80, R191). -/
def loadByte (s : State) (core team : Nat) (viaL1 : Bool) (pa : Nat) : Byte :=
  match heldByte s team pa with
  | some b => b
  | none =>
    match (if viaL1 then tget (l1Key core pa) s.l1 else none) with
    | some b => b
    | none => coreByte s core pa

/-- Consecutive addresses. -/
def addrs (a n : Nat) : List Nat := (List.range n).map (a + ·)

/-- A little-endian value of HBM bytes as a die sees them. -/
def dieValue (s : State) (die pa n : Nat) : Nat := leValue ((addrs pa n).map (dieByte s die))

/-- Bytes written at their homes. -/
def writeHomes (s : State) (pa : Nat) (bs : List Byte) : State :=
  ((addrs pa bs.length).zip bs).foldl (fun s e => writeHome s e.1 e.2) s

/-- Every L1 byte of a core dropped (R80). -/
def invalidateL1 (s : State) (core : Nat) : State :=
  { s with l1 := s.l1.filter fun e => e.1 / 2 ^ 56 ≠ core }

/-- The L1 bytes of one 64-byte sector of a core dropped. [DEDUCED: log entry 49] -/
def dropL1Sector (s : State) (core sector : Nat) : State :=
  { s with l1 := s.l1.filter fun e => !(e.1 / 2 ^ 56 = core && e.1 % 2 ^ 56 / 64 = sector / 64) }

/-- The bytes of a range of local HBM by line, for stores that are held or counted line by line. -/
def byLine (bytes : List (Nat × Byte)) : List (List (Nat × Byte)) :=
  ((bytes.map fun b => b.1 / 256).eraseDups).map fun l => bytes.filter fun b => b.1 / 256 = l

/-- The L1 copies that some cores hold of the sectors of bytes written past them are dropped (R80, R92).
[DEDUCED: log entry 49] -/
def dropL1Bytes (s : State) (cores : List Nat) (bytes : List (Nat × Byte)) : State :=
  ((bytes.map fun b => b.1 / 64 * 64).eraseDups).foldl (fun s x => cores.foldl (fun s c => dropL1Sector s c x) s) s

/-- The granule of protection of a byte in a core's L1: the 32-bit word that holds it, by 2^64 plus its key (R315). -/
def l1Granule (core pa : Nat) : Nat := 2 ^ 64 + l1Key core (pa / 4 * 4)

/-- An L1 sector filled with what the core sees past L1 (R80, R85); its words are poisoned where the sector is (R315).
[DEDUCED: log entry 60] -/
def fillL1Sector (s : State) (core sector : Nat) : State :=
  { s with
    poison := s.poison.filter (fun g => g / 64 ≠ l1Granule core sector / 64)
      ++ (if s.poison.contains (sector / 64 * 64) then (List.range 16).map fun i => l1Granule core (sector / 64 * 64 + 4 * i) else [])
    l1 := (addrs sector 64).foldl (fun l pa => tset (l1Key core pa) (coreByte s core pa) l) s.l1 }

/-- The L1 copies of a core take the bytes of a store where they hold them (R80), scale bytes of an enabled window apart (R90); a word
written whole is poisoned no more (R315). [DEDUCED: log entry 49; DEDUCED: log entry 60] -/
def updateL1 (s : State) (core : Nat) (all : List (Nat × Byte)) : State :=
  let bytes := all.filter fun b => (scaledBlock s b.1).isNone
  { s with
    poison := if s.poison.isEmpty then [] else s.poison.filter fun g =>
      !(2 ^ 64 ≤ g && (addrs g 4).all fun a => bytes.any fun b => 2 ^ 64 + l1Key core b.1 = a)
    l1 := bytes.foldl (fun l e => tmod (l1Key core e.1) (fun _ => e.2) l) s.l1 }

/-! ## Poison (R315, R316) -/

/-- The granule of protection of a physical address: a 64-byte sector of HBM, a 32-bit word on chip (R315). -/
def eccGranule (pa : Nat) : Nat := if pa < hbmBytes then pa / 64 * 64 else pa / 4 * 4

/-- The physical address of a granule. -/
def granulePa (g : Nat) : Nat := if g < 2 ^ 64 then g else g % 2 ^ 56

/-- The virtual address of a granule's first byte, by an access at a virtual and a physical address of the same page (R301). -/
def granuleVa (va pa g : Nat) : Nat := wrap 64 ((va : Int) + (granulePa g : Int) - (pa : Int))

/-- The first virtual address of an access that lies in a granule (R297, FADDR). -/
def firstBadVa (va pa g : Nat) : Nat := if granulePa g ≤ pa then va else low 64 (va + (granulePa g - pa))

/-- The virtual address of a record that knows no mapping (R301). -/
def noVa : Nat := 2 ^ 64 - 1

/-- The first poisoned granule among consecutive bytes. -/
def poisonedAt (s : State) (pa n : Nat) : Option Nat :=
  ((addrs pa n).map eccGranule).find? fun g => s.poison.contains g

/-- The first poisoned word of a core's L1 among the consecutive bytes that it holds. [DEDUCED: log entry 60] -/
def l1PoisonedAt (s : State) (core pa n : Nat) : Option Nat :=
  (((addrs pa n).filter fun a => (tget (l1Key core a) s.l1).isSome).map (l1Granule core)).find? fun g => s.poison.contains g

/-- A store that writes every byte of a granule clears its poison (R315). [DEDUCED: log entry 60] -/
def clearPoison (s : State) (bytes : List (Nat × Byte)) : State :=
  if s.poison.isEmpty then s
  else
    { s with poison := s.poison.filter fun g =>
        let n := if g < hbmBytes then 64 else 4
        !((addrs g n).all fun a => (tget a bytes).isSome) }

/-! ## Translation (R75, R76, R302) -/

/-- VA[63:57] equal VA[56] (R75). -/
def canonicalVa (va : Nat) : Bool := let t := va / 2 ^ 56; t = 0 || t = 0xFF

/-- The reserved fields of an entry at a level (R76): TADDR is reserved except in a pointer to a level-4 table, and a leaf's
or pointer's KIND must be local, or peer for a leaf. [DEDUCED: log entry 26] -/
def entryReserved (level e : Nat) : Bool :=
  bits e 56 8 ≠ 0 || 1 < bits e 6 2
    || (bits e 8 8 ≠ 0 && !(level = 3 && !bit e 1)) || (bits e 6 2 = 1 && !bit e 1)

/-- The index bits and page size of a level (R76). -/
def levelShift : Nat → Nat
  | 0 => 48
  | 1 => 39
  | 2 => 30
  | 3 => 21
  | _ => 16

/-- The carve-out of a die contains the address (R280). -/
def inCarveOut (s : State) (pa : Nat) : Bool :=
  s.dies.any fun e => e.2.cbase ≤ pa && pa < e.2.cbase + e.2.clen

/-- Bytes of HBM at a physical address that a device unit may reach: HBM outside every carve-out (R77, R280).
[DEDUCED: log entry 104] -/
def deviceReaches (s : State) (pa n : Nat) : Bool := pa + n ≤ hbmBytes && !(inCarveOut s pa || inCarveOut s (pa + (n - 1)))

/-- A table entry lies where no walker reads: outside HBM, or in a carve-out (R77, R280). [DEDUCED: log entry 104] -/
def entryUnreadable (s : State) (pa : Nat) : Bool := hbmBytes ≤ pa || inCarveOut s pa

/-- A walk from a level down: the leaf and its page size, or none for the translation trap (R76). `fuel` counts the levels
left. [DEDUCED: log entry 26; DEDUCED: log entry 104] -/
def walkFrom (s : State) (die : Nat) (va : Nat) : Nat → Nat → Nat → Option (Nat × Nat)
  | 0, _, _ => none
  | fuel + 1, level, table =>
    let width := if level = 4 then 5 else 9
    let pa := table + bits va (levelShift level) width * 8
    let e := dieValue s die pa 8
    if entryUnreadable s pa || (poisonedAt s pa 8).isSome || !bit e 0 || entryReserved level e then none
    else if bit e 1 then
      let size := 2 ^ levelShift level
      if level < 2 || bits e 16 40 * 65536 % size ≠ 0 then none else some (e, size)
    else if level = 4 then none
    else
      let next := bits e 16 40 * 65536 + (if level = 3 then bits e 8 8 * 256 else 0)
      if level ≠ 3 && next % 4096 ≠ 0 then none else walkFrom s die va fuel (level + 1) next

/-- The poisoned table entry that a walk reads, if it reads one (R302). -/
def walkPoison (s : State) (die : Nat) (va : Nat) : Nat → Nat → Nat → Option Nat
  | 0, _, _ => none
  | fuel + 1, level, table =>
    let pa := table + bits va (levelShift level) (if level = 4 then 5 else 9) * 8
    let e := dieValue s die pa 8
    if entryUnreadable s pa then none
    else match poisonedAt s pa 8 with
      | some g => some g
      | none =>
        if !bit e 0 || entryReserved level e || bit e 1 then none
        else walkPoison s die va fuel (level + 1) (bits e 16 40 * 65536 + (if level = 3 then bits e 8 8 * 256 else 0))

/-- The physical addresses of the entries that a walk reads (R76, R302). -/
def walkReads (s : State) (die : Nat) (va : Nat) : Nat → Nat → Nat → List Nat
  | 0, _, _ => []
  | fuel + 1, level, table =>
    let pa := table + bits va (levelShift level) (if level = 4 then 5 else 9) * 8
    let e := dieValue s die pa 8
    if entryUnreadable s pa then []
    else if (poisonedAt s pa 8).isSome || !bit e 0 || entryReserved level e || bit e 1 then [pa]
    else pa :: walkReads s die va fuel (level + 1) (bits e 16 40 * 65536 + (if level = 3 then bits e 8 8 * 256 else 0))

/-- The page-table root of a context. -/
def rootOf (s : State) (ctx : Nat) : Nat := ((tget ctx s.contexts).map fun c => c.desc.ptroot).getD 0

/-- The leaf for a virtual address: a cached translation of the die, else a walk (R302). -/
def leafOf (s : State) (die ctx va : Nat) : Option (Nat × Nat) :=
  match ((tget die s.tlb).getD []).find? fun t => t.ctx = ctx && t.va ≤ va && va < t.va + t.size with
  | some t => some (t.leaf.toNat, t.size)
  | none => if canonicalVa va then walkFrom s die va 5 0 (rootOf s ctx) else none

/-- The translation of a page kept in the die's walker (R302). -/
def cacheLeaf (s : State) (die ctx va : Nat) : State :=
  match leafOf s die ctx va with
  | none => s
  | some (leaf, size) =>
    let list := (tget die s.tlb).getD []
    if list.any fun t => t.ctx = ctx && t.va ≤ va && va < t.va + t.size then s
    else { s with tlb := tset die (⟨ctx, va / size * size, size, BitVec.ofNat 64 leaf⟩ :: list) s.tlb }

/-- What an access needs of its page (R76, R187 step 4). -/
structure Need where
  rd : Bool
  wr : Bool
  x : Bool
  sys : Bool
  deriving DecidableEq, Repr

/-- The start of the scratchpad aperture (R78). -/
def apertureBase : Nat := 0xFFFFFF0000000000

/-- The scratchpad byte that an aperture offset names (R53, R78), or none past the allocation. -/
def apertureTarget (s : State) (team off : Nat) : Option Target :=
  match tget team s.teams with
  | none => none
  | some t =>
    if t.scratch ≤ off then none
    else match t.cores with
      | [(core, _, base)] => some (.scratch core (base + off))
      | [(c0, _, b0), (c1, _, b1)] =>
        let half := t.scratch / 2
        if off < half then some (.scratch c0 (b0 + off)) else some (.scratch c1 (b1 + (off - half)))
      | _ => none

/-- The bytes from an address on that one translation reaches: up to the next 64 KiB boundary and, in the aperture, up to the
half of a core pair and to the end of the allocation (R53, R76, R78). -/
def pieceRoom (s : State) (team va : Nat) : Nat :=
  let n := 65536 - va % 65536
  if va < apertureBase then n
  else match tget team s.teams with
    | none => n
    | some t =>
      let off := va - apertureBase
      let n := if off < t.scratch then min n (t.scratch - off) else n
      if t.cores.length = 2 && off < t.scratch / 2 then min n (t.scratch / 2 - off) else n

/-- The pieces that a range of bytes can fall into, at most. -/
def pieceFuel (len : Nat) : Nat := len / 65536 + 4

/-- Whether an offset of the control space is assigned: a register of the global block, of a die's memory-control or Adit
control block, of the switch's detour table, or of a context slot (R88, R257, R279, R281, R283, R303, R320, R322 to R324).
[DEDUCED: log entry 21] -/
def controlAssigned (off : Nat) : Bool :=
  if off < 0x1000000 then off < 0x140
  else if off < 0x2000000 then
    let o := off % 0x100000
    off < 0x1400000 && ((0x100 ≤ o && o < 0x110) || (0x2000 ≤ o && o < 0x2400 && o % 0x40 < 0x20) || (0x3000 ≤ o && o < 0x3008))
  else if off < 0x3000000 then
    let o := off % 0x100000
    off < 0x2400000 && (o < 0x10 || (0x10000 ≤ o && o < 0x20000) || (0x40000 ≤ o && o < 0x50000))
  else if off < 0x4000000 then off < 0x30000C0
  else off < 0x4004000 && off % 0x100 < 0x30

/-- The physical target of a translated address (R76, R77), or the cause of the trap that a device thread takes (R21).
[DEDUCED: log entry 26] -/
def targetOf (s : State) (sysMode : Bool) (leaf size va : Nat) : Except Nat Target :=
  let off := va % size
  if bits leaf 6 2 = 1 then .ok (.peer (bits leaf 40 16) (bits leaf 16 24 * 65536 + off))
  else
    let pa := bits leaf 16 40 * 65536 + off
    if pa < hbmBytes then (if inCarveOut s pa then .error 0x11 else .ok (.hbm pa))
    else if onchipBase ≤ pa && pa < onchipBase + 0x1000000000 then
      match (regionOf s pa).2 with
      | .unassigned => .error 0x11
      | .control _ => if sysMode then .ok (.onchip pa) else .error 0x11
      | _ => .ok (.onchip pa)
    else if controlBase ≤ pa && pa < controlBase + 0x10000000 then
      (if sysMode && controlAssigned (pa - controlBase) then .ok (.control (pa - controlBase)) else .error 0x11)
    else .error 0x11

/-- Translation and permission of one address for a thread's or engine's access (R75, R76, R78, R187 steps 3 and 4): the
target, or the cause of the trap. -/
def resolve (s : State) (die ctx team : Nat) (need : Need) (va : Nat) : Except Nat Target :=
  if apertureBase ≤ va then
    match apertureTarget s team (va - apertureBase) with
    | some t => .ok t
    | none => .error 0x11
  else
    match leafOf s die ctx va with
    | none => .error 0x10
    | some (leaf, size) =>
      if (bit leaf 5 && !need.sys) || (need.rd && !bit leaf 2) || (need.wr && !bit leaf 3) || (need.x && !bit leaf 4)
      then .error 0x11
      else targetOf s need.sys leaf size va

/-- The first address of a range of consecutive bytes that does not resolve with its cause, or the targets by piece of one
translation: (target of the first byte, length). -/
def resolveRange (s : State) (die ctx team : Nat) (need : Need) : Nat → Nat → Nat → Except (Nat × Nat) (List (Target × Nat))
  | 0, _, _ => .ok []
  | _, _, 0 => .ok []
  | fuel + 1, va, len =>
    let n := min len (pieceRoom s team va)
    match resolve s die ctx team need va with
    | .error c => .error (va, c)
    | .ok t =>
      match resolveRange s die ctx team need fuel (low 64 (va + n)) (len - n) with
      | .error e => .error e
      | .ok ts => .ok ((t, n) :: ts)

/-- A target moved on by a number of bytes within one page. -/
def Target.plus (t : Target) (n : Nat) : Target :=
  match t with
  | .hbm pa => .hbm (pa + n)
  | .scratch c o => .scratch c (o + n)
  | .onchip pa => .onchip (pa + n)
  | .control o => .control (o + n)
  | .peer p pa => .peer p (pa + n)

/-- The physical address by which a target's bytes are poisoned, locked and kept: on-chip for the scratchpad. -/
def Target.pa : Target → Nat
  | .hbm pa => pa
  | .scratch c o => onchipPa c o
  | .onchip pa => pa
  | .control o => controlBase + o
  | .peer _ pa => pa

/-- The address space that a target's physical address belongs to: 0 for this package's, one past the package's number for a
peer's. -/
def Target.space : Target → Nat
  | .peer p _ => p + 1
  | _ => 0

/-- A store writes bytes of a target. -/
def StoreOp.touches (o : StoreOp) (tgt : Target) (n : Nat) : Bool :=
  o.target.space = tgt.space && o.bytes.any fun b => tgt.pa ≤ b.1 && b.1 < tgt.pa + n

/-- A store counts for a thread. -/
def StoreOp.of (o : StoreOp) (k : Nat) : Bool := o.cs.any fun c => c.thread = k

/-- Whether a target is the scratchpad through the aperture. -/
def Target.isScratch : Target → Bool
  | .scratch _ _ => true
  | _ => false

/-! ## The granules of the scratchpad (R83) -/

/-- The full-empty granule of a scratchpad byte, by physical address. -/
def granuleOf (core off : Nat) : Nat := onchipPa core off / 16 * 16

/-- A granule's bit set full. -/
def setFull (s : State) (g : Nat) : State := if s.full.contains g then s else { s with full := g :: s.full }

/-- A granule's bit set empty. -/
def setEmpty (s : State) (g : Nat) : State := { s with full := s.full.filter (· ≠ g) }

end Sys2Proof.Machine
end

