-- ==== Sys2Proof/Machine/Threads.lean ====
section
/-! DEFINITION. Free values and keys, the banks of HBM, room in L1, and the threads, groups and teams with their registers
(R10, R13, R44, R67, R70, R71, R77, R80, R320). -/

namespace Sys2Proof.Machine

/-! ## Free values and keys -/

/-- The next free value and the state with the count of free values moved on.
[DESIGN CHOICE: log entry 1; DESIGN CHOICE: log entry 11] -/
def State.draw (s : State) : Word64 × State := (Config.freeWord s.draws, { s with draws := s.draws + 1 })

/-- Free bytes, eight for each free value. [DESIGN CHOICE: log entry 1] -/
def State.drawBytes (s : State) : Nat → List Byte × State
  | 0 => ([], s)
  | n + 1 =>
    let (x, s) := s.draw
    let (bs, s) := s.drawBytes n
    (leBytes 8 x.toNat ++ bs, s)

/-- A key not given out before. [DESIGN CHOICE: log entry 11] -/
def State.fresh (s : State) : Nat × State := (s.nextKey, { s with nextKey := s.nextKey + 1 })

/-! ## HBM's rows and banks (R13, R77, R320) -/

/-- A die's control fields. -/
def State.die (s : State) (d : Nat) : DieCtl := tgetD d DieCtl.reset s.dies

/-- A die's control fields changed. -/
def State.onDie (s : State) (d : Nat) (f : DieCtl → DieCtl) : State := { s with dies := tset d (f (s.die d)) s.dies }

/-- The controller of its die that serves a physical address: it serves one pseudo-stack of each stack of the die (R13, R77). -/
def controllerOf (pa : Nat) : Nat := pa % dieHbmBytes / 256 % 4

/-- The bank of its controller that holds a physical address: a bank of one of the die's three stacks (R13, R77).
[DESIGN CHOICE: log entry 7] -/
def bankOf (pa : Nat) : Nat := 3 * Config.dramBank pa + stackOf pa % 3

/-- An access to HBM may activate a row: the controller counts it. [DESIGN CHOICE: log entry 7] -/
def noteActivation (s : State) (pa : Nat) : State :=
  let (x, s) := s.draw
  if bit x.toNat 0 then
    s.onDie (pa / dieHbmBytes) fun d =>
      let key := (controllerOf pa, bankOf pa, Config.dramRow pa)
      match d.rows.find? fun r => r.1 = key with
      | some (_, n) => { d with rows := (key, n + 1) :: d.rows.filter fun r => r.1 ≠ key }
      | none => { d with rows := (key, 1) :: d.rows }
  else s

/-- An access to consecutive bytes of HBM counts for each line that it reaches (R320). -/
def noteActivations (s : State) (tgt : Target) (n : Nat) : State :=
  match tgt with
  | .hbm pa => (((addrs pa n).map (· / 256)).eraseDups).foldl (fun s l => noteActivation s (l * 256)) s
  | _ => s

/-- A request to the bank of a physical address is held. -/
def bankHeld (s : State) (pa : Nat) : Bool :=
  (s.die (pa / dieHbmBytes)).holds.any fun h => h.1 = (controllerOf pa, bankOf pa) && s.clk < h.2

/-- A request for consecutive bytes of HBM is held by some line's bank (R320). -/
def banksHeld (s : State) (tgt : Target) (n : Nat) : Bool :=
  match tgt with
  | .hbm pa => ((addrs pa n).map (· / 256)).eraseDups.any fun l => bankHeld s (l * 256)
  | _ => false

/-! ## Room in L1 (R10, R80, R86) -/

/-- The lines that a core's L1 holds. -/
def l1Held (s : State) (core : Nat) : List Nat :=
  ((s.l1.filter fun e => e.1 / 2 ^ 56 = core).map fun e => e.1 % 2 ^ 56 / 256).eraseDups

/-- A line leaves a core's L1, which holds no dirty data, and with it its evict-first mark (R80, R86). -/
def evictL1 (s : State) (core line : Nat) : State :=
  let s := (List.range 4).foldl (fun s i => dropL1Sector s core (line * 256 + 64 * i)) s
  { s with l1EvictFirst := s.l1EvictFirst.filter (· ≠ l1Key core line) }

/-- A full L1 gives up a line for one that it does not hold: one marked evict-first before any other, by a free choice among equals
(R10, R86). [DESIGN CHOICE: log entry 107] -/
def makeL1Room (s : State) (core line : Nat) : State :=
  if s.l1.length < 64 * l1Lines then s
  else
    let held := l1Held s core
    if held.length < l1Lines || held.contains line then s
    else
      let first := held.filter fun l => s.l1EvictFirst.contains (l1Key core l)
      let (x, s) := s.draw
      let from_ := if first.isEmpty then held else first
      match from_[x.toNat % from_.length]? with
      | some l => evictL1 s core l
      | none => s

/-! ## Threads -/

/-- A thread changed. -/
def State.onThread (s : State) (t : Nat) (f : Thread → Thread) : State := { s with threads := tmod t f s.threads }

/-- A group changed. -/
def State.onGroup (s : State) (g : Nat) (f : Group → Group) : State := { s with groups := tmod g f s.groups }

/-- A team changed. -/
def State.onTeam (s : State) (k : Nat) (f : Team → Team) : State := { s with teams := tmod k f s.teams }

/-- A launch changed. -/
def State.onLaunch (s : State) (k : Nat) (f : Launch → Launch) : State := { s with launches := tmod k f s.launches }

/-- A context changed. -/
def State.onContext (s : State) (c : Nat) (f : Context → Context) : State := { s with contexts := tmod c f s.contexts }

/-- A core's control fields, at reset while nothing has changed them. -/
def State.core (s : State) (c : Nat) : CoreCtl := tgetD c CoreCtl.reset s.cores

/-- A core's control fields changed. -/
def State.onCore (s : State) (c : Nat) (f : CoreCtl → CoreCtl) : State := { s with cores := tset c (f (s.core c)) s.cores }

/-- An operation in progress changed. -/
def State.onOp (s : State) (k : Nat) (f : Op → Op) : State := { s with ops := tmod k f s.ops }

/-- An operation ended. -/
def State.endOp (s : State) (k : Nat) : State := { s with ops := tdel k s.ops }

/-- An operation begun under a fresh key. -/
def State.beginOp (s : State) (o : Op) : State :=
  { s with ops := tset s.nextKey o s.ops, nextKey := s.nextKey + 1 }

/-- The group of a thread. -/
def groupOf (s : State) (t : Thread) : Option Group := t.group.bind fun g => tget g s.groups

/-- The core a thread runs on. -/
def coreOf (s : State) (t : Thread) : Nat := ((groupOf s t).map (·.core)).getD 0

/-- The logical number of a core as a thread's launch numbers it (R17). -/
def threadCore (s : State) (t : Thread) (core : Nat) : Nat :=
  logicalIn (((tget t.team s.teams).map (·.numbering)).getD s.retiredQuads) core

/-- The launch id that a thread's sr.grid reads. -/
def launchIdOf (s : State) (t : Thread) : Nat := ((tget t.launch s.launches).map (·.id)).getD 0

/-- Whether a thread's launch is flagged deterministic. -/
def isDet (s : State) (t : Thread) : Bool := ((tget t.launch s.launches).map (·.k.det)).getD false

/-- Whether a launch is flagged checkpoint. -/
def isCkpt (s : State) (launch : Nat) : Bool := ((tget launch s.launches).map (·.k.ckpt)).getD false

/-! ## Registers (R44, R67, R128) -/

/-- One 32-bit register of a thread by its field: v0 to v383, or g0 to g63 of its group. -/
def readReg (s : State) (t : Thread) (r : Nat) : Word32 :=
  if r < 384 then tgetD r 0 t.regs else tgetD (r - 384) 0 (((groupOf s t).map (·.uni)).getD [])

/-- The row of a bay's bank that holds a register of a thread: core, bay, slot, row (R19, R70). -/
def rowOf (s : State) (t : Thread) (r : Nat) : Option (Nat × Nat × Nat × Nat) :=
  (groupOf s t).bind fun g =>
    (g.segs.find? fun seg => seg.first ≤ r && r < seg.first + seg.count).map fun seg =>
      (g.core, g.bay, g.slot0 + t.member, seg.base + (r - seg.first))

/-- The number of a register row among all of the package: core, bay, slot, row (R10, R19). -/
def rowKey (core bay slot row : Nat) : Nat := ((core * 8 + bay) * 64 + slot) * 1024 + row

/-- Whether a row number lies in the segments of a group. -/
def Group.holdsRow (g : Group) (key : Nat) : Bool :=
  let slot := key / 1024 % 64
  key / (1024 * 64) = g.core * 8 + g.bay && g.slot0 ≤ slot && slot < g.slot0 + g.width
    && g.segs.any fun x => x.base ≤ key % 1024 && key % 1024 < x.base + x.count

/-- The part of a segment that holds registers from a number on. -/
def Segment.above (x : Segment) (keep : Nat) : Option Segment :=
  let first := max x.first keep
  if x.first + x.count ≤ first then none else some ⟨first, x.base + (first - x.first), x.first + x.count - first⟩

/-- A group gives back its registers from number `keep` on: their rows hold the values that its threads leave in them (R10, R71).
[DEDUCED: log entry 105] -/
def shedRows (s : State) (g keep : Nat) : State :=
  match tget g s.groups with
  | none => s
  | some gr =>
    let given : Group := { gr with segs := gr.segs.filterMap (·.above keep) }
    let left := s.rows.filter fun e => !given.holdsRow e.1
    { s with rows := (s.threads.filter fun e => e.2.group = some g).foldl (fun (rows : List (Nat × Word32)) e => e.2.regs.foldl (fun rows (r : Nat × Word32) =>
        match given.segs.find? fun x => x.first ≤ r.1 && r.1 < x.first + x.count with
        | some x => if r.2 = 0 then rows else tset (rowKey gr.core gr.bay (gr.slot0 + e.2.member) (x.base + (r.1 - x.first))) r.2 rows
        | none => rows) rows) left }

/-- Rows of a bay's bank written whole, in consecutive slots: their words are poisoned no more (R315).
[DEDUCED: log entry 60] -/
def clearRows (s : State) (core bay slot slots row rows : Nat) : State :=
  if s.poison.isEmpty then s
  else
    { s with poison := s.poison.filter fun g => match regionOf s g with
        | (c, .register b l r _) =>
          !(c = core && b = bay && slot ≤ l && l < slot + slots && row ≤ r && r < row + rows)
        | _ => true }

/-- The row of a thread's register written whole. [DEDUCED: log entry 60] -/
def clearRow (s : State) (k r : Nat) : State :=
  if s.poison.isEmpty then s
  else match (tget k s.threads).bind fun t => rowOf s t r with
    | some row => clearRows s row.1 row.2.1 row.2.2.1 1 row.2.2.2 1
    | none => s

/-- One 32-bit register of a thread takes a value; a g register is its group's. -/
def putReg (s : State) (k r : Nat) (x : Word32) : State :=
  if r < 384 then s.onThread k fun t => { t with regs := tset r x t.regs }
  else
    match tget k s.threads with
    | some t =>
      match t.group with
      | some g => s.onGroup g fun gr => { gr with uni := tset (r - 384) x gr.uni }
      | none => s
    | none => s

/-- One 32-bit register of a thread written, all of it. -/
def writeReg (s : State) (k r : Nat) (x : Word32) : State := putReg (clearRow s k r) k r x

/-- A value written into n consecutive registers, lowest bits first (R128). -/
def writeRegs (s : State) (k r n v : Nat) : State :=
  (List.range n).foldl (fun s i => writeReg s k (r + i) (BitVec.ofNat 32 (v / 2 ^ (32 * i)))) s

/-- n consecutive registers as one value, lowest bits first (R128). -/
def readRegs (s : State) (t : Thread) (r n : Nat) : Nat :=
  (List.range n).foldl (fun acc i => acc + (readReg s t (r + i)).toNat * 2 ^ (32 * i)) 0

/-! ## Members and barriers -/

/-- The threads of a group by member index. -/
def groupThreads (s : State) (g : Nat) : List (Nat × Thread) := s.threads.filter fun e => e.2.group = some g

/-- The thread that is a member of a group. -/
def memberThread (s : State) (g m : Nat) : Option (Nat × Thread) := (groupThreads s g).find? fun e => e.2.member = m

/-- The barrier of a team. -/
def barrierOf (s : State) (team b : Nat) : Barrier :=
  match tget team s.teams with
  | some t => tgetD b Barrier.reset t.barriers
  | none => Barrier.reset

end Sys2Proof.Machine
end

