-- ==== Sys2Proof/Machine/ControlSpace.lean ====
section
/-! DEFINITION. The registers of the control space as they read (R5, R77, R88, R257, R279 to R283, R303, R320, R323, R324). -/

namespace Sys2Proof.Machine

/-- A window of a die. -/
def State.window (s : State) (die w : Nat) : Window := tgetD (die * 16 + w) Window.reset s.windows

/-- A word of a window as it reads. -/
def Window.word (w : Window) (off : Nat) : Nat :=
  match off with
  | 0x00 => w.err * 2 ^ 10 + w.layout * 2 ^ 8 + w.fmt * 16 + (if w.busy then 2 else 0) + (if w.en then 1 else 0)
  | 0x08 => w.base
  | 0x10 => w.sbase
  | _ => w.cols * 2 ^ 32 + w.rows

/-- A mailbox's entry. -/
def State.mailbox (s : State) (m : Nat) : Mailbox := tgetD m Mailbox.reset s.mailboxes

/-- Word 0 of a mailbox entry as it reads. -/
def Mailbox.word0 (x : Mailbox) : Nat :=
  let code := match x.state with
    | .unbound => 0
    | .idle => 1
    | .starting => 2
    | .running => 3
    | .checking => 4
    | .ending => 5
  (if x.vchen then 2 ^ 19 else 0) + x.vch * 2 ^ 16 + x.ctx * 2 ^ 10 + code * 16 + (if x.state = .unbound then 0 else 1)

/-- A word of a mailbox entry by its offset (R283). -/
def Mailbox.word (x : Mailbox) (off : Nat) : Nat :=
  match off with
  | 0x00 => x.word0
  | 0x08 => x.epdesc
  | 0x10 => x.steps * 2 ^ 32 + x.dropped
  | 0x18 => x.pin * 2 ^ 32 + x.vlast
  | 0x20 => x.aseq
  | 0x28 => x.hart * 2 ^ 32 + x.terms
  | _ => 0

/-- A register of the global block. -/
def globalWord (s : State) (off : Nat) : Nat :=
  let g := s.glob
  match off with
  | 0x00 => g.fail * 256 + g.kind * 64 + (if g.calok then 32 else 0) + (if g.ready then 1 else 0)
  | 0x10 => g.wbase
  | 0x18 => g.invtmo
  | 0x20 => g.asamp
  | 0x28 => g.adrop
  | 0x30 => g.aunver
  | 0x38 => g.plim
  | _ =>
    if 0x40 ≤ off then
      let r := tgetD ((off - 0x40) / 16) (0, 0) s.glob.pranges
      if off % 16 = 0 then r.1 else r.2
    else 0

/-- A context slot's registers at reset (R324). -/
def Context.reset : Context where
  cdesc := 0
  qbase := 0
  qlog := 0
  tail := 0
  head := 0
  state := 0
  desc := ⟨0, 0, 0, 0, 0, false, 0, 0, 0, 0, 0, 0, 0, 0, 0, 0, 0⟩
  schk := false
  locks := []
  handler := none
  trapSlots := []
  images := []
  drain := none
  targeted := false
  rests := []
  foremanMove := none

/-- A register of a context slot. -/
def slotWord (s : State) (c off : Nat) : Nat :=
  let x := tgetD c Context.reset s.contexts
  match off with
  | 0x00 => x.cdesc
  | 0x08 => x.qbase
  | 0x10 => x.qlog
  | 0x18 => x.tail
  | 0x20 => x.head
  | _ => x.state

/-- The 8-byte register at an aligned offset of the control space. -/
def controlWord (s : State) (off : Nat) : Nat :=
  let die := off % 0x1000000 / 0x100000
  let o := off % 0x100000
  match off / 0x1000000 with
  | 0 => globalWord s off
  | 1 =>
    let d := s.die die
    if o = 0x100 then d.vpn * 65536
    else if o = 0x108 then d.npg * 2 ^ 32 + d.ictx * 4 + (if d.busy then 2 else 0)
    else if o = 0x3000 then d.alerts * 2 ^ 32 + d.rmt
    else (s.window die ((o - 0x2000) / 0x40)).word (o % 0x40)
  | 2 =>
    if o = 0 then (s.die die).cbase
    else if o = 8 then (s.die die).clen
    else if o < 0x20000 then (s.mailbox (die * 1024 + (o - 0x10000) / 0x40)).word (o % 0x40)
    else
      let a := tgetD (die * 4096 + (o - 0x40000) / 16) (0, 0) s.arenas
      if o % 16 = 0 then a.1 + a.2 else 0
  | 3 => (tgetD (off % 0x1000000 / 8) 0 s.detours).toNat
  | _ => slotWord s (off % 0x1000000 / 0x100) (off % 0x100)

/-- The fields that a read clears (R5, RC). [DESIGN CHOICE: log entry 20] -/
def clearRead (s : State) (off : Nat) : State :=
  if off / 4 * 4 = 0x1003004 + off % 0x1000000 / 0x100000 * 0x100000 && off < 0x1400000 then
    s.onDie (off % 0x1000000 / 0x100000) fun d => { d with alerts := 0 }
  else match off / 8 * 8 with
    | 0x20 => { s with glob := { s.glob with asamp := 0 } }
    | 0x28 => { s with glob := { s.glob with adrop := 0 } }
    | 0x30 => { s with glob := { s.glob with aunver := 0 } }
    | _ => s

/-- A read of 4 or 8 bytes of the control space, with what it clears. [DESIGN CHOICE: log entry 20] -/
def readControl (s : State) (off n : Nat) : List Byte × State :=
  let bs := ((leBytes 8 (controlWord s (off / 8 * 8))).drop (off % 8)).take n
  (bs, if n = 8 then clearRead (clearRead s off) (off + 4) else clearRead s off)

end Sys2Proof.Machine
end

