-- ==== Sys2Proof/Machine/OnchipRead.lean ====
section
/-! DEFINITION. The on-chip map as it reads: scratchpads, register rows, accumulators and the control region of each core
(spec/01_organisation.md R18 to R21, spec/05_execution.md R69, R73, R74). -/

namespace Sys2Proof.Machine

/-- The thread and register that own a register row: core, bay, slot, row (R19, R70, R74). -/
def rowOwner (s : State) (core bay slot row : Nat) : Option (Nat × Nat × Nat) :=
  s.groups.findSome? fun e =>
    let g := e.2
    if g.core = core && g.bay = bay && g.state ≠ .saved && g.slot0 ≤ slot && slot < g.slot0 + g.width then
      (g.segs.find? fun x => x.base ≤ row && row < x.base + x.count).map fun x => (e.1, slot - g.slot0, x.first + (row - x.base))
    else none

/-- Resident teams of a core with their team slots and scratchpad bases (R54). -/
def teamsOn (s : State) (core : Nat) : List (Nat × Team × Nat × Nat) :=
  s.teams.flatMap fun e =>
    if e.2.state = .done || e.2.state = .saved then []
    else e.2.cores.filterMap fun c => if c.1 = core then some (e.1, e.2, c.2.1, c.2.2) else none

/-- The team that holds a team slot of a core: a resident one, else the saved one that held it last, whose barrier state system
software may still reach there (R69). [DEDUCED: log entry 109] -/
def teamAtSlot (s : State) (core slot : Nat) : Option (Nat × Team) :=
  match (teamsOn s core).find? fun x => x.2.2.1 = slot with
  | some x => some (x.1, x.2.1)
  | none => (s.teams.filter fun e => e.2.state = .saved && e.2.cores.any fun c => c.1 = core && c.2.1 = slot).getLast?

/-- The team slot of a team on a core. -/
def teamSlot (t : Team) (core : Nat) : Nat := ((t.cores.find? fun c => c.1 = core).map (·.2.1)).getD 0

/-- The groups of a core that hold a record (R74, VALID). -/
def groupsOn (s : State) (core : Nat) : List (Nat × Group) := s.groups.filter fun e => e.2.core = core && e.2.state ≠ .saved

/-- One 8-byte word of a group record; LIVE reads the live mask as it stands (R74). [DEDUCED: log entry 117] -/
def recordWord (s : State) (g : Group) (n : Nat) : Nat :=
  match n with
  | 0 =>
    let tslot := ((tget g.team s.teams).map fun t => teamSlot t g.core).getD 0
    2 ^ 63 + tslot * 2 ^ 48 + g.index % 65536 * 2 ^ 32 + (if g.width = 16 then 0 else if g.width = 32 then 1 else 2) * 2 ^ 30
      + g.bay * 2 ^ 27 + g.slot0 * 2 ^ 21 + g.segs.length * 2 ^ 18
  | 1 => g.live
  | n + 2 =>
    match g.segs[n]? with
    | some x => if n < 4 then 2 ^ 63 + x.base * 2 ^ 32 + x.count * 2 ^ 16 + x.first else 0
    | none => 0

/-- One 8-byte word of a barrier (R69). -/
def barrierWord (x : Barrier) (n : Nat) : Nat :=
  match n with
  | 0 => x.mode * 2 ^ 32 + x.phase
  | 1 => x.tarr * 2 ^ 32 + x.texp
  | 2 => x.bexp
  | _ => x.barr

/-- One aligned 8-byte word of a core's control region, by its offset in the region; unassigned offsets read zero (R74).
[DESIGN CHOICE: log entry 114] -/
def coreWord (s : State) (core off : Nat) : Nat :=
  if off = 0 then (s.core core).cageTmo
  else if off = 8 then
    let gs := groupsOn s core
    (gs.foldl (fun n e => n + popCount 64 e.2.live) 0) * 2 ^ 32 + (gs.filter fun e => e.2.state = .resident).length * 2 ^ 16
      + (teamsOn s core).length
  else if 0x4000 ≤ off && off < 0x8000 then
    match (groupsOn s core).find? fun e => e.2.slot = (off - 0x4000) / 64 with
    | some (_, g) => recordWord s g (off % 64 / 8)
    | none => 0
  else if 0x10000 ≤ off && off < 0x20000 then
    match teamAtSlot s core ((off - 0x10000) / 0x400) with
    | some (k, t) =>
      if t.cores.head?.map (·.1) = some core then barrierWord (barrierOf s k (off % 0x400 / 0x20)) (off % 0x20 / 8) else 0
    | none => 0
  else 0

/-- Whether an offset of a core's control region is assigned (R74). -/
def coreOffsetAssigned (off : Nat) : Bool :=
  off < 0x100 || (0x4000 ≤ off && off < 0x8000) || (0x10000 ≤ off && off < 0x20000)

/-- A byte of the on-chip map; a register row that no thread owns reads what was left in it (R10, R19).
[DEDUCED: log entry 105] -/
def onchipByte (s : State) (pa : Nat) : Byte :=
  match regionOf s pa with
  | (_, .scratchpad _) => memRead s.mem pa
  | (_, .accumulator _ _) => memRead s.mem pa
  | (core, .register bay slot row b) =>
    let x := match (rowOwner s core bay slot row).bind fun (g, m, r) => (memberThread s g m).map fun (_, t) => readReg s t r with
      | some x => x
      | none => tgetD (rowKey core bay slot row) 0 s.rows
    BitVec.ofNat 8 (x.toNat / 2 ^ (8 * b))
  | (core, .control off) => BitVec.ofNat 8 (coreWord s core (off / 8 * 8) / 2 ^ (8 * (off % 8)))
  | (_, .unassigned) => 0

/-- Whether a read through the on-chip map may be made (R21, R74). -/
def onchipReadable (s : State) (pa n : Nat) : Bool :=
  (addrs pa n).all fun a => match regionOf s a with
    | (_, .control off) => coreOffsetAssigned off
    | (_, .unassigned) => false
    | _ => true

end Sys2Proof.Machine
end

