-- ==== Sys2Proof/Machine/Ops.lean ====
section
/-! DEFINITION. The shared operations over threads, counters, barriers, groups and teams; taking a trap and returning from
one; records of the error ring (R57, R62 to R68, R184, R213, R296 to R301, R314, R316). -/

namespace Sys2Proof.Machine

/-! ## Issue sets -/

/-- A port's key. -/
def portKey (core bay : Nat) (p : Port) : Nat :=
  (core * 8 + bay) * 4 + match p with
    | .va => 0
    | .vb => 1
    | .m => 2
    | .c => 3

/-- The thread leaves every issue set (R55). -/
def leaveIssue (s : State) (k : Nat) : State :=
  { s with
    ports := s.ports.map fun e => (e.1, { e.2 with members := e.2.members.filter (· ≠ k) })
    issuing := s.issuing.map fun w => { w with members := w.members.filter (· ≠ k) } }

/-- The address of the word at a position of the clause at a header (R139). -/
def wordAddr (hdr pos : Nat) : Nat := low 64 (hdr + 8 * (pos + 1))

/-- The next clause in sequence (R140). -/
def nextClause (hdr count : Nat) : Nat := low 64 (hdr + 8 * (count + 2))

/-- Where a thread's code at an address lies, with the X check of R140, or the cause of the trap. -/
def codeTarget (s : State) (t : Thread) (va : Nat) : Except Nat Target :=
  resolve s (dieOfCore (coreOf s t)) t.ctx t.team ⟨false, false, true, t.sys⟩ va

/-- The bytes of code that a thread's die fetches at an address, with the X check of R140, or the cause of the trap. The aperture
has no page and so no X bit: code may be fetched there; what a peer package holds is a free value; poisoned code is consumed (R316).
The on-chip map gives what the target core holds, and unassigned offsets trap (R20, R21); the control space gives a register, read in
aligned words (R77). [DEDUCED: log entry 106] -/
def fetchCode (s : State) (t : Thread) (va : Nat) : Except Nat Nat :=
  let read (pa : Nat) (view : Nat → Byte) : Except Nat Nat :=
    if !s.poison.isEmpty && (poisonedAt s pa 8).isSome then .error 0x50 else .ok (leValue ((addrs pa 8).map view))
  match codeTarget s t va with
  | .error c => .error c
  | .ok (.hbm pa) => read pa (coreByte s (coreOf s t))
  | .ok (.onchip pa) => if onchipReadable s pa 8 then read pa (onchipByte s) else .error 0x11
  | .ok (.scratch c o) => read (onchipPa c o) (memRead s.mem)
  | .ok (.peer pkg pa) => .ok (Config.peerCode s.draws pkg pa).toNat
  | .ok (.control o) => if o % 8 = 0 then .ok (controlWord s o % 2 ^ 64) else .error 0x12

/-- A fetch from the control space reads its register: what a read clears is cleared (R5). [DEDUCED: log entry 106] -/
def noteFetch (s : State) (t : Thread) (va : Nat) : State :=
  match codeTarget s t va with
  | .ok (.control o) => (readControl s o 8).2
  | _ => s

/-- The header at a thread's program counter, where it lies in the code section and can be fetched (R140, R142). -/
def headerAt (s : State) (t : Thread) : Option Header :=
  if (groupOf s t).any fun g => g.k.code + g.k.codeLen ≤ t.pc then none
  else match fetchCode s t t.pc with
    | .ok w => some (Header.decode (BitVec.ofNat 64 w))
    | .error _ => none

/-- Whether every counter of a WAIT mask is zero (R57). -/
def countersClear (t : Thread) (mask : Nat) : Bool := (List.range 6).all fun n => !bit mask n || tgetD n 0 t.ctrs = 0

/-- READY, or COUNTER while a counter that the next clause selects is not zero (R57, R63). A thread that resumes inside a
clause does not apply WAIT again (R213). -/
def readyState (s : State) (t : Thread) : TState :=
  match t.resume, headerAt s t with
  | none, some h => if countersClear t h.wait.toNat then .ready else .counter h.wait.toNat
  | _, _ => .ready

/-- The thread becomes READY at a program counter. -/
def makeReady (s : State) (k : Nat) (pc : Nat) : State :=
  match tget k s.threads with
  | none => s
  | some t =>
    let t := { t with pc := pc }
    { s with threads := tset k { t with state := readyState s t } s.threads }

/-! ## Completion counters (R57, R188, R218) -/

/-- A counter raised by one at issue. -/
def raiseCtr (s : State) (c : Counted) : State :=
  if c.ctr < 6 then s.onThread c.thread fun t => { t with ctrs := tset c.ctr (tgetD c.ctr 0 t.ctrs + 1) t.ctrs } else s

/-- A counter lowered by one at completion; a thread in COUNTER whose selected counters are zero becomes READY. -/
def lowerCtr (s : State) (c : Counted) : State :=
  if c.ctr < 6 then
    s.onThread c.thread fun t =>
      let t := { t with ctrs := tset c.ctr (tgetD c.ctr 0 t.ctrs - 1) t.ctrs }
      match t.state with
      | .counter mask => if countersClear t mask then { t with state := .ready } else t
      | _ => t
  else s

/-- Counters lowered for every counted member. -/
def lowerCtrs (s : State) (cs : List Counted) : State := cs.foldl lowerCtr s

/-! ## Device accesses through a context (R296, R300, R331) -/

/-- The lowest die open to a context. -/
def firstDie (s : State) (ctx : Nat) : Nat :=
  let dies := ((tget ctx s.contexts).map (·.desc.dies)).getD 1
  ((List.range 4).find? (bit dies)).getD 0

/-- Bytes at a virtual address of a context, read at .dev. [DEDUCED: log entry 82] -/
def ctxRead (s : State) (ctx va n : Nat) : Option (List Byte) :=
  let die := firstDie s ctx
  match resolveRange s die ctx 0 ⟨true, false, false, true⟩ (pieceFuel n) va n with
  | .error _ => none
  | .ok ps =>
    ps.foldl (fun acc p => match acc, p.1 with
      | some bs, .hbm pa => if (poisonedAt s pa p.2).isSome then none else some (bs ++ (addrs pa p.2).map (homeByte s))
      | _, _ => none) (some [])

/-- A little-endian value at a virtual address of a context. -/
def ctxValue (s : State) (ctx va n : Nat) : Option Nat := (ctxRead s ctx va n).map leValue

/-- Bytes written at a virtual address of a context, performed at .dev; none when a page is missing or forbids it. -/
def ctxWrite (s : State) (ctx va : Nat) (bs : List Byte) : Option State :=
  let die := firstDie s ctx
  match resolveRange s die ctx 0 ⟨false, true, false, true⟩ (pieceFuel bs.length) va bs.length with
  | .error _ => none
  | .ok ps =>
    (ps.foldl (fun (acc : Option State × List Byte) p => match acc.1, p.1 with
      | some s, .hbm pa => (some (writeHomes s pa (acc.2.take p.2)), acc.2.drop p.2)
      | _, _ => (none, [])) (some s, bs)).1

/-- A value added to an 8-byte word of a context at its home, with release. -/
def ctxAdd (s : State) (ctx va v : Nat) : Option State :=
  match resolve s (firstDie s ctx) ctx 0 ⟨true, true, false, true⟩ va with
  | .ok (.hbm pa) =>
    if (poisonedAt s pa 8).isSome then none
    else ctxWrite s ctx va (leBytes 8 (low 64 (leValue ((addrs pa 8).map (homeByte s)) + v)))
  | _ => none

/-- After a fatal error the device sends no further transactions until a start (R317). [DESIGN CHOICE: log entry 25] -/
def contained (s : State) : Bool := s.glob.contained

/-- Something that reaches the host. [DESIGN CHOICE: log entry 25] -/
def toHost (s : State) (e : HostEvent) : State := if contained s then s else { s with host := s.host ++ [e] }

/-- An access to BAR0 outside the global block, as the register's own effect, or Unsupported Request before READY (R330). -/
def onceReady (s : State) (f : State → State) : State := if s.glob.ready then f s else toHost s .unsupported

/-- The interrupt vector of a context signalled (R300, R328). [DESIGN CHOICE: log entry 25] -/
def interrupt (s : State) (ctx : Nat) : State :=
  match tget ctx s.contexts with
  | some c => toHost s (.interrupt c.desc.vec)
  | none => s

/-- A record of the error ring (R300, R301): 48 body bytes, then SEQ, SEV, CAUSE and KIND. A record whose ring does not
translate goes to the management processor's log. [DEDUCED: log entry 99] -/
def errorRecord (s : State) (ctx kind cause sev : Nat) (body : List Byte) : State :=
  let tail (seq : Nat) : List Byte := leBytes 8 seq ++ leBytes 8 (sev * 65536 + cause * 256 + kind)
  let body := (body ++ List.replicate 48 0).take 48
  let s := if 1 ≤ sev then toHost s (.aer sev) else s
  let ering := ((tget ctx s.contexts).map (·.desc.ering)).getD 0
  match ctxValue s ctx ering 8, ctxValue s ctx (ering + 8) 8, ctxValue s ctx (ering + 16) 8,
      ctxValue s ctx (ering + 24) 1 with
  | some wr, some rd, some base, some log =>
    if 2 ^ log ≤ low 64 (wr + 2 ^ 64 - rd) then (ctxAdd s ctx (ering + 0x20) 1).getD s
    else
      match ctxWrite s ctx (base + wr % 2 ^ log * 64) (body ++ tail wr) with
      | some s => interrupt ((ctxAdd s ctx ering 1).getD s) ctx
      | none => { s with mgmtLog := s.mgmtLog ++ [body ++ tail wr] }
  | _, _, _, _ => { s with mgmtLog := s.mgmtLog ++ [body ++ tail 0] }

/-- A KIND 2 record (R301). [DEDUCED: log entry 99] -/
def commandRecord (s : State) (ctx status id tid launch va pa len : Nat) : State :=
  errorRecord s ctx 2 (if status = 2 then 0x50 else if status = 3 then 0x40 else 0) (if status = 2 || status = 3 then 2 else 0)
    (leBytes 8 va ++ leBytes 8 pa ++ leBytes 8 len ++ leBytes 8 (status * 65536 + id) ++ leBytes 8 tid ++ leBytes 8 launch)

/-- A KIND 9 record: outcome of a checkpoint interval (R301, R313, R314). -/
def checkpointRecord (s : State) (ctx team : Nat) (boundary : Nat × Nat) (outcome : Nat) : State :=
  errorRecord s ctx 9 (if outcome = 2 then 0 else 0x50) (if outcome = 1 then 1 else if outcome = 2 then 0 else 2)
    (leBytes 8 team ++ leBytes 8 (boundary.1 * 2 ^ 32 + boundary.2) ++ leBytes 8 outcome)

/-! ## Taking a trap and returning from one (R62, R213, R296) -/

/-- The thread takes a trap at a stopping word: it enters TRAPPED with the record's contents and leaves its issue set; a step that
the word was to end with is over (R163, R189); the record is written by TRAP_RECORD_WRITE (R296 steps 1 and 2). -/
def takeTrapAt (s : State) (k : Nat) (hdr pc cause faddr info : Nat) : State :=
  leaveIssue (s.onThread k fun t => { t with
    state := .trapped
    trap := some ⟨cause, pc, hdr, faddr, info, none, []⟩
    trapSlot := none
    resume := none
    deferred := t.deferred.filter (·.cause ≠ 0x71)
    step := false }) k

/-- The thread takes a trap at the word it issued last. -/
def takeTrap (s : State) (k : Nat) (cause faddr info : Nat) : State :=
  match tget k s.threads with
  | some t => takeTrapAt s k t.curHdr t.curWord cause faddr info
  | none => s

/-- The team is being saved, or has been: its threads take no trap (R305). -/
def teamSaving (s : State) (team : Nat) : Bool := (tget team s.teams).any fun t => t.state = .saving || t.state = .saved

/-- A trap that arises for a word after its issue: taken at that word at once; a thread that is TRAPPED, or whose team is being saved,
keeps it until it runs again (R62, R305, R316). [DEDUCED: log entry 108] -/
def trapAtWord (s : State) (k : Nat) (word : Nat × Nat) (cause faddr info : Nat) : State :=
  match tget k s.threads with
  | none => s
  | some t =>
    if t.state = .exited then s
    else if t.state = .trapped || teamSaving s t.team then
      s.onThread k fun t => { t with deferred := t.deferred ++ [⟨cause, word.2, word.1, faddr, info, none, []⟩] }
    else takeTrapAt s k word.1 word.2 cause faddr info

/-- A plain trap: FADDR and INFO zero. -/
def takeTrap0 (s : State) (k : Nat) (cause : Nat) : State := takeTrap s k cause 0 0

/-- A trapped thread resumes: at a header, or inside the clause of a header at a position; its trap-ring slot is free
(R213, R296 step 4). `step` makes it trap again after one word. -/
def resumeThread (s : State) (k : Nat) (hdr : Nat) (pos : Option Nat) (step : Bool) : State :=
  match tget k s.threads with
  | none => s
  | some t =>
    let s := match t.trapSlot with
      | some slot => s.onContext t.ctx fun c => { c with trapSlots := tdel slot c.trapSlots }
      | none => s
    let s := s.onThread k fun t => { t with trap := none, trapSlot := none, resume := pos.map fun p => (hdr, p), step := step }
    makeReady s k hdr

/-! ## Acquire (R80, R95) -/

/-- An acquire at a scope: at .cp or wider the core's L1 is invalidated (R80, R95). -/
def acquireAt (s : State) (core scope : Nat) : State := if 2 ≤ scope then invalidateL1 s core else s

/-! ## Visibility (R79, R82, R93 to R95) -/

/-- The number of cores of a thread's team. -/
def teamCores (s : State) (t : Thread) : Nat := ((tget t.team s.teams).map (·.cores.length)).getD 1

/-- How far a store must be visible for every observer within a scope: 0 the core, 1 the die's L2, 2 the home (R79). -/
def scopeLevel (s : State) (t : Thread) (scope : Nat) : Nat :=
  match scope with
  | 0 => 0
  | 1 => if teamCores s t = 2 then 1 else 0
  | 2 => 1
  | 3 => 1
  | _ => 2

/-- Whether an operation is as far as a level asks: gone, or a store that is visible at the level (R82, R93). -/
def reached (s : State) (level id : Nat) : Bool :=
  match tget id s.ops with
  | none => true
  | some (.store o) => o.target.isHbm && (level = 0 || (level = 1 && o.die.isSome))
  | some _ => false

/-- Whether an operation is a store that threads of a core can already see: the cumulative part of R94. -/
def Op.visibleTo (o : Op) (core : Nat) : Bool :=
  match o with
  | .store o => o.target.isHbm && !o.held && (o.core = core || (o.die.isSome && dieOfCore o.core = dieOfCore core))
  | _ => false

/-- The stores that threads of a core can already see and that are still on their way. -/
def visibleStores (s : State) (core : Nat) : List Nat := (s.ops.filter fun e => e.2.visibleTo core).map (·.1)

/-- An acquire of a thread at a scope, which acts as a fence after its access: the thread's later memory words wait until every store
that it has read is visible within the scope (R94, R95). -/
def acquireFor (s : State) (k core scope : Nat) : State :=
  let s' := acquireAt s core scope
  match tget k s.threads with
  | none => s'
  | some t =>
    let after := (visibleStores s core).filter fun id => !reached s (scopeLevel s t scope) id
    if after.isEmpty then s' else s'.beginOp (.fence ⟨k, 0, 3, scope, after⟩)

/-- A read of a thread has its value: the fences of the thread that order its reads order what it has read as well (R94). -/
def readFences (s : State) (k core : Nat) : State :=
  let seen := visibleStores s core
  { s with ops := s.ops.map fun e => match e.2 with
      | .fence o => if o.thread = k && bit o.pred 0 then (e.1, .fence { o with after := o.after ++ seen.filter fun x => !o.after.contains x }) else e
      | _ => e }

/-! ## The members that a rendezvous cannot get (R65, R66) -/

/-- The rendezvous a thread waits in. -/
def rendezvousOf (t : Thread) : Option Rendezvous :=
  match t.state with
  | .rendezvous r => some r
  | _ => none

/-- Whether a barrier's current phase needs an arrival from a thread: MODE counts threads, TEXP counts it, and its arrival
bit is clear (R66, R68). -/
def needsArrival (s : State) (team b : Nat) (k : Nat) (t : Thread) : Bool :=
  match tget team s.teams with
  | some tm =>
    let bar := tgetD b Barrier.reset tm.barriers
    t.team = team && !t.child && bar.mode % 2 = 1 && !bar.arrived.contains k
  | none => false

/-- The members that a rendezvous names; the mask 0 stands for the live mask (R65, R71). [DEDUCED: log entry 39] -/
def namedMask (gr : Group) (mask : Nat) : Nat := if mask = 0 then gr.live else mask

/-- Whether a thread waiting at a rendezvous is kept from completing by a named member (R66): the member is absent or has
exited, waits at another rendezvous that names a thread waiting here, or waits at a barrier that needs one waiting here.
[DEDUCED: log entry 39] -/
def blockedBy (s : State) (g : Nat) (gr : Group) (r : Rendezvous) : Bool :=
  let here := (groupThreads s g).filter fun e => match rendezvousOf e.2 with
    | some r' => r'.addr = r.addr && r'.mask = r.mask
    | none => false
  (oneBits 64 (namedMask gr r.mask)).any fun m =>
    !bit gr.live m ||
    match memberThread s g m with
    | none => true
    | some (_, t) =>
      match t.state with
      | .rendezvous r' =>
        !(r'.addr = r.addr && r'.mask = r.mask) && here.any fun h => bit (namedMask gr r'.mask) h.2.member
      | .barrier b _ _ _ => here.any fun h => needsArrival s t.team b h.1 h.2
      | _ => false

/-- MEMBER_ABSENT_TRAP: every member of a group that waits at a rendezvous which cannot complete takes cause 0x22 (R66).
[DEDUCED: log entry 39] -/
def absentTraps (s : State) (g : Nat) : State :=
  match tget g s.groups with
  | none => s
  | some gr =>
    let stuck := (groupThreads s g).filter fun e => match rendezvousOf e.2 with
      | some r => blockedBy s g gr r
      | none => false
    stuck.foldl (fun s e => takeTrap0 s e.1 0x22) s

/-- R66 for every group of a team, after one of its threads enters BARRIER. -/
def absentTrapsTeam (s : State) (team : Nat) : State :=
  (s.groups.filter fun e => e.2.team = team).foldl (fun s e => absentTraps s e.1) s

/-! ## Barriers (R68, R206 to R209, R311) -/

/-- The barrier of a team set. -/
def setBarrier (s : State) (team b : Nat) (x : Barrier) : State :=
  s.onTeam team fun t => { t with barriers := tset b x t.barriers }

/-- Whether every condition that MODE selects holds (R68, R206). -/
def Barrier.holds (x : Barrier) : Bool :=
  let threads := x.texp ≠ 0 && x.tarr = x.texp
  let bytes := x.bexp ≠ 0 && x.bexp ≤ x.barr
  match x.mode with
  | 1 => threads
  | 2 => bytes
  | 3 => threads && bytes
  | _ => false

/-- The barrier after its phase completes (R68). -/
def Barrier.advance (x : Barrier) : Barrier :=
  { x with phase := (x.phase + 1) % 2 ^ 32, tarr := 0, arrived := [], barr := x.barr - x.bexp, bexp := 0 }

/-- A thread arrival counted, with the bytes that BAR.ARRIVEB adds (R207, R208). -/
def Barrier.arrive (x : Barrier) (k bytes : Nat) : Barrier :=
  { x with tarr := x.tarr + 1, arrived := k :: x.arrived, bexp := low 64 (x.bexp + bytes) }

/-- A thread that leaves BARRIER, its return an acquire (R68, R96); one that holds an arrival goes on to the release before it (R207). -/
def leaveBarrier (team b : Nat) (s : State) (k : Nat) : State :=
  match tget k s.threads with
  | none => s
  | some t =>
    match t.state with
    | .barrier b' phase held sc =>
      let x := barrierOf s team b
      if b' ≠ b || t.team ≠ team || phase = x.phase then s
      else
        match held with
        | some h => s.onThread k fun t => { t with state := .releasing b h sc }
        | none => acquireFor (makeReady s k t.pc) k (coreOf s t) sc
    | _ => s

/-- Every thread waiting at a barrier goes on as its phase has changed (R68). -/
def wakeBarrier (s : State) (team b : Nat) : State :=
  (s.threads.map (·.1)).foldl (leaveBarrier team b) s

/-- The held stores of a team are released: from now on they are ordinary stores, and its cores' L1 keeps no older copy of what they
write (R80, R100, R312, R313). [DEDUCED: log entry 49] -/
def releaseHeld (s : State) (team : Nat) : State :=
  let cores := ((tget team s.teams).map fun t => t.cores.map (·.1)).getD []
  let bytes := s.ops.flatMap fun e => match e.2 with
    | .store o => if o.team = team && o.held then o.bytes else []
    | _ => []
  let s := dropL1Bytes s cores bytes
  { s with ops := s.ops.map fun e => match e.2 with
      | .store o => if o.team = team then (e.1, .store { o with held := false }) else e
      | _ => e }

/-- The interval of a checkpoint team closes at a boundary: its held stores are released (R311, R312). -/
def closeInterval (s : State) (team b : Nat) : State :=
  match tget team s.teams with
  | none => s
  | some t =>
    let x := tgetD b Barrier.reset t.barriers
    let iv := t.interval.getD ⟨[], [], [], [], [], (b, x.phase), false, false, true, s.nextKey, false⟩
    (releaseHeld s team).onTeam team fun t => { t with interval := some { iv with boundary := (b, x.phase), closing := true } }

/-- BARRIER_PHASE_COMPLETE while the conditions hold; `fuel` bounds the phases that complete in turn (R68). In
a checkpoint launch the waiters go on only when the boundary completes (R311). -/
def barrierSettle (team b : Nat) : Nat → State → State
  | 0, s => s
  | fuel + 1, s =>
    let x := barrierOf s team b
    if x.holds then
      let s := setBarrier s team b x.advance
      let launch := ((tget team s.teams).map (·.launch)).getD 0
      if isCkpt s launch && x.mode % 2 = 1 then closeInterval s team b
      else barrierSettle team b fuel (wakeBarrier s team b)
    else s

/-- The barrier's condition tested after a change (R68). -/
def barrierTest (s : State) (team b : Nat) : State := barrierSettle team b 64 s

/-- Bytes that arrive at a barrier (R206, R228). -/
def arriveBytes (s : State) (team b n : Nat) : State :=
  let x := barrierOf s team b
  barrierTest (setBarrier s team b { x with barr := low 64 (x.barr + n) }) team b

/-- An exit leaves every barrier of the team: TEXP falls, TARR falls where the thread had arrived (R68). -/
def leaveBarriers (s : State) (k : Nat) (t : Thread) : State :=
  if t.child then s
  else s.onTeam t.team fun tm => { tm with barriers := tm.barriers.map fun e => (e.1, { e.2 with
    texp := e.2.texp - 1
    tarr := if e.2.arrived.contains k then e.2.tarr - 1 else e.2.tarr
    arrived := e.2.arrived.filter (· ≠ k) }) }

/-- Every barrier of a team tested (R68). -/
def barrierTests (s : State) (team : Nat) : State := (List.range 32).foldl (fun s b => barrierTest s team b) s

/-! ## Range locks (R97, R98) -/

/-- A range widened outward to 64-byte boundaries, end excluded. -/
def widen (va len : Nat) : Nat × Nat := (va / 64 * 64, ceilDiv (va + len) 64 * 64)

/-- The first entry of a list that an access of a thread conflicts with (R97). -/
def lockConflict (locks : List (Nat × Lock)) (va len : Nat) (write : Bool) : Option Nat :=
  (locks.find? fun e => va < e.2.hi && e.2.lo < va + len && (e.2.write || write)).map (·.1)

/-- Whether an entry of a core's table binds an access: it is of the same context (R97). -/
def Lock.binds (l : Lock) (ctx : Nat) : Bool := l.owner % 64 = ctx

/-- INFO of the entry that an access conflicts with, in the core's table or the context lock list of its die (R97, R98,
R297). [DEDUCED: log entry 57] -/
def rangeConflict (s : State) (core ctx va len : Nat) (write : Bool) : Option Nat :=
  let mine := (tgetD core [] s.rangeLocks).filter fun e => e.2.binds ctx
  match lockConflict mine va len write with
  | some i => some i
  | none =>
    let list := ((tget ctx s.contexts).map fun c => tgetD (dieOfCore core) [] c.locks).getD []
    (lockConflict list va len write).map (4096 + ·)

/-- The lowest free index of a table. [DEDUCED: log entry 57] -/
def freeIndex (t : List (Nat × α)) (n : Nat) : Option Nat := (List.range n).find? fun i => (tget i t).isNone

/-- Ranges entered in a core's range-lock table; an owner is an operation's key × 64 + its context. -/
def enterLocks (s : State) (core owner : Nat) (ranges : List (Nat × Nat × Bool)) : State :=
  ranges.foldl (fun s r =>
    let t := tgetD core [] s.rangeLocks
    match freeIndex t 64 with
    | some i => { s with rangeLocks := tset core (tset i ⟨r.1, r.2.1, r.2.2, owner⟩ t) s.rangeLocks }
    | none => s) s

/-- The entries of an owner dropped from every core's table. -/
def dropLocks (s : State) (owner : Nat) : State :=
  { s with rangeLocks := s.rangeLocks.map fun e => (e.1, e.2.filter fun l => l.2.owner ≠ owner) }

/-- Free entries of a core's range-lock table (R97). -/
def freeLocks (s : State) (core : Nat) : Nat := 64 - (tgetD core [] s.rangeLocks).length

/-- A context lock entered on every die open to the context (R98); an owner names the handle, launch or save pool. -/
def enterContextLock (s : State) (ctx : Nat) (lo hi : Nat) (write : Bool) (owner : Nat) : State :=
  s.onContext ctx fun c =>
    { c with locks := (List.range 4).foldl (fun ls d =>
        if bit c.desc.dies d then
          let t := tgetD d [] ls
          match freeIndex t 4096 with
          | some i => tset d (tset i ⟨lo, hi, write, owner⟩ t) ls
          | none => ls
        else ls) c.locks }

/-- The context locks of an owner dropped (R98). -/
def dropContextLocks (s : State) (ctx : Nat) (owner : Nat) : State :=
  s.onContext ctx fun c => { c with locks := c.locks.map fun e => (e.1, e.2.filter fun l => l.2.owner ≠ owner) }

end Sys2Proof.Machine
end

