-- ==== Sys2Proof/Machine/Places.lean ====
section
/-! DEFINITION. Where nodes live: slot indices, home slices, the places on an entry's way, and forwarding (R229, R247 to R250,
R254, R260). -/

namespace Sys2Proof.Machine

/-- The key of a handle of a context. -/
def handleKey (ctx h : Nat) : Nat := ctx * 1024 + h

/-- The key of a channel of a context. -/
def channelKey (ctx ch : Nat) : Nat := ctx * 4096 + ch

/-- levels = ceil_log2(n) of a handle (R246). -/
def Handle.levels (h : Handle) : Nat := ceilLog2 (h.nm1 + 1)

/-- The slot index of a node of a handle (R247). -/
def slotIndex (h : Handle) (level index : Nat) : Nat :=
  if level < h.plog then 2 ^ (h.plog - level) + (index - h.prank * 2 ^ (h.plog - level))
  else 2 ^ (h.plog + 1) + 2 ^ (h.levels - h.plog - (level - h.plog)) + index

/-- NSLOT of a handle's sump (R246). -/
def slotCount (h : Handle) : Nat := 2 ^ (h.plog + 1) + (if h.root then 2 ^ (h.levels - h.plog + 1) else 0)

/-- Rounded up to 256 bytes. -/
def round256 (n : Nat) : Nat := ceilDiv n 256 * 256

/-- Where the spill directory and the leaf map of a handle start, and the sump's whole size (R246). -/
def directoryVa (h : Handle) : Nat := h.sump + 16 * slotCount h
def leafMapVa (h : Handle) : Nat := directoryVa h + round256 (ceilDiv (slotCount h) 8)
def sumpSize (h : Handle) : Nat :=
  16 * slotCount h + round256 (ceilDiv (slotCount h) 8) + round256 (ceilDiv (2 ^ h.plog) 8)

/-- The home slice of a node of a handle, as die × 192 + slice (R248). -/
def nodeHome (h : Handle) (num level index : Nat) : Nat :=
  let g := if level < h.plog then min (8 * (level / 8) + 8) h.plog
    else min (h.plog + 8 * ((level - h.plog) / 8) + 8) h.levels
  mix64 ((num * 2 ^ 54) ||| (g * 2 ^ 48) ||| (index / 2 ^ (g - level))) % 768

/-- The home slice of a channel node (R260). -/
def unitHome (levels ch step unit level index : Nat) : Nat :=
  let g := min (8 * (level / 8) + 8) levels
  mix64 (((ch * 2 ^ 52) ||| (step % 4 * 2 ^ 50) ||| (g * 2 ^ 44) ||| (unit * 2 ^ 8) ||| (index / 2 ^ (g - level)))
    ^^^ 0xC3A5C85C97CB3127) % 768

/-- The turns of a route word, first turn first (R229). -/
def routeTurns (w : Nat) : List (BitVec 5) := (List.range (bits w 60 4)).map fun j => BitVec.ofNat 5 (bits w (5 * j) 5)

/-- Whether a route word may be posted: 1 to 12 turns and no turn field at or beyond NT (R229). -/
def routeValid (w : Nat) : Bool :=
  let nt := bits w 60 4
  1 ≤ nt && nt ≤ 12 && low 60 w / 2 ^ (5 * nt) = 0

/-- Whether a route word is valid: it may be posted, and every turn but the last selects a drift port (R229). -/
def routeLegal (w : Nat) : Bool := routeValid w && (routeTurns w).dropLast.all fun t => t.toNat < 24

/-- A channel-table entry read from memory through the context (R259), and whether its reserved fields are zero. -/
def readChannel (s : State) (ctx ch : Nat) : Option (Channel × Bool) :=
  let ctab := ((tget ctx s.contexts).map (·.desc.ctab)).getD 0
  match ctxRead s ctx (ctab + 128 * ch) 128 with
  | none => none
  | some bs =>
    let q (n : Nat) : Nat := leValue ((bs.drop (8 * n)).take 8)
    some (⟨q 0, q 1, q 2, q 3, q 4, bits (q 5) 32 32, bits (q 5) 0 32, bits (q 6) 48 16, bits (q 6) 32 16, bits (q 6) 24 8,
      bits (q 6) 20 4, bit (q 6) 19, bit (q 6) 18, bit (q 6) 17, bit (q 6) 16, bits (q 6) 11 5, BitVec.ofNat 64 (q 7)⟩,
      bits (q 6) 0 11 = 0 && (List.range 7).all fun i => q (9 + i) = 0)

/-- levels of a channel's trees. -/
def Channel.levels (c : Channel) : Nat := ceilLog2 (c.nm1 + 1)

/-- NUNIT (R259). -/
def Channel.units (c : Channel) : Nat := if c.fmt = 3 then c.nelem else ceilDiv c.nelem 16

/-- The bytes of a channel's buffer (R259). -/
def Channel.bytes (c : Channel) : Nat :=
  match c.fmt with
  | 0 => c.nelem
  | 1 => c.nelem * 4
  | 2 => c.nelem * 8
  | _ => c.nelem * (8 + 4 * c.d)

/-- The bytes of a unit's node in a channel sump (R259). -/
def Channel.nodeBytes (c : Channel) : Nat := if c.fmt = 1 then 64 else if c.fmt = 2 then 128 else 8 + 4 * c.d

/-- The slots of a channel's sump, and the bytes of each (R259). -/
def Channel.slots (c : Channel) : Nat := 4 * c.units * 2 ^ (c.levels + 1)
def Channel.slotBytes (c : Channel) : Nat := 2 ^ ceilLog2 c.nodeBytes

/-- The bytes of a channel's sump on its root (R259). -/
def Channel.sumpSize (c : Channel) : Nat := c.slots * c.slotBytes + ceilDiv c.slots 8

/-- The slot of a node in a channel's sump, numbered as a handle's slots are (R247, R259). [DESIGN CHOICE: log entry 112] -/
def Channel.slotOf (c : Channel) (step unit level index : Nat) : Nat :=
  (step % 4 * c.units + unit) * 2 ^ (c.levels + 1) + 2 ^ (c.levels - level) + index

/-- Whether this package holds a channel's root. -/
def Channel.isRoot (c : Channel) : Bool := c.rootPkg = Config.packageNumber

/-- Where an entry goes: its home slice on this package, or none when it leaves for another package (R248, R249, R260).
[DEDUCED: log entry 70] -/
def homeOf (s : State) (tag : Tag) : Option Nat :=
  match tag with
  | .handle ctx h level index =>
    match tget (handleKey ctx h) s.handles with
    | some hd => if level < hd.plog || hd.root then some (nodeHome hd h level index) else none
    | none => none
  | .chan ctx ch step unit level index =>
    match readChannel s ctx ch with
    | some (c, _) => if c.isRoot then some (unitHome c.levels ch step unit level index) else none
    | none => none

/-- The route of an entry that leaves this package (R249). -/
def routeOf (s : State) (tag : Tag) : List (BitVec 5) :=
  match tag with
  | .handle ctx h _ _ => ((tget (handleKey ctx h) s.handles).map fun hd => routeTurns hd.route.toNat).getD []
  | .chan ctx ch _ _ _ _ => ((readChannel s ctx ch).map fun c => routeTurns c.1.route.toNat).getD []

/-- The die of a place; a drift port's is none. -/
def Place.die? : Place → Option Nat
  | .core c => some (dieOfCore c)
  | .slice k => some (k / 192)
  | .port p => if 24 ≤ p && p < 28 then some (p - 24) else none

/-- The next place towards a home slice: every crosscut die port crossed on the way is one (R249).
[DEDUCED: log entry 70] -/
def nextPlace (p : Place) (home : Nat) : Place :=
  if p.die? = some (home / 192) then .slice home
  else
    match p with
    | .port _ => .port (24 + home / 192)
    | _ => .port (24 + (p.die?).getD 0)

/-- An entry put before a place. -/
def arrive (s : State) (e : PairEntry) : State :=
  { s with arrivals := tset s.nextKey e s.arrivals, nextKey := s.nextKey + 1 }

/-- The payload of an entry in a packet (R254). -/
def payloadOf (e : PairEntry) : Payload :=
  match e.tag, e.value with
  | .handle _ _ level index, .node pairs v => .node pairs level index v
  | .chan _ _ _ unit level index, .unit op pairs leaves v => .chan op pairs leaves unit level index v
  | _, _ => .notice

/-- The context, CH and step that a tag names. -/
def Tag.stream (t : Tag) : Nat × Nat × Nat :=
  match t with
  | .handle ctx h _ _ => (ctx, h, 0)
  | .chan ctx ch step _ _ _ => (ctx, ch, step)

/-- The next SEQ of this package's packets of a context and CH (R254). [DEDUCED: log entry 69] -/
def nextSeq (s : State) (ctx ch : Nat) : Nat := tgetD (channelKey ctx ch) 0 s.seqs

/-- Numbers of a context and CH given out. -/
def tookSeqs (s : State) (ctx ch n : Nat) : State :=
  { s with seqs := tset (channelKey ctx ch) (low 32 (nextSeq s ctx ch + n)) s.seqs }

/-- An entry as a packet with a remaining route; one that no packet brought, or that has been merged, takes the next SEQ here
(R254). [DEDUCED: log entry 69; DEDUCED: log entry 74] -/
def packetOf (s : State) (e : PairEntry) : Packet :=
  let (ctx, ch, step) := e.tag.stream
  let (src, seq) := e.stamp.getD (Config.packageNumber, nextSeq s ctx ch)
  ⟨e.route, src, ctx, ch, seq, step, e.back, e.cmd, payloadOf e, [], []⟩

/-- The state once an entry has become a packet. -/
def stamped (s : State) (e : PairEntry) : State :=
  match e.stamp with
  | some _ => s
  | none => tookSeqs s e.tag.stream.1 e.tag.stream.2.1 1

/-- A packet that leaves on a drift link: it is kept until the receiver acknowledges it (R254, R257). -/
def sendOnLink (s : State) (link : Nat) (p : Packet) : State :=
  { s with outbox := s.outbox ++ [(link, s.nextKey % 65536, p)], unacked := s.unacked ++ [(link, s.nextKey % 65536, p)], nextKey := s.nextKey + 1 }

/-- A packet at a switch input. -/
def enterSwitch (s : State) (input : Nat) (p : Packet) : State :=
  { s with packets := tset s.nextKey ⟨p, input, none⟩ s.packets, nextKey := s.nextKey + 1 }

/-- An entry forwarded from its place (R249, R250): out of the port it leaves by, on along its route, towards its home, or, with
no home on this package, through its die's crosscut port along the route to the root. [DEDUCED: log entry 70] -/
def forwardEntry (s : State) (e : PairEntry) : State :=
  match e.place, e.leaving, homeOf s e.tag with
  | .port p, true, home =>
    if p < 24 then sendOnLink (stamped s e) p (packetOf s e)
    else match home with
      | some h => arrive s { e with place := nextPlace (.port p) h, leaving := false, route := [] }
      | none => s
  | .port input, false, home =>
    match e.route, home with
    | [], some h => arrive s { e with place := nextPlace e.place h }
    | [], none => enterSwitch (stamped s e) input (packetOf s { e with route := routeOf s e.tag })
    | _, _ => enterSwitch (stamped s e) input (packetOf s e)
  | .slice k, _, some h => arrive s { e with place := nextPlace (.slice k) h, homed := true }
  | p, _, some h => arrive s { e with place := nextPlace p h }
  | p, _, none => arrive s { e with place := .port (24 + (p.die?).getD 0), route := routeOf s e.tag, back := [(Config.packageNumber, [])] }

/-- Entries of a buffer taken out and forwarded. -/
def forwardAll (s : State) (p : PairEntry → Bool) : State :=
  (s.buffers.filter fun e => p e.2).foldl (fun s e => forwardEntry { s with buffers := tdel e.1 s.buffers } e.2) s

end Sys2Proof.Machine
end

