-- ==== Sys2Proof/Machine/Lifecycle.lean ====
section
/-! DEFINITION. The ends of things: a thread's exit, retirement of groups, teams and clusters, completion status, the
termination of a context, and the consumption of poison (R52, R64, R184, R296, R314, R316, R328). -/

namespace Sys2Proof.Machine

/-- The number of placement clusters of a kernel's grid (R52). -/
def clusterCount (k : KDesc) : Nat := k.x / k.cx * (k.y / k.cy) * (k.z / k.cz)

/-- Teams in one cluster. -/
def clusterSize (k : KDesc) : Nat := k.cx * k.cy * k.cz

/-- Clusters retired in order while the next one has finished (R52). -/
def retireClusters : Nat → Launch → Launch
  | 0, l => l
  | n + 1, l => if l.finished.contains l.retired then retireClusters n { l with retired := l.retired + 1 } else l

/-- CLUSTER_RETIRE: a cluster all of whose teams are DONE has finished; it retires after every cluster of lower key (R52). -/
def clusterCheck (s : State) (launch cluster : Nat) : State :=
  let teams := s.teams.filter fun e => e.2.launch = launch && e.2.cluster = cluster
  match tget launch s.launches with
  | some l =>
    if teams.length = clusterSize l.k && (teams.all fun e => e.2.state = .done) && !l.finished.contains cluster then
      s.onLaunch launch fun l => retireClusters (l.finished.length + 1) { l with finished := cluster :: l.finished }
    else s
  | none => s

/-- Whether the Assayer samples a team of a launch (R318). -/
def sampled (s : State) (l : Launch) (team : Nat) : Bool :=
  l.k.det && l.k.replay && l.assay.isSome &&
    low (((tget l.ctx s.contexts).map (·.desc.ashift)).getD 0) (mix64 (low 64 (l.id ^^^ team))) = 0

/-- A finished team is noted for the Assayer where it is sampled (R319). -/
def noteSample (s : State) (t : Team) : State :=
  match tget t.launch s.launches with
  | some l =>
    if sampled s l t.index then
      s.onLaunch t.launch fun l => { l with unsampled := l.unsampled ++ [(t.index, ((t.cores.head?).map fun c => dieOfCore c.1).getD 0)] }
    else s
  | none => s

/-- A team whose groups have all retired, its children's among them, is DONE and frees its core, one that is being saved too (R64, R185).
[DESIGN CHOICE: log entry 119] -/
def teamCheck (s : State) (team : Nat) : State :=
  match tget team s.teams with
  | none => s
  | some t =>
    if (t.state = .running || t.state = .saving) && !(s.groups.any fun e => e.2.team = team)
        && !(s.threads.any fun e => e.2.team = team && e.2.state ≠ .exited) then
      let s := noteSample (s.onTeam team fun t => { t with state := .done }) t
      let s := forwardAll s fun e => e.team = team && (match e.place with
        | .core _ => true
        | _ => false)
      clusterCheck s t.launch t.cluster
    else s

/-- The register rows of a group that a copy has locked (R73). -/
def rowsLocked (s : State) (g : Group) : Bool :=
  s.rowLocks.any fun l => l.1 = g.core && l.2.1 = g.bay && g.slot0 ≤ l.2.2.1 && l.2.2.1 < g.slot0 + g.width
    && g.segs.any fun seg => seg.base ≤ l.2.2.2.1 && l.2.2.2.1 < seg.base + seg.count

/-- GROUP_RETIRE: a group with no live member drains, and retires once no copy locks its rows; its rows, its record and its
exited threads go (R64). -/
def groupCheck (s : State) (g : Nat) : State :=
  match tget g s.groups with
  | none => s
  | some gr =>
    if gr.live ≠ 0 || gr.state = .saved then s
    else if rowsLocked s gr then s.onGroup g fun gr => { gr with state := .draining }
    else
      let s := shedRows s g 0
      teamCheck { s with
        groups := tdel g s.groups
        threads := s.threads.filter fun e => !(e.2.group = some g && e.2.state = .exited) } gr.team

/-- Loads still pending into a thread's registers are dropped; those into a uniform register are its group's and stay (R184). -/
def dropLoads (s : State) (k : Nat) : State :=
  { s with ops := s.ops.filterMap fun e =>
      match e.2 with
      | .load o =>
        let ms := o.members.map fun m => if m.thread = k && !(m.dst.any fun d => 384 ≤ d) then { m with done := true } else m
        if ms.all (·.done) then none else some (e.1, .load { o with members := ms })
      | _ => some e }

/-- A thread enters EXITED: its live bit clears, its loads are dropped, and it leaves the barrier counts (R68, R184). -/
def enterExited (s : State) (e : Nat × Thread) : State :=
  let (k, t) := e
  let s := dropLoads (leaveIssue (s.onThread k fun t => { t with state := .exited, trap := none }) k) k
  match t.group with
  | none => { s with threads := tdel k s.threads }
  | some g => leaveBarriers (s.onGroup g fun gr => { gr with live := putBit gr.live t.member false }) k t

/-- What an exit leads to: rendezvous that name the thread trap, and its group, or a team that it leaves without one, may be over
(R64, R66). -/
def afterExit (s : State) (e : Nat × Thread) : State :=
  match e.2.group with
  | none => teamCheck s e.2.team
  | some g => groupCheck (absentTraps s g) g

/-- Threads exit together: all leave the barrier counts before any barrier is tested, so that no phase completes by exits that bring
TEXP to 0 (R66, R68, R184). -/
def exitThreads (s : State) (ks : List Nat) : State :=
  let ts := ks.filterMap fun k => (tget k s.threads).map fun t => (k, t)
  let s := ts.foldl enterExited s
  let s := ((ts.filter fun e => e.2.group.isSome && !e.2.child).map fun e => e.2.team).eraseDups.foldl barrierTests s
  ts.foldl afterExit s

/-- One thread exits. -/
def exitThread (s : State) (k : Nat) : State := exitThreads s [k]

/-- A slot of a trap ring is given up, and the handler thread made for its record with it. [DEDUCED: log entry 42] -/
def dropTrapSlot (s : State) (ctx slot : Nat) : State :=
  match (tget ctx s.contexts).bind fun c => tget slot c.trapSlots with
  | none => s
  | some (_, handler) =>
    let s := s.onContext ctx fun c => { c with trapSlots := tdel slot c.trapSlots }
    let s := { s with
      entrants := s.entrants.filter fun e => e.2.thread ≠ handler
      cages := (s.cages.map fun e => (e.1, { e.2 with threads := e.2.threads.filter fun x => x.2 ≠ handler })).filter fun e =>
        !e.2.threads.isEmpty }
    exitThread s handler

/-- The trap-ring slots of threads, given up where they do not hold them any more. -/
def dropTrapSlots (s : State) (ctx : Nat) (ks : List Nat) : State :=
  let slots := ((tget ctx s.contexts).map (·.trapSlots)).getD []
  (slots.filter fun x => ks.contains x.2.1
      && !((tget x.2.1 s.threads).any fun t => t.state = .trapped && t.trapSlot = some x.1)).foldl (fun s x => dropTrapSlot s ctx x.1) s

/-- STATUS of a launch record written with release at .sys, and VEC signalled (R328). -/
def writeStatus (s : State) (l : Launch) (status : Nat) : State :=
  match l.kind, tget l.ctx s.contexts with
  | .queued k, some c =>
    let pa := c.qbase + 64 * (k % 2 ^ c.qlog) + 0x28
    interrupt (if deviceReaches s pa 1 then writeHome s pa (BitVec.ofNat 8 status) else s) l.ctx
  | _, _ => s

/-- The thread that an operation in progress counts for, and its context where it holds one. -/
def Op.owner : Op → Option Nat × Option Nat
  | .load o => ((o.members.head?).map (·.thread), none)
  | .store o => ((o.cs.head?).map (·.thread), some o.ctx)
  | .atom o => ((o.members.head?).map (·.thread), some o.ctx)
  | .tile o => (some o.c.thread, some o.ctx)
  | .disc o => (some o.c.thread, some o.ctx)
  | .pref o => (some o.c.thread, none)
  | .ctb o => (some o.c.thread, some o.ctx)
  | .seal o => (some o.c.thread, some o.ctx)
  | .fence o => (some o.thread, none)
  | .wait o => (some o.c.thread, none)
  | .granule o => (some o.c.thread, none)
  | .rinv o => (some o.c.thread, some o.ctx)
  | .copy o => (some o.poster, some o.ctx)
  | .drain o => (none, some o.ctx)
  | .fabric o => (some o.poster, some o.ctx)
  | .ring o => (some o.c.thread, some o.ctx)
  | .emit c _ _ => (some c.thread, none)
  | .send o => (some o.c.thread, some o.ctx)
  | .recv o => (some o.c.thread, some o.ctx)

/-- The context of an operation in progress; 64 where none is left. -/
def opContext (s : State) (o : Op) : Nat :=
  match o.owner with
  | (_, some c) => c
  | (some k, none) => ((tget k s.threads).map (·.ctx)).getD 64
  | (none, none) => 64

/-- The team that an operation in progress belongs to. -/
def opTeam (s : State) (o : Op) : Option Nat :=
  match o with
  | .store o => some o.team
  | .tile o => some o.team
  | .atom o => some o.team
  | .disc o => some o.team
  | .copy o => some o.team
  | .drain o => some o.team
  | .fabric o => some o.team
  | o => o.owner.1.bind fun k => (tget k s.threads).map (·.team)

/-- The members that an operation in progress counts for. -/
def Op.counts : Op → List Counted
  | .load o => o.members.filterMap fun m => if m.done then none else some ⟨m.thread, o.ctr⟩
  | .store o => o.cs
  | .atom o => o.members.map fun m => ⟨m.thread, o.ctr⟩
  | .tile o => [o.c]
  | .disc o => [o.c]
  | .pref o => [o.c]
  | .ctb o => [o.c]
  | .seal o => [o.c]
  | .fence _ => []
  | .wait o => [o.c]
  | .granule o => [o.c]
  | .rinv o => [o.c]
  | .copy o => o.cs
  | .drain _ => []
  | .fabric o => o.cs
  | .ring o => [o.c]
  | .emit c _ _ => [c]
  | .send o => [o.c]
  | .recv o => [o.c]

/-- The outstanding operations and commands that a counter of a thread counts. -/
def outstanding (s : State) (k ctr : Nat) : Nat :=
  (s.ops.map fun e => (e.2.counts.filter (· = ⟨k, ctr⟩)).length).sum
    + (s.matrix.map fun e => (e.2.counted.filter (· = ⟨k, ctr⟩)).length).sum

/-- Operations and matrix commands are given up, with their range locks. -/
def abandon (s : State) (op : Nat → Op → Bool) (cmd : MatrixEntry → Bool) : State :=
  let owners := (s.ops.filterMap fun e => if op e.1 e.2 then some (e.1 * 64 + opContext s e.2) else none)
    ++ s.matrix.filterMap fun e => if cmd e.2 then some (e.2.age.2 * 64 + e.2.ctx) else none
  owners.foldl dropLocks { s with
    ops := s.ops.filter fun e => !op e.1 e.2
    matrix := s.matrix.filter fun e => !cmd e.2 }

/-- The context and number of a tag's handle or channel. -/
def Tag.owner : Tag → Bool × Nat × Nat
  | .handle c h _ _ => (true, c, h)
  | .chan c h _ _ _ _ => (false, c, h)

/-- Owners of the context locks: DEST and sump of a handle, the input ranges of a launch, the save pool (R98). -/
def destOwner (h : Nat) : Nat := 4 * (h + 1) + 1
def sumpOwner (h : Nat) : Nat := 4 * (h + 1) + 2
def inputOwner (launch : Nat) : Nat := 4 * (launch + 1) + 3

/-- STATE of a handle, in the table's entry in memory as well (R245). -/
def setHandleState (s : State) (ctx h st : Nat) : State :=
  let va := ((tget ctx s.contexts).map (·.desc.htab)).getD 0 + 64 * h + 0x38
  let s := match ctxValue s ctx va 1 with
    | some v => (ctxWrite s ctx va [BitVec.ofNat 8 (putBits v 2 2 st)]).getD s
    | none => s
  { s with handles := tmod (handleKey ctx h) (fun hd => { hd with state := st }) s.handles }

/-- HANDLE_CLOSE: a handle of a completed launch closes: its locks drop, its entries go (R253).
[DEDUCED: log entry 45; DEDUCED: log entry 78] -/
def closeHandle (s : State) (key : Nat) : State :=
  let ctx := key / 1024
  let h := key % 1024
  let s := setHandleState s ctx h 0
  let s := dropContextLocks (dropContextLocks s ctx (destOwner h)) ctx (sumpOwner h)
  let mine (t : Tag) : Bool := t.owner = (true, ctx, h)
  { s with
    handles := tdel key s.handles
    buffers := s.buffers.filter fun e => !mine e.2.tag
    arrivals := s.arrivals.filter fun e => !mine e.2.tag
    spills := s.spills.filter fun e => !mine e.2.key }

/-- Whether a target lies in a core. -/
def Target.onCore : Target → Bool
  | .onchip _ => true
  | _ => false

/-- A write to memory outside the cores that has been issued: it is still performed after its thread is gone.
[DEDUCED: log entry 45] -/
def Op.issuedWrite : Op → Bool
  | .store o => !o.held && !o.target.onCore
  | .atom o => !o.target.onCore
  | .tile o => o.storing && o.rows.all fun r => r.all fun p => !p.1.onCore
  | _ => false

/-- A context is terminated: every launch of it completes as context terminated and its cores are freed without saving; the
stores and atomics it had issued to memory outside its cores are still performed; a
record of class uncorrectable non-fatal is raised, of the kind that R316 names; what its body holds is not stated (R296).
[DEDUCED: log entry 44; DEDUCED: log entry 45; DEDUCED: log entry 105] -/
def terminateContext (s : State) (ctx : Nat) : State :=
  match tget ctx s.contexts with
  | none => s
  | some _ =>
    let open_ := s.launches.filter fun e => e.2.ctx = ctx && e.2.status = none
    let s := open_.foldl (fun s e =>
      (writeStatus s e.2 8).onLaunch e.1 fun l => { l with status := some 8 }) s
    let s := ((s.handles.filter fun e => e.1 / 1024 = ctx).map (·.1)).foldl closeHandle s
    let dead := (s.threads.filter fun e => e.2.ctx = ctx).map (·.1)
    let s := dead.foldl leaveIssue s
    let s := (s.groups.filter fun e => e.2.ctx = ctx && e.2.state ≠ .saved).foldl (fun s e => shedRows s e.1 0) s
    let s := { s with
      requests := s.requests.filter fun r => r.ctx ≠ some ctx
      ops := s.ops.filter fun e => opContext s e.2 ≠ ctx || e.2.issuedWrite
      threads := s.threads.filter fun e => e.2.ctx ≠ ctx
      groups := s.groups.filter fun e => e.2.ctx ≠ ctx
      teams := s.teams.filter fun e => e.2.ctx ≠ ctx
      cages := s.cages.filter fun e => e.2.ctx ≠ ctx
      withdrawn := s.withdrawn.filter fun e => opContext s e.2 ≠ ctx
      entrants := s.entrants.filter fun e => !dead.contains e.2.thread
      matrix := s.matrix.filter fun e => e.2.ctx ≠ ctx
      samples := s.samples.filter fun e => e.2.ctx ≠ ctx
      rangeLocks := s.rangeLocks.map fun (e : Nat × List (Nat × Lock)) => (e.1, e.2.filter fun l => l.2.owner % 64 ≠ ctx) }
    let s := s.onContext ctx fun c => { c with
      state := if c.state = 2 then 0 else 3
      trapSlots := []
      images := []
      drain := none
      handler := none
      locks := if c.state = 2 then [] else c.locks.map fun (e : Nat × List (Nat × Lock)) => (e.1, e.2.filter fun l => l.2.owner = 0) }
    let (body, s) := s.drawBytes 6
    errorRecord s ctx 6 0 2 body

/-- The team is restored to its last interval boundary: held sectors go, what the team began since is given up, logged rows and granules
come back, every thread stands after the boundary, and its counters count what was outstanding there and still is (R312, R314).
[DEDUCED: log entry 88] -/
def rollbackTeam (s : State) (team : Nat) : State :=
  match tget team s.teams with
  | none => s
  | some t =>
    match t.interval with
    | none => s
    | some iv =>
      let mine := (s.threads.filter fun e => e.2.team = team).map (·.1)
      let s := mine.foldl leaveIssue s
      let s := abandon s (fun id o => opTeam s o = some team && iv.first ≤ id) fun e => e.team = team && iv.first ≤ e.age.2
      let back (e : Nat × Thread) : Thread := { e.2 with ctrs := e.2.ctrs.map fun c => (c.1, outstanding s e.1 c.1) }
      let s := { s with
        threads := iv.threads.foldl (fun ts (e : Nat × Thread) => tset e.1 (back e) ts) (s.threads.filter fun e => e.2.team ≠ team)
        groups := iv.groups.foldl (fun gs (e : Nat × Group) => tset e.1 e.2 gs) s.groups
        mem := iv.scratch.foldl (fun m (e : Nat × Byte) => memWrite m e.1 e.2) s.mem
        fixed := s.fixed.filter fun f => !(f.2.writes.any fun w => match w with
          | .v k _ _ => mine.contains k
          | .p k _ _ => mine.contains k
          | .version k _ => mine.contains k
          | .g g _ _ => (tget g s.groups).any fun (gr : Group) => gr.team = team)
        full := iv.full ++ s.full.filter fun g => !(t.cores.any fun c =>
          onchipPa c.1 c.2.2 ≤ g && g < onchipPa c.1 (c.2.2 + t.scratch / t.cores.length)) }
      let s := s.onTeam team fun t => { t with
        barriers := iv.barriers
        interval := some { iv with rolledBack := true, due := false } }
      checkpointRecord (dropTrapSlots s t.ctx mine) t.ctx t.index iv.boundary 1

/-- A second consumption, or one in an interval that has lost its rollback, terminates the context with outcome 3 (R314). -/
def rollbackLost (s : State) (t : Team) (iv : Interval) : State :=
  terminateContext (checkpointRecord s t.ctx t.index iv.boundary 3) t.ctx

/-- The teams that have consumed uncorrectable data in a move are rolled back as it ends (R314). -/
def settleRollbacks (s : State) : State :=
  s.teams.foldl (fun s e => match e.2.interval with
    | some iv => if !iv.due then s else if iv.lost then rollbackLost s e.2 iv else rollbackTeam s e.1
    | none => s) s

/-- The core that holds a granule outside HBM. -/
def granuleCore (s : State) (g : Nat) : Nat := if 2 ^ 64 ≤ g then (g - 2 ^ 64) / 2 ^ 56 else (regionOf s g).1

/-- The unit that holds a granule on chip, as a KIND 6 record numbers units (R301). -/
def granuleUnit (s : State) (g : Nat) : Nat :=
  if 2 ^ 64 ≤ g then 2 else match (regionOf s g).2 with
    | .scratchpad _ => 3
    | .register _ _ _ _ => 4
    | .accumulator _ _ => 5
    | _ => 0

/-- The unit, die and core of a granule, as a KIND 6 record gives them: a sector of HBM of which the L2 holds bytes is read from the L2 at
its home die, any other from the HBM of its own (R301). [DEDUCED: log entry 44] -/
def granulePlace (s : State) (g : Nat) : Nat :=
  if g < hbmBytes then
    if s.l2.any fun e => e.1 / 64 = g / 64 then 1 + homeDie s g * 256 else g / dieHbmBytes * 256
  else
    let core := granuleCore s g
    granuleUnit s g + dieOfCore core * 256 + core % coresPerDie * 65536

/-- A KIND 6 record of a granule in a unit, with the virtual address of its first byte (R301). -/
def unitRecord (s : State) (ctx cause sev g va launch place : Nat) : State :=
  errorRecord s ctx 6 cause sev (leBytes 8 (granulePa g) ++ leBytes 8 (if g < hbmBytes then 64 else 4) ++ leBytes 8 va
    ++ leBytes 8 place ++ leBytes 8 launch)

/-- A KIND 6 record of a granule, from the unit that it is read from. -/
def memoryRecord (s : State) (ctx cause sev g va launch : Nat) : State := unitRecord s ctx cause sev g va launch (granulePlace s g)

/-- A trap that the thread takes at its first clause boundary from now (R124, R316). -/
def deferTrap (s : State) (k : Nat) (i : TrapInfo) : State :=
  s.onThread k fun t => if t.state = .exited then t else { t with deferred := t.deferred ++ [i] }

/-- INFO of cause 0x50: the physical address of the poisoned 64-byte sector (R297). -/
def sectorInfo (g : Nat) : Nat := granulePa g / 64 * 64

/-- Poisoned bytes are consumed for a thread: a KIND 6 record of the granule, whose first byte lies at `va`; then a rollback, as the move
ends, in an interval that keeps its rollback, the context's termination in one that has lost or spent it, or whose held sectors have
been released at its boundary, and otherwise what `trap` does (R314, R316). [DEDUCED: log entry 88] -/
def consumeFor (s : State) (k va g : Nat) (trap : State → State) : State :=
  match tget k s.threads with
  | none => s
  | some t =>
    let s := memoryRecord s t.ctx 0x50 2 g va (launchIdOf s t)
    match tget t.team s.teams, (tget t.team s.teams).bind (·.interval) with
    | some tm, some iv =>
      if iv.due then s
      else if iv.closing || iv.lost || iv.rolledBack then rollbackLost s tm iv
      else s.onTeam t.team fun tm => { tm with interval := some { iv with due := true } }
    | _, _ => trap s

/-- A read by a word at an address, given with its clause's header, of bytes of a poisoned granule takes cause 0x50 at that word, which
the thread may have left behind (R316). [DEDUCED: log entry 60] -/
def consumeAt (s : State) (k : Nat) (word : Nat × Nat) (va pa g : Nat) : State :=
  consumeFor s k (granuleVa va pa g) g fun s => trapAtWord s k word 0x50 (firstBadVa va pa g) (sectorInfo g)

/-- A thread's own read, at a virtual and a physical address, of bytes of a poisoned granule takes cause 0x50 at the word it issued
last (R316). [DEDUCED: log entry 60] -/
def consumePoison (s : State) (k va pa g : Nat) : State :=
  match tget k s.threads with
  | some t => consumeAt s k (t.curHdr, t.curWord) va pa g
  | none => s

/-- A word that reads a poisoned register row takes cause 0x50; a row has no virtual address: the record says so, and FADDR is 0
(R297, R301, R316). [DEDUCED: log entry 60] -/
def consumeRow (s : State) (k g : Nat) : State :=
  consumeFor s k noVa g fun s => takeTrap s k 0x50 0 (sectorInfo g)

/-- A walk that reads a poisoned entry writes a KIND 6 record; an entry has no virtual address of its own (R301, R302). -/
def poisonedWalk (s : State) (die ctx va launch : Nat) : State :=
  if s.poison.isEmpty then s
  else match walkPoison s die va 5 0 (rootOf s ctx) with
    | some g => memoryRecord s ctx 0x50 2 g noVa launch
    | none => s

/-- The walks of a unit's own access to a range of a context, of which the first that meets a poisoned entry is recorded (R302). -/
def walksNoted (s : State) (ctx va n : Nat) : State :=
  if s.poison.isEmpty then s
  else
  let die := firstDie s ctx
  let pages := (List.range ((va % 65536 + n + 65535) / 65536)).map fun i => (va / 65536 + i) * 65536
  match pages.find? fun p => (walkPoison s die p 5 0 (rootOf s ctx)).isSome with
  | some p => poisonedWalk s die ctx p 0
  | none => s

/-- Bytes that a unit writes through a context, where its pages allow it; a poisoned walk is recorded (R302). -/
def ctxStore (s : State) (ctx va : Nat) (bs : List Byte) : State := (ctxWrite s ctx va bs).getD (walksNoted s ctx va bs.length)

/-- Threads whose fetch at an address has failed take its trap at the word not fetched: after the record of a poisoned walk for the
translation trap, and as a consumption where the code is poisoned (R140, R302, R316). [DEDUCED: log entry 106] -/
def fetchTraps (s : State) (ks : List Nat) (hdr pc cause va : Nat) : State :=
  match (ks.head?).bind fun k => tget k s.threads with
  | none => s
  | some t =>
    let die := dieOfCore (coreOf s t)
    let s := if cause = 0x10 then poisonedWalk s die t.ctx va (launchIdOf s t) else s
    let bad := match resolve s die t.ctx t.team ⟨false, false, true, t.sys⟩ va with
      | .ok tgt => (poisonedAt s tgt.pa 8).map fun g => (tgt.pa, g)
      | .error _ => none
    ks.foldl (fun s k => match bad with
      | some (pa, g) =>
        if cause = 0x50 then
          consumeFor s k (granuleVa va pa g) g fun s => takeTrapAt s k hdr pc 0x50 (firstBadVa va pa g) (sectorInfo g)
        else takeTrapAt s k hdr pc cause va 0
      | none => takeTrapAt s k hdr pc cause va 0) s

/-- Poisoned bytes met by an engine command: its poster takes cause 0x50 at its first clause boundary (R316).
[DEDUCED: log entry 60] -/
def engineConsume (s : State) (poster va pa : Nat) : State :=
  let g := eccGranule pa
  consumeFor s poster (granuleVa va pa g) g fun s =>
    deferTrap s poster ⟨0x50, 0, 0, if va = noVa then 0 else firstBadVa va pa g, sectorInfo g, none, []⟩

/-- ROLLBACK_LOSS: an operation that escapes the team releases the held sectors and ends the interval's rollback (R313).
[DEDUCED: log entry 88] -/
def loseRollback (s : State) (team : Nat) : State :=
  match tget team s.teams with
  | none => s
  | some t =>
    match t.interval with
    | none => s
    | some iv =>
      if iv.lost then s
      else
        let s := (releaseHeld s team).onTeam team fun t => { t with interval := some { iv with lost := true } }
        checkpointRecord s t.ctx t.index iv.boundary 2

end Sys2Proof.Machine
end

