-- ==== Sys2Proof/Machine/Flags.lean ====
section
/-! DEFINITION. Predicates: the guard of a word, predicate codes, and the conditions that compute a predicate (R130, R167, R171,
R172). -/

namespace Sys2Proof.Machine

/-- Whether a word takes effect for a thread (R130). -/
def guardTrue (g : Guard) (t : Thread) : Bool := g = Guard.always || (t.preds.getLsbD g.pred.toNat != g.pn)

/-- The predicate that a 4-bit code names, negated by its bit 3 (R166, R167, R178). -/
def predCode (t : Thread) (code : Nat) : Bool := t.preds.getLsbD (bits code 0 3) != bit code 3

/-- The conditions 0 to 5 of ICMP and WAIT: EQ, NE, LT, LE, GT, GE (R171, R204). -/
def intCond (cond : Nat) (a b : Int) : Bool :=
  match cond with
  | 0 => a = b
  | 1 => a ≠ b
  | 2 => a < b
  | 3 => a ≤ b
  | 4 => b < a
  | _ => b ≤ a

/-- The conditions of FCMP: 0 to 5 by totalOrder, EQN and LTN by IEEE 754 (R171). -/
def fpCond (f : FFmt) (cond a b : Nat) : Bool :=
  if cond < 6 then intCond cond (totalKey f a) (totalKey f b)
  else if cond = 6 then quietEqual f a b else quietLess f a b

/-- PLOP's operators (R167). -/
def predOp (op : Nat) (a b : Bool) : Bool :=
  match op with
  | 0 => a && b
  | 1 => a || b
  | _ => a != b

/-- p0 to p7 as bits 7 to 0 (R167, PGET). -/
def predBits (t : Thread) : Nat := t.preds.toNat

/-- A predicate of a thread written (R161). -/
def writePred (s : State) (k p : Nat) (v : Bool) : State :=
  s.onThread k fun t => { t with preds := BitVec.ofNat 8 (putBit t.preds.toNat p v) }

end Sys2Proof.Machine
end

