-- ==== Sys2Proof/Machine/Operands.lean ====
section
/-! DEFINITION. Operand forms: the fields of a word's FUNC, its register operands, inline constants, and the static checks of
R143 steps 4 to 6 for every instruction (R127 to R138, R161). -/

namespace Sys2Proof

open Machine

/-! ## FUNC (R132, R133). `func` holds word bits 15 to 4. -/

/-- T[15:11]. -/
def RWord.tcode (w : RWord) : Nat := bits w.func.toNat 7 5

/-- RND[10:8]. -/
def RWord.rnd (w : RWord) : Nat := bits w.func.toNat 4 3

/-- SAT[7]. -/
def RWord.sat (w : RWord) : Bool := bit w.func.toNat 3

/-- FZ[6]. -/
def RWord.fz (w : RWord) : Bool := bit w.func.toNat 2

/-- OPX[5:4]. -/
def RWord.opx (w : RWord) : Nat := bits w.func.toNat 0 2

/-- CTR, FUNC[15:13]. -/
def RWord.ctr (w : RWord) : Nat := bits w.func.toNat 9 3

/-- FUNC[h:l] by word bit numbers, l at least 4. -/
def RWord.fbits (w : RWord) (l len : Nat) : Nat := bits w.func.toNat (l - 4) len

/-- The type in T, N32 where the code is not a type. -/
def RWord.ty (w : RWord) : Ty := (Ty.ofCode w.tcode).getD .n32

/-- The rounding mode in RND. -/
def RWord.mode (w : RWord) : Mode := (Mode.ofCode w.rnd).getD .rn

/-- Registers that an operand of a type takes (R128). -/
def Machine.Ty.regs (t : Ty) : Nat := if t.width = 64 then 2 else 1

/-! ## Operands -/

/-- Which inline constants a source field may hold (R129): none, 448 to 463, or all. -/
inductive ConstRule where
  | none | ints | all
  deriving DecidableEq, Repr

/-- A register operand of a word: its field, how many registers it takes, and whether the word writes it. -/
structure Opnd where
  field : Nat
  n : Nat
  write : Bool
  const : ConstRule
  deriving DecidableEq, Repr

/-- A destination of n registers. -/
def dstOp (f : BitVec 9) (n : Nat) : Opnd := ⟨f.toNat, n, true, .none⟩

/-- A source of n registers that allows no constant. -/
def regOp (f : BitVec 9) (n : Nat) : Opnd := ⟨f.toNat, n, false, .none⟩

/-- A source of a type: integers allow the codes of integers, other types allow every code (R129). -/
def srcOp (f : BitVec 9) (t : Ty) : Opnd := ⟨f.toNat, t.regs, false, if t.isInt then .ints else .all⟩

/-- Whether an operand is illegal whatever the thread holds (R128, R129): reserved code, constant not allowed, or a register
that is not aligned to the operand's size. -/
def Opnd.illegal (o : Opnd) : Bool :=
  if 480 ≤ o.field then true
  else if 448 ≤ o.field then
    o.write || o.const = .none || (o.const = .ints && 464 ≤ o.field)
  else o.field % o.n ≠ 0

/-- The registers a field covers, none for a constant. -/
def Opnd.regs (o : Opnd) : List Nat := if 448 ≤ o.field then [] else (List.range o.n).map (o.field + ·)

/-- Whether a register is allocated to the threads of a group: g registers always, v registers within its segments (R44). -/
def allocated (g : Group) (r : Nat) : Bool :=
  384 ≤ r || g.segs.any fun s => s.first ≤ r && r < s.first + s.count

/-- A source operand of a type as an encoding or value of that type's width (R128, R129, R161). -/
def srcValue (s : State) (t : Thread) (ty : Ty) (f : BitVec 9) : Nat :=
  if 448 ≤ f.toNat then constantIn ty f.toNat else low ty.width (readRegs s t f.toNat ty.regs)

/-- A 32-bit source operand. -/
def src32 (s : State) (t : Thread) (f : BitVec 9) : Nat := srcValue s t .n32 f

/-- A 64-bit source operand; a constant is its integer. -/
def src64 (s : State) (t : Thread) (f : BitVec 9) : Nat := srcValue s t .n64 f

/-- A 128-bit source operand as its 64-bit halves, low half first (R128). -/
def src128 (s : State) (t : Thread) (f : BitVec 9) : Nat × Nat :=
  (readRegs s t f.toNat 2, readRegs s t (f.toNat + 2) 2)

/-! ## What each word declares -/

/-- The static checks of a word: an illegal value in a used sub-field (step 4, 0x01), a non-zero reserved or unused field
(step 5, 0x02), and its operands with any other illegal operand (step 6, 0x03) (R143). -/
structure WordSpec where
  bad : Bool
  reserved : Bool
  opnds : List Opnd
  illegal : Bool
  deriving DecidableEq, Repr

/-- What of T, RND, SAT, FZ and OPX a vector or special word uses (R132, R161). -/
structure Uses where
  /-- the types T may name; empty when T is unused -/
  types : List Ty
  /-- the greatest RND allowed, none when RND is unused -/
  rnd : Option Nat
  sat : Bool
  fz : Bool
  /-- the greatest OPX allowed, 0 when it is unused -/
  opx : Option Nat
  deriving DecidableEq, Repr

/-- A word that uses T alone. -/
def Uses.ty (types : List Ty) : Uses := ⟨types, none, false, false, none⟩

/-- Step 4 for the sub-fields of FUNC. -/
def Uses.bad (u : Uses) (w : RWord) : Bool :=
  (!u.types.isEmpty && (match Ty.ofCode w.tcode with
    | some t => !u.types.contains t
    | none => true))
  || (match u.rnd with
    | some m => m < w.rnd
    | none => false)
  || (match u.opx with
    | some m => m < w.opx
    | none => false)

/-- Step 5 for the sub-fields of FUNC. -/
def Uses.reserved (u : Uses) (w : RWord) : Bool :=
  (u.types.isEmpty && w.tcode ≠ 0) || (u.rnd.isNone && w.rnd ≠ 0) || (!u.sat && w.sat) || (!u.fz && w.fz)
    || (u.opx.isNone && w.opx ≠ 0)

/-- A register-form word of the vector or special class; `zero` lists the fields that must be zero. -/
def vecSpec (u : Uses) (w : RWord) (opnds : List Opnd) (zero : List Nat) (bad illegal : Bool := false) : WordSpec :=
  ⟨u.bad w || bad, u.reserved w || zero.any (· ≠ 0), opnds, illegal⟩

/-- The four integer types of R164. -/
def ints4 : List Ty := [.s32, .n32, .s64, .n64]

/-- The four floating-point types of R168. -/
def floats4 : List Ty := [.f64, .f32, .f16, .bf16]

/-- The 32-bit and 64-bit types. -/
def types3264 : List Ty := [.s32, .n32, .f32, .s64, .n64, .f64]

/-- The types of PACK and UNPACK (R166). -/
def packTypes : List Ty := [.s16, .n16, .f16, .bf16, .s8, .n8, .e5m2, .e4m3, .ds8, .s4, .n4, .e2m1]

/-- Every type of R132. -/
def allTypes : List Ty :=
  [.s8, .s16, .s32, .s64, .n8, .n16, .n32, .n64, .s4, .n4, .f64, .f32, .f16, .bf16, .e5m2, .e4m3, .e2m1, .ds8]

/-- A predicate destination: DST[8:3] zero (R127). -/
def predDst (w : RWord) : Nat := w.dst.toNat / 8

/-- d, a. -/
def spec1 (u : Uses) (w : RWord) : WordSpec :=
  vecSpec u w [dstOp w.dst w.ty.regs, srcOp w.a w.ty] [w.b.toNat, w.c.toNat]

/-- d, a, b. -/
def spec2 (u : Uses) (w : RWord) : WordSpec :=
  vecSpec u w [dstOp w.dst w.ty.regs, srcOp w.a w.ty, srcOp w.b w.ty] [w.c.toNat]

/-- d, a, b, c. -/
def spec3 (u : Uses) (w : RWord) : WordSpec :=
  vecSpec u w [dstOp w.dst w.ty.regs, srcOp w.a w.ty, srcOp w.b w.ty, srcOp w.c w.ty] []

/-- A shift: the amount is an N32 operand (R165). -/
def specShift (types : List Ty) (w : RWord) : WordSpec :=
  vecSpec (.ty types) w [dstOp w.dst w.ty.regs, srcOp w.a w.ty, srcOp w.b .n32] [w.c.toNat]

/-- The registers of an immediate form by IMOD, two for the 64-bit variants (R173). -/
def immRegs (imod : BitVec 2) : Nat := if imod = 0 then 1 else 2

/-- An immediate form with a source (R134, R173). -/
def immSpec (n : Nat) (c : ConstRule) (w : IWord) (bad reserved : Bool) : WordSpec :=
  ⟨bad, reserved, [dstOp w.dst n, ⟨w.a.toNat, n, false, c⟩], false⟩

/-- A cross-lane word: the mask is an even register or an inline constant 448 to 463 (R175). -/
def laneMask (w : RWord) : Opnd := ⟨w.b.toNat, 2, false, .ints⟩

/-- Whether a CVT names a legal pair and rounding (R35, R170). -/
def cvtBad (w : RWord) : Bool :=
  match Ty.ofCode w.tcode, Ty.ofCode (bits w.c.toNat 0 5) with
  | some dt, some st => convKind st dt = .x || (dt = .ds8 && w.rnd ≠ 0)
  | _, _ => true

/-- Registers of the access sizes (R135). -/
def sizeRegs (size : BitVec 3) : Nat := if size = 5 then 2 else if size = 6 then 4 else 1

/-- Bytes of the access sizes (R135). -/
def sizeBytes (size : Nat) : Nat :=
  match size with
  | 0 => 1
  | 1 => 1
  | 2 => 2
  | 3 => 2
  | 4 => 4
  | 5 => 8
  | _ => 16

/-- CTR 6 names no counter (R133). -/
def ctrIllegal (c : Nat) : Bool := c = 6

/-- An M-form load (R190). -/
def loadSpec (w : MWord) : WordSpec :=
  ⟨w.size = 7, w.x, [dstOp w.dst (sizeRegs w.size), regOp w.a 2], 6 ≤ w.scope.toNat || ctrIllegal w.ctr.toNat⟩

/-- The constants a store's data field may hold: integer sizes take integers; SIZE 6 takes none (R129, R192). -/
def storeConst (w : MWord) : ConstRule := if w.size = 6 then .none else .ints

/-- An M-form store (R192). -/
def storeSpec (w : MWord) : WordSpec :=
  ⟨w.size = 7, w.x, [⟨w.dst.toNat, sizeRegs w.size, false, storeConst w⟩, regOp w.a 2],
    6 ≤ w.scope.toNat || ctrIllegal w.ctr.toNat⟩

/-- A register-form word of the memory, control, engine or system class. -/
def regSpec (w : RWord) (opnds : List Opnd) (zero : List Nat) (bad illegal counted : Bool) : WordSpec :=
  ⟨bad, zero.any (· ≠ 0), opnds, illegal || (counted && ctrIllegal w.ctr)⟩

/-- CTR of a word that must not count: 0 to 5 break step 5 and 6 breaks step 6 (R145, R218). -/
def noCounter (w : RWord) : Nat := if w.ctr = 7 || w.ctr = 6 then 0 else 1

/-! ### Paired words (R136 to R138) -/

/-- The sources a compact half reads: two, or one (R137). -/
def Half.sources (h : Half) : List Nat :=
  let o := h.op.toNat
  if o = 0 then [] else if 0x15 ≤ o then [h.a.toNat] else [h.a.toNat, h.b.toNat]

/-- The destination of a compact half; a NOP half has none. -/
def Half.dest (h : Half) : List Nat := if h.op = 0 then [] else [h.d.toNat]

/-- Whether a compact half runs on the special-function path (R137). -/
def Half.isSpecial (h : Half) : Bool := 0x18 ≤ h.op.toNat && h.op.toNat ≤ 0x1D

/-- A NOP half with a register field, or a one-source half with a second source (R138). -/
def Half.reserved (h : Half) : Bool :=
  (h.op = 0 && (h.d ≠ 0 || h.a ≠ 0 || h.b ≠ 0)) || (0x15 ≤ h.op.toNat && h.b ≠ 0)

/-- The operand rules of R138: destinations clash with nothing of the other half, a register shared as a source stands once
in each, and different registers of the two halves never share a bank, shared sources apart. [DEDUCED: log entry 29] -/
def pairIllegal (x y : Half) : Bool :=
  let shared (r : Nat) : Bool := x.sources.contains r && y.sources.contains r
  (x.dest.any fun d => (y.dest ++ y.sources).contains d)
  || (y.dest.any fun d => x.sources.contains d)
  || (x.sources.any fun r => shared r && (1 < x.sources.count r || 1 < y.sources.count r))
  || ((x.dest ++ x.sources).any fun a => (y.dest ++ y.sources).any fun b =>
      a ≠ b && a % 4 = b % 4 && !shared a && !shared b)

/-- The checks of a paired word (R138). -/
def pairSpec (w : PWord) : WordSpec :=
  ⟨0x1E ≤ w.ha.op.toNat || 0x1E ≤ w.hb.op.toNat || (w.ha.isSpecial && w.hb.isSpecial),
    w.ha.reserved || w.hb.reserved,
    (w.ha.dest ++ w.hb.dest).map (fun r => ⟨r, 1, true, .none⟩)
      ++ (w.ha.sources ++ w.hb.sources).map (fun r => ⟨r, 1, false, .none⟩),
    pairIllegal w.ha w.hb⟩

/-- The integer width code of ATOM and WAIT: N32, S32, N64, S64. -/
def atomTy (code : Nat) : Ty :=
  match code with
  | 0 => .n32
  | 1 => .s32
  | 2 => .n64
  | _ => .s64

/-- Everything the static checks of R143 look at, for every instruction word. An event has nothing to check.
[DESIGN CHOICE: log entry 115] -/
def Instr.spec : Instr → WordSpec
  | .nop _ => ⟨false, false, [], false⟩
  | .mov w => spec1 (.ty types3264) w
  | .sel w => vecSpec (.ty types3264) w [dstOp w.dst w.ty.regs, srcOp w.a w.ty, srcOp w.b w.ty] [w.c.toNat / 16]
  | .iadd w => spec2 ⟨ints4, none, true, false, none⟩ w
  | .isub w => spec2 ⟨ints4, none, true, false, none⟩ w
  | .imul w => spec2 ⟨ints4, none, true, false, none⟩ w
  | .imulhi w => spec2 (.ty ints4) w
  | .imad w => spec3 ⟨ints4, none, true, false, none⟩ w
  | .imin w => spec2 (.ty ints4) w
  | .imax w => spec2 (.ty ints4) w
  | .iabs w => spec1 ⟨[.s32, .s64], none, true, false, none⟩ w
  | .ineg w => spec1 ⟨ints4, none, true, false, none⟩ w
  | .lea w => vecSpec (.ty [.s32, .n32]) w [dstOp w.dst 2, srcOp w.a .n64, srcOp w.b .n32] [w.c.toNat / 16]
  | .popc w => vecSpec (.ty [.n32, .n64]) w [dstOp w.dst 1, srcOp w.a w.ty] [w.b.toNat, w.c.toNat]
  | .clz w => vecSpec (.ty [.n32, .n64]) w [dstOp w.dst 1, srcOp w.a w.ty] [w.b.toNat, w.c.toNat]
  | .brev w => spec1 (.ty [.n32, .n64]) w
  | .and w => spec2 (.ty [.n32, .n64]) w
  | .or w => spec2 (.ty [.n32, .n64]) w
  | .xor w => spec2 (.ty [.n32, .n64]) w
  | .not w => spec1 (.ty [.n32, .n64]) w
  | .andn w => spec2 (.ty [.n32, .n64]) w
  | .shl w => specShift [.n32, .n64] w
  | .shr w => specShift ints4 w
  | .rotl w => specShift [.n32, .n64] w
  | .fadd w => spec2 ⟨floats4, some 4, true, true, none⟩ w
  | .fsub w => spec2 ⟨floats4, some 4, true, true, none⟩ w
  | .fmul w => spec2 ⟨floats4, some 4, true, true, none⟩ w
  | .ffma w => spec3 ⟨floats4, some 4, true, true, none⟩ w
  | .fmin w => spec2 (.ty floats4) w
  | .fmax w => spec2 (.ty floats4) w
  | .fminn w => spec2 (.ty floats4) w
  | .fmaxn w => spec2 (.ty floats4) w
  | .fabs w => spec1 (.ty floats4) w
  | .fneg w => spec1 (.ty floats4) w
  | .fcsgn w => spec2 (.ty floats4) w
  | .cvt w => vecSpec ⟨allTypes, some 4, true, true, none⟩ w
      [dstOp w.dst w.ty.regs, srcOp w.a ((Ty.ofCode (bits w.c.toNat 0 5)).getD .n32)] [w.b.toNat, w.c.toNat / 32] (cvtBad w)
  | .pack w => vecSpec (.ty packTypes) w [dstOp w.dst 1, regOp w.dst 1, srcOp w.a w.ty, srcOp w.b .n32] [w.c.toNat]
  | .unpack w => vecSpec (.ty packTypes) w [dstOp w.dst 1, srcOp w.a .n32, srcOp w.b .n32] [w.c.toNat]
  | .icmp w => vecSpec (.ty ints4) w [srcOp w.a w.ty, srcOp w.b w.ty] [predDst w, w.c.toNat / 8] (6 ≤ bits w.c.toNat 0 3)
  | .fcmp w => vecSpec (.ty floats4) w [srcOp w.a w.ty, srcOp w.b w.ty] [predDst w, w.c.toNat / 8]
  | .fclass w => vecSpec (.ty [.f64, .f32, .f16, .bf16, .e5m2, .e4m3]) w [srcOp w.a w.ty] [predDst w, w.b.toNat]
  | .plop w => vecSpec ⟨[], none, false, false, some 2⟩ w [] [predDst w, w.a.toNat / 16, w.b.toNat / 16, w.c.toNat]
  | .pget w => vecSpec (.ty []) w [dstOp w.dst 1] [w.a.toNat, w.b.toNat, w.c.toNat]
  | .pset w => vecSpec (.ty []) w [srcOp w.a .n32] [w.dst.toNat, w.b.toNat, w.c.toNat]
  | .iaddImm m w => immSpec (immRegs m) .ints w (m = 3) false
  | .imulImm m w => immSpec (immRegs m) .ints w (m = 3) false
  | .andImm w => immSpec 1 .ints w false false
  | .orImm w => immSpec 1 .ints w false false
  | .xorImm w => immSpec 1 .ints w false false
  | .andnImm w => immSpec 1 .ints w false false
  | .movImm m w => ⟨m = 3, w.a ≠ 0, [dstOp w.dst (immRegs m)], false⟩
  | .faddImm _ w => immSpec 1 .all w false false
  | .fmulImm _ w => immSpec 1 .all w false false
  | .shlImm w => immSpec 1 .ints w false (32 ≤ w.imm.toNat)
  | .shrN32Imm w => immSpec 1 .ints w false (32 ≤ w.imm.toNat)
  | .shrS32Imm w => immSpec 1 .ints w false (32 ≤ w.imm.toNat)
  | .rotlImm w => immSpec 1 .ints w false (32 ≤ w.imm.toNat)
  | .pairedWord w => pairSpec w
  | .exp2 w => spec1 ⟨[.f32], some 0, false, true, none⟩ w
  | .log2 w => spec1 ⟨[.f32], some 0, false, true, none⟩ w
  | .rcp w => spec1 ⟨[.f32], some 0, false, true, none⟩ w
  | .rsq w => spec1 ⟨[.f32], some 0, false, true, none⟩ w
  | .sin w => spec1 ⟨[.f32], some 0, false, true, none⟩ w
  | .cos w => spec1 ⟨[.f32], some 0, false, true, none⟩ w
  | .xshfl w => vecSpec ⟨types3264, none, false, false, some 3⟩ w
      [dstOp w.dst w.ty.regs, srcOp w.a w.ty, laneMask w, srcOp w.c .n32] []
  | .xbcast w => vecSpec (.ty types3264) w [dstOp w.dst w.ty.regs, srcOp w.a w.ty, laneMask w, srcOp w.c .n32] []
  | .xvote w => vecSpec ⟨[], none, false, false, some 2⟩ w [laneMask w] [predDst w, w.a.toNat, w.c.toNat / 16]
  | .xballot w => vecSpec (.ty []) w [dstOp w.dst 2, laneMask w] [w.a.toNat, w.c.toNat / 16]
  | .xscan w =>
    let fp := w.ty.fmt?.isSome
    let op := bits w.c.toNat 0 3
    let add := fp && op = 0
    vecSpec ⟨ints4 ++ [.f32, .f64], if add then some 4 else none, false, add, some 1⟩ w
      [dstOp w.dst w.ty.regs, srcOp w.a w.ty, laneMask w] [w.c.toNat / 8] (6 ≤ op || (fp && 2 < op))
  | .xred w =>
    let fp := w.ty.fmt?.isSome
    let op := bits w.c.toNat 0 3
    let pair := w.ty = .f32 && op = 0 && w.opx = 1
    vecSpec ⟨ints4 ++ [.f32, .f64], some 0, false, true, some 1⟩ w
      [dstOp w.dst (if pair then 2 else w.ty.regs), srcOp w.a w.ty, laneMask w] [w.c.toNat / 8]
      (6 ≤ op || w.fz || (w.opx = 1 && !pair) || (fp && (2 < op || (op = 0 && w.ty = .f64))))
  | .bra m w => ⟨false, w.dst ≠ 0 || w.a ≠ 0 || m ≠ 0, [], false⟩
  | .call m w => ⟨false, w.a ≠ 0 || m ≠ 0, [dstOp w.dst 2], 384 ≤ w.dst.toNat⟩
  | .brx w => regSpec w [regOp w.a 2] [w.dst.toNat, w.b.toNat, w.c.toNat, w.func.toNat] false false false
  | .ret w => regSpec w [regOp w.a 2] [w.dst.toNat, w.b.toNat, w.c.toNat, w.func.toNat] false false false
  | .exit w => regSpec w [] [w.dst.toNat, w.a.toNat, w.b.toNat, w.c.toNat, w.func.toNat] false false false
  | .spawn w => regSpec w [regOp w.a 2, srcOp w.b .n32] [w.dst.toNat, w.c.toNat, w.fbits 4 9] false false true
  | .yield w => regSpec w [] [w.dst.toNat, w.a.toNat, w.b.toNat, w.c.toNat, w.func.toNat] false false false
  | .barArrive w => regSpec w [dstOp w.dst 1] [w.a.toNat, w.b.toNat, w.func.toNat] false
      (bits w.c.toNat 5 2 = 0 || bits w.c.toNat 5 2 = 2) false
  | .barArriveb w => regSpec w [dstOp w.dst 1, srcOp w.a .n32] [w.b.toNat, w.func.toNat] false
      (bits w.c.toNat 5 2 < 2) false
  | .barWait w => regSpec w [srcOp w.a .n32] [w.dst.toNat, w.b.toNat, w.func.toNat, bits w.c.toNat 5 2] false false false
  | .claim w => regSpec w [] [w.dst.toNat, w.a.toNat, w.b.toNat, w.func.toNat] (w.guard ≠ Guard.always)
      (w.c.toNat = 0 || w.c.toNat % 8 ≠ 0) false
  | .release w => regSpec w [] [w.dst.toNat, w.a.toNat, w.b.toNat, w.func.toNat] (w.guard ≠ Guard.always)
      (w.c.toNat = 0 || w.c.toNat % 8 ≠ 0) false
  | .ldCa w => loadSpec w
  | .ldCg w => loadSpec w
  | .ldLu w => loadSpec w
  | .ldCaAcq w => loadSpec w
  | .ldCgAcq w => loadSpec w
  | .st w => storeSpec w
  | .stRel w => storeSpec w
  | .ldt w => regSpec w [regOp w.a 2, regOp w.b 2, regOp w.c 2] [w.dst.toNat, w.fbits 4 5] false
      (!([1, 3, 4].contains (w.fbits 10 3))) true
  | .stt w => regSpec w [regOp w.a 2, regOp w.b 2, regOp w.c 2] [w.dst.toNat, w.fbits 4 5] false
      (!([1, 3, 4].contains (w.fbits 10 3))) true
  | .ldfe w => ⟨w.size = 7, w.scope ≠ 0, [dstOp w.dst (sizeRegs w.size), regOp w.a 2], ctrIllegal w.ctr.toNat⟩
  | .stfe w => ⟨w.size = 7, w.scope ≠ 0 || w.x, [⟨w.dst.toNat, sizeRegs w.size, false, storeConst w⟩, regOp w.a 2],
      ctrIllegal w.ctr.toNat⟩
  | .disc w => regSpec w [regOp w.a 2, srcOp w.b .n32] [w.dst.toNat, w.c.toNat, w.fbits 4 9] false false true
  | .pref w => ⟨2 ≤ w.size.toNat, w.dst ≠ 0 || w.scope ≠ 0 || w.x, [regOp w.a 2], ctrIllegal w.ctr.toNat⟩
  | .atom w =>
    let op := w.fbits 10 3
    let ty := atomTy (w.fbits 8 2)
    let nr := w.fbits 4 1 = 1
    regSpec w ([regOp w.a 2] ++ (if nr then [] else [dstOp w.dst ty.regs])
        ++ [if op = 7 then regOp w.b (2 * ty.regs) else ⟨w.b.toNat, ty.regs, false, .ints⟩])
      [w.c.toNat / 8, w.fbits 5 1, if nr then w.dst.toNat else 0] false (6 ≤ bits w.c.toNat 0 3) true
  | .atomFadd w =>
    let f64 := w.fbits 8 2 = 1
    let nr := w.fbits 4 1 = 1
    regSpec w ([regOp w.a 2] ++ (if nr then [] else [dstOp w.dst (if f64 then 2 else 1)])
        ++ [srcOp w.b (if f64 then .f64 else .f32)])
      [w.c.toNat / 8, w.fbits 5 1, w.fbits 10 3, if nr then w.dst.toNat else 0] (2 ≤ w.fbits 8 2)
      (6 ≤ bits w.c.toNat 0 3) true
  | .ctb w => regSpec w [srcOp w.a .n32, srcOp w.b .n64, if w.fbits 4 2 = 1 then regOp w.c 2 else srcOp w.c .f32]
      [w.dst.toNat, w.fbits 6 7] (2 ≤ w.fbits 4 2) false true
  | .ctbseal w => regSpec w [srcOp w.a .n32] [w.dst.toNat, w.b.toNat, w.c.toNat, w.fbits 4 9] false false true
  | .fence w => regSpec w [] [w.dst.toNat, w.a.toNat, w.b.toNat, w.c.toNat / 64, noCounter w] false
      (6 ≤ w.fbits 10 3) true
  | .wait w => regSpec w [dstOp w.dst (atomTy (w.fbits 11 2)).regs, regOp w.a 2, srcOp w.b (atomTy (w.fbits 11 2))]
      [w.c.toNat / 64, w.fbits 4 6] (6 ≤ bits w.c.toNat 0 3)
      (bits w.c.toNat 3 3 = 0 || 6 ≤ bits w.c.toNat 3 3) true
  | .trap w => regSpec w [] [w.dst.toNat, w.a.toNat, w.b.toNat, w.func.toNat, w.c.toNat / 256] false false false
  | .sysret w => regSpec w ([regOp w.a 2] ++ if bits w.c.toNat 0 2 = 3 then [regOp w.b 2] else [])
      [w.dst.toNat, w.c.toNat / 4, w.func.toNat, if bits w.c.toNat 0 2 = 3 then 0 else w.b.toNat] false false false
  | .srd w => regSpec w [dstOp w.dst (if [0, 3, 4, 6, 9].contains (bits w.c.toNat 0 8) then 2 else 1)]
      [w.a.toNat, w.b.toNat, w.func.toNat, w.c.toNat / 256] false
      (!(bits w.c.toNat 0 8 ≤ 0x0B || bits w.c.toNat 0 8 = 0x40 || bits w.c.toNat 0 8 = 0x41)) false
  | .swr w => regSpec w [srcOp w.a .n32] [w.dst.toNat, w.b.toNat, w.func.toNat, w.c.toNat / 256] false
      (!(bits w.c.toNat 0 8 = 0x40 || bits w.c.toNat 0 8 = 0x41)) false
  | .rinv w => regSpec w [regOp w.a 2, regOp w.b 2, regOp w.c 2] [w.dst.toNat, w.fbits 4 9] false false true
  | .mmul w => regSpec w [dstOp w.dst 1, regOp w.a 4, regOp w.b 2, srcOp w.c .n32] [] false false true
  | .mmerge w => regSpec w [dstOp w.dst 1, srcOp w.b .n32] [w.a.toNat, w.fbits 4 5] false false true
  | .mdrain w =>
    let plain := bits w.c.toNat 0 3 < 3
    regSpec w [dstOp w.dst 1, regOp w.a 2, srcOp w.b .n32]
      [w.c.toNat / 256, w.fbits 4 5, if plain then bits w.c.toNat 3 4 else 0]
      (bits w.c.toNat 0 3 = 7 || 5 ≤ bits w.c.toNat 3 3) false true
  | .mcfg w => regSpec w [srcOp w.a .n64] [w.dst.toNat, w.b.toNat, w.fbits 4 9, noCounter w] false false true
  | .cpy w => regSpec w [regOp w.a 4, srcOp w.b .n32] [w.dst.toNat, w.c.toNat / 64, w.fbits 4 9] false false true
  | .cpyt w => regSpec w [regOp w.a 4, regOp w.b 4] [w.dst.toNat, w.c.toNat / 64, w.fbits 4 9] false false true
  | .fsend w => regSpec w [regOp w.a 4, regOp w.b 2] [w.dst.toNat, w.c.toNat, w.fbits 10 3, w.fbits 4 5] false false true
  | .fmcast w => regSpec w [regOp w.a 4, regOp w.b 2] [w.dst.toNat, w.c.toNat, w.fbits 10 3, w.fbits 4 1] false false true
  | .fred w => regSpec w [regOp w.a 4, regOp w.b 2, srcOp w.c .n32] [w.dst.toNat, w.fbits 4 5]
      (4 ≤ w.fbits 10 3 || w.fbits 9 1 = 1) false true
  | .fsparse w => regSpec w [regOp w.a 4, regOp w.b 2, srcOp w.c .n32] [w.dst.toNat, w.fbits 10 3, w.fbits 4 5]
      (w.fbits 9 1 = 1) false true
  | .rgres w => regSpec w [dstOp w.dst 2, regOp w.a 2] [w.b.toNat, w.c.toNat, w.fbits 4 9] false false true
  | .rgpub w => regSpec w [regOp w.a 2, srcOp w.b .n64] [w.dst.toNat, w.c.toNat, w.fbits 4 9] false false true
  | .rgtake w => regSpec w [dstOp w.dst 2, regOp w.a 2] [w.b.toNat, w.c.toNat, w.fbits 4 9] false false true
  | .rgdone w => regSpec w [regOp w.a 2, srcOp w.b .n64] [w.dst.toNat, w.c.toNat, w.fbits 4 9] false false true
  | .nrec w => regSpec w [regOp w.a 2, regOp w.b 4] [w.dst.toNat, w.c.toNat, w.fbits 4 9] false false true
  | .bwpush w => regSpec w [regOp w.a 2, srcOp w.b .n64] [w.dst.toNat, w.c.toNat, w.fbits 4 9] false false true
  | .wver w => regSpec w [srcOp w.a .n32] [w.dst.toNat, w.b.toNat, w.c.toNat / 8, w.fbits 4 9, noCounter w] false false true
  | .mbsend w => regSpec w [dstOp w.dst 1, regOp w.a 2, srcOp w.b .n32] [w.c.toNat, w.fbits 4 9] false false true
  | .mbrecv w => regSpec w [dstOp w.dst 2, regOp w.a 2, srcOp w.b .n32] [w.c.toNat, w.fbits 4 9] false false true
  | _ => ⟨false, false, [], false⟩

/-- The cause of the first failing static check of R143 steps 4 to 6 that does not depend on the thread. -/
def Instr.staticCause (i : Instr) : Option Nat :=
  let p := i.spec
  if p.bad then some 0x01
  else if p.reserved then some 0x02
  else if p.illegal || p.opnds.any (·.illegal) then some 0x03
  else none

/-- The registers a word names, sources or destinations (R44, R61, R73). -/
def Instr.regs (i : Instr) (write : Bool) : List Nat := (i.spec.opnds.filter (·.write = write)).flatMap (·.regs)

/-- The guard of a word; a paired word is unpredicated, and NOP ignores its guard (R130, R136, R166). -/
def Instr.guard (i : Instr) : Guard :=
  match i, encode i with
  | .nop _, _ => Guard.always
  | .pairedWord _, _ => Guard.always
  | _, some (_, w) => Guard.decode w
  | _, none => Guard.always

/-- The words that stand last in their clause: transfer words, then blocking words (R141). -/
def Instr.isTransfer : Instr → Bool
  | .bra _ _ => true
  | .brx _ => true
  | .call _ _ => true
  | .ret _ => true
  | .exit _ => true
  | .trap _ => true
  | .sysret _ => true
  | _ => false

/-- The blocking words of R141. -/
def Instr.isBlocking : Instr → Bool
  | .barArrive _ => true
  | .barArriveb _ => true
  | .barWait _ => true
  | .claim _ => true
  | .release _ => true
  | .wait _ => true
  | .ldfe _ => true
  | .xshfl _ => true
  | .xbcast _ => true
  | .xvote _ => true
  | .xballot _ => true
  | .xscan _ => true
  | .xred _ => true
  | _ => false

end Sys2Proof
end

