-- ==== Sys2Proof/Machine/Walks.lean ====
section
/-! DEFINITION. The virtual addresses that a word translates, and the walks that wait for a held bank (spec/15_ops_memory.md R190, R194;
spec/25_faults_reliability.md R302, R320). -/

namespace Sys2Proof.Machine

/-- ea = (A + sext(OFF)) mod 2^64 (R190). -/
def effectiveVa (s : State) (t : Thread) (w : MWord) : Nat := wrap 64 ((src64 s t w.a : Int) + signed 20 w.off.toNat)

/-- The shape word of a tile (R194): element size, rows, row bytes, stride. -/
structure TileShape where
  es : Nat
  rows : Nat
  rowBytes : Nat
  stride : Int
  deriving DecidableEq, Repr

/-- Reads a shape word; none outside its limits. -/
def TileShape.decode (x : Nat) : Option TileShape :=
  let es := 2 ^ bits x 46 2
  let rb := bits x 32 8 + 1
  if bits x 48 16 ≠ 0 || rb % es ≠ 0 then none else some ⟨es, bits x 40 6 + 1, rb, signed 32 x⟩

/-- The start of row k of a tile. -/
def TileShape.row (sh : TileShape) (a k : Nat) : Nat := wrap 64 ((a : Int) + k * sh.stride)

/-! ## Fields of the configuration record (R112) -/

def MatrixCfg.m (c : MatrixCfg) : Nat := bits c.sel0.toNat 0 8
def MatrixCfg.n (c : MatrixCfg) : Nat := bits c.sel0.toNat 8 8
def MatrixCfg.afmt (c : MatrixCfg) : Nat := bits c.sel1.toNat 0 4
def MatrixCfg.bfmt (c : MatrixCfg) : Nat := bits c.sel1.toNat 4 4
def MatrixCfg.ascale (c : MatrixCfg) : Nat := bits c.sel1.toNat 8 8
def MatrixCfg.bscale (c : MatrixCfg) : Nat := bits c.sel1.toNat 16 8
def MatrixCfg.astride (c : MatrixCfg) : Nat := bits c.sel2.toNat 0 32
def MatrixCfg.bstride (c : MatrixCfg) : Nat := bits c.sel2.toNat 32 32
def MatrixCfg.atrans (c : MatrixCfg) : Bool := bit c.sel3.toNat 0
def MatrixCfg.btrans (c : MatrixCfg) : Bool := bit c.sel3.toNat 1

/-- The start of a drain's row. [DEDUCED: log entry 65] -/
def drainRow (a : Nat) (c : MatrixCfg) (i : Nat) : Nat := low 64 (a + i * c.bstride)

/-- The parts of a range of bytes in each page that it touches: address and length. -/
def rangePages (va n : Nat) : List (Nat × Nat) :=
  if n = 0 then []
  else (List.range (ceilDiv (va % 65536 + n) 65536)).map fun i =>
    let lo := max va ((va / 65536 + i) * 65536)
    (lo, min (va + n) ((va / 65536 + i + 1) * 65536) - lo)

/-- The ranges of the rows of a tile. -/
def tileRanges (a shape : Nat) : List (Nat × Nat) :=
  match TileShape.decode shape with
  | none => []
  | some sh => (List.range sh.rows).map fun k => (sh.row a k, sh.rowBytes)

/-- The first bytes of the rows of an operand in memory. -/
def strideRanges (a stride n : Nat) : List (Nat × Nat) := (List.range n).map fun i => (low 64 (a + i * stride), 1)

/-- The ranges that a word of a thread translates: what it reads, writes or watches. -/
def wordRanges (s : State) (t : Thread) : Instr → List (Nat × Nat)
  | .ldCa w => [(effectiveVa s t w, 1)]
  | .ldCg w => [(effectiveVa s t w, 1)]
  | .ldLu w => [(effectiveVa s t w, 1)]
  | .ldCaAcq w => [(effectiveVa s t w, 1)]
  | .ldCgAcq w => [(effectiveVa s t w, 1)]
  | .st w => [(effectiveVa s t w, 1)]
  | .stRel w => [(effectiveVa s t w, 1)]
  | .ldfe w => [(effectiveVa s t w, 1)]
  | .stfe w => [(effectiveVa s t w, 1)]
  | .pref w => [(effectiveVa s t w, 1)]
  | .ldt w => tileRanges (src64 s t w.a) (src64 s t w.c)
  | .stt w => tileRanges (src64 s t w.a) (src64 s t w.c)
  | .disc w => [(src64 s t w.a, src64 s t w.b)]
  | .atom w => [(src64 s t w.a, 1)]
  | .atomFadd w => [(src64 s t w.a, 1)]
  | .wait w => [(src64 s t w.a, 1)]
  | .rinv w => [(src64 s t w.c, 1)]
  | .mmul w =>
    let cfg := ((groupOf s t).map (·.cfg)).getD MatrixCfg.reset
    let k := src64 s t w.b
    let (a, b) := src128 s t w.a
    strideRanges (a + (if cfg.atrans then bits k 0 32 * cfg.astride else 0)) cfg.astride (if cfg.atrans then bits k 32 13 + 1 else cfg.m)
      ++ strideRanges (b + (if cfg.btrans then 0 else bits k 0 32 * cfg.bstride)) cfg.bstride (if cfg.btrans then cfg.n else bits k 32 13 + 1)
  | .mdrain w =>
    let cfg := ((groupOf s t).map (·.cfg)).getD MatrixCfg.reset
    (List.range cfg.m).map fun i => (drainRow (src64 s t w.a) cfg i, 8 * cfg.n)
  | .cpy w =>
    let (d, a) := src128 s t w.a
    [(d, src32 s t w.b), (a, src32 s t w.b)]
  | .cpyt w =>
    let (d, a) := src128 s t w.a
    let (shape, dw) := src128 s t w.b
    tileRanges a shape ++ (tileRanges d shape).mapIdx fun k r => (wrap 64 ((d : Int) + (k : Int) * signed 32 dw), r.2)
  | .fsend w => [((src128 s t w.a).1, bits (src64 s t w.b) 0 32)]
  | .fmcast w => [((src128 s t w.a).1, bits (src64 s t w.b) 0 32), ((src128 s t w.a).2, 8 * (w.fbits 5 4 + 1))]
  | .fred w => [((src128 s t w.a).1, bits (src64 s t w.b) 0 32)]
  | .fsparse w => [((src128 s t w.a).1, bits (src64 s t w.b) 0 32)]
  | .rgres w => [(src64 s t w.a, 64)]
  | .rgpub w => [(src64 s t w.a, 64)]
  | .rgtake w => [(src64 s t w.a, 64)]
  | .rgdone w => [(src64 s t w.a, 64)]
  | .mbsend w => [(src64 s t w.a, 256)]
  | .mbrecv w => [(src64 s t w.a, 256)]
  | _ => []

/-- A walk of a die for a context reads table entries in a held bank: it waits (R302, R320). -/
def walkWaits (s : State) (die ctx va : Nat) : Bool :=
  (walkReads s die va 5 0 (rootOf s ctx)).any (bankHeld s)

/-- The translation of an address of a thread waits: no cached leaf serves it, and its walk waits. -/
def translationWaits (s : State) (t : Thread) (va : Nat) : Bool :=
  let die := dieOfCore (coreOf s t)
  va < apertureBase && !(((tget die s.tlb).getD []).any fun e => e.ctx = t.ctx && e.va ≤ va && va < e.va + e.size)
    && walkWaits s die t.ctx va

/-- Whether a word reads its ranges as it issues: the sources of fabric commands and of MBSEND. -/
def readsAtIssue : Instr → Bool
  | .fsend _ => true
  | .fmcast _ => true
  | .fred _ => true
  | .fsparse _ => true
  | .mbsend _ => true
  | _ => false

/-- Part of a page that a thread reads lies in a held bank (R320). -/
def sourceWaits (s : State) (t : Thread) (va n : Nat) : Bool :=
  match resolve s (dieOfCore (coreOf s t)) t.ctx t.team ⟨true, false, false, t.sys⟩ va with
  | .ok tgt => banksHeld s tgt n
  | .error _ => false

end Sys2Proof.Machine
end

