-- ==== Sys2Proof/Machine/Issue.lean ====
section
/-! DEFINITION. The issue of one word: holds, the checks of R143, and the end of a word and of its clause. Every instruction's
meaning is `issueWord` with its own latency, hold and effect (R55 to R62, R143, R161, R162). -/

namespace Sys2Proof.Machine

/-! ## Pending writes (R60, R61) -/

/-- The registers a write covers, as (thread, register) for v registers. -/
def RegWrite.hits (w : RegWrite) (t : Thread) (k r : Nat) : Bool :=
  match w with
  | RegWrite.v th reg _ => th = k && reg = r
  | RegWrite.g grp reg _ => t.group = some grp && reg + 384 = r
  | RegWrite.p _ _ _ => false
  | RegWrite.version _ _ => false

/-- A write into a predicate of a thread. -/
def RegWrite.hitsPred (w : RegWrite) (k p : Nat) : Bool :=
  match w with
  | .p th pr _ => th = k && pr = p
  | _ => false

/-- A register has a pending fixed-latency write. -/
def pendingFixed (s : State) (k : Nat) (t : Thread) (r : Nat) : Bool :=
  s.fixed.any fun f => f.2.writes.any fun w => w.hits t k r

/-- A predicate has a pending fixed-latency write. -/
def pendingPred (s : State) (k p : Nat) : Bool :=
  s.fixed.any fun f => f.2.writes.any fun w => w.hitsPred k p

/-- The predicates a word writes (R127, R166, R167, R178). -/
def predWrites (i : Instr) : List Nat :=
  match i with
  | .icmp w => [bits w.dst.toNat 0 3]
  | .fcmp w => [bits w.dst.toNat 0 3]
  | .fclass w => [bits w.dst.toNat 0 3]
  | .plop w => [bits w.dst.toNat 0 3]
  | .pset _ => [0, 1, 2, 3, 4, 5, 6, 7]
  | .xvote w => [bits w.dst.toNat 0 3]
  | _ => []

/-- Registers from a destination, if there is one. -/
def regsFrom (dst : Option Nat) (n : Nat) : List Nat :=
  match dst with
  | some d => (List.range n).map (d + ·)
  | none => []

/-- The registers of a thread that an operation in progress will write. -/
def Op.pendingDst (o : Op) (k : Nat) : List Nat :=
  match o with
  | .load o =>
    o.members.flatMap fun m => if m.thread = k && !m.done then regsFrom m.dst ((sizeBytes o.size + 3) / 4) else []
  | .atom o =>
    let n := if o.fadd then (if o.ty = 1 then 2 else 1) else if 2 ≤ o.ty then 2 else 1
    o.members.flatMap fun m => if m.thread = k then regsFrom m.dst n else []
  | .wait o => if o.c.thread = k then regsFrom o.dst (if 2 ≤ o.ty then 2 else 1) else []
  | .granule o => if o.c.thread = k then regsFrom o.dst ((sizeBytes o.size + 3) / 4) else []
  | .ring o => if o.c.thread = k then regsFrom o.dst 2 else []
  | .send o => if o.c.thread = k then regsFrom o.dst 1 else []
  | .recv o => if o.c.thread = k then regsFrom o.dst 2 else []
  | _ => []

/-- A register has a pending variable-latency write. -/
def pendingVariable (s : State) (k r : Nat) : Bool :=
  if r < 384 then s.ops.any fun e => (e.2.pendingDst k).contains r
  else
    match (tget k s.threads).bind (·.group) with
    | some g => (groupThreads s g).any fun m => s.ops.any fun e => (e.2.pendingDst m.1).contains r
    | none => false

/-- The predicates a word reads beside its guard (R166, R167, R178). -/
def predReads (i : Instr) : List Nat :=
  match i with
  | .sel w => [bits w.c.toNat 0 3]
  | .plop w => [bits w.a.toNat 0 3, bits w.b.toNat 0 3]
  | .pget _ => [0, 1, 2, 3, 4, 5, 6, 7]
  | .xvote w => [bits w.c.toNat 0 3]
  | .xballot w => [bits w.c.toNat 0 3]
  | _ => []

/-- The physical address of a register row (R19). -/
def rowPa (row : Nat × Nat × Nat × Nat) : Nat :=
  onchipPa row.1 (0x400000 + row.2.1 * 0x40000 + row.2.2.1 * 0x1000 + row.2.2.2 * 4)

/-- A row that a copy has locked: the entry of the copy in the range-lock table of the row's core (R73, R297). -/
def rowLock (s : State) (row : Nat × Nat × Nat × Nat) : Option Nat :=
  (s.rowLocks.find? fun l => l.1 = row.1 && l.2.1 = row.2.1 && l.2.2.1 = row.2.2.1 && l.2.2.2.1 = row.2.2.2).map fun l =>
    (((tgetD row.1 [] s.rangeLocks).find? fun e => e.2.owner / 64 = l.2.2.2.2).map (·.1)).getD 0

/-! ## Holds -/

/-- LOOK: words at the named positions have not yet written (R60). -/
def lookHold (s : State) (w : Issuing) (i : Instr) : Bool :=
  let k := i.look
  k ≠ 0 && s.fixed.any fun f =>
    f.2.port = portKey w.core w.bay w.port && f.2.pos < w.pos && (f.2.pos + k ≤ w.pos || w.pos < k)

/-- A write into one of the registers or predicates after `lat` clk would land before an older pending write of some thread (R60). -/
def orderHold (s : State) (ks dst preds : List Nat) (lat : Nat) : Bool :=
  !(dst.isEmpty && preds.isEmpty) && ks.any fun k => match tget k s.threads with
    | none => false
    | some t =>
      (s.fixed.any fun f => s.clk + lat < f.2.due && f.2.writes.any fun x =>
        (dst.any fun r => x.hits t k r) || preds.any fun p => x.hitsPred k p)
        || dst.any fun r => pendingVariable s k r

/-- The other vector port of a vector port. -/
def otherVector : Port → Option Port
  | .va => some .vb
  | .vb => some .va
  | _ => none

/-- A paired word issues only on a clk on which the other vector port issues no word (R56). -/
def pairHold (s : State) (w : Issuing) (i : Instr) : Bool :=
  match otherVector w.port with
  | none => false
  | some p =>
    match tget (portKey w.core w.bay p) s.ports with
    | none => false
    | some o =>
      o.issuedAt = s.clk + 1 && (o.paired || match i with
        | .pairedWord _ => true
        | _ => false)

/-- The operations that hold a thread's later memory and engine words: fences, and acquires not yet returned (R95, R203). -/
def Op.holds (o : Op) (k : Nat) : Bool :=
  match o with
  | .fence o => o.thread = k
  | .load o => o.acq && o.members.any fun m => m.thread = k && !m.done
  | .atom o => o.acq && o.members.any fun m => m.thread = k
  | .tile o => !o.storing && o.ord && o.c.thread = k
  | .recv o => o.c.thread = k
  | .ring o => o.c.thread = k
  | _ => false

/-- A member's fence or acquire holds the word (R203). -/
def fenceHold (s : State) (w : Issuing) : Bool := w.members.any fun k => s.ops.any fun e => e.2.holds k

/-- A load of the bay has requests that wait for miss-status entries (R85). [DESIGN CHOICE: log entry 46] -/
def coalescerHold (s : State) (w : Issuing) : Bool :=
  s.ops.any fun e => match e.2 with
    | .load o => o.core = w.core && o.reqs.any (!·.sent) && (o.members.any fun m =>
        match tget m.thread s.threads with
        | some t => ((groupOf s t).map (·.bay)) = some w.bay
        | none => false)
    | _ => false

/-- A test of a member's CTB has not returned: fetch is stopped (R62, R201). -/
def testHold (s : State) (k : Nat) : Bool := s.ops.any fun e => match e.2 with
  | .ctb o => o.c.thread = k && !o.tested
  | _ => false

/-- The counter would rise above 63 (R57). -/
def counterHold (s : State) (ks : List Nat) (ctr : Nat) : Bool :=
  ctr < 6 && ks.any fun k => match tget k s.threads with
    | some t => 63 ≤ tgetD ctr 0 t.ctrs
    | none => false

/-- A stepped member has not yet taken its trap (R163). -/
def stepHold (s : State) (w : Issuing) : Bool :=
  w.members.any fun k => match tget k s.threads with
    | some t => t.deferred.any (·.cause = 0x71)
    | none => false

/-! ## Checks that depend on the thread (R44, R61, R73, R143, R316) -/

/-- A register the word names lies beyond the thread's allocation (R44). -/
def beyondAllocation (s : State) (i : Instr) (t : Thread) : Bool :=
  match groupOf s t with
  | some g => (i.regs true ++ i.regs false).any fun r => !allocated g r
  | none => false

/-- Whether the checking scoreboard is on for a thread (R61, R215). -/
def checking (s : State) (t : Thread) : Bool := ((tget t.ctx s.contexts).map (·.schk)).getD false

/-- The guard reads a predicate with a pending write, with the checking scoreboard on (R61, R130): the word reads its guard for
every thread, whichever way it falls. [DEDUCED: log entry 28] -/
def guardPending (s : State) (i : Instr) (k : Nat) (t : Thread) : Bool :=
  checking s t && i.guard ≠ Guard.always && pendingPred s k i.guard.pred.toNat

/-- The trap of R61: a read of a register with a pending write, with the checking scoreboard on. [DEDUCED: log entry 28] -/
def shortLookBack (s : State) (i : Instr) (k : Nat) (t : Thread) : Bool :=
  checking s t && ((i.regs false).any (fun r => pendingFixed s k t r || pendingVariable s k r)
    || (predReads i).any (pendingPred s k))

/-- The lock entry of a row the word names that a copy has locked (R73). -/
def lockedRow (s : State) (i : Instr) (t : Thread) : Option Nat :=
  if s.rowLocks.isEmpty then none else (i.regs true ++ i.regs false).findSome? fun r => (rowOf s t r).bind (rowLock s)

/-- A poisoned row that the word reads (R316). -/
def poisonedRow (s : State) (i : Instr) (t : Thread) : Option Nat :=
  if s.poison.isEmpty then none
  else (i.regs false).findSome? fun r => (rowOf s t r).bind fun row => poisonedAt s (rowPa row) 4

/-- The threads of a list, in ascending member index then ascending sr.tid: the order of R85 and R102. -/
def memberOrder (s : State) (ks : List Nat) : List Nat :=
  let key (k : Nat) : Nat := match tget k s.threads with
    | some t => t.member * 2 ^ 64 + t.tid
    | none => 0
  sortBy (fun a b => key a ≤ key b) ks

/-- The members for which the word takes effect (R130). -/
def activeMembers (s : State) (w : Issuing) (i : Instr) : List Nat :=
  w.members.filter fun k => match tget k s.threads with
    | some t => guardTrue i.guard t
    | none => false

/-- The traps of one member at a word that passed the static checks: allocation and the guard's own read for every member, the
rest where the predicate is true (R61, R143). [DEDUCED: log entry 28] -/
def memberChecks (i : Instr) (s : State) (k : Nat) : State :=
  match tget k s.threads with
  | none => s
  | some t =>
    if beyondAllocation s i t then takeTrap0 s k 0x03
    else if guardPending s i k t then takeTrap0 s k 0x05
    else if !guardTrue i.guard t then s
    else if shortLookBack s i k t then takeTrap0 s k 0x05
    else match lockedRow s i t, poisonedRow s i t with
      | some info, _ => takeTrap s k 0x14 0 info
      | none, some g => consumeRow s k g
      | none, none => s

/-! ## The end of a word -/

/-- No check of R143 that depends on the thread stops a word for one member of its issue set. -/
def memberClear (s : State) (i : Instr) (k : Nat) : Bool :=
  match tget k s.threads with
  | none => true
  | some t =>
    !beyondAllocation s i t && !guardPending s i k t
      && (!guardTrue i.guard t || (!shortLookBack s i k t && (lockedRow s i t).isNone && (poisonedRow s i t).isNone))

/-- Members at the end of their clause: those still issuing go on at the next clause in sequence (R140). -/
def endClause (s : State) (key : Nat) (p : PortState) : State :=
  let next := nextClause p.hdr (p.words - 1)
  let s := p.members.foldl (fun s k => match tget k s.threads with
    | some t => if t.state = .issuing then makeReady s k next else s
    | none => s) s
  let s := if bit p.hint.toNat 2 then p.members.foldl (fun s k => s.onThread k fun t => { t with yielded := 2 }) s else s
  { s with ports := tset key { p with members := [], words := 0 } s.ports }

/-- A stepped member is to trap once its word has had its effect (R163, R297). -/
def armStep (s : State) (k : Nat) : State :=
  s.onThread k fun t =>
    if t.step then { t with step := false, deferred := t.deferred ++ [⟨0x71, 0, 0, 0, 0, none, []⟩] } else t

/-- The word has issued: the port moves on, and its clause ends after its last word or when no member is left (R140). -/
def finishWord (s : State) (w : Issuing) : State :=
  let s := w.members.foldl armStep { s with issuing := none }
  let key := portKey w.core w.bay w.port
  match tget key s.ports with
  | none => s
  | some p =>
    let p := { p with pos := p.pos + 1 }
    if p.words ≤ p.pos || p.members.isEmpty then endClause s key p else { s with ports := tset key p s.ports }

/-- How many times a word's port occupancy is multiplied: two for 64-bit integer types, four for F64 arithmetic (R162).
[DEDUCED: log entry 31] -/
def occupancyFactor (i : Instr) : Nat :=
  match i with
  | .nop _ => 1
  | .fadd w => if w.ty = .f64 then 4 else 1
  | .fsub w => if w.ty = .f64 then 4 else 1
  | .fmul w => if w.ty = .f64 then 4 else 1
  | .ffma w => if w.ty = .f64 then 4 else 1
  | .iaddImm m _ => if m = 0 then 1 else 2
  | .imulImm m _ => if m = 0 then 1 else 2
  | .movImm m _ => if m = 0 then 1 else 2
  | i =>
    match encode i with
    | some (.vector, x) =>
      let t := bits x.toNat 11 5
      if bits x.toNat 56 8 < 0x80 && (t = 0x03 || t = 0x07) then 2 else 1
    | _ => 1

/-- The clk for which a word holds its vector port, n threads in the issue set (R162). [DEDUCED: log entry 31] -/
def occupancy (i : Instr) (n : Nat) : Nat := max 1 (ceilDiv n 32 * occupancyFactor i)

/-- The word begins to issue: its address stands in every member, the port is held, and the launch has issued (R62, R162,
R309). -/
def beginWord (s : State) (w : Issuing) (i : Instr) : State :=
  let key := portKey w.core w.bay w.port
  let paired := match i with
    | .pairedWord _ => true
    | _ => false
  let s := { s with ports := tmod key (fun p => { p with
      busyUntil := s.clk + (if w.port = .va || w.port = .vb then occupancy i w.members.length else 1)
      issuedAt := s.clk + 1
      paired := paired }) s.ports }
  w.members.foldl (fun s k => match tget k s.threads with
    | some t => (s.onThread k fun t => { t with
        curHdr := w.hdr
        curWord := wordAddr w.hdr w.pos
        lastKey := s.nextKey }).onLaunch t.launch
        fun l => { l with lastIssue := s.clk }
    | none => s) s

/-- A trap of an earlier word of the clause may still come: a step that is to be taken, or a contribution's test; no later word
issues or is checked before (R62, R163, R201). -/
def earlierWord (s : State) (w : Issuing) : Bool := stepHold s w || w.members.any (testHold s)

/-- The word waits for a walk whose entries lie in a held bank, or for a bank that holds what it reads as it issues (R302, R320). -/
def walkHold (s : State) (w : Issuing) (i : Instr) : Bool :=
  (s.dies.any fun e => !e.2.holds.isEmpty) && (activeMembers s w i).any fun k => match tget k s.threads with
    | none => false
    | some t => (wordRanges s t i).any fun r => (rangePages r.1 r.2).any fun p =>
        translationWaits s t p.1 || (readsAtIssue i && sourceWaits s t p.1 p.2)

/-- Whether the word holds its issue in this move, apart from holds of its own. -/
def commonHold (s : State) (w : Issuing) (i : Instr) (lat ctr : Nat) : Bool :=
  earlierWord s w || lookHold s w i || orderHold s (activeMembers s w i) (i.regs true) (predWrites i) lat || pairHold s w i || counterHold s (activeMembers s w i) ctr
    || walkHold s w i
    || (w.port = .m && (fenceHold s w || coalescerHold s w))

/-- Words that an Assayer replay discards: atomics, contributions, fabric and mailbox operations, and others that write beyond the
team without storing bytes of its own (R319). -/
def replayDiscards : Instr → Bool
  | .atom _ => true
  | .atomFadd _ => true
  | .ctb _ => true
  | .ctbseal _ => true
  | .disc _ => true
  | .rinv _ => true
  | .fsend _ => true
  | .fmcast _ => true
  | .fred _ => true
  | .fsparse _ => true
  | .rgres _ => true
  | .rgpub _ => true
  | .rgtake _ => true
  | .rgdone _ => true
  | .bwpush _ => true
  | .mbsend _ => true
  | .mbrecv _ => true
  | _ => false

/-- The threads of replays among the members of a word: the word has no effect for them, and their samples cannot be verified
(R319). -/
def dropReplayed (i : Instr) (s : State) (active : List Nat) : State × List Nat :=
  if s.samples.isEmpty || !replayDiscards i then (s, active)
  else
    active.foldl (fun acc k => match (tget k acc.1.threads).bind fun t => replayOf acc.1 t.team with
      | some (n, x) => ({ acc.1 with samples := tset n { x with unverifiable := true } acc.1.samples }, acc.2)
      | none => (acc.1, acc.2 ++ [k])) (s, [])

/-- One word issues for the issue set of its port, or holds. `lat` is its fixed latency, `ctr` the counter it names (7 for
none), `own` any hold of its own, and `effect` what it does for the members whose predicate is true (R143, R161). -/
def issueWord (i : Instr) (lat ctr : Nat) (own : State → Issuing → Bool) (effect : State → Issuing → List Nat → State)
    (s : State) : Host.Outcome State Fault Refusal :=
  match s.issuing with
  | none => .next s
  | some w =>
    match i.staticCause with
    | some c =>
      if earlierWord s w then .next { s with issuing := none }
      else .next (finishWord (w.members.foldl (fun s k => takeTrap0 s k c) (beginWord s w i)) w)
    | none =>
      if commonHold s w i lat ctr || own s w then .next { s with issuing := none }
      else
        let s := w.members.foldl (memberChecks i) (beginWord s w i)
        match s.issuing with
        | none => .next s
        | some w' =>
          let (s, active) := dropReplayed i s (activeMembers s w' i)
          .next (finishWord (effect s w' active) w)

/-- The members for which a word is to have its effect: its predicate is true and no check stops it for them (R130, R143). -/
def clearMembers (s : State) (w : Issuing) (i : Instr) : List Nat :=
  (activeMembers s w i).filter fun k => memberClear (beginWord s w i) i k

/-- No hold of its own. -/
def noHold (_ : State) (_ : Issuing) : Bool := false

/-! ## Fixed-latency results (R60, R67, R161, R162) -/

/-- The groups of an issue set all of whose live members are in it (R67). [DEDUCED: log entry 30] -/
def wholeGroup (s : State) (w : Issuing) (g : Nat) : Bool :=
  match tget g s.groups with
  | none => false
  | some gr =>
    (oneBits 64 gr.live).all fun m => match memberThread s g m with
      | some (k, _) => w.members.contains k
      | none => false

/-- Active members whose group is not whole: they take the ungathered-uniform-write trap at a write of a g register (R67).
[DEDUCED: log entry 30] -/
def ungathered (s : State) (w : Issuing) (active : List Nat) : List Nat :=
  active.filter fun k => match (tget k s.threads).bind (·.group) with
    | some g => !wholeGroup s w g
    | none => false

/-- The active member of each group whose value a g register takes: the highest-indexed one (R67).
[DEDUCED: log entry 30] -/
def uniformWriters (s : State) (active : List Nat) : List Nat :=
  active.filter fun k => match tget k s.threads with
    | none => false
    | some t => active.all fun k' => match tget k' s.threads with
      | some t' => t'.group ≠ t.group || t'.member ≤ t.member
      | none => true

/-- The writes of a value into n registers from a destination field of a thread. -/
def valueWrites (t : Thread) (k dst n v : Nat) : List RegWrite :=
  (List.range n).map fun i =>
    let x := BitVec.ofNat 32 (v / 2 ^ (32 * i))
    if dst < 384 then .v k (dst + i) x else .g (t.group.getD 0) (dst + i - 384) x

/-- A fixed-latency result queued for its clk; nothing is queued where there is nothing to write. -/
def queueFixed (s : State) (w : Issuing) (lat : Nat) (ws : List RegWrite) : State :=
  if ws.isEmpty then s
  else
    { s with
      fixed := tset s.nextKey ⟨portKey w.core w.bay w.port, w.pos, s.clk + lat, ws⟩ s.fixed
      nextKey := s.nextKey + 1 }

/-- One register write lands. -/
def landWrite (s : State) : RegWrite → State
  | .v k r x => writeReg s k r x
  | .g g r x => s.onGroup g fun gr => { gr with uni := tset r x gr.uni }
  | .p k p x => writePred s k p x
  | .version k v => s.onThread k fun t => { t with srVersion := v }

/-- The effect of a word that computes one register value per thread (R161, R67). -/
def valueEffect (lat : Nat) (dst : BitVec 9) (n : Nat) (f : State → Nat → Thread → Nat) (s : State) (w : Issuing)
    (active : List Nat) : State :=
  let d := dst.toNat
  let bad := if 384 ≤ d then ungathered s w active else []
  let ok := active.filter fun k => !bad.contains k
  let writers := if 384 ≤ d then uniformWriters s ok else ok
  let ws := writers.flatMap fun k => match tget k s.threads with
    | some t => valueWrites t k d n (f s k t)
    | none => []
  bad.foldl (fun s k => takeTrap0 s k 0x21) (queueFixed s w lat ws)

/-- The effect of a word that computes one predicate per thread (R127, R161). -/
def predEffect (lat : Nat) (dst : BitVec 9) (f : State → Thread → Bool) (s : State) (w : Issuing) (active : List Nat) : State :=
  queueFixed s w lat (active.flatMap fun k => match tget k s.threads with
    | some t => [.p k (bits dst.toNat 0 3) (f s t)]
    | none => [])

/-- A compute word: its value for each thread is a function of the thread's registers (R161, R162). -/
def computeWord (i : Instr) (lat : Nat) (dst : BitVec 9) (n : Nat) (f : State → Thread → Nat) (s : State) :
    Host.Outcome State Fault Refusal :=
  issueWord i lat 7 noHold (valueEffect lat dst n fun s _ t => f s t) s

/-- A word that computes a predicate. -/
def predicateWord (i : Instr) (lat : Nat) (dst : BitVec 9) (f : State → Thread → Bool) (s : State) :
    Host.Outcome State Fault Refusal :=
  issueWord i lat 7 noHold (predEffect lat dst f) s

/-- The random word of an element for a thread at its current word (R34). -/
def threadRand (s : State) (t : Thread) (elem : Nat) : Nat := rand32 (launchIdOf s t) t.tid t.curWord t.draw elem

/-- The draw counts of threads advanced by one (R34). -/
def advanceDraw (s : State) (ks : List Nat) : State :=
  ks.foldl (fun s k => s.onThread k fun t => { t with draw := (t.draw + 1) % 2 ^ 32 }) s

/-- A compute word that may round stochastically: it draws for each active thread under .RS (R34, R168). -/
def roundingWord (i : Instr) (lat : Nat) (dst : BitVec 9) (n : Nat) (mode : Mode) (f : State → Thread → Nat → Nat)
    (s : State) : Host.Outcome State Fault Refusal :=
  issueWord i lat 7 noHold (fun s w active =>
    let s' := valueEffect lat dst n (fun s _ t => f s t (if mode = .rs then threadRand s t 0 else 0)) s w active
    let left := (s'.issuing.map (·.members)).getD []
    if mode = .rs then advanceDraw s' (active.filter left.contains) else s') s

end Sys2Proof.Machine
end

