-- ==== Sys2Proof/Machine/Vector.lean ====
section
/-! DEFINITION. The vector class in register form: integer, logic, shift, move, predicate, floating-point, conversion and
comparison words (spec/13_ops_compute.md R164 to R172). -/

namespace Sys2Proof.Machine

/-! ## Latencies (R162) -/

/-- The latency of the simple words: 2, or 4 for a 64-bit type; 2 for the narrow types as well (R162).
[DESIGN CHOICE: log entry 125] -/
def simpleLatency (t : Ty) : Nat := if t.width = 64 then 4 else 2

/-- The latency of multiplies and of floating-point arithmetic: 4, or 8 for a 64-bit type. -/
def arithLatency (t : Ty) : Nat := if t.width = 64 then 8 else 4

/-! ## Operand shapes (R161) -/

/-- d ← f(a). -/
def unaryWord (i : Instr) (w : RWord) (lat n : Nat) (f : Nat → Nat) : State → Host.Outcome State Fault Refusal :=
  computeWord i lat w.dst n fun s t => f (srcValue s t w.ty w.a)

/-- d ← f(a, b), both of type T. -/
def binaryWord (i : Instr) (w : RWord) (lat : Nat) (f : Nat → Nat → Nat) : State → Host.Outcome State Fault Refusal :=
  computeWord i lat w.dst w.ty.regs fun s t => f (srcValue s t w.ty w.a) (srcValue s t w.ty w.b)

/-- d ← f(a, b), the amount b an N32 operand (R165). -/
def shiftWord (i : Instr) (w : RWord) (f : Nat → Nat → Nat) : State → Host.Outcome State Fault Refusal :=
  computeWord i (simpleLatency w.ty) w.dst w.ty.regs fun s t => f (srcValue s t w.ty w.a) (src32 s t w.b)

/-! ## Integer and address arithmetic (R164) -/

/-- The exact integer result wrapped, or clamped with .SAT. -/
def intBinary (t : Ty) (sat : Bool) (f : Int → Int → Int) (a b : Nat) : Nat :=
  t.narrow sat (f (t.intValue a) (t.intValue b))

/-- IADD: a + b. -/
def execIadd (w : RWord) (s : State) : Host.Outcome State Fault Refusal :=
  binaryWord (.iadd w) w (simpleLatency w.ty) (intBinary w.ty w.sat (· + ·)) s

/-- ISUB: a − b. -/
def execIsub (w : RWord) (s : State) : Host.Outcome State Fault Refusal :=
  binaryWord (.isub w) w (simpleLatency w.ty) (intBinary w.ty w.sat (· - ·)) s

/-- IMUL: a × b. -/
def execImul (w : RWord) (s : State) : Host.Outcome State Fault Refusal :=
  binaryWord (.imul w) w (arithLatency w.ty) (intBinary w.ty w.sat (· * ·)) s

/-- Bits [2w−1:w] of the exact 2w-bit product. -/
def mulHigh (t : Ty) (a b : Nat) : Nat := wrap (2 * t.width) (t.intValue a * t.intValue b) / 2 ^ t.width

/-- IMULHI: bits [2w−1:w] of the exact product. -/
def execImulhi (w : RWord) (s : State) : Host.Outcome State Fault Refusal :=
  binaryWord (.imulhi w) w (arithLatency w.ty) (mulHigh w.ty) s

/-- IMAD: a × b + c, one exact sum. -/
def execImad (w : RWord) (s : State) : Host.Outcome State Fault Refusal :=
  computeWord (.imad w) (arithLatency w.ty) w.dst w.ty.regs (fun s t =>
    w.ty.narrow w.sat (w.ty.intValue (srcValue s t w.ty w.a) * w.ty.intValue (srcValue s t w.ty w.b)
      + w.ty.intValue (srcValue s t w.ty w.c))) s

/-- IMIN: the smaller of a and b. -/
def execImin (w : RWord) (s : State) : Host.Outcome State Fault Refusal :=
  binaryWord (.imin w) w (simpleLatency w.ty) (fun a b => if w.ty.intValue a ≤ w.ty.intValue b then a else b) s

/-- IMAX: the larger of a and b. -/
def execImax (w : RWord) (s : State) : Host.Outcome State Fault Refusal :=
  binaryWord (.imax w) w (simpleLatency w.ty) (fun a b => if w.ty.intValue a ≤ w.ty.intValue b then b else a) s

/-- IABS: |a|, with .SAT clamped for the most negative value. -/
def execIabs (w : RWord) (s : State) : Host.Outcome State Fault Refusal :=
  unaryWord (.iabs w) w (simpleLatency w.ty) w.ty.regs (fun a => w.ty.narrow w.sat ((w.ty.intValue a).natAbs : Int)) s

/-- INEG: −a. -/
def execIneg (w : RWord) (s : State) : Host.Outcome State Fault Refusal :=
  unaryWord (.ineg w) w (simpleLatency w.ty) w.ty.regs (fun a => w.ty.narrow w.sat (-(w.ty.intValue a))) s

/-- LEA: (a + (ext(b) << s)) mod 2^64, the shift s in C[3:0]. -/
def execLea (w : RWord) (s : State) : Host.Outcome State Fault Refusal :=
  computeWord (.lea w) (simpleLatency w.ty) w.dst 2 (fun s t =>
    wrap 64 ((src64 s t w.a : Int) + w.ty.intValue (src32 s t w.b) * (2 ^ bits w.c.toNat 0 4 : Nat))) s

/-- POPC: the number of one bits of a, in one register. -/
def execPopc (w : RWord) (s : State) : Host.Outcome State Fault Refusal :=
  unaryWord (.popc w) w (simpleLatency w.ty) 1 (popCount w.ty.width) s

/-- CLZ: the number of zero bits above the highest one bit of a, in one register. -/
def execClz (w : RWord) (s : State) : Host.Outcome State Fault Refusal :=
  unaryWord (.clz w) w (simpleLatency w.ty) 1 (leadingZeros w.ty.width) s

/-- BREV: bit k moves to bit w − 1 − k. -/
def execBrev (w : RWord) (s : State) : Host.Outcome State Fault Refusal :=
  unaryWord (.brev w) w (simpleLatency w.ty) w.ty.regs (bitReverse w.ty.width) s

/-! ## Logic and shifts (R165) -/

/-- AND: a and b. -/
def execAnd (w : RWord) (s : State) : Host.Outcome State Fault Refusal :=
  binaryWord (.and w) w (simpleLatency w.ty) (· &&& ·) s

/-- OR: a or b. -/
def execOr (w : RWord) (s : State) : Host.Outcome State Fault Refusal :=
  binaryWord (.or w) w (simpleLatency w.ty) (· ||| ·) s

/-- XOR: a xor b. -/
def execXor (w : RWord) (s : State) : Host.Outcome State Fault Refusal :=
  binaryWord (.xor w) w (simpleLatency w.ty) (· ^^^ ·) s

/-- NOT: not a. -/
def execNot (w : RWord) (s : State) : Host.Outcome State Fault Refusal :=
  unaryWord (.not w) w (simpleLatency w.ty) w.ty.regs (complement w.ty.width) s

/-- ANDN: a and not b. -/
def execAndn (w : RWord) (s : State) : Host.Outcome State Fault Refusal :=
  binaryWord (.andn w) w (simpleLatency w.ty) (fun a b => a &&& complement w.ty.width b) s

/-- A left shift: wrap(a × 2^b), 0 when b ≥ w. -/
def shiftLeft (width a b : Nat) : Nat := if width ≤ b then 0 else low width (a * 2 ^ b)

/-- A right shift: floor(a / 2^b), by the signedness of T; when b ≥ w, 0 or all copies of the sign (R165). -/
def shiftRight (t : Ty) (a b : Nat) : Nat :=
  let x := t.intValue a
  if t.width ≤ b then (if x < 0 then wrap t.width (-1) else 0) else wrap t.width (x / (2 ^ b : Nat))

/-- A left rotation by b mod w. -/
def rotateLeft (width a b : Nat) : Nat :=
  let k := b % width
  low width (a * 2 ^ k) + low width a / 2 ^ (width - k)

/-- SHL. -/
def execShl (w : RWord) (s : State) : Host.Outcome State Fault Refusal :=
  shiftWord (.shl w) w (shiftLeft w.ty.width) s

/-- SHR. -/
def execShr (w : RWord) (s : State) : Host.Outcome State Fault Refusal :=
  shiftWord (.shr w) w (shiftRight w.ty) s

/-- ROTL. -/
def execRotl (w : RWord) (s : State) : Host.Outcome State Fault Refusal :=
  shiftWord (.rotl w) w (rotateLeft w.ty.width) s

/-! ## Moves and lanes (R166) -/

/-- NOP: no effect. -/
def execNop (w : RWord) (s : State) : Host.Outcome State Fault Refusal :=
  issueWord (.nop w) 0 7 noHold (fun s _ _ => s) s

/-- MOV: the bits of a. -/
def execMov (w : RWord) (s : State) : Host.Outcome State Fault Refusal :=
  unaryWord (.mov w) w (simpleLatency w.ty) w.ty.regs id s

/-- SEL: a where the predicate that C names is 1, else b. -/
def execSel (w : RWord) (s : State) : Host.Outcome State Fault Refusal :=
  computeWord (.sel w) (simpleLatency w.ty) w.dst w.ty.regs (fun s t =>
    if predCode t w.c.toNat then srcValue s t w.ty w.a else srcValue s t w.ty w.b) s

/-- PACK: bits [e × k + e − 1 : e × k] of d take a[e−1:0], k the value of b modulo 32/e. -/
def execPack (w : RWord) (s : State) : Host.Outcome State Fault Refusal :=
  computeWord (.pack w) (simpleLatency w.ty) w.dst 1 (fun s t =>
    let e := w.ty.width
    putBits (src32 s t w.dst) (e * (src32 s t w.b % (32 / e))) e (srcValue s t w.ty w.a)) s

/-- UNPACK: a lane of a, sign-extended for S16, S8 and S4. -/
def execUnpack (w : RWord) (s : State) : Host.Outcome State Fault Refusal :=
  computeWord (.unpack w) (simpleLatency w.ty) w.dst 1 (fun s t =>
    let e := w.ty.width
    let x := bits (src32 s t w.a) (e * (src32 s t w.b % (32 / e))) e
    if w.ty.isSigned then wrap 32 (signed e x) else x) s

/-! ## Predicates (R167) -/

/-- PLOP: pd ← (pa xor A[3]) op (pb xor B[3]). -/
def execPlop (w : RWord) (s : State) : Host.Outcome State Fault Refusal :=
  predicateWord (.plop w) 2 w.dst (fun _ t => predOp w.opx (predCode t w.a.toNat) (predCode t w.b.toNat)) s

/-- PGET: p7 to p0 in bits 7 to 0. -/
def execPget (w : RWord) (s : State) : Host.Outcome State Fault Refusal :=
  computeWord (.pget w) 2 w.dst 1 (fun _ t => predBits t) s

/-- PSET: p0 to p7 take a[7:0]. -/
def execPset (w : RWord) (s : State) : Host.Outcome State Fault Refusal :=
  issueWord (.pset w) 2 7 noHold (fun s u active =>
    queueFixed s u 2 (active.flatMap fun k => match tget k s.threads with
      | some t => (List.range 8).map fun n => .p k n (bit (src32 s t w.a) n)
      | none => [])) s

/-! ## Floating-point arithmetic (R168, R169) -/

/-- The format in T, FP32 where T is no floating-point type. -/
def fmtOf (w : RWord) : FFmt := w.ty.fmt?.getD .f32

/-- FADD. -/
def execFadd (w : RWord) (s : State) : Host.Outcome State Fault Refusal :=
  roundingWord (.fadd w) (arithLatency w.ty) w.dst w.ty.regs w.mode (fun s t rnd =>
    fpAdd (fmtOf w) w.mode w.sat w.fz rnd (srcValue s t w.ty w.a) (srcValue s t w.ty w.b)) s

/-- FSUB. -/
def execFsub (w : RWord) (s : State) : Host.Outcome State Fault Refusal :=
  roundingWord (.fsub w) (arithLatency w.ty) w.dst w.ty.regs w.mode (fun s t rnd =>
    fpSub (fmtOf w) w.mode w.sat w.fz rnd (srcValue s t w.ty w.a) (srcValue s t w.ty w.b)) s

/-- FMUL. -/
def execFmul (w : RWord) (s : State) : Host.Outcome State Fault Refusal :=
  roundingWord (.fmul w) (arithLatency w.ty) w.dst w.ty.regs w.mode (fun s t rnd =>
    fpMul (fmtOf w) w.mode w.sat w.fz rnd (srcValue s t w.ty w.a) (srcValue s t w.ty w.b)) s

/-- FFMA: x × y + z, rounded once. -/
def execFfma (w : RWord) (s : State) : Host.Outcome State Fault Refusal :=
  roundingWord (.ffma w) (arithLatency w.ty) w.dst w.ty.regs w.mode (fun s t rnd =>
    fpFma (fmtOf w) w.mode w.sat w.fz rnd (srcValue s t w.ty w.a) (srcValue s t w.ty w.b) (srcValue s t w.ty w.c)) s

/-- FMIN: order_min. -/
def execFmin (w : RWord) (s : State) : Host.Outcome State Fault Refusal :=
  binaryWord (.fmin w) w (simpleLatency w.ty) (orderMin (fmtOf w)) s

/-- FMAX: order_max. -/
def execFmax (w : RWord) (s : State) : Host.Outcome State Fault Refusal :=
  binaryWord (.fmax w) w (simpleLatency w.ty) (orderMax (fmtOf w)) s

/-- FMINN: min_number. -/
def execFminn (w : RWord) (s : State) : Host.Outcome State Fault Refusal :=
  binaryWord (.fminn w) w (simpleLatency w.ty) (minNumber (fmtOf w)) s

/-- FMAXN: max_number. -/
def execFmaxn (w : RWord) (s : State) : Host.Outcome State Fault Refusal :=
  binaryWord (.fmaxn w) w (simpleLatency w.ty) (maxNumber (fmtOf w)) s

/-- FABS: the sign bit cleared. -/
def execFabs (w : RWord) (s : State) : Host.Outcome State Fault Refusal :=
  unaryWord (.fabs w) w (simpleLatency w.ty) w.ty.regs (fpAbs (fmtOf w)) s

/-- FNEG: the sign bit inverted. -/
def execFneg (w : RWord) (s : State) : Host.Outcome State Fault Refusal :=
  unaryWord (.fneg w) w (simpleLatency w.ty) w.ty.regs (fpNegate (fmtOf w)) s

/-- FCSGN: a with the sign bit of b. -/
def execFcsgn (w : RWord) (s : State) : Host.Outcome State Fault Refusal :=
  binaryWord (.fcsgn w) w (simpleLatency w.ty) (fpCopySign (fmtOf w)) s

/-! ## Conversion, comparison, classification (R170 to R172) -/

/-- The source type of CVT, in C[4:0]. -/
def cvtSource (w : RWord) : Ty := (Ty.ofCode (bits w.c.toNat 0 5)).getD .n32

/-- CVT: one element from ST to DT. -/
def execCvt (w : RWord) (s : State) : Host.Outcome State Fault Refusal :=
  let st := cvtSource w
  roundingWord (.cvt w) (if st.width = 64 || w.ty.width = 64 then 8 else 4) w.dst w.ty.regs w.mode (fun s t rnd =>
    convert st w.ty (srcValue s t st w.a) w.mode w.sat w.fz rnd) s

/-- ICMP: the condition in C[2:0]. -/
def execIcmp (w : RWord) (s : State) : Host.Outcome State Fault Refusal :=
  predicateWord (.icmp w) (simpleLatency w.ty) w.dst (fun s t =>
    intCond (bits w.c.toNat 0 3) (w.ty.intValue (srcValue s t w.ty w.a)) (w.ty.intValue (srcValue s t w.ty w.b))) s

/-- FCMP: the condition in C[2:0]. -/
def execFcmp (w : RWord) (s : State) : Host.Outcome State Fault Refusal :=
  predicateWord (.fcmp w) (simpleLatency w.ty) w.dst (fun s t =>
    fpCond (fmtOf w) (bits w.c.toNat 0 3) (srcValue s t w.ty w.a) (srcValue s t w.ty w.b)) s

/-- FCLASS: whether a's class has its bit in the mask C. -/
def execFclass (w : RWord) (s : State) : Host.Outcome State Fault Refusal :=
  predicateWord (.fclass w) (simpleLatency w.ty) w.dst (fun s t =>
    bit w.c.toNat (classBit (fmtOf w) (srcValue s t w.ty w.a))) s

end Sys2Proof.Machine
end

