-- ==== Sys2Proof/Machine/Immediate.lean ====
section
/-! DEFINITION. The immediate forms, the paired word and the special functions (spec/11_encoding.md R134 to R138,
spec/13_ops_compute.md R173, R174). -/

namespace Sys2Proof.Machine

/-! ## Immediate forms (R173) -/

/-- The type that IMOD gives IADD #, IMUL # and MOV #: N32, S64 or N64. -/
def immTy (imod : BitVec 2) : Ty := if imod = 0 then .n32 else if imod = 1 then .s64 else .n64

/-- IMM in a type: sign-extended for S64. -/
def immValue (t : Ty) (imm : BitVec 32) : Nat := if t = .s64 then wrap 64 (signed 32 imm.toNat) else imm.toNat

/-- The rounding mode that IMOD gives FADD.F32 # and FMUL.F32 #. -/
def immMode (imod : BitVec 2) : Mode := (Mode.ofCode imod.toNat).getD .rn

/-- d ← f(a, IMM) in a type. -/
def immWord (i : Instr) (w : IWord) (t : Ty) (lat : Nat) (f : Nat → Nat → Nat) : State → Host.Outcome State Fault Refusal :=
  computeWord i lat w.dst t.regs fun s th => f (srcValue s th t w.a) (immValue t w.imm)

/-- IADD #. -/
def execIaddImm (imod : BitVec 2) (w : IWord) (s : State) : Host.Outcome State Fault Refusal :=
  immWord (.iaddImm imod w) w (immTy imod) (simpleLatency (immTy imod))
    (fun a b => low (immTy imod).width (a + b)) s

/-- IMUL #. -/
def execImulImm (imod : BitVec 2) (w : IWord) (s : State) : Host.Outcome State Fault Refusal :=
  immWord (.imulImm imod w) w (immTy imod) (arithLatency (immTy imod))
    (fun a b => low (immTy imod).width (a * b)) s

/-- AND #. -/
def execAndImm (w : IWord) (s : State) : Host.Outcome State Fault Refusal := immWord (.andImm w) w .n32 2 (· &&& ·) s

/-- OR #. -/
def execOrImm (w : IWord) (s : State) : Host.Outcome State Fault Refusal := immWord (.orImm w) w .n32 2 (· ||| ·) s

/-- XOR #. -/
def execXorImm (w : IWord) (s : State) : Host.Outcome State Fault Refusal := immWord (.xorImm w) w .n32 2 (· ^^^ ·) s

/-- ANDN #. -/
def execAndnImm (w : IWord) (s : State) : Host.Outcome State Fault Refusal :=
  immWord (.andnImm w) w .n32 2 (fun a b => a &&& complement 32 b) s

/-- MOV #. -/
def execMovImm (imod : BitVec 2) (w : IWord) (s : State) : Host.Outcome State Fault Refusal :=
  computeWord (.movImm imod w) (simpleLatency (immTy imod)) w.dst (immTy imod).regs
    (fun _ _ => immValue (immTy imod) w.imm) s

/-- FADD.F32 #. -/
def execFaddImm (imod : BitVec 2) (w : IWord) (s : State) : Host.Outcome State Fault Refusal :=
  immWord (.faddImm imod w) w .f32 4 (fpAdd .f32 (immMode imod) false false 0) s

/-- FMUL.F32 #. -/
def execFmulImm (imod : BitVec 2) (w : IWord) (s : State) : Host.Outcome State Fault Refusal :=
  immWord (.fmulImm imod w) w .f32 4 (fpMul .f32 (immMode imod) false false 0) s

/-- SHL #. -/
def execShlImm (w : IWord) (s : State) : Host.Outcome State Fault Refusal := immWord (.shlImm w) w .n32 2 (shiftLeft 32) s

/-- SHR.N32 #. -/
def execShrN32Imm (w : IWord) (s : State) : Host.Outcome State Fault Refusal :=
  immWord (.shrN32Imm w) w .n32 2 (shiftRight .n32) s

/-- SHR.S32 #. -/
def execShrS32Imm (w : IWord) (s : State) : Host.Outcome State Fault Refusal :=
  immWord (.shrS32Imm w) w .s32 2 (shiftRight .s32) s

/-- ROTL #. -/
def execRotlImm (w : IWord) (s : State) : Host.Outcome State Fault Refusal :=
  immWord (.rotlImm w) w .n32 2 (rotateLeft 32) s

/-! ## Special functions (R174) -/

/-- EXP2. -/
def execExp2 (w : RWord) (s : State) : Host.Outcome State Fault Refusal :=
  unaryWord (.exp2 w) w 12 1 (special .exp2 w.fz) s

/-- LOG2. -/
def execLog2 (w : RWord) (s : State) : Host.Outcome State Fault Refusal :=
  unaryWord (.log2 w) w 12 1 (special .log2 w.fz) s

/-- RCP. -/
def execRcp (w : RWord) (s : State) : Host.Outcome State Fault Refusal :=
  unaryWord (.rcp w) w 12 1 (special .rcp w.fz) s

/-- RSQ. -/
def execRsq (w : RWord) (s : State) : Host.Outcome State Fault Refusal :=
  unaryWord (.rsq w) w 12 1 (special .rsq w.fz) s

/-- SIN. -/
def execSin (w : RWord) (s : State) : Host.Outcome State Fault Refusal :=
  unaryWord (.sin w) w 12 1 (special .sin w.fz) s

/-- COS. -/
def execCos (w : RWord) (s : State) : Host.Outcome State Fault Refusal :=
  unaryWord (.cos w) w 12 1 (special .cos w.fz) s

/-! ## The paired word (R136, R137) -/

/-- The result of a compact half, none for a NOP half. -/
def halfValue (op a b : Nat) : Option Nat :=
  match op with
  | 0x01 => some (fpAdd .f32 .rn false false 0 a b)
  | 0x02 => some (fpSub .f32 .rn false false 0 a b)
  | 0x03 => some (fpMul .f32 .rn false false 0 a b)
  | 0x04 => some (orderMin .f32 a b)
  | 0x05 => some (orderMax .f32 a b)
  | 0x06 => some (minNumber .f32 a b)
  | 0x07 => some (maxNumber .f32 a b)
  | 0x08 => some (low 32 (a + b))
  | 0x09 => some (intBinary .n32 false (· - ·) a b)
  | 0x0A => some (low 32 (a * b))
  | 0x0B => some (if signed 32 a ≤ signed 32 b then a else b)
  | 0x0C => some (if signed 32 a ≤ signed 32 b then b else a)
  | 0x0D => some (if a ≤ b then a else b)
  | 0x0E => some (if a ≤ b then b else a)
  | 0x0F => some (a &&& b)
  | 0x10 => some (a ||| b)
  | 0x11 => some (a ^^^ b)
  | 0x12 => some (shiftLeft 32 a b)
  | 0x13 => some (shiftRight .n32 a b)
  | 0x14 => some (shiftRight .s32 a b)
  | 0x15 => some a
  | 0x16 => some (fpAbs .f32 a)
  | 0x17 => some (fpNegate .f32 a)
  | 0x18 => some (special .exp2 false a)
  | 0x19 => some (special .log2 false a)
  | 0x1A => some (special .rcp false a)
  | 0x1B => some (special .rsq false a)
  | 0x1C => some (special .sin false a)
  | 0x1D => some (special .cos false a)
  | _ => none

/-- The latency of a compact half: that of its full form (R162). -/
def halfLatency (op : Nat) : Nat :=
  if 0x18 ≤ op then 12 else if op = 0x0A || (0x01 ≤ op && op ≤ 0x03) then 4 else 2

/-- The result of a half for every thread of the issue set. -/
def halfWrites (s : State) (h : Half) (active : List Nat) : List RegWrite :=
  active.flatMap fun k => match tget k s.threads with
    | some t =>
      match halfValue h.op.toNat (readReg s t h.a.toNat).toNat (readReg s t h.b.toNat).toNat with
      | some v => [.v k h.d.toNat (BitVec.ofNat 32 v)]
      | none => []
    | none => []

/-- The half with the shorter latency may not overtake an older write either (R60). -/
def pairOrderHold (w : PWord) (s : State) (u : Issuing) : Bool :=
  orderHold s u.members w.ha.dest [] (halfLatency w.ha.op.toNat) || orderHold s u.members w.hb.dest [] (halfLatency w.hb.op.toNat)

/-- The paired word: both halves read before either writes. -/
def execPairedWord (w : PWord) (s : State) : Host.Outcome State Fault Refusal :=
  issueWord (.pairedWord w) (max (halfLatency w.ha.op.toNat) (halfLatency w.hb.op.toNat)) 7 (pairOrderHold w) (fun s u active =>
    queueFixed (queueFixed s u (halfLatency w.ha.op.toNat) (halfWrites s w.ha active)) u (halfLatency w.hb.op.toNat)
      (halfWrites s w.hb active)) s

end Sys2Proof.Machine
end

