-- ==== Sys2Proof/Machine/CrossLane.lean ====
section
/-! DEFINITION. The rendezvous and the cross-lane words (spec/05_execution.md R65, R66; spec/13_ops_compute.md R175 to R180). -/

namespace Sys2Proof.Machine

/-! ## Waiting and arriving (R63, R65, R66) -/

/-- The address after the word a thread issued last: for a last word, the next clause in sequence. -/
def afterWord (t : Thread) : Nat := low 64 (t.curWord + 8)

/-- The thread enters a wait state; it will go on after its word. -/
def waitIn (s : State) (k : Nat) (st : TState) : State :=
  s.onThread k fun t => { t with state := st, pc := afterWord t }

/-- A member as it stands at a rendezvous. -/
structure Arrival where
  key : Nat
  thread : Thread
  r : Rendezvous
  deriving DecidableEq, Repr

/-- The members of a group that wait at an address with a mask, in ascending member index. -/
def arrivals (s : State) (g addr mask : Nat) : List Arrival :=
  sortBy (fun a b => a.thread.member ≤ b.thread.member) ((groupThreads s g).filterMap fun e => match rendezvousOf e.2 with
    | some r => if r.addr = addr && r.mask = mask then some ⟨e.1, e.2, r⟩ else none
    | none => none)

/-- Whether every named member has arrived (R65). -/
def allArrived (gr : Group) (mask : Nat) (ms : List Arrival) : Bool :=
  (oneBits 64 (namedMask gr mask)).all fun m => ms.any fun a => a.thread.member = m

/-- A member waits at a rendezvous; a conflicting mask at the same address traps it and those it conflicts with (R66). -/
def enterRendezvous (s : State) (k g : Nat) (r : Rendezvous) : State :=
  let clash := (groupThreads s g).filter fun e => match rendezvousOf e.2 with
    | some r' => r'.addr = r.addr && r'.mask ≠ r.mask && r'.mask &&& r.mask ≠ 0
    | none => false
  if clash.isEmpty then waitIn s k (.rendezvous r)
  else clash.foldl (fun s e => takeTrap0 s e.1 0x22) (takeTrap0 s k 0x22)

/-! ## What the words compute -/

/-- The operators of XSCAN and XRED on a type: ADD, MIN, MAX, AND, OR, XOR (R175, R179, R180). -/
def laneOp (t : Ty) (op a b : Nat) : Nat :=
  match t.fmt?, op with
  | some f, 0 => fpAdd f .rn false false 0 a b
  | some f, 1 => orderMin f a b
  | some f, _ => orderMax f a b
  | none, 0 => low t.width (a + b)
  | none, 1 => if t.intValue a ≤ t.intValue b then a else b
  | none, 2 => if t.intValue a ≤ t.intValue b then b else a
  | none, 3 => a &&& b
  | none, 4 => a ||| b
  | none, _ => a ^^^ b

/-- The identity of an operator (R179). -/
def laneIdentity (t : Ty) (op : Nat) : Nat :=
  match t.fmt?, op with
  | some f, 0 => f.signBit
  | some f, 1 => f.signBit - 1
  | some f, _ => 2 ^ f.width - 1
  | none, 1 => wrap t.width t.range.2
  | none, 2 => wrap t.width t.range.1
  | none, 3 => 2 ^ t.width - 1
  | none, _ => 0

/-- The random word of one member in a scan (R179). -/
def memberRand (s : State) (a : Arrival) : Nat :=
  rand32 (launchIdOf s a.thread) a.thread.tid a.r.addr a.thread.draw 0

/-- One step of a scan's chain: FP ADD rounds by the word's own mode, every other operator is `laneOp` (R179). -/
def scanStep (s : State) (w : RWord) (acc : Nat) (a : Arrival) : Nat :=
  match w.ty.fmt?, bits w.c.toNat 0 3 with
  | some f, 0 => fpAdd f w.mode false w.fz (memberRand s a) acc a.r.a
  | _, op => laneOp w.ty op acc a.r.a

/-- The chain of XSCAN over the non-silent members, in ascending order: each member's key with its result. -/
def scanChain (s : State) (w : RWord) : Option Nat → List Arrival → List (Arrival × Nat)
  | _, [] => []
  | acc, a :: rest =>
    let next := match acc with
      | none => a.r.a
      | some x => scanStep s w x a
    let d := if w.opx = 1 then acc.getD (laneIdentity w.ty (bits w.c.toNat 0 3)) else next
    (a, d) :: scanChain s w (some next) rest

/-- The leaves of XRED: W slots, present where a member is named and not silent (R180). -/
def redLeaves (width : Nat) (ms : List Arrival) : List (Option Nat) :=
  (List.range width).map fun m => (ms.find? fun a => a.thread.member = m).map (·.r.a)

/-- The root of XRED: for .ADD.PAIR the pair with hi in the low word (R180). -/
def redRoot (w : RWord) (width : Nat) (ms : List Arrival) : Nat :=
  if w.ty = .f32 && bits w.c.toNat 0 3 = 0 && w.opx = 1 then
    let p := rootValue (canonicalReduce pairAdd ((redLeaves width ms).map fun x => x.map pairLeaf))
    p.hi.toNat + p.lo.toNat * 2 ^ 32
  else (canonicalReduce (laneOp w.ty (bits w.c.toNat 0 3)) (redLeaves width ms)).getD 0

/-- The source member of XSHFL for member m with operand c: none below 0 (R176). -/
def shuffleSource (opx m c : Nat) : Option Nat :=
  match opx with
  | 0 => some c
  | 1 => if c ≤ m then some (m - c) else none
  | 2 => some (m + c)
  | _ => some (m ^^^ c)

/-- XVOTE's result over the predicates of the non-silent members (R178). -/
def voteResult (opx : Nat) (qs : List Bool) : Bool :=
  match opx with
  | 0 => qs.all id
  | 1 => qs.any id
  | _ => qs.all id || qs.all not

/-- XBALLOT's mask (R178). -/
def ballotMask (ms : List Arrival) : Nat :=
  ms.foldl (fun acc a => if a.r.q then acc + 2 ^ a.thread.member else acc) 0

/-- Registers of a member's destination; a g destination takes the value of one member alone (R67). -/
def laneWrite (a : Arrival) (dst n v : Nat) : List RegWrite :=
  if 384 ≤ dst && !a.r.uni then [] else valueWrites a.thread a.key dst n v

/-- What a completed cross-lane word writes, over its non-silent named members `ms`, or none for XBCAST's illegal-operand
trap (R176 to R180). -/
def laneWrites (s : State) (i : Instr) (width : Nat) (ms : List Arrival) : Option (List RegWrite) :=
  match i with
  | .xshfl w => some (ms.flatMap fun a =>
      match (shuffleSource w.opx a.thread.member a.r.c).bind fun src => ms.find? fun b => b.thread.member = src with
      | some b => laneWrite a w.dst.toNat w.ty.regs b.r.a
      | none => [])
  | .xbcast w =>
    match ms.head? with
    | none => some []
    | some first =>
      match ms.find? fun b => b.thread.member = first.r.c with
      | some b => some (ms.flatMap fun a => laneWrite a w.dst.toNat w.ty.regs b.r.a)
      | none => none
  | .xvote w => some (ms.map fun a => .p a.key (bits w.dst.toNat 0 3) (voteResult w.opx (ms.map (·.r.q))))
  | .xballot w => some (ms.flatMap fun a => laneWrite a w.dst.toNat 2 (ballotMask ms))
  | .xscan w => some ((scanChain s w none ms).flatMap fun x => laneWrite x.1 w.dst.toNat w.ty.regs x.2)
  | .xred w =>
    let n := if w.ty = .f32 && bits w.c.toNat 0 3 = 0 && w.opx = 1 then 2 else w.ty.regs
    some (ms.flatMap fun a => laneWrite a w.dst.toNat n (redRoot w width ms))
  | _ => some []

/-- Whether the word draws a random word for each member: a stochastically rounded scan (R179). -/
def laneDraws (i : Instr) : Bool :=
  match i with
  | .xscan w => w.ty.fmt?.isSome && bits w.c.toNat 0 3 = 0 && w.mode = .rs
  | _ => false

/-- The operation takes effect once, after the last arrival: every destination is written, then the members go on (R175). -/
def completeLane (s : State) (g addr mask : Nat) : State :=
  match tget g s.groups with
  | none => s
  | some gr =>
    let all := arrivals s g addr mask
    if all.isEmpty || !allArrived gr mask all then s
    else
      let named := all.filter fun a => bit (namedMask gr mask) a.thread.member
      let ms := named.filter fun a => !a.r.silent
      match all.head? with
      | none => s
      | some first =>
        match laneWrites s first.r.word gr.width ms with
        | some ws =>
          let s := ws.foldl landWrite s
          let s := if laneDraws first.r.word then advanceDraw s (ms.map (·.key)) else s
          named.foldl (fun s a => makeReady s a.key (afterWord a.thread)) s
        | none =>
          let s := ms.foldl (fun s a => takeTrap0 s a.key 0x03) s
          (named.filter (·.r.silent)).foldl (fun s a => makeReady s a.key (afterWord a.thread)) s

/-! ## The words -/

/-- The mask of a cross-lane word for a thread. -/
def laneMaskOf (s : State) (t : Thread) (f : BitVec 9) : Nat := src64 s t f

/-- One member arrives: an own bit that is clear or a bit at or above W is an illegal operand (R65).
[DEDUCED: log entry 39] -/
def arriveLane (i : Instr) (mask : BitVec 9) (operands : State → Thread → Nat × Nat × Bool) (active writers : List Nat)
    (s : State) (k : Nat) : State :=
  match tget k s.threads with
  | none => s
  | some t =>
    match t.group, groupOf s t with
    | some g, some gr =>
      let m := laneMaskOf s t mask
      if !bit m t.member || 2 ^ gr.width ≤ m then takeTrap0 s k 0x03
      else
        let (a, c, q) := operands s t
        let r : Rendezvous := ⟨t.curWord, m, !active.contains k, a, c, q, writers.contains k, i⟩
        absentTraps (completeLane (enterRendezvous s k g r) g t.curWord m) g
    | _, _ => s

/-- A cross-lane word: every member of the issue set arrives, whatever its predicate. A g destination asks for whole groups
(R67, R175). -/
def laneEffect (i : Instr) (mask dst : BitVec 9) (operands : State → Thread → Nat × Nat × Bool) (s : State) (w : Issuing)
    (active : List Nat) : State :=
  let bad := if 384 ≤ dst.toNat then ungathered s w active else []
  let ms := memberOrder s (w.members.filter fun k => !bad.contains k)
  let writers := uniformWriters s active
  let s := bad.foldl (fun s k => takeTrap0 s k 0x21) s
  ms.foldl (arriveLane i mask operands active writers) s

/-- A cross-lane word. -/
def laneWord (i : Instr) (mask dst : BitVec 9) (operands : State → Thread → Nat × Nat × Bool) :
    State → Host.Outcome State Fault Refusal :=
  issueWord i 0 7 noHold (laneEffect i mask dst operands)

/-- XSHFL: each member takes the value of another. -/
def execXshfl (w : RWord) (s : State) : Host.Outcome State Fault Refusal :=
  laneWord (.xshfl w) w.b w.dst (fun s t => (srcValue s t w.ty w.a, src32 s t w.c, false)) s

/-- XBCAST: every member takes one member's value. -/
def execXbcast (w : RWord) (s : State) : Host.Outcome State Fault Refusal :=
  laneWord (.xbcast w) w.b w.dst (fun s t => (srcValue s t w.ty w.a, src32 s t w.c, false)) s

/-- XVOTE: a predicate over the members. -/
def execXvote (w : RWord) (s : State) : Host.Outcome State Fault Refusal :=
  laneWord (.xvote w) w.b 0 (fun _ t => (0, 0, predCode t w.c.toNat)) s

/-- XBALLOT: the members whose predicate is 1. -/
def execXballot (w : RWord) (s : State) : Host.Outcome State Fault Refusal :=
  laneWord (.xballot w) w.b w.dst (fun _ t => (0, 0, predCode t w.c.toNat)) s

/-- XSCAN: a running chain over the members. -/
def execXscan (w : RWord) (s : State) : Host.Outcome State Fault Refusal :=
  laneWord (.xscan w) w.b w.dst (fun s t => (srcValue s t w.ty w.a, 0, false)) s

/-- XRED: a canonical tree over the members. -/
def execXred (w : RWord) (s : State) : Host.Outcome State Fault Refusal :=
  laneWord (.xred w) w.b w.dst (fun s t => (srcValue s t w.ty w.a, 0, false)) s

end Sys2Proof.Machine
end

