-- ==== Sys2Proof/Machine/Order.lean ====
section
/-! DEFINITION. Program order and visibility: what a release or a fence waits for (spec/07_memory.md R79, R82, R92 to R96). -/

namespace Sys2Proof.Machine

/-- The operations by which a thread reads (R94, TR; R221). -/
def Op.readsOf (o : Op) (k : Nat) : Bool :=
  match o with
  | .load o => o.members.any fun m => m.thread = k && !m.done
  | .atom o => o.members.any fun m => m.thread = k
  | .tile o => !o.storing && o.c.thread = k
  | .ring o => o.c.thread = k
  | _ => false

/-- The operations by which a thread writes (R94, TW; R221). -/
def Op.writesOf (o : Op) (k : Nat) : Bool :=
  match o with
  | .store o => o.of k
  | .atom o => o.members.any fun m => m.thread = k
  | .tile o => o.storing && o.c.thread = k
  | .disc o => o.c.thread = k
  | .emit c _ record => record && c.thread = k
  | .ring o => o.c.thread = k
  | _ => false

/-- The thread's earlier reads have their values (R94, TR). -/
def readsDone (s : State) (k : Nat) : Bool := !(s.ops.any fun e => e.2.readsOf k)

/-- The writes that a release or fence of a thread orders: its own, and every store visible to it (R94, TW). -/
def releaseSet (s : State) (k core : Nat) : List Nat :=
  (s.ops.filter fun e => e.2.writesOf k || e.2.visibleTo core).map (·.1)

/-- The release of a thread at a scope is not yet complete: earlier reads without values, or writes not visible that far
(R95). -/
def releasePending (s : State) (k scope : Nat) : Bool :=
  match tget k s.threads with
  | none => false
  | some t => !readsDone s k || !(releaseSet s k (coreOf s t)).all (reached s (scopeLevel s t scope))

/-- A device-scope release counts for the race rules (R106). [DEDUCED: log entry 54] -/
def countRelease (s : State) (k scope : Nat) : State :=
  if 4 ≤ scope then
    match tget k s.threads with
    | some t => s.onTeam t.team fun tm => { tm with releases := tm.releases + 1 }
    | none => s
  else s

/-- In a checkpoint launch an operation that escapes the team ends its interval's rollback (R313).
[DEDUCED: log entry 88] -/
def escape (s : State) (k : Nat) : State :=
  match tget k s.threads with
  | some t => loseRollback s t.team
  | none => s

/-- A word that waits for the team's own stores ends the rollback when it first asks to issue, since held stores are performed
only then (R313). [DEDUCED: log entry 88] -/
def escapeFirst (i : Instr) (wide : Bool) (s : State) : State :=
  match s.issuing with
  | some w => if wide && i.staticCause.isNone then (activeMembers s w i).foldl escape s else s
  | none => s

end Sys2Proof.Machine
end

