-- ==== Sys2Proof/Machine/ControlOps.lean ====
section
/-! DEFINITION. The control class: branches, calls, exit, SPAWN, YIELD, barriers, and the claims of register rows
(spec/05_execution.md R68 to R72, spec/13_ops_compute.md R181 to R186, spec/15_ops_memory.md R205 to R210). -/

namespace Sys2Proof.Machine

/-! ## Clause map and transfers (R142, R181) -/

/-- The kernel a thread runs. -/
def kernelOf (s : State) (t : Thread) : Option KDesc := (groupOf s t).map (·.k)

/-- Whether an address is a clause header of a kernel's code image: a word of its code section whose bit in the clause map is
1. A map that cannot be read through the context gives no header. [DEDUCED: log entry 33; DEDUCED: log entry 40] -/
def isHeader (s : State) (ctx : Nat) (k : KDesc) (va : Nat) : Bool :=
  let n := (va - k.code) / 8
  k.code ≤ va && va < k.code + k.codeLen && (va - k.code) % 8 = 0
    && ((ctxRead s ctx (k.cmap + n / 8) 1).any fun bs => bit (leValue bs) (n % 8))

/-- Whether a thread may go to an address (R142). [DEDUCED: log entry 40] -/
def targetLegal (s : State) (t : Thread) (va : Nat) : Bool := (kernelOf s t).any fun k => isHeader s t.ctx k va

/-- The walk by which a clause map is read, recorded where it meets poison (R302). -/
def mapNoted (s : State) (t : Thread) (va : Nat) : State :=
  match kernelOf s t with
  | some k => walksNoted s t.ctx (k.cmap + (va - k.code) / 8 / 8) 1
  | none => s

/-- Each member with its predicate true goes to its target, or takes the malformed-clause trap; `extra` is what else the word
does for a member that goes (R181). [DEDUCED: log entry 40] -/
def transfer (target : State → Thread → Nat) (extra : State → Nat → Thread → State) (s : State) (_ : Issuing)
    (active : List Nat) : State :=
  active.foldl (fun s k => match tget k s.threads with
    | none => s
    | some t =>
      let va := target s t
      if targetLegal s t va then makeReady (extra s k t) k va else takeTrap0 (mapNoted s t va) k 0x04) s

/-- The target of BRA and CALL: the word's address + 8 × sext(IMM) (R182). -/
def relativeTarget (w : IWord) (t : Thread) : Nat := wrap 64 ((t.curWord : Int) + 8 * signed 32 w.imm.toNat)

/-- BRA. -/
def execBra (imod : BitVec 2) (w : IWord) (s : State) : Host.Outcome State Fault Refusal :=
  issueWord (.bra imod w) 0 7 noHold (transfer (fun _ t => relativeTarget w t) fun s _ _ => s) s

/-- CALL: vN:N+1 takes the next clause in sequence. [DEDUCED: log entry 40] -/
def execCall (imod : BitVec 2) (w : IWord) (s : State) : Host.Outcome State Fault Refusal :=
  issueWord (.call imod w) 0 7 noHold (transfer (fun _ t => relativeTarget w t)
    fun s k t => writeRegs s k w.dst.toNat 2 (afterWord t)) s

/-- BRX: to the address in A. -/
def execBrx (w : RWord) (s : State) : Host.Outcome State Fault Refusal :=
  issueWord (.brx w) 0 7 noHold (transfer (fun s t => src64 s t w.a) fun s _ _ => s) s

/-- RET: to the address in A. -/
def execRet (w : RWord) (s : State) : Host.Outcome State Fault Refusal :=
  issueWord (.ret w) 0 7 noHold (transfer (fun s t => src64 s t w.a) fun s _ _ => s) s

/-- EXIT. -/
def execExit (w : RWord) (s : State) : Host.Outcome State Fault Refusal :=
  issueWord (.exit w) 0 7 noHold (fun s _ active => exitThreads s active) s

/-- YIELD: the members with their predicate true are picked behind the other ready threads of the bay. -/
def execYield (w : RWord) (s : State) : Host.Outcome State Fault Refusal :=
  issueWord (.yield w) 0 7 noHold (fun s _ active =>
    active.foldl (fun s k => s.onThread k fun t => { t with yielded := max 1 t.yielded }) s) s

/-! ## New threads (R185, R239) -/

/-- The logical index of a child: mix64(t.tid xor mix64(t.spawns + 1)) or 1 << 63 (R185). -/
def childTid (t : Thread) : Nat := mix64 (low 64 t.tid ^^^ mix64 (t.spawns + 1)) ||| 2 ^ 63

/-- A thread that has been created and not launched, with the given registers; every other register reads zero. -/
def newThread (ctx launch team tid srGroup : Nat) (sys child handler : Bool) (pc : Nat) (regs : List (Nat × Word32)) : Thread where
  ctx := ctx
  launch := launch
  team := team
  group := none
  member := 0
  tid := tid
  srGroup := srGroup
  sys := sys
  child := child
  handler := handler
  state := .caged
  pc := pc
  resume := none
  curHdr := pc
  curWord := pc
  regs := regs
  preds := 0
  ctrs := []
  draw := 0
  spawns := 0
  versions := []
  srVersion := 0xFFFFFFFF
  passed := 0
  yielded := 0
  trap := none
  trapSlot := none
  deferred := []
  step := false
  lastKey := 0

/-- A child thread is created for a cage of its parent's core; the parent's counter rises until it has entered (R185). -/
def createChild (s : State) (k : Nat) (t : Thread) (kd : KDesc) (entry count timeout ctr : Nat) (record : Bool)
    (regs : List (Nat × Word32)) : State :=
  let (key, s) := s.fresh
  let child := newThread t.ctx t.launch t.team (childTid t) 0xFFFFFFFF t.sys true false entry regs
  let s := { s with threads := tset key child s.threads }
  let s := s.onThread k fun t => { t with spawns := (t.spawns + 1) % 2 ^ 32 }
  let (e, s) := s.fresh
  let s := { s with entrants := tset e ⟨key, coreOf s t, kd, entry, count, timeout, some (k, ctr), s.clk⟩ s.entrants }
  raiseCtr (s.beginOp (.emit ⟨k, ctr⟩ e record)) ⟨k, ctr⟩

/-- The group width of a kernel (R153, WSEL). -/
def KDesc.width (k : KDesc) : Nat := 16 * 2 ^ k.wsel

/-- SPAWN: a child of each member enters a cage of its core. -/
def execSpawn (w : RWord) (s : State) : Host.Outcome State Fault Refusal :=
  issueWord (.spawn w) 0 w.ctr noHold (fun s _ active =>
    active.foldl (fun s k => match tget k s.threads with
      | none => s
      | some t =>
        let va := src64 s t w.a
        match kernelOf s t with
        | none => s
        | some kd =>
          if targetLegal s t va then
            createChild (escape s k) k t kd va kd.width 0 w.ctr false [(0, BitVec.ofNat 32 (src32 s t w.b))]
          else takeTrap0 (mapNoted s t va) k 0x04) s) s

/-! ## Barriers (R205 to R209) -/

/-- The scope code of SC (R205). -/
def barScope (c : BitVec 9) : Nat := bits c.toNat 7 2 + 1

/-- A release of some member is not complete: the word holds (R95). -/
def releaseHold (i : Instr) (scope : Nat) (s : State) (w : Issuing) : Bool :=
  (activeMembers s w i).any fun k => releasePending s k scope

/-- A thread enters BARRIER; another rendezvous that needs its arrival may trap (R66). -/
def waitAtBarrier (s : State) (k team b phase : Nat) (held : Option HeldArrival) (scope : Nat) : State :=
  absentTrapsTeam (waitIn s k (.barrier b phase held scope)) team

/-- A member whose arrival bit is clear arrives at once, after its release; one whose bit is set waits out the phase first
(R207). -/
def arrivalHold (i : Instr) (b scope : Nat) (s : State) (w : Issuing) : Bool :=
  (activeMembers s w i).any fun k => match tget k s.threads with
    | some t => !(barrierOf s t.team b).arrived.contains k && releasePending s k scope
    | none => false

/-- A thread arrival made, with the bytes that BAR.ARRIVEB adds; in a checkpoint launch the thread then waits for the phase that it
arrived in (R207, R208, R311). -/
def makeArrival (s : State) (k : Nat) (t : Thread) (b : Nat) (dst : Option Nat) (bytes scope : Nat) : State :=
  let x := barrierOf s t.team b
  let s := countRelease s k scope
  let s := setBarrier s t.team b (x.arrive k bytes)
  match dst with
  | some d => writeReg s k d (BitVec.ofNat 32 x.phase)
  | none => s

/-- One member's thread arrival: its arrival bit set, it waits out the phase first (R207, R208, R311). -/
def arriveThread (s : State) (k : Nat) (t : Thread) (b : Nat) (dst : Option Nat) (bytes scope : Nat) : State :=
  let x := barrierOf s t.team b
  if x.arrived.contains k then waitAtBarrier s k t.team b x.phase (some ⟨dst, bytes⟩) scope
  else
    let s := makeArrival s k t b dst bytes scope
    let s := if isCkpt s t.launch then waitAtBarrier s k t.team b x.phase none scope else s
    barrierTest s t.team b

/-- A thread that held an arrival while a phase was waited out makes it in the new phase, once its release is complete, and goes on, or
waits on in a checkpoint launch (R207, R208, R311). -/
def serveHeld (s : State) (k : Nat) : State :=
  match tget k s.threads with
  | none => s
  | some t =>
    match t.state with
    | .releasing b h sc =>
      let x := barrierOf s t.team b
      if releasePending s k sc then s
      else
        let s := makeArrival s k t b h.dst h.bytes sc
        let s := if isCkpt s t.launch then s.onThread k fun t => { t with state := .barrier b x.phase none sc }
          else makeReady s k t.pc
        barrierTest s t.team b
    | _ => s

/-- Every thread that holds an arrival (R207). -/
def settleHeld (s : State) : State := (s.threads.map (·.1)).foldl serveHeld s

/-- One member of BAR.ARRIVE or BAR.ARRIVEB. A child that makes a thread arrival, and an MD that differs from MODE, are
illegal operands (R206 to R208). Of a g destination only the writers' tokens count (R67); a member's additions may complete a phase
before the next member's count. [DEDUCED: log entry 118] -/
def arriveMember (md b dst scope : Nat) (writers : List Nat) (bytes : State → Thread → Nat) (s : State) (k : Nat) : State :=
  match tget k s.threads with
  | none => s
  | some t =>
    let x := barrierOf s t.team b
    if (md % 2 = 1 && t.child) || (x.mode ≠ 0 && x.mode ≠ md) then takeTrap0 s k 0x03
    else
      let n := bytes s t
      let d := if dst < 384 || writers.contains k then some dst else none
      let s := setBarrier s t.team b { x with mode := md }
      if md % 2 = 1 then arriveThread s k t b d n scope
      else
        let s := setBarrier s t.team b { x with mode := md, bexp := low 64 (x.bexp + n) }
        let s := match d with
          | some d => writeReg s k d (BitVec.ofNat 32 x.phase)
          | none => s
        barrierTest s t.team b

/-- The members arrive in member order; a g destination asks for whole groups (R67). -/
def arriveEffect (c dst : BitVec 9) (bytes : State → Thread → Nat) (s : State) (w : Issuing) (active : List Nat) : State :=
  let bad := if 384 ≤ dst.toNat then ungathered s w active else []
  let s := bad.foldl (fun s k => takeTrap0 s k 0x21) s
  let ok := memberOrder s (active.filter fun k => !bad.contains k)
  ok.foldl (arriveMember (bits c.toNat 5 2) (bits c.toNat 0 5) dst.toNat (barScope c) (uniformWriters s ok) bytes) s

/-- BAR.ARRIVE. -/
def execBarArrive (w : RWord) (s : State) : Host.Outcome State Fault Refusal :=
  issueWord (.barArrive w) 0 7 (arrivalHold (.barArrive w) (bits w.c.toNat 0 5) (barScope w.c)) (arriveEffect w.c w.dst fun _ _ => 0)
    (escapeFirst (.barArrive w) (2 ≤ barScope w.c) s)

/-- BAR.ARRIVEB: the N32 value of A is added to BEXP; under MD 0b10 nobody arrives as a thread. -/
def execBarArriveb (w : RWord) (s : State) : Host.Outcome State Fault Refusal :=
  issueWord (.barArriveb w) 0 7
    (fun s u => bits w.c.toNat 5 2 = 3 && arrivalHold (.barArriveb w) (bits w.c.toNat 0 5) (barScope w.c) s u)
    (arriveEffect w.c w.dst fun s t => src32 s t w.a)
    (escapeFirst (.barArriveb w) (bits w.c.toNat 5 2 = 3 && 2 ≤ barScope w.c) s)

/-- BAR.WAIT: on while PHASE differs from the token, else in BARRIER until it changes; then an acquire at SC. -/
def execBarWait (w : RWord) (s : State) : Host.Outcome State Fault Refusal :=
  issueWord (.barWait w) 0 7 noHold (fun s _ active =>
    (memberOrder s active).foldl (fun s k => match tget k s.threads with
      | none => s
      | some t =>
        let b := bits w.c.toNat 0 5
        let x := barrierOf s t.team b
        if x.phase ≠ src32 s t w.a then acquireFor s k (coreOf s t) (barScope w.c)
        else waitAtBarrier s k t.team b x.phase none (barScope w.c)) s) s

/-! ## Register rows (R70, R71, R210) -/

/-- Registers held: one past the highest. -/
def Group.top (g : Group) : Nat := g.segs.foldl (fun m x => max m (x.first + x.count)) 0

/-- Whether 8-row unit u is free in every slot of a range of a bay (R70, R71). -/
def unitFree (s : State) (core bay slot0 width u : Nat) : Bool :=
  !(s.groups.any fun e => e.2.core = core && e.2.bay = bay && e.2.state ≠ .saved
    && slot0 < e.2.slot0 + e.2.width && e.2.slot0 < slot0 + width
    && e.2.segs.any fun x => x.base < 8 * u + 8 && 8 * u < x.base + x.count)

/-- The lowest row offset with a run of free units, 128 units to a slot (R70, R71). -/
def freeRun (s : State) (core bay slot0 width units : Nat) : Option Nat :=
  ((List.range (129 - min units 129)).find? fun u =>
    (List.range units).all fun i => unitFree s core bay slot0 width (u + i)).map (8 * ·)

/-- The rows of the highest n registers of a group: core, bay, slot and row of each member's (R71). -/
def topRows (g : Group) (n : Nat) : List (Nat × Nat × Nat × Nat) :=
  g.segs.flatMap fun x => (List.range x.count).flatMap fun i =>
    if g.top ≤ x.first + i + n then (List.range g.width).map fun m => (g.core, g.bay, g.slot0 + m, x.base + i) else []

/-- The segments left when the highest n registers go back, a segment split where needed (R71). -/
def dropTop (g : Group) (n : Nat) : List Segment :=
  g.segs.filterMap fun x =>
    let keep := g.top - n
    if keep ≤ x.first then none else some { x with count := min x.count (keep - x.first) }

/-- The limits of R71 on a CLAIM of k registers. -/
def claimIllegal (g : Group) (k : Nat) : Bool := 384 < g.top + k || 4 ≤ g.segs.length

/-- The limits of R71 on a RELEASE of k registers. -/
def releaseIllegal (g : Group) (k : Nat) : Bool := g.top < k + 8

/-- The rendezvous of CLAIM and RELEASE for one member, over the live mask, unless its check gives a cause and its INFO (R71). -/
def arriveGroupWide (i : Instr) (check : State → Group → Option (Nat × Nat)) (s : State) (k : Nat) : State :=
  match tget k s.threads with
  | none => s
  | some t =>
    match t.group, groupOf s t with
    | some g, some gr =>
      match check s gr with
      | some (c, info) => takeTrap s k c 0 info
      | none => absentTraps (enterRendezvous s k g ⟨t.curWord, 0, false, 0, 0, false, false, i⟩) g
    | _, _ => s

/-- Members of a complete CLAIM: the request joins its bay's queue and they wait in CLAIMING (R71, R210). -/
def completeClaim (s : State) (g : Nat) (gr : Group) (units : Nat) (ms : List Arrival) : State :=
  let order := (s.core gr.core).nextClaim
  let s := s.onCore gr.core fun c => { c with nextClaim := c.nextClaim + 1 }
  let s := s.onGroup g fun gr => { gr with claim := some ⟨units, order, s.clk⟩ }
  ms.foldl (fun s a => s.onThread a.key fun t => { t with state := .claiming }) s

/-- Members of a complete RELEASE wait until no write into the released registers is pending; then the rows go back (R210). -/
def completeRelease (s : State) (g : Nat) (gr : Group) (n : Nat) (ms : List Arrival) : State :=
  let keep := gr.top - n
  let released := (List.range n).map (keep + ·)
  if ms.any fun a => released.any fun r => pendingFixed s a.key a.thread r || pendingVariable s a.key r then s
  else
    let s := (shedRows s g keep).onGroup g fun gr => { gr with segs := dropTop gr n }
    ms.foldl (fun s a =>
      makeReady (s.onThread a.key fun t => { t with regs := t.regs.filter fun e => e.1 < keep }) a.key (afterWord a.thread)) s

/-- CLAIM and RELEASE of a group take effect once every live member has arrived (R71). -/
def completeGroupWide (s : State) (g : Nat) : State :=
  match tget g s.groups with
  | none => s
  | some gr =>
    match ((groupThreads s g).filterMap fun e => rendezvousOf e.2).find? fun r => r.mask = 0 with
    | none => s
    | some r =>
      let ms := arrivals s g r.addr 0
      if !allArrived gr 0 ms then s
      else
        match r.word with
        | .claim w => completeClaim s g gr (w.c.toNat / 8) ms
        | .release w => completeRelease s g gr w.c.toNat ms
        | _ => s

/-- The groups of an issue set. -/
def groupsOf (s : State) (ks : List Nat) : List Nat :=
  (ks.filterMap fun k => (tget k s.threads).bind (·.group)).eraseDups

/-- A CLAIM or RELEASE word. -/
def groupWideEffect (i : Instr) (check : State → Group → Option (Nat × Nat)) (s : State) (_ : Issuing) (active : List Nat) :
    State :=
  let gs := groupsOf s active
  let s := (memberOrder s active).foldl (arriveGroupWide i check) s
  gs.foldl completeGroupWide s

/-- CLAIM. -/
def execClaim (w : RWord) (s : State) : Host.Outcome State Fault Refusal :=
  issueWord (.claim w) 0 7 noHold (groupWideEffect (.claim w) fun _ g =>
    if claimIllegal g w.c.toNat then some (0x03, 0) else none) s

/-- The lock entry of the first row among the highest n registers of a group that a copy has locked (R71, R297). -/
def releaseConflict (s : State) (g : Group) (n : Nat) : Option Nat :=
  if s.rowLocks.isEmpty then none else (topRows g n).findSome? (rowLock s)

/-- RELEASE: rows that a copy has locked raise the range-lock conflict trap. -/
def execRelease (w : RWord) (s : State) : Host.Outcome State Fault Refusal :=
  issueWord (.release w) 0 7 noHold (groupWideEffect (.release w) fun s g =>
    if releaseIllegal g w.c.toNat then some (0x03, 0) else (releaseConflict s g w.c.toNat).map ((0x14, ·))) s

end Sys2Proof.Machine
end

