-- ==== Sys2Proof/Machine/Onchip.lean ====
section
/-! DEFINITION. Writes through the on-chip map (spec/01_organisation.md R18 to R21, spec/05_execution.md R69, R73, R74). -/

namespace Sys2Proof.Machine

/-- A barrier with one of its words written; reserved bits keep zero (R69). -/
def barrierWithWord (x : Barrier) (n v : Nat) : Barrier :=
  match n with
  | 0 => { x with mode := bits v 32 2, phase := bits v 0 32 }
  | 1 => { x with tarr := bits v 32 13, texp := bits v 0 13 }
  | 2 => { x with bexp := low 64 v }
  | _ => { x with barr := low 64 v }

/-- A word of a core's control region written by system-mode software: CAGE_TMO at any time, barrier state of a team that is
being saved or saved, whose waiters go on and whose conditions are tested; every other write is ignored (R68, R69, R74). -/
def writeCoreWord (s : State) (core off v : Nat) : State :=
  if off = 0 then
    if 16 ≤ bits v 0 16 then s.onCore core fun c => { c with cageTmo := bits v 0 16 } else s
  else if 0x10000 ≤ off && off < 0x20000 then
    match teamAtSlot s core ((off - 0x10000) / 0x400) with
    | some (k, t) =>
      if (t.state = .saving || t.state = .saved) && t.cores.head?.map (·.1) = some core then
        let b := off % 0x400 / 0x20
        barrierTest (wakeBarrier (setBarrier s k b (barrierWithWord (barrierOf s k b) (off % 0x20 / 8) v)) k b) k b
      else s
    | none => s
  else s

/-- A word with one byte replaced. -/
def putByte (w n : Nat) (b : Byte) : Nat := putBits w (8 * n) 8 b.toNat

/-- A byte of the on-chip map written: rows land in their owner's register, control words as system software may (R73, R74). -/
def writeOnchipByte (s : State) (pa : Nat) (b : Byte) : State :=
  match regionOf s pa with
  | (_, .scratchpad _) => { s with mem := memWrite s.mem pa b }
  | (_, .accumulator _ _) => { s with mem := memWrite s.mem pa b }
  | (core, .register bay slot row n) =>
    match (rowOwner s core bay slot row).bind fun (g, m, r) => (memberThread s g m).map fun (k, t) => (k, t, r) with
    | some (k, t, r) => putReg s k r (BitVec.ofNat 32 (putByte (readReg s t r).toNat n b))
    | none =>
      let key := rowKey core bay slot row
      let x : Word32 := BitVec.ofNat 32 (putByte (tgetD key 0 s.rows).toNat n b)
      { s with rows := if x = 0 then tdel key s.rows else tset key x s.rows }
  | (core, .control off) => writeCoreWord s core (off / 8 * 8) (putByte (coreWord s core (off / 8 * 8)) (off % 8) b)
  | (_, .unassigned) => s

/-- Whether an on-chip address lies in a control region. -/
def isControlByte (s : State) (pa : Nat) : Bool :=
  match regionOf s pa with
  | (_, .control _) => true
  | _ => false

/-- The control words that bytes lie in are written with those bytes replaced, each word once (R74). -/
def writeControlWords (s : State) (bs : List (Nat × Byte)) : State :=
  ((bs.map fun b => b.1 / 8 * 8).eraseDups).foldl (fun s a =>
    match regionOf s a with
    | (core, .control off) =>
      writeCoreWord s core off ((bs.filter fun b => b.1 / 8 * 8 = a).foldl (fun v b => putByte v (b.1 % 8) b.2) (coreWord s core off))
    | _ => s) s

/-- Bytes written through the on-chip map, by address. [DEDUCED: log entry 105] -/
def writeOnchip (s : State) (bs : List (Nat × Byte)) : State :=
  let s' := (bs.filter fun b => !isControlByte s b.1).foldl (fun s b => writeOnchipByte s b.1 b.2) s
  writeControlWords s' (bs.filter fun b => isControlByte s b.1)

/-- Whether a write through the on-chip map may land: a register row must belong to a group of the writer's context, and a
control offset must be assigned (R21, R73, R74). -/
def onchipWritable (s : State) (ctx pa n : Nat) : Bool :=
  (addrs pa n).all fun a => match regionOf s a with
    | (core, .register bay slot row _) =>
      match rowOwner s core bay slot row with
      | some (g, _, _) => (tget g s.groups).map (·.ctx) = some ctx
      | none => false
    | (_, .control off) => coreOffsetAssigned off
    | (_, .unassigned) => false
    | _ => true

end Sys2Proof.Machine
end

