-- ==== Sys2Proof/Machine/Access.lean ====
section
/-! DEFINITION. The address checks of a thread's access and the reading and writing of what it reaches (spec/15_ops_memory.md
R187, R191; spec/07_memory.md R78, R84, R97, R98; spec/09_matrix_engine.md R122; spec/21_pipelines_training.md R275). -/

namespace Sys2Proof.Machine

/-- Why an access may not be made: the cause, the failing address, and INFO. -/
structure Bad where
  cause : Nat
  faddr : Nat
  info : Nat
  deriving DecidableEq, Repr

/-- A failed check that ended in the translation trap records the poisoned entry that its walk met, if any (R302). -/
def badWalk (s : State) (k : Nat) (b : Bad) : State :=
  if b.cause = 0x10 then
    match tget k s.threads with
    | some t => poisonedWalk s (dieOfCore (coreOf s t)) t.ctx b.faddr (launchIdOf s t)
    | none => s
  else s

/-- A member takes the trap of a failed check. -/
def takeBad (s : State) (k : Nat) (b : Bad) : State := takeTrap (badWalk s k b) k b.cause b.faddr b.info

/-! ## Version windows (R275) -/

/-- The version windows that bind a thread, as channel, WIN and LEN: those its selections recorded, and of other channels those
that its launch's admission checked (R274, R275). [DEDUCED: log entry 81] -/
def windowsOf (s : State) (t : Thread) : List (Nat × Nat × Nat) :=
  t.versions.map (fun v => (v.ch, v.win, v.len))
    ++ (((tget t.launch s.launches).map (·.windows)).getD []).filter fun w => t.versions.all fun v => v.ch ≠ w.1

/-- The version window of a thread that holds an address: channel, WIN, LEN. [DEDUCED: log entry 81] -/
def windowOf (s : State) (t : Thread) (va : Nat) : Option (Nat × Nat × Nat) :=
  (windowsOf s t).find? fun w => w.2.1 ≤ va && va < w.2.1 + w.2.2

/-- The bytes from an address on up to the next edge of a version window of the thread, at most n. -/
def windowRoom (s : State) (t : Thread) (va n : Nat) : Nat :=
  (windowsOf s t).foldl (fun n w =>
    let n := if va < w.2.1 then min n (w.2.1 - va) else n
    if va < w.2.1 + w.2.2 then min n (w.2.1 + w.2.2 - va) else n) n

/-- The lowest address of a range that lies in a version window of the thread. -/
def windowLow (s : State) (t : Thread) (va len : Nat) : Option Nat :=
  (windowsOf s t).foldl (fun best w =>
    if va < w.2.1 + w.2.2 && w.2.1 < va + len then
      some (match best with
        | some b => min b (max va w.2.1)
        | none => max va w.2.1)
    else best) none

/-- Where an access to an address is made: itself, or in the recorded slot of the thread's selection for a read that R275
redirects; the flag tells a redirected read, which bypasses L1. [DEDUCED: log entry 81] -/
def windowed (s : State) (t : Thread) (redirects : Bool) (va : Nat) : Except Bad (Nat × Bool) :=
  match windowOf s t va with
  | none => .ok (va, false)
  | some (ch, win, _) =>
    match t.versions.find? fun v => v.ch = ch with
    | some v => if redirects then .ok (low 64 (v.base + (va - win)), true) else .error ⟨0x11, va, 0⟩
    | none => .error ⟨0x11, va, 0⟩

/-! ## Accumulators (R122) -/

/-- The accumulators that a command names (R108, R110). -/
def MatrixKind.tiles : MatrixKind → List Nat
  | .mmul _ acc accs => [acc, accs]
  | .mmerge d l r => [d, l, r]
  | .mdrain _ _ _ acc _ _ _ => [acc]

/-- RED of a configuration record (R112). -/
def MatrixCfg.red (c : MatrixCfg) : Bool := bit c.sel3.toNat 2

/-- Every accumulator that a command names; under RED the copies as well (R110). -/
def MatrixEntry.tiles (e : MatrixEntry) : List Nat :=
  if e.cfg.red then e.kind.tiles ++ e.kind.tiles.map (· + 8) else e.kind.tiles

/-- Whether a tile of a core is busy: named by a command from its posting to its retirement. [DEDUCED: log entry 59] -/
def tileBusy (s : State) (core n : Nat) : Bool :=
  s.matrix.any fun e => e.2.cores.contains core && e.2.tiles.contains n

/-- Whether teams of another context alone are resident on a core. -/
def foreignCore (s : State) (core ctx : Nat) : Bool :=
  let ts := teamsOn s core
  !ts.isEmpty && ts.all fun x => x.2.1.ctx ≠ ctx

/-- The lock entry of a register row of a thread's own among consecutive bytes of the on-chip map that a copy has locked (R73). -/
def rowsHeld (s : State) (t : Thread) (pa n : Nat) : Option Nat :=
  if s.rowLocks.isEmpty then none
  else (addrs pa n).findSome? fun a => match regionOf s a with
    | (core, .register bay slot row _) =>
      if (rowOwner s core bay slot row).any fun o => t.group = some o.1 && t.member = o.2.1 then rowLock s (core, bay, slot, row) else none
    | _ => none

/-- What else a thread's access to the on-chip map must pass: assigned offsets, owned rows, rows of its own that no copy has locked, and
accumulators that are not busy (R73, R122). [DEDUCED: log entry 59] -/
def onchipCheck (s : State) (t : Thread) (pa n : Nat) (write : Bool) (va : Nat) : Option Bad :=
  match regionOf s pa with
  | (core, .accumulator k _) =>
    if foreignCore s core t.ctx then some ⟨0x11, va, 0⟩
    else if tileBusy s core k then some ⟨0x14, va, 0⟩
    else none
  | _ =>
    if !(if write then onchipWritable s t.ctx pa n else onchipReadable s pa n) then some ⟨0x11, va, 0⟩
    else (rowsHeld s t pa n).map fun info => ⟨0x14, va, info⟩

/-! ## The checks of R187 -/

/-- Steps 2 to 4 for one aligned access: alignment, window, translation, permission; the control space takes 4 or 8 bytes (R77). The address it is made at, whether it
bypasses L1 for a window, and its target. -/
def checkPlain (s : State) (t : Thread) (need : Need) (redirects : Bool) (va size : Nat) : Except Bad (Nat × Bool × Target) :=
  if va % size ≠ 0 then .error ⟨0x12, va, 0⟩
  else
    match windowed s t redirects va with
    | .error b => .error b
    | .ok (va, bypass) =>
      match resolve s (dieOfCore (coreOf s t)) t.ctx t.team { need with sys := t.sys } va with
      | .error c => .error ⟨c, va, 0⟩
      | .ok (.control o) => if size = 4 || size = 8 then .ok (va, bypass, .control o) else .error ⟨0x12, va, 0⟩
      | .ok tgt => .ok (va, bypass, tgt)

/-- The checks of a load or store before its range locks: those of `checkPlain` and the on-chip rules. -/
def checkAccess (s : State) (t : Thread) (need : Need) (redirects : Bool) (va size : Nat) : Except Bad (Nat × Bool × Target) :=
  match checkPlain s t need redirects va size with
  | .error b => .error b
  | .ok (va, bypass, .onchip pa) =>
    match onchipCheck s t pa size need.wr va with
    | some b => .error b
    | none => .ok (va, bypass, .onchip pa)
  | .ok r => .ok r

/-- The range-lock check, step 6. -/
def checkLocks (s : State) (t : Thread) (va size : Nat) (write : Bool) : Except Bad Unit :=
  match rangeConflict s (coreOf s t) t.ctx va size write with
  | some info => .error ⟨0x14, va, info⟩
  | none => .ok ()

/-- Both. -/
def checkBoth (s : State) (t : Thread) (need : Need) (redirects : Bool) (va size : Nat) : Except Bad (Nat × Bool × Target) :=
  match checkAccess s t need redirects va size with
  | .error b => .error b
  | .ok r =>
    match checkLocks s t r.1 size need.wr with
    | .error b => .error b
    | .ok _ => .ok r

/-- What a read needs of its page, a write, and both. -/
def needRead : Need := ⟨true, false, false, false⟩
def needWrite : Need := ⟨false, true, false, false⟩
def needBoth : Need := ⟨true, true, false, false⟩

/-! ## Bytes -/

/-- The poisoned granule that a read of an HBM or on-chip target would use: of a word of L1 where L1 serves the byte (R315). -/
def targetPoison (s : State) (core : Nat) (viaL1 : Bool) (tgt : Target) (n : Nat) : Option Nat :=
  if s.poison.isEmpty then none
  else
    match tgt with
    | .hbm pa =>
      if !viaL1 then poisonedAt s pa n
      else match l1PoisonedAt s core pa n with
        | some g => some g
        | none => if (addrs pa n).all fun a => (tget (l1Key core a) s.l1).isSome then none else poisonedAt s pa n
    | .control _ => none
    | .peer _ _ => none
    | t => poisonedAt s t.pa n

/-- The bytes of a target as a thread's access reads them; bytes that no register, memory or unit of this package gives are
free values. Control registers are read apart. [DESIGN CHOICE: log entry 50] -/
def targetBytes (s : State) (core team : Nat) (viaL1 : Bool) (tgt : Target) (n : Nat) : List Byte × State :=
  match tgt with
  | .hbm pa => ((addrs pa n).map (loadByte s core team viaL1), s)
  | .scratch c o => ((addrs (onchipPa c o) n).map (memRead s.mem), s)
  | .onchip pa =>
    ((addrs pa n).map (onchipByte s), s)
  | _ =>
    (List.range n).foldl (fun acc _ => let (x, s) := acc.2.draw; (acc.1 ++ [BitVec.ofNat 8 x.toNat], s)) ([], s)

/-- Bytes written at scratchpad or on-chip addresses at once; the poison of what they cover wholly is cleared. -/
def writeNow (s : State) (bs : List (Nat × Byte)) : State := clearPoison (writeOnchip s bs) bs

/-! ## Order of one thread's accesses to the same bytes (R92) -/

/-- Whether two targets share a byte. -/
def overlaps (a : Target) (n : Nat) (b : Target) (m : Nat) : Bool := a.space = b.space && a.pa < b.pa + m && b.pa < a.pa + n

/-- An outstanding read of the thread touches bytes of a target. -/
def Op.readsBytes (o : Op) (k : Nat) (tgt : Target) (n : Nat) : Bool :=
  match o with
  | .load o => o.members.any fun m => m.thread = k && !m.done && overlaps m.target (sizeBytes o.size) tgt n
  | .tile o => !o.storing && o.c.thread = k && o.rows.any fun r => r.any fun p => overlaps p.1 p.2 tgt n
  | _ => false

/-- An outstanding write of the thread touches bytes of a target. -/
def Op.writesBytes (o : Op) (k : Nat) (tgt : Target) (n : Nat) : Bool :=
  match o with
  | .store o => o.of k && o.touches tgt n
  | .atom o => (o.members.any fun m => m.thread = k) && overlaps o.target 8 tgt n
  | .tile o => o.storing && o.c.thread = k && o.rows.any fun r => r.any fun p => overlaps p.1 p.2 tgt n
  | .disc o => o.c.thread = k && o.sectors.any fun x => x < tgt.pa + n && tgt.pa < x + 64
  | _ => false

/-- A store older than an operation that threads of a core already see has still to be performed at some bytes of a target, so that a
point past the given level does not show it: past the core's L1 at level 1, at the home at level 2 (R92).
[DEDUCED: log entry 48] -/
def seenPending (s : State) (id core level : Nat) (tgt : Target) (n : Nat) : Bool :=
  tgt.isHbm && s.ops.any fun e => e.1 < id && match e.2 with
    | .store o => !o.held && o.target.isHbm && o.touches tgt n
        && ((1 ≤ level && o.core = core && o.die.isNone) || (2 ≤ level && o.die.isSome && dieOfCore o.core = dieOfCore core))
    | _ => false

/-- An STT holds the line of a target exclusively (R101). -/
def lineHeld (s : State) (tgt : Target) (n : Nat) : Bool :=
  s.ops.any fun e => match e.2 with
    | .tile o => o.storing && tgt.isHbm && o.locked.any fun l => l < tgt.pa + n && tgt.pa < l + 256
    | _ => false

/-! ## Writes at home (R81, R90, R101, R104, R315) -/

/-- A line pinned by a tile fetch unit (R116). -/
def linePinned (s : State) (line : Nat) : Bool := s.matrix.any fun e => e.2.pins.any fun p => p.lines.contains line

/-- A dirty sector of an L2 slice is written back to HBM; its line is no longer marked once it holds no dirty data. A held bank
takes no writes, and a pinned line stays (R81, R86, R116, R320). -/
def writeBack (s : State) (sector : Nat) : State :=
  let as := addrs (sector * 64) 64
  let dirty := as.filterMap fun a => (tget a s.l2).map fun b => (a, b)
  if dirty.isEmpty || bankHeld s (sector * 64) || linePinned s (sector / 4) then s
  else
    let s := { s with
      mem := dirty.foldl (fun m (e : Nat × Byte) => memWrite m e.1 e.2) s.mem
      l2 := s.l2.filter fun e => e.1 / 64 ≠ sector }
    let line := sector / 4
    let s := { s with evictFirst := s.evictFirst.filter fun l => l ≠ line || s.l2.any fun e => e.1 / 256 = line }
    noteActivation s (sector * 64)

/-- A write lands on scale bytes of an enabled window (R90). -/
def onScale (s : State) (tgt : Target) (n : Nat) : Bool := tgt.isHbm && (addrs tgt.pa n).any fun a => (scaledBlock s a).isSome

/-- The sectors of the blocks whose scale bytes lie among consecutive bytes of a target (R90). -/
def blockSectors (s : State) (tgt : Target) (n : Nat) : List Nat :=
  if !tgt.isHbm then []
  else ((addrs tgt.pa n).flatMap fun a => match scaledBlock s a with
    | some (base, len) => (List.range (ceilDiv len 64)).map fun i => base / 64 + i
    | none => []).eraseDups

/-- A sector's dirty bytes have still to come home from some die (R81, R90). -/
def dirtyAbroad (s : State) (sector : Nat) : Bool := s.ops.any fun e => match e.2 with
  | .store o => o.target.isHbm && o.die.isSome && o.bytes.any fun (b : Nat × Byte) => b.1 / 64 = sector
  | _ => false

/-- The sectors are written back to HBM and no die keeps a copy of their lines (R81, R90). -/
def cleanSectors (s : State) (sectors : List Nat) : State :=
  let s := sectors.foldl writeBack s
  { s with presence := s.presence.filter fun e => !(sectors.any fun x => x / 4 = e.1) }

/-- Lines of the blocks whose scale bytes are to be written cannot be written back and dropped yet: a tile fetch unit has pinned one,
some die has dirty bytes of one that have still to come home, or a bank is held (R90, R116, R320). -/
def blocksWait (s : State) (sectors : List Nat) : Bool :=
  sectors.any fun x => linePinned s (x / 4) || dirtyAbroad s x || bankHeld s (x * 64)

/-- A write at home of consecutive bytes waits: a tile holds their line, or they are scale bytes whose blocks' lines cannot leave the L2
yet (R90, R101). -/
def writeWaits (s : State) (tgt : Target) (n : Nat) : Bool := lineHeld s tgt n || blocksWait s (blockSectors s tgt n)

/-- The contexts whose winze TARGET lies among bytes of HBM just written: the winze controller is to look at it (R272). -/
def noteTargets (s : State) (pas : List Nat) : State :=
  s.contexts.foldl (fun s e =>
    if e.2.state ≠ 1 || e.2.desc.wz = 0 then s
    else match resolve s (firstDie s e.1) e.1 0 ⟨true, true, false, true⟩ (low 64 (e.2.desc.wz + 0x18)) with
      | .ok (.hbm pa) => if pas.any fun a => pa ≤ a && a < pa + 8 then s.onContext e.1 fun c => { c with targeted := true } else s
      | _ => s) s

/-- Bytes written at their homes, once the lines of the blocks that they scale have left the L2; the poison of sectors that they cover
is cleared, and the winze controller looks at a TARGET among them (R81, R90, R272, R315). -/
def storeHome (s : State) (pa : Nat) (bs : List Byte) : State :=
  let s := writeHomes (cleanSectors s (blockSectors s (.hbm pa) bs.length)) pa bs
  noteTargets (clearPoison s ((addrs pa bs.length).zip bs)) (addrs pa bs.length)

/-- An atomic counted for home migration: by region and source die (R104). [DEDUCED: log entry 56] -/
def countAtomic (s : State) (pa die : Nat) : State :=
  let key := (pa / 65536, die)
  let n := ((s.atomCounts.find? fun e => e.1 = key).map (·.2)).getD 0
  { s with atomCounts := (key, n + 1) :: s.atomCounts.filter fun e => e.1 ≠ key }

/-! ## Writer entries (R106) -/

/-- The writer entry of a line for a launch: first, rel, second, count, disc. -/
def writerOf (s : State) (launch line : Nat) : Option (Nat × Nat × Option Nat × Nat × Bool) :=
  (s.writers.find? fun e => e.1 = (launch, line)).map (·.2)

/-- A writer entry set. -/
def setWriter (s : State) (launch line : Nat) (e : Nat × Nat × Option Nat × Nat × Bool) : State :=
  { s with writers := ((launch, line), e) :: s.writers.filter fun x => x.1 ≠ (launch, line) }

/-- A non-atomic write of a team to a line of a deterministic launch: the writer entry, and RACE_RECORD (R106).
[DEDUCED: log entry 54] -/
def noteWrite (s : State) (team pa va : Nat) : State :=
  match tget team s.teams with
  | none => s
  | some t =>
    match tget t.launch s.launches with
    | none => s
    | some l =>
      if !l.k.det then s
      else
        let line := pa / 256
        let fresh := (team, t.releases, (none : Option Nat), 1, false)
        match writerOf s t.launch line with
        | none => setWriter s t.launch line fresh
        | some (first, rel, second, count, disc) =>
          let firstTeam := tget first s.teams
          if first ≠ team && rel < (firstTeam.map (·.releases)).getD 0 then setWriter s t.launch line fresh
          else if first = team || second = some team then s
          else
            let count := min (count + 1) 15
            let s := setWriter s t.launch line (first, rel, (match second with
              | none => some team
              | some x => some x), count, disc)
            errorRecord s t.ctx 1 0 0 (leBytes 8 (line * 256) ++ leBytes 8 va ++ leBytes 8 ((firstTeam.map (·.index)).getD 0)
              ++ leBytes 8 t.index ++ leBytes 8 (t.ctx + count * 2 ^ 16 + (if disc then 2 ^ 24 else 0)) ++ leBytes 8 l.id)

/-- A DISC of a line by a team is kept in its writer entry (R87, R106). [DEDUCED: log entry 54] -/
def noteDisc (s : State) (team pa : Nat) : State :=
  match tget team s.teams with
  | none => s
  | some t =>
    match writerOf s t.launch (pa / 256) with
    | some (first, rel, second, count, _) => setWriter s t.launch (pa / 256) (first, rel, second, count, true)
    | none => s

/-! ## Held stores of a checkpoint interval (R312, R313) -/

/-- The sectors that a core's hold buffer keeps. -/
def heldSectors (s : State) (core : Nat) : List Nat :=
  (s.ops.flatMap fun e => match e.2 with
    | .store o => if o.held && o.core = core then o.bytes.map fun (b : Nat × Byte) => b.1 / 64 else []
    | _ => []).eraseDups

/-- Whether a store of a team goes to the hold buffer: its launch keeps an interval that has not lost its rollback. -/
def holdsStores (s : State) (team : Nat) : Bool :=
  ((tget team s.teams).bind (·.interval)).any fun iv => !iv.lost

/-- A write of a replay beyond its team's scratchpad: into its own buffer within the output range, else it is discarded and the
sample cannot be verified (R319). [DEDUCED: log entry 89] -/
def replayWrite (s : State) (n : Nat) (x : Sample) (va : Nat) (bytes : List (Nat × Byte)) : State :=
  if x.out ≤ va && va + bytes.length ≤ x.out + x.len then
    { s with samples := tset n { x with buffer := bytes.foldl (fun b e => tset e.1 e.2 b) x.buffer } s.samples }
  else { s with samples := tset n { x with unverifiable := true } s.samples }

/-- A store of a thread or engine of a team to local HBM begins: into the hold buffer, whose 1,025th sector ends the
rollback, or on its way (R312, R313); other targets take no hold. [DEDUCED: log entry 88] -/
def beginStore (s : State) (o : StoreOp) : State :=
  if o.target.isHbm && holdsStores s o.team then
    let sectors := (heldSectors s o.core ++ o.bytes.map fun (b : Nat × Byte) => b.1 / 64).eraseDups
    if 1024 < sectors.length then (loseRollback s o.team).beginOp (.store o)
    else s.beginOp (.store { o with held := true })
  else s.beginOp (.store o)

end Sys2Proof.Machine
end

