-- ==== Sys2Proof/Machine/LoadStore.lean ====
section
/-! DEFINITION. Loads, stores, full-empty accesses, DISC and PREF at their issue (spec/15_ops_memory.md R190 to R193, R196,
R197). Their completion is in the events of memory. -/

namespace Sys2Proof.Machine

/-! ## Loads -/

/-- The sectors of a line that an access touches, bit by bit (R85). -/
def sectorBits (pa n : Nat) : Nat :=
  (List.range 4).foldl (fun m i =>
    let lo := pa / 256 * 256 + 64 * i
    if lo < pa + n && pa < lo + 64 then m + 2 ^ i else m) 0

/-- The line requests of a load, in the order of their first members (R85). -/
def lineRequests (size : Nat) (ms : List LoadMember) : List LineReq :=
  ms.foldl (fun reqs m => match m.target with
    | .hbm pa =>
      let line := pa / 256
      let add := sectorBits pa (sizeBytes size)
      if reqs.any (·.line = line) then
        reqs.map fun r => if r.line = line then { r with sectors := r.sectors ||| add } else r
      else reqs ++ [⟨line, add, false, 0⟩]
    | _ => reqs) []

/-- Whether L1 may serve the load: policy .CA at a scope up to .cp (R191). -/
def LoadKind.viaL1 (k : LoadKind) (scope : Nat) : Bool := k = .ca && scope ≤ 2

/-- One member of a load passes its checks and is added, or takes its trap; a member whose access bypasses L1 for a version
window is kept apart. -/
def checkLoad (kind : LoadKind) (w : MWord) (writers : List Nat) (acc : State × List LoadMember × List LoadMember) (k : Nat) :
    State × List LoadMember × List LoadMember :=
  let (s, plain, window) := acc
  match tget k s.threads with
  | none => acc
  | some t =>
    let va := effectiveVa s t w
    let n := sizeBytes w.size.toNat
    match checkBoth s t needRead true va n with
    | .error b => (takeBad s k b, plain, window)
    | .ok (va, bypass, tgt) =>
      match targetPoison s (coreOf s t) (kind.viaL1 w.scope.toNat && !bypass) tgt n with
      | some g => (consumePoison s k va tgt.pa g, plain, window)
      | none =>
        let m : LoadMember := ⟨k, if w.dst.toNat < 384 || writers.contains k then some w.dst.toNat else none, va, tgt, false⟩
        if bypass then (s, plain, window ++ [m]) else (s, plain ++ [m], window)

/-- A load begins for its members: the operation, its requests, and its counters (R188, R190). -/
def beginLoad (s : State) (kind : LoadKind) (core : Nat) (w : MWord) (acq : Bool) (ms : List LoadMember) : State :=
  if ms.isEmpty then s
  else
    let size := w.size.toNat
    let word := (((ms.head?).bind fun m => tget m.thread s.threads).map fun t => (t.curHdr, t.curWord)).getD (0, 0)
    let s := ms.foldl (fun s m => raiseCtr s ⟨m.thread, w.ctr.toNat⟩) s
    s.beginOp (.load ⟨kind, core, w.ctr.toNat, size, w.scope.toNat, acq, ms, lineRequests size ms, word⟩)

/-- Accesses that leave the device's HBM and scratchpads end an interval's rollback: peer pages and the on-chip map (R313). -/
def escapeTarget (s : State) (k : Nat) (tgt : Target) : State :=
  match tgt with
  | .peer _ _ => escape s k
  | .onchip _ => escape s k
  | _ => s

/-- The effect of a load at issue. -/
def loadEffect (kind : LoadKind) (acq : Bool) (w : MWord) (s : State) (u : Issuing) (active : List Nat) : State :=
  let bad := if 384 ≤ w.dst.toNat then ungathered s u active else []
  let s := bad.foldl (fun s k => takeTrap0 s k 0x21) s
  let ok := memberOrder s (active.filter fun k => !bad.contains k)
  let (s, plain, window) := ok.foldl (checkLoad kind w (uniformWriters s ok)) (s, [], [])
  let s := (plain ++ window).foldl (fun s m => escapeTarget s m.thread m.target) s
  beginLoad (beginLoad s kind u.core w acq plain) .cg u.core w acq window

/-- Targets that members of a word reach, for the holds of R92. -/
def memberTargets (s : State) (u : Issuing) (i : Instr) (redirects : Bool) (need : Need) (va : State → Thread → Nat) (n : Nat) :
    List (Nat × Target) :=
  (activeMembers s u i).filterMap fun k => (tget k s.threads).bind fun t =>
    match checkAccess s t need redirects (va s t) n with
    | .ok (_, _, tgt) => some (k, tgt)
    | .error _ => none

/-- A load waits for the thread's own stores to the control space (R92). -/
def controlHold (s : State) (u : Issuing) : Bool :=
  u.members.any fun k => s.ops.any fun e => match e.2 with
    | .store o => o.of k && (match o.target with
      | .control _ => true
      | _ => false)
    | _ => false

/-- A load word. -/
def loadWord (i : Instr) (kind : LoadKind) (acq : Bool) (w : MWord) : State → Host.Outcome State Fault Refusal :=
  issueWord i 0 w.ctr.toNat controlHold (loadEffect kind acq w)

/-- LD.CA. -/
def execLdCa (w : MWord) (s : State) : Host.Outcome State Fault Refusal := loadWord (.ldCa w) .ca false w s

/-- LD.CG. -/
def execLdCg (w : MWord) (s : State) : Host.Outcome State Fault Refusal := loadWord (.ldCg w) .cg false w s

/-- LD.LU. -/
def execLdLu (w : MWord) (s : State) : Host.Outcome State Fault Refusal := loadWord (.ldLu w) .lu false w s

/-- LD.CA.ACQ. -/
def execLdCaAcq (w : MWord) (s : State) : Host.Outcome State Fault Refusal := loadWord (.ldCaAcq w) .ca true w s

/-- LD.CG.ACQ. -/
def execLdCgAcq (w : MWord) (s : State) : Host.Outcome State Fault Refusal := loadWord (.ldCgAcq w) .cg true w s

/-! ## Full-empty bits (R83) -/

/-- The value of a load by its size code: zero- or sign-extended below 32 bits (R190). -/
def loadedValue (size : Nat) (bs : List Byte) : Nat :=
  let v := leValue bs
  if size = 1 then wrap 32 (signed 8 v) else if size = 3 then wrap 32 (signed 16 v) else v

/-- Registers that a loaded value fills. -/
def loadRegs (size : Nat) : Nat := if size = 5 then 2 else if size = 6 then 4 else 1

/-- The poisoned word that a GRANULE wait would read. -/
def granulePoison (s : State) (o : GranuleOp) : Option Nat :=
  if s.poison.isEmpty then none else poisonedAt s (onchipPa o.core o.off) (sizeBytes o.size)

/-- The thread of a wait belongs to a team that is being saved: a wait on poison stays, to be issued again (R189, R305).
[DEDUCED: log entry 108] -/
def waiterSaving (s : State) (c : Counted) : Bool := (tget c.thread s.threads).any fun t => teamSaving s t.team

/-- A GRANULE wait ends: the bytes are read and the member goes on; poisoned bytes are consumed (R193, R316). -/
def serveGranule (s : State) (id : Nat) (o : GranuleOp) : State :=
  let pa := onchipPa o.core o.off
  match granulePoison s o with
  | some g => if waiterSaving s o.c then s else consumePoison (lowerCtr (s.endOp id) o.c) o.c.thread o.va pa g
  | none =>
    let bs := (addrs pa (sizeBytes o.size)).map (memRead s.mem)
    let s := match o.dst with
      | some d => writeRegs s o.c.thread d (loadRegs o.size) (loadedValue o.size bs)
      | none => s
    let s := lowerCtr (s.endOp id) o.c
    match tget o.c.thread s.threads with
    | some t => if t.state = .granule id then makeReady s o.c.thread t.pc else s
    | none => s

/-- LDFE_WAKE: the oldest wait on a full granule reads, together with the members of the same issued instruction that wait on it; with
.CLR the bit clears once, where some member has read (R83). Waits without .CLR leave it full, so the next one is served as well.
[DEDUCED: log entry 51] -/
def wakeGranule (g : Nat) : Nat → State → State
  | 0, s => s
  | fuel + 1, s =>
    if !s.full.contains g then s
    else
      let mine := s.ops.filterMap fun e => match e.2 with
        | .granule o => if granuleOf o.core o.off = g then some (e.1, o) else none
        | _ => none
      match (mine.filter fun e => (granulePoison s e.2).isNone || !waiterSaving s e.2.c).head? with
      | none => s
      | some (_, first) =>
        let same := mine.filter fun e => e.2.issue = first.issue
        let clears := first.clr && same.any fun e => (granulePoison s e.2).isNone
        let s := same.foldl (fun s e => serveGranule s e.1 e.2) s
        wakeGranule g fuel (if clears then setEmpty s g else s)

/-- A granule's waits served while it is full. [DEDUCED: log entry 51] -/
def wakeOn (s : State) (g : Nat) : State := wakeGranule g (s.ops.length + 1) s

/-- A write through the on-chip map, or of an engine into the scratchpad, fills the granules it has written; waits on them are
served (R83). -/
def fillGranules (s : State) (pas : List Nat) : State :=
  ((pas.map fun a => a / 16 * 16).eraseDups).foldl (fun s g => match (regionOf s g).2 with
    | .scratchpad _ => wakeOn (setFull s g) g
    | _ => s) s

/-! ## Stores -/

/-- The data of a store: a register or an inline constant of the access size (R192). -/
def storeData (s : State) (t : Thread) (w : MWord) : List Byte :=
  let n := sizeBytes w.size.toNat
  let v := if 448 ≤ w.dst.toNat then w.dst.toNat - 448 else readRegs s t w.dst.toNat (sizeRegs w.size)
  leBytes n v

/-- A member's checked store: thread, address, target and bytes. -/
structure StoreMember where
  thread : Nat
  va : Nat
  target : Target
  bytes : List (Nat × Byte)
  deriving DecidableEq, Repr

/-- One member of a store passes its checks or takes its trap. -/
def checkStore (w : MWord) (acc : State × List StoreMember) (k : Nat) : State × List StoreMember :=
  let (s, ms) := acc
  match tget k s.threads with
  | none => acc
  | some t =>
    let va := effectiveVa s t w
    let n := sizeBytes w.size.toNat
    match checkBoth s t needWrite false va n with
    | .error b => (takeBad s k b, ms)
    | .ok (va, _, tgt) => (s, ms ++ [⟨k, va, tgt, (addrs tgt.pa n).zip (storeData s t w)⟩])

/-- Overlapping bytes of members of one store go to the last member in order (R85). -/
def mergeStores : List StoreMember → List StoreMember
  | [] => []
  | m :: rest =>
    { m with bytes := m.bytes.filter fun b =>
        !(rest.any fun r => r.target.space = m.target.space && (tget b.1 r.bytes).isSome) } :: mergeStores rest

/-- A member's store joins the request of its line and team, with byte enables, or opens one at the end of the list; only requests to
local HBM are joined (R85). [DEDUCED: log entry 103] -/
def addRequest (core ctr : Nat) (t : Thread) (m : StoreMember) (rs : List StoreOp) : List StoreOp :=
  let joins (o : StoreOp) : Bool := m.target.isHbm && o.target.isHbm && o.team = t.team && o.target.pa / 256 = m.target.pa / 256
  if rs.any joins then
    rs.map fun o => if joins o then
      { o with cs := o.cs ++ [⟨m.thread, ctr⟩], vas := o.vas ++ [m.va], bytes := m.bytes.foldl (fun bs (b : Nat × Byte) => tset b.1 b.2 bs) o.bytes } else o
  else rs ++ [⟨[⟨m.thread, ctr⟩], core, t.ctx, t.team, m.va, m.target, m.bytes, none, false, none, [m.va]⟩]

/-- One member's store issues: the scratchpad and the on-chip map take it at once, local HBM through the core's L1 and the
request's own way home, or the hold buffer alone, peer pages and control registers when it is performed (R93, R191, R312). -/
def issueStore (core ctr : Nat) (acc : State × List StoreOp) (m : StoreMember) : State × List StoreOp :=
  match tget m.thread acc.1.threads with
  | none => acc
  | some t =>
    let s := escapeTarget acc.1 m.thread m.target
    match m.target, replayOf s t.team with
    | .scratch _ _, _ => (writeNow s m.bytes, acc.2)
    | _, some (n, x) => (replayWrite s n x m.va m.bytes, acc.2)
    | .onchip _, none => (fillGranules (writeNow s m.bytes) (m.bytes.map (·.1)), acc.2)
    | _, none =>
      let s := if m.target.isHbm && !holdsStores s t.team then updateL1 s core m.bytes else s
      (raiseCtr s ⟨m.thread, ctr⟩, addRequest core ctr t m acc.2)

/-- The members' stores issue: their line requests begin in the order of their first members (R85). -/
def issueStores (core ctr : Nat) (s : State) (ms : List StoreMember) : State :=
  let (s, rs) := (mergeStores ms).foldl (issueStore core ctr) (s, [])
  rs.foldl beginStore s

/-- The effect of a store at issue; with .REL the release counts for the members that store (R106). -/
def storeEffect (w : MWord) (rel : Bool) (s : State) (u : Issuing) (active : List Nat) : State :=
  let (s, ms) := (memberOrder s active).foldl (checkStore w) (s, [])
  let s := if rel then ms.foldl (fun s m => countRelease s m.thread w.scope.toNat) s else s
  issueStores u.core w.ctr.toNat s ms

/-- A store waits for the thread's own reads of the same bytes that have not returned (R92). [DEDUCED: log entry 48] -/
def readsFirst (i : Instr) (need : Need) (va : State → Thread → Nat) (n : Nat) (s : State) (u : Issuing) : Bool :=
  (memberTargets s u i false need va n).any fun m => s.ops.any fun e => e.2.readsBytes m.1 m.2 n

/-- ST. -/
def execSt (w : MWord) (s : State) : Host.Outcome State Fault Refusal :=
  issueWord (.st w) 0 w.ctr.toNat
    (readsFirst (.st w) needWrite (fun s t => effectiveVa s t w) (sizeBytes w.size.toNat)) (storeEffect w false) s

/-- ST.REL: the release at SCOPE is complete before the store (R95). -/
def execStRel (w : MWord) (s : State) : Host.Outcome State Fault Refusal :=
  issueWord (.stRel w) 0 w.ctr.toNat (releaseHold (.stRel w) w.scope.toNat)
    (storeEffect w true) (escapeFirst (.stRel w) (2 ≤ w.scope.toNat) s)

/-! ## Full-empty access (R83, R193) -/

/-- Alignment, then a version window (R275), then the step-5 check before any translation: outside the aperture is an illegal operand;
then the allocation. [DEDUCED: log entry 58; DEDUCED: log entry 81] -/
def checkAperture (s : State) (t : Thread) (va n : Nat) : Except Bad Target :=
  if va % n ≠ 0 then .error ⟨0x12, va, 0⟩
  else if (windowOf s t va).isSome then .error ⟨0x11, va, 0⟩
  else if va < apertureBase then .error ⟨0x03, 0, 0⟩
  else match apertureTarget s t.team (va - apertureBase) with
    | some tgt => .ok tgt
    | none => .error ⟨0x11, va, 0⟩

/-- One member of an LDFE issued under a number waits for its granule. [DEDUCED: log entry 58] -/
def beginGranule (w : MWord) (issue : Nat) (writers : List Nat) (s : State) (k : Nat) : State :=
  match tget k s.threads with
  | none => s
  | some t =>
    let n := sizeBytes w.size.toNat
    match checkAperture s t (effectiveVa s t w) n with
    | .error b => takeBad s k b
    | .ok tgt =>
      match tgt with
      | .scratch core off =>
        let dst := if w.dst.toNat < 384 || writers.contains k then some w.dst.toNat else none
        let s := raiseCtr s ⟨k, w.ctr.toNat⟩
        let id := s.nextKey
        waitIn (s.beginOp (.granule ⟨⟨k, w.ctr.toNat⟩, issue, dst, w.size.toNat, effectiveVa s t w, core, off, w.x⟩)) k (.granule id)
      | _ => s

/-- LDFE. -/
def execLdfe (w : MWord) (s : State) : Host.Outcome State Fault Refusal :=
  issueWord (.ldfe w) 0 w.ctr.toNat noHold (fun s u active =>
    let bad := if 384 ≤ w.dst.toNat then ungathered s u active else []
    let s := bad.foldl (fun s k => takeTrap0 s k 0x21) s
    let ok := memberOrder s (active.filter fun k => !bad.contains k)
    let s := ok.foldl (beginGranule w s.nextKey (uniformWriters s ok)) s
    let gs := (s.ops.filterMap fun e => match e.2 with
      | .granule o => if ok.contains o.c.thread then some (granuleOf o.core o.off) else none
      | _ => none).eraseDups
    gs.foldl wakeOn s) s

/-- One member of STFE passes its checks, the range locks included, or takes its trap. [DEDUCED: log entry 58] -/
def checkStfe (w : MWord) (acc : State × List StoreMember) (k : Nat) : State × List StoreMember :=
  let (s, ms) := acc
  match tget k s.threads with
  | none => acc
  | some t =>
    let va := effectiveVa s t w
    let n := sizeBytes w.size.toNat
    match checkAperture s t va n with
    | .error b => (takeBad s k b, ms)
    | .ok tgt =>
      match checkLocks s t va n true with
      | .error b => (takeBad s k b, ms)
      | .ok _ => (s, ms ++ [⟨k, va, tgt, (addrs tgt.pa n).zip (storeData s t w)⟩])

/-- The granules that the members of an STFE write, each once. -/
def storeGranules (ms : List StoreMember) : List Nat :=
  (ms.filterMap fun m => match m.target with
    | .scratch core off => some (granuleOf core off)
    | _ => none).eraseDups

/-- STFE: the bytes are written, then the bit of each granule is set once; waits on it are served. -/
def execStfe (w : MWord) (s : State) : Host.Outcome State Fault Refusal :=
  issueWord (.stfe w) 0 w.ctr.toNat
    (fun s u => u.members.any fun k => s.ops.any fun e => match tget k s.threads with
      | some t => match checkAperture s t (effectiveVa s t w) (sizeBytes w.size.toNat) with
        | .ok tgt => e.2.readsBytes k tgt (sizeBytes w.size.toNat)
        | .error _ => false
      | none => false)
    (fun s u active =>
      let (s, ms) := (memberOrder s active).foldl (checkStfe w) (s, [])
      (storeGranules ms).foldl (fun s g => wakeOn (setFull s g) g) (issueStores u.core w.ctr.toNat s ms)) s

/-! ## DISC and PREF (R87, R196, R197) -/

/-- The first failing check of a range of pages, or its targets in page pieces. -/
def checkPages (s : State) (t : Thread) (need : Need) (va len : Nat) : Except Bad (List (Target × Nat)) :=
  match resolveRange s (dieOfCore (coreOf s t)) t.ctx t.team { need with sys := t.sys } (pieceFuel len) va len with
  | .error (a, c) => .error ⟨c, a, 0⟩
  | .ok ps => .ok ps

/-- Whether any byte of a range lies in a version window of the thread (R275). -/
def inWindow (s : State) (t : Thread) (va len : Nat) : Bool := (windowLow s t va len).isSome

/-- The checks of DISC: multiples of 64, then for a length other than 0 every page with W permission outside the version windows, the
lowest failing address named, local HBM alone, no range lock. [DEDUCED: log entry 53] -/
def checkDisc (s : State) (t : Thread) (va len : Nat) : Except Bad (List Nat) :=
  if va % 64 ≠ 0 || len % 64 ≠ 0 then .error ⟨0x12, va, 0⟩
  else if len = 0 then .ok []
  else
    let below := match windowLow s t va len with
      | some a => a - va
      | none => len
    match checkPages s t needWrite va below with
    | .error b => .error b
    | .ok ps =>
      if below < len then .error ⟨0x11, va + below, 0⟩
      else if ps.any fun p => !p.1.isHbm then .error ⟨0x03, 0, 0⟩
      else match checkLocks s t va len true with
        | .error b => .error b
        | .ok _ => .ok (ps.flatMap fun p => (List.range (p.2 / 64)).map fun i => p.1.pa + 64 * i)

/-- DISC: every sector of the range is to be treated at its home; a length of 0 has no effect. -/
def execDisc (w : RWord) (s : State) : Host.Outcome State Fault Refusal :=
  issueWord (.disc w) 0 w.ctr noHold (fun s u active =>
    (memberOrder s active).foldl (fun s k => match tget k s.threads with
      | none => s
      | some t =>
        match checkDisc s t (src64 s t w.a) (src32 s t w.b) with
        | .error b => takeBad s k b
        | .ok [] => s
        | .ok sectors =>
          (raiseCtr s ⟨k, w.ctr⟩).beginOp (.disc ⟨⟨k, w.ctr⟩, u.core, t.ctx, t.team, sectors⟩)) s) s

/-- The line a prefetch fetches; none where it is dropped: a failing address, no local HBM, or a write-locked range. -/
def prefetchLine (s : State) (t : Thread) (va : Nat) : Option (Nat × Bool) :=
  match windowed s t true va with
  | .error _ => none
  | .ok (va, bypass) =>
    match resolve s (dieOfCore (coreOf s t)) t.ctx t.team { needRead with sys := t.sys } va with
    | .ok (.hbm pa) =>
      match rangeConflict s (coreOf s t) t.ctx va 1 false with
      | some _ => none
      | none => some (pa / 256, bypass)
    | _ => none

/-- The walk of a dropped prefetch still records a poisoned entry (R302). -/
def prefetchWalk (s : State) (t : Thread) (va : Nat) : State :=
  match windowed s t true va with
  | .error _ => s
  | .ok (va, _) => match resolve s (dieOfCore (coreOf s t)) t.ctx t.team { needRead with sys := t.sys } va with
    | .error 0x10 => poisonedWalk s (dieOfCore (coreOf s t)) t.ctx va (launchIdOf s t)
    | _ => s

/-- Miss-status entries in use on a core, 1,024 at most: missing sectors of requests sent, and the four of each prefetch as far as
they are free (R85, R197). [DESIGN CHOICE: log entry 46] -/
def missEntries (s : State) (core : Nat) : Nat :=
  min 1024 <| s.ops.foldl (fun n e => match e.2 with
    | .load o =>
      if o.core = core then
        n + o.reqs.foldl (fun m r => m + if r.sent then popCount 4 (bits r.sectors 0 4 &&& (15 - bits r.filled 0 4)) else 0) 0
      else n
    | .pref o => if o.core = core then n + 4 else n
    | _ => n) 0

/-- PREF: it raises no trap of its own; a dropped prefetch ends at once. -/
def execPref (w : MWord) (s : State) : Host.Outcome State Fault Refusal :=
  issueWord (.pref w) 0 w.ctr.toNat noHold (fun s u active =>
    (memberOrder s active).foldl (fun s k => match tget k s.threads with
      | none => s
      | some t =>
        match prefetchLine s t (effectiveVa s t w) with
        | none => prefetchWalk s t (effectiveVa s t w)
        | some (line, bypass) =>
          if 1024 ≤ missEntries s u.core then s
          else (raiseCtr s ⟨k, w.ctr.toNat⟩).beginOp (.pref ⟨⟨k, w.ctr.toNat⟩, u.core, line, w.size = 0 && !bypass⟩)) s) s

end Sys2Proof.Machine
end

