-- ==== Sys2Proof/Machine/Tiles.lean ====
section
/-! DEFINITION. Tile loads and stores and atomics at their issue (spec/07_memory.md R99 to R103; spec/15_ops_memory.md R194,
R195, R198 to R200). -/

namespace Sys2Proof.Machine

/-! ## Ranges of bytes -/

/-- A range of consecutive bytes as pieces of one translation each, version windows applied: the first failing address with its
cause, or the targets with their lengths. -/
def pieces (s : State) (t : Thread) (need : Need) (redirects : Bool) : Nat → Nat → Nat → Except Bad (List (Target × Nat))
  | 0, _, _ => .ok []
  | _, _, 0 => .ok []
  | fuel + 1, va, len =>
    match windowed s t redirects va with
    | .error b => .error b
    | .ok (at_, _) =>
      let n := windowRoom s t va (min len (pieceRoom s t.team at_))
      match resolve s (dieOfCore (coreOf s t)) t.ctx t.team { need with sys := t.sys } at_ with
      | .error c => .error ⟨c, at_, 0⟩
      | .ok tgt =>
        match pieces s t need redirects fuel (low 64 (va + n)) (len - n) with
        | .error b => .error b
        | .ok ps => .ok ((tgt, n) :: ps)

/-- The pieces of a range of any length. -/
def rangePieces (s : State) (t : Thread) (need : Need) (redirects : Bool) (va len : Nat) : Except Bad (List (Target × Nat)) :=
  pieces s t need redirects (2 * pieceFuel len + 4 * (windowsOf s t).length) va len

/-- The pieces of a range with their virtual addresses. -/
def placedVas : Nat → List (Target × Nat) → List (Nat × Target × Nat)
  | _, [] => []
  | va, (t, n) :: ps => (va, t, n) :: placedVas (low 64 (va + n)) ps

/-- The first poisoned granule of a list of pieces, with the virtual and physical address of its piece. -/
def piecesPoison (s : State) (ps : List (Nat × Target × Nat)) : Option (Nat × Nat × Nat) :=
  if s.poison.isEmpty then none else ps.findSome? fun p => match p.2.1 with
    | .peer _ _ => none
    | .control _ => none
    | tgt => (poisonedAt s tgt.pa p.2.2).map fun g => (p.1, tgt.pa, g)

/-! ## Tiles -/

/-- INFO of a trap that names a row (R297). -/
def rowInfo (k : Nat) : Nat := 64 + k

/-- Whether a piece lies in local HBM or in the scratchpad aperture. -/
def Target.tileKind (t : Target) : Option Bool :=
  match t with
  | .hbm _ => some false
  | .scratch _ _ => some true
  | _ => none

/-- The rows of a tile translated in ascending order, the failing row named (R195 step 3). -/
def tileRows (s : State) (t : Thread) (need : Need) (loading : Bool) (sh : TileShape) (a : Nat) :
    Nat → Except Bad (List (List (Target × Nat)))
  | 0 => .ok []
  | left + 1 =>
    let k := sh.rows - (left + 1)
    match rangePieces s t need loading (sh.row a k) sh.rowBytes with
    | .error b => .error { b with info := rowInfo k }
    | .ok ps =>
      match tileRows s t need loading sh a left with
      | .error b => .error b
      | .ok rest => .ok (ps :: rest)

/-- The lowest row, counted from k, that lies on another kind of page than the tile's first byte does, or on one that no tile may
touch (R99, R195 step 3). -/
def strayRow (first : Option Bool) : Nat → List (List (Target × Nat)) → Option Nat
  | _, [] => none
  | k, ps :: rest => if ps.any fun p => p.1.tileKind ≠ first || p.1.tileKind = none then some k else strayRow first (k + 1) rest

/-- The kind of page that a tile's first byte lies on. -/
def tileFirst (rows : List (List (Target × Nat))) : Option Bool := ((rows.head?).bind (·.head?)).bind fun p => p.1.tileKind

/-- The 256-byte lines of a tile, ascending: by physical address, or by aperture address for a scratchpad tile (R99). -/
def tileLines (vas : List Nat) (rows : List (List (Target × Nat))) : List Nat :=
  sortBy (fun a b => a ≤ b) (((vas.zip rows).flatMap fun r => (placedVas r.1 r.2).flatMap fun p =>
    let a := if p.2.1.isScratch then p.1 else p.2.1.pa
    (List.range ((a + p.2.2 - 1) / 256 + 1 - a / 256)).map fun i => (a / 256 + i) * 256).eraseDups)

/-- The checks of R195, steps 1 to 4: the tile's rows and the pieces of its block. -/
def checkTile (s : State) (t : Thread) (loading : Bool) (a b shape : Nat) :
    Except Bad (TileShape × List (List (Target × Nat)) × List (Target × Nat)) :=
  match TileShape.decode shape with
  | none => .error ⟨0x03, 0, 0⟩
  | some sh =>
    let total := sh.rows * sh.rowBytes
    match (List.range sh.rows).find? fun k => sh.row a k % sh.es ≠ 0 with
    | some k => .error ⟨0x12, sh.row a k, rowInfo k⟩
    | none =>
      if b % sh.es ≠ 0 then .error ⟨0x12, b, 0⟩
      else if b < apertureBase || 2 ^ 64 < b + total then .error ⟨0x03, 0, 0⟩
      else
        match rangePieces s t needRead false b total with
        | .error e => .error { e with cause := 0x11 }
        | .ok block =>
            match tileRows s t (if loading then needRead else needWrite) loading sh a sh.rows with
            | .error e => .error e
            | .ok rows =>
              match strayRow (tileFirst rows) 0 rows with
              | some k => .error ⟨0x13, sh.row a k, rowInfo k⟩
              | none =>
              if 128 < (tileLines ((List.range sh.rows).map (sh.row a)) rows).length then .error ⟨0x03, 0, 0⟩
              else
                match ((List.range sh.rows).map fun k => checkLocks s t (sh.row a k) sh.rowBytes (!loading)).findSome?
                    (fun r => match r with
                      | .error e => some e
                      | .ok _ => none) with
                | some e => .error e
                | none =>
                  match checkLocks s t b total loading with
                  | .error e => .error e
                  | .ok _ => .ok (sh, rows, block)

/-- The bytes of a list of pieces of local HBM and scratchpad, HBM at a die's or at the home's view. -/
def readPieces (view : Nat → Byte) (s : State) (ps : List (Target × Nat)) : List Byte :=
  ps.flatMap fun p => match p.1 with
    | .hbm pa => (addrs pa p.2).map view
    | tgt => (addrs tgt.pa p.2).map (memRead s.mem)

/-- One member's tile access begins, with its release for a storing tile with .REL (R100, R195 steps 5 and 6). -/
def beginTile (loading rel : Bool) (w : RWord) (u : Issuing) (s : State) (k : Nat) : State :=
  match tget k s.threads with
  | none => s
  | some t =>
    let a := src64 s t w.a
    match checkTile s t loading a (src64 s t w.b) (src64 s t w.c) with
    | .error b => takeBad s k b
    | .ok (sh, rows, block) =>
      let vas := (List.range sh.rows).map (sh.row a)
      let read := if loading then (vas.zip rows).flatMap fun r => placedVas r.1 r.2 else placedVas (src64 s t w.b) block
      match piecesPoison s read with
      | some (va, pa, g) => consumePoison s k va pa g
      | none =>
        let data := if loading then [] else readPieces (memRead s.mem) s block
        let hbm := rows.any fun r => r.any fun p => p.1.isHbm
        let s := if rel then countRelease s k (w.fbits 10 3) else s
        let s := raiseCtr s ⟨k, w.ctr⟩
        s.beginOp (.tile {
          c := ⟨k, w.ctr⟩, core := u.core, ctx := t.ctx, team := t.team, va := a, vas := vas, storing := !loading
          scope := w.fbits 10 3, ord := w.fbits 9 1 = 1, age := (s.clk, logicalCore s u.core)
          phase := if hbm then .locking else .data
          rows := rows, block := block, data := data
          lines := if hbm then tileLines vas rows else [], entries := [], locked := [], word := (t.curHdr, t.curWord) })

/-- LDT. -/
def execLdt (w : RWord) (s : State) : Host.Outcome State Fault Refusal :=
  issueWord (.ldt w) 0 w.ctr noHold (fun s u active => (memberOrder s active).foldl (beginTile true false w u) s) s

/-- STT: with .REL the release at SCOPE comes first. -/
def execStt (w : RWord) (s : State) : Host.Outcome State Fault Refusal :=
  let rel := w.fbits 9 1 = 1
  issueWord (.stt w) 0 w.ctr (fun s u => rel && releaseHold (.stt w) (w.fbits 10 3) s u)
    (fun s u active => (memberOrder s active).foldl (beginTile false rel w u) s)
    (escapeFirst (.stt w) (rel && 2 ≤ w.fbits 10 3) s)

/-! ## Atomics -/

/-- The bytes of an atomic's operand. -/
def AtomOp.bytes (o : AtomOp) : Nat := if o.fadd then (if o.ty = 1 then 8 else 4) else if 2 ≤ o.ty then 8 else 4

/-- The operation of ATOM on an old value and an operand (R199); b2 is the new value of CAS. -/
def atomValue (oper : Nat) (ty : Ty) (o b b2 : Nat) : Nat :=
  match oper with
  | 0 => low ty.width (o + b)
  | 1 => if ty.intValue b < ty.intValue o then b else o
  | 2 => if ty.intValue o < ty.intValue b then b else o
  | 3 => o &&& b
  | 4 => o ||| b
  | 5 => o ^^^ b
  | 6 => b
  | _ => if o = b then b2 else o

/-- The checks of an atomic: those of R187 with RD and W, local HBM, peer pages or scratchpad, and in a deterministic kernel
the FP-atomic trap ahead of the range locks (R103, R199, R200). -/
def checkAtomic (s : State) (t : Thread) (fadd : Bool) (va n : Nat) : Except Bad (Nat × Target) :=
  match checkPlain s t needBoth false va n with
  | .error b => .error b
  | .ok (va, _, tgt) =>
    match tgt with
    | .onchip _ => .error ⟨0x03, 0, 0⟩
    | .control _ => .error ⟨0x03, 0, 0⟩
    | _ =>
      if fadd && isDet s t then .error ⟨0x31, 0, 0⟩
      else match checkLocks s t va n true with
        | .error b => .error b
        | .ok _ => .ok (va, tgt)

/-- One member of an atomic joins the request of its address, or opens one (R102). -/
def addAtom (req : Nat → Target → AtomOp) (single : Bool) (acc : List AtomOp) (va : Nat) (tgt : Target) (m : AtomMember) :
    List AtomOp :=
  if !single && acc.any fun o => o.target = tgt then
    acc.map fun o => if o.target = tgt then { o with members := o.members ++ [m] } else o
  else acc ++ [{ req va tgt with members := [m] }]

/-- One member of an atomic passes its checks or takes its trap. -/
def checkAtomMember (req : State → Thread → Nat → Target → AtomOp) (single : Bool) (w : RWord) (n : Nat)
    (operand : State → Thread → Nat × Nat) (writers : List Nat) (acc : State × List AtomOp) (k : Nat) : State × List AtomOp :=
  let (s, os) := acc
  match tget k s.threads with
  | none => acc
  | some t =>
    let fadd := (req s t 0 (.hbm 0)).fadd
    match checkAtomic s t fadd (src64 s t w.a) n with
    | .error b => (takeBad s k b, os)
    | .ok (va, tgt) =>
      match targetPoison s (coreOf s t) false tgt n with
      | some g => (consumePoison s k va tgt.pa g, os)
      | none =>
        let (b, b2) := operand s t
        let nr := w.fbits 4 1 = 1
        let dst := if nr || (384 ≤ w.dst.toNat && !writers.contains k) then none else some w.dst.toNat
        let s := if 2 ≤ w.fbits 6 2 then countRelease s k (bits w.c.toNat 0 3) else s
        (s, addAtom (req s t) single os va tgt ⟨k, b, b2, dst⟩)

/-- The effect of an atomic at issue: one request per address, or one per member for CAS and FADD (R102). -/
def atomEffect (fadd : Bool) (w : RWord) (n : Nat) (operand : State → Thread → Nat × Nat) (s : State) (u : Issuing)
    (active : List Nat) : State :=
  let nr := w.fbits 4 1 = 1
  let bad := if 384 ≤ w.dst.toNat && !nr then ungathered s u active else []
  let s := bad.foldl (fun s k => takeTrap0 s k 0x21) s
  let ok := memberOrder s (active.filter fun k => !bad.contains k)
  let scope := bits w.c.toNat 0 3
  let req (_ : State) (t : Thread) (va : Nat) (tgt : Target) : AtomOp :=
    ⟨u.core, w.ctr, t.ctx, t.team, fadd, w.fbits 10 3, w.fbits 8 2, scope, w.fbits 6 2 % 2 = 1, nr, va, tgt, [], (t.curHdr, t.curWord)⟩
  let (s, os) := ok.foldl
    (checkAtomMember req (fadd || w.fbits 10 3 = 7) w n operand (uniformWriters s ok)) (s, [])
  os.foldl (fun s o => (o.members.foldl (fun s m => raiseCtr s ⟨m.thread, w.ctr⟩) s).beginOp (.atom o)) s

/-- An atomic waits for the thread's own reads of the same bytes, and for its release. [DEDUCED: log entry 48] -/
def atomHold (i : Instr) (w : RWord) (n : Nat) (s : State) (u : Issuing) : Bool :=
  readsFirst i needBoth (fun s t => src64 s t w.a) n s u
    || (2 ≤ w.fbits 6 2 && releaseHold i (bits w.c.toNat 0 3) s u)

/-- The operands of ATOM: b, and for CAS the new value after it (R199). -/
def atomOperands (w : RWord) (s : State) (t : Thread) : Nat × Nat :=
  let ty := atomTy (w.fbits 8 2)
  if w.fbits 10 3 = 7 then (readRegs s t w.b.toNat ty.regs, readRegs s t (w.b.toNat + ty.regs) ty.regs)
  else (srcValue s t ty w.b, 0)

/-- ATOM. -/
def execAtom (w : RWord) (s : State) : Host.Outcome State Fault Refusal :=
  let n := (atomTy (w.fbits 8 2)).width / 8
  issueWord (.atom w) 0 w.ctr (atomHold (.atom w) w n) (atomEffect false w n (atomOperands w)) (escapeFirst (.atom w) true s)

/-- ATOM.FADD. -/
def execAtomFadd (w : RWord) (s : State) : Host.Outcome State Fault Refusal :=
  let n := if w.fbits 8 2 = 1 then 8 else 4
  issueWord (.atomFadd w) 0 w.ctr (atomHold (.atomFadd w) w n)
    (atomEffect true w n fun s t => (srcValue s t (if w.fbits 8 2 = 1 then .f64 else .f32) w.b, 0))
    (escapeFirst (.atomFadd w) true s)

end Sys2Proof.Machine
end

