-- ==== Sys2Proof/Machine/Sync.lean ====
section
/-! DEFINITION. Contributions, fences and waits at their issue, and the re-evaluation of waits (spec/15_ops_memory.md R201 to
R204; spec/07_memory.md R94, R96). -/

namespace Sys2Proof.Machine

/-! ## Contributions (R201, R202) -/

/-- Whether a leaf is one that this package may contribute to a handle (R201, R246). -/
def leafOwn (h : Handle) (leaf : Nat) : Bool := leaf ≤ h.nm1 && leaf / 2 ^ h.plog = h.prank

/-- The value of a contribution: a plain tree keeps the value alone (R39, R201). -/
def ctbValue (s : State) (t : Thread) (w : RWord) : NodeVal :=
  if w.fbits 4 2 = 1 then .val (pairOf (readReg s t w.c.toNat).toNat (readReg s t (w.c.toNat + 1)).toNat)
  else .val (pairLeaf (srcValue s t .f32 w.c))

/-- The leaf map's byte of a leaf. -/
def leafByteVa (hd : Handle) (leaf : Nat) : Nat := leafMapVa hd + (leaf - hd.prank * 2 ^ hd.plog) / 8

/-- The first place of a contribution that lies in a version window of its thread: its bit of the leaf map, or on the root package the
root's destination (R275). [DEDUCED: log entry 81] -/
def ctbWindow (s : State) (t : Thread) (hd : Handle) (leaf : Nat) : Option Nat :=
  (windowLow s t (leafByteVa hd leaf) 1).orElse fun _ =>
    if hd.root then windowLow s t hd.dest (if hd.dfmt = 0 then 4 else 8) else none

/-- One member's contribution is sent to the leaf map. -/
def beginCtb (w : RWord) (core : Nat) (s : State) (k : Nat) : State :=
  match tget k s.threads with
  | none => s
  | some t =>
    let h := src32 s t w.a
    let leaf := src64 s t w.b
    match (if h < 1024 then tget (handleKey t.ctx h) s.handles else none) with
    | none => takeTrap0 s k 0x03
    | some hd =>
      if !leafOwn hd leaf || (w.fbits 4 2 = 1 && !hd.pairNodes) then takeTrap0 s k 0x03
      else match ctbWindow s t hd leaf with
      | some va => takeTrap s k 0x11 va 0
      | none =>
        (raiseCtr (escape s k) ⟨k, w.ctr⟩).beginOp (.ctb ⟨⟨k, w.ctr⟩, core, t.ctx, h, leaf, ctbValue s t w, false, (t.curHdr, t.curWord)⟩)

/-- CTB. -/
def execCtb (w : RWord) (s : State) : Host.Outcome State Fault Refusal :=
  issueWord (.ctb w) 0 w.ctr noHold (fun s u active => (memberOrder s active).foldl (beginCtb w u.core) s) s

/-- CTBSEAL. -/
def execCtbseal (w : RWord) (s : State) : Host.Outcome State Fault Refusal :=
  issueWord (.ctbseal w) 0 w.ctr noHold (fun s _ active =>
    (memberOrder s active).foldl (fun s k => match tget k s.threads with
      | none => s
      | some t =>
        let h := src32 s t w.a
        if h < 1024 && (tget (handleKey t.ctx h) s.handles).isSome then
          (raiseCtr (escape s k) ⟨k, w.ctr⟩).beginOp (.seal ⟨⟨k, w.ctr⟩, t.ctx, h⟩)
        else takeTrap0 s k 0x03) s) s

/-! ## Fences (R94, R203) -/

/-- A per-group command counts as posted by its elected thread and by every member that takes its counter (R94, R217). -/
def postedBy (poster : Nat) (cs : List Counted) (k : Nat) : Bool :=
  poster = k || cs.any fun c => c.thread = k && c.ctr < 6

/-- The engine kinds of R94 that an operation of a thread belongs to: ER and EW (R221). -/
def Op.engineOf (o : Op) (k : Nat) (write : Bool) : Bool :=
  match o with
  | .copy o => postedBy o.poster o.cs k
  | .fabric o => postedBy o.poster o.cs k
  | .send o => !write && o.c.thread = k
  | .recv o => write && o.c.thread = k
  | _ => false

/-- Matrix commands of a thread that read operands (MR) or drain (MW) are in progress (R94, R221). -/
def matrixOf (s : State) (k : Nat) (write : Bool) : Bool :=
  s.matrix.any fun e => postedBy e.2.poster e.2.counted k && match e.2.kind with
    | .mmul _ _ _ => !write
    | .mdrain _ _ _ _ _ _ _ => write
    | .mmerge _ _ _ => false

/-- Whether a fence is satisfied: every predecessor is visible, has its value, or has retired (R94, R203). -/
def fenceDone (s : State) (o : FenceOp) : Bool :=
  match tget o.thread s.threads with
  | none => true
  | some t =>
    (!bit o.pred 0 || readsDone s o.thread)
      && o.after.all (reached s (scopeLevel s t o.scope))
      && (!bit o.pred 2 || !(s.ops.any fun e => e.2.engineOf o.thread false))
      && (!bit o.pred 3 || !(s.ops.any fun e => e.2.engineOf o.thread true))
      && (!bit o.pred 4 || !matrixOf s o.thread false)
      && (!bit o.pred 5 || !matrixOf s o.thread true)

/-- The stores that a fence orders: the thread's own writes with TW, and every store visible to it (R94). -/
def fenceSet (s : State) (k core pred : Nat) : List Nat :=
  (s.ops.filter fun e => (bit pred 1 && e.2.writesOf k) || e.2.visibleTo core).map (·.1)

/-- FENCE: a zero mask has no effect; otherwise the thread's later memory and engine words wait until it is satisfied. -/
def execFence (w : RWord) (s : State) : Host.Outcome State Fault Refusal :=
  let pred := bits w.c.toNat 0 6
  let succ := w.fbits 4 6
  let scope := w.fbits 10 3
  issueWord (.fence w) 0 7 noHold (fun s u active =>
    if pred = 0 || succ = 0 then s
    else active.foldl (fun s k =>
      let s := if 2 ≤ scope then escape s k else s
      s.beginOp (.fence ⟨k, pred, succ, scope, fenceSet s k u.core pred⟩)) s) s

/-! ## Waits (R96, R204) -/

/-- The watched word's width in bytes. -/
def WaitOp.width (o : WaitOp) : Nat := (atomTy o.ty).width / 8

/-- The watched word as the scope's point holds it (R79, R204). [DEDUCED: log entry 52] -/
def waitValue (s : State) (o : WaitOp) : Nat :=
  match tget o.c.thread s.threads with
  | none => 0
  | some t =>
    let n := o.width
    match o.target with
    | .hbm pa =>
      leValue ((addrs pa n).map fun a => match scopeLevel s t o.scope with
        | 0 => loadByte s o.core o.team true a
        | 1 => (heldByte s o.team a).getD (dieByte s (dieOfCore o.core) a)
        | _ => (heldByte s o.team a).getD (homeByte s a))
    | tgt => leValue ((addrs tgt.pa n).map (memRead s.mem))

/-- Whether a wait may read its word now: no write of the thread itself to it is still on its way, nor one that the thread may have
seen (R92), and no tile holds its line (R101). [DEDUCED: log entry 48; DEDUCED: log entry 52] -/
def waitReady (s : State) (id : Nat) (o : WaitOp) : Bool :=
  !seenPending s id o.core (((tget o.c.thread s.threads).map fun t => scopeLevel s t o.scope).getD 0) o.target o.width
  && !(s.ops.any fun e => match e.2 with
      | .store x => !x.held && e.2.writesBytes o.c.thread o.target o.width && scopeNeeds s o x
      | _ => e.2.writesBytes o.c.thread o.target o.width)
    && !lineHeld s o.target o.width
where
  /-- A store of the thread that the scope's point does not show yet. -/
  scopeNeeds (s : State) (o : WaitOp) (x : StoreOp) : Bool :=
    match tget o.c.thread s.threads with
    | none => false
    | some t => match scopeLevel s t o.scope with
      | 0 => false
      | 1 => x.die.isNone
      | _ => true

/-- WAIT_REEVALUATE for one wait: with its condition met, the value is written and the member goes on; poison is consumed
(R204, R316). -/
def serveWait (s : State) (id : Nat) (o : WaitOp) : State :=
  if !waitReady s id o then s
  else
    match targetPoison s o.core false o.target o.width with
    | some g => if waiterSaving s o.c then s else consumePoison (lowerCtr (s.endOp id) o.c) o.c.thread o.va o.target.pa g
    | none =>
      let ty := atomTy o.ty
      let v := waitValue s o
      if intCond o.cond (ty.intValue v) (ty.intValue o.b) then
        let s := match o.dst with
          | some d => writeRegs s o.c.thread d ty.regs v
          | none => s
        let s := lowerCtr (s.endOp id) o.c
        let level := ((tget o.c.thread s.threads).map fun t => scopeLevel s t o.scope).getD 0
        let s := match o.target with
          | .hbm pa => if 1 ≤ level then dropL1Sector s o.core pa else s
          | _ => s
        let s := if o.acq then acquireFor s o.c.thread o.core o.scope else s
        match tget o.c.thread s.threads with
        | some t => if t.state = .address id then makeReady s o.c.thread t.pc else s
        | none => s
      else s

/-- Every wait re-evaluated, oldest first. [DEDUCED: log entry 52] -/
def settleWaits (s : State) : State :=
  s.ops.foldl (fun s e => match e.2, tget e.1 s.ops with
    | .wait o, some _ => serveWait s e.1 o
    | _, _ => s) s

/-- One member of WAIT enters ADDRESS; its condition is evaluated at once. [DEDUCED: log entry 52] -/
def beginWait (w : RWord) (core : Nat) (writers : List Nat) (s : State) (k : Nat) : State :=
  match tget k s.threads with
  | none => s
  | some t =>
    let ty := w.fbits 11 2
    let n := (atomTy ty).width / 8
    match checkPlain s t needBoth false (src64 s t w.a) n with
    | .error b => takeBad s k b
    | .ok (va, _, tgt) =>
      if !(tgt.isHbm || tgt.isScratch) then takeTrap0 s k 0x03
      else
        match checkLocks s t va n false with
        | .error b => takeBad s k b
        | .ok _ =>
          let dst := if w.dst.toNat < 384 || writers.contains k then some w.dst.toNat else none
          let s := raiseCtr s ⟨k, w.ctr⟩
          let id := s.nextKey
          let o : WaitOp := ⟨⟨k, w.ctr⟩, core, t.team, dst, va, tgt, ty, bits w.c.toNat 0 3, srcValue s t (atomTy ty) w.b,
            bits w.c.toNat 3 3, w.fbits 10 1 = 1⟩
          serveWait (waitIn (s.beginOp (.wait o)) k (.address id)) id o

/-- WAIT. -/
def execWait (w : RWord) (s : State) : Host.Outcome State Fault Refusal :=
  issueWord (.wait w) 0 w.ctr noHold (fun s u active =>
    let bad := if 384 ≤ w.dst.toNat then ungathered s u active else []
    let s := bad.foldl (fun s k => takeTrap0 s k 0x21) s
    let ok := memberOrder s (active.filter fun k => !bad.contains k)
    ok.foldl (beginWait w u.core (uniformWriters s ok)) s) s

end Sys2Proof.Machine
end

