-- ==== Sys2Proof/Machine/Rings.lean ====
section
/-! DEFINITION. Rings: RGRES, RGPUB, RGTAKE, RGDONE, stage deadlines and role records (spec/17_ops_engines.md R235 to R238;
spec/21_pipelines_training.md R267 to R269); and `settle`, which re-evaluates every waiting thread after a change. -/

namespace Sys2Proof.Machine

/-! ## Device-scope accesses of an operation (R79) -/

/-- Bytes of local HBM at a virtual address, as their home slices hold them. -/
def devRead (s : State) (die ctx va n : Nat) : Option (List Byte) :=
  match resolveRange s die ctx 0 ⟨true, false, false, true⟩ (pieceFuel n) va n with
  | .error _ => none
  | .ok ps => ps.foldl (fun acc p => match acc, p.1 with
      | some bs, .hbm pa => some (bs ++ (addrs pa p.2).map (homeByte s))
      | _, _ => none) (some [])

/-- A little-endian word at a virtual address, as its home slice holds it. -/
def devWord (s : State) (die ctx va n : Nat) : Option Nat := (devRead s die ctx va n).map leValue

/-- Bytes of local HBM written at their homes; unchanged where the address does not translate. -/
def devWrite (s : State) (die ctx va : Nat) (bs : List Byte) : State :=
  match resolveRange s die ctx 0 ⟨false, true, false, true⟩ (pieceFuel bs.length) va bs.length with
  | .error _ => s
  | .ok ps =>
    (ps.foldl (fun (acc : State × List Byte) p => match p.1 with
      | .hbm pa => (storeHome acc.1 pa (acc.2.take p.2), acc.2.drop p.2)
      | _ => (acc.1, acc.2.drop p.2)) (s, bs)).1

/-- The pieces in which a ring's range lies. -/
def ringPieces (s : State) (die ctx va n : Nat) : List (Target × Nat) :=
  match resolveRange s die ctx 0 ⟨true, false, false, true⟩ (pieceFuel n) va n with
  | .error _ => []
  | .ok ps => ps

/-- A read of a ring's range waits: an STT holds a line of it, or a bank is held (R101, R320). -/
def readHeld (s : State) (die ctx va n : Nat) : Bool :=
  (ringPieces s die ctx va n).any fun p => lineHeld s p.1 p.2 || banksHeld s p.1 p.2

/-- A write of a ring's range waits, as its read does, and until the blocks that its bytes scale have left the L2 (R90). -/
def writeHeld (s : State) (die ctx va n : Nat) : Bool :=
  readHeld s die ctx va n || (ringPieces s die ctx va n).any fun p => writeWaits s p.1 p.2

/-- Bytes written at .dev by a core for a team: its L1 keeps no copy of them, and each line has its writer entry (R92, R106). -/
def teamWrite (s : State) (core ctx team va : Nat) (bs : List Byte) : State :=
  let die := dieOfCore core
  let ps := placedVas va (ringPieces s die ctx va bs.length)
  ps.foldl (fun s p =>
    let bytes := (addrs p.2.1.pa p.2.2).map fun a => (a, (0 : Byte))
    (byLine bytes).foldl (fun s l =>
      let a := ((l.head?).map (·.1)).getD 0
      noteWrite s team a (low 64 (p.1 + (a - p.2.1.pa)))) (dropL1Bytes s [core] bytes)) (devWrite s die ctx va bs)

/-- A fetch-and-add at an address counted at its home slice (R104). -/
def countAt (s : State) (die ctx va : Nat) : State :=
  (ringPieces s die ctx va 8).foldl (fun s p => match p.1 with
    | .hbm pa => countAtomic s pa die
    | _ => s) s

/-- sr.clk: clk since READY was set (R214). -/
def srClk (s : State) : Nat := low 64 (s.clk - s.readyAt)

/-! ## Descriptors (R235, R236) -/

/-- The ring that 64 bytes describe; none for a field out of range, a misaligned BASE, or a non-zero reserved field. -/
def Ring.decode (desc : Nat) (bs : List Byte) : Option Ring :=
  let q (n : Nat) : Nat := leValue ((bs.drop (8 * n)).take 8)
  let slog := bits (q 3) 8 8
  let logn := bits (q 3) 0 8
  if slog < 6 || 16 < slog || 16 < logn || q 2 % 2 ^ slog ≠ 0 || bits (q 3) 16 48 ≠ 0 || bits (q 5) 16 48 ≠ 0
      || q 6 ≠ 0 || q 7 ≠ 0 then none
  else some ⟨desc, q 2, slog, logn, q 4, bits (q 5) 0 16⟩

/-- The address of slot i mod N. -/
def Ring.slot (r : Ring) (i : Nat) : Nat := low 64 (r.base + i % 2 ^ r.logn * 2 ^ r.slog)

/-- The sequence word of an index. -/
def ringSeq (s : State) (die ctx : Nat) (r : Ring) (i : Nat) : Option Nat := devWord s die ctx (r.slot i) 8

/-- Fetch-and-add of one on an index word: RES at offset 0, TAKE at 8. -/
def ringNext (s : State) (die ctx : Nat) (r : Ring) (off : Nat) : Nat × State :=
  let i := (devWord s die ctx (low 64 (r.desc + off)) 8).getD 0
  (i, devWrite s die ctx (low 64 (r.desc + off)) (leBytes 8 (low 64 (i + 1))))

/-- Publication of index i for a team: ARR first, then SEQ (R237). -/
def ringPublish (s : State) (core ctx team : Nat) (r : Ring) (i arr : Nat) : State :=
  teamWrite (teamWrite s core ctx team (low 64 (r.slot i + 8)) (leBytes 8 arr)) core ctx team (r.slot i) (leBytes 8 (low 64 (i + 1)))

/-- Completion of index j for a team. -/
def ringDone (s : State) (core ctx team : Nat) (r : Ring) (j : Nat) : State :=
  teamWrite s core ctx team (r.slot j) (leBytes 8 (low 64 (j + 2 ^ r.logn)))

/-- The ring a descriptor address names, with the checks of R187 and R236 for one member. -/
def readRing (s : State) (t : Thread) (va : Nat) : Except Bad Ring :=
  match checkPlain s t needBoth false va 64 with
  | .error b => .error b
  | .ok (va, _, tgt) =>
    match tgt with
    | .hbm pa =>
      match checkLocks s t va 64 true with
      | .error b => .error b
      | .ok _ =>
        match Ring.decode va ((addrs pa 64).map (homeByte s)) with
        | some r => .ok r
        | none => .error ⟨0x03, 0, 0⟩
    | _ => .error ⟨0x03, 0, 0⟩

/-- A poisoned granule among bytes that a ring operation reads: the virtual and physical address of its piece, and the granule (R316). -/
def ringPoison (s : State) (die ctx va n : Nat) : Option (Nat × Nat × Nat) :=
  if s.poison.isEmpty then none
  else match resolveRange s die ctx 0 ⟨true, false, false, true⟩ (pieceFuel n) va n with
    | .ok ps => piecesPoison s (placedVas va ps)
    | .error _ => none

/-- The check of an index's slot for one member: RD and W on its sequence word and ARR, in local HBM. -/
def checkSlot (s : State) (t : Thread) (r : Ring) (i : Nat) : Except Bad Unit :=
  match checkPlain s t needBoth false (r.slot i) 16 with
  | .error b => .error b
  | .ok (_, _, .hbm _) => checkLocks s t (r.slot i) 16 true
  | .ok _ => .error ⟨0x03, 0, 0⟩

/-! ## Waiting for a sequence word (R237, R238) -/

/-- The MARK of a role record (R269). -/
def roleMark : Nat := 0xFFFF0000F0E00001

/-- The stage entry of a context: its address (R267). -/
def stageVa (s : State) (ctx stage : Nat) : Nat := low 64 (((tget ctx s.contexts).map (·.desc.stab)).getD 0 + 64 * stage)

/-- Whether a published record misses its stage's deadline; a role record is not tested (R238, R268, R269). -/
def deadlineMissed (s : State) (die ctx : Nat) (r : Ring) (j : Nat) : Bool :=
  if r.stage = 0xFFFF || devWord s die ctx (low 64 (r.slot j + 16)) 8 = some roleMark then false
  else
    let deadline := (devWord s die ctx (low 64 (stageVa s ctx r.stage + 8)) 4).getD 0
    let arr := (devWord s die ctx (low 64 (r.slot j + 8)) 8).getD 0
    deadline ≠ 0 && deadline < low 32 (srClk s + 2 ^ 64 - arr)

/-- The index reaches the member's destination, with an acquire at .dev. -/
def grantRing (s : State) (id : Nat) (o : RingOp) : State :=
  let s := match o.dst with
    | some d => writeRegs s o.c.thread d 2 o.index
    | none => s
  acquireFor (lowerCtr (s.endOp id) o.c) o.c.thread o.core 4

/-- The team of a waiting ring operation. -/
def RingOp.team (s : State) (o : RingOp) : Nat := ((tget o.c.thread s.threads).map (·.team)).getD 0

/-- The next index is taken after an expired record has been completed (R238, steps 3 and 4). -/
def retake (s : State) (id : Nat) (o : RingOp) : State :=
  let die := dieOfCore o.core
  let s := countAt (ringDone s o.core o.ctx (o.team s) o.ring o.index) die o.ctx (low 64 (o.ring.desc + 8))
  let (j, s) := ringNext s die o.ctx o.ring 8
  s.onOp id fun _ => .ring { o with index := j, moving := none }

/-- The expiry ring of a ring, if it names one of the same slot size. -/
def expiryRing (s : State) (die ctx : Nat) (r : Ring) : Option Ring :=
  if r.expiry = 0 then none
  else ((devRead s die ctx r.expiry 64).bind (Ring.decode r.expiry)).filter fun e => e.slog = r.slog

/-- One step of a waiting RGRES or RGTAKE, if it can take one. -/
def serveRing (s : State) (id : Nat) (o : RingOp) : Option State :=
  let die := dieOfCore o.core
  match o.moving with
  | some (e, i) =>
    if ringSeq s die o.ctx e i = some i then
      let payload := (devRead s die o.ctx (low 64 (o.ring.slot o.index + 16)) (2 ^ o.ring.slog - 16)).getD []
      let arr := (devWord s die o.ctx (low 64 (o.ring.slot o.index + 8)) 8).getD 0
      let s := teamWrite s o.core o.ctx (o.team s) (low 64 (e.slot i + 16)) payload
      some (retake (ringPublish s o.core o.ctx (o.team s) e i arr) id o)
    else none
  | none =>
    match o.kind, ringSeq s die o.ctx o.ring o.index with
    | .res, some q => if q = o.index then some (grantRing s id o) else none
    | .take, some q =>
      if q ≠ low 64 (o.index + 1) then none
      else if !deadlineMissed s die o.ctx o.ring o.index then some (grantRing s id o)
      else
        let miss := low 64 (stageVa s o.ctx o.ring.stage + 16)
        let s := devWrite s die o.ctx miss (leBytes 8 (low 64 ((devWord s die o.ctx miss 8).getD 0 + 1)))
        match expiryRing s die o.ctx o.ring with
        | none => some (retake s id o)
        | some e =>
          let (i, s) := ringNext (countAt s die o.ctx e.desc) die o.ctx e 0
          some (s.onOp id fun _ => .ring { o with moving := some (e, i) })
    | _, none => none

/-- The record that a waiting RGTAKE took is published and has missed its deadline (R238). -/
def RingOp.missed (s : State) (o : RingOp) : Bool :=
  let die := dieOfCore o.core
  o.kind = .take && ringSeq s die o.ctx o.ring o.index = some (low 64 (o.index + 1)) && deadlineMissed s die o.ctx o.ring o.index

/-- What the next step of a waiting ring operation reads, as address and length: the slot, its stage's entry, and for a missed deadline
the descriptors whose words it steps. [DEDUCED: log entry 60] -/
def stepReads (s : State) (o : RingOp) : List (Nat × Nat) :=
  match o.moving with
  | some (e, i) => [(e.slot i, 8), (o.ring.slot o.index, 2 ^ o.ring.slog), (o.ring.desc, 64)]
  | none =>
    [(o.ring.slot o.index, 24)]
      ++ (if o.kind = .take && o.ring.stage ≠ 0xFFFF then [(stageVa s o.ctx o.ring.stage, 64)] else [])
      ++ (if !o.missed s then []
        else (o.ring.desc, 64) :: if o.ring.expiry ≠ 0 then [(o.ring.expiry, 64)] else [])

/-- What the next step of a waiting ring operation may write, as address and length (R238). -/
def stepWrites (s : State) (o : RingOp) : List (Nat × Nat) :=
  let own := [(o.ring.slot o.index, 16), (low 64 (o.ring.desc + 8), 8)]
  match o.moving with
  | some (e, i) => (e.slot i, 2 ^ e.slog) :: own
  | none =>
    if !o.missed s then []
    else (low 64 (stageVa s o.ctx o.ring.stage + 16), 8) :: own
      ++ (if o.ring.expiry ≠ 0 then [(o.ring.expiry, 8)] else [])

/-- The next step of a waiting ring operation waits at a home slice (R90, R101, R320). -/
def RingOp.held (s : State) (o : RingOp) : Bool :=
  let die := dieOfCore o.core
  (stepReads s o).any (fun r => readHeld s die o.ctx r.1 r.2) || (stepWrites s o).any fun r => writeHeld s die o.ctx r.1 r.2

/-- Why a range that the next step of a waiting ring operation reads cannot be read: the address, and the cause. -/
def RingOp.lost (s : State) (o : RingOp) : Option (Nat × Nat) :=
  (stepReads s o).findSome? fun r =>
    match resolveRange s (dieOfCore o.core) o.ctx 0 ⟨true, false, false, true⟩ (pieceFuel r.2) r.1 r.2 with
    | .error b => some b
    | .ok _ => none

/-- One step of a waiting ring operation: one that meets a page that has gone, or poison, is at an end, and its thread takes the trap of
the page (R187, R302) or cause 0x50 (R316). [DEDUCED: log entry 60] -/
def stepRing (s : State) (id : Nat) (o : RingOp) : Option State :=
  if o.held s then none
  else match o.lost s with
  | some (va, c) =>
    let s := lowerCtr (s.endOp id) o.c
    let s := if c = 0x10 then poisonedWalk s (dieOfCore o.core) o.ctx va (((tget o.c.thread s.threads).map (launchIdOf s)).getD 0) else s
    some (trapAtWord s o.c.thread o.word c va 0)
  | none => match (stepReads s o).findSome? fun r => ringPoison s (dieOfCore o.core) o.ctx r.1 r.2 with
    | some (va, pa, g) => some (consumeAt (lowerCtr (s.endOp id) o.c) o.c.thread o.word va pa g)
    | none => serveRing s id o

/-- The ring operations take steps while any can; `fuel` bounds the steps of one move. -/
def settleRings : Nat → State → State
  | 0, s => s
  | fuel + 1, s =>
    match s.ops.findSome? fun e => match e.2 with
      | .ring o => stepRing s e.1 o
      | _ => none with
    | some s' => settleRings fuel s'
    | none => s

/-- Group-wide rendezvous that have become complete take effect (R71, R210). -/
def settleGroups (s : State) : State := s.groups.foldl (fun s e => completeGroupWide s e.1) s

/-- Everything that waits on memory, on pending writes or on the members of a group is evaluated again. -/
def settle (s : State) : State := settleGroups (settleHeld (settleWaits (settleRings (8 * s.ops.length + 8) (settleWaits s))))

/-! ## The words -/

/-- A ring word waits for the thread's own stores to its descriptor, and at the home slices of the descriptor and of the slot that it
tests (R90, R92, R101, R320). -/
def ringHold (i : Instr) (ending : Bool) (w : RWord) (s : State) (u : Issuing) : Bool :=
  (memberTargets s u i false needBoth (fun s t => src64 s t w.a) 64).any fun m =>
    s.ops.any (fun e => e.2.writesBytes m.1 m.2 64) || lineHeld s m.2 64 || banksHeld s m.2 64 || writeWaits s m.2 16
      || match (tget m.1 s.threads).map fun t => (t, readRing s t (src64 s t w.a)) with
        | some (t, .ok r) => ending && writeHeld s (dieOfCore (coreOf s t)) t.ctx (r.slot (src64 s t w.b)) 16
        | _ => false

/-- The fetch-and-adds of one word: one at the home slice for each ring that its members named (R104, R237). -/
def countRings (before : Nat) (off : Nat) (s : State) : State :=
  let named := (s.ops.filterMap fun e => match e.2 with
    | .ring o => if before ≤ e.1 then some (dieOfCore o.core, o.ctx, o.ring.desc) else none
    | _ => none).eraseDups
  named.foldl (fun s d => countAt s d.1 d.2.1 (low 64 (d.2.2 + off))) s

/-- RGRES and RGTAKE for one member: an index is taken, then its sequence word is awaited. -/
def beginRing (kind : RingKind) (w : RWord) (core : Nat) (writers : List Nat) (s : State) (k : Nat) : State :=
  match tget k s.threads with
  | none => s
  | some t =>
    match readRing s t (src64 s t w.a) with
    | .error b => takeBad s k b
    | .ok r =>
      match ringPoison s (dieOfCore core) t.ctx r.desc 64 with
      | some (va, pa, g) => consumePoison s k va pa g
      | none =>
      if kind = .take && 64 ≤ r.stage && r.stage ≠ 0xFFFF then takeTrap0 s k 0x03
      else
        let die := dieOfCore core
        let off := if kind = .res then 0 else 8
        match checkSlot s t r ((devWord s die t.ctx (low 64 (r.desc + off)) 8).getD 0) with
        | .error b => takeBad s k b
        | .ok _ =>
          let (i, s) := ringNext s die t.ctx r off
          let dst := if w.dst.toNat < 384 || writers.contains k then some w.dst.toNat else none
          (raiseCtr s ⟨k, w.ctr⟩).beginOp (.ring ⟨kind, ⟨k, w.ctr⟩, core, t.ctx, dst, r, i, none, (t.curHdr, t.curWord)⟩)

/-- The effect of RGRES and RGTAKE; a g destination asks for whole groups (R67). -/
def ringEffect (kind : RingKind) (w : RWord) (s : State) (u : Issuing) (active : List Nat) : State :=
  let bad := if 384 ≤ w.dst.toNat then ungathered s u active else []
  let s := bad.foldl (fun s k => takeTrap0 s k 0x21) s
  let ok := memberOrder s (active.filter fun k => !bad.contains k)
  settle (countRings s.nextKey (if kind = .res then 0 else 8) (ok.foldl (beginRing kind w u.core (uniformWriters s ok)) s))

/-- RGRES. -/
def execRgres (w : RWord) (s : State) : Host.Outcome State Fault Refusal :=
  issueWord (.rgres w) 0 w.ctr (fun s u => fenceHold s u || ringHold (.rgres w) false w s u) (ringEffect .res w)
    (escapeFirst (.rgres w) true s)

/-- RGTAKE. -/
def execRgtake (w : RWord) (s : State) : Host.Outcome State Fault Refusal :=
  issueWord (.rgtake w) 0 w.ctr (fun s u => fenceHold s u || ringHold (.rgtake w) false w s u) (ringEffect .take w)
    (escapeFirst (.rgtake w) true s)

/-- RGPUB and RGDONE for one member: the sequence word must hold the value expected, then it is written at .dev. -/
def finishRing (publish : Bool) (w : RWord) (core : Nat) (s : State) (k : Nat) : State :=
  match tget k s.threads with
  | none => s
  | some t =>
    let i := src64 s t w.b
    match readRing s t (src64 s t w.a) with
    | .error b => takeBad s k b
    | .ok r =>
      match checkSlot s t r i with
      | .error b => takeBad s k b
      | .ok _ =>
        let die := dieOfCore core
        match (ringPoison s die t.ctx r.desc 64).or (ringPoison s die t.ctx (r.slot i) 16) with
        | some (va, pa, g) => consumePoison s k va pa g
        | none =>
        if ringSeq s die t.ctx r i ≠ some (if publish then i else low 64 (i + 1)) then takeTrap0 s k 0x03
        else
          let s := countRelease s k 4
          if publish then ringPublish s core t.ctx t.team r i (srClk s) else ringDone s core t.ctx t.team r i

/-- RGPUB: the release at .dev comes first. -/
def execRgpub (w : RWord) (s : State) : Host.Outcome State Fault Refusal :=
  issueWord (.rgpub w) 0 w.ctr
    (fun s u => fenceHold s u || ringHold (.rgpub w) true w s u || releaseHold (.rgpub w) 4 s u)
    (fun s u active => settle ((memberOrder s active).foldl (finishRing true w u.core) s)) (escapeFirst (.rgpub w) true s)

/-- RGDONE: the release at .dev comes first. -/
def execRgdone (w : RWord) (s : State) : Host.Outcome State Fault Refusal :=
  issueWord (.rgdone w) 0 w.ctr
    (fun s u => fenceHold s u || ringHold (.rgdone w) true w s u || releaseHold (.rgdone w) 4 s u)
    (fun s u active => settle ((memberOrder s active).foldl (finishRing false w u.core) s)) (escapeFirst (.rgdone w) true s)

end Sys2Proof.Machine
end

