-- ==== Sys2Proof/Machine/SystemOps.lean ====
section
/-! DEFINITION. The system class: TRAP, SYSRET, SRD, SWR, RINV (spec/15_ops_memory.md R211 to R216). -/

namespace Sys2Proof.Machine

/-! ## TRAP and SYSRET (R212, R213) -/

/-- TRAP #n: the software trap, cause 0x70, with n. -/
def execTrap (w : RWord) (s : State) : Host.Outcome State Fault Refusal :=
  issueWord (.trap w) 0 7 noHold (fun s _ active =>
    active.foldl (fun s k => takeTrap s k 0x70 0 (bits w.c.toNat 0 8)) s) s

/-- The address of a slot of a context's trap ring (R296). -/
def slotVa (s : State) (ctx slot : Nat) : Nat := low 64 (((tget ctx s.contexts).map (·.desc.tring)).getD 0 + 1024 * slot)

/-- The trapped thread of a context whose record lies at an address (R213). -/
def trappedAt (s : State) (ctx va : Nat) : Option (Nat × Thread × TrapInfo) :=
  s.threads.findSome? fun e =>
    if e.2.ctx = ctx && e.2.state = .trapped then
      match e.2.trapSlot, e.2.trap with
      | some slot, some i => if slotVa s ctx slot = va then some (e.1, e.2, i) else none
      | _, _ => none
    else none

/-- STEP of a record as a thread of a core sees it (R297). -/
def recordStep (s : State) (core ctx va : Nat) : Bool :=
  match resolve s (dieOfCore core) ctx 0 ⟨true, false, false, true⟩ (low 64 (va + 0x38)) with
  | .ok (.hbm pa) => bit (leValue ((addrs pa 8).map (coreByte s core))) 14
  | _ => false

/-- The position of a stopping word in its clause. -/
def stopPosition (i : TrapInfo) : Nat := (i.pc - i.hdr) / 8 - 1

/-- Whether a clause's class and word make a transfer word (R141). -/
def isTransferWord (cls : BitVec 3) (x : Nat) : Bool :=
  match Class.ofBits cls with
  | none => false
  | some c => match decodeWord c (BitVec.ofNat 64 x) with
    | .ok i => i.isTransfer
    | .error _ => false

/-- Where .SKIP resumes: past the clause at its header, its last word, or a transfer word; else at the next word. A header that
cannot be fetched gives no place to skip to, and the thread stands at its stopping word again. [DEDUCED: log entry 41] -/
def skipPlace (s : State) (t : Thread) (i : TrapInfo) : Nat × Option Nat :=
  match fetchCode s t i.hdr with
  | .error _ => (i.hdr, if i.pc = i.hdr then none else some (stopPosition i))
  | .ok h =>
    let count := (Header.decode (BitVec.ofNat 64 h)).count.toNat
    let cls := (Header.decode (BitVec.ofNat 64 h)).cls
    let next := nextClause i.hdr count
    if i.pc = i.hdr || count ≤ stopPosition i then (next, none)
    else
      match fetchCode s t i.pc with
      | .ok x => if isTransferWord cls x then (next, none) else (i.hdr, some (stopPosition i + 1))
      | .error _ => (i.hdr, some (stopPosition i + 1))

/-- SYSRET of one member (R213). -/
def sysretMember (w : RWord) (s : State) (k : Nat) : State :=
  match tget k s.threads with
  | none => s
  | some t =>
    if !t.sys then takeTrap0 s k 0x11
    else
      let va := src64 s t w.a
      match trappedAt s t.ctx va with
      | none => takeTrap0 s k 0x03
      | some (k', t', i) =>
        let step := recordStep s (coreOf s t) t.ctx va
        match bits w.c.toNat 0 2 with
        | 0 => resumeThread s k' i.hdr (if i.pc = i.hdr then none else some (stopPosition i)) step
        | 1 => let (hdr, pos) := skipPlace s t' i; resumeThread s k' hdr pos step
        | 2 =>
          let s := match t'.trapSlot with
            | some slot => s.onContext t'.ctx fun c => { c with trapSlots := tdel slot c.trapSlots }
            | none => s
          exitThread s k'
        | _ =>
          let target := src64 s t w.b
          if targetLegal s t' target then resumeThread s k' target none step else takeTrap0 s k 0x03

/-- SYSRET. [DEDUCED: log entry 41] -/
def execSysret (w : RWord) (s : State) : Host.Outcome State Fault Refusal :=
  issueWord (.sysret w) 0 7 noHold (fun s _ active => settle ((memberOrder s active).foldl (sysretMember w) s)) s

/-! ## Special registers (R214, R215) -/

/-- The value of a special register for a thread. -/
def specialRegister (s : State) (t : Thread) (code : Nat) : Nat :=
  match code with
  | 0x00 => low 64 t.tid
  | 0x01 => t.member
  | 0x02 => t.srGroup
  | 0x03 => ((tget t.team s.teams).map (·.index)).getD 0
  | 0x04 => launchIdOf s t
  | 0x05 => threadCore s t (coreOf s t)
  | 0x06 => srClk s
  | 0x07 => t.ctx
  | 0x08 => t.srVersion
  | 0x09 => ((groupOf s t).map (·.live)).getD 0
  | 0x0A => t.draw
  | 0x0B => if t.sys then 1 else 0
  | 0x40 => if ((tget t.ctx s.contexts).map (·.schk)).getD false then 1 else 0
  | _ => (s.core (coreOf s t)).cageTmo

/-- The members of a word in user mode. -/
def userMembers (s : State) (ks : List Nat) : List Nat :=
  ks.filter fun k => match tget k s.threads with
    | some t => !t.sys
    | none => false

/-- SRD: codes from 0x40 raise the permission trap in user mode (R211). -/
def execSrd (w : RWord) (s : State) : Host.Outcome State Fault Refusal :=
  let code := bits w.c.toNat 0 8
  let n := if [0, 3, 4, 6, 9].contains code then 2 else 1
  issueWord (.srd w) 4 7 noHold (fun s u active =>
    let bad := if 0x40 ≤ code then userMembers s active else []
    let s := bad.foldl (fun s k => takeTrap0 s k 0x11) s
    valueEffect 4 w.dst n (fun s _ t => specialRegister s t code) s u (active.filter fun k => !bad.contains k)) s

/-- SWR of one member: SCHK of its context, or CAGE_TMO of its core. -/
def swrMember (w : RWord) (s : State) (k : Nat) : State :=
  match tget k s.threads with
  | none => s
  | some t =>
    let v := src32 s t w.a
    if !t.sys then takeTrap0 s k 0x11
    else if bits w.c.toNat 0 8 = 0x40 then s.onContext t.ctx fun c => { c with schk := bit v 0 }
    else if bits v 0 16 < 16 then takeTrap0 s k 0x03
    else s.onCore (coreOf s t) fun c => { c with cageTmo := bits v 0 16 }

/-- SWR. -/
def execSwr (w : RWord) (s : State) : Host.Outcome State Fault Refusal :=
  issueWord (.swr w) 0 7 noHold (fun s _ active => (memberOrder s active).foldl (swrMember w) s) s

/-! ## RINV (R216) -/

/-- The checks of RINV: base and length, then the barrier object. [DEDUCED: log entry 55] -/
def checkRinv (s : State) (t : Thread) (base len obj : Nat) : Except Bad Target :=
  if base % 256 ≠ 0 || len % 256 ≠ 0 then .error ⟨0x12, base, 0⟩
  else if len < 256 || 2 ^ 40 < len then .error ⟨0x03, 0, 0⟩
  else
    match checkPlain s t needBoth false obj 8 with
    | .error b => .error b
    | .ok (va, _, tgt) =>
      if !tgt.isHbm then .error ⟨0x03, 0, 0⟩
      else match checkLocks s t va 8 true with
        | .error b => .error b
        | .ok _ => .ok tgt

/-- RINV: after the release at .dev the request is accepted and the counter falls; the purge goes on. -/
def execRinv (w : RWord) (s : State) : Host.Outcome State Fault Refusal :=
  issueWord (.rinv w) 0 w.ctr (releaseHold (.rinv w) 4) (fun s u active =>
    (memberOrder s active).foldl (fun s k => match tget k s.threads with
      | none => s
      | some t =>
        match checkRinv s t (src64 s t w.a) (src64 s t w.b) (src64 s t w.c) with
        | .error b => takeBad s k b
        | .ok tgt =>
          (countRelease s k 4).beginOp (.rinv ⟨⟨k, w.ctr⟩, u.core, t.ctx, src64 s t w.a, src64 s t w.b, tgt, src64 s t w.c, (t.curHdr, t.curWord)⟩)) s)
    (escapeFirst (.rinv w) true s)

end Sys2Proof.Machine
end

