-- ==== Sys2Proof/Machine/Engine.lean ====
section
/-! DEFINITION. What the engine commands share: posting once per group, room, and the writes that engines perform
(spec/17_ops_engines.md R217 to R221; spec/07_memory.md R83, R97; spec/25_faults_reliability.md R312). -/

namespace Sys2Proof.Machine

/-! ## Posting once per group (R217, R219) -/

/-- The active members of each group of an issue set, in the groups' launch order; the first is the elected thread (R107). -/
def commandGroups (s : State) (active : List Nat) : List (List Nat) :=
  let no (g : Nat) : Nat := ((tget g s.groups).map (·.launchNo)).getD 0
  (sortBy (fun a b => no a ≤ no b) (groupsOf s active)).map fun g =>
    memberOrder s (active.filter fun k => ((tget k s.threads).bind (·.group)) = some g)

/-- What a group's command would be: the first failing check for its elected thread, or its plan. -/
def groupPlan (check : State → Nat → Thread → Except Bad P) (s : State) (ms : List Nat) : Except Bad P :=
  match ms with
  | [] => .error ⟨0, 0, 0⟩
  | k :: _ => match tget k s.threads with
    | none => .error ⟨0, 0, 0⟩
    | some t => check s k t

/-- The plans of the groups whose checks pass. -/
def plansOf (check : State → Nat → Thread → Except Bad P) (s : State) (active : List Nat) : List P :=
  (commandGroups s active).filterMap fun ms => match groupPlan check s ms with
    | .ok p => some p
    | .error _ => none

/-- The effect of a per-group command: a failing check traps every active member of the group and posts nothing (R219); a g
destination asks for whole groups (R67). -/
def commandEffect (dst : Option (BitVec 9)) (check : State → Nat → Thread → Except Bad P)
    (post : List Nat → Nat → Thread → P → State → Issuing → State) (s : State) (u : Issuing) (active : List Nat) : State :=
  let uniform := dst.any fun d => 384 ≤ d.toNat
  (commandGroups s active).foldl (fun s ms =>
    match ms with
    | [] => s
    | k :: _ =>
      if uniform && (ungathered s u [k]).length = 1 then ms.foldl (fun s m => takeTrap0 s m 0x21) s
      else match tget k s.threads with
        | none => s
        | some t => match check s k t with
          | .error b => ms.foldl (fun s m => takeTrap s m b.cause b.faddr b.info) (badWalk s k b)
          | .ok p => post ms k t p s u) s

/-- The word lacks room for the commands it would post (R219 step 3). -/
def roomHold (i : Instr) (check : State → Nat → Thread → Except Bad P) (room : State → Issuing → List P → Bool) (s : State)
    (u : Issuing) : Bool := !room s u (plansOf check s (clearMembers s u i))

/-- A group whose checks fail takes its trap before the word holds for room (R219 step 1). -/
def failFirst (i : Instr) (ctr : Nat) (check : State → Nat → Thread → Except Bad P) (room : State → Issuing → List P → Bool)
    (s : State) : State :=
  match s.issuing with
  | none => s
  | some u =>
    if i.staticCause.isNone && !commonHold s u i 0 ctr && !fenceHold s u && roomHold i check room s u then
      (commandGroups s (clearMembers s u i)).foldl (fun s ms => match groupPlan check s ms with
        | .error b =>
          let s := badWalk s ((ms.head?).getD 0) b
          ms.foldl (fun s m => takeTrapAt s m u.hdr (wordAddr u.hdr u.pos) b.cause b.faddr b.info) s
        | .ok _ => s) s
    else s

/-- A per-group command word. -/
def commandWord (i : Instr) (ctr : Nat) (dst : Option (BitVec 9)) (check : State → Nat → Thread → Except Bad P)
    (room : State → Issuing → List P → Bool) (own : State → Issuing → Bool)
    (post : List Nat → Nat → Thread → P → State → Issuing → State) (s : State) : Host.Outcome State Fault Refusal :=
  issueWord i 0 ctr (fun s u => fenceHold s u || own s u || roomHold i check room s u) (commandEffect dst check post)
    (failFirst i ctr check room s)

/-! ## Range locks of a command (R97) -/

/-- The cores whose range-lock tables hold a command's entries: both of a core-pair team. -/
def lockCores (s : State) (t : Thread) : List Nat :=
  match tget t.team s.teams with
  | some tm => tm.cores.map (·.1)
  | none => [coreOf s t]

/-- A span of bytes as a lock range; an empty span locks nothing. -/
def lockRange (lo hi : Nat) (write : Bool) : List (Nat × Nat × Bool) :=
  if hi ≤ lo then [] else [((widen lo (hi - lo)).1, (widen lo (hi - lo)).2, write)]

/-- A command's locks entered on the cores that hold them. -/
def lockCommand (s : State) (cores : List Nat) (key ctx : Nat) (locks : List (Nat × Nat × Bool)) : State :=
  cores.foldl (fun s c => enterLocks s c (key * 64 + ctx) locks) s

/-- A command's locks dropped. -/
def unlockCommand (s : State) (key ctx : Nat) : State := dropLocks s (key * 64 + ctx)

/-! ## Engine writes -/

/-- The page of 64 KiB that holds an address. -/
def pageOf (va : Nat) : Nat := va / 65536

/-- The first address past a team's scratchpad allocation in the aperture (R78). -/
def apertureEnd (s : State) (team : Nat) : Nat := apertureBase + ((tget team s.teams).map (·.scratch)).getD 0

/-- The lowest address that ranges of bytes touch at or past the end of a team's scratchpad allocation (R78). -/
def pastEnd (s : State) (team : Nat) (ranges : List (Nat × Nat)) : Option Nat :=
  let edge := apertureEnd s team
  ((ranges.filter fun r => r.2 ≠ 0 && edge < r.1 + r.2).map fun r => max r.1 edge).foldl (fun best a => match best with
    | some b => some (min a b)
    | none => some a) none

/-- The pages that ranges of bytes touch, each with the lowest address touched in it, ascending; and the lowest address touched past the
team's scratchpad allocation, which the page's lowest may hide (R78). -/
def touchedPages (s : State) (team : Nat) (ranges : List (Nat × Nat)) : List (Nat × Nat) :=
  let pages := ranges.foldl (fun t r =>
    if r.2 = 0 then t
    else (List.range (pageOf (r.1 + r.2 - 1) + 1 - pageOf r.1)).foldl (fun t i =>
      let p := low 48 (pageOf r.1 + i)
      let a := if i = 0 then low 64 r.1 else p * 65536
      tset p (min a (tgetD p a t)) t) t) []
  match pastEnd s team ranges with
  | some a => sortBy (fun a b => a.2 ≤ b.2) (pages ++ [(pageOf a, a)])
  | none => pages

/-- A local physical address as an engine meets it: of the on-chip map, or any other, `hbm` standing for those that R21
makes unassigned to an engine as well: no memory, the control space, a carve-out. [DEDUCED: log entry 61] -/
def engineLocal (pa : Nat) : Target := if onchipBase ≤ pa && pa < onchipBase + 0x1000000000 then .onchip pa else .hbm pa

/-- Translation and permission of an engine's access: as `resolve`, but an unassigned address is no trap of the poster: the
engine meets it itself (R21). [DEDUCED: log entry 61] -/
def engineTarget (s : State) (t : Thread) (need : Need) (va : Nat) : Except Nat Target :=
  let die := dieOfCore (coreOf s t)
  match resolve s die t.ctx t.team { need with sys := t.sys } va with
  | .ok (.control off) => .ok (engineLocal (controlBase + off))
  | .ok tgt => .ok tgt
  | .error c =>
    if c ≠ 0x11 || apertureBase ≤ va then .error c
    else match leafOf s die t.ctx va with
      | some (leaf, size) =>
        if (bit leaf 5 && !t.sys) || (need.rd && !bit leaf 2) || (need.wr && !bit leaf 3) || bits leaf 6 2 = 1 then .error c
        else .ok (engineLocal (bits leaf 16 40 * 65536 + va % size))
      | none => .error c

/-- The same for a matrix or fabric command, which no carve-out serves: its poster takes the permission trap (R109, R280).
[DEDUCED: log entry 61] -/
def commandTarget (s : State) (t : Thread) (need : Need) (va : Nat) : Except Nat Target :=
  match engineTarget s t need va with
  | .ok (.hbm pa) => if inCarveOut s pa then .error 0x11 else .ok (.hbm pa)
  | r => r

/-- The targets of the pages of a command's ranges as posting translates them, in ascending address order; a source is
redirected by the poster's version selection (R109, R219 step 2, R275). `kind` tells the targets the command takes. -/
def capturePages (s : State) (t : Thread) (res : State → Thread → Need → Nat → Except Nat Target) (need : Need) (redirects : Bool) (kind : Target → Bool) :
    List (Nat × Nat) → Except Bad (List (Nat × Target))
  | [] => .ok []
  | (p, a) :: rest =>
    match windowed s t redirects a with
    | .error b => .error b
    | .ok (at_, _) =>
      match res s t need at_ with
      | .error c => .error ⟨c, at_, 0⟩
      | .ok tgt =>
        if !kind tgt then .error ⟨0x03, 0, 0⟩
        else
          let start := match tgt with
            | .hbm pa => Target.hbm (pa - a % 65536)
            | .onchip pa => .onchip (pa - a % 65536)
            | .peer q pa => .peer q (pa - a % 65536)
            | tgt => tgt
          match capturePages s t res need redirects kind rest with
          | .error b => .error b
          | .ok ps => .ok ((p, start) :: ps)

/-- The target of a byte through the pages that a command captured; the aperture is the team's. -/
def capturedTarget (s : State) (team : Nat) (pages : List (Nat × Target)) (va : Nat) : Option Target :=
  if apertureBase ≤ va then apertureTarget s team (va - apertureBase)
  else (tget (pageOf va) pages).map (·.plus (va % 65536))

/-- Local HBM or the team's scratchpad aperture: what matrix operands and drains take (R114, R123). -/
def hbmOrScratch (t : Target) : Bool := (t.isHbm && t.pa < hbmBytes) || t.isScratch

/-- Bytes that the package writes at a virtual address of a context where its page lies: local HBM at home, the on-chip map, or a peer
page, which they leave for; none where a page is missing or forbids it (R253, R258, R261). [DESIGN CHOICE: log entry 50] -/
def deliverWrite (s : State) (ctx va : Nat) (bs : List Byte) : Option State :=
  match resolveRange s (firstDie s ctx) ctx 0 ⟨false, true, false, true⟩ (pieceFuel bs.length) va bs.length with
  | .error _ => none
  | .ok ps =>
    (ps.foldl (fun (acc : Option State × List Byte) p =>
      let mine := acc.2.take p.2
      let cells := (addrs p.1.pa p.2).zip mine
      (acc.1.bind fun s => match p.1 with
        | .hbm pa => some (storeHome s pa mine)
        | .onchip pa => if onchipWritable s ctx pa p.2 then some (fillGranules (writeNow s cells) (addrs pa p.2)) else none
        | .peer _ _ => some s
        | _ => none, acc.2.drop p.2)) (some s, bs)).1

/-- A value added to an 8-byte word where its page lies, at home for local HBM; none where the page is missing or forbids it (R253,
R261). [DESIGN CHOICE: log entry 50] -/
def deliverAdd (s : State) (ctx va v : Nat) : Option State :=
  match resolve s (firstDie s ctx) ctx 0 ⟨true, true, false, true⟩ va with
  | .ok (.peer _ _) => some s
  | .ok (.control _) => none
  | .ok tgt =>
    if (poisonedAt s tgt.pa 8).isSome then none
    else
      let old := match tgt with
        | .hbm pa => leValue ((addrs pa 8).map (homeByte s))
        | tgt => leValue ((addrs tgt.pa 8).map (onchipByte s))
      deliverWrite s ctx va (leBytes 8 (low 64 (old + v)))
  | .error _ => none

/-- The cores of a team. -/
def coresOfTeam (s : State) (team : Nat) : List Nat := ((tget team s.teams).map fun t => t.cores.map (·.1)).getD []

/-- Bytes that an engine writes reach their target: local HBM at .dev, with their writer entries and past every L1 of the team (R96,
R106), or the team's hold buffer in a checkpoint interval; the on-chip map at once; peer pages leave the package. -/
def engineStore (s : State) (core ctx team cmd va : Nat) (tgt : Target) (bs : List Byte) : State :=
  let bytes := (addrs tgt.pa bs.length).zip bs
  match tgt, replayOf s team with
  | .scratch _ _, _ => writeNow s bytes
  | _, some (n, x) => replayWrite s n x va bytes
  | .hbm pa, none =>
    let lineVa (l : List (Nat × Byte)) : Nat := low 64 (va + (((l.head?).map (·.1)).getD pa - pa))
    let linePa (l : List (Nat × Byte)) : Nat := ((l.head?).map (·.1)).getD pa
    if holdsStores s team then
      (byLine bytes).foldl (fun s l => beginStore s ⟨[], core, ctx, team, lineVa l, .hbm (linePa l), l, none, false, some cmd, [lineVa l]⟩) s
    else
      let s := storeHome (dropL1Bytes s (core :: coresOfTeam s team) bytes) pa bs
      (byLine bytes).foldl (fun s l => noteWrite s team (linePa l) (lineVa l)) s
  | .onchip _, none => writeNow s bytes
  | _, none => s

/-- One of the values of a list, by a free choice; none of an empty list. [DESIGN CHOICE: log entry 66] -/
def choose (s : State) (xs : List α) : Option α × State :=
  let (x, s) := s.draw
  (xs[x.toNat % xs.length]?, s)

/-- Bytes cut at addresses that are multiples of 4, with the address and target of each piece.
[DESIGN CHOICE: log entry 63] -/
def cutUnits (target : Nat → Option Target) : Nat → Nat → List Byte → List (Nat × Target × List Byte)
  | 0, _, _ => []
  | _, _, [] => []
  | fuel + 1, va, bs =>
    let n := 4 - va % 4
    match target va with
    | some t => (va, t, bs.take n) :: cutUnits target fuel (va + n) (bs.drop n)
    | none => cutUnits target fuel (va + n) (bs.drop n)

end Sys2Proof.Machine
end

