-- ==== Sys2Proof/Machine/Matrix.lean ====
section
/-! DEFINITION. The matrix engine: MMUL, MMERGE, MDRAIN, MCFG, the reservation tables, passes, merges, drains and retirement
(spec/09_matrix_engine.md R107 to R125; spec/07_memory.md R88 to R91; spec/17_ops_engines.md R222 to R226). -/

namespace Sys2Proof.Machine

/-! ## The configuration record (R112, R113) -/

/-- The record with one selector written; none for a selector above 3 or a reserved bit (R112). -/
def MatrixCfg.write (c : MatrixCfg) (sel v : Nat) : Option MatrixCfg :=
  match sel with
  | 0 => if v / 2 ^ 16 = 0 then some { c with sel0 := BitVec.ofNat 64 v } else none
  | 1 => if v / 2 ^ 24 = 0 then some { c with sel1 := BitVec.ofNat 64 v } else none
  | 2 => some { c with sel2 := BitVec.ofNat 64 v }
  | 3 => if v / 2 ^ 3 = 0 then some { c with sel3 := BitVec.ofNat 64 v } else none
  | _ => none

/-- The record captured by a command breaks R113 (or R121 for a core-pair command) with the tiles it names. -/
def configBad (s : State) (t : Thread) (c : MatrixCfg) (pair : Bool) (tiles : List Nat) : Bool :=
  c.m = 0 || (if pair then 128 else 64) < c.m || c.n = 0 || 128 < c.n || 10 ≤ c.afmt || 10 ≤ c.bfmt
    || (c.red && tiles.any fun n => 7 < n) || (pair && teamCores s t ≠ 2)

/-! ## Formats (R88, R115) -/

/-- The element type of a format code of R88. -/
def fmtType (code : Nat) : Ty :=
  match code with
  | 0 => .e4m3
  | 1 => .e5m2
  | 2 => .e2m1
  | 3 => .ds8
  | 4 => .s8
  | 5 => .n8
  | 6 => .s4
  | 7 => .n4
  | 8 => .f16
  | _ => .bf16

/-- The element width in bits. -/
def fmtBits (code : Nat) : Nat := (fmtType code).width

/-- The zero code of a format (R91). -/
def zeroCode (fmt : Nat) : Nat := if fmt = 3 then 0x77 else 0

/-- The pass time for two formats (R115). -/
def passTime (a b : Nat) : Nat := if 8 ≤ a || 8 ≤ b then 32 else if a = 3 || b = 3 then 8 else 16

/-! ## Windows (R89 to R91) -/

/-- Block columns and rows, and the bytes of a block. -/
def Window.nbc (w : Window) : Nat := ceilDiv w.cols 32
def Window.nbr (w : Window) : Nat := ceilDiv w.rows 32
def Window.block (w : Window) : Nat := 128 * fmtBits w.fmt

/-- The bytes of the element range. -/
def Window.bytes (w : Window) : Nat := w.nbr * w.nbc * w.block

/-- The address of element (i, j) (R89). -/
def Window.elementPa (w : Window) (i j : Nat) : Nat :=
  w.base + (i / 32 * w.nbc + j / 32) * w.block + (i % 32 * 32 + j % 32) * fmtBits w.fmt / 8

/-- The element that lies at an address of the range (R89). -/
def Window.elementOf (w : Window) (pa : Nat) : Nat × Nat :=
  let o := pa - w.base
  let e := o % w.block * 8 / fmtBits w.fmt
  (o / w.block / w.nbc * 32 + e / 32, o / w.block % w.nbc * 32 + e % 32)

/-- The enabled window whose element range holds an address. -/
def windowAt (s : State) (pa : Nat) : Option Window :=
  (s.windows.find? fun e => e.2.en && e.2.base ≤ pa && pa < e.2.base + e.2.bytes).map (·.2)

/-- The tag of a line by one of its addresses: format and scale; none for an untyped line. The scale of a block whose scale byte lies in
a carve-out, which no fill reads, is a free value (R90, R280). [DESIGN CHOICE: log entry 110] -/
def tagAt (s : State) (pa : Nat) : Option (Nat × Nat) :=
  (windowAt s pa).map fun w =>
    let at_ := w.sbase + (pa - w.base) / w.block
    (w.fmt, if w.layout ≠ 1 then 127
      else if deviceReaches s at_ 1 then (homeByte s at_).toNat else low 8 (Config.freeWord s.draws).toNat)

/-- Whether fills of an address wait for a window's purge (R88). -/
def fillWaits (s : State) (pa : Nat) : Bool :=
  s.windows.any fun e => e.2.busy && e.2.base ≤ pa && pa < e.2.base + e.2.bytes

/-! ## Operands (R114, R223) -/

/-- One operand of a product: base, stride, default format, the outer (row) and inner (element) index ranges as first index
and count. -/
structure OperandShape where
  va : Nat
  stride : Nat
  fmt : Nat
  o0 : Nat
  on : Nat
  i0 : Nat
  in_ : Nat
  deriving DecidableEq, Repr

/-- The rows of an untyped operand: start of each row, start and length of the bytes read in it. [DEDUCED: log entry 65] -/
def OperandShape.rows (o : OperandShape) : List (Nat × Nat × Nat) :=
  let eb := fmtBits o.fmt
  (List.range o.on).map fun d =>
    let start := o.va + (o.o0 + d) * o.stride
    (low 64 start, low 64 (start + o.i0 * eb / 8), ceilDiv ((o.i0 + o.in_) * eb) 8 - o.i0 * eb / 8)

/-- The window an operand lies in, with the element at its base (R114). -/
def OperandShape.window (s : State) (t : Thread) (o : OperandShape) : Option (Window × Nat × Nat) :=
  match windowed s t true o.va with
  | .error _ => none
  | .ok (va, _) => match resolve s (dieOfCore (coreOf s t)) t.ctx t.team { needRead with sys := t.sys } va with
    | .ok (.hbm pa) => (windowAt s pa).map fun w => (w, w.elementOf pa)
    | _ => none

/-- The virtual address of a byte of a window, by its distance from the element at the operand's base, whichever physical pages lie
between them. [DESIGN CHOICE: log entry 110] -/
def windowVa (va : Nat) (w : Window) (i0 j0 pa : Nat) : Nat :=
  wrap 64 ((va : Int) + ((pa : Int) - (w.elementPa i0 j0 : Int)))

/-- The byte ranges that an operand reads, by block for a window, whose padding takes the block's scale, and its span from the lowest to
the highest byte within the bound (R114, R91, R223). -/
def OperandShape.footprint (o : OperandShape) (w : Option (Window × Nat × Nat)) : List (Nat × Nat) × Nat × Nat :=
  match w with
  | none =>
    let rs := o.rows.map (·.2)
    (rs, rs.foldl (fun m r => min m r.1) (2 ^ 64), rs.foldl (fun m r => max m (r.1 + r.2)) 0)
  | some (w, i0, j0) =>
    let r0 := i0 + o.o0
    let c0 := j0 + o.i0
    let rb := min (r0 + o.on) (32 * w.nbr)
    let cb := min (c0 + o.in_) (32 * w.nbc)
    let blocks := if rb ≤ r0 || cb ≤ c0 then []
      else (List.range ((rb - 1) / 32 + 1 - r0 / 32)).map fun d =>
        (windowVa o.va w i0 j0 (w.base + ((r0 / 32 + d) * w.nbc + c0 / 32) * w.block),
          ((cb - 1) / 32 + 1 - c0 / 32) * w.block)
    let r1 := min (r0 + o.on) w.rows
    let c1 := min (c0 + o.in_) w.cols
    if r1 ≤ r0 || c1 ≤ c0 then (blocks, 0, 0)
    else (blocks, windowVa o.va w i0 j0 (w.elementPa r0 c0),
      windowVa o.va w i0 j0 (w.elementPa (r1 - 1) (c1 - 1)) + max 1 (fmtBits w.fmt / 8))

/-- The first misaligned row start of an untyped operand (R114). -/
def OperandShape.misaligned (o : OperandShape) (w : Option (Window × Nat × Nat)) : List Nat :=
  if w.isSome then [] else (o.rows.map (·.1)).filter fun a => a % max 1 (fmtBits o.fmt / 8) ≠ 0

/-! ## Plans (R109, R219, R223) -/

/-- What posting a command needs, once its checks have passed. -/
structure MatrixPlan where
  kind : MatrixKind
  cfg : MatrixCfg
  pair : Bool
  a : OperandRef
  b : OperandRef
  steps : List MatrixStep
  preds : List Nat
  locks : List (Nat × Nat × Bool)
  deriving DecidableEq, Repr

/-- An operand that a command does not have. -/
def OperandRef.absent : OperandRef := ⟨0, [], none⟩

/-- The passes of mmul(m, k0, kv) into a tile (R118). -/
def productSteps (m k0 kv acc : Nat) : List MatrixStep :=
  (List.range (2 ^ (m - 5))).map fun c =>
    .pass acc (k0 + 32 * c) (min 32 (kv - 32 * c)) (if c + 1 = 2 ^ (m - 5) then some m else none)

/-- One bit of K in the chain (R120). -/
def chainBit (k off d sc : Nat) (acc : Bool × List MatrixStep) (b : Nat) : Bool × List MatrixStep :=
  let (first, out) := acc
  if !bit k b then acc
  else if b = 13 then
    (false, out ++ productSteps 12 off 4096 sc ++ productSteps 12 (off + 4096) 4096 d ++ [.merge d sc d])
  else
    let k0 := k / 2 ^ (b + 1) * 2 ^ (b + 1)
    (false, out ++ productSteps b (off + k0) (2 ^ b) (if first then d else sc) ++ (if first then [] else [.merge d sc d]))

/-- chain(K, accD, accS) with every k0 increased by an offset (R120, R223). -/
def chainSteps (k off d sc : Nat) : List MatrixStep :=
  let t := k % 32
  let first := if t = 0 then [] else productSteps 5 (off + (k - t)) t d
  ((List.range 9).foldl (fun acc i => chainBit k off d sc acc (5 + i)) (first.isEmpty, first)).2

/-- P1 and P2 of a predecessor word (R222). -/
def predecessors (p : Nat) : List Nat := [bits p 0 16, bits p 16 16].filter (· ≠ 0)

/-- The limits of a k word (R223). -/
def kWordBad (k acc accs : Nat) : Bool :=
  let m := bits k 45 4
  let kv := bits k 32 13 + 1
  let k0 := bits k 0 32
  k / 2 ^ 50 ≠ 0 || (if bit k 49 then m ≠ 0 || k0 % 8192 ≠ 0 || accs = acc
    else m < 5 || 12 < m || 2 ^ m < kv || k0 % 2 ^ m ≠ 0 || accs ≠ 0)

/-- The checks of MMUL for the elected thread (R109 steps 1 and 2, R113, R114, R121, R223). [DEDUCED: log entry 65] -/
def checkMmul (w : RWord) (s : State) (_ : Nat) (t : Thread) : Except Bad MatrixPlan :=
  let cfg := ((groupOf s t).map (·.cfg)).getD MatrixCfg.reset
  let k := src64 s t w.b
  let acc := w.fbits 9 4
  let accs := w.fbits 5 4
  let pair := w.fbits 4 1 = 1
  let chain := bit k 49
  if kWordBad k acc accs || configBad s t cfg pair (if chain then [acc, accs] else [acc]) then .error ⟨0x03, 0, 0⟩
  else
    let (va, vb) := src128 s t w.a
    let kv := bits k 32 13 + 1
    let k0 := bits k 0 32
    let a : OperandShape := if cfg.atrans then ⟨va, cfg.astride, cfg.afmt, k0, kv, 0, cfg.m⟩
      else ⟨va, cfg.astride, cfg.afmt, 0, cfg.m, k0, kv⟩
    let b : OperandShape := if cfg.btrans then ⟨vb, cfg.bstride, cfg.bfmt, 0, cfg.n, k0, kv⟩
      else ⟨vb, cfg.bstride, cfg.bfmt, k0, kv, 0, cfg.n⟩
    let wa := a.window s t
    let wb := b.window s t
    match (a.misaligned wa ++ b.misaligned wb).foldl (fun (m : Option Nat) x => some (min x (m.getD x))) none with
    | some x => .error ⟨0x12, x, 0⟩
    | none =>
      let (ra, alo, ahi) := a.footprint wa
      let (rb, blo, bhi) := b.footprint wb
      match capturePages s t commandTarget needRead true hbmOrScratch (touchedPages s t.team (ra ++ rb)) with
      | .error e => .error e
      | .ok pages => .ok {
          kind := .mmul (BitVec.ofNat 64 k) acc (if chain then accs else acc)
          cfg := cfg, pair := pair
          a := ⟨va, pages, wa⟩, b := ⟨vb, pages, wb⟩
          steps := if chain then chainSteps kv k0 acc accs else productSteps (bits k 45 4) k0 kv acc
          preds := predecessors (src32 s t w.c)
          locks := lockRange alo ahi false ++ lockRange blo bhi false }

/-- The checks of MMERGE (R224). -/
def checkMmerge (w : RWord) (s : State) (_ : Nat) (t : Thread) : Except Bad MatrixPlan :=
  let cfg := ((groupOf s t).map (·.cfg)).getD MatrixCfg.reset
  let d := w.fbits 9 4
  let l := bits w.c.toNat 0 4
  let r := bits w.c.toNat 4 4
  let pair := bit w.c.toNat 8
  if configBad s t cfg pair [d, l, r] then .error ⟨0x03, 0, 0⟩
  else .ok ⟨.mmerge d l r, cfg, pair, .absent, .absent, [.merge d l r], predecessors (src32 s t w.b), []⟩

/-- The element width of a drain format in bytes (R225). -/
def drainWidth (fmt : Nat) : Nat := if fmt = 0 || fmt = 2 then 8 else if fmt = 1 then 4 else if fmt ≤ 4 then 2 else 1

/-- The checks of MDRAIN (R123, R225). -/
def checkMdrain (w : RWord) (s : State) (_ : Nat) (t : Thread) : Except Bad MatrixPlan :=
  let cfg := ((groupOf s t).map (·.cfg)).getD MatrixCfg.reset
  let acc := w.fbits 9 4
  let pair := bit w.c.toNat 7
  let fmt := bits w.c.toNat 0 3
  let rnd := bits w.c.toNat 3 3
  let a := src64 s t w.a
  let eb := drainWidth fmt
  if configBad s t cfg pair [acc] then .error ⟨0x03, 0, 0⟩
  else
    let rows := (List.range cfg.m).map fun i => (drainRow a cfg i, cfg.n * eb)
    match (rows.filter fun r => r.1 % eb ≠ 0).foldl (fun (m : Option Nat) r => some (min r.1 (m.getD r.1))) none with
    | some x => .error ⟨0x12, x, 0⟩
    | none =>
      match capturePages s t commandTarget needWrite false hbmOrScratch (touchedPages s t.team rows) with
      | .error e => .error e
      | .ok pages => .ok {
          kind := .mdrain fmt rnd (bit w.c.toNat 6) acc (low 64 t.tid) t.curWord t.draw
          cfg := cfg, pair := pair
          a := ⟨a, pages, none⟩, b := .absent, steps := []
          preds := predecessors (src32 s t w.b)
          locks := lockRange a (drainRow a cfg (cfg.m - 1) + cfg.n * eb) true }

/-! ## The reservation table (R108 to R111) -/

/-- The key of an entry of a quad. -/
def matrixKey (quad entry : Nat) : Nat := quad * 64 + entry

/-- The identifier of a command (R108). -/
def MatrixEntry.ident (e : MatrixEntry) : Nat := e.seq * 64 + e.entry

/-- The entries of a quad. -/
def quadEntries (s : State) (quad : Nat) : List (Nat × MatrixEntry) := s.matrix.filter fun e => e.1 / 64 = quad

/-- Room for commands of a core: free entries of the table, at most 32 that the core has posted, range-lock entries (R109 step 3). -/
def matrixRoom (s : State) (u : Issuing) (ps : List MatrixPlan) : Bool :=
  let here := quadEntries s (quadOfCore u.core)
  let locks := ps.foldl (fun n p => n + p.locks.length) 0
  let cores := match (u.members.head?).bind fun k => tget k s.threads with
    | some t => lockCores s t
    | none => [u.core]
  here.length + ps.length ≤ 64
    && (here.filter fun e => e.2.core = u.core).length + ps.length ≤ 32
    && cores.all fun c => locks ≤ freeLocks s c

/-- An identifier names a pending command of a quad (R108). -/
def identPending (s : State) (quad id : Nat) : Bool :=
  (tget (matrixKey quad (id % 64)) s.matrix).any fun e => e.seq = id / 64

/-- A waiting command whose predecessors, and every earlier command that names one of its tiles, have retired (R110). -/
def mayReady (s : State) (quad : Nat) (e : MatrixEntry) : Bool :=
  e.state = .waiting && !(e.preds.any (identPending s quad))
    && !((quadEntries s quad).any fun o => o.2.age.2 < e.age.2 && (o.2.cores.any e.cores.contains)
      && o.2.tiles.any e.tiles.contains)

/-- An array that a running command holds. -/
def arrayHeld (s : State) (core : Nat) : Bool := s.matrix.any fun e => e.2.state = .running && e.2.cores.contains core

/-- The order of the arbiter: age, then higher context priority, then lower core, then order of posting; a .DUO command stands at its
pair's lower core (R111). [DESIGN CHOICE: log entry 121] -/
def beforeInAge (s : State) (a b : MatrixEntry) : Bool :=
  let prio (e : MatrixEntry) : Nat := ((tget e.ctx s.contexts).map (·.desc.prio)).getD 0
  let ca := a.cores.headD 0
  let cb := b.cores.headD 0
  if a.age.1 ≠ b.age.1 then a.age.1 < b.age.1
  else if prio a ≠ prio b then prio b < prio a
  else if ca ≠ cb then ca < cb
  else a.age.2 < b.age.2

/-- The command that the arbiter would grant an array to: the oldest ready one that needs it (R111). -/
def oldestFor (s : State) (quad core : Nat) : Option (Nat × MatrixEntry) :=
  ((quadEntries s quad).filter fun e => e.2.state = .ready && e.2.cores.contains core).foldl (fun best e =>
    match best with
    | some b => if beforeInAge s e.2 b.2 then some e else best
    | none => some e) none

/-! ## Reading operands (R116, R117) -/

/-- One element as the tile fetch unit reads it: its scaled FP32 value, and where it came from: virtual and physical address,
format and whether the place is a line of local HBM; padding of a block takes no byte from its place (R91). -/
structure Element where
  value : Nat
  at_ : Option (Nat × Nat × Bool)
  fmt : Nat
  padding : Bool := false
  deriving DecidableEq, Repr

/-- The bits of an element at a byte: two bytes hold it. -/
def elementCode (read : Nat → Byte) (pa width index : Nat) : Nat :=
  let v := (read pa).toNat + 256 * (if width = 16 then (read (pa + 1)).toNat else 0)
  if width = 4 then bits v (4 * (index % 2)) 4 else low width v

/-- Element (outer, inner) of an operand, with its default format and scale (R89 to R91, R114). -/
def readElement (s : State) (team : Nat) (o : OperandRef) (fmt scale stride outer inner : Nat) : Element :=
  match o.window with
  | some (w, i0, j0) =>
    let i := i0 + outer
    let j := j0 + inner
    if w.rows ≤ i / 32 * 32 || w.cols ≤ j / 32 * 32 then
      ⟨decodeScaled (fmtType w.fmt) (zeroCode w.fmt) 127, none, w.fmt, true⟩
    else
      let va := windowVa o.va w i0 j0 (w.elementPa i j)
      match capturedTarget s team o.pages va with
      | some (.hbm pa) =>
        let (f, sc) := (tagAt s pa).getD (fmt, scale)
        let padding := decide (w.rows ≤ i) || decide (w.cols ≤ j)
        let code := if padding then zeroCode f else elementCode (homeByte s) pa (fmtBits f) j
        ⟨decodeScaled (fmtType f) code sc, some (va, pa, true), f, padding⟩
      | _ => ⟨0, none, fmt, false⟩
  | none =>
    let va := low 64 (o.va + outer * stride + inner * fmtBits fmt / 8)
    match capturedTarget s team o.pages va with
    | some (.hbm pa) =>
      let (f, sc) := (tagAt s pa).getD (fmt, scale)
      ⟨decodeScaled (fmtType f) (elementCode (homeByte s) pa (fmtBits f) inner) sc, some (va, pa, true), f, false⟩
    | some t =>
      ⟨decodeScaled (fmtType fmt) (elementCode (memRead s.mem) t.pa (fmtBits fmt) inner) scale, some (va, t.pa, false), fmt, false⟩
    | none => ⟨0, none, fmt, false⟩

/-- The elements of A that a pass needs, by row i < M, and of B, by column j < N; slots from `slot`. -/
def passElements (s : State) (e : MatrixEntry) (slot present : Nat) : List (List Element) × List (List Element) :=
  let c := e.cfg
  ((List.range c.m).map fun i => (List.range present).map fun d =>
      let (o, n) := if c.atrans then (slot + d, i) else (i, slot + d)
      readElement s e.team e.a c.afmt c.ascale c.astride o n,
    (List.range c.n).map fun j => (List.range present).map fun d =>
      let (o, n) := if c.btrans then (j, slot + d) else (slot + d, j)
      readElement s e.team e.b c.bfmt c.bscale c.bstride o n)

/-- The format of the first line among elements. -/
def firstFormat (xs : List Element) : Option Nat :=
  xs.findSome? fun x => match x.at_ with
    | some (_, _, true) => some x.fmt
    | _ => none

/-- The first element whose line has another format than the command's first line; the bytes affected are the rest of its line (R125).
[DESIGN CHOICE: log entry 110] -/
def formatClash (fmt : Option Nat) (xs : List Element) : Option (Nat × Nat × Nat) :=
  xs.findSome? fun x => match x.at_, fmt with
    | some (va, pa, true), some f => if x.fmt = f then none else some (va, pa, 256 - pa % 256)
    | _, _ => none

/-- The first poisoned byte among elements (R316). -/
def elementPoison (s : State) (xs : List Element) : Option (Nat × Nat × Nat) :=
  if s.poison.isEmpty then none
  else (xs.filter (!·.padding)).findSome? fun x => match x.at_ with
    | some (va, pa, _) => (poisonedAt s pa (if fmtBits x.fmt = 16 then 2 else 1)).map fun g =>
        (firstBadVa va pa g, max pa g, if g < hbmBytes then 64 else 4)
    | none => none

/-- The format by which an operand of which no line has been read yet is timed: its window's, or the default. -/
def OperandRef.format (o : OperandRef) (fmt : Nat) : Nat := (o.window.map fun w => w.1.fmt).getD fmt

/-- What the tile fetch unit reads for a pass, and the formats of the command's first lines. -/
def pinPass (s : State) (e : MatrixEntry) (slot present : Nat) : PassPins × Option Nat × Option Nat :=
  let (a, b) := passElements s e slot present
  let fa := e.fmtA.orElse fun _ => firstFormat a.flatten
  let fb := e.fmtB.orElse fun _ => firstFormat b.flatten
  let lines := ((a.flatten ++ b.flatten).filterMap fun x => match x.at_ with
    | some (_, pa, true) => some (pa / 256)
    | _ => none).eraseDups
  (⟨lines, a.map (·.map (·.value)), b.map (·.map (·.value)),
    passTime (fa.getD (e.a.format e.cfg.afmt)) (fb.getD (e.b.format e.cfg.bfmt)) * (if e.cfg.red then 2 else 1),
    (formatClash fa a.flatten).orElse fun _ => formatClash fb b.flatten,
    (elementPoison s a.flatten).orElse fun _ => elementPoison s b.flatten⟩, fa, fb)

/-- The pinned lines of a slice once some more are pinned. -/
def pinnedInSlice (s : State) (more : List Nat) (slice : Nat) : Nat :=
  (((more ++ s.matrix.flatMap fun e => e.2.pins.flatMap (·.lines)).filter fun l => homeSlice s (l * 256) = slice).eraseDups).length

/-- Whether a pass's lines may be pinned now: no purge of a window covers them, no hold of a bank keeps them, and each slice holds no more
than 2,048 with them for the pass next to start, and 1,024 for the one after (R88, R116, R320).
[DESIGN CHOICE: log entry 46] -/
def pinAllowed (s : State) (lines : List Nat) (running : Bool) : Bool :=
  (lines.all fun l => !fillWaits s (l * 256) && !bankHeld s (l * 256))
    && ((lines.map fun l => homeSlice s (l * 256)).eraseDups).all fun k =>
      pinnedInSlice s lines k ≤ (if running then 2048 else 1024)

/-! ## Tiles (R119, R124) -/

/-- The rows of a command's output that each of its arrays holds: core, first row, rows (R121). -/
def MatrixEntry.halves (e : MatrixEntry) : List (Nat × Nat × Nat) :=
  match e.cores with
  | [c] => [(c, 0, e.cfg.m)]
  | [c, d] => [(c, 0, min 64 e.cfg.m), (d, 64, e.cfg.m - 64)]
  | _ => []

/-- Element (i, j) of a tile of a core. -/
def accElement (s : State) (core n i j : Nat) : Pair :=
  let v := (addrs (accPa core n i j) 8).map (memRead s.mem)
  pairOf (leValue (v.take 4)) (leValue (v.drop 4))

/-- An element of a tile written. -/
def writeAcc (s : State) (core n i j : Nat) (p : Pair) : State :=
  let pa := accPa core n i j
  let bs := leBytes 4 p.hi.toNat ++ leBytes 4 p.lo.toNat
  clearPoison { s with mem := memWrites s.mem pa bs } ((addrs pa 8).zip bs)

/-- The elements (i, j), i < rows, j < N, of a tile in row-major order. -/
def tileValues (s : State) (core n rows cols : Nat) : List Pair :=
  (List.range rows).flatMap fun i => (List.range cols).map fun j => accElement s core n i j

/-- Values in row-major order written to a tile. -/
def writeTile (s : State) (core n cols : Nat) (vs : List Pair) : State :=
  ((List.range vs.length).zip vs).foldl (fun s x => writeAcc s core n (x.1 / cols) (x.1 % cols) x.2) s

/-- Whether acc n of a core is marked redundant (R124). -/
def marked (s : State) (core n : Nat) : Bool := tgetD (core * 16 + n) 0 s.marks = 1

/-- The result of a command stored in one core's tile: the primary, the second copy if there is one, the mark, and the
identifier of the writer (R124). -/
def storeTile (s : State) (e : MatrixEntry) (core n : Nat) (vs : List Pair) (copy : Option (List Pair)) : State :=
  let s := writeTile s core n e.cfg.n vs
  let s := match copy with
    | some cs => writeTile s core (n + 8) e.cfg.n cs
    | none => s
  { s with
    marks := if copy.isSome then tset (core * 16 + n) 1 s.marks else tdel (core * 16 + n) s.marks
    writersOf := tset (core * 16 + n) e.ident s.writersOf }

/-- The first poisoned byte of a tile's elements (R125); an accumulator has no virtual address. -/
def tilePoison (s : State) (core n rows cols : Nat) : Option (Nat × Nat × Nat) :=
  if s.poison.isEmpty then none
  else (List.range rows).findSome? fun i => (poisonedAt s (accPa core n i 0) (8 * cols)).map fun g => (noVa, g, 4)

/-- Whether an MMERGE forms second copies on a core (R124). -/
def mergeCopies (s : State) (e : MatrixEntry) (core l r : Nat) : Bool := e.cfg.red && marked s core l = marked s core r

/-- The first poisoned byte that one half of a merge reads: of the primaries, and of the copies where it adds them (R124, R125). -/
def mergePoison (s : State) (e : MatrixEntry) (l r : Nat) (h : Nat × Nat × Nat) : Option (Nat × Nat × Nat) :=
  let copies := if mergeCopies s e h.1 l r && marked s h.1 l then [l + 8, r + 8] else []
  ([l, r] ++ copies).findSome? fun n => tilePoison s h.1 n h.2.2 e.cfg.n

/-- The first poisoned byte that a drain reads: of the tile, and of the copy it is compared with where it is marked (R124, R125). -/
def drainPoison (s : State) (e : MatrixEntry) (acc : Nat) (h : Nat × Nat × Nat) : Option (Nat × Nat × Nat) :=
  (if marked s h.1 acc then [acc, acc + 8] else [acc]).findSome? fun n => tilePoison s h.1 n h.2.2 e.cfg.n

/-- One half of a merge (R119, R124). -/
def mergeHalf (e : MatrixEntry) (d l r : Nat) (s : State) (h : Nat × Nat × Nat) : State :=
  let (core, _, rows) := h
  let add (x y : Nat) : List Pair :=
    List.zipWith pairAdd (tileValues s core x rows e.cfg.n) (tileValues s core y rows e.cfg.n)
  let copy := if !mergeCopies s e core l r then none
    else if marked s core l then some (add (l + 8) (r + 8)) else some (add l r)
  storeTile s e core d (add l r) copy

/-- The pair that a failed product leaves (R125). -/
def failedPair : Pair := ⟨0x7FC00000, 0⟩

/-! ## Steps of a running command (R118 to R120) -/

/-- The tile that a command's result goes to. -/
def MatrixKind.dest : MatrixKind → Nat
  | .mmul _ acc _ => acc
  | .mmerge d _ _ => d
  | .mdrain _ _ _ acc _ _ _ => acc

/-- A product or merge that cannot complete: its destination takes the failed pair, its mark clears, no further step runs. -/
def failCommand (s : State) (key : Nat) (e : MatrixEntry) (status : Nat) (bad : Nat × Nat × Nat) : State :=
  let s := e.halves.foldl (fun s h =>
    storeTile s e h.1 e.kind.dest (List.replicate (h.2.2 * e.cfg.n) failedPair) none) s
  let e := { e with steps := [], pins := [], carry := [], due := some s.clk, status := status, bad := some bad }
  { s with matrix := tset key e s.matrix }

/-- The blocks' values of one pass in row-major order: the canonical subtree over its 32 slots (R117, R118). -/
def blockValues (p : PassPins) : List (Option Pair) :=
  p.a.flatMap fun ra => p.b.map fun cb =>
    let leaves := List.zipWith (fun x y => some (pairLeaf (mulF32 x y))) ra cb
    canonicalReduce pairAdd (leaves ++ List.replicate (32 - leaves.length) none)

/-- A block's value combined through the carry slots (R118). -/
def carryIn : Nat → Nat → List (Nat × List (Option Pair)) → List (Option Pair) → List (Nat × List (Option Pair))
  | 0, _, carry, _ => carry
  | fuel + 1, level, carry, v =>
    match tget level carry with
    | some c => carryIn fuel (level + 1) (tdel level carry) (List.zipWith (nodeAdd pairAdd) c v)
    | none => tset level v carry

/-- The product of a command's last block stored in its tile (R118, R124). -/
def storeProduct (s : State) (e : MatrixEntry) (acc : Nat) (vs : List (Option Pair)) : State :=
  let pairs := vs.map rootValue
  e.halves.foldl (fun s h =>
    let mine := (pairs.drop (h.2.1 * e.cfg.n)).take (h.2.2 * e.cfg.n)
    storeTile s e h.1 acc mine (if e.cfg.red then some mine else none)) s

/-- The head step of a running command ends; a pass that finds both another format and poison ends as a format mismatch (R125).
[DESIGN CHOICE: log entry 110] -/
def endStep (s : State) (key : Nat) (e : MatrixEntry) : State :=
  match e.steps with
  | [] => s
  | .merge d l r :: rest =>
    match e.halves.findSome? (mergePoison s e l r) with
    | some bad => failCommand s key e 2 bad
    | none =>
      let s := e.halves.foldl (mergeHalf e d l r) s
      { s with matrix := tset key { e with steps := rest, due := none } s.matrix }
  | .pass acc _ present last :: rest =>
    match e.pins with
    | [] => s
    | p :: pins =>
      match p.mismatch, p.poisoned with
      | some bad, _ => failCommand s key e 1 bad
      | none, some bad => failCommand s key e 2 bad
      | none, none =>
        let v := if present = 0 then List.replicate (e.cfg.m * e.cfg.n) none else blockValues p
        let carry := carryIn 9 5 e.carry v
        match last with
        | none => { s with matrix := tset key { e with steps := rest, pins := pins, carry := carry, due := none } s.matrix }
        | some m =>
          let s := storeProduct s e acc ((tget m carry).getD [])
          { s with matrix := tset key { e with steps := rest, pins := pins, carry := [], due := none } s.matrix }

/-! ## Drains (R123, R124) -/

/-- The bytes of one drained element. -/
def drainBytes (fmt rnd : Nat) (sat : Bool) (rand : Nat) (p : Pair) : List Byte :=
  let mode := (Mode.ofCode rnd).getD .rn
  let narrow (f : FFmt) : Nat :=
    roundTo f (Exact.add mode (FFmt.f32.decode p.hi.toNat) (FFmt.f32.decode p.lo.toNat)) mode sat false rand
  match fmt with
  | 0 => leBytes 4 p.hi.toNat ++ leBytes 4 p.lo.toNat
  | 1 => leBytes 4 p.hi.toNat
  | 2 => leBytes 8 (pairToF64 p)
  | 3 => leBytes 2 (narrow .bf16)
  | 4 => leBytes 2 (narrow .f16)
  | 5 => leBytes 1 (narrow .e4m3)
  | _ => leBytes 1 (narrow .e5m2)

/-- The first element in which a marked tile differs from its copy: core, row i of that core's tile, j (R124).
[DESIGN CHOICE: log entry 110] -/
def redundantMismatch (s : State) (e : MatrixEntry) (n : Nat) : Option (Nat × Nat × Nat) :=
  e.halves.findSome? fun h =>
    if !marked s h.1 n then none
    else (List.range (h.2.2 * e.cfg.n)).findSome? fun x =>
      let i := x / e.cfg.n
      let j := x % e.cfg.n
      if accElement s h.1 n i j = accElement s h.1 (n + 8) i j then none else some (h.1, i, j)

/-- INFO of a redundant mismatch (R297). -/
def mismatchInfo (s : State) (core n i j : Nat) : Nat :=
  n + tgetD (core * 16 + n) 0 s.writersOf % 65536 * 2 ^ 4 + i * 2 ^ 20 + j * 2 ^ 27

/-- The units of bytes that a drain writes. -/
def drainPieces (s : State) (e : MatrixEntry) (fmt rnd : Nat) (sat : Bool) (acc tid addr draw : Nat) : List (Nat × Target × List Byte) :=
  e.halves.flatMap fun h => (List.range h.2.2).flatMap fun r =>
    let i := h.2.1 + r
    let row := (List.range e.cfg.n).flatMap fun j =>
      drainBytes fmt rnd sat (if rnd = 4 then rand32 e.launchId tid addr draw (i * 128 + j) else 0) (accElement s h.1 acc r j)
    cutUnits (capturedTarget s e.team e.a.pages) (row.length + 1) (drainRow e.a.va e.cfg i) row

/-- The key of the drain operation of a command: its order of posting is unique. -/
def drainKey (e : MatrixEntry) : Nat := e.age.2

/-- A granted drain reads its tile: its writes, or the status that keeps it from writing (R123 to R125). -/
def beginDrain (s : State) (key : Nat) (e : MatrixEntry) (fmt rnd : Nat) (sat : Bool) (acc tid addr draw : Nat) : State :=
  let put (e : MatrixEntry) : State := { s with matrix := tset key e s.matrix }
  let first := e.a.va
  let pa := (capturedTarget s e.team e.a.pages first).map Target.pa
  let len := e.cfg.m * e.cfg.n * drainWidth fmt
  match e.halves.findSome? (drainPoison s e acc) with
  | some bad => put { e with status := 2, bad := some bad }
  | none =>
    match redundantMismatch s e acc with
    | some (core, i, j) =>
      put { e with status := 3, bad := some (first, pa.getD (2 ^ 64 - 1), len), mismatch := some (mismatchInfo s core acc i j, core) }
    | none =>
      { s with ops := tset (drainKey e) (.drain ⟨e.entry, e.cores.headD 0, e.ctx, e.team,
          drainPieces s e fmt rnd sat acc tid addr draw⟩) s.ops }

/-! ## Grants and pins -/

/-- The clk that a command's head step takes once it can run: a pass needs its pins (R115, R119, R124). -/
def stepTime (s : State) (e : MatrixEntry) : Option Nat :=
  match e.steps with
  | [] => some (match e.kind with
    | .mdrain _ _ _ _ _ _ _ => ceilDiv (e.cfg.m * e.cfg.n) 128
    | _ => 0)
  | .merge _ l r :: _ => some (if e.cores.any fun c => mergeCopies s e c l r then 128 else 64)
  | .pass _ _ _ _ :: _ => (e.pins.head?).map (·.time)

/-- The passes among a command's steps. -/
def passesOf (e : MatrixEntry) : List (Nat × Nat) :=
  e.steps.filterMap fun x => match x with
    | .pass _ slot present _ => some (slot, present)
    | .merge _ _ _ => none

/-- One more pass of a running command is pinned, if it may be: at most the one running and the next (R116); its lines are read at once
(R320). [DESIGN CHOICE: log entry 122] -/
def pinNext (s : State) (key : Nat) : State :=
  match tget key s.matrix with
  | none => s
  | some e =>
    if e.state ≠ .running || 2 ≤ e.pins.length then s
    else match (passesOf e)[e.pins.length]? with
      | none => s
      | some (slot, present) =>
        let (p, fa, fb) := pinPass s e slot present
        if pinAllowed s p.lines e.pins.isEmpty then
          let s := p.lines.foldl (fun s l => noteActivation s (l * 256)) s
          { s with matrix := tset key { e with pins := e.pins ++ [p], fmtA := fa, fmtB := fb } s.matrix }
        else s

/-- A running command goes on: it pins, and its head step begins if it can. -/
def advanceEntry (s : State) (key : Nat) : State :=
  let s := pinNext (pinNext s key) key
  match tget key s.matrix with
  | none => s
  | some e =>
    if e.state ≠ .running || e.due.isSome then s
    else match stepTime s e with
      | some n => { s with matrix := tset key { e with due := some (s.clk + n) } s.matrix }
      | none => s

/-- Waiting commands of a quad that have become ready (R110). -/
def readyEntries (s : State) (quad : Nat) : State :=
  (quadEntries s quad).foldl (fun s e =>
    if mayReady s quad e.2 then { s with matrix := tmod e.1 (fun e => { e with state := .ready }) s.matrix } else s) s

/-- The arbiter's grant of one array, if it can make it: a core-pair command needs both (R111).
[DESIGN CHOICE: log entry 66] -/
def grantArray (quad : Nat) (s : State) (core : Nat) : State :=
  match oldestFor s quad core with
  | none => s
  | some (key, e) =>
    if e.cores.all fun c => !arrayHeld s c && (oldestFor s quad c).map (·.1) = some key then
      let e := { e with state := .running }
      let s := { s with matrix := tset key e s.matrix }
      match e.kind with
      | .mdrain fmt rnd sat acc tid addr draw => beginDrain s key e fmt rnd sat acc tid addr draw
      | _ => s
    else s

/-- The commands of a quad move on as far as they can without the passing of time. -/
def settleQuad (s : State) (quad : Nat) : State :=
  let s := readyEntries s quad
  let s := [quad * 4, quad * 4 + 1, quad * 4 + 2, quad * 4 + 3].foldl (grantArray quad) s
  (quadEntries s quad).foldl (fun s e => advanceEntry s e.1) s

/-! ## The words -/

/-- A command is posted for a group (R109, R107, R122). [DESIGN CHOICE: log entry 66] -/
def postMatrix (w : RWord) (ms : List Nat) (k : Nat) (t : Thread) (p : MatrixPlan) (s : State) (u : Issuing) : State :=
  let quad := quadOfCore u.core
  let free := (List.range 64).filter fun i => (tget (matrixKey quad i) s.matrix).isNone
  match choose s free with
  | (none, s) => s
  | (some entry, s) =>
    let seq := tgetD (matrixKey quad entry) 0 s.matrixSeq % 1023 + 1
    let (order, s) := s.fresh
    let counted := ms.map fun m => ⟨m, w.ctr⟩
    let pc := pairOfCore u.core
    let e : MatrixEntry := {
      entry := entry, seq := seq, ctx := t.ctx, team := t.team, launch := t.launch, poster := k, counted := counted
      tid := low 64 t.tid, launchId := launchIdOf s t
      core := u.core, cores := if p.pair then [pc.1, pc.2] else [u.core], age := (s.clk, order), state := .waiting, preds := p.preds
      kind := p.kind, cfg := p.cfg, a := p.a, b := p.b, steps := p.steps, fmtA := none, fmtB := none
      carry := [], pins := [], due := none, status := 0, bad := none, mismatch := none }
    let s := lockCommand s (lockCores s t) order t.ctx p.locks
    let s := { s with
      matrix := tset (matrixKey quad entry) e s.matrix
      matrixSeq := tset (matrixKey quad entry) seq s.matrixSeq }
    let s := s.onTeam t.team fun tm => { tm with useMask := e.tiles.foldl (fun m n => putBit m n true) tm.useMask }
    let s := counted.foldl raiseCtr s
    let s := ms.foldl (fun s m => writeReg s m w.dst.toNat (BitVec.ofNat 32 e.ident)) s
    let s := match p.kind with
      | .mdrain _ rnd _ _ _ _ _ => if rnd = 4 then advanceDraw s [k] else s
      | _ => s
    settleQuad s quad

/-- MMUL. -/
def execMmul (w : RWord) (s : State) : Host.Outcome State Fault Refusal :=
  commandWord (.mmul w) w.ctr (some w.dst) (checkMmul w) matrixRoom noHold (postMatrix w) s

/-- MMERGE. -/
def execMmerge (w : RWord) (s : State) : Host.Outcome State Fault Refusal :=
  commandWord (.mmerge w) w.ctr (some w.dst) (checkMmerge w) matrixRoom noHold (postMatrix w) s

/-- MDRAIN. -/
def execMdrain (w : RWord) (s : State) : Host.Outcome State Fault Refusal :=
  commandWord (.mdrain w) w.ctr (some w.dst) (checkMdrain w) matrixRoom noHold (postMatrix w) s

/-- MCFG: one selector of the group's record, from the elected thread (R226). -/
def execMcfg (w : RWord) (s : State) : Host.Outcome State Fault Refusal :=
  commandWord (.mcfg w) 7 none
    (fun s _ t => match (((groupOf s t).map (·.cfg)).getD MatrixCfg.reset).write w.c.toNat (src64 s t w.a) with
      | some c => .ok c
      | none => .error ⟨0x03, 0, 0⟩)
    (fun _ _ (_ : List MatrixCfg) => true) noHold
    (fun _ _ t c s _ => match t.group with
      | some g => s.onGroup g fun gr => { gr with cfg := c }
      | none => s) s

/-! ## Events -/

/-- MATRIX_PASS_END: the running step of a command ends once its time has passed (R115 to R120, R125).
[DESIGN CHOICE: log entry 3] -/
def execMatrixPassEnd (quad entry : Nat) (s : State) : Host.Outcome State Fault Refusal :=
  match tget (matrixKey quad entry) s.matrix with
  | none => .next s
  | some e =>
    if e.state = .running && !e.steps.isEmpty && e.due.any (· ≤ s.clk) then
      .next (settleQuad (endStep s (matrixKey quad entry) e) quad)
    else .next s

/-- The sectors of HBM that a drain has written whole are poisoned no more (R315). [DEDUCED: log entry 60] -/
def drainClears (s : State) (e : MatrixEntry) : State :=
  match e.kind with
  | .mdrain fmt _ _ _ _ _ _ =>
    if s.poison.isEmpty || e.status ≠ 0 || holdsStores s e.team || (replayOf s e.team).isSome then s
    else clearPoison s (((List.range e.cfg.m).flatMap fun i => addrs (drainRow e.a.va e.cfg i) (e.cfg.n * drainWidth fmt)).filterMap fun a =>
      match capturedTarget s e.team e.a.pages a with
      | some (.hbm pa) => some (pa, (0 : Byte))
      | _ => none)
  | _ => s

/-- MATRIX_COMMAND_RETIRE: a command with no step and no write left retires: locks, counters, its record, and the trap that its
poster is to take (R110, R124, R125, R316). -/
def execMatrixCommandRetire (quad entry : Nat) (s : State) : Host.Outcome State Fault Refusal :=
  match tget (matrixKey quad entry) s.matrix with
  | none => .next s
  | some e =>
    let writing := s.ops.any fun o => match o.2 with
      | .drain _ => o.1 = drainKey e
      | .store x => x.cmd = some (drainKey e)
      | _ => false
    if e.state = .running && e.steps.isEmpty && e.due.any (· ≤ s.clk) && !writing then
      let s := { s with matrix := tdel (matrixKey quad entry) s.matrix }
      let s := lowerCtrs (unlockCommand (drainClears s e) e.age.2 e.ctx) e.counted
      let (va, pa, len) := e.bad.getD (0, 0, 0)
      let s := if e.status = 0 then s else commandRecord s e.ctx e.status e.ident e.tid e.launchId va pa len
      let s := if e.status = 2 then engineConsume s e.poster va pa else s
      let s := match e.mismatch with
        | some (info, core) => deferTrap s e.poster ⟨0x40, 0, 0, 0, info, some core, []⟩
        | none => s
      .next (settleQuad s quad)
    else .next s

end Sys2Proof.Machine
end

