-- ==== Sys2Proof/Machine/Copy.lean ====
section
/-! DEFINITION. The copy engine: CPY, CPYT, engine writes and the retirement of a copy (spec/17_ops_engines.md R227, R228;
spec/05_execution.md R73; spec/07_memory.md R83). -/

namespace Sys2Proof.Machine

/-! ## Plans -/

/-- A copy as its checks leave it: rows as destination, source and length. -/
structure CopyPlan where
  rows : List (Nat × Nat × Nat)
  dst : List (Nat × Target)
  src : List (Nat × Target)
  locks : List (Nat × Nat × Bool)
  deriving DecidableEq, Repr

/-- What either side of a copy may lie in (R227). -/
def copyKind (t : Target) : Bool :=
  match t with
  | .control _ => false
  | _ => true

/-- Whether two lists of ranges share a byte. -/
def rangesMeet (xs ys : List (Nat × Nat)) : Bool :=
  xs.any fun x => ys.any fun y => x.1 < y.1 + y.2 && y.1 < x.1 + x.2

/-- The span of a list of ranges. -/
def spanOf (rs : List (Nat × Nat)) : Nat × Nat :=
  (rs.foldl (fun m r => min m r.1) (2 ^ 64), rs.foldl (fun m r => max m (r.1 + r.2)) 0)

/-- The first failing page of both sides in ascending address order, or the pages of each side (R219 step 2).
[DEDUCED: log entry 64] -/
def captureSides (s : State) (t : Thread) (ds ss : List (Nat × Nat)) :
    Except Bad (List (Nat × Target) × List (Nat × Target)) :=
  match capturePages s t engineTarget needWrite false copyKind (touchedPages s t.team ds),
      capturePages s t engineTarget needRead true copyKind (touchedPages s t.team ss) with
  | .ok d, .ok r => .ok (d, r)
  | .error a, .error b => .error (if b.faddr < a.faddr then b else a)
  | .error a, _ => .error a
  | _, .error b => .error b

/-- A copy with its rows: overlap, then pages, then the plan. `info` names the row of a failing address. -/
def planCopy (s : State) (t : Thread) (rows : List (Nat × Nat × Nat)) (info : Nat → Nat) : Except Bad CopyPlan :=
  let ds := rows.map fun r => (r.1, r.2.2)
  let ss := rows.map fun r => (r.2.1, r.2.2)
  match captureSides s t ds ss with
  | .error b => .error { b with info := if b.cause = 0x03 then 0 else info b.faddr }
  | .ok (d, r) =>
    let (dl, dh) := spanOf ds
    let (sl, sh) := spanOf ss
    .ok ⟨rows, d, r, lockRange sl sh false ++ lockRange dl dh true⟩

/-- The checks of CPY (R219, R227). [DEDUCED: log entry 64] -/
def checkCpy (w : RWord) (s : State) (_ : Nat) (t : Thread) : Except Bad CopyPlan :=
  let (d, a) := src128 s t w.a
  let n := src32 s t w.b
  if rangesMeet [(d, n)] [(a, n)] && n ≠ 0 then .error ⟨0x03, 0, 0⟩
  else
    match ([d, a].filter (· % 4 ≠ 0)) with
    | x :: xs => .error ⟨0x12, xs.foldl min x, 0⟩
    | [] =>
      if n % 4 ≠ 0 then .error ⟨0x12, min d a, 0⟩
      else if n = 0 then .ok ⟨[], [], [], []⟩
      else planCopy s t [(d, a, n)] fun _ => 0

/-- The row of a tile copy that holds an address. -/
def rowAt (rows : List (Nat × Nat × Nat)) (a : Nat) : Nat :=
  rows.findIdx fun r => (r.1 ≤ a && a < r.1 + r.2.2) || (r.2.1 ≤ a && a < r.2.1 + r.2.2)

/-- The checks of CPYT (R194, R219, R227). [DEDUCED: log entry 64] -/
def checkCpyt (w : RWord) (s : State) (_ : Nat) (t : Thread) : Except Bad CopyPlan :=
  let (d, a) := src128 s t w.a
  let (shape, dw) := src128 s t w.b
  match TileShape.decode shape with
  | none => .error ⟨0x03, 0, 0⟩
  | some sh =>
    if dw / 2 ^ 32 ≠ 0 then .error ⟨0x03, 0, 0⟩
    else
      let rows := (List.range sh.rows).map fun (k : Nat) => (wrap 64 ((d : Int) + (k : Int) * signed 32 dw), sh.row a k, sh.rowBytes)
      if rangesMeet (rows.map fun r => (r.1, r.2.2)) (rows.map fun r => (r.2.1, r.2.2)) then .error ⟨0x03, 0, 0⟩
      else
        let bad := ((List.range sh.rows).zip rows).flatMap fun r =>
          ([r.2.1, r.2.2.1].filter (· % sh.es ≠ 0)).map fun a => (r.1, a)
        match bad with
        | x :: xs =>
          let y := xs.foldl (fun m e => if e.2 < m.2 then e else m) x
          .error ⟨0x12, y.2, rowInfo y.1⟩
        | [] => planCopy s t rows fun a => rowInfo (rowAt rows a)

/-! ## Posting -/

/-- Copies and fabric commands in a core's queue (R219). -/
def copyQueue (s : State) (core : Nat) : Nat :=
  (s.ops.filter fun e => match e.2 with
    | .copy o => o.core = core
    | .fabric o => o.core = core
    | _ => false).length

/-- Room in the copy queue and the range-lock tables of the team's cores (R219 step 3). -/
def engineRoom (s : State) (u : Issuing) (posts locks : Nat) : Bool :=
  let cores := match (u.members.head?).bind fun k => tget k s.threads with
    | some t => lockCores s t
    | none => [u.core]
  posts = 0 || (copyQueue s u.core + posts ≤ 64 && cores.all fun c => locks ≤ freeLocks s c)

/-- The register rows that a copy of a context writes, which are those of the context's own groups: core, bay, slot, row (R73). -/
def copyRows (s : State) (ctx : Nat) (p : CopyPlan) : List (Nat × Nat × Nat × Nat) :=
  let pages := p.dst.filter fun x => match x.2 with
    | .onchip _ => true
    | _ => false
  (p.rows.flatMap fun r => (List.range (ceilDiv (r.1 % 4 + r.2.2) 4)).filterMap fun i =>
    match capturedTarget s 0 pages (max r.1 (r.1 / 4 * 4 + 4 * i)) with
    | some (.onchip pa) => match regionOf s pa with
      | (core, .register bay slot row _) =>
        if (rowOwner s core bay slot row).any fun x => (tget x.1 s.groups).map (·.ctx) = some ctx then some (core, bay, slot, row) else none
      | _ => none
    | _ => none).eraseDups

/-- The cores whose register rows a copy writes: their range-lock tables hold its write lock (R73). -/
def rowCores (s : State) (ctx : Nat) (p : CopyPlan) : List Nat := ((copyRows s ctx p).map (·.1)).eraseDups

/-- Room for copies; one of length 0 needs none. -/
def copyRoom (s : State) (u : Issuing) (ps : List CopyPlan) : Bool :=
  let ctx := (((u.members.head?).bind fun k => tget k s.threads).map (·.ctx)).getD 64
  engineRoom s u (ps.filter (!·.rows.isEmpty)).length (ps.foldl (fun n p => n + p.locks.length) 0)
    && ((ps.flatMap (rowCores s ctx)).eraseDups).all fun c => (ps.filter fun p => (rowCores s ctx p).contains c).length ≤ freeLocks s c

/-- Whether any page of a copy is a peer page or of the on-chip map (R313). -/
def copyEscapes (p : CopyPlan) : Bool :=
  (p.dst ++ p.src).any fun x => match x.2 with
    | .peer _ _ => true
    | .onchip _ => true
    | _ => false

/-- The barrier that a copy arrives at (R227). -/
def copyBarrier (w : RWord) : Option Nat := if bit w.c.toNat 5 then some (bits w.c.toNat 0 5) else none

/-- A copy is posted for a group; one of length 0 only adds its 0 bytes. -/
def postCopy (w : RWord) (ms : List Nat) (k : Nat) (t : Thread) (p : CopyPlan) (s : State) (u : Issuing) : State :=
  if p.rows.isEmpty then
    match copyBarrier w with
    | some b => arriveBytes s t.team b 0
    | none => s
  else
    let s := if copyEscapes p then escape s k else s
    let counted : List Counted := ms.map fun m => ⟨m, w.ctr⟩
    let s := counted.foldl raiseCtr s
    let key := s.nextKey
    let rows : List (Nat × Nat × Nat × Nat) := copyRows s t.ctx p
    let cores := lockCores s t
    let s := lockCommand s cores key t.ctx p.locks
    let s := lockCommand s ((rowCores s t.ctx p).filter fun c => !cores.contains c) key t.ctx (p.locks.filter (·.2.2))
    let s := { s with rowLocks := rows.map (fun (r : Nat × Nat × Nat × Nat) => (r.1, r.2.1, r.2.2.1, r.2.2.2, key)) ++ s.rowLocks }
    s.beginOp (.copy {
      cs := counted, poster := k, core := u.core, ctx := t.ctx, team := t.team, tid := low 64 t.tid
      launchId := launchIdOf s t, rows := p.rows, pieces := p.rows, failed := [], dst := p.dst, src := p.src
      total := p.rows.foldl (fun (n : Nat) (r : Nat × Nat × Nat) => n + r.2.2) 0, barrier := copyBarrier w, status := 0, bad := none })

/-- CPY. -/
def execCpy (w : RWord) (s : State) : Host.Outcome State Fault Refusal :=
  commandWord (.cpy w) w.ctr none (checkCpy w) copyRoom noHold (postCopy w) s

/-- CPYT. -/
def execCpyt (w : RWord) (s : State) : Host.Outcome State Fault Refusal :=
  commandWord (.cpyt w) w.ctr none (checkCpyt w) copyRoom noHold (postCopy w) s

/-! ## Engine writes (R83, R228) -/

/-- Bytes that an engine reads: local HBM as its homes hold it, on-chip bytes, free values from peer pages.
[DESIGN CHOICE: log entry 50] -/
def engineRead (s : State) (tgt : Target) (n : Nat) : List Byte × State :=
  match tgt with
  | .hbm pa => ((addrs pa n).map (homeByte s), noteActivations s tgt n)
  | tgt => targetBytes s 0 0 false tgt n

/-- A local physical address outside every scratchpad aperture. -/
def Target.isLocal : Target → Bool
  | .hbm _ => true
  | .onchip _ => true
  | _ => false

/-- Whether a byte of a target falls under R21 for an engine of a context. [DEDUCED: log entry 61] -/
def engineUnassigned (s : State) (ctx : Nat) (write : Bool) (tgt : Target) (n : Nat) : Bool :=
  match tgt with
  | .onchip pa => (addrs pa n).any fun a => match regionOf s a with
    | (_, .unassigned) => true
    | (_, .control _) => true
    | (core, .accumulator _ _) => foreignCore s core ctx
    | (core, .register bay slot row _) => write && (match rowOwner s core bay slot row with
      | some (g, _, _) => (tget g s.groups).map (·.ctx) ≠ some ctx
      | none => true)
    | _ => false
  | .hbm pa => hbmBytes < pa + n || inCarveOut s pa
  | _ => false

/-- An engine's access to a busy accumulator waits (R122). -/
def engineBusy (s : State) (tgt : Target) : Bool :=
  match tgt with
  | .onchip pa => match regionOf s pa with
    | (core, .accumulator n _) => tileBusy s core n
    | _ => false
  | _ => false

/-- Whether a byte of a side of a copy shares its aligned span of `size` bytes with one for which a test of a target holds.
[DEDUCED: log entry 62] -/
def spanHas (s : State) (o : CopyOp) (pages : List (Nat × Target)) (ranges : List (Nat × Nat)) (size va : Nat)
    (test : Option Target → Nat → Bool) : Bool :=
  ranges.any fun r =>
    let lo := max (va / size * size) r.1
    let hi := min (va / size * size + size) (r.1 + r.2)
    lo < hi && test (capturedTarget s o.team pages lo) (hi - lo)

/-- What keeps a byte of a copy from being written, at its addresses in the destination and in the source: its span of 256 bytes on a
side falls under R21 somewhere, or its source sector of 64 bytes is poisoned somewhere; with the status and the virtual and physical
address (R228). [DEDUCED: log entry 62] -/
def byteFault (s : State) (o : CopyOp) (d a : Nat) : Option (Nat × Nat × Nat) :=
  let ds := o.rows.map fun r => (r.1, r.2.2)
  let ss := o.rows.map fun r => (r.2.1, r.2.2)
  let dt := capturedTarget s o.team o.dst d
  let st := capturedTarget s o.team o.src a
  let fails (write : Bool) (t : Option Target) (n : Nat) : Bool := match t with
    | some t => engineUnassigned s o.ctx write t n
    | none => true
  let pa (t : Option Target) : Nat := (t.map Target.pa).getD (2 ^ 64 - 1)
  let isHere (t : Option Target) : Bool := (t.map Target.isLocal).getD true
  if isHere dt && spanHas s o o.dst ds 256 d (fails true) then some (4, d, pa dt)
  else if isHere st && spanHas s o o.src ss 256 a (fails false) then some (4, a, pa st)
  else if s.poison.isEmpty then none
  else
    let bad (t : Option Target) (n : Nat) : Bool := t.any fun t => t.space = 0 && (poisonedAt s t.pa n).isSome
    if spanHas s o o.src ss 64 a bad then
      let va := (((addrs (a / 64 * 64) 64).filter fun x => ss.any fun r => r.1 ≤ x && x < r.1 + r.2).find? fun x =>
        bad (capturedTarget s o.team o.src x) 1).getD a
      some (2, va, pa (capturedTarget s o.team o.src va))
    else none

/-- The granules of scratchpad that a write has completed: those that no byte still to be written lies in (R83). -/
def doneGranules (written still : List Nat) : List Nat :=
  written.filter fun a => !(still.any fun b => b / 16 = a / 16)

/-- The scratchpad bytes that pieces of a copy will still write. -/
def stillWritten (s : State) (o : CopyOp) (g : Nat) : List Nat :=
  o.pieces.flatMap fun p => (List.range (p.2.2)).filterMap fun i =>
    (capturedTarget s o.team o.dst (p.1 + i)).bind fun t => if t.pa / 16 = g / 16 then some t.pa else none

/-- Bytes written by an engine, and the granules they complete. -/
def landEngine (s : State) (core ctx team cmd va : Nat) (tgt : Target) (bs : List Byte) (still : List Nat) : State :=
  let s := engineStore s core ctx team cmd va tgt bs
  match tgt with
  | .hbm _ => s
  | tgt => fillGranules s (doneGranules (addrs tgt.pa bs.length) still)

/-- A copy notes bytes that it does not write: its record names the lowest address and counts them all. A copy that has consumed
poison retires as uncorrectable data, whatever else failed (R228, R316). [DEDUCED: log entry 62] -/
def noteBad (o : CopyOp) (status va pa n : Nat) : CopyOp :=
  match o.bad with
  | none => { o with status := status, bad := some (va, pa, n) }
  | some (v, p, m) =>
    if o.status = 4 && status = 2 then { o with status := 2, bad := some (va, pa, n) }
    else if o.status = 2 && status = 4 then o
    else if va < v then { o with bad := some (va, pa, m + n) }
    else { o with bad := some (v, p, m + n) }

/-- The pieces of one translation that source bytes fall into (R76, R78, R228). -/
def sourcePieces (s : State) (o : CopyOp) : Nat → Nat → Nat → List (Target × Nat)
  | 0, _, _ => []
  | fuel + 1, a, n =>
    if n = 0 then []
    else
      let k := min n (pieceRoom s o.team a)
      match capturedTarget s o.team o.src a with
      | some t => (t, k) :: sourcePieces s o fuel (a + k) (n - k)
      | none => sourcePieces s o fuel (a + k) (n - k)

/-- The bytes of pieces as an engine reads them. -/
def readSource (s : State) (ps : List (Target × Nat)) : List Byte × State :=
  ps.foldl (fun acc p => let (bs, s) := engineRead acc.2 p.1 p.2; (acc.1 ++ bs, s)) ([], s)

/-- The granule that bytes of a copy's destination lie in is complete: no byte that the copy writes there is still to be written, and it
has written some (R83). -/
def fillCopied (s : State) (id d : Nat) (dt : Target) : State :=
  match tget id s.ops, dt with
  | some (.copy _), .hbm _ => s
  | some (.copy o), dt =>
    let wrote := (List.range 16).any fun j =>
      let v := d + j - dt.pa % 16
      (o.rows.any fun r => r.1 ≤ v && v < r.1 + r.2.2) && !o.failed.contains v
    if wrote then fillGranules s (doneGranules [dt.pa] (stillWritten s o dt.pa)) else s
  | _, _ => s

/-- One unit of a copy, an aligned piece of up to 4 bytes of the destination, is read and written, bytes that fail apart; it may have to
wait. [DESIGN CHOICE: log entry 63] -/
def copyUnit (s : State) (id : Nat) (o : CopyOp) (d a n : Nat) : State :=
  match capturedTarget s o.team o.dst d with
  | none => s.onOp id fun _ => .copy { noteBad o 4 d (2 ^ 64 - 1) n with failed := o.failed ++ addrs d n }
  | some dt =>
    let src := sourcePieces s o (n + 1) a n
    if writeWaits s dt n || engineBusy s dt || src.any fun p => lineHeld s p.1 p.2 || engineBusy s p.1 || banksHeld s p.1 p.2 then s
    else
      let bad := (List.range n).filterMap fun i => (byteFault s o (d + i) (a + i)).map fun f => (i, f)
      let o := bad.foldl (fun o (b : Nat × Nat × Nat × Nat) =>
        { noteBad o b.2.1 b.2.2.1 b.2.2.2 1 with failed := o.failed ++ [d + b.1] }) o
      if bad.isEmpty then
        let (bs, s) := readSource s src
        fillCopied (engineStore (s.onOp id fun _ => .copy o) o.core o.ctx o.team id d dt bs) id d dt
      else
        fillCopied (((List.range n).filter fun i => !(bad.any fun b => b.1 = i)).foldl (fun s i =>
          let (bs, s) := readSource s (sourcePieces s o 1 (a + i) 1)
          engineStore s o.core o.ctx o.team id (d + i) (dt.plus i) bs) (s.onOp id fun _ => .copy o)) id d dt

/-- A copy performs one of its units, by a free choice. [DESIGN CHOICE: log entry 63] -/
def serveCopy (s : State) (id : Nat) (o : CopyOp) : State :=
  let (p, s) := choose s (List.range o.pieces.length)
  match p.bind fun p => (o.pieces[p]?).map fun x => (p, x) with
  | none => s
  | some (p, d, a, len) =>
    let (x, s) := s.draw
    let at_ := x.toNat % len
    let lo := max d ((d + at_) / 4 * 4)
    let hi := min (d + len) ((d + at_) / 4 * 4 + 4)
    let rest := [(d, a, lo - d), (hi, a + (hi - d), d + len - hi)].filter fun y => y.2.2 ≠ 0
    copyUnit s id { o with pieces := o.pieces.take p ++ rest ++ o.pieces.drop (p + 1) } lo (a + (lo - d)) (hi - lo)

/-- A drain performs one of its units, by a free choice. [DESIGN CHOICE: log entry 63] -/
def serveDrain (s : State) (id : Nat) (o : DrainOp) : State :=
  let (p, s) := choose s (List.range o.pieces.length)
  match p.bind fun p => (o.pieces[p]?).map fun x => (p, x) with
  | none => s
  | some (p, va, tgt, bs) =>
    if writeWaits s tgt bs.length then s
    else
      let rest := o.pieces.take p ++ o.pieces.drop (p + 1)
      let still := rest.flatMap fun x => if x.2.1.pa / 16 = tgt.pa / 16 then addrs x.2.1.pa x.2.2.length else []
      let s := if rest.isEmpty then s.endOp id else s.onOp id fun _ => .drain { o with pieces := rest }
      landEngine s o.core o.ctx o.team id va tgt bs still

/-- ENGINE_WRITE: an engine write of a copy or a drain is performed at its target. -/
def execEngineWrite (op : Nat) (s : State) : Host.Outcome State Fault Refusal :=
  match tget op s.ops with
  | some (.copy o) => .next (serveCopy s op o)
  | some (.drain o) => .next (serveDrain s op o)
  | _ => .next s

/-- The sectors of HBM that a copy has written whole are poisoned no more (R315). [DEDUCED: log entry 60] -/
def copyClears (s : State) (o : CopyOp) : State :=
  if s.poison.isEmpty || holdsStores s o.team || (replayOf s o.team).isSome then s
  else clearPoison s ((o.rows.flatMap fun r => (addrs r.1 r.2.2).filter fun a => !o.failed.contains a).filterMap fun a =>
    match capturedTarget s o.team o.dst a with
    | some (.hbm pa) => some (pa, (0 : Byte))
    | _ => none)

/-- COPY_RETIRE: every write of the copy has been performed: locks drop, counters fall, the record of its status is written, the
barrier receives its bytes, and groups that drained for its row locks retire (R64, R73, R228). [DEDUCED: log entry 62] -/
def execCopyRetire (op : Nat) (s : State) : Host.Outcome State Fault Refusal :=
  match tget op s.ops with
  | some (.copy o) =>
    let held := s.ops.any fun e => match e.2 with
      | .store x => x.cmd = some op
      | _ => false
    if !o.pieces.isEmpty || held then .next s
    else
      let s := copyClears (unlockCommand (s.endOp op) op o.ctx) o
      let s := { s with rowLocks := s.rowLocks.filter fun r => r.2.2.2.2 ≠ op }
      let s := lowerCtrs s o.cs
      let (va, pa, len) := o.bad.getD (0, 0, 0)
      let s := if o.status = 0 then s else commandRecord s o.ctx o.status 0 o.tid o.launchId va pa len
      let s := match o.barrier with
        | some b => arriveBytes s o.team b o.total
        | none => s
      let s := if o.status = 2 then engineConsume s o.poster va pa else s
      .next ((s.groups.filter fun e => e.2.state = .draining).foldl (fun s e => groupCheck s e.1) s)
  | _ => .next s

end Sys2Proof.Machine
end

