-- ==== Sys2Proof/Machine/Pairing.lean ====
section
/-! DEFINITION. Pairing: places, refill and spill, the delivery of roots, channel steps, seals, and the tests of CTB
(spec/19_reductions_fabric.md R245 to R253, R259 to R263; spec/15_ops_memory.md R201, R202). -/

namespace Sys2Proof.Machine

/-! ## Tags -/

/-- Level and index of a tag. -/
def Tag.level : Tag → Nat
  | .handle _ _ l _ => l
  | .chan _ _ _ _ l _ => l
def Tag.index : Tag → Nat
  | .handle _ _ _ i => i
  | .chan _ _ _ _ _ i => i

/-- The tag of another node of the same tree. -/
def Tag.node (t : Tag) (level index : Nat) : Tag :=
  match t with
  | .handle c h _ _ => .handle c h level index
  | .chan c h step unit _ _ => .chan c h step unit level index

/-- The tags of a node's sibling and parent (R40, R41). -/
def Tag.sibling (t : Tag) : Tag := t.node t.level (t.index ^^^ 1)
def Tag.parent (t : Tag) : Tag := t.node (t.level + 1) (t.index / 2)

/-- Whether a node covers no slot below n: it is ABSENT of itself (R40). [DEDUCED: log entry 71] -/
def Tag.beyond (t : Tag) (n : Nat) : Bool := n ≤ t.index * 2 ^ t.level

/-- The running state of a channel, at its start. -/
def chanRun (s : State) (ctx ch : Nat) : ChanRun :=
  tgetD (channelKey ctx ch) ⟨0, [], none, [], none, [], [], [], [], [], []⟩ s.channels

/-- A channel's running state changed. -/
def onRun (s : State) (ctx ch : Nat) (f : ChanRun → ChanRun) : State :=
  { s with channels := tset (channelKey ctx ch) (f (chanRun s ctx ch)) s.channels }

/-! ## Values (R39, R40, R232) -/

/-- One element of a channel unit: present leaves combined, with their count. -/
def elementAdd (pairs : Bool) (op : Nat) (a b : Option (Pair × Nat)) : Option (Pair × Nat) :=
  nodeAdd (fun x y =>
    let v := match op with
      | 1 => pairOf (orderMax .f32 x.1.hi.toNat y.1.hi.toNat) 0
      | 2 => pairOf (orderMin .f32 x.1.hi.toNat y.1.hi.toNat) 0
      | _ => if pairs then pairAdd x.1 y.1 else plainAdd x.1 y.1
    (v, x.2 + y.2)) a b

/-- The rescaling factor of one child of a triple: 1.0, or EXP2((m' - m) × log2 e) (R232). -/
def tripleScale (own m : Nat) : Nat :=
  if own = m then 0x3F800000 else special .exp2 false (mulF32 (subF32 own m) 0x3FB8AA3B)

/-- triple_add (R232). -/
def tripleAdd (pm ps : Word32) (po : List Word32) (qm qs : Word32) (qo : List Word32) : UnitVal :=
  let m := orderMax .f32 pm.toNat qm.toNat
  let a := tripleScale pm.toNat m
  let b := tripleScale qm.toNat m
  let mix (x y : Word32) : Word32 := BitVec.ofNat 32 (addF32 (mulF32 x.toNat a) (mulF32 y.toNat b))
  .triple (BitVec.ofNat 32 m) (mix ps qs) (List.zipWith mix po qo)

/-- node_add of two channel units (R40, R232, R233). -/
def unitAdd (pairs : Bool) (op : Nat) (a b : UnitVal) : UnitVal :=
  match a, b with
  | .absent, b => b
  | a, .absent => a
  | .elems xs, .elems ys => .elems (List.zipWith (elementAdd pairs op) xs ys)
  | .triple pm ps po, .triple qm qs qo => tripleAdd pm ps po qm qs qo
  | a, _ => a

/-- No operation: what an ABSENT node that nobody sent carries. -/
def noOp : Nat := 15

/-- The operation of a parent: its children's; FSPARSE (4) gives way to a FRED. [DEDUCED: log entry 75] -/
def opJoin (a b : Nat) : Nat := if a = noOp then b else if b = noOp then a else min a b

/-- node_add of a handle's nodes (R40). -/
def nodeJoin (pairs : Bool) (a b : NodeVal) : NodeVal :=
  match a, b with
  | .absent, b => b
  | a, .absent => a
  | .val p, .val q => .val (if pairs then pairAdd p q else plainAdd p q)

/-- The value of a parent from its left and right child. [DEDUCED: log entry 71; DEDUCED: log entry 74] -/
def joinVals (a b : EntryVal) : EntryVal :=
  match a, b with
  | .node p x, .node q y => .node (p || q) (nodeJoin (p || q) x y)
  | .unit o p v x, .unit n q w y => .unit (opJoin o n) (p || q) (v ++ w) (unitAdd (p || q) (opJoin o n) x y)
  | _, _ => a

/-- The ABSENT value of a tag's kind. -/
def absentVal (tag : Tag) : EntryVal :=
  match tag with
  | .handle _ _ _ _ => .node false .absent
  | .chan _ _ _ _ _ _ => .unit noOp false [] .absent

/-- The operation that a value carries. -/
def EntryVal.op (v : EntryVal) : Nat :=
  match v with
  | .unit op _ _ _ => op
  | .node _ _ => noOp

/-- Whether a value is ABSENT. -/
def EntryVal.isAbsent : EntryVal → Bool
  | .node _ .absent => true
  | .unit _ _ _ .absent => true
  | _ => false

/-- The value of a node from the leaves below it, as pairing forms it (R40). -/
def unitOfLeaves (pairs : Bool) (op : Nat) (leaves : List (Nat × UnitVal)) : Nat → Nat → UnitVal
  | 0, i => ((leaves.find? fun x => x.1 = i).map (·.2)).getD .absent
  | l + 1, i => unitAdd pairs op (unitOfLeaves pairs op leaves l (2 * i)) (unitOfLeaves pairs op leaves l (2 * i + 1))

/-- A channel node with the leaves of contributors outside a membership MAP made ABSENT (R262). -/
def EntryVal.within (m level index : Nat) (v : EntryVal) : EntryVal :=
  match v with
  | .unit op pairs leaves x =>
    let mine := leaves.filter fun y => bit m y.1
    if mine.length = leaves.length then v
    else .unit op pairs mine (match x with
      | .absent => .absent
      | _ => unitOfLeaves pairs op mine level index)
  | v => v

/-- levels and leaf count of a tag's tree, where this package has its entry. -/
def treeOf (s : State) (tag : Tag) : Option (Nat × Nat) :=
  match tag with
  | .handle ctx h _ _ => (tget (handleKey ctx h) s.handles).map fun hd => (hd.levels, hd.nm1 + 1)
  | .chan ctx ch _ _ _ _ => (readChannel s ctx ch).bind fun c => if c.1.isOpen then some (c.1.levels, c.1.nm1 + 1) else none

/-! ## Handles: state, directory, delivery (R246, R247, R251, R253) -/

/-- A delivery fault (R253, R261). -/
def deliveryFault (s : State) (ctx launch va len : Nat) : State :=
  commandRecord (walksNoted s ctx va len) ctx 7 0 0 launch va (2 ^ 64 - 1) len

/-- The handle is complete on this package: its locks drop (R253). -/
def completeHandle (s : State) (ctx h : Nat) : State :=
  dropContextLocks (dropContextLocks (setHandleState s ctx h 3) ctx (destOwner h)) ctx (sumpOwner h)

/-- ROOT_DELIVER: DEST, STATE, DONE in order; a write that fails is recorded (R253). -/
def deliverRoot (s : State) (ctx h : Nat) (hd : Handle) (v : NodeVal) : State :=
  let p : Pair := match v with
    | .val p => p
    | .absent => ⟨0, 0⟩
  let bs := match hd.dfmt with
    | 0 => leBytes 4 p.hi.toNat
    | 1 => leBytes 4 p.hi.toNat ++ leBytes 4 p.lo.toNat
    | _ => leBytes 8 (pairToF64 p)
  let launch := ((tget hd.launch s.launches).map (·.id)).getD 0
  let s := (deliverWrite s ctx hd.dest bs).getD (deliveryFault s ctx launch hd.dest bs.length)
  let s := completeHandle s ctx h
  (deliverAdd s ctx hd.doneVa 1).getD (deliveryFault s ctx launch hd.doneVa 8)

/-- The spill directory's bit of a slot (R246, R251). -/
def directoryBit (s : State) (ctx : Nat) (hd : Handle) (slot : Nat) : Bool :=
  (ctxValue s ctx (directoryVa hd + slot / 8) 1).any fun v => bit v (slot % 8)

/-- The directory bit of a slot set or cleared. -/
def setDirectory (s : State) (ctx : Nat) (hd : Handle) (slot : Nat) (b : Bool) : State :=
  let va := directoryVa hd + slot / 8
  match ctxValue s ctx va 1 with
  | some v => ctxStore s ctx va [BitVec.ofNat 8 (putBit v (slot % 8) b)]
  | none => s

/-- The 16 bytes of a slot (R247). -/
def slotBytes (v : NodeVal) : List Byte :=
  match v with
  | .absent => leBytes 8 0 ++ leBytes 8 1
  | .val p => leBytes 4 p.hi.toNat ++ leBytes 4 p.lo.toNat ++ leBytes 8 0

/-- A slot's value as the sump holds it. -/
def readSlot (s : State) (ctx : Nat) (hd : Handle) (slot : Nat) : NodeVal :=
  match ctxRead s ctx (hd.sump + 16 * slot) 16 with
  | some bs => if bit (leValue (bs.drop 8)) 0 then .absent else .val (pairOf (leValue (bs.take 4)) (leValue ((bs.drop 4).take 4)))
  | none => .absent

/-! ## Channel steps (R259 to R262) -/

/-- The address of membership record of a step (R262). -/
def memberVa (c : Channel) (step : Nat) : Nat := low 64 (c.memb + step % 2 ^ c.mlog * (16 + ceilDiv (c.nm1 + 1) 128 * 16))

/-- The quotient of an exact value by a count (R261, MEAN). -/
def exactOver (x : Exact) (c : Nat) : Exact :=
  match x with
  | .fin neg num den => .fin neg num (den * c)
  | x => x

/-- The bytes of one element of a root; none where it is left unchanged (R232, R233, R261). [DEDUCED: log entry 75] -/
def rootElement (c : Channel) (op : Nat) (x : Option (Pair × Nat)) : Option (List Byte) :=
  match x with
  | some (p, n) =>
    let p := if c.mean && (op = 0 || op = 4) then
        pairOf (roundTo .f32 (exactOver (Exact.add .rn (FFmt.f32.decode p.hi.toNat) (FFmt.f32.decode p.lo.toNat)) n) .rn false false 0) 0
      else p
    some (if c.fmt = 2 then leBytes 4 p.hi.toNat ++ leBytes 4 p.lo.toNat else leBytes 4 p.hi.toNat)
  | none =>
    match op with
    | 1 => some (leBytes 4 0xFF800000)
    | 2 => some (leBytes 4 0x7F800000)
    | 4 => if c.mean then some (leBytes (if c.fmt = 2 then 8 else 4) 0) else none
    | _ => some (leBytes (if c.fmt = 2 then 8 else 4) 0)

/-- The elements of a unit below NELEM. -/
def unitLength (c : Channel) (unit : Nat) : Nat := if c.fmt = 3 then 1 else min 16 (c.nelem - 16 * unit)

/-- The writes of a unit's root: offset in the buffer and bytes. -/
def rootWrites (c : Channel) (unit op : Nat) (v : UnitVal) : List (Nat × List Byte) :=
  if c.fmt = 3 then
    let bs := match v with
      | .triple m x o => leBytes 4 m.toNat ++ leBytes 4 x.toNat ++ o.flatMap fun y => leBytes 4 y.toNat
      | _ => leBytes 4 0xFF800000 ++ List.replicate (4 + 4 * c.d) 0
    [(unit * (8 + 4 * c.d), bs)]
  else
    let w := if c.fmt = 2 then 8 else 4
    (List.range (unitLength c unit)).filterMap fun i =>
      let x := match v with
        | .elems xs => (xs[i]?).join
        | _ => none
      (rootElement c op x).map fun bs => ((16 * unit + i) * w, bs)

/-- Writes into a channel's buffer; a unit whose write fails is recorded. -/
def writeRoots (s : State) (ctx : Nat) (c : Channel) (ws : List (Nat × List Byte)) : State :=
  ws.foldl (fun s w => (deliverWrite s ctx (low 64 (c.buf + w.1)) w.2).getD (deliveryFault s ctx 0 (low 64 (c.buf + w.1)) w.2.length)) s

/-- STEPS of the channel's table entry and its FLAG raised by one (R261). -/
def raiseStep (s : State) (ctx ch : Nat) (c : Channel) : State :=
  let ctab := ((tget ctx s.contexts).map (·.desc.ctab)).getD 0
  let s := (ctxAdd s ctx (ctab + 128 * ch + 0x40) 1).getD s
  (deliverAdd s ctx c.flag 1).getD (deliveryFault s ctx 0 c.flag 8)

/-- A KIND 3 record: 1 duplicate, 2 late, 3 membership mismatch (R234, R262, R263, R301). [DEDUCED: log entry 72] -/
def channelRecord (s : State) (ctx ch step contributor what : Nat) : State :=
  errorRecord s ctx 3 (if what = 1 then 0x30 else 0) 0 (leBytes 8 ch ++ leBytes 8 step ++ leBytes 8 contributor ++ leBytes 8 what)

/-- The membership record of a completed step; `replayed` where its membership was taken from a record (R262). -/
def memberRecord (c : Channel) (step : Nat) (who : List Nat) (replayed late : Bool) : List Byte :=
  let map := (List.range (c.nm1 + 1)).foldl (fun m i => if who.contains i then m + 2 ^ i else m) 0
  leBytes 8 (step * 2 ^ 32 + ((List.range (c.nm1 + 1)).filter who.contains).length)
    ++ leBytes 8 ((if replayed then 2 else 0) + if late then 1 else 0) ++ leBytes (ceilDiv (c.nm1 + 1) 128 * 16) map

/-- The directory bit of a slot of a channel's sump set or cleared (R259, R260). -/
def setSumpBit (s : State) (ctx : Nat) (c : Channel) (slot : Nat) (b : Bool) : State :=
  let va := low 64 (c.sump + c.slots * c.slotBytes + slot / 8)
  match ctxValue s ctx va 1 with
  | some v => ctxStore s ctx va [BitVec.ofNat 8 (putBit v (slot % 8) b)]
  | none => s

/-- Whether a slot of a channel's sump holds a node by the directory. -/
def sumpBit (s : State) (ctx : Nat) (c : Channel) (slot : Nat) : Bool :=
  (ctxValue s ctx (low 64 (c.sump + c.slots * c.slotBytes + slot / 8)) 1).any fun v => bit v (slot % 8)

/-- The bytes of a unit's node in its slot: each element's value, zero where it has none. [DESIGN CHOICE: log entry 112] -/
def unitBytes (c : Channel) (v : UnitVal) : List Byte :=
  let bs := match v with
    | .absent => []
    | .elems xs => xs.flatMap fun x =>
      let p := (x.map (·.1)).getD ⟨0, 0⟩
      if c.fmt = 2 then leBytes 4 p.hi.toNat ++ leBytes 4 p.lo.toNat else leBytes 4 p.hi.toNat
    | .triple m x o => leBytes 4 m.toNat ++ leBytes 4 x.toNat ++ o.flatMap fun y => leBytes 4 y.toNat
  (bs ++ List.replicate c.slotBytes 0).take c.slotBytes

/-- The slot of a tag in its channel's sump. -/
def Channel.slotOfTag (c : Channel) (t : Tag) : Nat :=
  match t with
  | .chan _ _ step unit level index => c.slotOf step unit level index
  | .handle _ _ _ _ => 0

/-- The contributing packages other than this one, each with one of its BACK paths (R261). [DEDUCED: log entry 73] -/
def noticePaths (backs : List (Nat × List (BitVec 5))) : List (List (BitVec 5)) :=
  (((backs.map (·.1)).eraseDups).filter (· ≠ Config.packageNumber)).filterMap fun p => (backs.find? fun b => b.1 = p).map (·.2)

/-- The operation of a step: that of the contributions that have reached the package. -/
def stepOp (run : ChanRun) (step : Nat) : Nat := ((run.reached.find? fun x => x.1 = step).map (·.2.2)).getD noOp

/-- Bytes that the package reads at a virtual address of a context where its page lies: local HBM at home, or the on-chip map.
[DESIGN CHOICE: log entry 50] -/
def deliverRead (s : State) (ctx va n : Nat) : Option (List Byte) :=
  match resolveRange s (firstDie s ctx) ctx 0 ⟨true, false, false, true⟩ (pieceFuel n) va n with
  | .error _ => none
  | .ok ps => ps.foldl (fun acc p => acc.bind fun bs => if (poisonedAt s p.1.pa p.2).isSome then none else match p.1 with
      | .hbm pa => some (bs ++ (addrs pa p.2).map (homeByte s))
      | .onchip pa => if onchipReadable s pa p.2 then some (bs ++ (addrs pa p.2).map (onchipByte s)) else none
      | _ => none) (some [])

/-- CHANNEL_STEP_COMPLETE at the root: BUF, the membership record, STEPS and FLAG, and one notice to each contributing package (R261).
[DEDUCED: log entry 73] -/
def completeStep (s : State) (ctx ch : Nat) (c : Channel) (late : Bool) : State :=
  let run := chanRun s ctx ch
  let op := stepOp run run.steps
  let s := run.roots.foldl (fun s r => writeRoots s ctx c (rootWrites c r.1 (if r.2.1 = noOp then op else r.2.1) r.2.2)) s
  let record := memberRecord c run.steps run.present run.map.isSome late
  let s := if c.memb = 0 then s
    else (deliverWrite s ctx (memberVa c run.steps) record).getD (walksNoted s ctx (memberVa c run.steps) record.length)
  let s := raiseStep s ctx ch c
  let s := (noticePaths run.backs).foldl (fun s b => match b.reverse with
    | [] => s
    | ts => enterSwitch (tookSeqs s ctx ch 1) 28
      ⟨ts, Config.packageNumber, ctx, ch, nextSeq s ctx ch, run.steps, [], 0, .notice, [], []⟩) s
  let s := run.spilled.foldl (fun s x => setSumpBit s ctx c (c.slotOfTag x.1) false) s
  onRun s ctx ch fun r => { r with
    steps := r.steps + 1, first := none, reached := r.reached.filter fun x => r.steps < x.1, map := none
    roots := [], present := [], backs := [], seen := [], spilled := [] }

/-- Every unit's root exists. -/
def stepDone (c : Channel) (run : ChanRun) : Bool := (List.range c.units).all fun u => run.roots.any fun r => r.1 = u

/-- A channel root joins its step; the last one completes it. -/
def deliverUnit (s : State) (ctx ch unit op : Nat) (who : List Nat) (v : UnitVal) (c : Channel) : State :=
  let s := onRun s ctx ch fun r => { r with roots := r.roots ++ [(unit, op, v)], present := (r.present ++ who).eraseDups }
  if stepDone c (chanRun s ctx ch) then completeStep s ctx ch c false else s

/-- A contribution of a step reaches the root package: from the first its deadline counts (R261). -/
def noteReached (s : State) (ctx ch step op : Nat) : State :=
  match readChannel s ctx ch with
  | some (c, _) =>
    let run := chanRun s ctx ch
    if !c.isRoot || step < run.steps then s
    else onRun s ctx ch fun r => { r with
      reached := match r.reached.find? fun x => x.1 = step with
        | some x => (step, x.2.1, opJoin x.2.2 op) :: r.reached.filter fun y => y.1 ≠ step
        | none => (step, s.clk, op) :: r.reached }
  | none => s

/-- Pairing of a step begins on the root package: under REPLAYM the record is read, and its MAP holds for the step; a record of another
step, or a MAP without members, completes the step with every leaf ABSENT (R261, R262). -/
def beginStep (s : State) (ctx ch : Nat) (c : Channel) : State :=
  let run := chanRun s ctx ch
  if run.first.isSome then s
  else
    let s := onRun s ctx ch fun r => { r with first := some s.clk }
    if !c.replayM then s
    else
      let all := (List.range c.units).map fun u => (u, noOp, UnitVal.absent)
      match deliverRead s ctx (memberVa c run.steps) (16 + ceilDiv (c.nm1 + 1) 128 * 16) with
      | none => walksNoted s ctx (memberVa c run.steps) (16 + ceilDiv (c.nm1 + 1) 128 * 16)
      | some bs =>
        let m := low (c.nm1 + 1) (leValue (bs.drop 16))
        if leValue ((bs.drop 4).take 4) ≠ run.steps % 2 ^ 32 then
          completeStep (channelRecord (onRun s ctx ch fun r => { r with roots := all }) ctx ch run.steps 0 3) ctx ch c false
        else if m = 0 then completeStep (onRun s ctx ch fun r => { r with roots := all, map := some 0 }) ctx ch c false
        else onRun s ctx ch fun r => { r with map := some m }

/-! ## Acceptance (R250) -/

/-- Entries of a handle or channel that a place may keep, and all that it may keep (R250). -/
def quotaOf (s : State) (e : PairEntry) : Nat × Nat :=
  let hd := match e.tag with
    | .handle ctx h _ _ => tget (handleKey ctx h) s.handles
    | _ => none
  match e.place with
  | .core _ => ((hd.map (·.cquota)).getD 64, 64)
  | .slice _ => ((hd.map (·.squota)).getD 1024, 1024)
  | .port _ => (64, 512)

/-- Whether an upper node is the one that this package, not the root, contributes: it covers its rank (R253). -/
def lastUpper (hd : Handle) (level index : Nat) : Bool :=
  !hd.root && hd.plog ≤ level && hd.prank / 2 ^ (level - hd.plog) = index

/-- An entry forwarded; a package that is not the root completes a handle when its upper node leaves on a link (R250, R253). -/
def sendEntry (s : State) (e : PairEntry) : State :=
  let s := forwardEntry s e
  match e.place, e.leaving, e.tag with
  | .port p, true, .handle ctx h level index =>
    if p < 24 && (tget (handleKey ctx h) s.handles).any fun hd => lastUpper hd level index then completeHandle s ctx h else s
  | _, _, _ => s

/-- An entry spilled to its slot: the directory bit is set as it leaves the buffer (R250, R251); a channel node keeps beside its slot what
the slot's bytes do not tell. [DESIGN CHOICE: log entry 112] -/
def spillEntry (s : State) (e : PairEntry) : State :=
  match e.tag with
  | .handle ctx h level index =>
    match tget (handleKey ctx h) s.handles with
    | none => s
    | some hd =>
      let slot := slotIndex hd level index
      let s := setDirectory s ctx hd slot true
      { s with
        handles := tset (handleKey ctx h) { hd with spilling := slot :: hd.spilling } s.handles
        spills := tset s.nextKey ⟨ctx, e.tag, low 64 (hd.sump + 16 * slot), e.value⟩ s.spills
        nextKey := s.nextKey + 1 }
  | .chan ctx ch step unit level index =>
    let s := onRun s ctx ch fun r => { r with spilled := (e.tag, e.value) :: r.spilled }
    match readChannel s ctx ch, e.value with
    | some (c, _), .unit _ _ _ v =>
      let slot := c.slotOf step unit level index
      let s := ctxStore s ctx (low 64 (c.sump + slot * c.slotBytes)) (unitBytes c v)
      setSumpBit s ctx c slot true
    | _, _ => s

/-- Whether a place is the home slice of a tag. -/
def isHome (s : State) (p : Place) (tag : Tag) : Bool :=
  match p with
  | .slice k => homeOf s tag = some k
  | _ => false

/-- The sibling as a place can refill it from the sump, and the state with its directory bit clear. -/
def refill (s : State) (p : Place) (sib : Tag) : Option (EntryVal × State) :=
  if !isHome s p sib then none
  else
    match sib with
    | .handle ctx h level index =>
      (tget (handleKey ctx h) s.handles).bind fun hd =>
        let slot := slotIndex hd level index
        if directoryBit s ctx hd slot then some (.node hd.pairNodes (readSlot s ctx hd slot), setDirectory s ctx hd slot false) else none
    | .chan ctx ch _ _ _ _ =>
      (readChannel s ctx ch).bind fun c =>
        ((chanRun s ctx ch).spilled.find? fun x => x.1 = sib && sumpBit s ctx c.1 (c.1.slotOfTag sib)).map fun x =>
          (x.2, setSumpBit (onRun s ctx ch fun r => { r with spilled := r.spilled.filter fun y => y.1 ≠ sib }) ctx c.1
            (c.1.slotOfTag sib) false)

/-- Whether the sibling's slot write is still on its way: the refill waits (R251). -/
def refillWaits (s : State) (p : Place) (tag : Tag) : Bool :=
  match tag.sibling with
  | .handle ctx h level index =>
    isHome s p tag && (tget (handleKey ctx h) s.handles).any fun hd => hd.spilling.contains (slotIndex hd level index)
  | _ => false

/-- Whether a place has room for one more entry of a tag's handle or channel (R250). -/
def hasRoom (s : State) (e : PairEntry) : Bool :=
  let here := s.buffers.filter fun b => b.2.place = e.place
  let (quota, cap) := quotaOf s e
  (here.filter fun b => b.2.tag.owner = e.tag.owner).length < quota && here.length < cap

/-- The bytes of index and value pairs in an FSPARSE node. -/
def sparseBytes (e : PairEntry) : Nat :=
  match e.value with
  | .unit 4 _ _ (.elems xs) => 8 * (xs.filter (·.isSome)).length
  | _ => 0

/-- An FSPARSE node that a port forwards unmerged: with it the port would merge more than 4 KiB of pairs of its channel (R233, R263). -/
def sparseFull (s : State) (e : PairEntry) : Bool :=
  match e.place with
  | .port _ =>
    sparseBytes e ≠ 0 && 4096 < (s.buffers.filter fun b => b.2.place = e.place && b.2.tag.owner = e.tag.owner).foldl
      (fun n b => n + sparseBytes b.2) (sparseBytes e)
  | _ => false

/-- hold(place, e): the oldest entry of the handle, or of any, makes room (R250). -/
def holdEntry (s : State) (e : PairEntry) : State :=
  let here := s.buffers.filter fun b => b.2.place = e.place
  let mine := here.filter fun b => b.2.tag.owner = e.tag.owner
  let (quota, cap) := quotaOf s e
  let oldest (xs : List (Nat × PairEntry)) : Option (Nat × PairEntry) :=
    xs.foldl (fun m x => match m with
      | some y => if x.2.aged < y.2.aged then some x else some y
      | none => some x) none
  let keep (s : State) : State :=
    { s with buffers := tset s.nextKey { e with aged := s.clk } s.buffers, nextKey := s.nextKey + 1 }
  let atOnce : Bool := match e.place, e.tag with
    | .core _, .handle ctx h _ _ => (tget (handleKey ctx h) s.handles).any fun hd => hd.chold = 0
    | _, _ => false
  if atOnce then sendEntry s e
  else if mine.length < quota && here.length < cap then keep s
  else match oldest (if mine.isEmpty then here else mine) with
    | none => sendEntry s e
    | some x =>
      let s := { s with buffers := tdel x.1 s.buffers }
      keep (match e.place with
        | .slice _ => spillEntry s x.2
        | _ => sendEntry s x.2)

/-- The root node at the root package is delivered; elsewhere it is forwarded. -/
def rootEntry (s : State) (e : PairEntry) : State :=
  match e.tag, e.value with
  | .handle ctx h _ _, .node _ v =>
    match tget (handleKey ctx h) s.handles with
    | some hd => if hd.root then deliverRoot s ctx h hd v else sendEntry s e
    | none => sendEntry s e
  | .chan ctx ch step unit _ _, .unit op _ leaves v =>
    match readChannel s ctx ch with
    | some (c, _) =>
      if !c.isRoot then sendEntry s e
      else match e.place with
        | .slice _ => if (chanRun s ctx ch).steps = step then deliverUnit s ctx ch unit op (leaves.map (·.1)) v c else s
        | _ => sendEntry s e
    | none => sendEntry s e
  | _, _ => s

/-- MAP of a channel's step where the root package pairs it under REPLAYM (R262). -/
def mapOf (s : State) (tag : Tag) : Option Nat :=
  match tag with
  | .chan ctx ch step _ _ _ => if (chanRun s ctx ch).steps = step then (chanRun s ctx ch).map else none
  | .handle _ _ _ _ => none

/-- Whether every leaf of a node belongs to a contributor outside a MAP: the node is ABSENT of itself (R262). -/
def Tag.outside (t : Tag) (m : Nat) : Bool := bits m (t.index * 2 ^ t.level) (2 ^ t.level) = 0

/-- The levels and leaf count of a node's tree as a place knows them: a port of a package without the tree's entry pairs siblings all
the same (R249). -/
def treeAt (s : State) (e : PairEntry) : Option (Nat × Nat) :=
  (treeOf s e.tag).orElse fun _ => match e.place with
    | .port _ => some (64, 2 ^ 64)
    | _ => none

/-- accept(place, e) of R250, for the arrival with a key; `fuel` bounds the levels that one arrival climbs. A parent whose refill must
wait keeps the arrival's turn at its place (R251). -/
def acceptEntry : Nat → Nat → State → PairEntry → State
  | 0, _, s, _ => s
  | fuel + 1, key, s, e =>
    match treeAt s e with
    | none => sendEntry s e
    | some (levels, n) =>
      if levels ≤ e.tag.level then rootEntry s e
      else if sparseFull s e then sendEntry s e
      else
        let sib := e.tag.sibling
        let found : Option (EntryVal × Nat × List (Nat × List (BitVec 5)) × State) :=
          if sib.beyond n || (mapOf s sib).any sib.outside then some (absentVal sib, 0, [], s)
          else match s.buffers.find? fun b => b.2.place = e.place && b.2.tag = sib with
            | some b => some (b.2.value, b.2.team, b.2.back, { s with buffers := tdel b.1 s.buffers })
            | none => (refill s e.place sib).map fun x => (x.1, 0, [], x.2)
        match found with
        | none => holdEntry s e
        | some (v, team, back, s) =>
          let value := if sib.index % 2 = 0 then joinVals v e.value else joinVals e.value v
          let e' := { e with
            tag := e.tag.parent, value := value, stamp := none, team := if e.team = 0 then team else e.team
            back := (e.back ++ back).eraseDups }
          match e.place with
          | .slice k =>
            if e'.tag.level < levels && homeOf s e'.tag ≠ some k then sendEntry s e'
            else if refillWaits s e.place e'.tag then { s with arrivals := tset key e' s.arrivals }
            else acceptEntry fuel key s e'
          | _ => if hasRoom s e' then acceptEntry fuel key s e' else sendEntry s e'

/-! ## Arrivals (R250, R260, R263) -/

/-- Whether two nodes share a leaf. -/
def nodesOverlap (l i m j : Nat) : Bool := i * 2 ^ l < (j + 1) * 2 ^ m && j * 2 ^ m < (i + 1) * 2 ^ l

/-- One unit of a contributor is discarded: 1 duplicate, 2 late. The record of its contribution is written once, with its first unit
(R234, R263). [DEDUCED: log entry 72] -/
def discardUnit (s : State) (ctx ch step unit what c : Nat) : State :=
  let seen := (chanRun s ctx ch).discards
  let times (u : Nat) : Nat := (seen.filter fun x => x = (what, step, c, u)).length
  let s := onRun s ctx ch fun r => { r with discards := (what, step, c, unit) :: r.discards }
  if seen.any fun x => x.1 = what && x.2.1 = step && x.2.2.1 = c && times unit < times x.2.2.2 then s
  else channelRecord s ctx ch step c what

/-- A node is discarded, with each contributor that has a leaf in it. -/
def discardRecords (s : State) (e : PairEntry) (ctx ch step unit level index what : Nat) : State :=
  let who : List Nat := match e.value with
    | .unit _ _ leaves _ => if leaves.isEmpty then [index * 2 ^ level] else leaves.map fun x => x.1
    | _ => [index * 2 ^ level]
  who.foldl (fun s c => discardUnit s ctx ch step unit what c) s

/-- A port has passed the notice of a step or a later one (R263). -/
def noticed (s : State) (p : Place) (ctx ch step : Nat) : Bool :=
  match p with
  | .port p => (tgetD p [] s.notices).any fun n => n.1 = (ctx, ch) && step ≤ n.2.1
  | _ => false

/-- An arriving channel entry: late ones are discarded by a port that holds the step's notice and by the root's home slices, a
contributor that a place has already seen in the step is a duplicate (a node from a home slice is none of the leaves that it is made
of), and under REPLAYM the leaves outside the record's MAP are not
paired (R234, R262, R263). A late record belongs to the root's context, so another package's memory takes none. None when it is
discarded. [DEDUCED: log entry 72] -/
def screenChan (s : State) (e : PairEntry) (ctx ch step unit level index : Nat) : Option PairEntry × State :=
  match readChannel s ctx ch with
  | none => (if noticed s e.place ctx ch step then none else some e, s)
  | some (c, _) =>
    let atHome : Bool := match e.place with
      | .slice _ => true
      | _ => false
    if noticed s e.place ctx ch step || (atHome && step < (chanRun s ctx ch).steps) then
      (none, if c.isRoot then discardRecords s e ctx ch step unit level index 2 else s)
    else
      let s := if c.isRoot && step = (chanRun s ctx ch).steps then beginStep s ctx ch c else s
      let run := chanRun s ctx ch
      if atHome && step < run.steps then (none, discardRecords s e ctx ch step unit level index 2)
      else if (mapOf s e.tag).any e.tag.outside then (none, s)
      else
        let e := match mapOf s e.tag with
          | some m => { e with value := e.value.within m level index }
          | none => e
        if run.seen.any fun x =>
            x.1 = e.place && x.2.1 = step && x.2.2.1 = unit && nodesOverlap level index x.2.2.2.1 x.2.2.2.2
              && (!e.homed || level ≤ x.2.2.2.1) then
          (none, if e.value.isAbsent then s else discardRecords s e ctx ch step unit level index 1)
        else
          let back := if c.isRoot && step = run.steps then e.back else []
          (some e, onRun s ctx ch fun r => { r with seen := (e.place, step, unit, level, index) :: r.seen, backs := r.backs ++ back })

/-- The first acceptance of a contribution counts for its command: a CTB's counter falls, a fabric command hears it (R188,
R232). -/
def acknowledge (s : State) (cmd : Nat) : State :=
  match tget cmd s.ops with
  | some (.ctb o) => lowerCtr (s.endOp cmd) o.c
  | some (.fabric o) => s.onOp cmd fun _ => .fabric { o with acks := o.acks - 1 }
  | _ => s

/-- An arrival that may not be treated yet: a channel node on its root package, of a step that is not its next one (R260). -/
def arrivalWaits (s : State) (e : PairEntry) : Bool :=
  match e.tag with
  | .chan ctx ch step _ _ _ => (chanRun s ctx ch).steps < step && (readChannel s ctx ch).any fun c => c.1.isRoot
  | .handle _ _ _ _ => false

/-- A place has treated an arrival on this clk (R250). -/
def treatedNow (s : State) (p : Place) : Bool := s.treated.any fun t => t.1 = p && t.2 = s.clk

/-- PAIRING_ARRIVAL: the oldest arrival at a place is treated, one in a clk (R250). -/
def execPairingArrival (arrival : Nat) (s : State) : Host.Outcome State Fault Refusal :=
  match tget arrival s.arrivals with
  | none => .next s
  | some e =>
    let before := s.arrivals.any fun a => a.1 < arrival && a.2.place = e.place && !arrivalWaits s a.2
    if before || arrivalWaits s e || refillWaits s e.place e.tag || treatedNow s e.place then .next s
    else
      let s := { s with
        arrivals := tdel arrival s.arrivals
        treated := (e.place, s.clk) :: s.treated.filter fun t => t.2 = s.clk }
      let s := acknowledge s e.cmd
      let e := { e with cmd := 0 }
      match e.tag with
      | .handle ctx h level index =>
        match tget (handleKey ctx h) s.handles with
        | some hd => .next (if (Tag.handle ctx h level index).beyond (hd.nm1 + 1) then s else acceptEntry 64 arrival s e)
        | none => .next (acceptEntry 64 arrival s e)
      | .chan ctx ch step unit level index =>
        match screenChan s e ctx ch step unit level index with
        | (some e, s) => .next (acceptEntry 64 arrival s e)
        | (none, s) => .next s

/-- SPILL_SLOT_WRITE: a spilled entry is written to its slot (R251). -/
def execSpillSlotWrite (spill : Nat) (s : State) : Host.Outcome State Fault Refusal :=
  match tget spill s.spills with
  | none => .next s
  | some x =>
    let s := { s with spills := tdel spill s.spills }
    match x.key, x.value with
    | .handle ctx h level index, .node _ v =>
      let s := ctxStore s ctx x.slotVa (slotBytes v)
      let drop (hd : Handle) : Handle := { hd with spilling := hd.spilling.filter (· ≠ slotIndex hd level index) }
      .next { s with handles := tmod (handleKey ctx h) drop s.handles }
    | _, _ => .next s

/-- CORE_HOLD_EXPIRE: an entry that a core has held CHOLD clk is forwarded (R250). -/
def execCoreHoldExpire (entry : Nat) (s : State) : Host.Outcome State Fault Refusal :=
  match tget entry s.buffers with
  | some e =>
    let due : Bool := match e.place, e.tag with
      | .core _, .handle ctx h _ _ => (tget (handleKey ctx h) s.handles).any fun hd => e.aged + hd.chold ≤ s.clk
      | _, _ => false
    if due then .next (sendEntry { s with buffers := tdel entry s.buffers } e) else .next s
  | none => .next s

/-- PORT_HOLD_EXPIRE: an entry that a port has held 256 clk is forwarded (R250). -/
def execPortHoldExpire (entry : Nat) (s : State) : Host.Outcome State Fault Refusal :=
  match tget entry s.buffers with
  | some e =>
    match e.place with
    | .port _ => if e.aged + 256 ≤ s.clk then .next (sendEntry { s with buffers := tdel entry s.buffers } e) else .next s
    | _ => .next s
  | none => .next s

/-! ## CTB, seals and deadlines (R201, R202, R252) -/

/-- The home slice of a virtual address's line (R77). -/
def sliceOfVa (s : State) (ctx va : Nat) : Nat :=
  match resolve s (firstDie s ctx) ctx 0 ⟨true, false, false, true⟩ va with
  | .ok (.hbm pa) => homeSlice s pa
  | _ => 0

/-- CTB_TEST_RETURN: the leaf's bit is tested and set; a second contribution traps at its word, a first one is sent to its first place
(R201, R249, R316). The tests of one word are made in member order. -/
def execCtbTestReturn (op : Nat) (s : State) : Host.Outcome State Fault Refusal :=
  match tget op s.ops with
  | some (.ctb o) =>
    let before := s.ops.any fun e => match e.2 with
      | .ctb x => e.1 < op && !x.tested && x.core = o.core && x.word = o.word
      | _ => false
    if o.tested || before then .next s
    else
      match tget (handleKey o.ctx o.h) s.handles with
      | none => .next (lowerCtr (s.endOp op) o.c)
      | some hd =>
        let va := leafByteVa hd o.leaf
        let die := dieOfCore o.core
        let v := (ctxValue s o.ctx va 1).getD 0
        if writeHeld s die o.ctx va 1 then .next s
        else match ringPoison s die o.ctx va 1 with
        | some (va, pa, g) => .next (consumeAt (lowerCtr (s.endOp op) o.c) o.c.thread o.word va pa g)
        | none =>
        if bit v (o.leaf % 8) then .next (trapAtWord (lowerCtr (s.endOp op) o.c) o.c.thread o.word 0x30 0 0)
        else
          let s := ctxStore s o.ctx va [BitVec.ofNat 8 (putBit v (o.leaf % 8) true)]
          let s := s.onOp op fun _ => .ctb { o with tested := true }
          let team := ((tget o.c.thread s.threads).map (·.team)).getD 0
          let e : PairEntry := ⟨.core o.core, .handle o.ctx o.h 0 o.leaf, .node hd.pairNodes o.value, s.clk, team, op, [], [], false, none, false⟩
          .next (if hd.cquota = 0 then sendEntry s e else arrive s e)
  | _ => .next s

/-- The maximal aligned blocks of a run of newly set bits a ≤ j < b within one leaf-map line (R252): level and index. -/
def sealBlocks : Nat → Nat → Nat → List (Nat × Nat)
  | 0, _, _ => []
  | fuel + 1, a, b =>
    if b ≤ a then []
    else
      let fit := ((List.range 12).reverse.find? fun k => a % 2 ^ k = 0 && a + 2 ^ k ≤ b).getD 0
      (fit, a / 2 ^ fit) :: sealBlocks fuel (a + 2 ^ fit) b

/-- Runs of zero bits of a list of bytes, as first bit and end. -/
def zeroRuns (v n : Nat) : List (Nat × Nat) :=
  ((List.range n).foldl (fun (acc : List (Nat × Nat)) j =>
    if bit v j then acc
    else match acc with
      | (a, b) :: rest => if b = j then (a, j + 1) :: rest else (j, j + 1) :: acc
      | [] => [(j, j + 1)]) []).reverse

/-- The parts of a handle's leaf map by line of 256 bytes: first bit and bits of each (R77, R252). -/
def mapLines (hd : Handle) : List (Nat × Nat) :=
  let at_ := leafMapVa hd
  let n := 2 ^ hd.plog
  (List.range ((at_ + ceilDiv n 8 - 1) / 256 + 1 - at_ / 256)).map fun l =>
    let lo := if l = 0 then 0 else 8 * ((at_ / 256 + l) * 256 - at_)
    (lo, min n (8 * ((at_ / 256 + l + 1) * 256 - at_)) - lo)

/-- The handle is sealed on this package: every clear bit of its part of the leaf map is set, and each line's home slice emits one
ABSENT entry for each maximal aligned block of newly set bits within the line (SEAL_EMIT, R252). -/
def sealHandle (s : State) (ctx h : Nat) : State :=
  match tget (handleKey ctx h) s.handles with
  | none => s
  | some hd =>
    let s := if hd.state = 1 then setHandleState s ctx h 2 else s
    (mapLines hd).foldl (fun s l =>
      let (lo, n) := l
      let va := leafMapVa hd + lo / 8
      match ctxValue s ctx va (ceilDiv n 8) with
      | none => s
      | some v =>
        let blocks := (zeroRuns v n).flatMap fun r => sealBlocks 2048 (lo + r.1) (lo + r.2)
        let s := ctxStore s ctx va (leBytes (ceilDiv n 8) (v ||| (2 ^ n - 1)))
        let from_ := Place.slice (sliceOfVa s ctx va)
        blocks.foldl (fun s b =>
          let tag := Tag.handle ctx h b.1 (b.2 + hd.prank * 2 ^ hd.plog / 2 ^ b.1)
          sendEntry s ⟨from_, tag, .node hd.pairNodes .absent, s.clk, 0, 0, [], [], false, none, false⟩) s) s

/-- SEAL_MARKING_DONE: the handle's leaves have been marked, and the counter of CTBSEAL falls. -/
def execSealMarkingDone (op : Nat) (s : State) : Host.Outcome State Fault Refusal :=
  match tget op s.ops with
  | some (.seal o) => .next (lowerCtr (sealHandle (s.endOp op) o.ctx o.h) o.c)
  | _ => .next s

/-- HANDLE_DEADLINE_EXPIRE: DEADLINE clk after the first group launch of the launch that opened it, an open handle is sealed
(R245, R252). -/
def execHandleDeadlineExpire (ctx h : Nat) (s : State) : Host.Outcome State Fault Refusal :=
  match tget (handleKey ctx h) s.handles with
  | some hd =>
    match (tget hd.launch s.launches).bind (·.firstGroup) with
    | some f => if hd.state = 1 && hd.deadline ≠ 0 && f + hd.deadline ≤ s.clk then .next (sealHandle s ctx h) else .next s
    | none => .next s
  | none => .next s

/-! ## Channel deadlines and notices (R261, R263) -/

/-- What the home slices of the root know of a node: kept, spilled, or made of what they know of its children; the rest is
ABSENT. -/
def knownNode (s : State) (ctx ch step unit : Nat) : Nat → Nat → EntryVal
  | level, index =>
    let tag := Tag.chan ctx ch step unit level index
    let kept := (s.buffers.find? fun b => b.2.tag = tag && isHome s b.2.place tag).map (·.2.value)
    match kept.orElse fun _ => ((chanRun s ctx ch).spilled.find? fun x => x.1 = tag).map (·.2) with
    | some v => v
    | none =>
      match level with
      | 0 => absentVal tag
      | l + 1 => joinVals (knownNode s ctx ch step unit l (2 * index)) (knownNode s ctx ch step unit l (2 * index + 1))

/-- CHANNEL_DEADLINE_EXPIRE: DEADLINE clk after the step's first contribution reached the root, every leaf not yet known becomes
ABSENT and the step completes (R261). -/
def execChannelDeadlineExpire (ctx ch : Nat) (s : State) : Host.Outcome State Fault Refusal :=
  match readChannel s ctx ch, ((chanRun s ctx ch).reached.find? fun x => x.1 = (chanRun s ctx ch).steps).map (·.2.1) with
  | some (c, _), some f =>
    if c.isOpen && c.isRoot && c.grad && c.deadline ≠ 0 && !c.replayM && f + c.deadline ≤ s.clk then
      let run := chanRun s ctx ch
      let missing := (List.range c.units).filter fun u => !(run.roots.any fun r => r.1 = u)
      let roots := missing.map fun u => (u, knownNode s ctx ch run.steps u c.levels 0)
      let s := roots.foldl (fun s r => match r.2 with
        | .unit op _ leaves v => onRun s ctx ch fun x => { x with
            roots := x.roots ++ [(r.1, op, v)], present := (x.present ++ leaves.map (·.1)).eraseDups }
        | .node _ _ => s) s
      let s := { s with buffers := s.buffers.filter fun b => !(match b.2.place, b.2.tag with
        | .slice _, .chan c' h' st _ _ _ => c' = ctx && h' = ch && st = run.steps
        | _, _ => false) }
      .next (completeStep s ctx ch c true)
    else .next s
  | _, _ => .next s

/-- A port notes a step notice that it passes; the entry with the oldest last notice makes room (R263). -/
def noteNotice (s : State) (port ctx ch step : Nat) : State :=
  let t := (tgetD port [] s.notices)
  let old := t.find? fun n => n.1 = (ctx, ch)
  let rest := t.filter fun n => n.1 ≠ (ctx, ch)
  let rest := if rest.length < 256 then rest
    else
      let least := rest.foldl (fun m n => min m n.2.2) s.nextKey
      rest.filter fun n => n.2.2 ≠ least
  { s with
    notices := tset port (((ctx, ch), max step ((old.map (·.2.1)).getD 0), s.nextKey) :: rest) s.notices
    nextKey := s.nextKey + 1 }

/-- STEP_NOTICE_RECEIVE: a notice that has arrived raises this package's STEPS and FLAG of the channel, with release at .dev
(R261). [DEDUCED: log entry 73] -/
def execStepNoticeReceive (ctx ch step : Nat) (s : State) : Host.Outcome State Fault Refusal :=
  match s.packets.find? fun p =>
      p.2.arrived.isSome && p.2.packet.body = .notice && p.2.packet.ctx = ctx && p.2.packet.ch = ch && p.2.packet.step = step with
  | none => .next s
  | some p =>
    let s := { s with packets := tdel p.1 s.packets }
    match readChannel s ctx ch with
    | none => .next s
    | some (c, _) => .next (onRun (raiseStep s ctx ch c) ctx ch fun r => { r with steps := r.steps + 1 })

end Sys2Proof.Machine
end

