-- ==== Sys2Proof/Machine/Fabric.lean ====
section
/-! DEFINITION. The fabric: FSEND, FMCAST, FRED, FSPARSE, the crosscut switch, drift links, delivery and acknowledgements
(spec/17_ops_engines.md R229 to R234; spec/19_reductions_fabric.md R254 to R258, R260). -/

namespace Sys2Proof.Machine

/-! ## Plans (R219, R230) -/

/-- A fabric command as its checks leave it: routes, the source with its pages, and for FRED and FSPARSE the operation (4 for
FSPARSE), the contributor and whether it contributes. -/
structure FabricPlan where
  ch : Nat
  chan : Channel
  routes : List Nat
  va : Nat
  len : Nat
  pages : List (Nat × Target)
  off : Nat
  rel : Bool
  contributes : Bool
  oper : Nat
  contributor : Nat
  locks : List (Nat × Nat × Bool)
  deriving DecidableEq, Repr

/-- The open channel that a fabric word names. -/
def openChannel (s : State) (t : Thread) (fw : Nat) : Option Channel :=
  match readChannel s t.ctx (bits fw 32 12) with
  | some (c, _) => if c.isOpen then some c else none
  | none => none

/-- The source of a fabric command: its pages and its lock; `redirects` for FSEND and FMCAST (R230, R275).
[DEDUCED: log entry 127] -/
def captureSource (s : State) (t : Thread) (redirects : Bool) (va len : Nat) : Except Bad (List (Nat × Target)) :=
  capturePages s t commandTarget needRead redirects hbmOrScratch (touchedPages s t.team [(va, len)])

/-- The limits of R230 on a send's channel, length and span: the channel, none for cause 0x03. -/
def sendChannel (w : RWord) (s : State) (t : Thread) : Option Channel :=
  let fw := src64 s t w.b
  let len := bits fw 0 32
  (openChannel s t fw).bind fun c => if len % 4 ≠ 0 || (len ≠ 0 && c.bytes < 64 * bits fw 44 20 + len) then none else some c

/-- What a send posts, once its routes are known and checked (R229, R231). -/
def sendPlan (w : RWord) (s : State) (t : Thread) (c : Channel) (routes : List Nat) (pages : List (Nat × Target)) :
    Except Bad FabricPlan :=
  let fw := src64 s t w.b
  let va := (src128 s t w.a).1
  let len := bits fw 0 32
  if routes.any (!routeValid ·) || routes.eraseDups.length ≠ routes.length then .error ⟨0x03, 0, 0⟩
  else .ok ⟨bits fw 32 12, c, routes, va, len, pages, 64 * bits fw 44 20, w.fbits 9 1 = 1, false, 0, 0,
    lockRange va (if len = 0 then va else va + len) false⟩

/-- The source of a send. -/
def sendSource (w : RWord) (s : State) (t : Thread) : Except Bad (List (Nat × Target)) :=
  captureSource s t true (src128 s t w.a).1 (bits (src64 s t w.b) 0 32)

/-- The checks of FSEND. -/
def checkFsend (w : RWord) (s : State) (_ : Nat) (t : Thread) : Except Bad FabricPlan :=
  let routes := [(src128 s t w.a).2]
  match sendChannel w s t, routes.all routeValid with
  | some c, true => match sendSource w s t with
    | .error b => .error b
    | .ok pages => sendPlan w s t c routes pages
  | _, _ => .error ⟨0x03, 0, 0⟩

/-- The route list of FMCAST: words 8-byte aligned in local HBM, as their home holds them (R231). [DEDUCED: log entry 67] -/
def routeList (s : State) (t : Thread) : Nat → Nat → Except Bad (List Nat)
  | _, 0 => .ok []
  | va, n + 1 =>
    if va % 8 ≠ 0 then .error ⟨0x12, va, 0⟩
    else
      match windowed s t false va with
      | .error b => .error b
      | .ok _ =>
        match commandTarget s t needRead va with
        | .error c => .error ⟨c, va, 0⟩
        | .ok (.hbm pa) =>
          if hbmBytes ≤ pa then .error ⟨0x03, 0, 0⟩
          else match routeList s t (low 64 (va + 8)) n with
          | .error b => .error b
          | .ok ws => .ok (leValue ((addrs pa 8).map (homeByte s)) :: ws)
        | .ok _ => .error ⟨0x03, 0, 0⟩

/-- The checks of FMCAST. [DEDUCED: log entry 67] -/
def checkFmcast (w : RWord) (s : State) (_ : Nat) (t : Thread) : Except Bad FabricPlan :=
  match sendChannel w s t with
  | none => .error ⟨0x03, 0, 0⟩
  | some c => match routeList s t (src128 s t w.a).2 (w.fbits 5 4 + 1), sendSource w s t with
    | .error x, .error y => .error (if y.faddr < x.faddr then y else x)
    | .error x, .ok _ => .error x
    | .ok _, .error y => .error y
    | .ok rs, .ok pages => sendPlan w s t c rs pages

/-- Whether an operation matches a channel's format (R259); FSPARSE is 4. -/
def operMatches (c : Channel) (oper : Nat) : Bool :=
  match oper with
  | 0 => c.fmt = 1 || c.fmt = 2
  | 1 => c.fmt = 1
  | 2 => c.fmt = 1
  | 3 => c.fmt = 3
  | _ => c.fmt = 1 || c.fmt = 2

/-- The limits of R230 on a contribution of a length at an offset. -/
def contributionBad (c : Channel) (oper off len : Nat) : Bool :=
  match oper with
  | 4 => off ≠ 0 || len % 8 ≠ 0
  | 3 => len % (8 + 4 * c.d) ≠ 0 || (len ≠ 0 && c.nelem < off + len / (8 + 4 * c.d))
  | _ => len % 4 ≠ 0 || (len ≠ 0 && c.nelem < 16 * off + len / 4)

/-- The checks of FRED and FSPARSE (R230, R232, R233); a source in a version window takes cause 0x11.
[DEDUCED: log entry 67; DEDUCED: log entry 127] -/
def checkContribution (w : RWord) (oper : Nat) (s : State) (_ : Nat) (t : Thread) : Except Bad FabricPlan :=
  let fw := src64 s t w.b
  let (va, route) := src128 s t w.a
  let len := bits fw 0 32
  let off := bits fw 44 20
  let contributor := src32 s t w.c
  match openChannel s t fw with
  | none => .error ⟨0x03, 0, 0⟩
  | some c =>
    if !routeValid route || !operMatches c oper || c.nm1 < contributor || contributionBad c oper off len then
      .error ⟨0x03, 0, 0⟩
    else
      match captureSource s t false va len with
      | .error b => .error b
      | .ok pages => .ok ⟨bits fw 32 12, c, [route], va, len, pages, off, false, true, oper, contributor,
          lockRange va (if len = 0 then va else va + len) false⟩

/-! ## Posting -/

/-- The bytes of a command's source, through the pages captured. -/
def sourceBytes (s : State) (team : Nat) (p : FabricPlan) : List Byte :=
  (List.range p.len).map fun i => match capturedTarget s team p.pages (low 64 (p.va + i)) with
    | some (.hbm pa) => homeByte s pa
    | some t => memRead s.mem t.pa
    | none => 0

/-- The lines of local HBM that a command's source lies in (R320). -/
def sourceLines (s : State) (team : Nat) (p : FabricPlan) : List Nat :=
  ((List.range p.len).filterMap fun i => match capturedTarget s team p.pages (low 64 (p.va + i)) with
    | some (.hbm pa) => some (pa / 256)
    | _ => none).eraseDups

/-- Room in the copy queue and the range-lock tables, and no tile that holds a line of a source (R101, R219). -/
def fabricRoom (s : State) (u : Issuing) (ps : List FabricPlan) : Bool :=
  let team := (((u.members.head?).bind fun k => tget k s.threads).map (·.team)).getD 0
  engineRoom s u ps.length (ps.foldl (fun n p => n + p.locks.length) 0)
    && ps.all fun p => (sourceLines s team p).all fun l => !lineHeld s (.hbm (l * 256)) 256

/-- The first poisoned byte of a source: its virtual and physical address, and the bytes of its granule (R301, R316).
[DEDUCED: log entry 68] -/
def sourcePoison (s : State) (team : Nat) (p : FabricPlan) : Option (Nat × Nat × Nat) :=
  if s.poison.isEmpty then none
  else (List.range p.len).findSome? fun i =>
    (capturedTarget s team p.pages (low 64 (p.va + i))).bind fun t => (poisonedAt s t.pa 1).map fun g => (low 64 (p.va + i), t.pa, if g < hbmBytes then 64 else 4)

/-- A list cut into pieces of n. -/
def chunks (n : Nat) : Nat → List α → List (List α)
  | 0, _ => []
  | _, [] => []
  | fuel + 1, xs => xs.take n :: chunks n fuel (xs.drop n)

/-- The 32-bit words of a list of bytes. -/
def wordsOf (bs : List Byte) : List Nat := (chunks 4 (bs.length + 1) bs).map leValue

/-- The elements of one unit that a list of element values from element e0 covers (R232). -/
def unitOfDense (c : Channel) (e0 : Nat) (xs : List Nat) (unit : Nat) : UnitVal :=
  .elems ((List.range (unitLength c unit)).map fun j =>
    let e := 16 * unit + j
    if e0 ≤ e then (xs[e - e0]?).map fun x => (pairLeaf x, 1) else none)

/-- One group of a triple channel. -/
def unitOfTriple (ws : List Nat) : UnitVal :=
  let v (n : Nat) : Word32 := BitVec.ofNat 32 ((ws[n]?).getD 0)
  .triple (v 0) (v 1) ((ws.drop 2).map (BitVec.ofNat 32))

/-- The pairs of an FSPARSE list; none where the indices do not ascend strictly below NELEM, with the first bad pair's number. -/
def sparsePairs (c : Channel) (ws : List Nat) : Except Nat (List (Nat × Nat)) :=
  let ps := (chunks 2 (ws.length + 1) ws).map fun p => ((p[0]?).getD 0, (p[1]?).getD 0)
  match (List.range ps.length).find? fun i =>
      c.nelem ≤ ((ps[i]?).map (·.1)).getD 0
        || (i ≠ 0 && ((ps[i]?).map (·.1)).getD 0 ≤ ((ps[i - 1]?).map (·.1)).getD 0) with
  | some i => .error i
  | none => .ok ps

/-- One unit of an FSPARSE. -/
def unitOfSparse (c : Channel) (ps : List (Nat × Nat)) (unit : Nat) : UnitVal :=
  if !(ps.any fun p => p.1 / 16 = unit) then .absent
  else .elems ((List.range (unitLength c unit)).map fun j =>
    (ps.find? fun p => p.1 = 16 * unit + j).map fun p => (pairLeaf p.2, 1))

/-- An absent marker: every unit of the channel (R232). -/
def absentUnits (c : Channel) : List (Nat × UnitVal) := (List.range c.units).map fun u => (u, .absent)

/-- The contribution of FRED or FSPARSE by unit, and the byte offset at which an FSPARSE list breaks its order. -/
def contributionUnits (c : Channel) (oper off : Nat) (bs : List Byte) : List (Nat × UnitVal) × Option Nat :=
  let ws := wordsOf bs
  match oper with
  | 4 =>
    match sparsePairs c ws with
    | .error i => (absentUnits c, some (8 * i))
    | .ok ps => ((List.range c.units).map fun u => (u, unitOfSparse c ps u), none)
  | 3 =>
    if bs.isEmpty then (absentUnits c, none)
    else
      let gs := chunks (2 + c.d) (ws.length + 1) ws
      (((List.range gs.length).zip gs).map fun g => (off + g.1, unitOfTriple g.2), none)
  | _ =>
    if bs.isEmpty then (absentUnits c, none)
    else ((List.range (ceilDiv ws.length 16)).map fun i => (off + i, unitOfDense c (16 * off) ws (off + i)), none)

/-- SEQ of the data packets sent from here to a channel that have not all been acknowledged, with the routes they took (R258). -/
def sentBefore (s : State) (ctx ch : Nat) (routes : List (List (BitVec 5))) : List (Nat × List (BitVec 5)) :=
  s.ops.flatMap fun e => match e.2 with
    | .fabric x => if x.ctx = ctx && x.ch = ch then (x.routes.filter routes.contains).flatMap fun r => x.sent.map fun q => (q, r) else []
    | _ => []

/-- The packets of FSEND and FMCAST, one copy for all routes: data of up to 64 flits each, then the flag with REL, which follows its own
data and what was sent before (R231, R254, R258). [DEDUCED: log entry 69] -/
def sendPackets (ctx ch cmd seq : Nat) (off : Nat) (rel : Bool) (bs : List Byte) (routes : List (List (BitVec 5)))
    (before : List (Nat × List (BitVec 5))) : List Packet :=
  let base (n : Nat) (body : Payload) : Packet :=
    ⟨routes.headD [], Config.packageNumber, ctx, ch, low 32 (seq + n), 0, [(Config.packageNumber, [])], cmd, body, routes.tail, []⟩
  let parts := chunks 4096 (bs.length + 1) bs
  ((List.range parts.length).zip parts).map (fun x => base x.1 (.data (off + 4096 * x.1) x.2))
    ++ if rel then
      [base parts.length (.flag (before ++ routes.flatMap fun r => (List.range parts.length).map fun i => (low 32 (seq + i), r)))]
    else []

/-- Whether a fabric command waits behind an earlier one of its group on its channel: one that has not yet sent all, or that took other
routes and still awaits acceptances or acknowledgements (R234). [DEDUCED: log entry 111] -/
def behindEarlier (s : State) (id : Nat) (o : FabricOp) : Bool :=
  s.ops.any fun e => match e.2 with
    | .fabric x => e.1 < id && x.group = o.group && x.ctx = o.ctx && x.ch = o.ch
        && (!x.pend.isEmpty || !x.packets.isEmpty || (x.acks ≠ 0 && x.routes ≠ o.routes))
    | _ => false

/-- The packets of a send enter the crosscut switch at the issuing die's input, unless an earlier command of the group keeps them
(R231, R234). -/
def emitPackets (s : State) (id : Nat) (o : FabricOp) : State :=
  if behindEarlier s id o then s
  else o.packets.foldl (fun s x => enterSwitch s (24 + dieOfCore o.core) x) (s.onOp id fun _ => .fabric { o with packets := [] })

/-- A fabric command is posted for a group; poisoned source bytes keep it from sending.
[DEDUCED: log entry 67; DEDUCED: log entry 68] -/
def postFabric (w : RWord) (ms : List Nat) (k : Nat) (t : Thread) (p : FabricPlan) (s : State) (u : Issuing) : State :=
  let s := escape s k
  let counted : List Counted := ms.map fun m => ⟨m, w.ctr⟩
  let s := counted.foldl raiseCtr s
  let key := s.nextKey
  let s := lockCommand s (lockCores s t) key t.ctx p.locks
  let s := (sourceLines s t.team p).foldl (fun s l => noteActivation s (l * 256)) s
  let op : FabricOp := {
    cs := counted, poster := k, group := t.group, core := u.core, ctx := t.ctx, team := t.team, ch := p.ch, tid := low 64 t.tid
    launchId := launchIdOf s t, acks := 0, oper := p.oper, contributor := p.contributor
    routes := p.routes.map routeTurns, packets := [], pend := [], status := 0, bad := none }
  match sourcePoison s t.team p with
  | some bad => s.beginOp (.fabric { op with status := 2, bad := some bad })
  | none =>
    let bs := sourceBytes s t.team p
    if p.contributes then
      let (units, bad) := contributionUnits p.chan p.oper p.off bs
      let op := match bad with
        | some n => { op with status := 6, bad := some (low 64 (p.va + n), 2 ^ 64 - 1, 8) }
        | none => op
      s.beginOp (.fabric { op with pend := units })
    else
      let seq := nextSeq s t.ctx p.ch
      let packets := sendPackets t.ctx p.ch key seq p.off p.rel bs op.routes (sentBefore s t.ctx p.ch op.routes)
      let op := { op with
        acks := p.routes.length * packets.length, packets := packets
        sent := (List.range (ceilDiv p.len 4096)).map fun i => low 32 (seq + i) }
      emitPackets (tookSeqs (s.beginOp (.fabric op)) t.ctx p.ch packets.length) key op

/-- FSEND. -/
def execFsend (w : RWord) (s : State) : Host.Outcome State Fault Refusal :=
  commandWord (.fsend w) w.ctr none (checkFsend w) fabricRoom noHold (postFabric w) s

/-- FMCAST. -/
def execFmcast (w : RWord) (s : State) : Host.Outcome State Fault Refusal :=
  commandWord (.fmcast w) w.ctr none (checkFmcast w) fabricRoom noHold (postFabric w) s

/-- FRED. -/
def execFred (w : RWord) (s : State) : Host.Outcome State Fault Refusal :=
  commandWord (.fred w) w.ctr none (checkContribution w (w.fbits 10 3)) fabricRoom noHold (postFabric w) s

/-- FSPARSE. -/
def execFsparse (w : RWord) (s : State) : Host.Outcome State Fault Refusal :=
  commandWord (.fsparse w) w.ctr none (checkContribution w 4) fabricRoom noHold (postFabric w) s

/-! ## Contributions that wait for their step, and retirement (R231, R232, R260) -/

/-- Whether a contribution covers the whole of a unit. -/
def coversUnit (v : UnitVal) : Bool :=
  match v with
  | .elems xs => xs.all (·.isSome)
  | _ => true

/-- A contribution's units enter the crosscut switch at the issuing die's input; their places are the ports that the command's
route takes and the root's home slices (R232, R260). [DEDUCED: log entry 70] -/
def emitUnits (s : State) (id : Nat) (o : FabricOp) (c : Channel) : State :=
  let run := chanRun s o.ctx o.ch
  let (step, covered) := ((run.contrib.find? fun x => x.1 = o.contributor).map (·.2)).getD (0, [])
  let s := o.pend.foldl (fun s x =>
    let leaves := if x.2 = .absent then [] else [(o.contributor, x.2)]
    let port := 24 + dieOfCore o.core
    let e : PairEntry := ⟨.port port, .chan o.ctx o.ch step x.1 0 o.contributor, .unit o.oper (c.fmt = 2) leaves x.2, s.clk, 0, id,
      o.routes.headD [], [(Config.packageNumber, [])], false, none, false⟩
    enterSwitch (stamped s e) port (packetOf s e)) (noteReached s o.ctx o.ch step o.oper)
  let covered := (covered ++ (o.pend.filter fun x => o.oper = 4 || coversUnit x.2).map (·.1)).eraseDups
  let next := if (List.range c.units).all covered.contains then (step + 1, []) else (step, covered)
  let s := s.onOp id fun _ => .fabric { o with acks := o.pend.length, pend := [] }
  onRun s o.ctx o.ch fun r => { r with contrib := (o.contributor, next) :: r.contrib.filter fun x => x.1 ≠ o.contributor }

/-- Whether a contribution's step is two or more above the completed steps, or an earlier command of its group on the channel
keeps it (R234, R260). -/
def contributionWaits (s : State) (id : Nat) (o : FabricOp) : Bool :=
  let run := chanRun s o.ctx o.ch
  let step := ((run.contrib.find? fun x => x.1 = o.contributor).map (·.2.1)).getD 0
  run.steps + 2 ≤ step || behindEarlier s id o

/-- A fabric command retires: locks, counters, its record, its poster's trap (R219, R231 to R233, R316).
[DEDUCED: log entry 68] -/
def retireFabric (s : State) (id : Nat) (o : FabricOp) : State :=
  let s := lowerCtrs (unlockCommand (s.endOp id) id o.ctx) o.cs
  let (va, pa, len) := o.bad.getD (0, 2 ^ 64 - 1, 0)
  let s := if o.status = 0 then s else commandRecord s o.ctx o.status 0 o.tid o.launchId va pa len
  if o.status = 2 then engineConsume s o.poster va pa else s

/-- Contributions enter pairing as their steps allow, sends that waited go on, and commands with nothing awaited retire. -/
def settleFabric (s : State) : State :=
  s.ops.foldl (fun s e => match tget e.1 s.ops with
    | some (.fabric o) =>
      if !o.pend.isEmpty then
        match readChannel s o.ctx o.ch with
        | some (c, _) => if contributionWaits s e.1 o then s else emitUnits s e.1 o c
        | none => s
      else if !o.packets.isEmpty then emitPackets s e.1 o
      else if o.acks = 0 then retireFabric s e.1 o else s
    | _ => s) s

/-! ## The switch (R255) -/

/-- A dropped contribution is not counted: the contributors of this package below the dropped node have not covered its unit in that
step (R255, R260). [DEDUCED: log entry 77] -/
def uncount (s : State) (ctx ch step : Nat) (node : Option (Nat × Nat × Nat)) : State :=
  match node, readChannel s ctx ch with
  | some (unit, level, index), some (c, _) =>
    onRun s ctx ch fun r => { r with contrib := r.contrib.map fun x =>
      if x.1 / 2 ^ level ≠ index || x.2.1 < step then x
      else if x.2.1 = step then (x.1, x.2.1, x.2.2.filter (· ≠ unit))
      else (x.1, step, (List.range c.units).filter (· ≠ unit)) }
  | _, _ => s

/-- The unit and node of a contribution in a packet. -/
def packetNode (p : Packet) : Option (Nat × Nat × Nat) :=
  match p.body with
  | .chan _ _ _ unit level index _ => some (unit, level, index)
  | _ => none

/-- Whether a drop of the packet is told to the packages it came from: one that a command sent (R255). -/
def dropIsTold (p : Packet) : Bool :=
  match p.body with
  | .data _ _ => true
  | .flag _ => true
  | .chan _ _ _ _ _ _ _ => true
  | _ => false

/-- ROUTE_FAULT at a switch whose input is the last of BACK: the packet is dropped and the fault recorded; what it contributed is not
counted, and the command that posted it retires, here or where word of the drop goes along BACK. [DEDUCED: log entry 77] -/
def routeFault (s : State) (p : Packet) : State :=
  let s := uncount s p.ctx p.ch p.step (packetNode p)
  let s := ((if dropIsTold p then p.back else []).filter fun b => b.1 ≠ Config.packageNumber).foldl (fun s b =>
    enterSwitch s 28 ⟨b.2.reverse, Config.packageNumber, p.ctx, p.ch, 0, p.step, [(Config.packageNumber, [])], 0,
      .drop (if p.src = b.1 then p.cmd else 0) (packetNode p), [], []⟩) s
  match (if p.src = Config.packageNumber then tget p.cmd s.ops else none) with
  | some (.fabric o) => retireFabric s p.cmd { o with status := 5 }
  | _ => commandRecord s p.ctx 5 0 0 0 0 (2 ^ 64 - 1) 0

/-- Word of a drop has come back to the package that sent: the command retires with status route fault, and what the dropped contribution
covered is not counted (R255). [DEDUCED: log entry 77] -/
def dropTold (s : State) (p : Packet) (cmd : Nat) (node : Option (Nat × Nat × Nat)) : State :=
  let s := uncount s p.ctx p.ch p.step node
  match tget cmd s.ops with
  | some (.fabric o) => retireFabric s cmd { o with status := 5 }
  | _ => s

/-- The tag and value of a contribution in a packet. -/
def packetEntry (p : Packet) : Option (Tag × EntryVal) :=
  match p.body with
  | .chan op pairs leaves unit level index v => some (.chan p.ctx p.ch p.step unit level index, .unit op pairs leaves v)
  | .node pairs level index v => some (.handle p.ctx p.ch level index, .node pairs v)
  | _ => none

/-- Whether a turn drops the packet (R255). [DEDUCED: log entry 77] -/
def turnBad (s : State) (turn : Nat) (last : Bool) : Bool :=
  30 ≤ turn || s.retiredPorts.contains turn || (if last then turn < 24 || 28 < turn else 24 ≤ turn)

/-- A packet whose delivery counts for its source and channel: data or a flag (R258). -/
def packetDelivers (p : Packet) : Bool :=
  match p.body with
  | .data _ _ => true
  | .flag _ => true
  | _ => false

/-- A data packet, flag or contribution goes ahead of no earlier one of its source and channel (R234).
[DEDUCED: log entry 111] -/
def ordered (p : Packet) : Bool :=
  match p.body with
  | .chan _ _ _ _ _ _ _ => true
  | _ => packetDelivers p

/-- The remaining routes of a packet. -/
def packetRoutes (p : Packet) : List (List (BitVec 5)) := p.route :: p.also

/-- The turns that a packet takes at a switch, whether each is a last one, and the routes that go on from it: one copy leaves for each
(R231, R255). -/
def packetBranches (p : Packet) : List (Nat × Bool × List (List (BitVec 5))) :=
  let heads := ((packetRoutes p).map fun r => ((r.headD 0).toNat, decide (r.length ≤ 1))).eraseDups
  heads.map fun h => (h.1, h.2, ((packetRoutes p).filter fun r => ((r.headD 0).toNat, decide (r.length ≤ 1)) = h).map fun r => r.tail)

/-- What a flag must follow, once it has taken a turn of its own route: what has taken the same. -/
def turnedBody (b : Payload) (turn : Nat) : Payload :=
  match b with
  | .flag after => .flag (after.filterMap fun x => match x.2 with
    | t :: ts => if t.toNat = turn then some (x.1, ts) else none
    | [] => none)
  | b => b

/-- A packet that has come in by an input port of a switch: BACK tells it. -/
def crossed (p : Packet) (input : Nat) : Packet :=
  { p with back := p.back.map fun x => (x.1, x.2 ++ [BitVec.ofNat 5 input]) }

/-- One copy of a packet takes a turn at a switch: a contribution is put before the port it leaves by, which is a place (R249), unless it
is on a detour; `key` names it once it has arrived. [DEDUCED: log entry 70; DEDUCED: log entry 77] -/
def takeTurn (s : State) (input key : Nat) (p : Packet) (b : Nat × Bool × List (List (BitVec 5))) : State :=
  let t := b.1
  let p := crossed p input
  if turnBad s t b.2.1 then routeFault s p
  else
    let rest := b.2.2.headD []
    let p : Packet := { p with route := rest, also := b.2.2.tail, body := if p.detours.isEmpty then turnedBody p.body t else p.body }
    let s := if p.body = .notice then noteNotice (noteNotice s input p.ctx p.ch p.step) t p.ctx p.ch p.step else s
    match (if p.detours.isEmpty then packetEntry p else none) with
    | some (tag, v) => arrive s ⟨.port t, tag, v, s.clk, 0, if p.src = Config.packageNumber then p.cmd else 0, rest, p.back, true, some (p.src, p.seq), false⟩
    | none =>
      if !b.2.1 then sendOnLink s t p
      else match p.body with
        | .drop cmd node => dropTold s p cmd node
        | _ => { s with packets := tset key ⟨p, input, some (t - 24)⟩ s.packets }

/-- SWITCH_ROUTE: a packet takes its next turn; where the routes of a multicast part, a copy takes each turn (R231, R255).
[DEDUCED: log entry 77] -/
def execSwitchRoute (packet : Nat) (s : State) : Host.Outcome State Fault Refusal :=
  match tget packet s.packets with
  | none => .next s
  | some f =>
    let p := f.packet
    let before := ordered p && s.packets.any fun x => x.1 < packet && x.2.arrived.isNone && ordered x.2.packet
      && x.2.input = f.input && x.2.packet.src = p.src && x.2.packet.ctx = p.ctx && x.2.packet.ch = p.ch
      && (packetRoutes x.2.packet).any fun r => (packetRoutes p).any fun q => r.head? = q.head?
    if f.arrived.isSome || before then .next s
    else
      let s := { s with packets := tdel packet s.packets }
      if p.route.isEmpty then .next (routeFault s (crossed p f.input))
      else
        match packetBranches p with
        | [b] => .next (takeTurn s f.input packet p b)
        | bs => .next (bs.foldl (fun s b => takeTurn { s with nextKey := s.nextKey + 1 } f.input s.nextKey p b) s)

/-! ## Destinations and acknowledgements (R231, R258) -/

/-- The acknowledgement of a delivered packet, sent back along BACK. -/
def sendAck (s : State) (die : Nat) (p : Packet) : State :=
  let flag := match p.body with
    | .flag _ => true
    | _ => false
  enterSwitch s (24 + die) ⟨((p.back.headD (0, [])).2).reverse, Config.packageNumber, p.ctx, p.ch, 0, 0, [(Config.packageNumber, [])], 0,
    .ack p.cmd flag, [], []⟩

/-- A sequence number that a port has delivered, or that lies below its window of 64 (R258). [DEDUCED: log entry 69] -/
def wasDelivered (seqs : List Nat) (q : Nat) : Bool :=
  seqs.contains q || q + 64 < seqs.foldl max 0

/-- A flag waits for the data packets before it that took its route and that its port has not yet delivered, come in or not (R231,
R258). [DEDUCED: log entry 69] -/
def flagWaits (seqs : List Nat) (p : Packet) : Bool :=
  match p.body with
  | .flag after => after.any fun x => x.2.isEmpty && !wasDelivered seqs x.1
  | _ => false

/-- DESTINATION_DELIVER: data is written at .dev and acknowledged; a flag follows every earlier packet of its source and channel
and is added once (R231, R258). -/
def execDestinationDeliver (packet : Nat) (s : State) : Host.Outcome State Fault Refusal :=
  match tget packet s.packets with
  | none => .next s
  | some f =>
    let p := f.packet
    match f.arrived with
    | none => .next s
    | some die =>
      let before := s.packets.any fun x => packetDelivers x.2.packet && x.2.packet.seq < p.seq && x.2.packet.src = p.src
        && x.2.packet.ctx = p.ctx && x.2.packet.ch = p.ch
        && (x.2.arrived = some die || (x.2.packet.route = [BitVec.ofNat 5 (24 + die)]))
      let key := (die, p.src, p.ctx, p.ch)
      let seqs := ((s.delivered.find? fun d => d.1 = key).map (·.2)).getD []
      if !packetDelivers p || before || flagWaits seqs p then .next s
      else
        let s := { s with packets := tdel packet s.packets }
        if wasDelivered seqs p.seq then .next s
        else
          let seqs := (p.seq :: seqs).filter fun q => (p.seq :: seqs).foldl max 0 ≤ q + 64
          let s := { s with delivered := (key, seqs) :: s.delivered.filter fun d => d.1 ≠ key }
          match readChannel s p.ctx p.ch with
          | none => .next (sendAck s die p)
          | some (c, _) =>
            let s := match p.body with
              | .data off bs =>
                (deliverWrite s p.ctx (low 64 (c.buf + off)) bs).getD (deliveryFault s p.ctx 0 (low 64 (c.buf + off)) bs.length)
              | .flag _ => (deliverAdd s p.ctx c.flag 1).getD (deliveryFault s p.ctx 0 c.flag 8)
              | _ => s
            .next (sendAck s die p)

/-- FABRIC_ACK_RECEIVE: an acknowledgement has come back to this package's port (R231). -/
def execFabricAckReceive (cmd : Nat) (last : Bool) (s : State) : Host.Outcome State Fault Refusal :=
  match s.packets.find? fun p => p.2.arrived.isSome && p.2.packet.body = .ack cmd last with
  | none => .next s
  | some p => .next (settleFabric (acknowledge { s with packets := tdel p.1 s.packets } cmd))

/-! ## Links (R254, R257) -/

/-- The detours of a packet once it has crossed one more link: at the switch that the failed link reaches, a flit already accepted over
that link is discarded (none), and the packet goes on as it would have (R257). -/
def endDetours (s : State) : List Detour → Option (List Detour × State)
  | [] => some ([], s)
  | d :: ds =>
    if 1 < d.left then some ({ d with left := d.left - 1 } :: ds, s)
    else if s.accepted.contains (d.pkg, d.link, d.seq) then none
    else endDetours { s with accepted := ((d.pkg, d.link, d.seq) :: s.accepted).take 65536 } ds

/-- LINK_FLIT_RECEIVE: a packet comes in on a drift link; one that fails its CRC, or that has been accepted before, is discarded. A
contribution is put before the input port, which is a place (R249), unless it is on a detour (R257). -/
def execLinkFlitReceive (link : Nat) (flit : LinkFlit) (s : State) : Host.Outcome State Fault Refusal :=
  let key := (flit.sender, flit.senderLink, flit.linkSeq)
  if 24 ≤ link || !flit.crcOk || s.accepted.contains key || s.retiredPorts.contains link then .next s
  else
    let s := { s with accepted := (key :: s.accepted).take 65536 }
    match endDetours s flit.packet.detours with
    | none => .next s
    | some (detours, s) =>
      let p := { flit.packet with detours := detours }
      let s := if p.body = .notice then noteNotice s link p.ctx p.ch p.step else s
      match (if detours.isEmpty then packetEntry p else none) with
      | some (tag, v) =>
        let s := match tag with
          | .chan ctx ch step _ _ _ => noteReached s ctx ch step v.op
          | .handle _ _ _ _ => s
        .next (arrive s ⟨.port link, tag, v, s.clk, 0, 0, p.route, p.back, false, some (p.src, p.seq), false⟩)
      | none => .next (enterSwitch s link p)

/-- The unacknowledged packets of a link are re-sent along its detour, or dropped where it has none; how many the receiver has
acknowledged is a free choice; a re-sent packet carries the failed link's number and its sequence there (R257).
[DESIGN CHOICE: log entry 76] -/
def resendLink (s : State) (link : Nat) : State :=
  let mine := s.unacked.filter fun x => x.1 = link
  let (x, s) := s.draw
  let lost := mine.drop (x.toNat % (mine.length + 1))
  let s := { s with unacked := s.unacked.filter fun x => x.1 ≠ link }
  let word := (tgetD link 0 s.detours).toNat
  match routeTurns word with
  | [] => lost.foldl (fun s x => routeFault s x.2.2) s
  | t :: ts => lost.foldl (fun s x =>
    let p := x.2.2
    if turnBad s t.toNat (ts.isEmpty && p.route.isEmpty) then routeFault s p
    else sendOnLink s t.toNat { p with
      route := ts ++ p.route, also := p.also.map (ts ++ ·)
      detours := ⟨Config.packageNumber, link, x.2.1, ts.length + 1⟩ :: p.detours }) s

/-- LINK_FAILURE. [DESIGN CHOICE: log entry 76] -/
def execLinkFailure (link : Nat) (s : State) : Host.Outcome State Fault Refusal :=
  if 24 ≤ link then .next s else .next (resendLink s link)

/-- A switch port is retired in the field: a drift port's unacknowledged packets take its detour; packets that turn to a retired port are
dropped (R16, R255, R257). -/
def retirePort (s : State) (port : Nat) : State :=
  if 30 ≤ port || s.retiredPorts.contains port then s
  else
    let s := { s with retiredPorts := port :: s.retiredPorts }
    if port < 24 then resendLink s port else s

/-- DRIFT_LINK_RETIRE: the port of a drift link is retired (R257, R317). -/
def execDriftLinkRetire (port : Nat) (s : State) : Host.Outcome State Fault Refusal :=
  if 24 ≤ port then .next s else .next (retirePort s port)

end Sys2Proof.Machine
end

