-- ==== Sys2Proof/Machine/Pipeline.lean ====
section
/-! DEFINITION. The pipeline words: NREC, BWPUSH and WVER (spec/17_ops_engines.md R239 to R241; spec/21_pipelines_training.md
R264, R274, R275). -/

namespace Sys2Proof.Machine

/-! ## Relay records (R239, R264, R265) -/

/-- The relay of a thread's launch whose descriptor lies at an address. -/
def relayAt (s : State) (t : Thread) (va : Nat) : Option Relay :=
  (((tget t.launch s.launches).map (·.relays)).getD []).find? fun r => r.desc = va

/-- One member's record: v0 to v3 of a new relay thread. -/
def emitRecord (w : RWord) (s : State) (k : Nat) : State :=
  match tget k s.threads with
  | none => s
  | some t =>
    match relayAt s t (src64 s t w.a) with
    | none => takeTrap0 s k 0x03
    | some r =>
      let regs := (List.range 4).map fun i => (i, readReg s t (w.b.toNat + i))
      createChild (countRelease (escape s k) k 4) k t r.k r.k.entry r.batch r.btmo w.ctr true regs

/-- NREC: after its release at .dev each member emits its record. -/
def execNrec (w : RWord) (s : State) : Host.Outcome State Fault Refusal :=
  issueWord (.nrec w) 0 w.ctr (fun s u => fenceHold s u || releaseHold (.nrec w) 4 s u)
    (fun s _ active => (memberOrder s active).foldl (emitRecord w) s) (escapeFirst (.nrec w) true s)

/-! ## Backward launch records (R240) -/

/-- The 64-byte record of a posting group. -/
def backwardRecord (desc arg launch team group : Nat) : List Byte :=
  leBytes 8 desc ++ leBytes 8 arg ++ leBytes 8 launch ++ leBytes 8 team ++ leBytes 4 group ++ List.replicate 28 0

/-- BWPUSH of one group: the winze controller stages its record, so the counter rises and falls in one step. -/
def pushRecord (w : RWord) (ms : List Nat) (_ : Nat) (t : Thread) (_ : Unit) (s : State) (_ : Issuing) : State :=
  let team := ((tget t.team s.teams).map (·.index)).getD 0
  let record := backwardRecord (src64 s t w.a) (src64 s t w.b) (launchIdOf s t) team t.srGroup
  let s := ms.foldl (fun s k => countRelease (escape s k) k 4) s
  s.onLaunch t.launch fun l => { l with staged := l.staged ++ [(team, t.srGroup, record)] }

/-- BWPUSH. -/
def execBwpush (w : RWord) (s : State) : Host.Outcome State Fault Refusal :=
  commandWord (.bwpush w) w.ctr none (fun _ _ _ => .ok ()) (fun _ _ _ => true) (releaseHold (.bwpush w) 4) (pushRecord w)
    (escapeFirst (.bwpush w) true s)

/-! ## Weight versions (R241, R274, R275) -/

/-- An entry of a context's version table. -/
structure VersionEntry where
  win : Nat
  len : Nat
  vb : Nat
  stride : Nat
  newest : Nat
  isOpen : Bool
  /-- every reserved field is zero -/
  clean : Bool
  deriving DecidableEq, Repr

/-- A version-table entry read through the context (R274). -/
def readVersionEntry (s : State) (ctx ch : Nat) : Option VersionEntry :=
  let vtab := ((tget ctx s.contexts).map (·.desc.vtab)).getD 0
  (ctxRead s ctx (low 64 (vtab + 64 * ch)) 64).map fun bs =>
    let q (n : Nat) : Nat := leValue ((bs.drop (8 * n)).take 8)
    ⟨q 0, q 1, q 2, q 3, bits (q 4) 32 32, bit (q 4) 0, bits (q 4) 1 31 = 0 && q 5 = 0 && q 6 = 0 && q 7 = 0⟩

/-- Whether a version is held (R274). -/
def VersionEntry.holds (e : VersionEntry) (v : Nat) : Bool := e.newest - 3 ≤ v && v ≤ e.newest

/-- One member's selection; a channel that is not open or a version not held leaves the selection as it was. -/
def selectVersion (w : RWord) (s : State) (k : Nat) : State :=
  match tget k s.threads with
  | none => s
  | some t =>
    let ch := bits w.c.toNat 0 3
    let v := src32 s t w.a
    match readVersionEntry s t.ctx ch with
    | none => takeTrap0 (walksNoted s t.ctx (((tget t.ctx s.contexts).map (·.desc.vtab)).getD 0 + 64 * ch) 64) k 0x03
    | some e =>
      if !e.isOpen || !e.holds v then takeTrap0 s k 0x03
      else
        let sel : VersionSel := ⟨ch, e.win, e.len, low 64 (e.vb + v % 4 * e.stride), v⟩
        acquireFor ((escape s k).onThread k fun t => { t with versions := sel :: t.versions.filter (·.ch ≠ ch) }) k (coreOf s t) 4

/-- The value that sr.version of a member takes, if its selection is made. -/
def versionWrites (w : RWord) (s : State) (k : Nat) : List RegWrite :=
  match tget k s.threads with
  | none => []
  | some t => if t.state = .trapped then [] else [.version k (src32 s t w.a)]

/-- WVER: words that issue afterwards use the selection; sr.version reads it after the fixed latency of 2. -/
def execWver (w : RWord) (s : State) : Host.Outcome State Fault Refusal :=
  issueWord (.wver w) 2 7 fenceHold (fun s u active =>
    let s := (memberOrder s active).foldl (selectVersion w) s
    queueFixed s u 2 (active.flatMap (versionWrites w s))) s

end Sys2Proof.Machine
end

