-- ==== Sys2Proof/Machine/Placement.lean ====
section
/-! DEFINITION. Kernel descriptors, the curve of clusters, and the placing of teams and groups on cores (spec/05_execution.md
R46, R49, R51 to R54, R59, R64, R68, R70; spec/11_encoding.md R153; spec/07_memory.md R83). -/

namespace Sys2Proof.Machine

/-! ## Kernel descriptors (R46, R153) -/

/-- The descriptor that 64 bytes hold. -/
def KDesc.decode (bs : List Byte) : KDesc :=
  let q (n : Nat) : Nat := leValue ((bs.drop (8 * n)).take 8)
  { entry := q 0, code := q 1, cmap := q 2, codeLen := bits (q 3) 32 32, scratch := bits (q 3) 0 32
    t := bits (q 4) 32 16, regs := bits (q 4) 14 9, wsel := bits (q 4) 12 2, prog := bits (q 4) 6 2, det := bit (q 4) 5
    ckpt := bit (q 4) 4, replay := bit (q 4) 3, prio := bits (q 4) 0 3
    pair := bit (q 5) 15, cx := bits (q 5) 0 5, cy := bits (q 5) 5 5, cz := bits (q 5) 10 5
    x := bits (q 6) 0 31, y := bits (q 6) 32 16, z := bits (q 6) 48 16
    clean := bits (q 4) 48 16 = 0 && bits (q 4) 23 9 = 0 && bits (q 4) 8 4 = 0 && bits (q 5) 16 48 = 0 && !bit (q 6) 31
      && q 7 = 0 }

/-- Whether each team takes a core pair (R53). -/
def KDesc.onPair (k : KDesc) : Bool := k.pair || 2048 < k.t

/-- An extent of the cluster shape divides its grid extent. -/
def extentOk (c n : Nat) : Bool := 1 ≤ c && c ≤ 16 && 1 ≤ n && n % c = 0

/-- The limits of R46 and the codes of R153; CODE_LEN has none of its own. [DESIGN CHOICE: log entry 123] -/
def KDesc.valid (k : KDesc) : Bool :=
  k.clean && k.wsel ≠ 3 && k.prog ≠ 3 && 8 ≤ k.regs && k.regs ≤ 384 && k.regs % 8 = 0 && 1 ≤ k.t && k.t ≤ 4096
    && k.t ≤ 64 * k.width && k.scratch % 256 = 0 && k.scratch ≤ (if k.onPair then 0x100000 else 0x80000)
    && extentOk k.cx k.x && extentOk k.cy k.y && extentOk k.cz k.z && clusterSize k ≤ 16

/-- A descriptor read through a context; none where it cannot be read or breaks a limit.
[DEDUCED: log entry 79; DEDUCED: log entry 82] -/
def readKDesc (s : State) (ctx va : Nat) : Option KDesc :=
  if va % 64 ≠ 0 then none
  else ((ctxRead s ctx va 64).map KDesc.decode).filter KDesc.valid

/-- Groups of a team, and present members of group g (R49). -/
def KDesc.groups (k : KDesc) : Nat := ceilDiv k.t k.width
def KDesc.members (k : KDesc) (g : Nat) : Nat := min k.width (k.t - g * k.width)

/-! ## The curve (R52) -/

/-- hilbert_index from bit j - 1 of the coordinates down. -/
def hilbertFrom (n : Nat) : Nat → Nat → Nat → Nat → Nat
  | 0, _, _, d => d
  | j + 1, x, y, d =>
    let rx := x / 2 ^ j % 2
    let ry := y / 2 ^ j % 2
    let d := d + 2 ^ j * 2 ^ j * ((3 * rx) ^^^ ry)
    if ry = 0 then
      if rx = 1 then hilbertFrom n j (n - 1 - y) (n - 1 - x) d else hilbertFrom n j y x d
    else hilbertFrom n j x y d

/-- hilbert_index(x, y, k). -/
def hilbertIndex (x y k : Nat) : Nat := hilbertFrom (2 ^ k) k x y 0

/-- The clusters of one z layer in ascending curve key. -/
def layerOrder (nx ny : Nat) : List (Nat × Nat) :=
  let k := ceilLog2 (max nx ny)
  sortBy (fun a b => hilbertIndex a.1 a.2 k ≤ hilbertIndex b.1 b.2 k)
    ((List.range ny).flatMap fun y => (List.range nx).map fun x => (x, y))

/-- The teams of the cluster at place p of the curve, in ascending cluster-local index, by sr.team (R45, R52). -/
def clusterTeams (k : KDesc) (p : Nat) : List Nat :=
  let nx := k.x / k.cx
  let ny := k.y / k.cy
  match (layerOrder nx ny)[p % (nx * ny)]? with
  | none => []
  | some (cx, cy) =>
    let cz := p / (nx * ny)
    (List.range k.cz).flatMap fun c => (List.range k.cy).flatMap fun b => (List.range k.cx).map fun a =>
      cx * k.cx + a + k.x * (cy * k.cy + b + k.y * (cz * k.cz + c))

/-! ## Room on a core (R54, R70) -/

/-- The lowest free team slot of a core. -/
def freeTeamSlot (s : State) (core : Nat) : Option Nat :=
  (List.range 64).find? fun i => !((teamsOn s core).any fun t => t.2.2.1 = i)

/-- Bytes of scratchpad that a team takes on each of its cores. -/
def Team.share (t : Team) : Nat := t.scratch / max 1 t.cores.length

/-- The lowest run of free scratchpad on a core. [DEDUCED: log entry 37] -/
def freeScratch (s : State) (core n : Nat) : Option Nat :=
  let used := (teamsOn s core).map fun t => (t.2.2.2, t.2.2.2 + t.2.1.share)
  let fits (b : Nat) : Bool := b + n ≤ 0x80000 && used.all fun u => b + n ≤ u.1 || u.2 ≤ b || n = 0
  (((0 :: used.map (·.2)).filter fits).foldl (fun m b => match m with
    | some x => some (min x b)
    | none => some b) (none : Option Nat))

/-- Threads that hold a position in a slot of a bay: one for each group whose range covers it. -/
def slotUse (s : State) (core bay slot : Nat) : Nat :=
  (s.groups.filter fun e => e.2.core = core && e.2.bay = bay && e.2.state ≠ .saved && e.2.slot0 ≤ slot
    && slot < e.2.slot0 + e.2.width).length

/-- Where a group of a width with a number of registers goes on a core: bay, first slot, first row. -/
def groupPlace (s : State) (core width regs : Nat) : Option (Nat × Nat × Nat) :=
  (List.range 8).findSome? fun bay => (List.range (64 / width)).findSome? fun i =>
    let slot0 := i * width
    if (List.range width).all fun j => slotUse s core bay (slot0 + j) < 8 then
      (freeRun s core bay slot0 width (regs / 8)).map fun row => (bay, slot0, row)
    else none

/-- Whether a core may hold teams of a context at all: enabled, not frozen nor being retired, not held for a residual window, and
with no team of another context (R122, R308, R310). -/
def coreUsable (s : State) (ctx core : Nat) : Bool :=
  coreEnabled s core && !(s.core core).frozen && !s.retiring.contains (quadOfCore core)
    && !(s.residual.any fun r => r.cores.contains core) && (teamsOn s core).all fun t => t.2.1.ctx = ctx

/-- The lowest group slot without a record (R74). [DEDUCED: log entry 37] -/
def freeGroupSlot (s : State) (core : Nat) : Nat :=
  ((List.range 256).find? fun i => !((groupsOn s core).any fun g => g.2.slot = i)).getD 255

/-! ## Launching a group (R47, R59, R64) -/

/-- Free values for registers 0 to n - 1. [DEDUCED: log entry 38] -/
def freeRegs (s : State) (n : Nat) : List (Nat × Word32) × State :=
  ((List.range n).map fun i => (i, BitVec.ofNat 32 (Config.freeWord (s.draws + i)).toNat), { s with draws := s.draws + n })

/-- The place of a group among those that launch on one core on one clk: groups formed in cages by cage number, then groups of grid
launches by team slot and group index (R59). -/
def launchRank (s : State) (g : Group) : Nat × Nat × Nat :=
  match g.cage with
  | some n => (0, n, 0)
  | none => (1, ((tget g.team s.teams).map fun t => teamSlot t g.core).getD 0, g.index)

/-- The groups launched on a core on this clk take their launch numbers in the order of R59. -/
def numberLaunches (s : State) (core : Nat) : State :=
  let now := s.groups.filter fun e => e.2.core = core && e.2.born = s.clk && e.2.state ≠ .saved
  let before (a b : Nat × Nat × Nat) : Bool := a.1 < b.1 || (a.1 = b.1 && (a.2.1 < b.2.1 || (a.2.1 = b.2.1 && a.2.2 ≤ b.2.2)))
  let order := sortBy (fun a b => before (launchRank s a.2) (launchRank s b.2)) now
  let numbers := sortBy (fun a b => a ≤ b) (now.map fun e => e.2.launchNo)
  (order.zip numbers).foldl (fun s x => s.onGroup x.1.1 fun g => { g with launchNo := x.2 }) s

/-- A group becomes resident with the given threads as members 0, 1, ... in the place found for it; they are READY at their
entry. [DEDUCED: log entry 38] -/
def startGroup (s : State) (team index : Nat) (cage : Option Nat) (core : Nat) (place : Nat × Nat × Nat) (k : KDesc)
    (members : List Nat) : State :=
  match tget team s.teams with
  | none => s
  | some tm =>
    let (uni, s) := freeRegs s 64
    let (key, s) := s.fresh
    let n := (s.core core).nextLaunch
    let g : Group :=
      { ctx := tm.ctx, launch := tm.launch, team := team, core := core, bay := place.1, width := k.width, slot0 := place.2.1
        index := index, launchNo := n, born := s.clk, cage := cage, slot := freeGroupSlot s core, state := .resident, live := 2 ^ members.length - 1
        uni := uni, segs := [⟨0, place.2.2, k.regs⟩], cfg := MatrixCfg.reset, claim := none, k := k }
    let s := (s.onCore core fun c => { c with nextLaunch := n + 1 })
    let s := clearRows s core place.1 place.2.1 k.width place.2.2 k.regs
    let s := numberLaunches { s with groups := tset key g s.groups } core
    let s := s.onTeam team fun t => { t with state := if t.state = .placed then .running else t.state }
    let s := s.onLaunch tm.launch fun l => { l with firstGroup := some (l.firstGroup.getD s.clk) }
    (members.zip (List.range members.length)).foldl (fun s m =>
      let s := s.onThread m.1 fun t => { t with group := some key, member := m.2 }
      makeReady s m.1 (((tget m.1 s.threads).map (·.pc)).getD 0)) s

/-- The registers that a thread of a grid launch starts with: those of a backward record, rest zero (R272), or free values.
[DEDUCED: log entry 38] -/
def startRegs (s : State) (l : Launch) (x : Nat) : List (Nat × Word32) × State :=
  match l.kind with
  | .backward rs =>
    match rs[x]? with
    | some (arg, launch, team, group) =>
      let pairs (v : Nat) : List Word32 := [BitVec.ofNat 32 v, BitVec.ofNat 32 (v / 2 ^ 32)]
      ((List.range 7).zip (pairs arg ++ pairs launch ++ pairs team ++ [BitVec.ofNat 32 group]), s)
    | none => ([], s)
  | _ => freeRegs s l.k.regs

/-- A thread of a grid launch is created (R45); its predicates are free values. [DEDUCED: log entry 38] -/
def createGridThread (s : State) (launch team g m : Nat) (l : Launch) (index : Nat) : Nat × State :=
  let (key, s) := s.fresh
  let (regs, s) := startRegs s l index
  let (p, s) := s.draw
  let tid := low 64 (index * l.k.t + g * l.k.width + m)
  let t := newThread l.ctx launch team tid g l.sys false false l.k.entry regs
  (key, { s with threads := tset key { t with preds := BitVec.ofNat 8 p.toNat } s.threads })

/-- Group g of a team launches on a core; none where it has no place. [DEDUCED: log entry 36] -/
def launchGridGroup (launch team index : Nat) (l : Launch) (cores : List Nat) (acc : Option State) (g : Nat) : Option State :=
  acc.bind fun s =>
    match cores[g % max 1 cores.length]? with
    | none => none
    | some core =>
      (groupPlace s core l.k.width l.k.regs).map fun place =>
        let (ms, s) := (List.range (l.k.members g)).foldl (fun (acc : List Nat × State) m =>
          let (key, s) := createGridThread acc.2 launch team g m l index
          (acc.1 ++ [key], s)) ([], s)
        startGroup s team g none core place l.k ms

/-! ## Placing teams and clusters (R52 to R54) -/

/-- The cores a team may take on a die, in logical order: single cores, or pairs. -/
def coreChoices (k : KDesc) (die : Nat) : List (List Nat) :=
  if k.onPair then (List.range 72).map fun i => [die * coresPerDie + 2 * i, die * coresPerDie + 2 * i + 1]
  else (List.range 144).map fun i => [die * coresPerDie + i]

/-- The full-empty bits of an allocation set empty (R83). -/
def emptyGranules (s : State) (core base n : Nat) : State :=
  { s with full := s.full.filter fun g => !(onchipPa core base ≤ g && g < onchipPa core (base + n)) }

/-- A team record on cores, with its slots and scratchpad; none where one of them lacks room. [DEDUCED: log entry 37] -/
def seatTeam (s : State) (ctx : Nat) (k : KDesc) (cores : List Nat) : Option (List (Nat × Nat × Nat)) :=
  cores.foldl (fun acc core => acc.bind fun xs =>
    if !coreUsable s ctx core then none
    else match freeTeamSlot s core, freeScratch s core (k.scratch / cores.length) with
      | some slot, some base => some (xs ++ [(core, slot, base)])
      | _, _ => none) (some [])

/-- A new team (R64, R68, R122). -/
def newTeam (ctx launch index cluster : Nat) (numbering : List Nat) (k : KDesc) (seats : List (Nat × Nat × Nat))
    (replay : Option Nat) : Team where
  ctx := ctx
  launch := launch
  index := index
  cluster := cluster
  numbering := numbering
  state := .placed
  cores := seats
  scratch := k.scratch
  barriers := (List.range 32).map fun b => (b, { Barrier.reset with texp := k.t })
  useMask := 0
  releases := 0
  image := none
  saved := none
  interval := none
  replay := replay

/-- A team placed on cores with its groups launched; none where it does not fit whole (R49, R51, R54).
[DEDUCED: log entry 36] -/
def placeTeam (s : State) (launch index cluster : Nat) (l : Launch) (cores : List Nat) : Option State :=
  (seatTeam s l.ctx l.k cores).bind fun seats =>
    let (key, s) := s.fresh
    let replay := match l.kind with
      | .replay n => some n
      | _ => none
    let s := { s with teams := tset key (newTeam l.ctx launch index cluster l.numbering l.k seats replay) s.teams }
    let s := seats.foldl (fun s c => emptyGranules s c.1 c.2.2 (l.k.scratch / cores.length)) s
    (List.range l.k.groups).foldl (launchGridGroup launch key index l cores) (some s)

/-- One team of a cluster goes to the lowest core, or pair, of a die that can hold it. -/
def placeOnDie (launch cluster : Nat) (l : Launch) (die : Nat) (acc : Option State) (index : Nat) : Option State :=
  acc.bind fun s => (coreChoices l.k die).findSome? fun cores => placeTeam s launch index cluster l cores

/-- The cluster at a place of the curve, on the first of the dies that holds all of it. -/
def placeCluster (s : State) (launch : Nat) (l : Launch) (dies : List Nat) (p : Nat) : Option State :=
  dies.findSome? fun die => (clusterTeams l.k p).foldl (placeOnDie launch p l die) (some s)

/-- Clusters from a place on, while each finds room; the count placed. -/
def placeClusters (launch : Nat) (l : Launch) (dies : List Nat) : Nat → State → Nat → State × Nat
  | 0, s, p => (s, p)
  | n + 1, s, p => match placeCluster s launch l dies p with
    | some s => placeClusters launch l dies n s (p + 1)
    | none => (s, p)

/-- The dies open to a context, ascending. -/
def openDies (s : State) (ctx : Nat) : List Nat :=
  (List.range 4).filter (bit (((tget ctx s.contexts).map (·.desc.dies)).getD 0))

/-- The package with no launch on it, on which capacity is reckoned (R51). -/
def emptied (s : State) : State := { s with groups := [], teams := [], threads := [], residual := [] }

/-- Whether no die of the package could ever hold a cluster of a launch (R52). -/
def clusterTooLarge (s : State) (launch : Nat) (l : Launch) : Bool :=
  (placeCluster (emptied s) launch l [0, 1, 2, 3] 0).isNone

/-- Whether the grid exceeds its context's capacity (R51). -/
def beyondCapacity (s : State) (launch : Nat) (l : Launch) : Bool :=
  (placeClusters launch l (openDies s l.ctx) (clusterCount l.k) (emptied s) 0).2 < clusterCount l.k

/-- The cores that clusters from a place on would take on an empty package (R304). -/
def coresFor (s : State) (launch : Nat) (l : Launch) (p n : Nat) : Nat :=
  let s' := (placeClusters launch l (openDies s l.ctx) n (emptied s) p).1
  ((s'.teams.flatMap fun t => t.2.cores.map (·.1)).eraseDups).length

end Sys2Proof.Machine
end

