-- ==== Sys2Proof/Machine/Admit.lean ====
section
/-! DEFINITION. Context slots, launch records and their admission, the placing of waiting clusters, and completion
(spec/27_host_startup.md R324 to R328, R331; spec/05_execution.md R51, R52; spec/19_reductions_fabric.md R245, R246, R253, R259;
spec/21_pipelines_training.md R264, R274; spec/25_faults_reliability.md R296, R299, R304, R318). -/

namespace Sys2Proof.Machine

/-! ## Physical reads and writes of the scheduler -/

/-- An 8-byte word of HBM at a physical address, at .dev; zero beyond what the scheduler reaches.
[DEDUCED: log entry 104] -/
def paWord (s : State) (pa : Nat) : Nat := if deviceReaches s pa 8 then leValue ((addrs pa 8).map (homeByte s)) else 0

/-- Bytes written at physical addresses of HBM that the scheduler reaches. [DEDUCED: log entry 104] -/
def paWrite (s : State) (pa : Nat) (bs : List Byte) : State := if deviceReaches s pa bs.length then storeHome s pa bs else s

/-! ## Launch records (R326) -/

/-- A launch record. -/
structure LaunchRec where
  kdesc : Nat
  hlist : Nat
  nrelay : Nat
  nh : Nat
  rtab : Nat
  assay : Nat
  sys : Bool
  lid : Nat
  /-- every field shown as zero is zero -/
  clean : Bool
  deriving DecidableEq, Repr

/-- The physical address of record k of a context's queue. -/
def recordPa (c : Context) (k : Nat) : Nat := c.qbase + 64 * (k % 2 ^ c.qlog)

/-- Record k of a context's queue. -/
def readRecord (s : State) (c : Context) (k : Nat) : LaunchRec :=
  let q (n : Nat) : Nat := paWord s (recordPa c k + 8 * n)
  { kdesc := q 0, hlist := q 1, nrelay := bits (q 2) 16 8, nh := bits (q 2) 0 16, rtab := q 3, assay := q 4
    sys := bit (q 5) 8, lid := q 6, clean := q 2 / 2 ^ 24 = 0 && q 5 / 2 ^ 9 = 0 && q 7 = 0 && deviceReaches s (recordPa c k) 64 }

/-! ## Structures read at admission (R331) -/

/-- One entry of a relay table with its descriptor; none where a check of R264 fails. -/
def readRelay (s : State) (ctx : Nat) (k : KDesc) (va : Nat) : Option Relay :=
  (ctxRead s ctx va 16).bind fun bs =>
    let desc := leValue (bs.take 8)
    let w := leValue (bs.drop 8)
    let batch := bits w 0 7
    let btmo := bits w 32 16
    (readKDesc s ctx desc).bind fun r =>
      if w / 2 ^ 48 = 0 && bits w 7 25 = 0 && 1 ≤ batch && batch ≤ r.width && (btmo = 0 || 16 ≤ btmo)
          && r.prog = k.prog && r.det = k.det && r.ckpt = k.ckpt && r.replay = k.replay && r.prio = k.prio
          && r.scratch = 0 && !r.pair && r.cx = 1 && r.cy = 1 && r.cz = 1 then
        some ⟨desc, batch, btmo, r⟩
      else none

/-- A relay table; no two entries name one descriptor. -/
def readRelays (s : State) (ctx : Nat) (k : KDesc) (rtab n : Nat) : Option (List Relay) :=
  ((List.range n).foldl (fun acc i => acc.bind fun rs =>
    (readRelay s ctx k (low 64 (rtab + 16 * i))).map fun r => rs ++ [r]) (some [])).filter fun (rs : List Relay) =>
      (rs.map (·.desc)).eraseDups.length = rs.length

/-- The assay block (R326). -/
def readAssay (s : State) (ctx va : Nat) : Option Assay :=
  (ctxRead s ctx va 0x58).map fun bs =>
    let q (n : Nat) : Nat := leValue ((bs.drop (8 * n)).take 8)
    ⟨(List.range 4).filterMap fun i => if q (2 * i + 1) = 0 then none else some (q (2 * i), q (2 * i + 1)), q 8, q 9, q 10⟩

/-- A handle-table entry, and whether its reserved fields are zero (R245). [DEDUCED: log entry 80] -/
def readHandle (s : State) (ctx launch h : Nat) : Option (Handle × Nat × Bool) :=
  let htab := ((tget ctx s.contexts).map (·.desc.htab)).getD 0
  (ctxRead s ctx (low 64 (htab + 64 * h)) 64).map fun bs =>
    let q (n : Nat) : Nat := leValue ((bs.drop (8 * n)).take 8)
    ({ launch := launch, dest := q 0, doneVa := q 1, sump := q 2, sumpLen := q 3, deadline := bits (q 4) 32 32
       nm1 := bits (q 4) 0 32, route := BitVec.ofNat 64 (q 5), chold := bits (q 6) 48 16, plog := bits (q 6) 32 8
       prank := bits (q 6) 16 16, squota := bits (q 7) 15 9, cquota := bits (q 7) 8 7, root := bit (q 7) 7
       dfmt := bits (q 7) 5 2, pairNodes := bit (q 7) 4, state := 1, spilling := [] },
      bits (q 6) 0 16, bits (q 6) 40 8 = 0 && bits (q 7) 24 40 = 0 && bits (q 7) 0 2 = 0)

/-- Whether every page of a range of a context translates with the given permissions (R246, R259). -/
def rangeAllowed (s : State) (ctx va n : Nat) (rd wr : Bool) : Bool :=
  match resolveRange s (firstDie s ctx) ctx 0 ⟨rd, wr, false, true⟩ (pieceFuel n) va n with
  | .ok _ => true
  | .error _ => false

/-- The width of DEST in bytes (R246). -/
def Handle.destWidth (h : Handle) : Nat := if h.dfmt = 0 then 4 else 8

/-- The checks of a handle entry at admission (R246). `n1` is NPKGM1. [DEDUCED: log entry 79] -/
def handleOk (s : State) (ctx : Nat) (h : Handle) (n1 : Nat) (clean : Bool) : Bool :=
  let n := h.nm1 + 1
  h.plog ≤ h.levels && n1 + 1 ≤ 2 ^ (h.levels - h.plog) && n1 * 2 ^ h.plog < n && n ≤ (n1 + 1) * 2 ^ h.plog && h.prank ≤ n1
    && (if h.root then
          h.route = 0 && h.dest % h.destWidth = 0 && rangeAllowed s ctx h.dest h.destWidth false true
            && h.doneVa % 8 = 0 && rangeAllowed s ctx h.doneVa 8 true true
        else h.dest = 0 && h.doneVa = 0 && routeLegal h.route.toNat)
    && h.dfmt ≠ 3 && !(h.dfmt = 1 && !h.pairNodes) && 1 ≤ h.squota && h.squota ≤ 256 && h.cquota ≤ 64 && clean
    && sumpSize h ≤ h.sumpLen && rangeAllowed s ctx h.sump h.sumpLen true true

/-- The handle numbers of a record; none where the list cannot be read. [DEDUCED: log entry 79] -/
def readHandleList (s : State) (ctx : Nat) (r : LaunchRec) : Option (List Nat) :=
  (ctxRead s ctx r.hlist (2 * r.nh)).map fun bs => (List.range r.nh).map fun i => leValue ((bs.drop (2 * i)).take 2)

/-- The handles of a record, each checked. -/
def readHandles (s : State) (ctx launch : Nat) (r : LaunchRec) : Option (List (Nat × Handle)) :=
  (readHandleList s ctx r).bind fun hs =>
    hs.foldl (fun acc h => acc.bind fun xs =>
      if 1024 ≤ h then none
      else match readHandle s ctx launch h with
        | some (hd, n1, clean) => if handleOk s ctx hd n1 clean then some (xs ++ [(h, hd)]) else none
        | none => none) (some [])

/-- The checks of an open channel entry at admission (R259). -/
def channelOk (s : State) (ctx : Nat) (c : Channel) (clean : Bool) : Bool :=
  c.fmt ≤ 3 && clean && (if c.fmt = 3 then 1 ≤ c.d else c.d = 0) && (c.grad || (c.deadline = 0 && !c.mean))
    && (!c.mean || c.fmt = 1 || c.fmt = 2) && (!c.replayM || c.memb ≠ 0) && c.mlog ≤ 20
    && c.nelem ≠ 0 && rangeAllowed s ctx c.buf c.bytes true true && c.flag % 8 = 0 && rangeAllowed s ctx c.flag 8 true true
    && (c.fmt = 0 ||
      (if c.isRoot then
        c.route = 0 && c.sumpSize ≤ c.sumpLen
          && (c.memb = 0 || rangeAllowed s ctx c.memb (2 ^ c.mlog * (16 + ceilDiv (c.nm1 + 1) 128 * 16)) true true)
      else routeLegal c.route.toNat && c.sump = 0 && c.sumpLen = 0 && c.memb = 0))

/-- Every channel entry of a context can be read, and each open one passes (R259, R331). [DEDUCED: log entry 80] -/
def channelsOk (s : State) (ctx : Nat) : Bool :=
  (List.range 4096).all fun ch => match readChannel s ctx ch with
    | some (c, clean) => !c.isOpen || channelOk s ctx c clean
    | none => false

/-- The limits of an open version channel (R274). -/
def VersionEntry.ok (e : VersionEntry) : Bool :=
  e.clean && e.win % 65536 = 0 && e.len % 65536 = 0 && 65536 ≤ e.len && e.len ≤ 2 ^ 40 && e.vb % 65536 = 0
    && e.stride % 65536 = 0 && e.len ≤ e.stride

/-- The windows of the open version channels; none where an entry cannot be read, breaks a limit, or overlaps (R274, R331).
[DEDUCED: log entry 80; DEDUCED: log entry 81] -/
def readWindows (s : State) (ctx : Nat) : Option (List (Nat × Nat × Nat)) :=
  (List.range 8).foldl (fun acc ch => acc.bind fun ws =>
    match readVersionEntry s ctx ch with
    | none => none
    | some e =>
      if !e.isOpen then some ws
      else if !e.ok || ws.any fun w => w.2.1 < e.win + e.len && e.win < w.2.1 + w.2.2 then none
      else some (ws ++ [(ch, e.win, e.len)])) (some [])

/-! ## The checks of a record, in the order of R331 -/

/-- A launch as admission has checked it, with the handles it opens; or the status it completes with.
[DEDUCED: log entry 79] -/
def checkRecord (s : State) (ctx key : Nat) (c : Context) (k : Nat) : Except Nat (Launch × List (Nat × Handle)) :=
  let r := readRecord s c k
  if !r.clean || 1024 < r.nh || 64 < r.nrelay || (r.sys && !c.desc.sysl) || bit r.lid 63 then .error 2
  else match readKDesc s ctx r.kdesc with
    | none => .error 2
    | some kd => match (if r.nrelay = 0 then some [] else readRelays s ctx kd r.rtab r.nrelay) with
      | none => .error 2
      | some relays => match (if r.assay = 0 then some none else (readAssay s ctx r.assay).map some) with
        | none => .error 2
        | some assay => match readHandles s ctx key r with
          | none => .error 5
          | some hs =>
            if !channelsOk s ctx then .error 9
            else match readWindows s ctx with
              | none => .error 6
              | some windows =>
                if r.lid ≠ 0 && s.launches.any fun e => e.2.ctx = ctx && e.2.id = r.lid && e.2.status = none then .error 10
                else
                  let l : Launch :=
                    { ctx := ctx, id := r.lid, kind := .queued k, k := kd, sys := r.sys, order := key, numbering := s.retiredQuads, relays := relays
                      handles := hs.map (·.1), assay := assay, placed := 0, finished := [], retired := 0, firstGroup := none
                      lastIssue := s.clk, reported := 0, staged := [], status := none, residual := none, windows := windows, unsampled := [] }
                  if clusterTooLarge s key l then .error 4
                  else if kd.prog = 0 && beyondCapacity s key l then .error 3
                  else .ok (l, hs)

/-- The walks to the structures that a refused record names, recorded where they meet poison (R302).
[DEDUCED: log entry 79] -/
def recordNoted (s : State) (ctx : Nat) (c : Context) (k : Nat) : State :=
  let r := readRecord s c k
  let ranges := [(r.kdesc, 64), (r.rtab, 16 * r.nrelay), (r.assay, if r.assay = 0 then 0 else 0x58), (r.hlist, 2 * r.nh),
    (c.desc.htab, 65536), (c.desc.ctab, 524288), (c.desc.vtab, 512)]
  (ranges.filter fun x => x.2 ≠ 0).foldl (fun s x => walksNoted s ctx x.1 x.2) s

/-- The next id of the package's counter: bit 63 set and bit 62 clear (R327). -/
def nextId (s : State) : Nat × State := (2 ^ 63 + low 62 s.idCounter, { s with idCounter := s.idCounter + 1 })

/-! ## Opening handles and locks (R98, R246) -/

/-- Whether a launch has a team that the Assayer samples. -/
def anySampled (s : State) (l : Launch) : Bool :=
  l.assay.isSome && l.k.det && l.k.replay && (List.range (l.k.x * l.k.y * l.k.z)).any (sampled s l)

/-- Context-lock entries that a launch adds on each die. -/
def locksNeeded (s : State) (l : Launch) (hs : List (Nat × Handle)) : Nat :=
  hs.foldl (fun n h => n + (if h.2.root then 2 else 1)) 0 +
    (if anySampled s l then ((l.assay.map (·.inputs.length)).getD 0) else 0)

/-- Room in the context lock list of every die open to the context. -/
def lockRoom (c : Context) (n : Nat) : Bool :=
  (List.range 4).all fun d => !bit c.desc.dies d || (tgetD d [] c.locks).length + n ≤ 4096

/-- HANDLE_OPEN: the directory and the map are zeroed, the entry is open, and its locks are entered (R246). -/
def openHandle (ctx : Nat) (s : State) (x : Nat × Handle) : State :=
  let (h, hd) := x
  let s := ctxStore s ctx (directoryVa hd) (List.replicate (sumpSize hd - 16 * slotCount hd) 0)
  let s := setHandleState { s with handles := tset (handleKey ctx h) hd s.handles } ctx h 1
  let lock (s : State) (va n owner : Nat) : State := enterContextLock s ctx (widen va n).1 (widen va n).2 true owner
  let s := if hd.root then lock s hd.dest hd.destWidth (destOwner h) else s
  lock s hd.sump hd.sumpLen (sumpOwner h)

/-- The input ranges of a sampled launch are read-locked (R318). -/
def lockInputs (s : State) (key : Nat) (l : Launch) : State :=
  match l.assay with
  | none => s
  | some a =>
    if anySampled s l then
      a.inputs.foldl (fun s r => enterContextLock s l.ctx (widen r.1 r.2).1 (widen r.1 r.2).2 false (inputOwner key)) s
    else s

/-! ## Waiting clusters (R51, R52, R307) -/

/-- The priority of a launch: its replay's 0, its handler's, or its context's.
[DEDUCED: log entry 43; DEDUCED: log entry 84] -/
def launchPrio (s : State) (l : Launch) : Nat :=
  match l.kind with
  | .replay _ => 0
  | .handler => l.k.prio
  | _ => ((tget l.ctx s.contexts).map (·.desc.prio)).getD 0

/-- Whether a launch still has clusters to place. -/
def waitsForCores (l : Launch) : Bool :=
  l.status = none && l.placed < clusterCount l.k && (match l.kind with
    | .handler => false
    | .replay _ => false
    | _ => true)

/-- The launches with waiting clusters: highest context priority first, then the one admitted first.
[DEDUCED: log entry 84] -/
def waitingLaunches (s : State) : List (Nat × Launch) :=
  sortBy (fun a b => launchPrio s b.2 < launchPrio s a.2 || (launchPrio s b.2 = launchPrio s a.2 && a.2.order ≤ b.2.order))
    (s.launches.filter fun e => waitsForCores e.2)

/-- Whether cores are kept for a request of a higher priority than a launch's (R51, R304). -/
def outranked (s : State) (l : Launch) : Bool := s.requests.any fun r => launchPrio s l < r.prio

/-- The next clusters of a waiting launch placed: one, or every one of a concurrent grid together (R51).
[DEDUCED: log entry 84] -/
def placeNext (s : State) (key : Nat) (l : Launch) : Option State :=
  let n := if l.k.prog = 0 then clusterCount l.k - l.placed else 1
  let (s, p) := placeClusters key l (openDies s l.ctx) n s l.placed
  if p = l.placed + n then some (s.onLaunch key fun l => { l with placed := p }) else none

/-! ## Admission (R51, R326 to R328) -/

/-- Record k is done with: HEAD moves past it. -/
def advanceHead (s : State) (ctx : Nat) : State :=
  { s.onContext ctx fun c => { c with head := c.head + 1 } with requests := s.requests.filter fun r => r.ctx ≠ some ctx }

/-- A record completes with a status and no thread starts. -/
def refuseRecord (s : State) (ctx : Nat) (c : Context) (k st : Nat) : State :=
  interrupt (paWrite s (recordPa c k + 0x28) [BitVec.ofNat 8 st]) ctx

/-- The first clusters of a grid placed as its class asks: all of a concurrent grid, one of any other. -/
def placeFirst (s : State) (key : Nat) (l : Launch) : Option State :=
  let n := if l.k.prog = 0 then clusterCount l.k else 1
  let s := { s with launches := tset key l s.launches }
  let (s', p) := placeClusters key l (openDies s l.ctx) n s 0
  if p = n then some (s'.onLaunch key fun l => { l with placed := n }) else none

/-- The cores of dies. -/
def dieCores (dies : List Nat) : List Nat := dies.flatMap fun d => (List.range coresPerDie).map fun i => d * coresPerDie + i

/-- A core that is free, or will be once the teams chosen to be saved are (R304). -/
def willBeFree (s : State) (core : Nat) : Bool :=
  coreEnabled s core && !(s.core core).frozen && !s.retiring.contains (quadOfCore core)
    && !(s.residual.any fun r => r.cores.contains core)
    && (teamsOn s core).all fun t => t.2.1.state = .saving || s.victims.contains t.1

/-- The cores of dies that are free, or will be. [DEDUCED: log entry 86] -/
def freeCores (s : State) (dies : List Nat) : Nat := ((dieCores dies).filter (willBeFree s)).length

/-- The cores that all standing requests ask for together (R306). [DEDUCED: log entry 86] -/
def coresWanted (s : State) : Nat := (s.requests.map (·.cores)).sum

/-- The dies that a request takes cores of. -/
def requestDies (s : State) (r : Preempt) : List Nat :=
  match r.ctx with
  | some c => openDies s c
  | none => [0, 1, 2, 3]

/-- The cores of some dies that a standing request asks for: those that its other dies do not give it (R306).
[DEDUCED: log entry 86] -/
def wantedOf (s : State) (dies : List Nat) (r : Preempt) : Nat :=
  if (requestDies s r).any dies.contains then r.cores - freeCores s ((requestDies s r).filter fun d => !dies.contains d) else 0

/-- Whether the cores of some dies that are free, or will be, meet all that the standing requests ask of them (R304, R306).
[DEDUCED: log entry 86] -/
def requestsMet (s : State) (dies : List Nat) : Bool := (s.requests.map (wantedOf s dies)).sum ≤ freeCores s dies

/-- A pre-emption request noted for the cores that a waiting grid lacks, beside the free ones it takes; it grows where they have come
and the grid still does not fit (R51, R304). [DEDUCED: log entry 86] -/
def requestCores (s : State) (key : Nat) (l : Launch) (c : Context) : State :=
  let dies := openDies s l.ctx
  let (s', p) := placeClusters key l dies (clusterCount l.k) s 0
  let lacks := coresFor s key l p (clusterCount l.k - p)
  if s.requests.any fun r => r.ctx = some l.ctx then
    if requestsMet s dies && s.victims.isEmpty && s.teams.all fun e => e.2.state ≠ .saving then
      { s with requests := s.requests.map fun r => if r.ctx = some l.ctx then { r with cores := r.cores + lacks } else r }
    else s
  else
    let takes := (dieCores dies).filter fun core => (teamsOn s core).isEmpty && (teamsOn s' core).any fun t => t.2.1.launch = key
    { s with requests := s.requests ++ [⟨lacks + takes.length, c.desc.prio, some l.ctx⟩] }

/-- Whether a launch must wait for another: cores are kept for a request of a higher priority, or a waiting cluster of an admitted launch
of no lower priority finds room (R51). -/
def mustWait (s : State) (l : Launch) : Bool :=
  outranked s l || (waitingLaunches s).any fun e => launchPrio s l ≤ launchPrio s e.2 && !outranked s e.2 && (placeNext s e.1 e.2).isSome

/-- A launch whose first clusters are placed is admitted: its id is written to LID, its handles open, its locks enter
(R246, R327). -/
def admitLaunch (s : State) (ctx key : Nat) (c : Context) (l : Launch) (hs : List (Nat × Handle)) : State :=
  let s := paWrite s (recordPa c c.head + 0x30) (leBytes 8 l.id)
  let s := hs.foldl (openHandle ctx) s
  advanceHead (lockInputs s key l) ctx

/-- LAUNCH_ADMIT: the record at HEAD is refused, admitted, or waits for lock room or for cores. -/
def execLaunchAdmit (ctx : Nat) (s : State) : Host.Outcome State Fault Refusal :=
  match tget ctx s.contexts with
  | none => .next s
  | some c =>
    if c.state ≠ 1 || c.tail ≤ c.head then .next s
    else
      let (key, s') := s.fresh
      match checkRecord s ctx key c c.head with
      | .error st => .next (advanceHead (refuseRecord (recordNoted s ctx c c.head) ctx c c.head st) ctx)
      | .ok (l, hs) =>
        let (id, s') := if l.id = 0 then nextId s' else (l.id, s')
        let l := { l with id := id }
        if !lockRoom c (locksNeeded s l hs) then .next s
        else
          match (if mustWait s l then none else placeFirst s' key l) with
          | some s' => .next (admitLaunch s' ctx key c l hs)
          | none => .next (if l.k.prog = 0 then requestCores s key l c else s)

/-- QUEUE_DOORBELL: TAIL of an open context, within its limits (R324). -/
def execQueueDoorbell (ctx : Nat) (tail : Word64) (s : State) : Host.Outcome State Fault Refusal :=
  .next (onceReady s fun s => match tget ctx s.contexts with
    | none => s
    | some c =>
      if c.state = 1 && c.head ≤ tail.toNat && tail.toNat ≤ c.head + 2 ^ c.qlog then
        s.onContext ctx fun c => { c with tail := tail.toNat }
      else s)

/-! ## The next cluster (R51) -/

/-- CLUSTER_PLACE: the next cluster of the first waiting launch that finds room. -/
def execClusterPlace (s : State) : Host.Outcome State Fault Refusal :=
  match (waitingLaunches s).findSome? fun e => if outranked s e.2 then none else placeNext s e.1 e.2 with
  | some s => .next s
  | none => .next s

/-! ## Contexts (R324, R325) -/

/-- The descriptor at a physical address, and whether it passes R325. -/
def readCtxDesc (s : State) (pa : Nat) : CtxDesc × Bool :=
  let q (n : Nat) : Nat := paWord s (pa + 8 * n)
  ({ ptroot := q 0, ashift := bits (q 1) 40 5, tlog := bits (q 1) 32 4, vec := bits (q 1) 16 11, prio := bits (q 1) 8 3
     sysl := bit (q 1) 7, dies := bits (q 1) 0 4, htab := q 2, ctab := q 3, stab := q 4, vtab := q 5, ering := q 6, tring := q 7
     hdesc := q 8, wz := q 9, save := q 10, savelen := q 11 },
    bits (q 1) 45 19 = 0 && bits (q 1) 36 4 = 0 && bits (q 1) 27 5 = 0 && bits (q 1) 11 5 = 0 && bits (q 1) 4 3 = 0
      && (List.range 4).all (fun i => q (12 + i) = 0) && bits (q 1) 0 4 ≠ 0 && bits (q 1) 32 4 ≤ 10)

/-- The values that R299 asks of a handler descriptor. -/
def handlerOk (k : KDesc) : Bool :=
  k.scratch = 0 && k.t = 1 && !k.pair && k.cx = 1 && k.cy = 1 && k.cz = 1 && k.x = 1 && k.y = 1 && k.z = 1 && k.prog = 1
    && !k.det && !k.ckpt && !k.replay

/-- The handler launch of a context just opened, where its handler descriptor is valid (R296, R299).
[DEDUCED: log entry 43; DEDUCED: log entry 81] -/
def admitHandler (s : State) (ctx : Nat) : State :=
  match tget ctx s.contexts with
  | none => s
  | some c =>
    if c.desc.hdesc = 0 then s
    else match (readKDesc s ctx c.desc.hdesc).filter handlerOk with
      | none => walksNoted s ctx c.desc.hdesc 64
      | some k =>
        let (id, s) := nextId s
        let (key, s) := s.fresh
        let l : Launch :=
          { ctx := ctx, id := id, kind := .handler, k := k, sys := true, order := key, numbering := s.retiredQuads, relays := [], handles := [], assay := none
            placed := 0, finished := [], retired := 0, firstGroup := none, lastIssue := s.clk, reported := 0, staged := [], status := none
            residual := none, windows := (readWindows s ctx).getD [], unsampled := [] }
        { s with launches := tset key l s.launches }.onContext ctx fun c => { c with handler := some key }

/-- The context opens: its descriptor is read, its save pool is locked, its handler launch is admitted (R98, R296, R324).
[DEDUCED: log entry 83] -/
def openContext (s : State) (ctx cdesc : Nat) : State :=
  let (d, ok) := readCtxDesc s cdesc
  let old := tgetD ctx Context.reset s.contexts
  let c : Context := { Context.reset with cdesc := cdesc, qbase := old.qbase, qlog := old.qlog, desc := d, state := if ok then 1 else 3 }
  let s := { s with contexts := tset ctx c s.contexts, launches := s.launches.filter fun e => e.2.ctx ≠ ctx }
  if !ok then s
  else
    let s := if d.savelen = 0 then s else enterContextLock s ctx (widen d.save d.savelen).1 (widen d.save d.savelen).2 true 0
    admitHandler s ctx

/-- A closing context whose last launch has completed is closed: its handler launch and its locks go (R98, R324).
[DEDUCED: log entry 83] -/
def finishClose (s : State) (ctx : Nat) : State :=
  match tget ctx s.contexts with
  | none => s
  | some c =>
    let busy := s.launches.any fun e => e.2.ctx = ctx && e.2.status = none && e.2.kind ≠ .handler
    if c.state ≠ 2 || busy then s
    else
      let dead := (s.threads.filter fun e => e.2.ctx = ctx).map (·.1)
      let s := dead.foldl leaveIssue s
      let s := (s.groups.filter fun e => e.2.ctx = ctx && e.2.state ≠ .saved).foldl (fun s e => shedRows s e.1 0) s
      { s with
        threads := s.threads.filter fun e => e.2.ctx ≠ ctx
        groups := s.groups.filter fun e => e.2.ctx ≠ ctx
        teams := s.teams.filter fun e => e.2.ctx ≠ ctx
        cages := s.cages.filter fun e => e.2.ctx ≠ ctx
        entrants := s.entrants.filter fun e => !dead.contains e.2.thread
        launches := s.launches.filter fun e => e.2.ctx ≠ ctx
        contexts := tset ctx { c with state := 0, locks := [], handler := none, trapSlots := [], images := [] } s.contexts }

/-- The context is closing: its queued records complete as context terminated (R324). [DEDUCED: log entry 45] -/
def closeContext (s : State) (ctx : Nat) : State :=
  match tget ctx s.contexts with
  | none => s
  | some c =>
    let s := (List.range (c.tail - c.head)).foldl (fun s i => refuseRecord s ctx c (c.head + i) 8) s
    let s := { s with requests := s.requests.filter fun r => r.ctx ≠ some ctx }
    finishClose (s.onContext ctx fun c => { c with cdesc := 0, state := 2, head := c.tail }) ctx

/-- A write of CDESC, by STATE (R324); before READY it meets Unsupported Request (R330). [DEDUCED: log entry 83] -/
def writeCdesc (s : State) (ctx v : Nat) : State :=
  let c := tgetD ctx Context.reset s.contexts
  if 64 ≤ ctx || !s.glob.ready then s
  else if c.state = 0 then
    if v = 0 then { s with contexts := tset ctx { c with cdesc := 0 } s.contexts } else openContext s ctx v
  else if (c.state = 1 || c.state = 3) && v = 0 then closeContext s ctx
  else s

/-- CONTEXT_OPEN: CDESC of a slot is written with the address of a descriptor. -/
def execContextOpen (ctx : Nat) (cdesc : Word64) (s : State) : Host.Outcome State Fault Refusal :=
  .next (onceReady s fun s => if cdesc = 0 then s else writeCdesc s ctx cdesc.toNat)

/-- CONTEXT_CLOSE: CDESC of a slot is written with 0. -/
def execContextClose (ctx : Nat) (s : State) : Host.Outcome State Fault Refusal := .next (onceReady s fun s => writeCdesc s ctx 0)

/-! ## Completion (R240, R253, R328) -/

/-- Whether an operation writes for a team that is counted in a launch: its stores must complete first (R328).
[DEDUCED: log entry 78] -/
def Op.writesFor (o : Op) (team : Nat → Bool) : Bool :=
  match o with
  | .store o => team o.team
  | .tile o => o.storing && team o.team
  | .atom o => team o.team
  | .disc o => team o.team
  | .copy o => team o.team
  | .drain o => team o.team
  | _ => false

/-- Whether every cluster of a grid has retired and all it wrote has completed. [DEDUCED: log entry 78] -/
def gridDone (s : State) (key : Nat) (l : Launch) : Bool :=
  let mine (t : Nat) : Bool := ((tget t s.teams).map (·.launch)) = some key
  let own := match l.kind with
    | .queued _ => true
    | .backward _ => true
    | _ => false
  l.status = none && own && l.retired = clusterCount l.k && !(s.ops.any fun e => e.2.writesFor mine)
    && !(s.matrix.any fun e => e.2.launch = key)

/-- The staged records of a grid in ascending (TEAM, GROUP) (R240). -/
def stagedInOrder (l : Launch) : List (List Byte) :=
  (sortBy (fun a b => a.1 < b.1 || (a.1 = b.1 && a.2.1 ≤ b.2.1)) l.staged).map (·.2.2)

/-- WINZE_RECORD_ENTRY: the staged records enter the winze, or none does and the status is winze overflow (R240, R271).
[DEDUCED: log entry 90] -/
def enterWinze (s : State) (l : Launch) : State × Nat :=
  if l.staged.isEmpty then (s, 1)
  else
    let wz := ((tget l.ctx s.contexts).map (·.desc.wz)).getD 0
    let overflown (s : State) (top : Nat) : State × Nat :=
      (errorRecord s l.ctx 4 0 0 (leBytes 8 l.id ++ leBytes 8 top ++ leBytes 8 1), 7)
    match ctxValue s l.ctx wz 8, ctxValue s l.ctx (wz + 8) 8, ctxValue s l.ctx (wz + 0x10) 8 with
    | some base, some cap, some top =>
      if cap < top + l.staged.length then overflown s top
      else
        let bytes := (stagedInOrder l).flatten
        match ctxWrite s l.ctx (low 64 (base + 64 * top)) bytes with
        | none => overflown s top
        | some s => (ctxStore s l.ctx (wz + 0x10) (leBytes 8 (low 64 (top + l.staged.length))), 1)
    | _, _, _ => overflown s 0

/-- The input locks of a launch drop once nothing of it is left to sample or replay (R98, R318). -/
def dropInputs (s : State) (key : Nat) : State :=
  match tget key s.launches with
  | some l =>
    if l.status ≠ none && l.unsampled.isEmpty && !(s.samples.any fun e => e.2.launch = key) then
      dropContextLocks s l.ctx (inputOwner key)
    else s
  | none => s

/-- A batch of a winze drain that runs in a context: its records leave the winze before a grid that completes meanwhile pushes
its own (R272). [DEDUCED: log entry 90] -/
def batchRuns (s : State) (ctx : Nat) : Bool :=
  ((tget ctx s.contexts).bind (·.drain)).any fun d => d.launch.isSome

/-- Whether a launch is a batch of a winze drain (R272). -/
def isBackward (l : Launch) : Bool :=
  match l.kind with
  | .backward _ => true
  | _ => false

/-- A grid completes: handles close, backward records enter the winze, writer entries go, then STATUS and VEC (R106, R253, R328).
The records of a backward grid enter when its batch is popped. [DEDUCED: log entry 78] -/
def completeGrid (s : State) (launch : Nat) (l : Launch) : State :=
  let backward := isBackward l
  let s := l.handles.foldl (fun s h =>
    if ((tget (handleKey l.ctx h) s.handles).map (·.launch)) = some launch then closeHandle s (handleKey l.ctx h) else s) s
  let (s, st) := if backward then (s, 1) else enterWinze s l
  let s := { s with
    teams := s.teams.filter fun e => e.2.launch ≠ launch
    writers := s.writers.filter fun e => e.1.1 ≠ launch }
  let s := writeStatus s l st
  let s := s.onLaunch launch fun l => { l with status := some st, staged := if backward then l.staged else [] }
  finishClose (dropInputs s launch) l.ctx

/-- GRID_COMPLETE: every cluster has retired and all it wrote has completed; a grid with records waits while a batch of a drain runs.
[DEDUCED: log entry 78] -/
def execGridComplete (launch : Nat) (s : State) : Host.Outcome State Fault Refusal :=
  match tget launch s.launches with
  | none => .next s
  | some l =>
    if !gridDone s launch l || (!l.staged.isEmpty && !isBackward l && batchRuns s l.ctx) then .next s
    else .next (completeGrid s launch l)

end Sys2Proof.Machine
end

