-- ==== Sys2Proof/Machine/Scheduler.lean ====
section
/-! DEFINITION. Events of issue and of the scheduler: cages and groups, the picker, fixed-latency results, deferred traps,
claims, and trap records (spec/05_execution.md R47, R48, R55 to R60, R70 to R72; spec/11_encoding.md R140 to R143;
spec/25_faults_reliability.md R296 to R299). -/

namespace Sys2Proof.Machine

/-! ## Cages (R47, R48, R185) -/

/-- The key of a cage of a core. -/
def cageKey (core n : Nat) : Nat := core * 64 + n

/-- A cage changed. -/
def State.onCage (s : State) (key : Nat) (f : Cage → Cage) : State := { s with cages := tmod key f s.cages }

/-- The cage of a core that is keyed by a thread's code image and entry and holds threads of its team.
[DEDUCED: log entry 35] -/
def cageFor (s : State) (core ctx team : Nat) (k : KDesc) (entry : Nat) : Option Nat :=
  (List.range 64).find? fun n => match tget (cageKey core n) s.cages with
    | some c => c.ctx = ctx && c.k.code = k.code && c.entry = entry && c.team = team
    | none => false

/-- The lowest empty cage of a core. -/
def emptyCage (s : State) (core : Nat) : Option Nat := (List.range 64).find? fun n => (tget (cageKey core n) s.cages).isNone

/-- The timer value of a cage: its own, or the core's CAGE_TMO (R48, R264). -/
def timerValue (s : State) (core timeout : Nat) : Nat := if timeout = 0 then (s.core core).cageTmo else timeout

/-- A thread in a cage: the cage is FULL when its launch count is reached. -/
def Cage.add (c : Cage) (clk k : Nat) : Cage :=
  let c := { c with threads := c.threads ++ [(clk, k)] }
  if c.count ≤ c.threads.length then { c with state := .full } else c

/-- The entrant is in a cage: the counter of its emitter falls (R185, R239). -/
def entered (s : State) (id : Nat) (e : Entrant) : State :=
  let ops := (s.ops.filter fun o => match o.2 with
    | .emit _ x _ => x = id
    | _ => false).map (·.1)
  let s := ops.foldl State.endOp { s with entrants := tdel id s.entrants }
  match e.counted with
  | some (k, ctr) => lowerCtr s ⟨k, ctr⟩
  | none => s

/-- Threads enter a cage in the order of their arrival, those of one clk by logical index: another one of the same core, code image, entry
and team comes before this one (R48). -/
def entersAfter (s : State) (id : Nat) (e : Entrant) (t : Thread) : Bool :=
  s.entrants.any fun x => x.1 ≠ id && x.2.core = e.core && x.2.k.code = e.k.code && x.2.entry = e.entry &&
    match tget x.2.thread s.threads with
    | some u => u.ctx = t.ctx && u.team = t.team
        && (x.2.since < e.since || (x.2.since = e.since && (u.tid < t.tid || (u.tid = t.tid && x.1 < id))))
    | none => false

/-- CAGE_ENTER: a waiting thread enters the cage of its key, or the lowest empty one; it waits while its cage is FULL or no cage
is empty, and for those that arrived before it (R48). [DESIGN CHOICE: log entry 3] -/
def execCageEnter (entrant : Nat) (s : State) : Host.Outcome State Fault Refusal :=
  match tget entrant s.entrants with
  | none => .next s
  | some e =>
    match tget e.thread s.threads with
    | none => .next { s with entrants := tdel entrant s.entrants }
    | some t =>
      if entersAfter s entrant e t then .next s
      else match cageFor s e.core t.ctx t.team e.k e.entry with
      | some n =>
        let key := cageKey e.core n
        match tget key s.cages with
        | some c => if c.state = .full then .next s else .next (entered (s.onCage key fun c => c.add e.since e.thread) entrant e)
        | none => .next s
      | none =>
        match emptyCage s e.core with
        | none => .next s
        | some n =>
          let c : Cage := ⟨t.ctx, e.k, e.entry, t.team, .filling, s.clk + timerValue s e.core e.timeout, e.timeout, e.count, []⟩
          .next (entered { s with cages := tset (cageKey e.core n) (c.add e.since e.thread) s.cages } entrant e)

/-- CAGE_TIMER_EXPIRE: a FILLING cage whose timer has expired is FULL as a partial group; threads that enter it on that clk
count first. -/
def execCageTimerExpire (core cage : Nat) (s : State) : Host.Outcome State Fault Refusal :=
  match tget (cageKey core cage) s.cages with
  | none => .next s
  | some c =>
    let coming := s.entrants.any fun e => e.2.core = core && e.2.entry = c.entry && e.2.k.code = c.k.code
      && ((tget e.2.thread s.threads).map fun t => (t.ctx, t.team)) = some (c.ctx, c.team)
    if c.state = .filling && c.timer ≤ s.clk && !coming then .next (s.onCage (cageKey core cage) fun c => { c with state := .full })
    else .next s

/-- The waiting threads of a cage in the order in which they take member indices: by clk of arrival, then sr.tid (R48). -/
def cageOrder (s : State) (c : Cage) : List (Nat × Nat) :=
  let tid (k : Nat) : Nat := ((tget k s.threads).map (·.tid)).getD 0
  sortBy (fun a b => a.1 < b.1 || (a.1 = b.1 && tid a.2 ≤ tid b.2)) c.threads

/-- GROUP_LAUNCH: a FULL cage launches one group; threads left over return it to FILLING with the timer rearmed.
[DEDUCED: log entry 36] -/
def execGroupLaunch (core cage : Nat) (s : State) : Host.Outcome State Fault Refusal :=
  match tget (cageKey core cage) s.cages with
  | none => .next s
  | some c =>
    if c.state ≠ .full || (s.core core).frozen || ((tget c.team s.teams).map (·.state)) = some .saving then .next s
    else
      match groupPlace s core c.k.width c.k.regs with
      | none => .next s
      | some place =>
        let ts := cageOrder s c
        let rest := ts.drop c.count
        let child := ts.any fun e => ((tget e.2 s.threads).map (·.child)).getD false
        let s := if rest.isEmpty then { s with cages := tdel (cageKey core cage) s.cages }
          else s.onCage (cageKey core cage) fun c => { c with
            state := if c.count ≤ rest.length then .full else .filling
            timer := s.clk + timerValue s core c.timeout
            threads := rest }
        .next (startGroup s c.team (if child then 0xFFFFFFFF else 0) (some cage) core place c.k ((ts.take c.count).map (·.2)))

/-! ## Candidates of the picker (R57 to R59, R140, R142) -/

/-- A ready thread with its group and the header of its next clause. -/
structure Cand where
  key : Nat
  thread : Thread
  group : Group
  header : Header
  deriving DecidableEq, Repr

/-- The header at a thread's program counter, or the trap that its fetch takes: beyond the code section, or not fetchable.
[DEDUCED: log entry 33] -/
def nextHeader (s : State) (t : Thread) (g : Group) : Except (Nat × Nat) Header :=
  if g.k.code + g.k.codeLen ≤ t.pc then .error (0x04, 0)
  else match fetchCode s t t.pc with
    | .ok w => .ok (Header.decode (BitVec.ofNat 64 w))
    | .error c => .error (c, t.pc)

/-- A fixed-latency result of a thread, or of a g register of its group, is not yet written (R60). -/
def resultPending (s : State) (k : Nat) (t : Thread) : Bool :=
  s.fixed.any fun f => f.2.writes.any fun w => match w with
    | .v th _ _ => th = k
    | .p th _ _ => th = k
    | .version th _ => th = k
    | .g grp _ _ => t.group = some grp

/-- An operation that a stepped word's trap waits for: what its word counts, waits on or fences (R189, R220). -/
def Op.stepWaits (o : Op) (k : Nat) : Bool :=
  match o with
  | .load o => o.members.any fun m => m.thread = k && !m.done
  | .store o => o.cs.any fun c => c.thread = k && c.ctr < 6
  | .atom o => o.members.any fun m => m.thread = k
  | .tile o => o.c.thread = k
  | .disc o => o.c.thread = k
  | .pref o => o.c.thread = k
  | .fence o => o.thread = k && o.pred ≠ 0
  | .wait o => o.c.thread = k
  | .granule o => o.c.thread = k
  | .ring o => o.c.thread = k
  | .send o => o.c.thread = k
  | .recv o => o.c.thread = k
  | _ => false

/-- Where a thread stands between two words: inside the clause that it issues for, or at its next clause. -/
def standing (s : State) (k : Nat) (t : Thread) : Option (Nat × Nat) :=
  match t.state with
  | .issuing => (s.ports.findSome? fun e => if e.2.members.contains k then some e.2 else none).map fun p =>
      (p.hdr, wordAddr p.hdr p.pos)
  | .ready => some (t.pc, match t.resume with
      | some (hdr, pos) => wordAddr hdr pos
      | none => t.pc)
  | .counter _ => some (t.pc, t.pc)
  | _ => none

/-- Whether a deferred trap may be taken now: after the stepped word has had its whole effect, at a clause boundary, or, of a trap that
names its own word, as soon as the thread runs again. -/
def deferredDue (s : State) (k : Nat) (t : Thread) (i : TrapInfo) : Bool :=
  if i.cause = 0x71 then
    (standing s k t).isSome && !resultPending s k t && !(s.ops.any fun e => t.lastKey ≤ e.1 && e.2.stepWaits k)
  else
    match t.state with
    | .ready => i.pc ≠ 0 || t.resume.isNone
    | .counter _ => true
    | _ => false

/-- A deferred trap keeps a thread from being picked: one that may be taken now, or a step whose word has still to have its effect; one
that waits for a clause boundary lets a thread that resumed inside its clause go on to it (R124, R163, R213). -/
def deferredStops (s : State) (k : Nat) (t : Thread) : Bool := t.deferred.any fun i => i.cause = 0x71 || deferredDue s k t i

/-- Whether a thread of a bay may be picked at all. -/
def pickable (s : State) (k : Nat) (t : Thread) (g : Group) : Bool :=
  t.state = .ready && g.state = .resident && !deferredStops s k t && !resultPending s k t && !testHold s k
    && ((tget g.team s.teams).map (·.state)) ≠ some .saving

/-- The pickable threads of a bay with their groups. -/
def bayThreads (s : State) (core bay : Nat) : List (Nat × Thread × Group) :=
  s.threads.filterMap fun e => (groupOf s e.2).bind fun g =>
    if g.core = core && g.bay = bay && pickable s e.1 e.2 g then some (e.1, e.2, g) else none

/-- The operations that hold a thread's later engine words: as `Op.holds`, but a waiting MBRECV never holds back an MBSEND (R203,
R244). -/
def Op.holdsEngine (o : Op) (k : Nat) : Bool :=
  match o with
  | .recv _ => false
  | o => o.holds k

/-- A memory or engine clause waits at its boundary for the thread's fences and acquires (R203); a clause waits for the counters
its WAIT selects, but not where the thread resumes inside it (R57, R213). -/
def clauseReady (s : State) (k : Nat) (t : Thread) (h : Header) : Bool :=
  (t.resume.isSome || countersClear t h.wait.toNat)
    && !(h.cls = 1 && s.ops.any fun e => e.2.holds k) && !(h.cls = 4 && s.ops.any fun e => e.2.holdsEngine k)

/-- The candidates of a bay for any port. -/
def candidates (s : State) (core bay : Nat) : List Cand :=
  (bayThreads s core bay).filterMap fun (k, t, g) => match nextHeader s t g with
    | .ok h => if clauseReady s k t h then some ⟨k, t, g, h⟩ else none
    | .error _ => none

/-- The class a port takes (R56); reserved classes meet their check on C. -/
def bindsTo (h : Header) (p : Port) : Bool :=
  match p with
  | .va => h.cls = 0
  | .vb => h.cls = 0
  | .m => h.cls = 1
  | .c => 2 ≤ h.cls.toNat

/-- Threads put behind others wait for them, unless they have been passed over 64 times (R58, R59, R186).
[DEDUCED: log entry 34] -/
def notYielding (all mine : List Cand) : List Cand :=
  let aged := mine.filter fun c => 64 ≤ c.thread.passed
  if !aged.isEmpty then aged
  else
    let fresh := mine.filter fun c => c.thread.yielded = 0
    if !fresh.isEmpty then fresh
    else if all.any fun c => c.thread.yielded = 0 then mine.filter fun c => c.thread.yielded = 1
    else mine

/-- The lowest clause address of candidates. -/
def lowestPc (cs : List Cand) : Nat := cs.foldl (fun m c => min m c.thread.pc) (2 ^ 64)

/-- The priority of a code image: HINT[1:0] of its lowest clause, then age by launch number (R59).
[DEDUCED: log entry 35] -/
def imageRank (cs : List Cand) (code : Nat) : Nat × Nat :=
  let mine := cs.filter fun c => c.group.k.code = code
  let lo := lowestPc mine
  (((mine.find? fun c => c.thread.pc = lo).map fun c => bits c.header.hint.toNat 0 2).getD 0,
    mine.foldl (fun m c => min m c.group.launchNo) (2 ^ 64))

/-- The code image that the picker chooses. [DEDUCED: log entry 35] -/
def chosenImage (cs : List Cand) : Option Nat :=
  ((cs.map fun c => c.group.k.code).eraseDups).foldl (fun best code => match best with
    | none => some code
    | some b =>
      let x := imageRank cs code
      let y := imageRank cs b
      if y.1 < x.1 || (x.1 = y.1 && x.2 < y.2) then some code else best) none

/-- The slot a candidate's thread occupies. -/
def Cand.slot (c : Cand) : Nat := c.group.slot0 + c.thread.member

/-- The threads of the issue set, in launch order then member index: at most W, no two in one slot; a thread that resumes
inside its clause issues alone (R59, R213). -/
def gather (cs : List Cand) : List Cand :=
  let at_ := sortBy (fun a b => a.group.launchNo < b.group.launchNo
    || (a.group.launchNo = b.group.launchNo && a.thread.member ≤ b.thread.member)) cs
  match at_ with
  | [] => []
  | c :: _ =>
    if c.thread.resume.isSome then [c]
    else (at_.filter fun x => x.thread.resume.isNone).foldl (fun set x =>
      if set.length < c.group.width && !(set.any fun y => y.slot = x.slot) then set ++ [x] else set) []

/-- pick(bay, port): the issue set, and the candidates of its image at the port (R59). -/
def pickSet (s : State) (core bay : Nat) (p : Port) : List Cand × List Cand :=
  let all := candidates s core bay
  let mine := all.filter fun c => bindsTo c.header p
  let cs := notYielding all mine
  match chosenImage cs with
  | none => ([], [])
  | some img =>
    let at_ := cs.filter fun c => c.group.k.code = img
    let lo := lowestPc at_
    (gather (at_.filter fun c => c.thread.pc = lo), mine.filter fun c => c.group.k.code = img)

/-! ## The clause check and the start of a clause (R55, R143) -/

/-- The words of a clause as far as they can be fetched. [DEDUCED: log entry 33] -/
def clauseWords (s : State) (t : Thread) (hdr : Nat) : Nat → Nat → List Nat
  | 0, _ => []
  | n + 1, pos => match fetchCode s t (wordAddr hdr pos) with
    | .ok w => w :: clauseWords s t hdr n (pos + 1)
    | .error _ => []

/-- Whether a word must stand last in its clause (R141). -/
def standsLast (cls : BitVec 3) (x : Nat) : Bool :=
  match (Class.ofBits cls).map fun c => decodeWord c (BitVec.ofNat 64 x) with
  | some (.ok i) => i.isTransfer || i.isBlocking
  | _ => false

/-- CLAUSE_CHECK, steps 1 to 3: the cause at the header, if any. [DEDUCED: log entry 33] -/
def clauseCause (s : State) (t : Thread) (hdr : Nat) (h : Header) : Option Nat :=
  if 6 ≤ h.cls.toNat then some 0x04
  else if h.reserved ≠ 0 then some 0x02
  else if (clauseWords s t hdr h.count.toNat 0).any (standsLast h.cls) then some 0x04
  else none

/-- A port with nothing bound to it, at reset. -/
def PortState.free : PortState := ⟨0, 0, 0, 0, 0, [], 0, 0, false⟩

/-- The clause starts for its issue set: its members are ISSUING, from the position at which they resume, if any. -/
def startClause (s : State) (core bay : Nat) (p : Port) (hdr : Nat) (h : Header) (set : List Cand) : State :=
  let key := portKey core bay p
  let old := tgetD key PortState.free s.ports
  let pos := ((set.head?).bind fun c => c.thread.resume.map (·.2)).getD 0
  let s := set.foldl (fun s c => s.onThread c.key fun t => { t with state := .issuing, resume := none, yielded := 0 }) s
  { s with ports := tset key { old with
      hdr := hdr, pos := pos, words := h.count.toNat + 1, cls := h.cls, hint := h.hint, members := set.map (·.key) } s.ports }

/-- The passed-over counts after a pick (R59). -/
def countPassed (s : State) (set seen : List Cand) : State :=
  seen.foldl (fun s c => s.onThread c.key fun t =>
    { t with passed := if set.any fun x => x.key = c.key then 0 else t.passed + 1 }) s

/-- A ready thread whose next header cannot be fetched, or lies beyond its code section, takes its trap there (R140, R142). -/
def headerTraps (s : State) (core bay : Nat) : State :=
  (bayThreads s core bay).foldl (fun s (k, t, g) => match nextHeader s t g with
    | .error (c, va) => fetchTraps s [k] t.pc t.pc c va
    | .ok _ => s) s

/-- Whether issue on a bay may go on (R317, R323). -/
def coreIssues (s : State) (core bay : Nat) : Bool :=
  !(s.core core).frozen && coreEnabled s core && !(s.throttled.any fun n => Config.heldBay n (core * 8 + bay))

/-- A fetch of consecutive bytes of code waits on a held bank (R320). -/
def codeHeld (s : State) (t : Thread) (va n : Nat) : Bool :=
  match codeTarget s t va with
  | .ok tgt => banksHeld s tgt n
  | .error _ => false

/-- A fetch of consecutive bytes of code counts where they lie in HBM (R320). -/
def noteCode (s : State) (t : Thread) (va n : Nat) : State :=
  match codeTarget s t va with
  | .ok tgt => noteActivations s tgt n
  | .error _ => s

/-- PICK_ISSUE_SET: at a free port the picker gathers an issue set and starts its clause; a failed check traps every thread of
the set at the header, and ends what YIELD has put behind others (R186). -/
def execPickIssueSet (core bay : Nat) (port : Port) (s : State) : Host.Outcome State Fault Refusal :=
  let busy : Bool := ((tget (portKey core bay port) s.ports).map fun (p : PortState) => decide (p.words ≠ 0)).getD false
  if busy || !coreIssues s core bay || s.retiring.contains (quadOfCore core) then .next s
  else
    let s := headerTraps s core bay
    let (set, seen) := pickSet s core bay port
    match set with
    | [] => .next s
    | c :: _ =>
      let s := countPassed s set seen
      match clauseCause s c.thread c.thread.pc c.header with
      | some cause => .next (set.foldl (fun s x =>
          (takeTrapAt s x.key x.thread.pc x.thread.pc cause 0 0).onThread x.key fun t => { t with yielded := 0 }) s)
      | none =>
        let n := 8 * (c.header.count.toNat + 2)
        if codeHeld s c.thread c.thread.pc n then .next s
        else
          let s := noteFetch (noteCode s c.thread c.thread.pc n) c.thread c.thread.pc
          .next (startClause s core bay port c.thread.pc c.header set)

/-! ## Fixed-latency results (R60, R162) -/

/-- FIXED_LATENCY_WRITEBACK: a result whose clk has come is written; results that fall due together land in issue order.
[DESIGN CHOICE: log entry 32] -/
def execFixedLatencyWriteback (id : Nat) (s : State) : Host.Outcome State Fault Refusal :=
  match tget id s.fixed with
  | none => .next s
  | some f =>
    if s.clk < f.due || s.fixed.any fun o => o.1 < id && o.2.due ≤ s.clk then .next s
    else .next (f.writes.foldl landWrite { s with fixed := tdel id s.fixed })

/-! ## Deferred traps (R124, R163, R189, R220, R316) -/

/-- A stepped thread of a team that is being saved takes no trap: it stands between two words of its clause, where the trap awaits its
restoration, and its part in the clause is over (R163, R305). [DEDUCED: log entry 108] -/
def standInside (s : State) (k : Nat) (hdr pc : Nat) : State :=
  (leaveIssue s k).onThread k fun t =>
    if t.state = .issuing then { t with state := .ready, pc := hdr, resume := some (hdr, (pc - hdr) / 8 - 1) } else t

/-- DEFERRED_TRAP_TAKE: the first deferred trap that may be taken is taken, at the word that it names or where the thread stands; a team
being saved takes none (R305). [DEDUCED: log entry 108] -/
def execDeferredTrapTake (thread : Nat) (s : State) : Host.Outcome State Fault Refusal :=
  match tget thread s.threads with
  | none => .next s
  | some t =>
    match t.deferred.find? (deferredDue s thread t), standing s thread t with
    | some i, some (hdr, pc) =>
      if teamSaving s t.team then .next (standInside s thread hdr pc)
      else
        let i' := if i.pc = 0 then { i with pc := pc, hdr := hdr } else i
        let s := takeTrapAt s thread i'.hdr i'.pc i.cause i.faddr i.info
        .next (s.onThread thread fun t => { t with trap := some i', deferred := t.deferred.erase i })
    | _, _ => .next s

/-! ## Claims (R71, R72, R210, R298) -/

/-- The groups of a bay that wait in its claim queue, oldest first. -/
def claimants (s : State) (core bay : Nat) : List (Nat × Group × ClaimWait) :=
  sortBy (fun a b => a.2.2.order ≤ b.2.2.order) (s.groups.filterMap fun e =>
    if e.2.core = core && e.2.bay = bay && e.2.state ≠ .saved then e.2.claim.map fun c => (e.1, e.2, c) else none)

/-- CLAIM_GRANT: the oldest request of a bay gets the lowest run that is free in its range, as a new segment whose registers read
zero. -/
def execClaimGrant (core bay : Nat) (s : State) : Host.Outcome State Fault Refusal :=
  match claimants s core bay with
  | [] => .next s
  | (key, g, c) :: _ =>
    match freeRun s core bay g.slot0 g.width c.units with
    | none => .next s
    | some row =>
      let s := clearRows s core bay g.slot0 g.width row (8 * c.units)
      let s := s.onGroup key fun g => { g with segs := g.segs ++ [⟨g.top, row, 8 * c.units⟩], claim := none }
      .next ((groupThreads s key).foldl (fun s e =>
        if e.2.state = .claiming then makeReady s e.1 e.2.pc else s) s)

/-- Threads of a core in CLAIMING. -/
def claimingThreads (s : State) (core : Nat) : List (Nat × Thread) :=
  s.threads.filter fun e => e.2.state = .claiming && ((groupOf s e.2).map (·.core)) = some core

/-- Whether a thread of the bay is held by a claimant: in CLAIMING, at a barrier that needs an arrival of one, or at a rendezvous
that names one (R72). -/
def heldByClaim (s : State) (cs : List (Nat × Thread)) (t : Thread) : Bool :=
  match t.state with
  | .exited => true
  | .claiming => true
  | .barrier b _ _ _ =>
    (cs.any fun c => c.2.team = t.team && needsArrival s t.team b c.1 c.2)
      && !(s.ops.any fun e => match e.2 with
        | .copy o => o.team = t.team && o.barrier = some b
        | _ => false)
  | .rendezvous r => match groupOf s t with
    | some g => cs.any fun c => c.2.group = t.group && bit (namedMask g r.mask) c.2.member
    | none => false
  | _ => false

/-- The condition of R72 on a bay. -/
def claimDeadlocked (s : State) (core bay : Nat) : Bool :=
  let cs := claimingThreads s core
  let gs := s.groups.filter fun e => e.2.core = core && e.2.bay = bay && e.2.state ≠ .saved
  !(claimants s core bay).isEmpty && gs.all fun e => e.2.state ≠ .draining
    && (groupThreads s e.1).all fun x => heldByClaim s cs x.2

/-- The clk since which each bay with a claimant meets the condition of R72, kept as it comes and goes. -/
def noteDeadlocks (s : State) : State :=
  let bays := (s.groups.filterMap fun e => if e.2.claim.isSome then some (e.2.core, e.2.bay) else none)
    ++ s.cores.flatMap fun c => c.2.deadlock.map fun d => (c.1, d.1)
  bays.eraseDups.foldl (fun s (core, bay) =>
    let old := tget bay (s.core core).deadlock
    if claimDeadlocked s core bay then
      if old.isSome then s else s.onCore core fun c => { c with deadlock := tset bay s.clk c.deadlock }
    else if old.isSome then s.onCore core fun c => { c with deadlock := tdel bay c.deadlock }
    else s) s

/-- The extension of a cause-0x20 record: quarter maps of every bay, then the waiting claims, 1 the oldest (R298). -/
def claimExtension (s : State) (core : Nat) : List Byte :=
  let quarter (bay q : Nat) : Nat :=
    (List.range 128).foldl (fun m u => if unitFree s core bay (16 * q) 16 u then m + 2 ^ u else m) 0
  let maps := (List.range 8).flatMap fun bay => (List.range 4).flatMap fun q => leBytes 16 (quarter bay q)
  let claims := sortBy (fun a b => a.2.2.2.order ≤ b.2.2.2.order)
    ((List.range 8).flatMap fun bay => (claimants s core bay).map fun c => (bay, c))
  let entry (n : Nat) (c : Nat × Nat × Group × ClaimWait) : Nat :=
    let g := c.2.2.1
    c.1 * 2 ^ 56 + ((tget g.team s.teams).map fun t => teamSlot t core).getD 0 * 2 ^ 48 + g.index % 65536 * 2 ^ 32
      + c.2.2.2.units * 2 ^ 16 + (n + 1)
  let listed := ((List.range claims.length).zip claims).take 32
  let words := listed.flatMap fun x => leBytes 8 (entry x.1 x.2)
  let body := maps ++ words
  body ++ List.replicate (960 - body.length) 0

/-- The claimant whose CLAIM came last, the group of the highest sr.tid among those of one clk (R72). -/
def lastClaimant (s : State) (core bay : Nat) : Option Nat :=
  let tid (g : Nat) : Nat := (groupThreads s g).foldl (fun m e => max m e.2.tid) 0
  ((claimants s core bay).foldl (fun best c => match best with
    | none => some c
    | some b => if b.2.2.clk < c.2.2.clk || (b.2.2.clk = c.2.2.clk && tid b.1 < tid c.1) then some c else best) none).map (·.1)

/-- The team of a claimant is being saved: its threads take no trap (R305). -/
def claimantSaving (s : State) (g : Nat) : Bool :=
  ((tget g s.groups).bind fun gr => tget gr.team s.teams).any fun t => t.state = .saving

/-- CLAIM_DEADLOCK_TRAP: the condition of R72 has held for 256 clk. -/
def execClaimDeadlockTrap (core bay : Nat) (s : State) : Host.Outcome State Fault Refusal :=
  match tget bay (s.core core).deadlock, lastClaimant s core bay with
  | some since, some g =>
    if s.clk < since + 256 || !claimDeadlocked s core bay || claimantSaving s g then .next s
    else
      let ext := claimExtension s core
      let s := (groupThreads s g).foldl (fun s e =>
        if e.2.state = .claiming then
          (takeTrap s e.1 0x20 0 1).onThread e.1 fun t => { t with trap := t.trap.map fun i => { i with ext := ext } }
        else s) s
      let s := s.onGroup g fun g => { g with claim := none }
      .next (s.onCore core fun c => { c with deadlock := tdel bay c.deadlock })
  | _, _ => .next s

/-! ## Trap records and handlers (R296, R297, R299) -/

/-- The 64 bytes of a trap record, with the extension of cause 0x20 (R297, R298). -/
def trapRecord (s : State) (t : Thread) (i : TrapInfo) : List Byte :=
  let team := ((tget t.team s.teams).map (·.index)).getD 0
  let core := threadCore s t (i.core.getD (coreOf s t))
  let faddr := if (0x10 ≤ i.cause && i.cause ≤ 0x14) || i.cause = 0x50 then i.faddr else 0
  leBytes 8 t.tid ++ leBytes 8 i.pc ++ leBytes 8 i.hdr ++ leBytes 8 faddr ++ leBytes 8 i.info ++ leBytes 8 team
    ++ leBytes 8 (launchIdOf s t)
    ++ leBytes 8 (core * 2 ^ 32 + (if t.sys then 0x8000 else 0) + t.ctx * 256 + i.cause)
    ++ i.ext

/-- The lowest free slot of a context's trap ring. [DEDUCED: log entry 42] -/
def freeTrapSlot (c : Context) : Option Nat := (List.range (2 ^ c.desc.tlog)).find? fun n => (tget n c.trapSlots).isNone

/-- A handler thread, a team of its own in the handler launch, is created on the lowest core of a die that can seat it, to enter
a cage there (R296 step 3, R299). [DEDUCED: log entry 42; DEDUCED: log entry 43] -/
def createHandler (s : State) (ctx launch : Nat) (k : KDesc) (die slot thread slotAddr : Nat) : Option State :=
  ((List.range coresPerDie).map (die * coresPerDie + ·)).findSome? fun core =>
    (seatTeam s ctx k [core]).map fun seats =>
      let (team, s) := s.fresh
      let (key, s) := s.fresh
      let (e, s) := s.fresh
      let (p, s) := s.draw
      let regs := [(0, BitVec.ofNat 32 slotAddr), (1, BitVec.ofNat 32 (slotAddr / 2 ^ 32))]
      let t := { newThread ctx launch team 0 0 true false true k.entry regs with preds := BitVec.ofNat 8 p.toNat }
      let s := s.onContext ctx fun c => { c with trapSlots := tset slot (thread, key) c.trapSlots }
      { s with
        teams := tset team (newTeam ctx launch 0 team (((tget launch s.launches).map (·.numbering)).getD s.retiredQuads) k seats none) s.teams
        threads := tset key t s.threads
        entrants := tset e ⟨key, core, k, k.entry, 1, 0, none, s.clk⟩ s.entrants }

/-- TRAP_RECORD_WRITE: the record goes into the next free slot and a handler thread is made for it; with no handler, or where a
handler thread has trapped, the context is terminated. While no slot is free the record waits. [DEDUCED: log entry 42] -/
def execTrapRecordWrite (thread : Nat) (s : State) : Host.Outcome State Fault Refusal :=
  match tget thread s.threads with
  | none => .next s
  | some t =>
    match t.state = .trapped && t.trapSlot.isNone, t.trap, tget t.ctx s.contexts with
    | true, some i, some c =>
      let written := (freeTrapSlot c).bind fun slot =>
        (ctxWrite s t.ctx (slotVa s t.ctx slot) (trapRecord s t i)).map fun s =>
          (slot, s.onThread thread fun t => { t with trapSlot := some slot })
      match c.handler.bind fun l => (tget l s.launches).map fun x => (l, x.k) with
      | none => .next (terminateContext ((written.map (·.2)).getD s) t.ctx)
      | some (l, k) =>
        if t.handler then .next (terminateContext ((written.map (·.2)).getD s) t.ctx)
        else
          match written with
          | none => .next s
          | some (slot, s') => .next ((createHandler s' t.ctx l k (dieOfCore (coreOf s t)) slot thread (slotVa s t.ctx slot)).getD s)
    | _, _, _ => .next s

end Sys2Proof.Machine
end

