-- ==== Sys2Proof/Machine/Mailbox.lean ====
section
/-! DEFINITION. The Adit clusters: MBSEND, MBRECV, mailbox entries, episodes, rings, the harts' CSRs and the end of an episode
(spec/17_ops_engines.md R242 to R244; spec/23_adit.md R277 to R294). -/

namespace Sys2Proof.Machine

/-! ## Units -/

/-- A mailbox's entry changed. -/
def State.onMailbox (s : State) (m : Nat) (f : Mailbox → Mailbox) : State :=
  { s with mailboxes := tset m (f (s.mailbox m)) s.mailboxes }

/-- The key of a hart. -/
def hartKey (die h : Nat) : Nat := die * 32 + h

/-- A hart. -/
def State.hart (s : State) (k : Nat) : Hart := tgetD k Hart.reset s.harts

/-- A hart changed. -/
def State.onHart (s : State) (k : Nat) (f : Hart → Hart) : State := { s with harts := tset k (f (s.hart k)) s.harts }

/-- The die of a mailbox. -/
def mailboxDie (m : Nat) : Nat := m / 1024

/-- The hart that runs a mailbox's episode. -/
def episodeHart (s : State) (m : Nat) : Option Nat := (s.harts.find? fun e => e.2.mailbox = some m).map (·.1)

/-- Where the payload of an action or observation of a mailbox lies, by record number (R279, R287). -/
def payloadPa (s : State) (m : Nat) (obs : Bool) (num : Nat) : Nat :=
  (s.die (mailboxDie m)).cbase + m % 1024 * 0x8000 + (if obs then 0x4000 else 0) + 256 * (num % 64)

/-- Bytes written at their home through no thread: what they cover wholly is no longer poisoned. -/
def writeHomeClean (s : State) (pa : Nat) (bs : List Byte) : State :=
  clearPoison (writeHomes s pa bs) ((addrs pa bs.length).zip bs)

/-- The header of an action or observation slot (R287). -/
def SlotHdr.word (h : SlotHdr) : Nat :=
  h.ver * 2 ^ 32 + h.step % 65536 * 2 ^ 16 + (if h.stale then 2 ^ 10 else 0) + (if h.term then 2 ^ 9 else 0) + h.len

/-! ## MBSEND and MBRECV (R242 to R244) -/

/-- A payload or destination of a mailbox word: its pieces by 64 KiB page, in local HBM or the scratchpad (R187, R242, R243).
[DEDUCED: log entry 93] -/
def mailboxPages (s : State) (t : Thread) (need : Need) (va len : Nat) : Except Bad (List (Target × Nat)) :=
  match (addrs va len).find? fun a => (windowOf s t a).isSome with
  | some a => .error ⟨0x11, a, 0⟩
  | none =>
    match checkPages s t need va len with
    | .error b => .error b
    | .ok ps => if ps.any fun p => !(p.1.isHbm || p.1.isScratch) then .error ⟨0x03, 0, 0⟩ else .ok ps

/-- Step 5 for a mailbox: it is bound to the context (R244). [DEDUCED: log entry 93] -/
def boundTo (s : State) (m ctx : Nat) : Bool := (s.mailbox m).state ≠ .unbound && (s.mailbox m).ctx = ctx

/-- The checks of a mailbox word for one member: reserved bits of its descriptor, its pages, then its mailbox.
[DEDUCED: log entry 93] -/
def checkMailbox (s : State) (t : Thread) (need : Need) (m reserved va len : Nat) : Except Bad (List (Target × Nat)) :=
  if reserved ≠ 0 then .error ⟨0x03, 0, 0⟩
  else
    match mailboxPages s t need va len with
    | .error b => .error b
    | .ok ps => if boundTo s m t.ctx then .ok ps else .error ⟨0x61, 0, 0⟩

/-- The bytes of pieces, as home slices and scratchpads hold them. -/
def pieceBytes (s : State) (ps : List (Target × Nat)) : List Byte :=
  ps.flatMap fun p => (addrs p.1.pa p.2).map fun a => if p.1.isHbm then homeByte s a else memRead s.mem a

/-- MBSEND of one member: its payload is read and its request joins the mailbox's queue. -/
def beginSend (w : RWord) (writers : List Nat) (s : State) (k : Nat) : State :=
  match tget k s.threads with
  | none => s
  | some t =>
    let b := src32 s t w.b
    let m := bits b 0 12
    let va := src64 s t w.a
    match checkMailbox s t needRead m (bits b 20 12) va (bits b 12 8 + 1) with
    | .error e => takeBad s k e
    | .ok ps =>
      match piecesPoison s (placedVas va ps) with
      | some (pva, pa, g) => consumePoison s k pva pa g
      | none =>
        let s := raiseCtr (countRelease s k 4) ⟨k, w.ctr⟩
        let dst := if w.dst.toNat < 384 || writers.contains k then some w.dst.toNat else none
        let id := s.nextKey
        (s.beginOp (.send ⟨⟨k, w.ctr⟩, t.ctx, dst, m, pieceBytes s ps, t.srVersion⟩)).onMailbox m
          fun x => { x with sends := x.sends ++ [id] }

/-- Members of a mailbox word that go on after the check of a g destination, in their order; the others trap (R67). -/
def mailboxMembers (w : RWord) (s : State) (u : Issuing) (active : List Nat) : State × List Nat :=
  let bad := if 384 ≤ w.dst.toNat then ungathered s u active else []
  let s := bad.foldl (fun s k => takeTrap0 s k 0x21) s
  (s, memberOrder s (active.filter fun k => !bad.contains k))

/-- An MBSEND is held by its members' fences and acquires, but never by a waiting MBRECV (R203, R244). -/
def sendHold (s : State) (u : Issuing) : Bool := u.members.any fun k => s.ops.any fun e => e.2.holdsEngine k

/-- The payload of some member of an MBSEND waits at a home slice for a tile (R101). -/
def payloadHeld (w : RWord) (s : State) (u : Issuing) : Bool :=
  (activeMembers s u (.mbsend w)).any fun k => match tget k s.threads with
    | none => false
    | some t => match mailboxPages s t needRead (src64 s t w.a) (bits (src32 s t w.b) 12 8 + 1) with
      | .error _ => false
      | .ok ps => ps.any fun p => lineHeld s p.1 p.2

/-- MBSEND: its release at .dev is complete before the payload is read (R221). -/
def execMbsend (w : RWord) (s : State) : Host.Outcome State Fault Refusal :=
  issueWord (.mbsend w) 0 w.ctr (fun s u => sendHold s u || payloadHeld w s u || releaseHold (.mbsend w) 4 s u)
    (fun s u active =>
      let (s, ok) := mailboxMembers w s u active
      ok.foldl (beginSend w (uniformWriters s ok)) s)
    (escapeFirst (.mbsend w) true s)

/-- MBRECV of one member: its destination is write-locked and its request joins the mailbox's queue. -/
def beginRecv (w : RWord) (core : Nat) (writers : List Nat) (s : State) (k : Nat) : State :=
  match tget k s.threads with
  | none => s
  | some t =>
    let b := src32 s t w.b
    let m := bits b 0 12
    let va := src64 s t w.a
    match checkMailbox s t needWrite m (bits b 12 20) va 256 with
    | .error e => takeBad s k e
    | .ok ps =>
      let s := raiseCtr s ⟨k, w.ctr⟩
      let dst := if w.dst.toNat < 384 || writers.contains k then some w.dst.toNat else none
      let id := s.nextKey
      let s := lockCommand s (lockCores s t) id t.ctx (lockRange va (va + 256) true)
      (s.beginOp (.recv ⟨⟨k, w.ctr⟩, core, t.ctx, dst, m, va, ps, (t.curHdr, t.curWord)⟩)).onMailbox m fun x => { x with recvs := x.recvs ++ [id] }

/-- The range-lock tables lack an entry for some member of an MBRECV (R243). -/
def recvHold (i : Instr) (s : State) (u : Issuing) : Bool :=
  let active := activeMembers s u i
  active.any fun k => match tget k s.threads with
    | some t => (lockCores s t).any fun c => freeLocks s c < active.length
    | none => false

/-- MBRECV. -/
def execMbrecv (w : RWord) (s : State) : Host.Outcome State Fault Refusal :=
  issueWord (.mbrecv w) 0 w.ctr (fun s u => fenceHold s u || recvHold (.mbrecv w) s u)
    (fun s u active =>
      let (s, ok) := mailboxMembers w s u active
      ok.foldl (beginRecv w u.core (uniformWriters s ok)) s)
    (escapeFirst (.mbrecv w) true s)

/-! ## The end of an episode (R291, R292) -/

/-- The hart cycles of a stall that began at a clk: 1.5 GHz harts against a clk of 600 MHz (R13, R277). -/
def stallCycles (s : State) (since : Nat) : Nat := (s.clk - since) * 5 / 2

/-- Whether the step timer of a hart runs (R290, R291). [DEDUCED: log entry 95] -/
def Hart.timed (h : Hart) : Bool := h.held.isSome || h.checker

/-- A hart with the cycles that a WFI has waited counted: the timer counts them too (R277, R291). -/
def Hart.settled (s : State) (h : Hart) : Hart :=
  if h.wfi then
    let n := stallCycles s h.since
    { h with cycle := h.cycle + n, cycLeft := if h.timed then h.cycLeft - n else h.cycLeft, since := s.clk }
  else h

/-- An episode ends: step 1 of R292, and the record of a kill by curfew, step limit or exception (R291, R301). The cycles of
the last step are those the timer has counted. [DEDUCED: log entry 96] -/
def endEpisode (s : State) (m reason : Nat) : State :=
  let x := s.mailbox m
  if x.state ≠ .starting && x.state ≠ .running && x.state ≠ .checking then s
  else
    let limit := (x.episode.map (·.cycLim)).getD 0
    let cycles := match episodeHart s m with
      | some k => if reason = 1 then limit else if (s.hart k).timed then limit - ((s.hart k).settled s).cycLeft else x.lastCycles
      | none => 0
    let s := s.onMailbox m fun x => { x with
      state := .ending
      dropped := x.actions.length
      actions := []
      reason := reason
      lastCycles := cycles }
    let s := match episodeHart s m with
      | some k => s.onHart k fun h => { h with held := none, stalled := false, posting := none, wfi := false }
      | none => s
    if reason = 1 || reason = 2 || reason = 3 then
      errorRecord s x.ctx 5 (if reason = 3 then 0x61 else 0x60) 0
        (leBytes 8 m ++ leBytes 8 ((x.episode.map (·.tag)).getD 0) ++ leBytes 8 reason ++ leBytes 8 x.hart ++ leBytes 8 x.steps
          ++ leBytes 8 cycles)
    else s

/-! ## Mailbox entries (R283 to R285) -/

/-- The descriptor of an episode in its 64 bytes (R284). -/
def Episode.decode (bs : List Byte) : Episode :=
  let q (n : Nat) : Nat := leValue ((bs.drop (8 * n)).take 8)
  ⟨q 0, q 1, bits (q 2) 32 32, bits (q 2) 0 32, bits (q 3) 0 32, bits (q 3) 32 32, bits (q 4) 32 32, bits (q 4) 0 32,
    bits (q 5) 0 12, bits (q 5) 12 52 = 0 && q 6 = 0 && q 7 = 0⟩

/-- The monitor reads a descriptor once, at START: none where it is not one, or cannot be read (R284). -/
def readEpisode (s : State) (die pa : Nat) : Option Episode :=
  let d := s.die die
  if pa % 64 ≠ 0 || pa < d.cbase || d.cbase + d.clen < pa + 64 || (poisonedAt s pa 64).isSome then none
  else some (Episode.decode ((addrs pa 64).map (homeByte s)))

/-- START on an IDLE mailbox (R285). -/
def startMailbox (s : State) (m : Nat) : State :=
  let (key, s) := s.fresh
  s.onMailbox m fun x => { x with
    state := .starting
    pin := 0xFFFFFFFF
    steps := 0
    aseq := 0
    nstale := 0
    order := key
    lastCycles := 0
    reason := 0
    staged := []
    episode := readEpisode s (mailboxDie m) x.epdesc }

/-- Word 0 of a mailbox entry written (R283). -/
def writeMailbox0 (s : State) (m v : Nat) : State :=
  let x := s.mailbox m
  let fields (x : Mailbox) : Mailbox := { x with ctx := bits v 10 6, vch := bits v 16 3, vchen := bit v 19 }
  match x.state with
  | .unbound => s.onMailbox m fun x => { fields x with state := if bit v 0 then .idle else .unbound }
  | .idle =>
    if !bit v 0 then s.onMailbox m fun x => { fields x with state := .unbound, actions := [], observations := [] }
    else if bit v 2 then startMailbox (s.onMailbox m fields) m
    else s.onMailbox m fields
  | .ending => s
  | _ => if bit v 3 then endEpisode s m 4 else s

/-- EPDESC written (R283). -/
def writeEpdesc (s : State) (m v : Nat) : State :=
  if (s.mailbox m).state = .unbound || (s.mailbox m).state = .idle then s.onMailbox m fun x => { x with epdesc := v } else s

/-- MAILBOX_BIND: a write that sets BOUND on an UNBOUND mailbox; START in the same write is ignored (R283). -/
def execMailboxBind (mailbox : Nat) (value : Word64) (s : State) : Host.Outcome State Fault Refusal :=
  .next (onceReady s fun s =>
    if mailbox < 4096 && (s.mailbox mailbox).state = .unbound && bit value.toNat 0 then writeMailbox0 s mailbox value.toNat else s)

/-- MAILBOX_UNBIND: a write that clears BOUND in IDLE; both rings are emptied (R283). -/
def execMailboxUnbind (mailbox : Nat) (value : Word64) (s : State) : Host.Outcome State Fault Refusal :=
  .next (onceReady s fun s =>
    if (s.mailbox mailbox).state = .idle && !bit value.toNat 0 then writeMailbox0 s mailbox value.toNat else s)

/-- MAILBOX_START: START written in IDLE (R285). -/
def execMailboxStart (mailbox : Nat) (s : State) : Host.Outcome State Fault Refusal :=
  .next (onceReady s fun s => if (s.mailbox mailbox).state = .idle then startMailbox s mailbox else s)

/-- MAILBOX_KILL: KILL written in STARTING, RUNNING or CHECKING: reason 4 (R283, R291). -/
def execMailboxKill (mailbox : Nat) (s : State) : Host.Outcome State Fault Refusal :=
  .next (onceReady s fun s => endEpisode s mailbox 4)

/-! ## A hart for a waiting episode (R281, R282, R285, R286) -/

/-- Whether a range lies in the carve-out of a die. -/
def inDieCarveOut (s : State) (die pa n : Nat) : Bool := (s.die die).cbase ≤ pa && pa + n ≤ (s.die die).cbase + (s.die die).clen

/-- ABASE and ALOG of a tag of a die (R281). -/
def arenaOf (s : State) (die tag : Nat) : Nat × Nat := tgetD (die * 4096 + tag) (0, 0) s.arenas

/-- Whether two ranges share a byte. -/
def meet (a n b m : Nat) : Bool := a < b + m && b < a + n

/-- An image's limits: aligned, in the carve-out, of 4 KiB to 256 MiB, with its entry inside (R284, R286). -/
def imageOk (s : State) (die pa len entry : Nat) : Bool :=
  pa % 4096 = 0 && len % 4096 = 0 && 4096 ≤ len && len ≤ 2 ^ 28 && inDieCarveOut s die pa len && entry < len

/-- Episodes of a die that hold a hart: their mailboxes. -/
def assignedEpisodes (s : State) (die : Nat) : List (Mailbox × Episode) :=
  s.harts.filterMap fun e => match e.2.mailbox with
    | some m => if e.1 / 32 = die then (s.mailbox m).episode.map fun ep => (s.mailbox m, ep) else none
    | none => none

/-- The arena of an episode is one that R281 allows and overlaps no arena in use and no image (R286). -/
def arenaOk (s : State) (die : Nat) (e : Episode) : Bool :=
  let (abase, alog) := arenaOf s die e.tag
  let size := 2 ^ alog
  let others := assignedEpisodes s die
  let images := (e.env, e.envLen) :: (e.chk, e.chkLen)
    :: others.flatMap fun o => [(o.2.env, o.2.envLen), (o.2.chk, o.2.chkLen)]
  20 ≤ alog && alog ≤ 34 && abase % size = 0 && inDieCarveOut s die abase size && (s.die die).cbase + 2 ^ 25 ≤ abase
    && !(others.any fun o => let a := arenaOf s die o.2.tag; meet a.1 (2 ^ a.2) abase size)
    && !(images.any fun i => meet i.1 i.2 abase size)

/-- A descriptor passes R286. -/
def episodeOk (s : State) (die : Nat) (e : Episode) : Bool :=
  e.clean && imageOk s die e.env e.envLen e.entry && imageOk s die e.chk e.chkLen e.chkEntry
    && 1 ≤ e.stepLim && 1024 ≤ e.cycLim && arenaOk s die e
    && !((assignedEpisodes s die).any fun o => o.2.tag = e.tag && (o.1.state = .running || o.1.state = .checking))

/-- The mailboxes of a die that wait in STARTING, in the order of their START writes. -/
def startQueue (s : State) (die : Nat) : List (Nat × Mailbox) :=
  sortBy (fun (a b : Nat × Mailbox) => a.2.order ≤ b.2.order) (s.mailboxes.filter fun e => mailboxDie e.1 = die && e.2.state = .starting)

/-- The lowest-numbered free hart of a die; a frozen one is not free (R285, R317). -/
def freeHart (s : State) (die : Nat) : Option Nat :=
  (List.range 32).find? fun h => (s.hart (hartKey die h)).mailbox.isNone && !s.frozen.contains (.hart, hartKey die h)

/-- The registers with which a hart enters an image (R282). -/
def imageRegs (alog : Nat) : List (Nat × Word64) :=
  [(2, BitVec.ofNat 64 (0x2000000000 + 2 ^ alog - 65536)), (10, 0x2000000000), (11, BitVec.ofNat 64 (2 ^ alog - 65536))]

/-- A hart set up for an image: PMP entries, what the tables map, and entry registers (R282). [DEDUCED: log entry 92] -/
def enterImage (h : Hart) (abase alog image len entry : Nat) (e : Episode) : Hart :=
  { h with
    pc := BitVec.ofNat 64 (0x1000000000 + entry)
    x := imageRegs alog
    f := []
    fcsr := 0
    resv := none
    pmp := ⟨abase, 2 ^ alog, true, true, false, false⟩ :: ⟨image, len, true, false, true, false⟩
      :: List.replicate 14 ⟨0, 0, false, false, false, true⟩
    maps := [⟨0x1000000000, image, len, true, false, true⟩,
      ⟨0x2000000000, abase + 65536, 2 ^ alog - 65536, true, true, false⟩]
    satp := BitVec.ofNat 64 (8 * 2 ^ 60 + e.tag * 2 ^ 44 + abase / 4096)
    cycLeft := e.cycLim }

/-- EPISODE_HART_ASSIGN: in START order, the first waiting episode whose descriptor fails is refused with reason 5, or one that
passes takes the lowest free hart (R282, R285, R286). -/
def execEpisodeHartAssign (die : Nat) (s : State) : Host.Outcome State Fault Refusal :=
  match (startQueue s die).find? fun x => !(x.2.episode.any (episodeOk s die)) || (freeHart s die).isSome with
  | none => .next s
  | some (m, x) =>
    match x.episode, freeHart s die with
    | some e, some h =>
      if !episodeOk s die e then .next (endEpisode s m 5)
      else
        let (abase, alog) := arenaOf s die e.tag
        let s := s.onHart (hartKey die h) fun _ => enterImage { Hart.reset with mailbox := some m } abase alog e.env e.envLen e.entry e
        .next (s.onMailbox m fun x => { x with state := .running, hart := h })
    | _, _ => .next (endEpisode s m 5)

/-! ## Sends and receives (R242, R243, R289, R292 to R294) -/

/-- An MBSEND completes with its status. -/
def completeSend (s : State) (m id : Nat) (o : SendOp) (status : Nat) : State :=
  let s := s.onMailbox m fun x => { x with sends := x.sends.filter (· ≠ id) }
  let s := match o.dst with
    | some d => writeRegs s o.c.thread d 1 status
    | none => s
  lowerCtr (s.endOp id) o.c

/-- A hart leaves WFI: the cycles it waited count; where the step timer has run out in them, the curfew has come (R277, R291). -/
def wakeHart (s : State) (k : Nat) : State :=
  let h := s.hart k
  match h.mailbox with
  | some m =>
    if !h.wfi then s
    else if h.timed && h.cycLeft < stallCycles s h.since then endEpisode s m 1
    else s.onHart k fun h => { h.settled s with wfi := false }
  | none => s

/-- An action that arrives wakes the hart of its episode (R277). -/
def wakeEpisode (s : State) (m : Nat) : State :=
  match episodeHart s m with
  | some k => wakeHart s k
  | none => s

/-- An action appended: R294 and the slot's header and payload. -/
def appendAction (s : State) (m : Nat) (payload : List Byte) (ver : Nat) : State :=
  let s := writeHomeClean s (payloadPa s m false (s.mailbox m).aseq) payload
  s.onMailbox m fun x =>
    let pin := if x.vchen && x.pin = 0xFFFFFFFF then ver else x.pin
    let stale := x.vchen && ver ≠ pin
    { x with
      pin := pin
      vlast := ver
      nstale := if stale then x.nstale + 1 else x.nstale
      actions := x.actions ++ [⟨x.aseq, ver, x.aseq % 65536, stale, false, payload.length⟩]
      aseq := (x.aseq + 1) % 2 ^ 30 }

/-- Slots of the action ring in use: waiting actions and the held one. [DEDUCED: log entry 94] -/
def actionSlots (s : State) (m : Nat) : Nat :=
  (s.mailbox m).actions.length + (match episodeHart s m with
    | some k => if (s.hart k).held.isSome then 1 else 0
    | none => 0)

/-- The oldest send of a mailbox that still waits. -/
def headSend (s : State) (m : Nat) : Option (Nat × SendOp) :=
  (s.mailbox m).sends.findSome? fun id => match tget id s.ops with
    | some (.send o) => some (id, o)
    | _ => none

/-- ACTION_APPEND: the oldest request of a mailbox is appended, or dropped where its episode ends or there is none; it waits
while all slots are full (R242, R292). [DEDUCED: log entry 97] -/
def execActionAppend (mailbox : Nat) (s : State) : Host.Outcome State Fault Refusal :=
  match headSend s mailbox with
  | none => .next s
  | some (id, o) =>
    let x := s.mailbox mailbox
    if x.ctx ≠ o.ctx || x.state = .idle || x.state = .unbound then .next (completeSend s mailbox id o 2)
    else if x.state = .ending then .next (completeSend s mailbox id o 1)
    else if 64 ≤ actionSlots s mailbox then .next s
    else .next (completeSend (wakeEpisode (appendAction s mailbox o.payload o.version) mailbox) mailbox id o (4 * x.aseq))

/-- The oldest receive of a mailbox by its bound context. -/
def headRecv (s : State) (m : Nat) : Option (Nat × RecvOp) :=
  (s.mailbox m).recvs.findSome? fun id => match tget id s.ops with
    | some (.recv o) => if o.ctx = (s.mailbox m).ctx then some (id, o) else none
    | _ => none

/-- The pieces of a destination that a payload of n bytes reaches, with their virtual addresses. -/
def payloadPieces : Nat → List (Target × Nat) → Nat → List (Nat × Target × Nat)
  | _, [], _ => []
  | va, (t, m) :: ps, n => if n = 0 then [] else (va, t, min m n) :: payloadPieces (low 64 (va + m)) ps (n - m)

/-- The bytes of an observation written at their destination as engine writes: in local HBM or in the scratchpad, whose granules
they fill (R83, R96, R106). -/
def RecvOp.place (s : State) (id : Nat) (o : RecvOp) (bs : List Byte) : State :=
  let team := ((tget o.c.thread s.threads).map (·.team)).getD 0
  ((payloadPieces o.va o.dest bs.length).foldl (fun (acc : State × List Byte) p =>
    let s := engineStore acc.1 o.core o.ctx team id p.1 p.2.1 (acc.2.take p.2.2)
    (if p.2.1.isHbm then s else fillGranules s (addrs p.2.1.pa p.2.2), acc.2.drop p.2.2)) (s, bs)).1

/-- OBSERVATION_TAKE: the oldest observation goes to the oldest receive: its bytes, then DST, an acquire at .dev, and the lock
drops as the counter falls (R243, R289); a destination that an STT, a pinned block or a bank keeps waits (R90, R101, R320). A
poisoned payload is consumed at the MBRECV, and the observation stays (R316).
[DEDUCED: log entry 60; DEDUCED: log entry 97] -/
def execObservationTake (mailbox : Nat) (s : State) : Host.Outcome State Fault Refusal :=
  match headRecv s mailbox, (s.mailbox mailbox).observations with
  | some (id, o), h :: rest =>
    let pa := payloadPa s mailbox true h.num
    if (payloadPieces o.va o.dest h.len).any fun p => writeWaits s p.2.1 p.2.2 || banksHeld s p.2.1 p.2.2 then .next s
    else match poisonedAt s pa h.len with
    | some g =>
      let s := s.onMailbox mailbox fun x => { x with recvs := x.recvs.filter (· ≠ id) }
      .next (consumeFor (lowerCtr (unlockCommand (s.endOp id) id o.ctx) o.c) o.c.thread noVa g fun s =>
        trapAtWord s o.c.thread o.word 0x50 0 (sectorInfo g))
    | none =>
      let s := o.place s id ((addrs pa h.len).map (homeByte s))
      let s := s.onMailbox mailbox fun x => { x with observations := rest, recvs := x.recvs.filter (· ≠ id) }
      let s := match o.dst with
        | some d => writeRegs s o.c.thread d 2 h.word
        | none => s
      .next (lowerCtr (unlockCommand (acquireFor (s.endOp id) o.c.thread o.core 4) id o.ctx) o.c)
  | _, _ => .next s

/-! ## Harts (R277, R278, R288, R290, R291) -/

/-- The mailbox of a hart whose episode's cycles pass: it runs, or waits in WFI. -/
def hartCounts (s : State) (k : Nat) : Option Nat :=
  let h := s.hart k
  match h.mailbox with
  | some m =>
    let st := (s.mailbox m).state
    if (st = .running || st = .checking) && !h.stalled && h.posting.isNone && !s.frozen.contains (.hart, k) then some m else none
  | none => none

/-- The mailbox of a hart that can execute a user-mode instruction now: its step timer has not run out (R291). -/
def hartRuns (s : State) (k : Nat) : Option Nat :=
  if (s.hart k).wfi || ((s.hart k).timed && (s.hart k).cycLeft = 0) then none else hartCounts s k

/-- What a hart asks of an address. -/
inductive HartAccess where
  | load
  | store
  | fetch
  deriving DecidableEq, Repr

/-- Where an access of a hart goes, which its mapping and the lowest PMP entry it touches must permit (R278, R282).
[PRESUMED: log entry 91; DEDUCED: log entry 92] -/
def hartPa (h : Hart) (a : HartAccess) (va n : Nat) : Option Nat :=
  let ok (r w x : Bool) : Bool := match a with
    | .load => r
    | .store => w
    | .fetch => x
  match h.maps.find? fun m => m.va ≤ va && va + n ≤ m.va + m.len && ok m.r m.w m.x with
  | none => none
  | some m =>
    let pa := m.pa + (va - m.va)
    if (h.pmp.find? fun p => meet p.addr p.len pa n).any fun p => p.addr ≤ pa && pa + n ≤ p.addr + p.len && ok p.r p.w p.x then
      some pa
    else none

/-- Hart cycles pass with one instruction retired: CYCLEFT counts down while the timer runs (R277, R291). -/
def Hart.retire (h : Hart) (cycles : Nat) : Hart :=
  { h with
    cycle := h.cycle + cycles
    instret := h.instret + 1
    cycLeft := if h.timed then h.cycLeft - cycles else h.cycLeft }

/-- The retiring cycle of an ATAKE that holds an action, which the step timer does not count (R291). -/
def Hart.retireUntimed (h : Hart) : Hart := { h with cycle := h.cycle + 1, instret := h.instret + 1 }

/-- CSR instructions are four bytes long. -/
def Hart.nextPc (h : Hart) : Hart := { h with pc := h.pc + 4 }

/-- An integer register of a hart written; x0 discards it. -/
def Hart.setReg (h : Hart) (r : Nat) (v : Word64) : Hart := if 1 ≤ r && r < 32 then { h with x := tset r v h.x } else h

/-- The monitor kills the episode of a hart for an exception (R278, R290). -/
def hartKill (s : State) (m : Nat) : State := endEpisode s m 3

/-- The 0 that ATAKE and OPOST read reaches their destination register (R290). -/
def Hart.giveZero (h : Hart) : Hart := { h.setReg h.rd 0 with rd := 0 }

/-- A hart executes one instruction of at least `n` bytes, unless its fetch is refused, which kills the episode (R278). -/
def hartStep (s : State) (k n : Nat) (f : Nat → State) : State :=
  match hartRuns s k with
  | none => s
  | some m => if (hartPa (s.hart k) .fetch (s.hart k).pc.toNat n).isNone then hartKill s m else f m

/-- An observation posted into a mailbox's ring. -/
def postObservation (s : State) (m : Nat) (payload : List Byte) (ver : Nat) (stale term : Bool) : State :=
  let x := s.mailbox m
  let s := writeHomeClean s (payloadPa s m true x.nextObs) payload
  s.onMailbox m fun x => { x with
    observations := x.observations ++ [⟨x.nextObs, ver, x.steps % 65536, stale, term, payload.length⟩]
    nextObs := x.nextObs + 1 }

/-- The oldest waiting action becomes the held one; the step timer starts, but in the checker it runs already (R290, R291).
[DEDUCED: log entry 95] -/
def holdAction (s : State) (m k : Nat) : State :=
  match (s.mailbox m).actions with
  | [] => s
  | a :: rest =>
    let limit := (((s.mailbox m).episode).map (·.cycLim)).getD 0
    let s := s.onMailbox m fun x => { x with actions := rest }
    s.onHart k fun h => { h with held := some a, stalled := false, cycLeft := if h.checker then h.cycLeft else limit }

/-- ATAKE: a CSR write of a running hart, which reads 0. With bit 0 it holds the oldest waiting action, or stalls; any other bit, or
bit 0 while an action is held, is a misuse (R290). -/
def execAtake (die hart : Nat) (value : Word64) (s : State) : Host.Outcome State Fault Refusal :=
  let k := hartKey die hart
  .next (hartStep s k 4 fun m =>
    let done (s : State) : State := s.onHart k fun h => ((h.retire 1).nextPc).giveZero
    if 2 ≤ value.toNat || (value = 1 && (s.hart k).held.isSome) then hartKill s m
    else if value = 0 then done s
    else if (s.mailbox m).actions.isEmpty then s.onHart k fun h => { h with stalled := true, since := s.clk }
    else holdAction (s.onHart k fun h => (h.retireUntimed.nextPc).giveZero) m k)

/-- ACTION_HOLD: a stalled ATAKE takes the action that has arrived; the stall counts in cycle alone (R277, R290). -/
def execActionHold (die hart : Nat) (s : State) : Host.Outcome State Fault Refusal :=
  let k := hartKey die hart
  let h := s.hart k
  match h.mailbox with
  | some m =>
    if h.stalled && !(s.mailbox m).actions.isEmpty && !s.frozen.contains (.hart, k) then
      let s := s.onHart k fun h =>
        { ((({ h with cycle := h.cycle + stallCycles s h.since }).retireUntimed).nextPc).giveZero with stalled := false }
      .next (holdAction s m k)
    else .next s
  | none => .next s

/-- The bytes of OPAY (R290). -/
def Hart.opayBytes (h : Hart) (n : Nat) : List Byte :=
  ((List.range 32).flatMap fun i => leBytes 8 (tgetD i 0 h.opay).toNat).take n

/-- An environment's OPOST takes effect: the observation of the held action, STEPS, and the kill at STEPLIM (R290, R291). -/
def postStep (s : State) (m k : Nat) (v : Word64) : State :=
  let h := s.hart k
  match h.held with
  | none => s
  | some a =>
    let limit := (((s.mailbox m).episode).map (·.cycLim)).getD 0
    let used := limit - (h.cycLeft - 1)
    let s := postObservation s m (h.opayBytes (bits v.toNat 0 9)) a.ver a.stale false
    let s := s.onHart k fun h => { ((h.retire 1).nextPc).giveZero with held := none, posting := none, cycLeft := limit }
    let s := s.onMailbox m fun x => { x with steps := x.steps + 1, lastCycles := used }
    if ((s.mailbox m).episode).any fun e => e.stepLim ≤ (s.mailbox m).steps then endEpisode s m 2 else s

/-- A value that no OPOST may carry: a length above 256 or a reserved bit (R290). -/
def opostMisuse (v : Word64) : Bool := 256 < bits v.toNat 0 9 || bits v.toNat 10 54 ≠ 0

/-- OPOST_STEP: an OPOST with END 0 in the environment, which reads 0; it waits while 63 observations are held (R288, R290). -/
def execOpostStep (die hart : Nat) (value : Word64) (s : State) : Host.Outcome State Fault Refusal :=
  let k := hartKey die hart
  if (s.hart k).checker || bit value.toNat 9 then .next s
  else
    .next (hartStep s k 4 fun m =>
      if opostMisuse value || (s.hart k).held.isNone then hartKill s m
      else if 63 ≤ (s.mailbox m).observations.length then
        s.onHart k fun h => { h with posting := some value, since := s.clk }
      else postStep s m k value)

/-- A waiting OPOST goes on once a slot is free; its wait counts in cycle alone (R288, R290). [DEDUCED: log entry 94] -/
def servePosting (s : State) (k : Nat) : State :=
  let h := s.hart k
  match h.mailbox, h.posting with
  | some m, some v =>
    if (s.mailbox m).observations.length < 63 && (s.mailbox m).state = .running && !s.frozen.contains (.hart, k) then
      postStep (s.onHart k fun h => { h with cycle := h.cycle + stallCycles s h.since }) m k v
    else s
  | _, _ => s

/-- Every waiting OPOST tested. -/
def servePostings (s : State) : State := (s.harts.map (·.1)).foldl servePosting s

/-- OPOST_END: an OPOST with END in the environment: nothing is posted, any held action is freed, and the checker is entered
with a fresh step timer (R282, R290). [DEDUCED: log entry 95] -/
def execOpostEnd (die hart : Nat) (value : Word64) (s : State) : Host.Outcome State Fault Refusal :=
  let k := hartKey die hart
  if (s.hart k).checker || !bit value.toNat 9 then .next s
  else
    .next (hartStep s k 4 fun m =>
      if opostMisuse value then hartKill s m
      else
        match (s.mailbox m).episode with
        | none => s
        | some e =>
          let h := s.hart k
          let (abase, alog) := arenaOf s die e.tag
          let used := if h.timed then e.cycLim - (h.cycLeft - 1) else (s.mailbox m).lastCycles
          let s := s.onHart k fun h => { enterImage (h.retire 1) abase alog e.chk e.chkLen e.chkEntry e with held := none, checker := true }
          s.onMailbox m fun x => { x with state := .checking, lastCycles := used })

/-- OPOST_TERMINAL: the checker's OPOST stages the terminal record and ends the episode; END is a misuse (R290). -/
def execOpostTerminal (die hart : Nat) (value : Word64) (s : State) : Host.Outcome State Fault Refusal :=
  let k := hartKey die hart
  if !(s.hart k).checker then .next s
  else
    .next (hartStep s k 4 fun m =>
      if opostMisuse value || bit value.toNat 9 then hartKill s m
      else
        let staged := (s.hart k).opayBytes (bits value.toNat 0 9)
        let s := s.onHart k fun h => (h.retire 1).nextPc
        endEpisode (s.onMailbox m fun x => { x with staged := staged }) m 0)

/-- CURFEW_EXPIRE: the step timer of a running hart would fall below zero: the hart's cycles up to it have passed, and the
episode is killed with reason 1 (R291). -/
def execCurfewExpire (die hart : Nat) (s : State) : Host.Outcome State Fault Refusal :=
  let k := hartKey die hart
  match hartCounts s k with
  | none => .next s
  | some m =>
    if (s.hart k).timed then
      .next (endEpisode (s.onHart k fun h => { h with cycle := h.cycle + h.cycLeft, cycLeft := 0 }) m 1)
    else .next s

/-- HART_EXCEPTION: an ecall or another exception of an instruction that a hart executes (R278). -/
def execHartException (die hart : Nat) (s : State) : Host.Outcome State Fault Refusal :=
  match hartRuns s (hartKey die hart) with
  | none => .next s
  | some m => .next (hartKill s m)

/-! ## The rest of R292 -/

/-- The arena of an episode overwritten with zeros (R292 step 2). -/
def zeroRange (s : State) (lo n : Nat) : State :=
  { s with
    mem := s.mem.filter fun c => !(lo ≤ c.1 && c.1 < lo + n)
    l2 := s.l2.filter fun c => !(lo ≤ c.1 && c.1 < lo + n)
    poison := s.poison.filter fun g => !(lo ≤ g && g < lo + n) }

/-- The terminal record of a mailbox (R292 step 3). -/
def terminalPayload (x : Mailbox) : List Byte :=
  if x.reason = 0 then x.staged else leBytes 8 (x.reason + x.dropped * 2 ^ 32) ++ leBytes 8 x.lastCycles

/-- EPISODE_END_COMPLETE: steps 2 to 4 of R292. While all 64 observation slots are held the monitor waits, since the terminal
record is never refused and never dropped (R288). [DEDUCED: log entry 94; DEDUCED: log entry 97; DEDUCED: log entry 116] -/
def execEpisodeEndComplete (mailbox : Nat) (s : State) : Host.Outcome State Fault Refusal :=
  let x := s.mailbox mailbox
  if x.state ≠ .ending || 64 ≤ x.observations.length then .next s
  else
    let die := mailboxDie mailbox
    let arena := arenaOf s die ((x.episode.map (·.tag)).getD 0)
    let s := match episodeHart s mailbox with
      | some k => (zeroRange s arena.1 (2 ^ arena.2)).onHart k fun _ => Hart.reset
      | none => if x.episode.any (arenaOk s die) then zeroRange s arena.1 (2 ^ arena.2) else s
    let s := postObservation s mailbox (terminalPayload x) x.vlast (x.nstale ≠ 0) true
    .next (s.onMailbox mailbox fun x => { x with state := .idle, terms := (x.terms + 1) % 2 ^ 32, episode := none })

end Sys2Proof.Machine
end

