-- ==== Sys2Proof/Machine/Winze.lean ====
section
/-! DEFINITION. The Foreman and the winze controller (spec/21_pipelines_training.md R267 to R272; spec/27_host_startup.md
R327). -/

namespace Sys2Proof.Machine

/-! ## The Foreman (R267 to R270) -/

/-- A stage as an evaluation reads it. -/
structure Stage where
  num : Nat
  ring : Ring
  high : Nat
  low : Nat
  maxw : Nat
  minw : Nat
  workers : Nat
  /-- RES - TAKE as s64 -/
  occ : Int
  deriving DecidableEq, Repr

/-- The governed stage at an entry of a context's stage table; none where FEN is clear, R268 ignores the entry, or its ring cannot
be read. -/
def readStage (s : State) (ctx n : Nat) : Option Stage :=
  let die := firstDie s ctx
  let q (off : Nat) : Option Nat := devWord s die ctx (low 64 (stageVa s ctx n + off)) 8
  match q 0x00, q 0x18, q 0x20 with
  | some ring, some limits, some w =>
    let maxw := bits limits 48 16
    let minw := bits limits 32 16
    let workers := bits w 32 32
    if !bit w 0 || bits limits 16 16 < bits limits 0 16 || maxw < minw || workers < minw || maxw < workers then none
    else
      ((devRead s die ctx ring 64).bind (Ring.decode ring)).bind fun r =>
        match devWord s die ctx ring 8, devWord s die ctx (low 64 (ring + 8)) 8 with
        | some res, some take =>
          some ⟨n, r, bits limits 16 16, bits limits 0 16, maxw, minw, workers, signed 64 (low 64 (res + 2 ^ 64 - take))⟩
        | _, _ => none
  | _, _, _ => none

/-- The stage with the highest value of a key, the lowest number among equals. -/
def bestStage (key : Stage → Int) (xs : List Stage) : Option Stage :=
  xs.foldl (fun best x => match best with
    | none => some x
    | some b => if key b < key x then some x else some b) none

/-- The target and the donor of an evaluation (R270). -/
def foremanPair (rests : List (Nat × Nat)) (xs : List Stage) : Option (Stage × Stage) :=
  let awake := xs.filter fun x => (tget x.num rests).isNone
  match bestStage (·.occ) (awake.filter fun x => (x.high : Int) < x.occ && x.workers < x.maxw) with
  | none => none
  | some t =>
    (bestStage (fun x => -x.occ) (awake.filter fun x => x.num ≠ t.num && x.occ < (x.low : Int) && x.minw < x.workers)).map
      fun d => (t, d)

/-- One context's evaluation: at most one reservation, on the donor's ring; none while one is awaited. -/
def evaluateContext (s : State) (ctx : Nat) : State :=
  match tget ctx s.contexts with
  | none => s
  | some c =>
    let next := c.rests.filterMap fun r => if 1 < r.2 then some (r.1, r.2 - 1) else none
    let s := s.onContext ctx fun c => { c with rests := next }
    if (c.state ≠ 1 && c.state ≠ 2) || c.foremanMove.isSome then s
    else
      match foremanPair c.rests ((List.range 64).filterMap (readStage s ctx)) with
      | none => walksNoted s ctx c.desc.stab 4096
      | some (t, d) =>
        let (i, s) := ringNext s (firstDie s ctx) ctx d.ring 0
        s.onContext ctx fun c => { c with foremanMove := some ⟨d.num, t.num, d.ring, i, t.ring.desc⟩ }

/-- FOREMAN_EVALUATE: every 4,096 clk, every context is evaluated. [DEDUCED: log entry 14] -/
def execForemanEvaluate (s : State) : Host.Outcome State Fault Refusal :=
  if s.clk < s.glob.foreman then .next s
  else
    let s := { s with glob := { s.glob with foreman := (s.clk / 4096 + 1) * 4096 } }
    .next ((s.contexts.map (·.1)).foldl evaluateContext s)

/-- WORKERS of a stage changed by one, as an atomic at .dev. -/
def addWorkers (s : State) (ctx stage : Nat) (up : Bool) : State :=
  let va := low 64 (stageVa s ctx stage + 0x24)
  match devWord s (firstDie s ctx) ctx va 4 with
  | some w => devWrite s (firstDie s ctx) ctx va (leBytes 4 (low 32 (if up then w + 1 else w + 2 ^ 32 - 1)))
  | none => s

/-- FOREMAN_PUBLISH: once the donor's reserved slot is free, the role record is published there, WORKERS move, and both stages
rest for the next four evaluations (R269, R270). -/
def execForemanPublish (ctx : Nat) (s : State) : Host.Outcome State Fault Refusal :=
  match (tget ctx s.contexts).bind (·.foremanMove) with
  | none => .next s
  | some m =>
    let die := firstDie s ctx
    if ringSeq s die ctx m.ring m.index ≠ some m.index || writeHeld s die ctx (m.ring.slot m.index) 40 then .next s
    else
      let s := devWrite s die ctx (low 64 (m.ring.slot m.index + 16)) (leBytes 8 roleMark ++ leBytes 8 m.target ++ leBytes 8 m.tring)
      let s := devWrite s die ctx (low 64 (m.ring.slot m.index + 8)) (leBytes 8 (srClk s))
      let s := devWrite s die ctx (m.ring.slot m.index) (leBytes 8 (low 64 (m.index + 1)))
      let s := addWorkers (addWorkers s ctx m.donor false) ctx m.target true
      .next (s.onContext ctx fun c => { c with foremanMove := none, rests := tset m.donor 4 (tset m.target 4 c.rests) })

/-! ## The winze controller (R240, R271, R272, R327) -/

/-- WZ of a context. -/
def winzeVa (s : State) (ctx : Nat) : Nat := ((tget ctx s.contexts).map (·.desc.wz)).getD 0

/-- A word of the winze header. -/
def winzeWord (s : State) (ctx off : Nat) : Option Nat := ctxValue s ctx (low 64 (winzeVa s ctx + off)) 8

/-- A word of the winze header written. -/
def writeWinze (s : State) (ctx off v : Nat) : State := ctxStore s ctx (low 64 (winzeVa s ctx + off)) (leBytes 8 v)

/-- Record k of a winze: DESC, ARG, LAUNCH, TEAM, GROUP (R240). -/
def winzeRecord (s : State) (ctx base k : Nat) : Option (Nat × Nat × Nat × Nat × Nat) :=
  (ctxRead s ctx (low 64 (base + 64 * k)) 64).map fun bs =>
    let q (n : Nat) : Nat := leValue ((bs.drop (8 * n)).take 8)
    (q 0, q 1, q 2, q 3, q 4 % 2 ^ 32)

/-- The longest run of records below TOP, down to TARGET, with the DESC and LAUNCH of the first; ARG, LAUNCH, TEAM, GROUP of
each, from the top down. `n` counts the records that may still belong. -/
def winzeRun (s : State) (ctx base desc launch : Nat) : Nat → Nat → List (Nat × Nat × Nat × Nat)
  | 0, _ => []
  | n + 1, k =>
    match winzeRecord s ctx base k with
    | some (d, arg, l, team, group) =>
      if d = desc && l = launch then (arg, l, team, group) :: winzeRun s ctx base desc launch n (k - 1) else []
    | none => []

/-- The kernel of a backward batch: the descriptor with its own X, Y and Z ignored (R272). -/
def backwardKernel (s : State) (ctx desc n : Nat) : Option KDesc :=
  if desc % 64 ≠ 0 then none
  else
    ((ctxRead s ctx desc 64).map fun bs =>
      { KDesc.decode bs with x := n, y := 1, z := 1 }).filter fun k => k.valid && k.cx = 1 && k.cy = 1 && k.cz = 1

/-- The id of a backward grid (R327). -/
def backwardId (launch desc : Nat) : Nat := 0xC000000000000000 ||| (mix64 (launch ^^^ desc) / 4)

/-- The launch of a batch, or the status with which it completes before any thread starts (R51, R331). -/
def backwardLaunch (s : State) (ctx key desc : Nat) (records : List (Nat × Nat × Nat × Nat)) : Except Nat Launch :=
  match backwardKernel s ctx desc records.length with
  | none => .error 2
  | some k =>
    if !channelsOk s ctx then .error 9
    else match readWindows s ctx with
      | none => .error 6
      | some windows =>
        let id := backwardId (((records.head?).map (·.2.1)).getD 0) desc
        let l : Launch :=
          { ctx := ctx, id := id, kind := .backward records, k := k, sys := false, order := key, numbering := s.retiredQuads, relays := [], handles := []
            assay := none, placed := 0, finished := [], retired := 0, firstGroup := none, lastIssue := s.clk, reported := 0, staged := []
            status := none, residual := none, windows := windows, unsampled := [] }
        if clusterTooLarge s key l then .error 4
        else if k.prog = 0 && beyondCapacity s key l then .error 3
        else .ok l

/-- A drain ends with a STATUS, and DONE rises by one with release at .dev. -/
def endDrain (s : State) (ctx status : Nat) : State :=
  let s := ctxStore s ctx (low 64 (winzeVa s ctx + 0x28)) (leBytes 4 status)
  let s := (ctxAdd s ctx (low 64 (winzeVa s ctx + 0x20)) 1).getD s
  s.onContext ctx fun c => { c with drain := none }

/-- A drain stops on a batch that did not succeed: STATUS 1 and a KIND 4 record; TOP is unchanged. -/
def stopDrain (s : State) (ctx id top : Nat) : State :=
  endDrain (errorRecord s ctx 4 0 0 (leBytes 8 id ++ leBytes 8 top ++ leBytes 8 2)) ctx 1

/-- One turn of the loop of a drain that began with a BASE: the next batch is launched, or the drain ends (R271, R272). -/
def drainStep (s : State) (ctx base : Nat) : State :=
  match winzeWord s ctx 0x10, winzeWord s ctx 0x18 with
  | some top, some target =>
    if top ≤ target then endDrain s ctx (if top < target then 2 else 0)
    else
      match winzeRecord s ctx base (top - 1) with
      | none => stopDrain (walksNoted s ctx (low 64 (base + 64 * (top - 1))) 64) ctx 0 top
      | some (desc, _, launch, _, _) =>
        let records := winzeRun s ctx base desc launch (top - target) (top - 1)
        let (key, s) := s.fresh
        match backwardLaunch s ctx key desc records with
        | .error _ => stopDrain s ctx (backwardId launch desc) top
        | .ok l =>
          let s := { s with launches := tset key l s.launches }
          let s := writeWinze s ctx 0x30 l.id
          let s := s.onContext ctx fun c => { c with drain := some ⟨base, some key, records.length⟩ }
          (placeNext s key l).getD s
  | _, _ => s.onContext ctx fun c => { c with drain := none }

/-- WINZE_DRAIN_START: TARGET has been written and differs from TOP. -/
def execWinzeDrainStart (ctx : Nat) (s : State) : Host.Outcome State Fault Refusal :=
  match tget ctx s.contexts with
  | none => .next s
  | some c =>
    if c.state ≠ 1 || !c.targeted || c.drain.isSome then .next s
    else
      let s := s.onContext ctx fun c => { c with targeted := false }
      if winzeWord s ctx 0x10 = winzeWord s ctx 0x18 then .next s
      else match winzeWord s ctx 0x00 with
        | some base => .next (drainStep s ctx base)
        | none => .next s

/-- The batch's records leave the winze and those that its own grid staged enter; where they do not fit, TOP is as before and the
status is winze overflow. [DEDUCED: log entry 90] -/
def popBatch (s : State) (ctx n : Nat) (l : Launch) : State × Nat :=
  let top := (winzeWord s ctx 0x10).getD 0
  let (s, st) := enterWinze (writeWinze s ctx 0x10 (top - n)) l
  if st = 1 then (s, 1) else (writeWinze s ctx 0x10 top, st)

/-- The grids of a context that have finished while a batch ran complete before the next batch begins: their records are pushed above
those still to be popped (R272). [DEDUCED: log entry 90] -/
def pushWaiting (s : State) (ctx : Nat) : State :=
  (s.launches.filter fun e => e.2.ctx = ctx && !e.2.staged.isEmpty && !isBackward e.2).foldl
    (fun s e => if gridDone s e.1 e.2 then completeGrid s e.1 e.2 else s) s

/-- WINZE_BATCH_COMPLETE: the batch's grid has completed; with success its records are popped and the drain goes on, else it
stops. -/
def execWinzeBatchComplete (ctx : Nat) (s : State) : Host.Outcome State Fault Refusal :=
  match (tget ctx s.contexts).bind (·.drain) with
  | some ⟨base, some key, n⟩ =>
    match tget key s.launches with
    | none => .next s
    | some l =>
      let s' := { s with launches := tdel key s.launches }
      match l.status with
      | none => .next s
      | some st =>
        let (s', st) := if st = 1 then popBatch s' ctx n l else (s', st)
        .next (if st = 1 then drainStep (pushWaiting s' ctx) ctx base else stopDrain s' ctx l.id ((winzeWord s ctx 0x10).getD 0))
  | _ => .next s

end Sys2Proof.Machine
end

