-- ==== Sys2Proof/Machine/Preempt.lean ====
section
/-! DEFINITION. Pre-emption: requests, save and restoration of teams, residual service, inversion records, retirement of a quad,
and the boundary of a checkpoint interval (spec/25_faults_reliability.md R299, R304 to R314; spec/13_ops_compute.md R163;
spec/15_ops_memory.md R189; spec/17_ops_engines.md R220; spec/09_matrix_engine.md R122). -/

namespace Sys2Proof.Machine

/-! ## Save images (R299) -/

/-- The groups of a team. -/
def teamGroups (s : State) (team : Nat) : List (Nat × Group) := s.groups.filter fun e => e.2.team = team

/-- The threads of a team that have not exited. -/
def teamThreads (s : State) (team : Nat) : List (Nat × Thread) :=
  s.threads.filter fun e => e.2.team = team && e.2.state ≠ .exited

/-- The bytes of a team's image, rounded up to 64 KiB; twice that for a checkpoint launch. -/
def imageBytes (s : State) (key : Nat) (t : Team) : Nat :=
  let gs := teamGroups s key
  let regs := gs.foldl (fun n e =>
    n + (groupThreads s e.1).length * e.2.segs.foldl (fun m x => m + x.count) 0) 0
  let n := 4096 + 256 * gs.length + 16 * (teamThreads s key).length + 4 * regs + t.scratch + t.scratch / 128
    + 65536 * popCount 16 t.useMask
  let n := ceilDiv n 65536 * 65536
  if isCkpt s t.launch then 2 * n else n

/-- The lowest place of a number of bytes in a pool with the given allocations. -/
def firstFit (used : List (Nat × Nat)) (pool n : Nat) : Option Nat :=
  let fits (b : Nat) : Bool := b + n ≤ pool && used.all fun u => b + n ≤ u.1 || u.1 + u.2 ≤ b
  (((0 :: used.map fun u => u.1 + u.2).filter fits).foldl (fun m b => match m with
    | some x => some (min x b)
    | none => some b) (none : Option Nat))

/-- A team's image allocated in its context's save pool; none where it does not fit. [DEDUCED: log entry 85] -/
def allocImage (s : State) (key : Nat) : Option State :=
  (tget key s.teams).bind fun t => (tget t.ctx s.contexts).bind fun c =>
    let n := imageBytes s key t
    (firstFit c.images c.desc.savelen n).map fun off =>
      (s.onTeam key fun t => { t with image := some (off, n) }).onContext t.ctx fun c => { c with images := tset off n c.images }

/-- A team's image freed. -/
def freeImage (s : State) (key : Nat) : State :=
  match tget key s.teams with
  | some t =>
    match t.image with
    | some (off, _) =>
      (s.onTeam key fun t => { t with image := none }).onContext t.ctx fun c => { c with images := tdel off c.images }
    | none => s
  | none => s

/-! ## Victims (R304 to R306) -/

/-- Whether a team runs on its cores and has not been chosen to be saved. -/
def savable (s : State) (key : Nat) (t : Team) : Bool :=
  (t.state = .running || t.state = .placed) && !s.victims.contains key && !(t.cores.any fun c => (s.core c.1).frozen)

/-- A team chosen to be saved: its image is allocated and it joins the queue. -/
def chooseTeam (s : State) (key : Nat) : Option State :=
  (allocImage s key).map fun s => { s with victims := s.victims ++ [key] }

/-- Every savable team of a list chosen, or none of them. -/
def chooseTeams (s : State) (keys : List Nat) : Option State :=
  keys.foldl (fun acc k => acc.bind fun s => chooseTeam s k) (some s)

/-- The clusters on some dies that a request of a priority may take, in the order of R304: launch key, cluster, teams.
[DEDUCED: log entry 86] -/
def victimClusters (s : State) (dies : List Nat) (prio : Nat) : List (Nat × Nat × List Nat) :=
  let teams := s.teams.filter fun e => savable s e.1 e.2 && e.2.cores.all fun c => dies.contains (dieOfCore c.1)
  let pairs := ((teams.map fun e => (e.2.launch, e.2.cluster)).eraseDups).filterMap fun p =>
    (tget p.1 s.launches).bind fun l =>
      if launchPrio s l < prio then
        some (launchPrio s l, l.order, p.1, p.2, (teams.filter fun e => e.2.launch = p.1 && e.2.cluster = p.2).map (·.1))
      else none
  (sortBy (fun a b => a.1 < b.1 || (a.1 = b.1 && (b.2.1 < a.2.1 || (a.2.1 = b.2.1 && b.2.2.2.1 ≤ a.2.2.2.1)))) pairs).map
    fun p => p.2.2

/-- Victims chosen at a priority until the standing requests would be met on some dies; a cluster whose images do not fit the pool is
passed over. [DEDUCED: log entry 86] -/
def chooseVictims (s : State) (dies : List Nat) (prio : Nat) : State :=
  (victimClusters s dies prio).foldl (fun s c => if requestsMet s dies then s else (chooseTeams s c.2.2).getD s) s

/-- Victims for a request, which comes on top of those that stand before it (R304, R306). [DEDUCED: log entry 86] -/
def chooseFor (s : State) (r : Preempt) : State := chooseVictims s (requestDies s r) r.prio

/-- The save of the next chosen team begins, one at a time; images of teams that have finished are freed. A checkpoint team's held
stores are released first, so that they can complete (R305, R312). -/
def advanceSaves (s : State) : State :=
  let finished := (s.teams.filter fun e => e.2.state = .done && e.2.image.isSome).map (·.1)
  let s := finished.foldl freeImage s
  let waiting := s.victims.filter fun k => (tget k s.teams).any fun t => t.state = .running || t.state = .placed
  let s := { s with victims := waiting }
  if s.teams.any fun e => e.2.state = .saving then s
  else match waiting with
    | [] => s
    | k :: rest => ({ loseRollback s k with victims := rest }).onTeam k fun t => { t with state := .saving }

/-- PREEMPT_REQUEST: a request for cores at a priority, from the host or the management processor, or one that admission has
noted; its victims are chosen and the first save begins. A request that lacks cores waits for more. -/
def execPreemptRequest (cores prio : Nat) (source : PreemptSource) (s : State) : Host.Outcome State Fault Refusal :=
  match source with
  | .admission =>
    match s.requests.find? fun r => r.ctx.isSome && r.cores = cores && r.prio = prio with
    | none => .next s
    | some r => .next (advanceSaves (chooseFor s r))
  | _ =>
    if cores = 0 || 576 < cores || 7 < prio then .next s
    else
      let r : Preempt := ⟨cores, prio, none⟩
      .next (advanceSaves (chooseFor { s with requests := s.requests ++ [r] } r))

/-- Requests that wait for more cores take what has become possible, as the last of them asks (R306); one that no launch waits on has
been met once the cores are free. -/
def retryRequests (s : State) : State :=
  match s.requests.getLast? with
  | none => s
  | some r =>
    let s := chooseFor s r
    let free := (dieCores [0, 1, 2, 3]).filter fun core => willBeFree s core && (teamsOn s core).isEmpty
    if coresWanted s ≤ free.length then { s with requests := s.requests.filter fun r => r.ctx.isSome } else s

/-! ## The save (R163, R189, R220, R305) -/

/-- A wait that the save withdraws and restoration issues again (R189, R220). -/
def Op.withdraws (o : Op) : Bool :=
  match o with
  | .wait _ => true
  | .granule _ => true
  | .ring _ => true
  | .send _ => true
  | .recv _ => true
  | _ => false

/-- Whether nothing of a team is in issue or outstanding, but for waits that are withdrawn. A thread that SYSRET has resumed inside a
clause, and that is READY there, is saved so: fetch has stopped, and it is in no issue set (R163, R305).
[DEDUCED: log entry 124] -/
def saveReady (s : State) (key : Nat) : Bool :=
  let ts := teamThreads s key
  ts.all (fun e => e.2.state ≠ .issuing && !resultPending s e.1 e.2)
    && !(s.ops.any fun e => opTeam s e.2 = some key && !e.2.withdraws)
    && !(s.matrix.any fun e => e.2.team = key)
    && !(s.entrants.any fun e => ts.any fun t => t.1 = e.2.thread)
    && !((teamGroups s key).any fun e => rowsLocked s e.2)

/-- Bytes listed in a range of memory, by offset. -/
def listedBytes (m : List Host.Cell) (lo n : Nat) : List (Nat × Byte) :=
  (m.filter fun c => lo ≤ c.1 && c.1 < lo + n).map fun c => (c.1 - lo, c.2)

/-- What a team's image keeps of its cores (R305 step 3). [DEDUCED: log entry 85] -/
def savedOf (s : State) (key : Nat) (t : Team) : SavedTeam :=
  let seats := (List.range t.cores.length).zip t.cores
  { scratch := seats.flatMap fun (j, core, _, base) =>
      (listedBytes s.mem (onchipPa core base) t.share).map fun b => (j * t.share + b.1, b.2)
    full := seats.flatMap fun (j, core, _, base) =>
      (s.full.filter fun g => onchipPa core base ≤ g && g < onchipPa core (base + t.share)).map fun g =>
        j * t.share + (g - onchipPa core base)
    accs := seats.flatMap fun (j, core, _, _) => (oneBits 16 t.useMask).flatMap fun n =>
      (listedBytes s.mem (accPa core n 0 0) 0x10000).map fun b => (j * 2 ^ 24 + n * 2 ^ 16 + b.1, b.2)
    marks := seats.flatMap fun (j, core, _, _) => ((oneBits 16 t.useMask).filter (marked s core)).map fun n => j * 16 + n
    writersOf := seats.flatMap fun (j, core, _, _) => (oneBits 16 t.useMask).filterMap fun n =>
      (tget (core * 16 + n) s.writersOf).map fun w => (j * 16 + n, w)
    caged := s.cages.flatMap fun (e : Nat × Cage) =>
      if e.2.team = key then
        (cageOrder s e.2).map fun (x : Nat × Nat) => (⟨x.2, e.1 / 64, e.2.k, e.2.entry, e.2.count, e.2.timeout, none, x.1⟩ : Entrant)
      else [] }

/-- A withdrawn mailbox request leaves its queue, and a receive its range lock. -/
def unqueue (s : State) (id : Nat) (o : Op) : State :=
  match o with
  | .send o => s.onMailbox o.mailbox fun x => { x with sends := x.sends.filter (· ≠ id) }
  | .recv o => unlockCommand (s.onMailbox o.mailbox fun x => { x with recvs := x.recvs.filter (· ≠ id) }) id o.ctx
  | _ => s

/-- The team is saved: its image is written, its waits are withdrawn, its cores' resources return, among them the rows, which keep the
values left in them (R10, R64, R305). [DEDUCED: log entry 85; DEDUCED: log entry 105] -/
def saveTeam (s : State) (key : Nat) (t : Team) : State :=
  let mine := s.ops.filter fun e => opTeam s e.2 = some key
  let s := mine.foldl (fun s e => unqueue s e.1 e.2) s
  let saved := savedOf s key t
  let s := (teamGroups s key).foldl (fun s e => shedRows s e.1 0) s
  let s := forwardAll s fun e => e.team = key && (match e.place with
    | .core _ => true
    | _ => false)
  let s := { s with
    ops := s.ops.filter fun (e : Nat × Op) => !(mine.any fun (m : Nat × Op) => m.1 = e.1)
    withdrawn := mine.foldl (fun w (e : Nat × Op) => tset e.1 e.2 w) s.withdrawn
    cages := s.cages.filter fun (e : Nat × Cage) => e.2.team ≠ key
    groups := s.groups.map fun (e : Nat × Group) => if e.2.team = key then (e.1, { e.2 with state := .saved }) else e }
  s.onTeam key fun t => { t with state := .saved, saved := some saved }

/-! ## Restoration (R307) -/

/-- The core of a team's new seats that stands for one of its old cores. -/
def movedCore (old new : List (Nat × Nat × Nat)) (core : Nat) : Nat :=
  (((old.zip new).find? fun p => p.1.1 = core).map (·.2.1)).getD core

/-- A target of a withdrawn wait on the team's new cores. -/
def movedTarget (old new : List (Nat × Nat × Nat)) (t : Target) : Target :=
  match t with
  | .scratch core off =>
    match (old.zip new).find? fun p => p.1.1 = core with
    | some (a, b) => .scratch b.1 (off - a.2.2 + b.2.2)
    | none => t
  | t => t

/-- A withdrawn wait as it is issued again: a WAIT on local HBM keeps the place that its first issue found (R189, R220).
[DEDUCED: log entry 126] -/
def movedOp (old new : List (Nat × Nat × Nat)) (o : Op) : Op :=
  match o with
  | .wait o => .wait { o with core := movedCore old new o.core, target := movedTarget old new o.target }
  | .granule o =>
    match movedTarget old new (.scratch o.core o.off) with
    | .scratch core off => .granule { o with core := core, off := off }
    | _ => .granule o
  | .ring o => .ring { o with core := movedCore old new o.core }
  | .recv o => .recv { o with core := movedCore old new o.core, dest := o.dest.map fun p => (movedTarget old new p.1, p.2) }
  | o => o

/-- A group back in a place of a core, with runs of rows for each of its segments (R54, R70). -/
def placeGroupAt (s : State) (key core bay slot0 : Nat) (g : Group) : Option State :=
  let bare := { g with core := core, bay := bay, slot0 := slot0, segs := [], state := .resident }
  g.segs.foldl (fun acc seg => acc.bind fun s =>
    (freeRun s core bay slot0 g.width (seg.count / 8)).map fun row =>
      (clearRows s core bay slot0 g.width row seg.count).onGroup key fun g =>
        { g with segs := g.segs ++ [⟨seg.first, row, seg.count⟩] })
    (some { s with groups := tset key bare s.groups })

/-- A saved group restored on a core: the first bay and range of slots that hold it, and the next launch number of its new core (R59);
a waiting claim joins the queue again (R210). [DEDUCED: log entry 120] -/
def restoreGroup (old new : List (Nat × Nat × Nat)) (acc : Option State) (e : Nat × Group) : Option State :=
  acc.bind fun s =>
    let (key, g) := e
    let core := movedCore old new g.core
    let slot := freeGroupSlot s core
    ((List.range 8).findSome? fun bay => (List.range (64 / g.width)).findSome? fun i =>
      if (List.range g.width).all fun j => slotUse s core bay (i * g.width + j) < 8 then
        placeGroupAt s key core bay (i * g.width) g
      else none).map fun s =>
        let c := s.core core
        let s := s.onGroup key fun g => { g with
          launchNo := c.nextLaunch
          slot := slot
          claim := g.claim.map fun x => { x with order := c.nextClaim, clk := s.clk } }
        s.onCore core fun c => { c with nextLaunch := c.nextLaunch + 1, nextClaim := c.nextClaim + 1 }

/-- A withdrawn wait issued again. -/
def reissue (old new : List (Nat × Nat × Nat)) (s : State) (e : Nat × Op) : State :=
  let o := movedOp old new e.2
  let s := { s with ops := tset e.1 o s.ops, withdrawn := tdel e.1 s.withdrawn }
  match o with
  | .send o => s.onMailbox o.mailbox fun x => { x with sends := x.sends ++ [e.1] }
  | .recv o =>
    let cores := ((tget o.c.thread s.threads).map (lockCores s)).getD []
    (lockCommand s cores e.1 o.ctx (lockRange o.va (o.va + 256) true)).onMailbox o.mailbox fun x => { x with recvs := x.recvs ++ [e.1] }
  | _ => s

/-- The accumulators in a team's use mask written as its image keeps them, with their marks and last writers (R122, R124). -/
def restoreTiles (s : State) (useMask : Nat) (saved : SavedTeam) (cores : List Nat) : State :=
  let core (j : Nat) : Nat := (cores[j]?).getD 0
  let tiles := cores.flatMap fun c => (oneBits 16 useMask).map fun n => (c, n)
  let mem := tiles.foldl (fun m (x : Nat × Nat) =>
    m.filter fun b => !(accPa x.1 x.2 0 0 ≤ b.1 && b.1 < accPa x.1 x.2 0 0 + 0x10000)) s.mem
  let bare (l : List (Nat × Nat)) : List (Nat × Nat) := tiles.foldl (fun l x => tdel (x.1 * 16 + x.2) l) l
  { s with
    mem := saved.accs.foldl (fun m (b : Nat × Byte) =>
      memWrite m (accPa (core (b.1 / 2 ^ 24)) (b.1 / 2 ^ 16 % 16) 0 0 + b.1 % 2 ^ 16) b.2) mem
    marks := saved.marks.foldl (fun l x => tset (core (x / 16) * 16 + x % 16) 1 l) (bare s.marks)
    writersOf := saved.writersOf.foldl (fun l x => tset (core (x.1 / 16) * 16 + x.1 % 16) x.2 l) (bare s.writersOf) }

/-- The withdrawn receives of a team find an entry each in a core's range-lock table (R97, R243). [DEDUCED: log entry 85] -/
def recvRoom (s : State) (key core : Nat) : Bool :=
  (s.withdrawn.filter fun e => opTeam s e.2 = some key && match e.2 with
    | .recv _ => true
    | _ => false).length ≤ freeLocks s core

/-- A saved team restored on cores that hold it, the lock entries of its receives with it: scratchpad, granules, accumulators, groups,
waits and caged threads; its image is freed. The new cores' L1 keeps no line (R97, R307). [DEDUCED: log entry 85] -/
def restoreTeam (s : State) (key : Nat) (t : Team) (cores : List Nat) : Option State :=
  match t.saved, tget t.launch s.launches with
  | some saved, some l =>
    (if cores.all (recvRoom s key) then seatTeam s t.ctx { l.k with scratch := t.scratch } cores else none).bind fun seats =>
      let old := t.cores
      let pa (off : Nat) : Nat :=
        match seats[off / max 1 t.share]? with
        | some (core, _, base) => onchipPa core (base + off % max 1 t.share)
        | none => onchipBase
      let mem := seats.foldl (fun m (c : Nat × Nat × Nat) =>
        m.filter fun x => !(onchipPa c.1 c.2.2 ≤ x.1 && x.1 < onchipPa c.1 (c.2.2 + t.share))) s.mem
      let mem := saved.scratch.foldl (fun m (b : Nat × Byte) => memWrite m (pa b.1) b.2) mem
      let s := restoreTiles { s with mem := mem } t.useMask saved cores
      let s := seats.foldl (fun s c => emptyGranules s c.1 c.2.2 t.share) s
      let s := saved.full.foldl (fun s g => setFull s (pa g)) s
      let s := cores.foldl invalidateL1 s
      let s := (freeImage s key).onTeam key fun t => { t with cores := seats, saved := none, state := .placed, numbering := s.retiredQuads }
      let gs := sortBy (fun (a b : Nat × Group) => a.2.launchNo ≤ b.2.launchNo) (teamGroups s key)
      (gs.foldl (restoreGroup old seats) (some s)).map fun s =>
        let s := if gs.isEmpty then s else s.onTeam key fun t => { t with state := .running }
        let waits := s.withdrawn.filter fun e => opTeam s e.2 = some key
        let s := waits.foldl (reissue old seats) s
        let s := saved.caged.foldl (fun s e =>
          { s with entrants := tset s.nextKey { e with core := movedCore old seats e.core } s.entrants, nextKey := s.nextKey + 1 }) s
        settle (saved.full.foldl (fun s g => wakeOn s (pa g)) s)
  | _, _ => none

/-- A saved team goes to the lowest core, or pair, of a die that can hold it. -/
def restoreOnDie (die : Nat) (acc : Option State) (key : Nat) : Option State :=
  acc.bind fun s => (tget key s.teams).bind fun t => (tget t.launch s.launches).bind fun l =>
    (coreChoices l.k die).findSome? fun cores => restoreTeam s key t cores

/-- The saved teams of a launch, by cluster then sr.team. -/
def savedTeams (s : State) (launch : Nat) : List (Nat × Team) :=
  sortBy (fun (a b : Nat × Team) => a.2.cluster < b.2.cluster || (a.2.cluster = b.2.cluster && a.2.index ≤ b.2.index))
    (s.teams.filter fun e => e.2.launch = launch && e.2.state = .saved)

/-- The next cluster of a launch to resume: the lowest of which every unfinished team is saved. -/
def resumable (s : State) (launch : Nat) : Option (List Nat) :=
  match savedTeams s launch with
  | [] => none
  | (_, t) :: _ =>
    let of_ := s.teams.filter fun e => e.2.launch = launch && e.2.cluster = t.cluster && e.2.state ≠ .done
    if of_.all fun e => e.2.state = .saved then
      some (((savedTeams s launch).filter fun e => e.2.cluster = t.cluster).map (·.1))
    else none

/-- CLUSTER_RESUME: the lowest saved cluster of a launch is restored on the lowest die that can hold it (R307). -/
def execClusterResume (launch : Nat) (s : State) : Host.Outcome State Fault Refusal :=
  match tget launch s.launches, resumable s launch with
  | some l, some ks =>
    if outranked s l then .next s
    else .next (((openDies s l.ctx).findSome? fun die => ks.foldl (restoreOnDie die) (some s)).getD s)
  | _, _ => .next s

/-! ## Residual service (R308) -/

/-- The pairs of a die. -/
def diePairs (die : Nat) : List (List Nat) :=
  (List.range 72).map fun i => [die * coresPerDie + 2 * i, die * coresPerDie + 2 * i + 1]

/-- The number of cores that a context holds. -/
def coresHeld (s : State) (ctx : Nat) : Nat :=
  ((s.teams.flatMap fun t => if t.2.ctx = ctx && t.2.state ≠ .saved && t.2.state ≠ .done then t.2.cores.map (·.1) else []).eraseDups).length

/-- The context that holds the most cores, the lowest among equals. [DEDUCED: log entry 86] -/
def largestContext (s : State) : Option Nat :=
  ((s.contexts.map (·.1)).filter fun c => coresHeld s c ≠ 0).foldl (fun best c => match best with
    | none => some c
    | some b => if coresHeld s b < coresHeld s c then some c else best) none

/-- A pair whose teams can be saved, with the state in which they are chosen. [DEDUCED: log entry 86] -/
def freePair (s : State) (pair : List Nat) : Option State :=
  if pair.any fun c => !coreEnabled s c || (s.core c).frozen || s.retiring.contains (quadOfCore c)
      || s.residual.any fun r => r.cores.contains c then none
  else chooseTeams s (((pair.flatMap fun c => (teamsOn s c).filterMap fun x =>
    if x.2.1.state = .saving || s.victims.contains x.1 then none else some x.1)).eraseDups)

/-- A residual window begins for a launch: a pair of the largest context on a die open to the launch, or an idle one where no
context holds such a pair. [DEDUCED: log entry 86] -/
def beginResidual (s : State) (launch : Nat) (l : Launch) : State :=
  let pairs := (openDies s l.ctx).flatMap diePairs
  let ofCtx (c : Nat) : List (List Nat) := pairs.filter fun p => p.any fun core => (teamsOn s core).any fun t => t.2.1.ctx = c
  let idle := pairs.filter fun p => p.all fun core => (teamsOn s core).isEmpty
  let choices := (match largestContext s with
    | some c => ofCtx c
    | none => []) ++ idle
  match choices.findSome? fun p => (freePair s p).map fun s => (p, s) with
  | some (p, s) => { s with residual := s.residual ++ [⟨launch, p, [], none⟩] }
  | none => s

/-- Whether a launch receives residual service: of the concurrent or parallel class, with saved teams, and not yet served in this
period. -/
def wantsResidual (s : State) (e : Nat × Launch) : Bool :=
  e.2.status = none && e.2.k.prog ≠ 2 && !(savedTeams s e.1).isEmpty && !(s.residual.any fun r => r.launch = e.1)

/-- The saved teams of a launch from behind the one last served, wrapping round. -/
def residualOrder (s : State) (launch : Nat) (l : Launch) : List (Nat × Team) :=
  let ts := savedTeams s launch
  match l.residual with
  | none => ts
  | some (c, i) =>
    let after (t : Team) : Bool := c < t.cluster || (t.cluster = c && i < t.index)
    ts.filter (fun e => after e.2) ++ ts.filter fun e => !after e.2

/-- A saved team restored onto the pair of a window, if it fits. -/
def serveResidual (r : Residual) (acc : State × List Nat) (e : Nat × Team) : State × List Nat :=
  match (tget e.2.launch acc.1.launches).bind fun l =>
      (if l.k.onPair then [r.cores] else r.cores.map fun c => [c]).findSome? fun cores => restoreTeam acc.1 e.1 e.2 cores with
  | none => acc
  | some s => (s.onLaunch e.2.launch fun l => { l with residual := some (e.2.cluster, e.2.index) }, acc.2 ++ [e.1])

/-- The tiles of the teams restored together onto a pair, written in ascending sr.team (R122). -/
def tilesInOrder (before s : State) (keys : List Nat) : State :=
  let teams := sortBy (fun (a b : Team × List Nat) => a.1.index ≤ b.1.index) (keys.filterMap fun k =>
    match tget k before.teams, tget k s.teams with
    | some old, some new => some (old, new.cores.map (·.1))
    | _, _ => none)
  teams.foldl (fun s x => match x.1.saved with
    | some saved => restoreTiles s x.1.useMask saved x.2
    | none => s) s

/-- Windows whose pair has become free begin: as many saved teams as fit are restored, and 600,000 clk run. -/
def advanceResidual (s : State) : State :=
  s.residual.foldl (fun s r =>
    if r.until_.isSome || r.cores.any fun c => !(teamsOn s c).isEmpty then s
    else
      match tget r.launch s.launches with
      | none => { s with residual := s.residual.filter (· ≠ r) }
      | some l =>
        let s' := { s with residual := s.residual.filter (· ≠ r) }
        let (s', ks) := (residualOrder s r.launch l).foldl (serveResidual r) (s', [])
        let s' := tilesInOrder s s' ks
        { s' with residual := s'.residual ++ [{ r with teams := ks, until_ := some (s.clk + 600000) }] }) s

/-- RESIDUAL_PERIOD: every 12,000,000 clk each launch that has saved teams is given a pair. [DEDUCED: log entry 14] -/
def execResidualPeriod (s : State) : Host.Outcome State Fault Refusal :=
  if s.clk < s.glob.residualAt then .next s
  else
    let s := { s with glob := { s.glob with residualAt := (s.clk / 12000000 + 1) * 12000000 } }
    let s := (s.launches.filter (wantsResidual s)).foldl (fun s e => beginResidual s e.1 e.2) s
    .next (advanceResidual (advanceSaves s))

/-- RESIDUAL_WINDOW_END: at the end of a window its teams are saved again. -/
def execResidualWindowEnd (s : State) : Host.Outcome State Fault Refusal :=
  let ended := s.residual.filter fun r => r.until_.any fun u => u ≤ s.clk
  let s := { s with residual := s.residual.filter fun r => !ended.contains r }
  .next (advanceSaves ((ended.flatMap (·.teams)).foldl (fun s k =>
    if (tget k s.teams).any (savable s k) then (chooseTeam s k).getD s else s) s))

/-! ## Retirement of a quad (R16, R310) -/

/-- The cores of a quad. -/
def quadCores (q : Nat) : List Nat := [4 * q, 4 * q + 1, 4 * q + 2, 4 * q + 3]

/-- Quads being retired that hold nothing any more enter the retirement map; their frozen masters are released (R310, R317).
[DEDUCED: log entry 87] -/
def advanceRetiring (s : State) : State :=
  s.retiring.foldl (fun s q =>
    let cores := quadCores q
    if cores.any fun c => !(teamsOn s c).isEmpty || (s.cages.any fun e => e.1 / 64 = c) || s.entrants.any fun e => e.2.core = c then s
    else
      let gone (f : MasterKind × Nat) : Bool := ((f.1 = .core || f.1 = .copyEngine) && cores.contains f.2)
        || ((f.1 = .matrixSequencer || f.1 = .tileFetch) && f.2 = q)
      { s with
        retiredQuads := s.retiredQuads ++ [q]
        retiring := s.retiring.filter (· ≠ q)
        frozen := s.frozen.filter fun f => !gone f
        heldMasters := s.heldMasters.filter fun h => !gone h.1
        cores := s.cores.map fun e => if cores.contains e.1 then (e.1, { e.2 with frozen := false }) else e }) s

/-- QUAD_RETIRE: issue to the quad is frozen, its teams are saved whatever their priority, and the retirement map is updated once
they are. A context one of whose teams there cannot be saved is terminated. [DEDUCED: log entry 87] -/
def execQuadRetire (die quad : Nat) (s : State) : Host.Outcome State Fault Refusal :=
  let q := die * quadsPerDie + quad
  if 4 ≤ die || quadsPerDie ≤ quad || s.retiredQuads.contains q || s.retiring.contains q then .next s
  else
    let s := { s with retiring := s.retiring ++ [q] }
    let keys := ((quadCores q).flatMap fun c => (teamsOn s c).map (·.1)).eraseDups
    let s := keys.foldl (fun s k => match tget k s.teams with
      | none => s
      | some t =>
        if t.state = .saving || s.victims.contains k then s
        else if savable s k t then (chooseTeam s k).getD (terminateContext s t.ctx)
        else terminateContext s t.ctx) s
    .next (advanceRetiring (advanceSaves s))

/-- TEAM_SAVED: once nothing of the team is outstanding its image is written and it is SAVED; the next save begins, and what waited
for its cores goes on (R305). -/
def execTeamSaved (team : Nat) (s : State) : Host.Outcome State Fault Refusal :=
  match tget team s.teams with
  | none => .next s
  | some t =>
    if t.state ≠ .saving || !saveReady s team then .next s
    else .next (advanceResidual (advanceRetiring (advanceSaves (saveTeam s team t))))

/-- What waits for cores to become free is looked at again. -/
def settleSaves (s : State) : State := advanceResidual (advanceRetiring (advanceSaves s))

/-! ## Inversion records (R309) -/

/-- INVERSION_TIMEOUT: for INVTMO clk, and for every further INVTMO clk, no thread of an uncompleted launch has issued a word: a KIND 8
record. [DEDUCED: log entry 4] -/
def execInversionTimeout (launch : Nat) (s : State) : Host.Outcome State Fault Refusal :=
  match tget launch s.launches with
  | none => .next s
  | some l =>
    if l.status ≠ none || s.clk < max l.lastIssue l.reported + s.glob.invtmo then .next s
    else
      let s := s.onLaunch launch fun l => { l with reported := s.clk }
      .next (errorRecord s l.ctx 8 0 0 (leBytes 8 l.id ++ leBytes 8 (s.clk - l.lastIssue)))

/-! ## Checkpoint intervals (R311, R312) -/

/-- The state of a team at a boundary, as rollback restores it. -/
def intervalAt (s : State) (key : Nat) (t : Team) (boundary : Nat × Nat) : Interval where
  threads := s.threads.filter fun e => e.2.team = key
  groups := teamGroups s key
  barriers := t.barriers
  scratch := t.cores.flatMap fun c => (addrs (onchipPa c.1 c.2.2) t.share).map fun a => (a, memRead s.mem a)
  full := s.full.filter fun g => t.cores.any fun c => onchipPa c.1 c.2.2 ≤ g && g < onchipPa c.1 (c.2.2 + t.share)
  boundary := boundary
  lost := false
  rolledBack := false
  closing := false
  first := s.nextKey
  due := false

/-- INTERVAL_BOUNDARY_COMPLETE: the released sectors have completed at .dev; the threads that waited for the boundary go on, and a
new interval with rollback begins. -/
def execIntervalBoundaryComplete (team : Nat) (s : State) : Host.Outcome State Fault Refusal :=
  match tget team s.teams with
  | none => .next s
  | some t =>
    match t.interval with
    | none => .next s
    | some iv =>
      let pending := s.ops.any fun e => match e.2 with
        | .store o => o.team = team
        | .tile o => o.storing && o.team = team
        | _ => false
      if !iv.closing || pending || t.state = .saved then .next s
      else
        let b := iv.boundary.1
        let s := wakeBarrier s team b
        match tget team s.teams with
        | none => .next s
        | some t =>
          let s := s.onTeam team fun t' => { t' with interval := some (intervalAt s team t iv.boundary) }
          .next (barrierTest s team b)

end Sys2Proof.Machine
end

