-- ==== Sys2Proof/Machine/Sha.lean ====
section
/-! DEFINITION. SHA-256 over bytes, which the Assayer and the SPDM responder use (spec/25_faults_reliability.md R319;
spec/27_host_startup.md R329). The function itself is the public standard's (FIPS 180-4), which spec/ names. -/

namespace Sys2Proof.Machine

/-- The 64 round constants: first 32 fraction bits of the cube roots of the first 64 primes. [PRESUMED: log entry 10] -/
def shaK : List Word32 :=
  [0x428A2F98, 0x71374491, 0xB5C0FBCF, 0xE9B5DBA5, 0x3956C25B, 0x59F111F1, 0x923F82A4, 0xAB1C5ED5,
   0xD807AA98, 0x12835B01, 0x243185BE, 0x550C7DC3, 0x72BE5D74, 0x80DEB1FE, 0x9BDC06A7, 0xC19BF174,
   0xE49B69C1, 0xEFBE4786, 0x0FC19DC6, 0x240CA1CC, 0x2DE92C6F, 0x4A7484AA, 0x5CB0A9DC, 0x76F988DA,
   0x983E5152, 0xA831C66D, 0xB00327C8, 0xBF597FC7, 0xC6E00BF3, 0xD5A79147, 0x06CA6351, 0x14292967] ++
  [0x27B70A85, 0x2E1B2138, 0x4D2C6DFC, 0x53380D13, 0x650A7354, 0x766A0ABB, 0x81C2C92E, 0x92722C85,
   0xA2BFE8A1, 0xA81A664B, 0xC24B8B70, 0xC76C51A3, 0xD192E819, 0xD6990624, 0xF40E3585, 0x106AA070,
   0x19A4C116, 0x1E376C08, 0x2748774C, 0x34B0BCB5, 0x391C0CB3, 0x4ED8AA4A, 0x5B9CCA4F, 0x682E6FF3,
   0x748F82EE, 0x78A5636F, 0x84C87814, 0x8CC70208, 0x90BEFFFA, 0xA4506CEB, 0xBEF9A3F7, 0xC67178F2]

/-- A 32-bit word rotated right. -/
def rotr (x : Word32) (n : Nat) : Word32 := (x >>> n) ||| (x <<< (32 - n))

/-- The eight words of the hash state. -/
structure Sha where
  a : Word32
  b : Word32
  c : Word32
  d : Word32
  e : Word32
  f : Word32
  g : Word32
  h : Word32
  deriving DecidableEq, Repr

/-- The first hash state. -/
def Sha.first : Sha :=
  ⟨0x6A09E667, 0xBB67AE85, 0x3C6EF372, 0xA54FF53A, 0x510E527F, 0x9B05688C, 0x1F83D9AB, 0x5BE0CD19⟩

/-- One round with its constant and schedule word. [PRESUMED: log entry 10] -/
def Sha.round (s : Sha) (kw : Word32 × Word32) : Sha :=
  let t1 := s.h + (rotr s.e 6 ^^^ rotr s.e 11 ^^^ rotr s.e 25) + ((s.e &&& s.f) ^^^ (~~~s.e &&& s.g)) + kw.1 + kw.2
  let t2 := (rotr s.a 2 ^^^ rotr s.a 13 ^^^ rotr s.a 22) + ((s.a &&& s.b) ^^^ (s.a &&& s.c) ^^^ (s.b &&& s.c))
  ⟨t1 + t2, s.a, s.b, s.c, s.d + t1, s.e, s.f, s.g⟩

/-- The word-by-word sum of two states. -/
def Sha.plus (x y : Sha) : Sha :=
  ⟨x.a + y.a, x.b + y.b, x.c + y.c, x.d + y.d, x.e + y.e, x.f + y.f, x.g + y.g, x.h + y.h⟩

/-- The schedule from the last 16 words, newest last: `n` more words. -/
def shaSchedule : Nat → List Word32 → List Word32
  | 0, _ => []
  | n + 1, w =>
    let w2 := w.getD 14 0
    let w15 := w.getD 1 0
    let x := (rotr w2 17 ^^^ rotr w2 19 ^^^ (w2 >>> 10)) + w.getD 9 0 + (rotr w15 7 ^^^ rotr w15 18 ^^^ (w15 >>> 3)) + w.getD 0 0
    x :: shaSchedule n (w.drop 1 ++ [x])

/-- Words of big-endian bytes. -/
def beWords : List Byte → List Word32
  | a :: b :: c :: d :: rest => (a ++ b ++ c ++ d) :: beWords rest
  | _ => []

/-- One block of 16 words. -/
def Sha.block (s : Sha) (w : List Word32) : Sha := ((shaK.zip (w ++ shaSchedule 48 w)).foldl Sha.round s).plus s

/-- The blocks of a padded message. -/
def Sha.blocks : Nat → List Word32 → Sha → Sha
  | 0, _, s => s
  | n + 1, w, s => Sha.blocks n (w.drop 16) (s.block (w.take 16))

/-- Big-endian bytes of a value. -/
def beBytes (n v : Nat) : List Byte := (leBytes n v).reverse

/-- SHA-256 of bytes: 32 bytes. [PRESUMED: log entry 10] -/
def sha256 (bs : List Byte) : List Byte :=
  let pad := (119 - bs.length % 64) % 64
  let msg := bs ++ [0x80] ++ List.replicate pad 0 ++ beBytes 8 (8 * bs.length)
  let s := Sha.blocks (msg.length / 64) (beWords msg) Sha.first
  [s.a, s.b, s.c, s.d, s.e, s.f, s.g, s.h].flatMap fun w => beBytes 4 w.toNat

end Sys2Proof.Machine
end

