-- ==== Sys2Proof/Machine/Reliability.lean ====
section
/-! DEFINITION. Reliability: patrol, frozen masters, the Assayer, row activations, the counters that clear when read, and the power
limit (spec/25_faults_reliability.md R315 to R320; spec/27_host_startup.md R323). -/

namespace Sys2Proof.Machine

/-! ## The patrol (R315) -/

/-- The first virtual address that a table of a context maps to a physical page, found by walking the whole table (R76).
[DEDUCED: log entry 98] -/
def mappedFrom (s : State) (die pa : Nat) : Nat → Nat → Nat → Nat → Option Nat
  | 0, _, _, _ => none
  | fuel + 1, level, table, va =>
    (List.range (2 ^ (if level = 4 then 5 else 9))).findSome? fun i =>
      let e := dieValue s die (table + 8 * i) 8
      let va := va + i * 2 ^ levelShift level
      if hbmBytes ≤ table + 8 * i || !bit e 0 || entryReserved level e then none
      else if bit e 1 then
        let base := bits e 16 40 * 65536
        if 2 ≤ level && bits e 6 2 = 0 && base ≤ pa && pa < base + 2 ^ levelShift level then some (va + (pa - base)) else none
      else if level = 4 then none
      else mappedFrom s die pa fuel (level + 1) (bits e 16 40 * 65536 + (if level = 3 then bits e 8 8 * 256 else 0)) va

/-- The lowest open context that maps a physical address, and where. [DEDUCED: log entry 98] -/
def pageOwner (s : State) (pa : Nat) : Option (Nat × Nat) :=
  s.contexts.findSome? fun e =>
    if e.2.state = 1 || e.2.state = 2 then
      (mappedFrom s (firstDie s e.1) pa 5 0 e.2.desc.ptroot 0).map fun va => (e.1, if va < 2 ^ 56 then va else va + 2 ^ 64 - 2 ^ 57)
    else none

/-- A KIND 6 record of a sector of HBM for the context that owns its page, or for the management processor's log.
[DEDUCED: log entry 98] -/
def patrolRecord (s : State) (pa cause sev : Nat) : State :=
  let place := pa / dieHbmBytes * 256
  match pageOwner s pa with
  | some (ctx, va) => unitRecord s ctx cause sev pa va 0 place
  | none => unitRecord s 64 cause sev pa noVa 0 place

/-- PATROL_SCRUB: the patrol reads a sector; a corrected error is reported, an uncorrectable one poisons the sector.
[DEDUCED: log entry 60] -/
def execPatrolScrub (sector : Nat) (finding : EccFinding) (s : State) : Host.Outcome State Fault Refusal :=
  if sector % 64 ≠ 0 || hbmBytes ≤ sector then .next s
  else
    match finding with
    | .clean => .next s
    | .corrected => .next (patrolRecord s sector 0 1)
    | .uncorrectable =>
      .next (patrolRecord { s with poison := if s.poison.contains sector then s.poison else sector :: s.poison } sector 0x50 2)

/-- Whether a granule holds storage that R315 protects beside HBM: a sector of which the L2 holds bytes, or a word of on-chip storage or
of a core's L1. [DESIGN CHOICE: log entry 102] -/
def wordHeld (s : State) (g : Nat) : Bool :=
  if g < hbmBytes then g % 64 = 0 && s.l2.any fun e => e.1 / 64 = g / 64
  else if 2 ^ 64 ≤ g then
    (addrs (granulePa g) 4).any fun a => (tget (l1Key ((g - 2 ^ 64) / 2 ^ 56) a) s.l1).isSome
  else hbmBytes ≤ g && g % 4 = 0 && granuleUnit s g ≠ 0

/-- A KIND 6 record of a sector of L2 or of a word: of L2 and L1 for the context that owns its page, of other on-chip storage for the context on its core, or
for the management processor's log. [DESIGN CHOICE: log entry 102] -/
def wordRecord (s : State) (g cause sev : Nat) : State :=
  let core := granuleCore s g
  let owner : Option (Nat × Nat) := if g < hbmBytes || 2 ^ 64 ≤ g then pageOwner s (granulePa g)
    else (((teamsOn s core).map fun t => t.2.1.ctx).head?).map fun c => (c, 2 ^ 64 - 1)
  match owner with
  | some (ctx, va) => memoryRecord s ctx cause sev g va 0
  | none => memoryRecord s 64 cause sev g (2 ^ 64 - 1) 0

/-- An error in a sector of L2, or in a 32-bit word of L1, the scratchpad, the register file or an accumulator: one bit is corrected and
recorded; two poison the sector or word (R315). [DESIGN CHOICE: log entry 102] -/
def wordError (s : State) (g : Nat) (corrected : Bool) : State :=
  if !wordHeld s g then s
  else if corrected then wordRecord s g 0 1
  else { s with poison := if s.poison.contains g then s.poison else g :: s.poison }

/-! ## Frozen masters (R317) -/

/-- Masters of a kind, by identity: cores and their copy engines by core key, sequencers and fetch units by quad key, harts by
die × 32 + hart, and the one host function. -/
def masterExists (s : State) (kind : MasterKind) (identity : Nat) : Bool :=
  match kind with
  | .core => identity < 4 * coresPerDie && coreEnabled s identity
  | .copyEngine => identity < 4 * coresPerDie && coreEnabled s identity
  | .matrixSequencer => identity < 4 * quadsPerDie && !s.retiredQuads.contains identity
  | .tileFetch => identity < 4 * quadsPerDie && !s.retiredQuads.contains identity
  | .hart => identity < 128
  | .hostFunction => identity = 0

/-- The contexts that are not closed. -/
def openContexts (s : State) : List Nat := (s.contexts.filter fun e => e.2.state ≠ 0).map (·.1)

/-- Containment of a class 3 error: every context is terminated, and the device sends nothing more until a start (R317).
[DESIGN CHOICE: log entry 102] -/
def containAll (s : State) : State :=
  (openContexts s).foldl terminateContext { s with glob := { s.glob with contained := true } }

/-- An error in state that no single context owns: a corrected one is recorded in the management processor's log; an
uncorrectable one is recorded there with class 3 and contained (R315, R317). [DESIGN CHOICE: log entry 102] -/
def ownerlessError (s : State) (pa len place : Nat) (corrected : Bool) : State :=
  let body := leBytes 8 pa ++ leBytes 8 len ++ leBytes 8 (2 ^ 64 - 1) ++ leBytes 8 place ++ leBytes 8 0
  if corrected then errorRecord s 64 6 0 1 body else containAll (errorRecord s 64 6 0x50 3 body)

/-- The cores that freeze with a master. -/
def frozenCores (kind : MasterKind) (identity : Nat) : List Nat :=
  match kind with
  | .core => [identity]
  | .copyEngine => [identity]
  | .matrixSequencer => quadCores identity
  | .tileFetch => quadCores identity
  | _ => []

/-- The contexts with teams on cores. -/
def contextsOn (s : State) (cores : List Nat) : List Nat :=
  (cores.flatMap fun c => (teamsOn s c).map fun t => t.2.1.ctx).eraseDups

/-- A matrix command that its sequencer will not carry on: it retires with a status, and nothing more of it is written.
[DESIGN CHOICE: log entry 113] -/
def haltCommand (s : State) (key : Nat) (e : MatrixEntry) (status : Nat) : State :=
  { s with matrix := tset key { e with
      state := .running
      steps := []
      pins := []
      carry := []
      due := some s.clk
      status := status
      bad := some (0, 2 ^ 64 - 1, 0) } s.matrix }

/-- The commands of a frozen engine are to retire with status unassigned target, having done no more (R317).
[DESIGN CHOICE: log entry 113] -/
def failCommands (s : State) (kind : MasterKind) (identity : Nat) : State :=
  let quad (s : State) : State :=
    let mine := quadEntries s identity
    let s := { s with ops := s.ops.filter fun e => match e.2 with
      | .drain _ => !(mine.any fun m => drainKey m.2 = e.1)
      | _ => true }
    mine.foldl (fun s e => haltCommand s e.1 e.2 4) s
  match kind with
  | .copyEngine =>
    { s with ops := s.ops.map fun e => match e.2 with
        | .copy o => if o.core = identity then (e.1, .copy { o with pieces := [], status := 4 }) else e
        | .fabric o =>
          if o.core = identity then
            (e.1, .fabric { o with packets := [], pend := [], acks := 0, status := 4, bad := some (0, 2 ^ 64 - 1, 0) })
          else e
        | _ => e }
  | .matrixSequencer => quad s
  | .tileFetch => quad s
  | _ => s

/-- The state of a frozen master, as it stands when it freezes (R317). -/
def heldState (s : State) (kind : MasterKind) (identity : Nat) : HeldMaster :=
  let cores := frozenCores kind identity
  let teams := s.teams.filter fun e => e.2.cores.any fun c => cores.contains c.1
  let mine (k : Nat) : Bool := teams.any fun e => e.1 = k
  { teams := teams
    groups := s.groups.filter fun e => mine e.2.team && e.2.state ≠ .saved
    threads := s.threads.filter fun e => mine e.2.team
    cages := s.cages.filter fun e => cores.contains (e.1 / 64)
    ports := s.ports.filter fun e => cores.any fun c => portKey c 0 .va ≤ e.1 && e.1 < portKey (c + 1) 0 .va
    cores := s.cores.filter fun e => cores.contains e.1
    ops := s.ops.filter fun e => (opTeam s e.2).any mine
    matrix := s.matrix.filter fun e => e.2.cores.any cores.contains
    onchip := s.mem.filter fun e => onchipBase ≤ e.1 && cores.contains (regionOf s e.1).1
    rows := s.rows.filter fun e => cores.contains (e.1 / (8 * 64 * 1024))
    hart := if kind = .hart then tget identity s.harts else none }

/-- A KIND 10 record for each context affected, or for the management processor's log (R301, R332).
[DESIGN CHOICE: log entry 8] -/
def freezeRecord (s : State) (ctxs : List Nat) (kind : MasterKind) (identity code : Nat) : State :=
  let body := leBytes 8 (Config.masterCode kind) ++ leBytes 8 identity ++ leBytes 8 code
  let sev := if kind = .hostFunction then 3 else 2
  (if ctxs.isEmpty then [64] else ctxs).foldl (fun s c => errorRecord s c 10 0 sev body) s

/-- MASTER_FREEZE: a master that breaks an internal protocol issues nothing more; it is reported, and its effect is contained as the
table of R317 states. -/
def execMasterFreeze (kind : MasterKind) (identity code : Nat) (s : State) : Host.Outcome State Fault Refusal :=
  if !masterExists s kind identity || s.frozen.contains (kind, identity) then .next s
  else
    let cores := frozenCores kind identity
    let ctxs := match kind with
      | .hostFunction => openContexts s
      | .hart => (((s.hart identity).mailbox).map fun m => [(s.mailbox m).ctx]).getD []
      | _ => contextsOn s cores
    let s := { freezeRecord s ctxs kind identity code with heldMasters := s.heldMasters ++ [((kind, identity), heldState s kind identity)] }
    let s := cores.foldl (fun s c => s.onCore c fun x => { x with frozen := true }) s
    let s := match kind with
      | .core => ctxs.foldl terminateContext s
      | .hostFunction => containAll s
      | .hart => match (s.hart identity).mailbox with
        | some m => endEpisode s m 3
        | none => s
      | _ => failCommands s kind identity
    .next { s with frozen := s.frozen ++ [(kind, identity)] }

/-- MASTER_RESET: a frozen master is released, and its held state goes; its cores issue again unless another master holds them. -/
def execMasterReset (kind : MasterKind) (identity : Nat) (s : State) : Host.Outcome State Fault Refusal :=
  if !s.frozen.contains (kind, identity) then .next s
  else
    let left := s.frozen.filter (· ≠ (kind, identity))
    .next ((frozenCores kind identity).foldl (fun s c =>
      s.onCore c fun x => { x with frozen := left.any fun f => (frozenCores f.1 f.2).contains c })
      { s with frozen := left, heldMasters := s.heldMasters.filter fun h => h.1 ≠ (kind, identity) })

/-! ## The Assayer (R318, R319) -/

/-- The output range of a team. -/
def outputOf (a : Assay) (team : Nat) : Nat × Nat := (low 64 (a.out + team * a.ostride), a.olen)

/-- The physical address of each byte of a range of a context; none where a page is missing. -/
def rangePas (s : State) (ctx va n : Nat) : Option (List Nat) :=
  match resolveRange s (firstDie s ctx) ctx 0 ⟨true, false, false, true⟩ (pieceFuel n) va n with
  | .ok ps => some (ps.flatMap fun p => addrs p.1.pa p.2)
  | .error _ => none

/-- The replay of a sample starts on a die other than the one its team finished on, if a core there has room. -/
def startReplay (s : State) (n : Nat) (x : Sample) (l : Launch) : State :=
  let (key, s') := s.fresh
  let replay : Launch := { l with
    kind := .replay n, sys := true, order := key, numbering := s.retiredQuads, handles := [], assay := none, placed := 1, finished := [], retired := 0
    firstGroup := none, staged := [], status := none, residual := none, unsampled := [], reported := 0, lastIssue := s.clk }
  let dies := (openDies s l.ctx).filter (· ≠ x.die)
  let s' := { s' with
    launches := tset key replay s'.launches
    samples := tset n { x with replay := some key } s'.samples }
  match dies.findSome? fun die => placeOnDie key 0 replay die (some s') x.team with
  | some s => s
  | none => s

/-- ASSAYER_SAMPLE: a sampled team has finished: its output is hashed and the replay starts as soon as a core has room; beyond 64
waiting samples it is dropped. -/
def execAssayerSample (launch team : Nat) (s : State) : Host.Outcome State Fault Refusal :=
  match tget launch s.launches with
  | none => .next s
  | some l =>
    match s.samples.find? fun e => e.2.launch = launch && e.2.team = team && e.2.replay.isNone with
    | some (n, x) => .next (startReplay s n x l)
    | none =>
      match l.unsampled.find? fun u => u.1 = team, l.assay with
      | some (_, die), some a =>
        let s := s.onLaunch launch fun l => { l with unsampled := l.unsampled.filter fun u => u.1 ≠ team }
        if 64 ≤ s.samples.length then
          .next (dropInputs { s with glob := { s.glob with adrop := low 64 (s.glob.adrop + 1) } } launch)
        else
          let (va, n) := outputOf a team
          let (key, s) := s.fresh
          let x : Sample := ⟨launch, team, l.ctx, die, sha256 ((ctxRead s l.ctx va n).getD []), none, [], false, va, n⟩
          .next (startReplay { s with samples := tset key x s.samples } key x l)
      | _, _ => .next s

/-- Everything of a replay is gone from the package. [DEDUCED: log entry 105] -/
def removeReplay (s : State) (key : Nat) : State :=
  let dead := (s.threads.filter fun e => e.2.launch = key).map (·.1)
  let teams := (s.teams.filter fun e => e.2.launch = key).map (·.1)
  let ctx := ((tget key s.launches).map (·.ctx)).getD 0
  let s := teams.foldl freeImage (dead.foldl leaveIssue s)
  let s := (s.groups.filter fun e => e.2.launch = key && e.2.state ≠ .saved).foldl (fun s e => shedRows s e.1 0) s
  let s := abandon s (fun _ o => (opTeam s o).any fun t => teams.contains t) fun e => teams.contains e.team
  let s := { s with
    withdrawn := s.withdrawn.filter fun (e : Nat × Op) => !((opTeam s e.2).any fun t => teams.contains t)
    cages := s.cages.filter fun (e : Nat × Cage) => !teams.contains e.2.team
    entrants := s.entrants.filter fun (e : Nat × Entrant) => !dead.contains e.2.thread
    threads := s.threads.filter fun (e : Nat × Thread) => e.2.launch ≠ key
    groups := s.groups.filter fun (e : Nat × Group) => e.2.launch ≠ key
    teams := s.teams.filter fun (e : Nat × Team) => e.2.launch ≠ key
    launches := tdel key s.launches }
  dropTrapSlots s ctx dead

/-- The bytes of a replay's buffer: what it wrote, over what the range held. -/
def replayBytes (s : State) (x : Sample) : List Byte :=
  match rangePas s x.ctx x.out x.len with
  | some pas => pas.map fun a => (tget a x.buffer).getD (homeByte s a)
  | none => []

/-- Whether the team of a replay is done and all it wrote has reached its buffer. -/
def replayDone (s : State) (key : Nat) : Bool :=
  let mine := s.teams.filter fun e => e.2.launch = key
  !mine.isEmpty && mine.all fun e => e.2.state = .done && !(s.ops.any fun o => opTeam s o.2 = some e.1)
    && !(s.matrix.any fun m => m.2.team = e.1)

/-- ASSAYER_REPLAY_END: a discard has ended the replay unverified, or its team is done: its hash is compared, and a mismatch writes a
KIND 7 record. -/
def execAssayerReplayEnd (sample : Nat) (s : State) : Host.Outcome State Fault Refusal :=
  match tget sample s.samples with
  | none => .next s
  | some x =>
    match x.replay with
    | none => .next s
    | some key =>
      let fin (s : State) : State :=
        let s := removeReplay { s with samples := tdel sample s.samples } key
        finishClose (dropInputs s x.launch) x.ctx
      if x.unverifiable then
        .next (fin { s with glob := { s.glob with aunver := low 64 (s.glob.aunver + 1) } })
      else if !replayDone s key then .next s
      else
        let s2 := sha256 (replayBytes s x)
        let die := ((s.teams.findSome? fun e => if e.2.launch = key then e.2.cores.head? else none).map fun c => dieOfCore c.1).getD 0
        let s := { s with glob := { s.glob with asamp := low 64 (s.glob.asamp + 1) } }
        let id := ((tget key s.launches).map (·.id)).getD 0
        let s := if s2 = x.s1 then s
          else errorRecord s x.ctx 7 0 2 (leBytes 8 id ++ leBytes 8 x.team ++ leBytes 8 (die * 256 + x.die)
            ++ x.s1.take 8 ++ s2.take 8 ++ leBytes 8 x.out)
        .next (fin s)

/-! ## Row activations (R13, R77, R320) -/

/-- ROW_ACTIVATION_ALERT: a row's count has reached RMT: the management processor is alerted, ALERTS rises, the count starts again, and the bank is held for 96 clk, or 96
more. -/
def execRowActivationAlert (die ctrl bank row : Nat) (s : State) : Host.Outcome State Fault Refusal :=
  let d := s.die die
  match d.rows.find? fun r => r.1 = (ctrl, bank, row) with
  | some (_, n) =>
    if n < d.rmt then .next s
    else
      let start := ((d.holds.find? fun h => h.1 = (ctrl, bank)).map fun h => max s.clk h.2).getD s.clk
      let s := { s with glob := { s.glob with alerted := s.glob.alerted ++ [(die, ctrl, bank, row)] } }
      .next (s.onDie die fun d => { d with
        alerts := low 32 (d.alerts + 1)
        rows := d.rows.filter fun r => r.1 ≠ (ctrl, bank, row)
        holds := ((ctrl, bank), start + 96) :: d.holds.filter fun h => h.1 ≠ (ctrl, bank) })
  | none => .next s

/-- BANK_HOLD_END: the hold's time has passed, and requests to the bank go on. -/
def execBankHoldEnd (die ctrl bank : Nat) (s : State) : Host.Outcome State Fault Refusal :=
  if (s.die die).holds.any fun h => h.1 = (ctrl, bank) && h.2 ≤ s.clk then
    .next (s.onDie die fun d => { d with holds := d.holds.filter fun h => h.1 ≠ (ctrl, bank) })
  else .next s

/-! ## Fields that clear when read (R5, R320, R323) -/

/-- ALERTS_READ: the host reads the word with ALERTS and RMT; ALERTS clears; before READY it meets Unsupported Request (R330). -/
def execAlertsRead (die : Nat) (s : State) : Host.Outcome State Fault Refusal :=
  if 4 ≤ die then .next s
  else if !s.glob.ready then .next (toHost s .unsupported)
  else
    let d := s.die die
    .next ((toHost s (.completion (leBytes 8 (d.alerts * 2 ^ 32 + d.rmt)))).onDie die fun d => { d with alerts := 0 })

/-- ASAMP_READ. -/
def execAsampRead (s : State) : Host.Outcome State Fault Refusal :=
  .next { toHost s (.completion (leBytes 8 s.glob.asamp)) with glob := { s.glob with asamp := 0 } }

/-- ADROP_READ. -/
def execAdropRead (s : State) : Host.Outcome State Fault Refusal :=
  .next { toHost s (.completion (leBytes 8 s.glob.adrop)) with glob := { s.glob with adrop := 0 } }

/-- AUNVER_READ. -/
def execAunverRead (s : State) : Host.Outcome State Fault Refusal :=
  .next { toHost s (.completion (leBytes 8 s.glob.aunver)) with glob := { s.glob with aunver := 0 } }

/-! ## The power limit (R323) -/

/-- POWER_LIMIT_THROTTLE: an average over 65,536 clk, in W, is known: above PLIM issue is held on whole bays, until one is below.
[DESIGN CHOICE: log entry 7; DESIGN CHOICE: log entry 101] -/
def execPowerLimitThrottle (average : Nat) (s : State) : Host.Outcome State Fault Refusal :=
  if s.glob.plim < average then
    .next (if s.throttled.isSome then s else { s with throttled := some s.draws, draws := s.draws + 1 })
  else if average < s.glob.plim then .next { s with throttled := none }
  else .next s

end Sys2Proof.Machine
end

