-- ==== Sys2Proof/Machine/Startup.lean ====
section
/-! DEFINITION. Start-up and attestation (spec/27_host_startup.md R329, R330). -/

namespace Sys2Proof.Machine

/-! ## The steps of a start (R330) -/

/-- The step after a step that has succeeded: a warm start skips steps 2 to 4 while CALOK is set, and step 5 where they did not
run; 0 after step 8. -/
def nextStep (g : Global) : Nat :=
  match g.step with
  | 1 => if g.warm && g.calok then 6 else 2
  | 8 => 0
  | n => n + 1

/-- A start begins at step 1: READY falls at once, FAIL reads 0 while it runs, and every context is terminated without saving.
It ends a containment, and the freeze of the host function with it (R317). [DEDUCED: log entry 16] -/
def beginStart (s : State) (warm : Bool) : State :=
  let live := (s.contexts.filter fun e => e.2.state = 1 || e.2.state = 2).map (·.1)
  let s := live.foldl terminateContext { s with frozen := s.frozen.filter fun m => m.1 ≠ .hostFunction }
  { s with glob := { s.glob with
      ready := false, fail := 0, kind := if warm then 1 else 0, step := 1, warm := warm, ran := false, contained := false } }

/-- Whether a physical address lies in a preserved range (R323). -/
def preserved (s : State) (pa : Nat) : Bool := s.glob.pranges.any fun r => r.2.1 ≤ pa && pa < r.2.1 + r.2.2

/-- Step 6: HBM and on-chip storage are zeroed with their ECC; a warm start keeps the preserved ranges of HBM with their poison
(R315, R330). -/
def zeroStorage (s : State) : State :=
  let keep (pa : Nat) : Bool := s.glob.warm && pa < hbmBytes && preserved s pa
  { s with
    mem := s.mem.filter fun c => keep c.1
    l2 := s.l2.filter fun c => keep c.1
    poison := s.poison.filter keep
    l1 := []
    presence := []
    rows := []
    full := []
    evictFirst := []
    l1EvictFirst := []
    ops := [] }

/-- Stores and atomics issued before the start that have not been performed (R296). [DEDUCED: log entry 45] -/
def writesLeft (s : State) : Bool := s.ops.any fun e => e.2.issuedWrite

/-- Step 7: contexts, windows, mailboxes and tables at their reset values; what the step does not name stays: memory, the
retirement map, the global block, and what has reached the host or left the package. The id counter starts at 0 (R327).
[DEDUCED: log entry 18] -/
def clearTables (s : State) : State :=
  { State.reset with
    clk := s.clk, readyAt := s.readyAt, agenda := s.agenda, draws := s.draws, nextKey := s.nextKey
    mem := s.mem, l2 := s.l2, poison := s.poison
    retiredQuads := s.retiredQuads, retiredPorts := s.retiredPorts
    outbox := s.outbox, mgmtLog := s.mgmtLog, host := s.host, msix := s.msix, spdm := s.spdm, glob := s.glob }

/-- What a step that succeeds has done. [DEDUCED: log entry 18] -/
def stepEffect (s : State) : State :=
  match s.glob.step with
  | 2 => { s with glob := { s.glob with ran := true } }
  | 5 => { s with draws := s.draws + 1, glob := { s.glob with calok := true, calibration := some s.draws } }
  | 6 => zeroStorage s
  | 7 => clearTables s
  | 8 => { s with readyAt := s.clk, glob := { s.glob with ready := true } }
  | _ => s

/-- START_STEP_END: the running step succeeds, and the next one begins; or it fails: the start stops with its number in FAIL and
READY at 0, and a failure at step 2, 3 or 4 clears CALOK. Step 6 zeroes storage after every write issued before the start has been
performed, so that none lands later. -/
def execStartStepEnd (ok : Bool) (s : State) : Host.Outcome State Fault Refusal :=
  let n := s.glob.step
  if n = 0 then .next s
  else if ok && n = 6 && writesLeft s then .next s
  else if ok then
    let s := stepEffect s
    .next { s with glob := { s.glob with step := nextStep s.glob } }
  else
    .next { s with glob := { s.glob with
      fail := n, step := 0, ready := false, calok := s.glob.calok && !(2 ≤ n && n ≤ 4) } }

/-- POWER_ON_RESET: every register at its reset value and a cold start at step 1. The retirement map is fused and what has
reached the host stays with it (R16, R330). [DESIGN CHOICE: log entry 17] -/
def execPowerOnReset (s : State) : Host.Outcome State Fault Refusal :=
  .next { State.reset with
    agenda := s.agenda, draws := s.draws, nextKey := s.nextKey
    retiredQuads := s.retiredQuads, retiredPorts := s.retiredPorts, host := s.host }

/-- PCIE_FUNDAMENTAL_RESET: a cold start, whatever runs. [DESIGN CHOICE: log entry 17] -/
def execPcieFundamentalReset (s : State) : Host.Outcome State Fault Refusal :=
  .next { beginStart s false with spdm := ⟨0⟩ }

/-- A START write is acted on only while READY is 1 or FAIL is not zero. [DEDUCED: log entry 16] -/
def startWrite (s : State) (warm : Bool) : State := if s.glob.ready || s.glob.fail ≠ 0 then beginStart s warm else s

/-- COLD_START: START written with 1. [DEDUCED: log entry 16] -/
def execColdStart (s : State) : Host.Outcome State Fault Refusal := .next (startWrite s false)

/-- WARM_START: START written with 2. [DEDUCED: log entry 16] -/
def execWarmStart (s : State) : Host.Outcome State Fault Refusal := .next (startWrite s true)

/-! ## SPDM over DOE (R329) -/

/-- The bytes of a name. -/
def nameBytes (n : String) : List Byte := n.toList.map fun c => BitVec.ofNat 8 c.toNat

/-- The measurements 1 to 5: firmware images, fuses and retirement map, calibration record. [DESIGN CHOICE: log entry 9] -/
def measurements (s : State) : List (List Byte) :=
  [Config.measurement 1, Config.measurement 2, Config.measurement 3, Config.mapMeasurement s.retiredQuads s.retiredPorts,
    Config.calMeasurement s.glob.calibration]

/-- The parts of the answer to the n-th request of R329's list; their framing is SPDM's. [PRESUMED: log entry 100] -/
def spdmParts (s : State) (n : Nat) (request : List Byte) : List (List Byte) :=
  match n with
  | 0 => [[0x13]]
  | 1 => []
  | 2 => [nameBytes "SLH-DSA-SHA2-192s", nameBytes "SHA-256"]
  | 3 => [sha256 Config.certificate]
  | 4 => [Config.certificate]
  | 5 => [sha256 Config.certificate, Config.signature (request ++ sha256 Config.certificate)]
  | _ => measurements s ++ [Config.signature (request ++ (measurements s).flatten)]

/-- One request reaches the responder, which runs once step 1 of a start has verified its firmware. The first three requests are
taken in their order, GET_VERSION at any time; the others once the algorithms are negotiated. [PRESUMED: log entry 100] -/
def spdmAnswer (n : Nat) (request : List Byte) (s : State) : Host.Outcome State Fault Refusal :=
  let up := s.glob.step ≠ 1 && s.glob.fail ≠ 1
  let inTurn := if n ≤ 2 then n = 0 || s.spdm.stage = n else s.spdm.stage = 3
  if !up then .next s
  else if !inTurn then .next (toHost s (.spdm n none))
  else
    let s := toHost s (.spdm n (some (spdmParts s n request)))
    .next (if n ≤ 2 then { s with spdm := ⟨n + 1⟩ } else s)

/-- GET_VERSION. [PRESUMED: log entry 100] -/
def execGetVersion (request : List Byte) (s : State) : Host.Outcome State Fault Refusal := spdmAnswer 0 request s

/-- GET_CAPABILITIES. -/
def execGetCapabilities (request : List Byte) (s : State) : Host.Outcome State Fault Refusal := spdmAnswer 1 request s

/-- NEGOTIATE_ALGORITHMS. -/
def execNegotiateAlgorithms (request : List Byte) (s : State) : Host.Outcome State Fault Refusal := spdmAnswer 2 request s

/-- GET_DIGESTS. -/
def execGetDigests (request : List Byte) (s : State) : Host.Outcome State Fault Refusal := spdmAnswer 3 request s

/-- GET_CERTIFICATE. -/
def execGetCertificate (request : List Byte) (s : State) : Host.Outcome State Fault Refusal := spdmAnswer 4 request s

/-- CHALLENGE. [PRESUMED: log entry 100] -/
def execChallenge (request : List Byte) (s : State) : Host.Outcome State Fault Refusal := spdmAnswer 5 request s

/-- GET_MEASUREMENTS. -/
def execGetMeasurements (request : List Byte) (s : State) : Host.Outcome State Fault Refusal := spdmAnswer 6 request s

end Sys2Proof.Machine
end

