-- ==== Sys2Proof/Machine/HartDecode.lean ====
section
/-! DEFINITION. The instructions of a hart, RV64GC with Zba, Zbb and Zicond, as their words encode them (spec/23_adit.md R277). The
encodings are RISC-V's own: the spec names the extensions and gives none. -/

namespace Sys2Proof.Machine

/-- The operations of two integer operands (I, M, Zba, Zbb, Zicond) and of one (Zbb). [PRESUMED: log entry 91] -/
inductive RvAlu where
  | add | sub | sll | slt | sltu | xor | srl | sra | or | and
  | mul | mulh | mulhsu | mulhu | div | divu | rem | remu
  | andn | orn | xnor | min | minu | max | maxu | rol | ror
  | shAdd (n : Nat) | shAddUw (n : Nat) | slliUw | czeroEqz | czeroNez
  | clz | ctz | cpop | sextB | sextH | zextH | orcB | rev8
  deriving DecidableEq, Repr

/-- The CSR instructions: CSRRW, CSRRS and CSRRC, with their immediate forms (R290). -/
inductive CsrOp where
  | rw
  | rs
  | rc
  deriving DecidableEq, Repr

/-- The conditions of branches. -/
inductive RvCond where
  | eq | ne | lt | ge | ltu | geu
  deriving DecidableEq, Repr

/-- What an AMO does. -/
inductive RvAmo where
  | swap | add | xor | and | or | min | max | minu | maxu
  deriving DecidableEq, Repr

/-- The operations of F and D. -/
inductive RvFloat where
  | add | sub | mul | div | sqrt
  | madd | msub | nmsub | nmadd
  | sgnj | sgnjn | sgnjx | min | max
  | eq | lt | le | cls
  /-- from the other format -/
  | fromFloat
  /-- to and from an integer of a width -/
  | toInt (w : Nat) (signed : Bool)
  | fromInt (w : Nat) (signed : Bool)
  /-- bits moved to and from an integer register -/
  | moveX | moveF
  deriving DecidableEq, Repr

/-- An operand: a register, or a 64-bit constant. -/
inductive RvSrc where
  | reg (r : Nat)
  | imm (v : Nat)
  deriving DecidableEq, Repr

/-- The instructions of a hart. An immediate is a 64-bit value, sign-extended as its format says. -/
inductive Rv where
  | lui (rd v : Nat)
  | auipc (rd v : Nat)
  | jal (rd v : Nat)
  | jalr (rd rs1 v : Nat)
  | branch (c : RvCond) (rs1 rs2 v : Nat)
  | load (n : Nat) (signed : Bool) (rd rs1 v : Nat)
  | store (n rs1 rs2 v : Nat)
  | fload (n rd rs1 v : Nat)
  | fstore (n rs1 rs2 v : Nat)
  /-- on 64 bits, or on 32 with the result sign-extended -/
  | alu (op : RvAlu) (w rd rs1 : Nat) (b : RvSrc)
  | fence
  | wfi
  | csr (op : CsrOp) (csr rd : Nat) (a : RvSrc) (writes : Bool)
  | lr (n rd rs1 : Nat)
  | sc (n rd rs1 rs2 : Nat)
  | amo (op : RvAmo) (n rd rs1 rs2 : Nat)
  | float (op : RvFloat) (f : FFmt) (rm rd rs1 rs2 rs3 : Nat)
  deriving DecidableEq, Repr

/-- The low n bits of a value, sign-extended to 64. -/
def sext64 (n v : Nat) : Nat := wrap 64 (signed n v)

/-! ## 32-bit words -/

/-- I-, S-, B-, U- and J-immediates. [PRESUMED: log entry 91] -/
def rvImmI (w : Nat) : Nat := sext64 12 (bits w 20 12)
def rvImmS (w : Nat) : Nat := sext64 12 (bits w 25 7 * 32 + bits w 7 5)
def rvImmB (w : Nat) : Nat := sext64 13 (bits w 31 1 * 2 ^ 12 + bits w 7 1 * 2 ^ 11 + bits w 25 6 * 32 + bits w 8 4 * 2)
def rvImmU (w : Nat) : Nat := sext64 32 (bits w 12 20 * 2 ^ 12)
def rvImmJ (w : Nat) : Nat := sext64 21 (bits w 31 1 * 2 ^ 20 + bits w 12 8 * 2 ^ 12 + bits w 20 1 * 2 ^ 11 + bits w 21 10 * 2)

/-- OP: by funct7 and funct3. [PRESUMED: log entry 91] -/
def rvOp (f7 f3 : Nat) : Option RvAlu :=
  match f7, f3 with
  | 0x00, 0 => some .add
  | 0x00, 1 => some .sll
  | 0x00, 2 => some .slt
  | 0x00, 3 => some .sltu
  | 0x00, 4 => some .xor
  | 0x00, 5 => some .srl
  | 0x00, 6 => some .or
  | 0x00, 7 => some .and
  | 0x20, 0 => some .sub
  | 0x20, 4 => some .xnor
  | 0x20, 5 => some .sra
  | 0x20, 6 => some .orn
  | 0x20, 7 => some .andn
  | 0x01, 0 => some .mul
  | 0x01, 1 => some .mulh
  | 0x01, 2 => some .mulhsu
  | 0x01, 3 => some .mulhu
  | 0x01, 4 => some .div
  | 0x01, 5 => some .divu
  | 0x01, 6 => some .rem
  | 0x01, 7 => some .remu
  | 0x05, 4 => some .min
  | 0x05, 5 => some .minu
  | 0x05, 6 => some .max
  | 0x05, 7 => some .maxu
  | 0x07, 5 => some .czeroEqz
  | 0x07, 7 => some .czeroNez
  | 0x10, 2 => some (.shAdd 1)
  | 0x10, 4 => some (.shAdd 2)
  | 0x10, 6 => some (.shAdd 3)
  | 0x30, 1 => some .rol
  | 0x30, 5 => some .ror
  | _, _ => none

/-- OP-32: the operation and its width. [PRESUMED: log entry 91] -/
def rvOp32 (f7 f3 rs2 : Nat) : Option (RvAlu × Nat) :=
  match f7, f3 with
  | 0x00, 0 => some (.add, 32)
  | 0x00, 1 => some (.sll, 32)
  | 0x00, 5 => some (.srl, 32)
  | 0x20, 0 => some (.sub, 32)
  | 0x20, 5 => some (.sra, 32)
  | 0x01, 0 => some (.mul, 32)
  | 0x01, 4 => some (.div, 32)
  | 0x01, 5 => some (.divu, 32)
  | 0x01, 6 => some (.rem, 32)
  | 0x01, 7 => some (.remu, 32)
  | 0x04, 0 => some (.shAddUw 0, 64)
  | 0x04, 4 => if rs2 = 0 then some (.zextH, 64) else none
  | 0x10, 2 => some (.shAddUw 1, 64)
  | 0x10, 4 => some (.shAddUw 2, 64)
  | 0x10, 6 => some (.shAddUw 3, 64)
  | 0x30, 1 => some (.rol, 32)
  | 0x30, 5 => some (.ror, 32)
  | _, _ => none

/-- OP-IMM: the operation and its second operand. [PRESUMED: log entry 91] -/
def rvOpImm (w : Nat) : Option (RvAlu × Nat) :=
  let v := rvImmI w
  let hi := bits w 26 6
  let sh := bits w 20 6
  match bits w 12 3 with
  | 0 => some (.add, v)
  | 2 => some (.slt, v)
  | 3 => some (.sltu, v)
  | 4 => some (.xor, v)
  | 6 => some (.or, v)
  | 7 => some (.and, v)
  | 1 => if hi = 0 then some (.sll, sh)
    else match bits w 20 12 with
    | 0x600 => some (.clz, 0)
    | 0x601 => some (.ctz, 0)
    | 0x602 => some (.cpop, 0)
    | 0x604 => some (.sextB, 0)
    | 0x605 => some (.sextH, 0)
    | _ => none
  | _ =>
    if hi = 0 then some (.srl, sh) else if hi = 0x10 then some (.sra, sh) else if hi = 0x18 then some (.ror, sh)
    else if bits w 20 12 = 0x287 then some (.orcB, 0) else if bits w 20 12 = 0x6B8 then some (.rev8, 0) else none

/-- OP-IMM-32: the operation, its width and its second operand. [PRESUMED: log entry 91] -/
def rvOpImm32 (w : Nat) : Option (RvAlu × Nat × Nat) :=
  let f7 := bits w 25 7
  let sh := bits w 20 5
  match bits w 12 3 with
  | 0 => some (.add, 32, rvImmI w)
  | 1 => if f7 = 0 then some (.sll, 32, sh) else if bits w 26 6 = 2 then some (.slliUw, 64, bits w 20 6)
    else match bits w 20 12 with
    | 0x600 => some (.clz, 32, 0)
    | 0x601 => some (.ctz, 32, 0)
    | 0x602 => some (.cpop, 32, 0)
    | _ => none
  | 5 => if f7 = 0 then some (.srl, 32, sh) else if f7 = 0x20 then some (.sra, 32, sh) else if f7 = 0x30 then some (.ror, 32, sh) else none
  | _ => none

/-- The operation of an AMO, but for LR and SC. [PRESUMED: log entry 91] -/
def rvAmo (f5 : Nat) : Option RvAmo :=
  match f5 with
  | 0x00 => some .add
  | 0x01 => some .swap
  | 0x04 => some .xor
  | 0x08 => some .or
  | 0x0C => some .and
  | 0x10 => some .min
  | 0x14 => some .max
  | 0x18 => some .minu
  | 0x1C => some .maxu
  | _ => none

/-- The width and sign of an integer that a conversion names. -/
def rvInt (rs2 : Nat) : Option (Nat × Bool) :=
  match rs2 with
  | 0 => some (32, true)
  | 1 => some (32, false)
  | 2 => some (64, true)
  | 3 => some (64, false)
  | _ => none

/-- OP-FP: by funct5, the format code, rs2 and the rm field. [PRESUMED: log entry 91] -/
def rvOpFp (f5 fmt rs2 rm : Nat) : Option RvFloat :=
  match f5 with
  | 0x00 => some .add
  | 0x01 => some .sub
  | 0x02 => some .mul
  | 0x03 => some .div
  | 0x0B => if rs2 = 0 then some .sqrt else none
  | 0x04 => match rm with
    | 0 => some .sgnj
    | 1 => some .sgnjn
    | 2 => some .sgnjx
    | _ => none
  | 0x05 => if rm = 0 then some .min else if rm = 1 then some .max else none
  | 0x08 => if rs2 = 1 - fmt then some .fromFloat else none
  | 0x14 => match rm with
    | 0 => some .le
    | 1 => some .lt
    | 2 => some .eq
    | _ => none
  | 0x18 => (rvInt rs2).map fun x => .toInt x.1 x.2
  | 0x1A => (rvInt rs2).map fun x => .fromInt x.1 x.2
  | 0x1C => if rs2 ≠ 0 then none else if rm = 0 then some .moveX else if rm = 1 then some .cls else none
  | 0x1E => if rs2 = 0 && rm = 0 then some .moveF else none
  | _ => none

/-- The format of a code: single or double. -/
def rvFmt (c : Nat) : Option FFmt := if c = 0 then some .f32 else if c = 1 then some .f64 else none

/-- SYSTEM: the CSR instructions and WFI; ECALL, EBREAK and every privileged instruction are exceptions in U-mode. -/
def rvSystem (w : Nat) : Option Rv :=
  let rd := bits w 7 5
  let rs1 := bits w 15 5
  let csr := bits w 20 12
  match bits w 12 3 with
  | 0 => if w = 0x10500073 then some .wfi else none
  | 1 => some (.csr .rw csr rd (.reg rs1) true)
  | 2 => some (.csr .rs csr rd (.reg rs1) (rs1 ≠ 0))
  | 3 => some (.csr .rc csr rd (.reg rs1) (rs1 ≠ 0))
  | 5 => some (.csr .rw csr rd (.imm rs1) true)
  | 6 => some (.csr .rs csr rd (.imm rs1) (rs1 ≠ 0))
  | 7 => some (.csr .rc csr rd (.imm rs1) (rs1 ≠ 0))
  | _ => none

/-- The instruction of a 32-bit word; none for one that raises an exception. [PRESUMED: log entry 91] -/
def decodeRv32 (w : Nat) : Option Rv :=
  let rd := bits w 7 5
  let f3 := bits w 12 3
  let rs1 := bits w 15 5
  let rs2 := bits w 20 5
  let f7 := bits w 25 7
  let fused (op : RvFloat) : Option Rv := (rvFmt (bits w 25 2)).map fun f => .float op f f3 rd rs1 rs2 (bits w 27 5)
  match bits w 0 7 with
  | 0x37 => some (.lui rd (rvImmU w))
  | 0x17 => some (.auipc rd (rvImmU w))
  | 0x6F => some (.jal rd (rvImmJ w))
  | 0x67 => if f3 = 0 then some (.jalr rd rs1 (rvImmI w)) else none
  | 0x63 => match f3 with
    | 0 => some (.branch .eq rs1 rs2 (rvImmB w))
    | 1 => some (.branch .ne rs1 rs2 (rvImmB w))
    | 4 => some (.branch .lt rs1 rs2 (rvImmB w))
    | 5 => some (.branch .ge rs1 rs2 (rvImmB w))
    | 6 => some (.branch .ltu rs1 rs2 (rvImmB w))
    | 7 => some (.branch .geu rs1 rs2 (rvImmB w))
    | _ => none
  | 0x03 => if f3 < 4 then some (.load (2 ^ f3) true rd rs1 (rvImmI w))
    else if f3 < 7 then some (.load (2 ^ (f3 - 4)) false rd rs1 (rvImmI w)) else none
  | 0x23 => if f3 < 4 then some (.store (2 ^ f3) rs1 rs2 (rvImmS w)) else none
  | 0x07 => if f3 = 2 || f3 = 3 then some (.fload (2 ^ f3) rd rs1 (rvImmI w)) else none
  | 0x27 => if f3 = 2 || f3 = 3 then some (.fstore (2 ^ f3) rs1 rs2 (rvImmS w)) else none
  | 0x13 => (rvOpImm w).map fun x => .alu x.1 64 rd rs1 (.imm x.2)
  | 0x1B => (rvOpImm32 w).map fun x => .alu x.1 x.2.1 rd rs1 (.imm x.2.2)
  | 0x33 => (rvOp f7 f3).map fun x => .alu x 64 rd rs1 (.reg rs2)
  | 0x3B => (rvOp32 f7 f3 rs2).map fun x => .alu x.1 x.2 rd rs1 (.reg rs2)
  | 0x0F => if f3 < 2 then some .fence else none
  | 0x73 => rvSystem w
  | 0x2F =>
    if f3 ≠ 2 && f3 ≠ 3 then none
    else match bits w 27 5 with
    | 0x02 => if rs2 = 0 then some (.lr (2 ^ f3) rd rs1) else none
    | 0x03 => some (.sc (2 ^ f3) rd rs1 rs2)
    | f5 => (rvAmo f5).map fun op => .amo op (2 ^ f3) rd rs1 rs2
  | 0x43 => fused .madd
  | 0x47 => fused .msub
  | 0x4B => fused .nmsub
  | 0x4F => fused .nmadd
  | 0x53 => (rvFmt (bits w 25 2)).bind fun f => (rvOpFp (bits w 27 5) (bits w 25 2) rs2 f3).map fun op => .float op f f3 rd rs1 rs2 0
  | _ => none

/-! ## 16-bit words (C) -/

/-- A register of the short forms: x8 to x15. -/
def rvShort (w lo : Nat) : Nat := 8 + bits w lo 3

/-- The 6-bit immediate of CI forms. -/
def rvcImm (w : Nat) : Nat := sext64 6 (bits w 12 1 * 32 + bits w 2 5)

/-- Quadrant 0. [PRESUMED: log entry 91] -/
def decodeRvc0 (w : Nat) : Option Rv :=
  let r := rvShort w 2
  let b := rvShort w 7
  let word := bits w 10 3 * 8 + bits w 6 1 * 4 + bits w 5 1 * 64
  let dword := bits w 10 3 * 8 + bits w 5 2 * 64
  match bits w 13 3 with
  | 0 =>
    let v := bits w 11 2 * 16 + bits w 7 4 * 64 + bits w 6 1 * 4 + bits w 5 1 * 8
    if v = 0 then none else some (.alu .add 64 r 2 (.imm v))
  | 1 => some (.fload 8 r b dword)
  | 2 => some (.load 4 true r b word)
  | 3 => some (.load 8 true r b dword)
  | 5 => some (.fstore 8 b r dword)
  | 6 => some (.store 4 b r word)
  | 7 => some (.store 8 b r dword)
  | _ => none

/-- The arithmetic of quadrant 1. [PRESUMED: log entry 91] -/
def decodeRvcAlu (w : Nat) : Option Rv :=
  let r := rvShort w 7
  let b := RvSrc.reg (rvShort w 2)
  let sh := bits w 12 1 * 32 + bits w 2 5
  match bits w 10 2, bits w 12 1, bits w 5 2 with
  | 0, _, _ => some (.alu .srl 64 r r (.imm sh))
  | 1, _, _ => some (.alu .sra 64 r r (.imm sh))
  | 2, _, _ => some (.alu .and 64 r r (.imm (rvcImm w)))
  | _, 0, 0 => some (.alu .sub 64 r r b)
  | _, 0, 1 => some (.alu .xor 64 r r b)
  | _, 0, 2 => some (.alu .or 64 r r b)
  | _, 0, _ => some (.alu .and 64 r r b)
  | _, _, 0 => some (.alu .sub 32 r r b)
  | _, _, 1 => some (.alu .add 32 r r b)
  | _, _, _ => none

/-- Quadrant 1. [PRESUMED: log entry 91] -/
def decodeRvc1 (w : Nat) : Option Rv :=
  let rd := bits w 7 5
  let v := rvcImm w
  let jump := sext64 12 (bits w 12 1 * 2 ^ 11 + bits w 11 1 * 16 + bits w 9 2 * 256 + bits w 8 1 * 1024 + bits w 7 1 * 64
    + bits w 6 1 * 128 + bits w 3 3 * 2 + bits w 2 1 * 32)
  let near := sext64 9 (bits w 12 1 * 256 + bits w 10 2 * 8 + bits w 5 2 * 64 + bits w 3 2 * 2 + bits w 2 1 * 32)
  match bits w 13 3 with
  | 0 => some (.alu .add 64 rd rd (.imm v))
  | 1 => if rd = 0 then none else some (.alu .add 32 rd rd (.imm v))
  | 2 => some (.lui rd v)
  | 3 =>
    if rd = 2 then
      let x := sext64 10 (bits w 12 1 * 512 + bits w 6 1 * 16 + bits w 5 1 * 64 + bits w 3 2 * 128 + bits w 2 1 * 32)
      if x = 0 then none else some (.alu .add 64 2 2 (.imm x))
    else if v = 0 then none
    else some (.lui rd (sext64 18 (bits w 12 1 * 2 ^ 17 + bits w 2 5 * 2 ^ 12)))
  | 4 => decodeRvcAlu w
  | 5 => some (.jal 0 jump)
  | 6 => some (.branch .eq (rvShort w 7) 0 near)
  | _ => some (.branch .ne (rvShort w 7) 0 near)

/-- Quadrant 2. [PRESUMED: log entry 91] -/
def decodeRvc2 (w : Nat) : Option Rv :=
  let rd := bits w 7 5
  let rs2 := bits w 2 5
  let word := bits w 12 1 * 32 + bits w 4 3 * 4 + bits w 2 2 * 64
  let dword := bits w 12 1 * 32 + bits w 5 2 * 8 + bits w 2 3 * 64
  let storeD := bits w 10 3 * 8 + bits w 7 3 * 64
  match bits w 13 3 with
  | 0 => some (.alu .sll 64 rd rd (.imm (bits w 12 1 * 32 + rs2)))
  | 1 => some (.fload 8 rd 2 dword)
  | 2 => if rd = 0 then none else some (.load 4 true rd 2 word)
  | 3 => if rd = 0 then none else some (.load 8 true rd 2 dword)
  | 4 =>
    if bits w 12 1 = 0 then
      if rs2 ≠ 0 then some (.alu .add 64 rd 0 (.reg rs2)) else if rd = 0 then none else some (.jalr 0 rd 0)
    else if rs2 ≠ 0 then some (.alu .add 64 rd rd (.reg rs2)) else if rd = 0 then none else some (.jalr 1 rd 0)
  | 5 => some (.fstore 8 2 rs2 storeD)
  | 6 => some (.store 4 2 rs2 (bits w 9 4 * 4 + bits w 7 2 * 64))
  | _ => some (.store 8 2 rs2 storeD)

/-- The instruction of a 16-bit word; none for one that raises an exception. [PRESUMED: log entry 91] -/
def decodeRvc (w : Nat) : Option Rv :=
  match bits w 0 2 with
  | 0 => decodeRvc0 w
  | 1 => decodeRvc1 w
  | 2 => decodeRvc2 w
  | _ => none

end Sys2Proof.Machine
end

