-- ==== Sys2Proof/Machine/HartArith.lean ====
section
/-! DEFINITION. What a hart computes: integers, and floating point by the RISC-V F and D rules (spec/23_adit.md R277). -/

namespace Sys2Proof.Machine

/-! ## Integers -/

/-- Every byte of a value that is not zero, made of ones (Zbb, ORC.B). -/
def orcBytes : Nat → Nat → Nat
  | 0, _ => 0
  | n + 1, v => (if v % 256 = 0 then 0 else 255) + 256 * orcBytes n (v / 256)

/-- The result of an operation on w bits. [PRESUMED: log entry 91] -/
def rvAlu (op : RvAlu) (w a b : Nat) : Nat :=
  let sh := b % w
  let sa := signed w a
  let sb := signed w b
  match op with
  | .add => low w (a + b)
  | .sub => low w (a + 2 ^ w - b)
  | .sll => low w (a * 2 ^ sh)
  | .slt => if sa < sb then 1 else 0
  | .sltu => if a < b then 1 else 0
  | .xor => a ^^^ b
  | .srl => a / 2 ^ sh
  | .sra => wrap w (sa / ((2 ^ sh : Nat) : Int))
  | .or => a ||| b
  | .and => a &&& b
  | .mul => low w (a * b)
  | .mulh => wrap w (sa * sb / ((2 ^ w : Nat) : Int))
  | .mulhsu => wrap w (sa * (b : Int) / ((2 ^ w : Nat) : Int))
  | .mulhu => a * b / 2 ^ w
  | .div => if b = 0 then 2 ^ w - 1 else wrap w (sa.tdiv sb)
  | .divu => if b = 0 then 2 ^ w - 1 else a / b
  | .rem => if b = 0 then a else wrap w (sa.tmod sb)
  | .remu => if b = 0 then a else a % b
  | .andn => a &&& complement w b
  | .orn => a ||| complement w b
  | .xnor => complement w (a ^^^ b)
  | .min => if sa < sb then a else b
  | .minu => min a b
  | .max => if sa < sb then b else a
  | .maxu => max a b
  | .rol => low w (a * 2 ^ sh) + a / 2 ^ (w - sh)
  | .ror => a / 2 ^ sh + low w (a * 2 ^ (w - sh))
  | .shAdd n => low w (a * 2 ^ n + b)
  | .shAddUw n => low w (low 32 a * 2 ^ n + b)
  | .slliUw => low w (low 32 a * 2 ^ sh)
  | .czeroEqz => if b = 0 then 0 else a
  | .czeroNez => if b = 0 then a else 0
  | .clz => leadingZeros w a
  | .ctz => leadingZeros w (bitReverse w a)
  | .cpop => popCount w a
  | .sextB => sext64 8 a
  | .sextH => sext64 16 a
  | .zextH => low 16 a
  | .orcB => orcBytes 8 a
  | .rev8 => leValue (leBytes 8 a).reverse

/-- An operation on 64 bits, or on 32 with its result sign-extended. -/
def rvAluValue (op : RvAlu) (w a b : Nat) : Nat :=
  if w = 32 then sext64 32 (rvAlu op 32 (low 32 a) (low 32 b)) else rvAlu op 64 a b

/-- A branch's condition on 64-bit values. -/
def rvTaken (c : RvCond) (a b : Nat) : Bool :=
  match c with
  | .eq => a = b
  | .ne => a ≠ b
  | .lt => signed 64 a < signed 64 b
  | .ge => signed 64 b ≤ signed 64 a
  | .ltu => a < b
  | .geu => b ≤ a

/-- What an AMO leaves in memory, on w bits. -/
def rvAmoValue (op : RvAmo) (w old b : Nat) : Nat :=
  match op with
  | .swap => b
  | .add => rvAlu .add w old b
  | .xor => old ^^^ b
  | .and => old &&& b
  | .or => old ||| b
  | .min => rvAlu .min w old b
  | .max => rvAlu .max w old b
  | .minu => min old b
  | .maxu => max old b

/-! ## Floating point -/

/-- The rounding of an instruction: the mode, and the random value under which a stochastic rounding is to nearest with ties away from
zero; none for a reserved one. [PRESUMED: log entry 91] -/
def rvRounding (rm frm : Nat) : Option (Mode × Nat) :=
  match (if rm = 7 then frm else rm) with
  | 0 => some (.rn, 0)
  | 1 => some (.rz, 0)
  | 2 => some (.rm, 0)
  | 3 => some (.rp, 0)
  | 4 => some (.rs, 0x7FFFFFFF)
  | _ => none

/-- fflags: NV, DZ, OF, UF, NX. -/
def flagNV : Nat := 16
def flagDZ : Nat := 8
def flagOF : Nat := 4
def flagUF : Nat := 2
def flagNX : Nat := 1

/-- A register's value in a format: a single that is not boxed is the canonical NaN. -/
def rvUnbox (f : FFmt) (v : Nat) : Nat :=
  if f = .f32 then (if bits v 32 32 = 0xFFFFFFFF then low 32 v else f.canonicalNaN) else v

/-- A value as a register holds it. -/
def rvBox (f : FFmt) (v : Nat) : Nat := if f = .f32 then 0xFFFFFFFF00000000 + v else v

/-- A signalling NaN. -/
def rvSignalling (f : FFmt) (c : Nat) : Bool := f.isNaN c && !bit c (f.mbits - 1)

/-- The magnitude of a value rounded with an exponent without bounds: units, and the exponent of the unit. -/
def rvUnits (f : FFmt) (mode : Mode) (rnd : Nat) (neg : Bool) (num den : Nat) : Nat × Int :=
  let q := floorLog2Frac num den - f.mbits
  let (up, dn) := pow2Frac q
  (roundInteger mode neg (num * dn) (den * up) rnd, q)

/-- An exact value rounded to a format, with its flags; tininess is detected after rounding. [PRESUMED: log entry 91] -/
def rvRound (f : FFmt) (r : Mode × Nat) (x : Exact) : Nat × Nat :=
  let c := roundTo f x r.1 false false r.2
  match x with
  | .fin neg num den =>
    if num = 0 then (c, 0)
    else
      let (y, q) := rvUnits f r.1 r.2 neg num den
      let (up, dn) := pow2Frac q
      let least := pow2Frac (1 - f.bias)
      let most := pow2Frac (f.bias + 1)
      let large := most.1 * dn ≤ y * up * most.2
      let tiny := y * up * least.2 < least.1 * dn
      let exact := match f.decode c with
        | .fin _ a b => decide (a * den = num * b)
        | _ => false
      (c, if large then flagOF + flagNX else if exact then 0 else (if tiny then flagUF else 0) + flagNX)
  | _ => (c, 0)

/-- The quotient of two exact values: none of 0 / 0 and ∞ / ∞. -/
def rvQuotient (x y : Exact) : Exact :=
  match x, y with
  | .nan, _ => .nan
  | _, .nan => .nan
  | .inf a, .fin n _ _ => .inf (a != n)
  | .inf _, .inf _ => .nan
  | .fin n _ _, .inf b => .fin (n != b) 0 1
  | .fin na a b, .fin nc c d => if c = 0 then (if a = 0 then .nan else .inf (na != nc)) else .fin (na != nc) (a * d) (b * c)

/-- The integer square root, by bits from the n-th down. -/
def rvRootBits : Nat → Nat → Nat → Nat
  | 0, _, r => r
  | n + 1, v, r => rvRootBits n v (if (r + 2 ^ n) * (r + 2 ^ n) ≤ v then r + 2 ^ n else r)

/-- A square root as a value that rounds as the exact one: four bits beyond the format's, and a sticky bit. -/
def rvRoot (f : FFmt) (num den : Nat) : Exact :=
  let k : Int := f.mbits + 4 - floorLog2Frac num den / 2
  let (up, dn) := pow2Frac (2 * k)
  let v := num * up / (den * dn)
  let r := rvRootBits (f.mbits + 8) v 0
  let sticky := if r * r = v && num * up % (den * dn) = 0 then 0 else 1
  .scaled false (2 * r + sticky) (-k - 1)

/-- What a floating-point operation gives: a value for a floating-point or an integer register, and flags. -/
structure RvResult where
  value : Nat
  integer : Bool
  flags : Nat
  deriving DecidableEq, Repr

/-- A rounded result in a floating-point register; an invalid operation gives the canonical NaN. -/
def rvFloating (f : FFmt) (r : Mode × Nat) (invalid : Bool) (x : Exact) : RvResult :=
  let (c, fl) := rvRound f r x
  ⟨rvBox f c, false, if invalid then flagNV else fl⟩

/-- A value converted to an integer: out of range it clamps with NV. [PRESUMED: log entry 91] -/
def rvToInt (w : Nat) (sgn : Bool) (r : Mode × Nat) (x : Exact) : RvResult :=
  let lo : Int := if sgn then -((2 ^ (w - 1) : Nat) : Int) else 0
  let hi : Int := (((if sgn then 2 ^ (w - 1) else 2 ^ w) : Nat) : Int) - 1
  let give (i : Int) (fl : Nat) : RvResult := ⟨sext64 w (wrap w i), true, fl⟩
  match x with
  | .nan => give hi flagNV
  | .inf n => give (if n then lo else hi) flagNV
  | .fin n num den =>
    let m : Int := roundInteger r.1 n num den r.2
    let i := if n then -m else m
    if i < lo then give lo flagNV else if hi < i then give hi flagNV else give i (if num % den = 0 then 0 else flagNX)

/-- FCLASS. [PRESUMED: log entry 91] -/
def rvClass (f : FFmt) (c : Nat) : Nat := 2 ^ (if f.isNaN c && !rvSignalling f c then 9 else classBit f c)

/-- A floating-point operation on the values of its registers: three floating-point ones and an integer one.
[PRESUMED: log entry 91] -/
def rvFloat (op : RvFloat) (f : FFmt) (r : Mode × Nat) (va vb vc x : Nat) : RvResult :=
  let a := rvUnbox f va
  let b := rvUnbox f vb
  let c := rvUnbox f vc
  let da := f.decode a
  let db := f.decode b
  let dc := f.decode c
  let sig1 := rvSignalling f a
  let sig2 := sig1 || rvSignalling f b
  let nan2 := f.isNaN a || f.isNaN b
  let two (z : Exact) : RvResult := rvFloating f r (sig2 || (z = .nan && !nan2)) z
  let fused (p : Exact) (z : Exact) : RvResult :=
    let y := Exact.add r.1 p z
    rvFloating f r (sig2 || rvSignalling f c || (p = .nan && !nan2) || (y = .nan && !nan2 && !f.isNaN c)) y
  let raw (v : Nat) : RvResult := ⟨rvBox f v, false, 0⟩
  let test (t : Bool) (invalid : Bool) : RvResult := ⟨if t then 1 else 0, true, if invalid then flagNV else 0⟩
  let sign (neg : Bool) : RvResult := raw (f.magnitude a + (if neg then f.signBit else 0))
  match op with
  | .add => two (Exact.add r.1 da db)
  | .sub => two (Exact.add r.1 da db.negate)
  | .mul => two (Exact.mul da db)
  | .div =>
    let q := two (rvQuotient da db)
    match da with
    | .fin _ n _ => if n ≠ 0 && db.isZero then { q with flags := flagDZ } else q
    | _ => q
  | .sqrt => match da with
    | .fin neg num den => if num = 0 then raw a else if neg then rvFloating f r true .nan else rvFloating f r false (rvRoot f num den)
    | .inf neg => if neg then rvFloating f r true .nan else raw a
    | .nan => rvFloating f r sig1 .nan
  | .madd => fused (Exact.mul da db) dc
  | .msub => fused (Exact.mul da db) dc.negate
  | .nmsub => fused (Exact.mul da db).negate dc
  | .nmadd => fused (Exact.mul da db).negate dc.negate
  | .sgnj => sign (f.isNeg b)
  | .sgnjn => sign (!f.isNeg b)
  | .sgnjx => sign (f.isNeg a != f.isNeg b)
  | .min => ⟨rvBox f (minNumber f a b), false, if sig2 then flagNV else 0⟩
  | .max => ⟨rvBox f (maxNumber f a b), false, if sig2 then flagNV else 0⟩
  | .eq => test (quietEqual f a b) sig2
  | .lt => test (quietLess f a b) nan2
  | .le => test (quietLess f a b || quietEqual f a b) nan2
  | .cls => ⟨rvClass f a, true, 0⟩
  | .fromFloat =>
    let g : FFmt := if f = .f32 then .f64 else .f32
    let y := rvUnbox g va
    rvFloating f r (rvSignalling g y) (g.decode y)
  | .toInt w sgn => rvToInt w sgn r da
  | .fromInt w sgn =>
    let i : Int := if sgn then signed w x else (low w x : Int)
    rvFloating f r false (.fin (i < 0) i.natAbs 1)
  | .moveX => ⟨if f = .f32 then sext64 32 va else va, true, 0⟩
  | .moveF => raw (low f.width x)

/-- Whether an operation rounds, so that its rm field must name a mode. -/
def RvFloat.rounds (op : RvFloat) : Bool :=
  match op with
  | .sgnj => false
  | .sgnjn => false
  | .sgnjx => false
  | .min => false
  | .max => false
  | .eq => false
  | .lt => false
  | .le => false
  | .cls => false
  | .moveX => false
  | .moveF => false
  | _ => true

end Sys2Proof.Machine
end

