-- ==== Sys2Proof/Machine/Hart.lean ====
section
/-! DEFINITION. What a hart executes: the instruction at its program counter, its CSRs, its memory and its exceptions (spec/23_adit.md
R277, R278, R290, R291). -/

namespace Sys2Proof.Machine

/-! ## CSRs (R277, R290) -/

/-- A mailbox CSR as a hart reads it, or none for an exception (R277, R290). -/
def readCsr (s : State) (m k csr : Nat) : Option Nat :=
  let x := s.mailbox m
  let h := s.hart k
  let limit := (x.episode.map (·.cycLim)).getD 0
  if 0xC03 ≤ csr && csr ≤ 0xC1F then some 0
  else if 0x840 ≤ csr && csr ≤ 0x85F then
    h.held.map fun a =>
      leValue (((addrs (payloadPa s m false a.num) a.len).map (homeByte s) ++ List.replicate 256 0).drop (8 * (csr - 0x840)) |>.take 8)
  else if 0x860 ≤ csr && csr ≤ 0x87F then some (tgetD (csr - 0x860) 0 h.opay).toNat
  else
    match csr with
    | 0x800 => some ((h.held.map SlotHdr.word).getD 0)
    | 0x801 => some (x.actions.length * 2 + (if h.held.isSome then 1 else 0))
    | 0x802 => some 0
    | 0x803 => some ((h.held.map (·.num)).getD 0)
    | 0x810 => some 0
    | 0x820 => some (if h.timed then h.cycLeft else limit)
    | 0x821 => some x.steps
    | 0x822 => some ((x.episode.map (·.stepLim)).getD 0)
    | 0x823 => some ((x.episode.map (·.tag)).getD 0)
    | 0x824 => some x.pin
    | 0x825 => some x.vlast
    | 0x826 => some x.nstale
    | 0x827 => some (if h.checker then 1 else 0)
    | 0x001 => some (bits h.fcsr.toNat 0 5)
    | 0x002 => some (bits h.fcsr.toNat 5 3)
    | 0x003 => some (bits h.fcsr.toNat 0 8)
    | 0xC00 => some h.cycle
    | 0xC02 => some h.instret
    | _ => none

/-- A CSR that a hart may write with its new value, or none for an exception: OPAY, and the floating-point CSRs (R277, R290). ATAKE
and OPOST have events of their own. -/
def writeCsr (h : Hart) (csr : Nat) (v : Word64) : Option Hart :=
  if 0x860 ≤ csr && csr ≤ 0x87F then some { h with opay := tset (csr - 0x860) v h.opay }
  else
    match csr with
    | 0x001 => some { h with fcsr := BitVec.ofNat 32 (bits h.fcsr.toNat 5 3 * 32 + low 5 v.toNat) }
    | 0x002 => some { h with fcsr := BitVec.ofNat 32 (low 3 v.toNat * 32 + bits h.fcsr.toNat 0 5) }
    | 0x003 => some { h with fcsr := BitVec.ofNat 32 (low 8 v.toNat) }
    | _ => none

/-! ## Memory (R277, R278) -/

/-- What an instruction of a hart comes to: it waits for a held bank, it raises an exception, with a record of what it consumed, or it
completes. -/
inductive HartEnd where
  | wait
  | exception (s : State)
  | goes (s : State)

/-- An access of a hart to naturally aligned bytes that its mapping and PMP permit, in no held bank (R277, R278, R320); poisoned bytes that
it reads are recorded, and raise an exception (R316). [PRESUMED: log entry 91] -/
def hartAccess (s : State) (k : Nat) (a : HartAccess) (va n : Nat) (f : Nat → HartEnd) : HartEnd :=
  match hartPa (s.hart k) a va n with
  | none => .exception s
  | some pa =>
    if (addrs pa n).any (bankHeld s) then .wait
    else match (if a = .store then none else poisonedAt s pa n) with
      | some g => .exception (memoryRecord s (((s.hart k).mailbox.map fun m => (s.mailbox m).ctx).getD 0) 0x50 2 g va 0)
      | none => f pa

/-- And aligned to its size: a misaligned access raises an exception. -/
def hartAligned (s : State) (k : Nat) (a : HartAccess) (va n : Nat) (f : Nat → HartEnd) : HartEnd :=
  if va % n ≠ 0 then .exception s else hartAccess s k a va n f

/-- The little-endian value of bytes of a hart's memory. -/
def hartValue (s : State) (pa n : Nat) : Nat := leValue ((addrs pa n).map (homeByte s))

/-- A hart's bytes activate their bank as they are read or written (R320). -/
def hartWrote (s : State) (pa n v : Nat) : State := noteActivations (writeHomeClean s pa (leBytes n v)) (.hbm pa) n

/-! ## Registers -/

/-- An integer register; x0 reads zero. -/
def Hart.reg (h : Hart) (r : Nat) : Nat := if r = 0 then 0 else (tgetD r 0 h.x).toNat

/-- A floating-point register. -/
def Hart.freg (h : Hart) (r : Nat) : Nat := (tgetD r 0 h.f).toNat

/-- A floating-point register written. -/
def Hart.setFreg (h : Hart) (r v : Nat) : Hart := { h with f := tset r (BitVec.ofNat 64 v) h.f }

/-- An operand's value. -/
def Hart.src (h : Hart) (x : RvSrc) : Nat :=
  match x with
  | .reg r => h.reg r
  | .imm v => v

/-! ## Instructions (R277) -/

/-- The value that a CSR instruction writes. -/
def csrValue (op : CsrOp) (old a : Word64) : Word64 :=
  match op with
  | .rw => a
  | .rs => old ||| a
  | .rc => old &&& ~~~a

/-- A CSR instruction: which forms write is as RISC-V defines; an unlisted CSR, or a write of one that is read-only, is an exception
(R290). [PRESUMED: log entry 91] -/
def hartCsr (s : State) (m k : Nat) (op : CsrOp) (csr rd : Nat) (a : Word64) (writes : Bool) : HartEnd :=
  match readCsr s m k csr with
  | none => .exception s
  | some old =>
    let old := BitVec.ofNat 64 old
    match (if writes then writeCsr (s.hart k) csr (csrValue op old a) else some (s.hart k)) with
    | none => .exception s
    | some h => .goes (s.onHart k fun _ => (h.setReg rd old).nextPc)

/-- One instruction of `len` bytes takes effect, but for a write of ATAKE or OPOST. [PRESUMED: log entry 91] -/
def hartExec (s : State) (m k len : Nat) (i : Rv) : HartEnd :=
  let h := s.hart k
  let pc := h.pc.toNat
  let on (f : Hart → Hart) : HartEnd := .goes (s.onHart k f)
  let step (h : Hart) : Hart := { h with pc := BitVec.ofNat 64 (pc + len) }
  let put (rd v : Nat) (h : Hart) : Hart := step (h.setReg rd (BitVec.ofNat 64 v))
  let ea (r v : Nat) : Nat := low 64 (h.reg r + v)
  let link (rd va : Nat) : HartEnd := on fun h => { h.setReg rd (BitVec.ofNat 64 (pc + len)) with pc := BitVec.ofNat 64 va }
  match i with
  | .lui rd v => on (put rd v)
  | .auipc rd v => on (put rd (pc + v))
  | .jal rd v => link rd (pc + v)
  | .jalr rd r v => link rd (ea r v / 2 * 2)
  | .branch c a b v => if rvTaken c (h.reg a) (h.reg b) then on fun h => { h with pc := BitVec.ofNat 64 (pc + v) } else on step
  | .load n sgn rd r v => hartAligned s k .load (ea r v) n fun pa =>
      let x := hartValue s pa n
      .goes ((noteActivations s (.hbm pa) n).onHart k (put rd (if sgn then sext64 (8 * n) x else x)))
  | .store n r q v => hartAligned s k .store (ea r v) n fun pa => .goes ((hartWrote s pa n (h.reg q)).onHart k step)
  | .fload n rd r v => hartAligned s k .load (ea r v) n fun pa =>
      let x := hartValue s pa n
      .goes ((noteActivations s (.hbm pa) n).onHart k fun h => step (h.setFreg rd (if n = 4 then rvBox .f32 x else x)))
  | .fstore n r q v => hartAligned s k .store (ea r v) n fun pa => .goes ((hartWrote s pa n (h.freg q)).onHart k step)
  | .alu op w rd a b => on (put rd (rvAluValue op w (h.reg a) (h.src b)))
  | .fence => on step
  | .wfi => on fun h => { step h with wfi := true, since := s.clk }
  | .csr op c rd a writes => hartCsr s m k op c rd (BitVec.ofNat 64 (h.src a)) writes
  | .lr n rd r => hartAligned s k .load (h.reg r) n fun pa =>
      let x := hartValue s pa n
      .goes ((noteActivations s (.hbm pa) n).onHart k fun h => { put rd (sext64 (8 * n) x) h with resv := some (pa, n, x) })
  | .sc n rd r q => hartAligned s k .store (h.reg r) n fun pa =>
      let won := h.resv = some (pa, n, hartValue s pa n)
      let s := if won then hartWrote s pa n (h.reg q) else s
      .goes (s.onHart k fun h => { put rd (if won then 0 else 1) h with resv := none })
  | .amo op n rd r q => hartAligned s k .store (h.reg r) n fun _ => hartAccess s k .load (h.reg r) n fun pa =>
      let x := hartValue s pa n
      .goes ((hartWrote s pa n (rvAmoValue op (8 * n) x (low (8 * n) (h.reg q)))).onHart k (put rd (sext64 (8 * n) x)))
  | .float op f rm rd a b c =>
    match (if op.rounds then rvRounding rm (bits h.fcsr.toNat 5 3) else some (.rn, 0)) with
    | none => .exception s
    | some r =>
      let x := rvFloat op f r (h.freg a) (h.freg b) (h.freg c) (h.reg a)
      on fun h =>
        let h := { h with fcsr := h.fcsr ||| BitVec.ofNat 32 x.flags }
        if x.integer then put rd x.value h else step (h.setFreg rd x.value)

/-- The word at a hart's program counter, and its length: two bytes, or four where the first two say so; the bytes of a longer instruction
are fetched with the page and PMP permissions of all four (R278). [PRESUMED: log entry 91] -/
def hartWord (s : State) (k : Nat) (f : Nat → Nat → HartEnd) : HartEnd :=
  let pc := (s.hart k).pc.toNat
  hartAccess s k .fetch pc 2 fun pa =>
    let w := hartValue s pa 2
    if low 2 w ≠ 3 then f w 2 else hartAccess s k .fetch pc 4 fun pa => f (hartValue s pa 4) 4

/-- The state that an event leaves. -/
def eventState (o : Host.Outcome State Fault Refusal) (s : State) : State :=
  match o with
  | .next s' => s'
  | _ => s

/-- A write of ATAKE or OPOST, with its destination register (R290). -/
def hartEvent (s : State) (die hart csr rd : Nat) (v : Word64) : State :=
  let s := s.onHart (hartKey die hart) fun h => { h with rd := rd }
  if csr = 0x802 then eventState (execAtake die hart v s) s
  else if (s.hart (hartKey die hart)).checker then eventState (execOpostTerminal die hart v s) s
  else if bit v.toNat 9 then eventState (execOpostEnd die hart v s) s
  else eventState (execOpostStep die hart v s) s

/-- A hart executes the instruction at its program counter: one hart cycle or more, as many as the step timer still allows; an
exception kills the episode (R278, R291). [PRESUMED: log entry 91] -/
def hartMove (s : State) (die hart cycles : Nat) : State :=
  let k := hartKey die hart
  if hart < 32 && 1 ≤ cycles && (!(s.hart k).timed || cycles ≤ (s.hart k).cycLeft) then
    match hartRuns s k with
    | none => s
    | some m =>
      let done := hartWord s k fun w len =>
        match (if len = 2 then decodeRvc w else decodeRv32 w) with
        | none => .exception s
        | some i => match i with
          | .csr op c rd a true =>
            if c = 0x802 || c = 0x810 then .goes (hartEvent s die hart c rd (csrValue op 0 (BitVec.ofNat 64 ((s.hart k).src a))))
            else match hartExec s m k len i with
              | .goes s => .goes (s.onHart k fun h => h.retire cycles)
              | e => e
          | i => match hartExec s m k len i with
            | .goes s => .goes (s.onHart k fun h => h.retire cycles)
            | e => e
      match done with
      | .wait => s
      | .exception s => hartKill s m
      | .goes s => s
  else s

/-- A free choice of an ATAKE, an OPOST or an exception is what the hart's program does next.
[DESIGN CHOICE: log entry 2] -/
def hartTurn (t : Turn) : Turn :=
  match t with
  | .event (.atake die hart _) => .hart die hart 1
  | .event (.opostStep die hart _) => .hart die hart 1
  | .event (.opostEnd die hart _) => .hart die hart 1
  | .event (.opostTerminal die hart _) => .hart die hart 1
  | .event (.hartException die hart) => .hart die hart 1
  | t => t

end Sys2Proof.Machine
end

