-- ==== Sys2Proof/Machine/Turns.lean ====
section
/-! DEFINITION. The moves of the package: which comes next, the fetch of a port's next word, one clk, the moves of stores and
caches that have no row of their own, and what every move is followed by (spec/05_execution.md R55, R56, R62; spec/07_memory.md
R80, R81, R86, R93; spec/11_encoding.md R139, R140, R143). -/

namespace Sys2Proof.Machine

/-! ## The move that comes next -/

/-- The head of the agenda, or a free choice among all moves; what a hart does is its program's.
[DESIGN CHOICE: log entry 2; DESIGN CHOICE: log entry 11] -/
def nextTurn (s : State) : Turn × State :=
  match s.agenda with
  | t :: rest => (t, { s with agenda := rest })
  | [] => (hartTurn (Config.freeTurn s.draws), { s with draws := s.draws + 1 })

/-! ## Stores and caches (R80, R81, R86, R93) -/

/-- Whether an older store of the same core to some of the same bytes has yet to reach the die. [DEDUCED: log entry 47] -/
def olderAtCore (s : State) (id : Nat) (o : StoreOp) : Bool :=
  s.ops.any fun e => e.1 < id && match e.2 with
    | .store x => x.core = o.core && !x.held && x.die.isNone && x.target.isHbm && x.bytes.any fun b => (tget b.1 o.bytes).isSome
    | _ => false

/-- A store becomes visible on its writer's die (R93 step 2): the stores of one core to a byte in their order.
[DEDUCED: log entry 47] -/
def storeToDie (s : State) (id : Nat) : State :=
  match tget id s.ops with
  | some (.store o) =>
    if o.target.isHbm && !o.held && o.die.isNone && !olderAtCore s id o then
      { s with
        ops := tset id (.store { o with die := some s.dieOrder }) s.ops
        dieOrder := s.dieOrder + 1 }
    else s
  | _ => s

/-- An L2 slice that holds more dirty lines than it has room for gives up those beyond: lines marked evict-first before any other, by a
free choice among equals; a held bank keeps its lines, and a pinned line stays (R9, R81, R86, R116, R320).
[DESIGN CHOICE: log entry 107] -/
def evictSlice (s : State) (lines : List Nat) : State :=
  let excess := lines.length - l2SliceLines
  let free := lines.filter fun l => !bankHeld s (l * 256) && !linePinned s l
  let (x, s) := s.draw
  let (marked, plain) := free.partition fun l => s.evictFirst.contains l
  let n := x.toNat % (plain.length + 1)
  ((marked ++ plain.drop n ++ plain.take n).take excess).foldl (fun s l =>
    (List.range 4).foldl (fun s i => writeBack s (l * 4 + i)) s) s

/-- No L2 slice holds more than its lines (R9). -/
def settleL2 (s : State) : State :=
  if s.l2.length ≤ l2SliceLines then s
  else
    let lines := (s.l2.map fun e => e.1 / 256).eraseDups
    ((lines.map fun l => homeSlice s (l * 256)).eraseDups).foldl (fun s k =>
      let mine := lines.filter fun l => homeSlice s (l * 256) = k
      if mine.length ≤ l2SliceLines then s else evictSlice s mine) s

/-! ## What every move is followed by -/

/-- Every quad with posted matrix commands. -/
def settleQuads (s : State) : State := ((s.matrix.map fun e => e.1 / 64).eraseDups).foldl settleQuad s

/-- All that comes about at once after a move: rollbacks, waits and rings served, rendezvous completed, fabric posts taken, matrix commands
readied and granted, the claim-deadlock clocks, postings, requests for cores, and saves. -/
def settleAll (s : State) : State :=
  settleL2 <| settleSaves (retryRequests (servePostings (noteDeadlocks (settleQuads (settleFabric (settle (settleRollbacks s)))))))

/-! ## The word a port issues (R55, R139, R140, R143) -/

/-- What a port's move comes to before its word takes effect: nothing more, or a word to issue. -/
inductive Prepared where
  | done (s : State)
  | word (i : Instr) (s : State)

/-- The word at a port's position cannot be fetched or decoded: its whole issue set traps there, and the clause ends.
[DEDUCED: log entry 33] -/
def wordTrap (s : State) (key : Nat) (pt : PortState) (cause faddr : Nat) : State :=
  let s := fetchTraps s pt.members pt.hdr (wordAddr pt.hdr pt.pos) cause faddr
  { s with ports := tmod key (fun p => { p with members := [], words := 0 }) s.ports }

/-- The word a port is to issue: its bytes as the issue set fetches them, read in the clause's class. -/
def wordAt (s : State) (t : Thread) (pt : PortState) : Except (Nat × Nat) Instr :=
  let va := wordAddr pt.hdr pt.pos
  match fetchCode s t va with
  | .error c => .error (c, va)
  | .ok x =>
    match (Class.ofBits pt.cls).map fun c => decodeWord c (BitVec.ofNat 64 x) with
    | some (.ok i) => .ok i
    | _ => .error (0x01, 0)

/-- Whether a port may issue now: a clause is bound to it, its occupancy is over, and its bay issues (R55, R162, R317, R323). -/
def portReady (s : State) (core bay : Nat) (pt : PortState) : Bool :=
  pt.pos < pt.words && pt.busyUntil ≤ s.clk && coreIssues s core bay

/-- The move of a port: with no member left its clause is over; else its next word is fetched, once the bank that holds it takes
requests (R320). -/
def prepareWord (s : State) (core bay : Nat) (p : Port) : Prepared :=
  let key := portKey core bay p
  match tget key s.ports with
  | none => .done s
  | some pt =>
    if !portReady s core bay pt then .done s
    else
      match pt.members with
      | [] => .done (endClause s key pt)
      | k :: _ =>
        match tget k s.threads with
        | none => .done (leaveIssue s k)
        | some t =>
          let u : Issuing := ⟨core, bay, p, pt.hdr, pt.pos, pt.members⟩
          let va := wordAddr pt.hdr pt.pos
          if codeHeld s t va 8 then .done s
          else match wordAt s t pt with
          | .ok i => .word i { noteFetch s t va with issuing := some u }
          | .error (c, va) =>
            if earlierWord s u then .done s else .done (wordTrap s key pt c va)

/-! ## One clk -/

/-- What must happen before the clk advances: results due, and timers of cages and claims that run out.
[DEDUCED: log entry 4] -/
def tickWaits (s : State) : Bool :=
  (s.fixed.any fun f => f.2.due ≤ s.clk)
    || (s.cages.any fun e => e.2.state = .filling && e.2.timer ≤ s.clk)
    || s.cores.any fun c => c.2.deadlock.any fun d =>
      d.2 + 256 ≤ s.clk && claimDeadlocked s c.1 d.1 && !((lastClaimant s c.1 d.1).any (claimantSaving s))

/-- One clk passes. [DEDUCED: log entry 4] -/
def tick (s : State) : State := if tickWaits s then s else { s with clk := s.clk + 1 }

/-! ## A clause placed for the next move -/

/-- A kernel of one thread whose code section is one header and one word at virtual address 0x40000.
[DESIGN CHOICE: log entry 15] -/
def placedKernel : KDesc where
  entry := 0x40000
  code := 0x40000
  cmap := 0x50000
  codeLen := 16
  scratch := 0x1000
  t := 1
  regs := 384
  wsel := 1
  prog := 0
  det := false
  ckpt := false
  replay := false
  prio := 0
  pair := false
  cx := 1
  cy := 1
  cz := 1
  x := 1
  y := 1
  z := 1
  clean := true

/-- A context descriptor with its page-table root at 0x10000 and no tables. [DESIGN CHOICE: log entry 15] -/
def placedContext : CtxDesc where
  ptroot := 0x10000
  ashift := 0
  tlog := 4
  vec := 0
  prio := 0
  sysl := true
  dies := 15
  htab := 0
  ctab := 0
  stab := 0
  vtab := 0
  ering := 0
  tring := 0
  hdesc := 0
  wz := 0
  save := 0
  savelen := 0

/-- The port that takes words of a class (R56). -/
def portOf (cls : Nat) : Port := if cls = 0 then .va else if cls = 1 then .m else .c

/-- A one-word clause stored where the next move fetches it: in HBM behind a one-gigabyte identity page, as the clause that
thread 1 of a team of its own issues on bay 0 of core 0, which is enabled. [DESIGN CHOICE: log entry 15] -/
def placeClause (s : State) (hdr word : Nat) : State :=
  let cls := bits hdr 61 3
  let s := writeHomes s 0x10000 (leBytes 8 0x20001)
  let s := writeHomes s 0x20000 (leBytes 8 0x30001)
  let s := writeHomes s 0x30000 (leBytes 8 0x1F)
  let s := writeHomes s 0x40000 (leBytes 8 hdr)
  let s := writeHomes s 0x40008 (leBytes 8 word)
  let s := writeHomes s 0x50000 (leBytes 8 1)
  let k := s.nextKey
  let launch : Launch := {
    ctx := 0, id := 1, kind := .handler, k := placedKernel, sys := true, order := 0, numbering := [34, 35, 70, 71, 106, 107, 142, 143], relays := [], handles := [], assay := none
    placed := 1, finished := [], retired := 0, firstGroup := some s.clk, lastIssue := s.clk, reported := s.clk
    staged := [], status := none, residual := none, windows := [], unsampled := [] }
  let group : Group := {
    ctx := 0, launch := k, team := k + 1, core := 0, bay := 0, width := 32, slot0 := 0, index := 0, launchNo := 0, born := 0, cage := none, slot := 0
    state := .resident, live := 1, uni := [], segs := [⟨0, 0, 384⟩], cfg := MatrixCfg.reset, claim := none, k := placedKernel }
  let team : Team := {
    ctx := 0, launch := k, index := 0, cluster := 0, numbering := [34, 35, 70, 71, 106, 107, 142, 143], state := .running, cores := [(0, 0, 0)], scratch := 0x1000
    barriers := [(0, { Barrier.reset with texp := 1 })], useMask := 0, releases := 0, image := none, saved := none
    interval := none, replay := none }
  let thread : Thread := {
    ctx := 0, launch := k, team := k + 1, group := some (k + 2), member := 0, tid := 0, srGroup := 0, sys := true, child := false
    handler := false, state := .issuing, pc := 0x40000, resume := none, curHdr := 0x40000, curWord := 0x40008, regs := []
    preds := 0, ctrs := [], draw := 0, spawns := 0, versions := [], srVersion := 0, passed := 0, yielded := 0, trap := none
    trapSlot := none, deferred := [], step := false, lastKey := 0 }
  let context : Context := {
    cdesc := 0x1000, qbase := 0, qlog := 4, tail := 0, head := 0, state := 1, desc := placedContext, schk := false, locks := []
    handler := none, trapSlots := [], images := [], drain := none, targeted := false, rests := [], foremanMove := none }
  { s with
    agenda := .port 0 0 (portOf cls) :: s.agenda
    nextKey := k + 4
    retiredQuads := [34, 35, 70, 71, 106, 107, 142, 143]
    throttled := none
    tlb := tdel 0 s.tlb
    contexts := tset 0 context s.contexts
    launches := tset k launch s.launches
    teams := tset (k + 1) team s.teams
    groups := tset (k + 2) group s.groups
    threads := tset (k + 3) thread s.threads
    ports := tset (portKey 0 0 (portOf cls)) {
      hdr := 0x40000, pos := 0, words := 1, cls := BitVec.ofNat 3 cls, hint := 0, members := [k + 3], busyUntil := 0
      issuedAt := 0, paired := false } s.ports }

end Sys2Proof.Machine
end

