-- ==== Sys2Proof/Machine/Control.lean ====
section
/-! DEFINITION. The control space (spec/27_host_startup.md R322 to R324; spec/07_memory.md R77, R88; spec/25_faults_reliability.md
R303, R320; spec/23_adit.md R279 to R283; spec/19_reductions_fabric.md R257) and the host's window onto the package (R21, R322). -/

namespace Sys2Proof.Machine

/-! ## Format windows (R88, R89) -/

/-- A window of a die set. -/
def setWindow (s : State) (die w : Nat) (x : Window) : State := { s with windows := tset (die * 16 + w) x s.windows }

/-- Bytes of a window's scale array; none in an unscaled layout. -/
def Window.scaleBytes (w : Window) : Nat := if w.layout = 1 then w.nbr * w.nbc else 0

/-- FMT and LAYOUT are allowed. -/
def Window.formatOk (w : Window) : Bool := w.layout ≤ 1 && w.fmt ≤ 9 && (w.fmt < 8 || w.layout = 0)

/-- BASE, SBASE and both ranges lie in the die's HBM and do not overlap, and the tensor has rows and columns. -/
def Window.rangesOk (w : Window) (die : Nat) : Bool :=
  let inDie (a n : Nat) : Bool := die * dieHbmBytes ≤ a && a + n ≤ (die + 1) * dieHbmBytes
  w.rows ≠ 0 && w.cols ≠ 0 && inDie w.base w.bytes
    && (w.layout ≠ 1 || (inDie w.sbase w.scaleBytes && !meet w.base w.bytes w.sbase w.scaleBytes))

/-- ERR of an enable: the first failure in the order 0b11, 0b10, 0b01; a window whose purge runs counts as enabled.
[DEDUCED: log entry 22] -/
def enableError (s : State) (die w : Nat) (x : Window) : Nat :=
  if !x.formatOk then 3
  else if !x.rangesOk die then 2
  else if s.windows.any fun e => e.1 ≠ die * 16 + w && (e.2.en || e.2.busy) && meet x.base x.bytes e.2.base e.2.bytes then 1
  else 0

/-- A write of a window's first word: EN starts an enable or a disable; the other fields are written only while EN is 0. -/
def writeWindow0 (s : State) (die w v : Nat) : State :=
  let x := s.window die w
  if x.busy then s
  else if x.en then (if bit v 0 then s else setWindow s die w { x with busy := true })
  else
    let x := { x with layout := bits v 8 2, fmt := bits v 4 4 }
    if !bit v 0 then setWindow s die w x
    else
      let e := enableError s die w x
      setWindow s die w { x with err := e, busy := e = 0 }

/-- A write of a window's word. -/
def writeWindow (s : State) (die w off v : Nat) : State :=
  let x := s.window die w
  if off = 0 then writeWindow0 s die w v
  else if x.busy || x.en then s
  else if off = 0x08 then setWindow s die w { x with base := bits v 16 40 * 65536 }
  else if off = 0x10 then setWindow s die w { x with sbase := bits v 8 48 * 256 }
  else setWindow s die w { x with cols := bits v 32 32, rows := bits v 0 32 }

/-- WINDOW_ENABLE: EN written from 0 to 1. [DEDUCED: log entry 22] -/
def execWindowEnable (die w : Nat) (s : State) : Host.Outcome State Fault Refusal :=
  let x := s.window die w
  .next (onceReady s fun s => if die < 4 && w < 16 && !x.en && !x.busy then writeWindow0 s die w (x.word 0 + 1) else s)

/-- WINDOW_DISABLE: EN written from 1 to 0. [DEDUCED: log entry 22] -/
def execWindowDisable (die w : Nat) (s : State) : Host.Outcome State Fault Refusal :=
  let x := s.window die w
  .next (onceReady s fun s => if x.en && !x.busy then writeWindow0 s die w (x.word 0 - 1) else s)

/-- Dirty bytes of a range that lie in a guest copy and have still to come home (R81, R88). -/
def rangeAbroad (s : State) (pa n : Nat) : Bool := s.ops.any fun e => match e.2 with
  | .store o => o.target.isHbm && o.die.isSome && o.bytes.any fun (b : Nat × Byte) => pa ≤ b.1 && b.1 < pa + n
  | _ => false

/-- A line of a range is pinned by some tile fetch unit (R116). -/
def rangePinned (s : State) (pa n : Nat) : Bool :=
  s.matrix.any fun e => e.2.pins.any fun p => p.lines.any fun l => meet (l * 256) 256 pa n

/-- WINDOW_PURGE_DONE: no line of the element range is pinned, every die has written its dirty sectors of it back and keeps no copy, and EN
takes its new value (R88, R116). [DEDUCED: log entry 22] -/
def execWindowPurgeDone (die w : Nat) (s : State) : Host.Outcome State Fault Refusal :=
  let x := s.window die w
  if !x.busy then .next s
  else
    let sectors := ((s.l2.filter fun e => x.base ≤ e.1 && e.1 < x.base + x.bytes).map fun e => e.1 / 64).eraseDups
    if rangePinned s x.base x.bytes || rangeAbroad s x.base x.bytes || sectors.any fun c => bankHeld s (c * 64) then .next s
    else
      let s := sectors.foldl writeBack s
      let s := { s with presence := s.presence.filter fun e => !meet (e.1 * 256) 256 x.base x.bytes }
      .next (setWindow s die w { x with busy := false, en := !x.en })

/-! ## The walkers (R302, R303) -/

/-- Whether a page by its 64 KiB number lies in the range that a die invalidates. -/
def DieCtl.names (d : DieCtl) (page : Nat) : Bool := d.npg = 0 || (d.vpn ≤ page && page < d.vpn + d.npg)

/-- Whether a range of addresses touches the range that a die invalidates. -/
def DieCtl.touches (d : DieCtl) (va n : Nat) : Bool :=
  d.npg = 0 || (d.vpn * 65536 < va + n && va < (d.vpn + d.npg) * 65536)

/-- Whether an operation of the invalidated context, from a core of the die, may still use an old translation (R303): by its
addresses where it keeps them, else whatever they are. [DEDUCED: log entry 23] -/
def usesOld (s : State) (die : Nat) (d : DieCtl) (o : Op) : Bool :=
  let pages (ps : List (Nat × Target)) : Bool := ps.any fun (p : Nat × Target) => d.names p.1
  match o with
  | .load o => dieOfCore o.core = die && o.members.any fun m =>
      !m.done && ((tget m.thread s.threads).map (·.ctx)) = some d.ictx && d.touches m.va (sizeBytes o.size)
  | .store o => dieOfCore o.core = die && o.ctx = d.ictx && d.touches o.va o.bytes.length
  | .atom o => dieOfCore o.core = die && o.ctx = d.ictx && d.touches o.va 8
  | .tile o => dieOfCore o.core = die && o.ctx = d.ictx
  | .disc o => dieOfCore o.core = die && o.ctx = d.ictx
  | .pref o => dieOfCore o.core = die && opContext s (.pref o) = d.ictx
  | .wait o => dieOfCore o.core = die && opContext s (.wait o) = d.ictx && d.touches o.va 8
  | .copy o => dieOfCore o.core = die && o.ctx = d.ictx && (pages o.dst || pages o.src)
  | .drain o => dieOfCore o.core = die && o.ctx = d.ictx
  | .fabric o => dieOfCore o.core = die && o.ctx = d.ictx
  | .rinv o => dieOfCore o.core = die && o.ctx = d.ictx
  | .recv o => dieOfCore o.core = die && o.ctx = d.ictx
  | .ring o => dieOfCore o.core = die && o.ctx = d.ictx && o.moving.isSome
  | _ => false

/-- Whether a posted matrix command translated a page of the range on the die. [DEDUCED: log entry 23] -/
def commandUsesOld (die : Nat) (d : DieCtl) (e : MatrixEntry) : Bool :=
  (e.cores.any fun c => dieOfCore c = die) && e.ctx = d.ictx && (e.a.pages ++ e.b.pages).any fun (p : Nat × Target) => d.names p.1

/-- A write of a walker's register: GO starts an invalidation; a write while BUSY is 1 is ignored. -/
def writeWalker (s : State) (die off v : Nat) : State :=
  if (s.die die).busy then s
  else if off = 0 then s.onDie die fun d => { d with vpn := bits v 16 48 }
  else s.onDie die fun d => { d with npg := bits v 32 32, ictx := bits v 2 6, busy := bit v 0 }

/-- WALKER_INVALIDATE: the second word of a walker's register written with GO. -/
def execWalkerInvalidate (die : Nat) (value : Word64) (s : State) : Host.Outcome State Fault Refusal :=
  .next (onceReady s fun s => if die < 4 && bit value.toNat 0 then writeWalker s die 8 value.toNat else s)

/-- WALKER_INVALIDATE_DONE: no translation of the range is cached on the die, and nothing there uses an old one.
[DEDUCED: log entry 23] -/
def execWalkerInvalidateDone (die : Nat) (s : State) : Host.Outcome State Fault Refusal :=
  let d := s.die die
  if !d.busy || (s.ops.any fun e => usesOld s die d e.2) || s.matrix.any fun e => commandUsesOld die d e.2 then .next s
  else
    let kept := ((tget die s.tlb).getD []).filter fun t => !(t.ctx = d.ictx && d.touches t.va t.size)
    .next ({ s with tlb := tset die kept s.tlb }.onDie die fun d => { d with busy := false })

/-- TRANSLATION_WALK: the walker of a die reads the entries for an address, once no bank of theirs is held, and keeps the leaf; a
poisoned entry is recorded (R302, R320). -/
def execTranslationWalk (die ctx : Nat) (va : Word64) (s : State) : Host.Outcome State Fault Refusal :=
  match tget ctx s.contexts with
  | none => .next s
  | some c =>
    if 4 ≤ die || c.state = 0 || walkWaits s die ctx va.toNat then .next s
    else
      let s := (walkReads s die va.toNat 5 0 (rootOf s ctx)).foldl noteActivation s
      if (leafOf s die ctx va.toNat).isSome then .next (cacheLeaf s die ctx va.toNat)
      else .next (poisonedWalk s die ctx va.toNat 0)

/-! ## Writing -/

/-- A register of the global block written. [DEDUCED: log entry 19] -/
def writeGlobal (s : State) (off v : Nat) : State :=
  match off with
  | 0x08 => if bits v 0 2 = 1 then startWrite s false else if bits v 0 2 = 2 then startWrite s true else s
  | 0x10 => { s with glob := { s.glob with wbase := v } }
  | 0x18 => { s with glob := { s.glob with invtmo := v } }
  | 0x38 =>
    let p := bits v 0 16
    if 600 ≤ p && p ≤ 2800 then { s with glob := { s.glob with plim := p } } else s
  | _ =>
    if 0x40 ≤ off then
      let i := (off - 0x40) / 16
      let r := tgetD i (0, 0) s.glob.pranges
      { s with glob := { s.glob with pranges := tset i (if off % 16 = 0 then (v, r.2) else (r.1, v)) s.glob.pranges } }
    else s

/-- Every mailbox of a die is UNBOUND (R280). -/
def mailboxesUnbound (s : State) (die : Nat) : Bool :=
  s.mailboxes.all fun e => mailboxDie e.1 ≠ die || e.2.state = .unbound

/-- A register of an Adit control block written; device software may write mailbox entries alone (R279 to R283).
[DEDUCED: log entry 19; DEDUCED: log entry 21] -/
def writeAdit (s : State) (device : Bool) (die o v : Nat) : State :=
  if 0x10000 ≤ o && o < 0x20000 then
    let m := die * 1024 + (o - 0x10000) / 0x40
    if o % 0x40 = 0 then writeMailbox0 s m v else if o % 0x40 = 8 then writeEpdesc s m v else s
  else if device then s
  else if o < 0x10 then
    if !mailboxesUnbound s die then s
    else s.onDie die fun d => if o = 0 then { d with cbase := bits v 16 40 * 65536 } else { d with clen := v }
  else if o % 16 = 0 then
    { s with arenas := tset (die * 4096 + (o - 0x40000) / 16) (bits v 16 40 * 65536, bits v 0 6) s.arenas }
  else s

/-- A register of a context slot written (R324). [DEDUCED: log entry 19] -/
def writeSlot (s : State) (c off v : Nat) : State :=
  let x := tgetD c Context.reset s.contexts
  match off with
  | 0x00 => writeCdesc s c v
  | 0x08 => if x.state = 0 then { s with contexts := tset c { x with qbase := v } s.contexts } else s
  | 0x10 => if x.state = 0 then { s with contexts := tset c { x with qlog := bits v 0 4 } s.contexts } else s
  | 0x18 =>
    if x.state = 1 && x.head ≤ v && v ≤ x.head + 2 ^ x.qlog then { s with contexts := tset c { x with tail := v } s.contexts } else s
  | _ => s

/-- The 8-byte register at an aligned offset written by a device thread, or else by the host or the management processor; the
detour table is the management processor's. [DEDUCED: log entry 19; DEDUCED: log entry 21] -/
def writeControlWord (s : State) (device : Bool) (off v : Nat) : State :=
  let die := off % 0x1000000 / 0x100000
  let o := off % 0x100000
  match off / 0x1000000 with
  | 0 => writeGlobal s off v
  | 1 =>
    if o < 0x110 then writeWalker s die (o % 16) v
    else if o = 0x3000 then (if 256 ≤ bits v 0 16 then s.onDie die fun d => { d with rmt := bits v 0 16 } else s)
    else writeWindow s die ((o - 0x2000) / 0x40) (o % 0x40) v
  | 2 => writeAdit s device die o v
  | 3 => if device then s else { s with detours := tset (off % 0x1000000 / 8) (BitVec.ofNat 64 v) s.detours }
  | _ => writeSlot s (off % 0x1000000 / 0x100) (off % 0x100) v

/-- 4 or 8 bytes written in the control space: the bytes not written keep what they read. [DESIGN CHOICE: log entry 20] -/
def writeControl (s : State) (device : Bool) (off : Nat) (bs : List Byte) : State :=
  let old := leBytes 8 (controlWord s (off / 8 * 8))
  writeControlWord s device (off / 8 * 8) (leValue (old.take (off % 8) ++ bs ++ old.drop (off % 8 + bs.length)))

/-! ## The host (R21, R322, R330) -/

/-- REGISTER_WRITE: an 8-byte write at an offset of BAR0; elsewhere, and before READY outside the global block, it meets
Unsupported Request. [DESIGN CHOICE: log entry 20] -/
def execRegisterWrite (offset : Nat) (value : Word64) (s : State) : Host.Outcome State Fault Refusal :=
  if contained s then .next s
  else if !controlAssigned offset || offset % 8 ≠ 0 || (!s.glob.ready && 0x140 ≤ offset) then .next (toHost s .unsupported)
  else .next (writeControl s false offset (leBytes 8 value.toNat))

/-- A read of BAR0 by the host: 4 or 8 aligned bytes of assigned registers; anything else, and before READY anything outside the global
block, meets Unsupported Request (R21, R322, R330). [DESIGN CHOICE: log entry 20] -/
def registerRead (s : State) (off n : Nat) : State :=
  if contained s then s
  else if (n ≠ 4 && n ≠ 8) || off % n ≠ 0 || !controlAssigned off || (!s.glob.ready && 0x140 ≤ off) then toHost s .unsupported
  else
    let (bs, s) := readControl s off n
    toHost s (.completion bs)

/-- The largest payload of a transaction (R321). -/
def maxPayload : Nat := 512

/-- A read's bytes come back in completions of the largest payload or less (R321). -/
def complete (s : State) : Nat → List Byte → State
  | 0, _ => s
  | fuel + 1, bs => if bs.isEmpty then s else complete (toHost s (.completion (bs.take maxPayload))) fuel (bs.drop maxPayload)

/-- An access to BAR4: the MSI-X table keeps what is written to it, the PBA shows no pending vector, since each vector signalled leaves at
once; bytes that lie in neither read zero (R321, R322). [DESIGN CHOICE: log entry 25] -/
def tableAccess (s : State) (access : HostAccess) : State :=
  if contained s then s
  else match access with
  | .read off len =>
    if len = 0 then s
    else if 65536 < off + len then toHost s .unsupported
    else complete s (len / maxPayload + 1) ((addrs off len).map fun a => tgetD a 0 s.msix)
  | .write off bs =>
    if maxPayload < bs.length then s
    else if 65536 < off + bs.length then toHost s .unsupported
    else { s with msix := ((addrs off bs.length).zip bs).foldl (fun t (e : Nat × Byte) =>
        if e.1 < 0x8000 then tset e.1 e.2 t else t) s.msix }

/-- Whether a physical address may be reached through BAR2 at all: HBM, the carve-out with it, or an assigned offset of the on-chip
map outside the control regions (R20, R21, R280). [DEDUCED: log entry 24] -/
def hostReaches (s : State) (pa n : Nat) : Bool :=
  (addrs pa n).all fun a =>
    a < hbmBytes || (onchipBase ≤ a && a < onchipBase + 0x1000000000 && match (regionOf s a).2 with
      | .unassigned => false
      | .control _ => false
      | _ => true)

/-- An on-chip access of more than 8 bytes stays in one region (R20). -/
def oneRegion (s : State) (pa n : Nat) : Bool :=
  let kind (r : Region) : Nat := match r with
    | .scratchpad _ => 0
    | .register _ _ _ _ => 1
    | .accumulator _ _ => 2
    | .control _ => 3
    | .unassigned => 4
  pa < hbmBytes || n ≤ 8 || (kind (regionOf s pa).2 = kind (regionOf s (pa + n - 1)).2)

/-- A host access waits: its line is held by a tile, a scale byte's block is pinned, or an accumulator is busy (R90, R101,
R122). [DEDUCED: log entry 24] -/
def hostWaits (s : State) (pa n : Nat) (write : Bool) : Bool :=
  if pa < hbmBytes then (if write then writeWaits s (.hbm pa) n else lineHeld s (.hbm pa) n)
  else (addrs pa n).any fun a => match regionOf s a with
    | (core, .accumulator k _) => tileBusy s core k
    | _ => false

/-- A byte of the Sv39 tables that an episode's monitor keeps in the first 64 KiB of its arena (R282).
[DEDUCED: log entry 92] -/
def arenaTableByte (s : State) (pa : Nat) : Option Byte :=
  s.harts.findSome? fun e => match e.2.mailbox, e.2.pmp with
    | some _, arena :: image :: _ =>
      if arena.addr ≤ pa && pa < arena.addr + 65536 then
        some (Config.arenaTable arena.addr arena.len image.addr image.len (pa - arena.addr))
      else none
    | _, _ => none

/-- The bytes of a host read: HBM at its home, with the tables of running episodes, and the on-chip map as it stands. -/
def hostBytes (s : State) (pa n : Nat) : List Byte × State :=
  if pa < hbmBytes then
    ((addrs pa n).map fun a => (arenaTableByte s a).getD (homeByte s a), noteActivations s (.hbm pa) n)
  else targetBytes s 0 0 false (.onchip pa) n

/-- HOST_WINDOW_ACCESS: one access through BAR2, onto package addresses from WBASE upward; no transaction carries more than the largest
payload, so a longer write is none (R321, R322). [DEDUCED: log entry 24] -/
def execHostWindowAccess (access : HostAccess) (s : State) : Host.Outcome State Fault Refusal :=
  let (off, n) := match access with
    | .read off len => (off, len)
    | .write off bs => (off, bs.length)
  let pa := low 64 (s.glob.wbase + off)
  let long := match access with
    | .read _ _ => false
    | .write _ bs => maxPayload < bs.length
  if contained s || n = 0 || long then .next s
  else if !s.glob.ready || 2 ^ 36 < off + n || !hostReaches s pa n || !oneRegion s pa n then .next (toHost s .unsupported)
  else
    match access with
    | .read _ _ =>
      if hostWaits s pa n false || banksHeld s (.hbm pa) (if pa < hbmBytes then n else 0) then .next s
      else
        let s := match poisonedAt s pa (if s.poison.isEmpty then 0 else n) with
          | some g => patrolRecord s g 0x50 2
          | none => s
        let (bs, s) := hostBytes s pa n
        .next (complete s (n / maxPayload + 1) bs)
    | .write _ bs =>
      let cells := (addrs pa n).zip bs
      if hostWaits s pa n true then .next s
      else if pa < hbmBytes then .next (noteTargets (clearPoison (writeHomes s pa bs) cells) (addrs pa n))
      else if !onchipWritable s 64 pa n then .next (toHost s .unsupported)
      else .next (fillGranules (writeNow s cells) (addrs pa n))

/-! ## Moves that have no row in the opcode table -/

/-- The moves that are neither a port's word nor a row of the opcode table. -/
def freeMove (s : State) : Turn → State
  | .tick => tick s
  | .storeToDie op => storeToDie s op
  | .l1Evict core line => evictL1 s core line
  | .writeBack sector => writeBack s sector
  | .wordError g corrected => wordError s g corrected
  | .ownerlessError pa len place corrected => ownerlessError s pa len place corrected
  | .hart die h cycles => hartMove s die h cycles
  | .hartWake die h => wakeHart s (hartKey die h)
  | .registerRead off n => registerRead s off n
  | .tableAccess access => tableAccess s access
  | .portRetire port => retirePort s port
  | .port _ _ _ => s
  | .event _ => s

end Sys2Proof.Machine
end

