-- ==== Sys2Proof/Machine/MemoryEvents.lean ====
section
/-! DEFINITION. Events of memory: how what the memory words begin is performed and completes (spec/07_memory.md R80 to R106;
spec/15_ops_memory.md R188 to R204, R216). -/

namespace Sys2Proof.Machine

/-! ## Order of one thread's accesses (R77, R92) -/

/-- An older operation of a thread still has to read or write bytes of a target. [DEDUCED: log entry 48] -/
def olderOwn (s : State) (id k : Nat) (tgt : Target) (n : Nat) : Bool :=
  s.ops.any fun e => e.1 < id && (e.2.readsBytes k tgt n || e.2.writesBytes k tgt n)

/-- As `olderOwn`, for a read: a plain store of the thread is seen by it at once. -/
def olderOwnRead (s : State) (id k : Nat) (tgt : Target) (n : Nat) : Bool :=
  s.ops.any fun e => e.1 < id && (e.2.readsBytes k tgt n || (e.2.writesBytes k tgt n && match e.2 with
    | .store o => !o.target.isHbm
    | _ => true))

/-- Whether a target is the control space. -/
def Target.isControl : Target → Bool
  | .control _ => true
  | _ => false

/-- An older access of a thread to the control space is not yet performed: they are performed in program order (R77). -/
def olderControl (s : State) (id k : Nat) (tgt : Target) : Bool :=
  tgt.isControl && s.ops.any fun e => e.1 < id && match e.2 with
    | .load o => o.members.any fun m => m.thread = k && !m.done && m.target.isControl
    | .store o => o.of k && o.target.isControl
    | _ => false

/-! ## Loads (R85, R188, R190, R191) -/

/-- COALESCER_REQUEST_SEND: the oldest unsent request of a load takes its missing sectors' entries together and is sent.
[DESIGN CHOICE: log entry 46] -/
def execCoalescerRequestSend (op req : Nat) (s : State) : Host.Outcome State Fault Refusal :=
  match tget op s.ops with
  | some (.load o) =>
    match o.reqs[req]? with
    | none => .next s
    | some r =>
      let present := (List.range 4).foldl (fun m i =>
        if o.kind.viaL1 o.scope && bit r.sectors i
            && (addrs (r.line * 256 + 64 * i) 64).all fun a => (tget (l1Key o.core a) s.l1).isSome then m + 2 ^ i else m) 0
      let need := popCount 4 (bits r.sectors 0 4) - popCount 4 present
      if r.sent || (o.reqs.take req).any (!·.sent) || 1024 < missEntries s o.core + need then .next s
      else .next (s.onOp op fun _ => .load { o with
        reqs := o.reqs.map fun (x : LineReq) => if x.line = r.line then { x with sent := true, filled := present } else x })
  | _ => .next s

/-- A load .LU marks its line evict-first in its home slice and, where the core's L1 holds it, in the L1 (R86). -/
def markEvictFirst (s : State) (core line : Nat) : State :=
  { s with
    evictFirst := if s.evictFirst.contains line then s.evictFirst else line :: s.evictFirst
    l1EvictFirst := if (l1Held s core).contains line && !s.l1EvictFirst.contains (l1Key core line) then l1Key core line :: s.l1EvictFirst
      else s.l1EvictFirst }

/-- SECTOR_FILL: the lowest missing sector of a request that has been sent is filled, into L1 where the policy fills it, and its
entry is freed; .LU marks the line evict-first (R80, R85, R86). -/
def execSectorFill (op req : Nat) (s : State) : Host.Outcome State Fault Refusal :=
  match tget op s.ops with
  | some (.load o) =>
    match o.reqs[req]? with
    | none => .next s
    | some r =>
      match (List.range 4).find? fun i => bit r.sectors i && !bit r.filled i with
      | none => .next s
      | some i =>
        let sector := r.line * 256 + 64 * i
        if !r.sent || fillWaits s sector || bankHeld s sector || lineHeld s (.hbm sector) 64 then .next s
        else
          let s := s.onOp op fun _ => .load { o with
            reqs := o.reqs.map fun (x : LineReq) => if x.line = r.line then { x with filled := x.filled ||| 2 ^ i } else x }
          let s := takeGuest s (dieOfCore o.core) sector
          let s := if o.kind.viaL1 o.scope then fillL1Sector (makeL1Room s o.core r.line) o.core sector else s
          let s := if o.kind = .lu then markEvictFirst s o.core r.line else s
          .next (noteActivation s sector)
  | _ => .next s

/-- Whether a member's data has come: every sector it touches is filled. -/
def memberFilled (o : LoadOp) (m : LoadMember) : Bool :=
  match m.target with
  | .hbm pa => o.reqs.any fun r =>
      let want := sectorBits pa (sizeBytes o.size)
      r.line = pa / 256 && r.sent && want &&& bits r.filled 0 4 = want
  | _ => true

/-- A load's member is done: its counter falls, an acquire takes effect, and the operation ends with its last member. -/
def loadDone (s : State) (op : Nat) (o : LoadOp) (k : Nat) : State :=
  let ms := o.members.map fun m => if m.thread = k then { m with done := true } else m
  let s := if ms.all (·.done) then s.endOp op else s.onOp op fun _ => .load { o with members := ms }
  let s := readFences (lowerCtr s ⟨k, o.ctr⟩) k o.core
  if o.acq then acquireFor s k o.core o.scope else s

/-- LOAD_DATA_RETURN: a member's bytes are read where its policy and scope serve them and written to its destination; a read of
poisoned bytes is consumed and leaves the destination unchanged (R92, R101, R190, R191, R316). [DEDUCED: log entry 49] -/
def execLoadDataReturn (op member : Nat) (s : State) : Host.Outcome State Fault Refusal :=
  match tget op s.ops with
  | some (.load o) =>
    match o.members[member]? with
    | none => .next s
    | some m =>
      let n := sizeBytes o.size
      let viaL1 := o.kind.viaL1 o.scope
      match tget m.thread s.threads with
      | none => .next s
      | some t =>
        if m.done || !memberFilled o m || olderOwnRead s op m.thread m.target n || olderControl s op m.thread m.target
            || lineHeld s m.target n then .next s
        else
          match targetPoison s o.core viaL1 m.target n with
          | some g => .next (consumeAt (loadDone s op o m.thread) m.thread o.word m.va m.target.pa g)
          | none =>
            let (bs, s) := match m.target with
              | .control off => readControl s off n
              | tgt => targetBytes s o.core t.team viaL1 tgt n
            let s := match m.target with
              | .hbm pa => if viaL1 then s else dropL1Sector s o.core pa
              | _ => s
            let s := match m.dst with
              | some d => writeRegs s m.thread d (loadRegs o.size) (loadedValue o.size bs)
              | none => s
            .next (loadDone s op o m.thread)
  | _ => .next s

/-- PREFETCH_FILL: the line has come, into L1 where the prefetch fills it (R197). -/
def execPrefetchFill (op : Nat) (s : State) : Host.Outcome State Fault Refusal :=
  match tget op s.ops with
  | some (.pref o) =>
    let sectors := (List.range 4).map fun i => o.line * 256 + 64 * i
    if sectors.any fun x => fillWaits s x || bankHeld s x || lineHeld s (.hbm x) 64 then .next s
    else
      let s := takeGuest s (dieOfCore o.core) (o.line * 256)
      let s := if o.l1 then sectors.foldl (fun s x => fillL1Sector s o.core x) (makeL1Room s o.core o.line) else s
      .next (sectors.foldl noteActivation (lowerCtr (s.endOp op) o.c))
  | _ => .next s

/-! ## Stores (R82, R90, R93) -/

/-- Whether an older store visible on the same die still has to be performed at some of the same bytes (R93).
[DEDUCED: log entry 47] -/
def olderOnDie (s : State) (o : StoreOp) : Bool :=
  s.ops.any fun e => match e.2, o.die with
    | .store x, some d => match x.die with
      | some d' => d' < d && dieOfCore x.core = dieOfCore o.core && x.bytes.any fun b => (tget b.1 o.bytes).isSome
      | none => false
    | _, _ => false

/-- The bytes of a store's target one by one, or of a target that is not local HBM as a whole. -/
def StoreOp.parts (o : StoreOp) : List (Target × Nat) :=
  if o.target.isHbm then o.bytes.map fun (b : Nat × Byte) => (.hbm b.1, 1) else [(o.target, o.bytes.length)]

/-- Whether a store may be performed now. [DEDUCED: log entry 47] -/
def storeReady (s : State) (id : Nat) (o : StoreOp) : Bool :=
  !o.held && !(o.cs.any fun c => o.parts.any (fun p => olderOwn s id c.thread p.1 p.2) || olderControl s id c.thread o.target)
    && (!o.target.isHbm || (o.die.isSome && !olderOnDie s o && !(o.parts.any fun p => lineHeld s p.1 p.2)))

/-- A store to local HBM performed at its home: the bytes, the poison they clear, the winze's notice, and the writer entry for each write
that it joins (R106, R192); the writer's core keeps no L1 copy of scale bytes, which its own store has not changed there (R80, R90). -/
def performHbm (s : State) (o : StoreOp) : State :=
  let scales := o.bytes.filter fun b => (scaledBlock s b.1).isSome
  let s := o.bytes.foldl (fun s (b : Nat × Byte) => writeHome s b.1 b.2) s
  let s := noteTargets (clearPoison (dropL1Bytes s [o.core] scales) o.bytes) (o.bytes.map fun (b : Nat × Byte) => b.1)
  match o.bytes.head? with
  | some b => o.vas.foldl (fun s va => noteWrite s o.team b.1 va) s
  | none => s

/-- A store is performed where its target lies, and completes. [DESIGN CHOICE: log entry 50] -/
def performStore (s : State) (id : Nat) (o : StoreOp) : State :=
  let s := lowerCtrs (s.endOp id) o.cs
  match o.target with
  | .hbm _ => performHbm s o
  | .control off => writeControl s true off (o.bytes.map fun (b : Nat × Byte) => b.2)
  | _ => s

/-- STORE_PERFORM: a store that is visible on its die is performed at home; control registers and peer pages take theirs in the
thread's order. [DESIGN CHOICE: log entry 3] -/
def execStorePerform (op : Nat) (s : State) : Host.Outcome State Fault Refusal :=
  match tget op s.ops with
  | some (.store o) =>
    if storeReady s op o && !(o.parts.any fun p => onScale s p.1 p.2) then .next (performStore s op o) else .next s
  | _ => .next s

/-- The sectors of the blocks whose scale bytes a store writes (R90). -/
def scaledSectors (s : State) (o : StoreOp) : List Nat := (o.parts.flatMap fun p => blockSectors s p.1 p.2).eraseDups

/-- SCALE_STORE_PERFORM: a store to scale bytes of an enabled window, once the lines of their blocks are unpinned and written back by
every die; fills after it take the new scale (R90). -/
def execScaleStorePerform (op : Nat) (s : State) : Host.Outcome State Fault Refusal :=
  match tget op s.ops with
  | some (.store o) =>
    let sectors := scaledSectors s o
    if storeReady s op o && (o.parts.any fun p => onScale s p.1 p.2) && !blocksWait s sectors then .next (performStore (cleanSectors s sectors) op o)
    else .next s
  | _ => .next s

/-! ## Atomics (R102 to R104, R199, R200) -/

/-- The new value of a location from its old one and an operand. -/
def AtomOp.apply (o : AtomOp) (old b b2 : Nat) : Nat :=
  if o.fadd then fpAdd (if o.ty = 1 then .f64 else .f32) .rn false false 0 old b else atomValue o.oper (atomTy o.ty) old b b2

/-- The operand that a request carries: the members' operands combined in order; EXCH keeps the last. -/
def AtomOp.combined (o : AtomOp) : Nat :=
  match o.members with
  | [] => 0
  | m :: ms => if o.fadd || o.oper = 7 then m.b else ms.foldl (fun v (x : AtomMember) => o.apply v x.b 0) m.b

/-- The value that a request stores. -/
def AtomOp.result (o : AtomOp) (old : Nat) : Nat :=
  match o.members with
  | [] => old
  | m :: _ => o.apply old o.combined m.b2

/-- The members' old values rebuilt from the request's, and written. -/
def AtomOp.returns (o : AtomOp) (s : State) (old : Nat) : State :=
  (o.members.foldl (fun (acc : State × Nat) (m : AtomMember) =>
    let s := match m.dst with
      | some d => writeRegs acc.1 m.thread d (if o.bytes = 8 then 2 else 1) acc.2
      | none => acc.1
    (s, o.apply acc.2 m.b m.b2)) (s, old)).1

/-- Whether an older compare-and-swap of the same core to the same location waits: each instruction sends its members' in order. -/
def olderCas (s : State) (id : Nat) (o : AtomOp) : Bool :=
  o.oper = 7 && !o.fadd && s.ops.any fun e => e.1 < id && match e.2 with
    | .atom x => x.core = o.core && x.target = o.target && x.oper = 7 && !x.fadd
    | _ => false

/-- The request is over: the members' counters fall, and an acquire takes effect. -/
def atomDone (s : State) (id : Nat) (o : AtomOp) : State :=
  let s := lowerCtrs (s.endOp id) (o.members.map fun (m : AtomMember) => ⟨m.thread, o.ctr⟩)
  let ks := (o.members.map fun (m : AtomMember) => m.thread).eraseDups
  let s := ks.foldl (fun s k => readFences s k o.core) s
  if o.acq then ks.foldl (fun s k => acquireFor s k o.core o.scope) s else s

/-- ATOMIC_PERFORM: a request is performed at the home slice or the scratchpad; one to a peer page returns what the peer holds, a
free value here. [DEDUCED: log entry 49; DESIGN CHOICE: log entry 50] -/
def execAtomicPerform (op : Nat) (s : State) : Host.Outcome State Fault Refusal :=
  match tget op s.ops with
  | some (.atom o) =>
    let n := o.bytes
    if (o.members.any fun m => olderOwn s op m.thread o.target n) || seenPending s op o.core 2 o.target n || olderCas s op o
        || writeWaits s o.target n || banksHeld s o.target n then .next s
    else
      match targetPoison s o.core false o.target n with
      | some g => .next (o.members.foldl (fun s (m : AtomMember) => consumeAt s m.thread o.word o.va o.target.pa g) (atomDone s op o))
      | none =>
        match o.target with
        | .hbm pa =>
          let old := leValue ((addrs pa n).map (homeByte s))
          let s := storeHome (noteActivations s o.target n) pa (leBytes n (o.result old))
          let s := countAtomic (dropL1Sector s o.core pa) pa (dieOfCore o.core)
          .next (atomDone (o.returns s old) op o)
        | .peer _ _ =>
          let (x, s) := s.draw
          .next (atomDone (o.returns s (low (8 * n) x.toNat)) op o)
        | tgt =>
          let old := leValue ((addrs tgt.pa n).map (memRead s.mem))
          let s := writeNow s ((addrs tgt.pa n).zip (leBytes n (o.result old)))
          .next (atomDone (o.returns s old) op o)
  | _ => .next s

/-- The die that a region migrates to: it received at least 1,024 atomics, more than half of them from a die not its home.
[DEDUCED: log entry 56] -/
def migrationOf (s : State) (region : Nat) : Option Nat :=
  let mine := s.atomCounts.filter fun e => e.1.1 = region
  let total : Nat := mine.foldl (fun (n : Nat) e => n + e.2) 0
  if total < 1024 then none
  else (mine.find? fun e => total < 2 * e.2 && e.1.2 ≠ homeDie s (region * 65536)).map fun e => e.1.2

/-- ATOMIC_INTERVAL_END: 65,536 clk have passed: regions migrate and the counts start again (HOME_MIGRATION changes no value).
[DEDUCED: log entry 14; DEDUCED: log entry 56] -/
def execAtomicIntervalEnd (s : State) : Host.Outcome State Fault Refusal :=
  if s.clk < s.glob.atomics then .next s
  else
    let regions := (s.atomCounts.map fun e => e.1.1).eraseDups
    let homes := regions.foldl (fun h r => match migrationOf s r with
      | some d => tset r d h
      | none => h) s.homes
    .next { s with
      homes := homes
      atomCounts := []
      glob := { s.glob with atomics := s.clk / 65536 * 65536 + 65536 } }

/-! ## Tiles (R99 to R101, R194, R195) -/

/-- Whether a tile is older than another. -/
def TileOp.older (a b : TileOp) : Bool := a.age.1 < b.age.1 || (a.age.1 = b.age.1 && a.age.2 < b.age.2)

/-- What a tile waits for before it takes its first lock: the thread's own older accesses to its bytes, and the tiles of earlier
members of its instruction that share a line with it (R92, R195). [DEDUCED: log entry 48] -/
def tileStarts (s : State) (id : Nat) (o : TileOp) : Bool :=
  !(o.rows.any fun r => r.any fun p => seenPending s id o.core 2 p.1 p.2 || if o.storing then olderOwn s id o.c.thread p.1 p.2
      else s.ops.any fun e => e.1 < id && e.2.writesBytes o.c.thread p.1 p.2 && match e.2 with
        | .store x => !x.held
        | _ => true)
    && !(s.ops.any fun e => e.1 < id && match e.2 with
      | .tile x => o.storing && x.storing && x.age = o.age && x.core = o.core && (x.lines.any o.lines.contains
          || x.rows.flatten.any fun p => o.rows.flatten.any fun q => overlaps p.1 p.2 q.1 q.2)
      | _ => false)

/-- Tiles that hold an entry at a home slice. -/
def slicePeers (s : State) (slice : Nat) : List (Nat × TileOp) :=
  s.ops.filterMap fun e => match e.2 with
    | .tile o => if o.entries.contains slice then some (e.1, o) else none
    | _ => none

/-- A free entry at a slice, or that of the youngest younger tile still taking locks, which restarts; none where the tile waits
(TILE_RESTART, R100). [DESIGN CHOICE: log entry 46] -/
def takeEntry (s : State) (o : TileOp) (slice : Nat) : Option State :=
  let peers := slicePeers s slice
  if peers.length < 32 then some s
  else
    let young := peers.filter fun e => e.2.phase = .locking && o.older e.2
    (young.foldl (fun (best : Option (Nat × TileOp)) e => match best with
      | none => some e
      | some b => if b.2.older e.2 then some e else best) none).map fun v =>
        s.onOp v.1 fun _ => .tile { v.2 with entries := [], locked := [] }

/-- Whether another tile holds a line in a way that keeps a tile from locking it. -/
def lineClash (s : State) (id : Nat) (o : TileOp) (line : Nat) : Bool :=
  s.ops.any fun e => e.1 ≠ id && match e.2 with
    | .tile x => x.locked.contains line && (x.storing || o.storing)
    | _ => false

/-- TILE_LOCK_ACQUIRE: the tile takes the lock of its next line, with an entry at the line's home slice; with its last line it goes on to
its data. -/
def execTileLockAcquire (op : Nat) (s : State) : Host.Outcome State Fault Refusal :=
  match tget op s.ops with
  | some (.tile o) =>
    if o.phase ≠ .locking || (o.locked.isEmpty && !tileStarts s op o) then .next s
    else
      match o.lines[o.locked.length]? with
      | none => .next (s.onOp op fun _ => .tile { o with phase := .data })
      | some line =>
        let slice := homeSlice s line
        let entered := if o.entries.contains slice then some (s, o)
          else (takeEntry s o slice).map fun s => (s, { o with entries := slice :: o.entries })
        match entered with
        | none => .next s
        | some (s, o) =>
          let o := if lineClash s op o line then o else { o with locked := o.locked ++ [line] }
          let o := if o.locked.length = o.lines.length then { o with phase := .data } else o
          .next (s.onOp op fun _ => .tile o)
  | _ => .next s

/-- The bytes of a tile that an LDT reads: its team's held bytes, else HBM at the homes, or the scratchpad. -/
def tileBytes (s : State) (o : TileOp) : List Byte :=
  readPieces (fun a => (heldByte s o.team a).getD (homeByte s a)) s o.rows.flatten

/-- Bytes placed at the pieces of a range in order. -/
def placePieces : List (Target × Nat) → List Byte → List (Target × List Byte)
  | [], _ => []
  | (t, n) :: ps, bs => (t, bs.take n) :: placePieces ps (bs.drop n)

/-- One piece of a row that an STT writes, at its virtual address, with the writer entries of its lines (R106, R195). -/
def storePiece (o : TileOp) (s : State) (p : Nat × Target × List Byte) : State :=
  let bytes := (addrs p.2.1.pa p.2.2.length).zip p.2.2
  match p.2.1, replayOf s o.team with
  | .hbm _, some (n, x) => replayWrite s n x p.1 bytes
  | .hbm pa, none =>
    let lineVa (l : List (Nat × Byte)) : Nat := low 64 (p.1 + (((l.head?).map (·.1)).getD pa - pa))
    if holdsStores s o.team then
      (byLine bytes).foldl (fun s l =>
        beginStore s ⟨[⟨o.c.thread, 7⟩], o.core, o.ctx, o.team, lineVa l, .hbm (((l.head?).map (·.1)).getD pa), l, none, false, none, [lineVa l]⟩) s
    else
      let s := storeHome (dropL1Bytes s [o.core] bytes) pa p.2.2
      (byLine bytes).foldl (fun s l => noteWrite s o.team (((l.head?).map (·.1)).getD pa) (lineVa l)) s
  | _, _ => writeNow s bytes

/-- Bytes placed at the rows of a tile in order, with their virtual addresses. -/
def placeRows (vas : List Nat) (rows : List (List (Target × Nat))) (bs : List Byte) : List (Nat × Target × List Byte) :=
  let ps := (vas.zip rows).flatMap fun r => placedVas r.1 r.2
  (ps.map (·.1)).zip (placePieces (ps.map (·.2)) bs)

/-- An STT's tile is written, rows in ascending order so that a higher row wins; the sectors that it writes whole are poisoned no more
(R195, R315). [DEDUCED: log entry 54] -/
def commitTile (s : State) (o : TileOp) : State :=
  let ps := placeRows o.vas o.rows o.data
  let s := ps.foldl (storePiece o) s
  if s.poison.isEmpty || holdsStores s o.team || (replayOf s o.team).isSome then s
  else clearPoison s (ps.foldl (fun bs p => ((addrs p.2.1.pa p.2.2.length).zip p.2.2).foldl (fun bs b => tset b.1 b.2 bs) bs) [])

/-- The packed block that an LDT writes; full-empty bits stay (R195). -/
def fillBlock (s : State) (o : TileOp) (bs : List Byte) : State :=
  (placePieces o.block bs).foldl (fun s p => writeNow s ((addrs p.1.pa p.2.length).zip p.2)) s

/-- TILE_COMMIT: every byte is performed, the entries and locks drop, and the counter falls; an acquire follows the tile's read. -/
def execTileCommit (op : Nat) (s : State) : Host.Outcome State Fault Refusal :=
  match tget op s.ops with
  | some (.tile o) =>
    if o.phase ≠ .data || (o.lines.isEmpty && !tileStarts s op o) then .next s
    else if o.rows.any fun r => r.any fun p => banksHeld s p.1 p.2 then .next s
    else if o.storing then
      if !holdsStores s o.team && o.rows.any fun r => r.any fun p => blocksWait s (blockSectors s p.1 p.2) then .next s
      else .next (lowerCtr (commitTile (s.endOp op) o) o.c)
    else
      match piecesPoison s ((o.vas.zip o.rows).flatMap fun r => placedVas r.1 r.2) with
      | some (va, pa, g) => .next (consumeAt (lowerCtr (s.endOp op) o.c) o.c.thread o.word va pa g)
      | none =>
        let s := o.rows.flatten.foldl (fun s p => noteActivations s p.1 p.2) (fillBlock (s.endOp op) o (tileBytes s o))
        let s := lowerCtr (dropL1Bytes s [o.core] (o.rows.flatten.flatMap fun p => if p.1.isHbm then (addrs p.1.pa p.2).map (·, 0) else [])) o.c
        let s := readFences s o.c.thread o.core
        .next (if o.ord then acquireFor s o.c.thread o.core o.scope else s)
  | _ => .next s

/-! ## DISC, fences, RINV (R87, R94, R203, R216) -/

/-- The bytes that a store has brought into a die's L2, at the home slice or in a guest copy, are dropped of a sector (R79, R87).
[DEDUCED: log entry 53] -/
def StoreOp.withoutSector (sector : Nat) (o : StoreOp) : StoreOp :=
  if o.target.isHbm && o.die.isSome then
    { o with bytes := o.bytes.filter fun b => b.1 / 64 ≠ sector / 64 } else o

/-- One sector of a DISC treated at its home: its dirty data is dropped there and in guest copies, unless a tile fetch unit has pinned
its line. [DEDUCED: log entry 53] -/
def discSector (s : State) (o : DiscOp) (sector : Nat) : State :=
  if linePinned s (sector / 256) then s
  else
    let s := { s with
      l2 := s.l2.filter fun e => e.1 / 64 ≠ sector / 64
      presence := tdel (sector / 256) s.presence
      ops := s.ops.map fun e => match e.2 with
        | .store o => (e.1, .store (o.withoutSector sector))
        | _ => e }
    noteDisc (dropL1Sector s o.core sector) o.team sector

/-- DISC_SECTOR_TREAT: the next sector of a DISC; with the last one the counter falls. [DEDUCED: log entry 53] -/
def execDiscSectorTreat (op : Nat) (s : State) : Host.Outcome State Fault Refusal :=
  match tget op s.ops with
  | some (.disc o) =>
    match o.sectors with
    | [] => .next (lowerCtr (s.endOp op) o.c)
    | x :: rest =>
      if olderOwn s op o.c.thread (.hbm x) 64 || lineHeld s (.hbm x) 64 then .next s
      else
        let s := discSector s o x
        if rest.isEmpty then .next (lowerCtr (s.endOp op) o.c)
        else .next (s.onOp op fun _ => .disc { o with sectors := rest })
  | _ => .next s

/-- FENCE_SATISFIED: every predecessor is ordered: held words may issue; at .cp or wider with TR in SUCC the core's L1 is
invalidated (R80, R203). -/
def execFenceSatisfied (op : Nat) (s : State) : Host.Outcome State Fault Refusal :=
  match tget op s.ops with
  | some (.fence o) =>
    if !fenceDone s o then .next s
    else
      let core := ((tget o.thread s.threads).map (coreOf s)).getD 0
      let s := s.endOp op
      .next (if bit o.succ 0 then acquireAt s core o.scope else s)
  | _ => .next s

/-- The cores open to a context: those of its dies. [DEDUCED: log entry 55] -/
def coresOpen (s : State) (ctx : Nat) : List Nat :=
  let dies := ((tget ctx s.contexts).map (·.desc.dies)).getD 0
  (List.range (4 * coresPerDie)).filter fun c => bit dies (dieOfCore c)

/-- RINV_PURGE_DONE: every core open to the context has purged, and the barrier object is incremented at .dev.
[DEDUCED: log entry 55] -/
def execRinvPurgeDone (op : Nat) (s : State) : Host.Outcome State Fault Refusal :=
  match tget op s.ops with
  | some (.rinv o) =>
    match o.obj with
    | .hbm pa =>
      if writeWaits s o.obj 8 || banksHeld s o.obj 8 then .next s
      else
        let cores := coresOpen s o.ctx
        let s := noteActivations { s.endOp op with l1 := s.l1.filter fun e => !cores.contains (e.1 / 2 ^ 56) } o.obj 8
        match poisonedAt s pa 8 with
        | some g => .next (consumeAt s o.c.thread o.word o.objVa pa g)
        | none =>
          let v := leValue ((addrs pa 8).map (homeByte s))
          .next (countAtomic (storeHome s pa (leBytes 8 (low 64 (v + 1)))) pa (dieOfCore o.core))
    | _ => .next (s.endOp op)
  | _ => .next s

end Sys2Proof.Machine
end

