-- ==== Sys2Proof/Machine/Dispatch.lean ====
section
/-! DEFINITION. The dispatch: one arm per constructor of `Instr`, each a direct call of that instruction's meaning. -/

namespace Sys2Proof.Machine

/-- What an instruction or event of the opcode table does to the package. -/
def exec (i : Instr) (s : State) : Host.Outcome State Fault Refusal :=
  match i with
  | .nop w => Sys2Proof.Machine.execNop w s
  | .mov w => Sys2Proof.Machine.execMov w s
  | .sel w => Sys2Proof.Machine.execSel w s
  | .iadd w => Sys2Proof.Machine.execIadd w s
  | .isub w => Sys2Proof.Machine.execIsub w s
  | .imul w => Sys2Proof.Machine.execImul w s
  | .imulhi w => Sys2Proof.Machine.execImulhi w s
  | .imad w => Sys2Proof.Machine.execImad w s
  | .imin w => Sys2Proof.Machine.execImin w s
  | .imax w => Sys2Proof.Machine.execImax w s
  | .iabs w => Sys2Proof.Machine.execIabs w s
  | .ineg w => Sys2Proof.Machine.execIneg w s
  | .lea w => Sys2Proof.Machine.execLea w s
  | .popc w => Sys2Proof.Machine.execPopc w s
  | .clz w => Sys2Proof.Machine.execClz w s
  | .brev w => Sys2Proof.Machine.execBrev w s
  | .and w => Sys2Proof.Machine.execAnd w s
  | .or w => Sys2Proof.Machine.execOr w s
  | .xor w => Sys2Proof.Machine.execXor w s
  | .not w => Sys2Proof.Machine.execNot w s
  | .andn w => Sys2Proof.Machine.execAndn w s
  | .shl w => Sys2Proof.Machine.execShl w s
  | .shr w => Sys2Proof.Machine.execShr w s
  | .rotl w => Sys2Proof.Machine.execRotl w s
  | .fadd w => Sys2Proof.Machine.execFadd w s
  | .fsub w => Sys2Proof.Machine.execFsub w s
  | .fmul w => Sys2Proof.Machine.execFmul w s
  | .ffma w => Sys2Proof.Machine.execFfma w s
  | .fmin w => Sys2Proof.Machine.execFmin w s
  | .fmax w => Sys2Proof.Machine.execFmax w s
  | .fminn w => Sys2Proof.Machine.execFminn w s
  | .fmaxn w => Sys2Proof.Machine.execFmaxn w s
  | .fabs w => Sys2Proof.Machine.execFabs w s
  | .fneg w => Sys2Proof.Machine.execFneg w s
  | .fcsgn w => Sys2Proof.Machine.execFcsgn w s
  | .cvt w => Sys2Proof.Machine.execCvt w s
  | .pack w => Sys2Proof.Machine.execPack w s
  | .unpack w => Sys2Proof.Machine.execUnpack w s
  | .icmp w => Sys2Proof.Machine.execIcmp w s
  | .fcmp w => Sys2Proof.Machine.execFcmp w s
  | .fclass w => Sys2Proof.Machine.execFclass w s
  | .plop w => Sys2Proof.Machine.execPlop w s
  | .pget w => Sys2Proof.Machine.execPget w s
  | .pset w => Sys2Proof.Machine.execPset w s
  | .iaddImm imod w => Sys2Proof.Machine.execIaddImm imod w s
  | .imulImm imod w => Sys2Proof.Machine.execImulImm imod w s
  | .andImm w => Sys2Proof.Machine.execAndImm w s
  | .orImm w => Sys2Proof.Machine.execOrImm w s
  | .xorImm w => Sys2Proof.Machine.execXorImm w s
  | .andnImm w => Sys2Proof.Machine.execAndnImm w s
  | .movImm imod w => Sys2Proof.Machine.execMovImm imod w s
  | .faddImm imod w => Sys2Proof.Machine.execFaddImm imod w s
  | .fmulImm imod w => Sys2Proof.Machine.execFmulImm imod w s
  | .shlImm w => Sys2Proof.Machine.execShlImm w s
  | .shrN32Imm w => Sys2Proof.Machine.execShrN32Imm w s
  | .shrS32Imm w => Sys2Proof.Machine.execShrS32Imm w s
  | .rotlImm w => Sys2Proof.Machine.execRotlImm w s
  | .pairedWord w => Sys2Proof.Machine.execPairedWord w s
  | .exp2 w => Sys2Proof.Machine.execExp2 w s
  | .log2 w => Sys2Proof.Machine.execLog2 w s
  | .rcp w => Sys2Proof.Machine.execRcp w s
  | .rsq w => Sys2Proof.Machine.execRsq w s
  | .sin w => Sys2Proof.Machine.execSin w s
  | .cos w => Sys2Proof.Machine.execCos w s
  | .xshfl w => Sys2Proof.Machine.execXshfl w s
  | .xbcast w => Sys2Proof.Machine.execXbcast w s
  | .xvote w => Sys2Proof.Machine.execXvote w s
  | .xballot w => Sys2Proof.Machine.execXballot w s
  | .xscan w => Sys2Proof.Machine.execXscan w s
  | .xred w => Sys2Proof.Machine.execXred w s
  | .bra imod w => Sys2Proof.Machine.execBra imod w s
  | .call imod w => Sys2Proof.Machine.execCall imod w s
  | .brx w => Sys2Proof.Machine.execBrx w s
  | .ret w => Sys2Proof.Machine.execRet w s
  | .exit w => Sys2Proof.Machine.execExit w s
  | .spawn w => Sys2Proof.Machine.execSpawn w s
  | .yield w => Sys2Proof.Machine.execYield w s
  | .barArrive w => Sys2Proof.Machine.execBarArrive w s
  | .barArriveb w => Sys2Proof.Machine.execBarArriveb w s
  | .barWait w => Sys2Proof.Machine.execBarWait w s
  | .claim w => Sys2Proof.Machine.execClaim w s
  | .release w => Sys2Proof.Machine.execRelease w s
  | .ldCa w => Sys2Proof.Machine.execLdCa w s
  | .ldCg w => Sys2Proof.Machine.execLdCg w s
  | .ldLu w => Sys2Proof.Machine.execLdLu w s
  | .ldCaAcq w => Sys2Proof.Machine.execLdCaAcq w s
  | .ldCgAcq w => Sys2Proof.Machine.execLdCgAcq w s
  | .st w => Sys2Proof.Machine.execSt w s
  | .stRel w => Sys2Proof.Machine.execStRel w s
  | .ldt w => Sys2Proof.Machine.execLdt w s
  | .stt w => Sys2Proof.Machine.execStt w s
  | .ldfe w => Sys2Proof.Machine.execLdfe w s
  | .stfe w => Sys2Proof.Machine.execStfe w s
  | .disc w => Sys2Proof.Machine.execDisc w s
  | .pref w => Sys2Proof.Machine.execPref w s
  | .atom w => Sys2Proof.Machine.execAtom w s
  | .atomFadd w => Sys2Proof.Machine.execAtomFadd w s
  | .ctb w => Sys2Proof.Machine.execCtb w s
  | .ctbseal w => Sys2Proof.Machine.execCtbseal w s
  | .fence w => Sys2Proof.Machine.execFence w s
  | .wait w => Sys2Proof.Machine.execWait w s
  | .trap w => Sys2Proof.Machine.execTrap w s
  | .sysret w => Sys2Proof.Machine.execSysret w s
  | .srd w => Sys2Proof.Machine.execSrd w s
  | .swr w => Sys2Proof.Machine.execSwr w s
  | .rinv w => Sys2Proof.Machine.execRinv w s
  | .mmul w => Sys2Proof.Machine.execMmul w s
  | .mmerge w => Sys2Proof.Machine.execMmerge w s
  | .mdrain w => Sys2Proof.Machine.execMdrain w s
  | .mcfg w => Sys2Proof.Machine.execMcfg w s
  | .cpy w => Sys2Proof.Machine.execCpy w s
  | .cpyt w => Sys2Proof.Machine.execCpyt w s
  | .fsend w => Sys2Proof.Machine.execFsend w s
  | .fmcast w => Sys2Proof.Machine.execFmcast w s
  | .fred w => Sys2Proof.Machine.execFred w s
  | .fsparse w => Sys2Proof.Machine.execFsparse w s
  | .rgres w => Sys2Proof.Machine.execRgres w s
  | .rgpub w => Sys2Proof.Machine.execRgpub w s
  | .rgtake w => Sys2Proof.Machine.execRgtake w s
  | .rgdone w => Sys2Proof.Machine.execRgdone w s
  | .nrec w => Sys2Proof.Machine.execNrec w s
  | .bwpush w => Sys2Proof.Machine.execBwpush w s
  | .wver w => Sys2Proof.Machine.execWver w s
  | .mbsend w => Sys2Proof.Machine.execMbsend w s
  | .mbrecv w => Sys2Proof.Machine.execMbrecv w s
  | .pickIssueSet core bay port => Sys2Proof.Machine.execPickIssueSet core bay port s
  | .fixedLatencyWriteback id => Sys2Proof.Machine.execFixedLatencyWriteback id s
  | .deferredTrapTake thread => Sys2Proof.Machine.execDeferredTrapTake thread s
  | .cageEnter entrant => Sys2Proof.Machine.execCageEnter entrant s
  | .cageTimerExpire core cage => Sys2Proof.Machine.execCageTimerExpire core cage s
  | .groupLaunch core cage => Sys2Proof.Machine.execGroupLaunch core cage s
  | .queueDoorbell ctx tail => Sys2Proof.Machine.execQueueDoorbell ctx tail s
  | .launchAdmit ctx => Sys2Proof.Machine.execLaunchAdmit ctx s
  | .clusterPlace => Sys2Proof.Machine.execClusterPlace s
  | .gridComplete launch => Sys2Proof.Machine.execGridComplete launch s
  | .contextOpen ctx cdesc => Sys2Proof.Machine.execContextOpen ctx cdesc s
  | .contextClose ctx => Sys2Proof.Machine.execContextClose ctx s
  | .claimGrant core bay => Sys2Proof.Machine.execClaimGrant core bay s
  | .claimDeadlockTrap core bay => Sys2Proof.Machine.execClaimDeadlockTrap core bay s
  | .trapRecordWrite thread => Sys2Proof.Machine.execTrapRecordWrite thread s
  | .coalescerRequestSend op req => Sys2Proof.Machine.execCoalescerRequestSend op req s
  | .sectorFill op req => Sys2Proof.Machine.execSectorFill op req s
  | .loadDataReturn op member => Sys2Proof.Machine.execLoadDataReturn op member s
  | .storePerform op => Sys2Proof.Machine.execStorePerform op s
  | .atomicPerform op => Sys2Proof.Machine.execAtomicPerform op s
  | .atomicIntervalEnd => Sys2Proof.Machine.execAtomicIntervalEnd s
  | .tileLockAcquire op => Sys2Proof.Machine.execTileLockAcquire op s
  | .tileCommit op => Sys2Proof.Machine.execTileCommit op s
  | .discSectorTreat op => Sys2Proof.Machine.execDiscSectorTreat op s
  | .prefetchFill op => Sys2Proof.Machine.execPrefetchFill op s
  | .ctbTestReturn op => Sys2Proof.Machine.execCtbTestReturn op s
  | .fenceSatisfied op => Sys2Proof.Machine.execFenceSatisfied op s
  | .scaleStorePerform op => Sys2Proof.Machine.execScaleStorePerform op s
  | .windowEnable die w => Sys2Proof.Machine.execWindowEnable die w s
  | .windowDisable die w => Sys2Proof.Machine.execWindowDisable die w s
  | .windowPurgeDone die w => Sys2Proof.Machine.execWindowPurgeDone die w s
  | .translationWalk die ctx va => Sys2Proof.Machine.execTranslationWalk die ctx va s
  | .walkerInvalidate die value => Sys2Proof.Machine.execWalkerInvalidate die value s
  | .walkerInvalidateDone die => Sys2Proof.Machine.execWalkerInvalidateDone die s
  | .rinvPurgeDone op => Sys2Proof.Machine.execRinvPurgeDone op s
  | .matrixPassEnd quad entry => Sys2Proof.Machine.execMatrixPassEnd quad entry s
  | .matrixCommandRetire quad entry => Sys2Proof.Machine.execMatrixCommandRetire quad entry s
  | .copyRetire op => Sys2Proof.Machine.execCopyRetire op s
  | .pairingArrival arrival => Sys2Proof.Machine.execPairingArrival arrival s
  | .spillSlotWrite spill => Sys2Proof.Machine.execSpillSlotWrite spill s
  | .coreHoldExpire entry => Sys2Proof.Machine.execCoreHoldExpire entry s
  | .portHoldExpire entry => Sys2Proof.Machine.execPortHoldExpire entry s
  | .handleDeadlineExpire ctx h => Sys2Proof.Machine.execHandleDeadlineExpire ctx h s
  | .linkFlitReceive link flit => Sys2Proof.Machine.execLinkFlitReceive link flit s
  | .linkFailure link => Sys2Proof.Machine.execLinkFailure link s
  | .switchRoute packet => Sys2Proof.Machine.execSwitchRoute packet s
  | .destinationDeliver packet => Sys2Proof.Machine.execDestinationDeliver packet s
  | .fabricAckReceive cmd last => Sys2Proof.Machine.execFabricAckReceive cmd last s
  | .channelDeadlineExpire ctx ch => Sys2Proof.Machine.execChannelDeadlineExpire ctx ch s
  | .stepNoticeReceive ctx ch step => Sys2Proof.Machine.execStepNoticeReceive ctx ch step s
  | .foremanEvaluate => Sys2Proof.Machine.execForemanEvaluate s
  | .foremanPublish ctx => Sys2Proof.Machine.execForemanPublish ctx s
  | .winzeDrainStart ctx => Sys2Proof.Machine.execWinzeDrainStart ctx s
  | .winzeBatchComplete ctx => Sys2Proof.Machine.execWinzeBatchComplete ctx s
  | .mailboxBind mailbox value => Sys2Proof.Machine.execMailboxBind mailbox value s
  | .mailboxUnbind mailbox value => Sys2Proof.Machine.execMailboxUnbind mailbox value s
  | .mailboxStart mailbox => Sys2Proof.Machine.execMailboxStart mailbox s
  | .mailboxKill mailbox => Sys2Proof.Machine.execMailboxKill mailbox s
  | .episodeHartAssign die => Sys2Proof.Machine.execEpisodeHartAssign die s
  | .actionAppend mailbox => Sys2Proof.Machine.execActionAppend mailbox s
  | .observationTake mailbox => Sys2Proof.Machine.execObservationTake mailbox s
  | .atake die hart value => Sys2Proof.Machine.execAtake die hart value s
  | .actionHold die hart => Sys2Proof.Machine.execActionHold die hart s
  | .opostStep die hart value => Sys2Proof.Machine.execOpostStep die hart value s
  | .opostEnd die hart value => Sys2Proof.Machine.execOpostEnd die hart value s
  | .opostTerminal die hart value => Sys2Proof.Machine.execOpostTerminal die hart value s
  | .curfewExpire die hart => Sys2Proof.Machine.execCurfewExpire die hart s
  | .hartException die hart => Sys2Proof.Machine.execHartException die hart s
  | .episodeEndComplete mailbox => Sys2Proof.Machine.execEpisodeEndComplete mailbox s
  | .preemptRequest cores prio source => Sys2Proof.Machine.execPreemptRequest cores prio source s
  | .teamSaved team => Sys2Proof.Machine.execTeamSaved team s
  | .clusterResume launch => Sys2Proof.Machine.execClusterResume launch s
  | .residualPeriod => Sys2Proof.Machine.execResidualPeriod s
  | .residualWindowEnd => Sys2Proof.Machine.execResidualWindowEnd s
  | .inversionTimeout launch => Sys2Proof.Machine.execInversionTimeout launch s
  | .quadRetire die quad => Sys2Proof.Machine.execQuadRetire die quad s
  | .intervalBoundaryComplete team => Sys2Proof.Machine.execIntervalBoundaryComplete team s
  | .patrolScrub sector finding => Sys2Proof.Machine.execPatrolScrub sector finding s
  | .masterFreeze kind identity code => Sys2Proof.Machine.execMasterFreeze kind identity code s
  | .assayerSample launch team => Sys2Proof.Machine.execAssayerSample launch team s
  | .assayerReplayEnd sample => Sys2Proof.Machine.execAssayerReplayEnd sample s
  | .rowActivationAlert die ctrl bank row => Sys2Proof.Machine.execRowActivationAlert die ctrl bank row s
  | .bankHoldEnd die ctrl bank => Sys2Proof.Machine.execBankHoldEnd die ctrl bank s
  | .alertsRead die => Sys2Proof.Machine.execAlertsRead die s
  | .asampRead => Sys2Proof.Machine.execAsampRead s
  | .adropRead => Sys2Proof.Machine.execAdropRead s
  | .aunverRead => Sys2Proof.Machine.execAunverRead s
  | .powerLimitThrottle average => Sys2Proof.Machine.execPowerLimitThrottle average s
  | .powerOnReset => Sys2Proof.Machine.execPowerOnReset s
  | .pcieFundamentalReset => Sys2Proof.Machine.execPcieFundamentalReset s
  | .coldStart => Sys2Proof.Machine.execColdStart s
  | .warmStart => Sys2Proof.Machine.execWarmStart s
  | .startStepEnd ok => Sys2Proof.Machine.execStartStepEnd ok s
  | .getVersion request => Sys2Proof.Machine.execGetVersion request s
  | .getCapabilities request => Sys2Proof.Machine.execGetCapabilities request s
  | .negotiateAlgorithms request => Sys2Proof.Machine.execNegotiateAlgorithms request s
  | .getDigests request => Sys2Proof.Machine.execGetDigests request s
  | .getCertificate request => Sys2Proof.Machine.execGetCertificate request s
  | .challenge request => Sys2Proof.Machine.execChallenge request s
  | .getMeasurements request => Sys2Proof.Machine.execGetMeasurements request s
  | .hostWindowAccess access => Sys2Proof.Machine.execHostWindowAccess access s
  | .registerWrite offset value => Sys2Proof.Machine.execRegisterWrite offset value s
  | .engineWrite op => Sys2Proof.Machine.execEngineWrite op s
  | .sealMarkingDone op => Sys2Proof.Machine.execSealMarkingDone op s
  | .driftLinkRetire port => Sys2Proof.Machine.execDriftLinkRetire port s
  | .masterReset kind identity => Sys2Proof.Machine.execMasterReset kind identity s

end Sys2Proof.Machine
end

