-- ==== Sys2Proof/Machine/Step.lean ====
section
/-! DEFINITION. One step of the package: one move, and what it is followed by. -/

namespace Sys2Proof.Machine

/-- A next state settled; a stop stands. -/
def settled : Host.Outcome State Fault Refusal → Host.Outcome State Fault Refusal
  | .next s => .next (settleAll s)
  | .fault r => .fault r
  | .refused r => .refused r

/-- One move: a port's word, a row of the opcode table that is an event, or a move that has no row. -/
def step (s : State) : Host.Outcome State Fault Refusal :=
  match nextTurn { s with issuing := none } with
  | (.port core bay p, s) =>
    match prepareWord s core bay p with
    | .done s => .next (settleAll s)
    | .word i s => settled (exec i s)
  | (.event i, s) => settled (exec i s)
  | (t, s) => .next (settleAll (freeMove s t))

/-- The state with an instruction as its next move: the clause whose header is in bits 63 to 0 of the number and whose word is in
bits 127 to 64. [DESIGN CHOICE: log entry 15] -/
def State.withFetchWord (s : State) (_nbits w : Nat) : State := placeClause s (w % 2 ^ 64) (w / 2 ^ 64 % 2 ^ 64)

end Sys2Proof.Machine
end

