-- ==== Sys2Proof/Safety.lean ====
section
/-! DEFINITION. The terms that claims use: when a word issues with its effect, what it leaves alone, and the invariants of the
package. -/

namespace Sys2Proof.Machine

/-! ## A word that issues with its effect (R60, R143) -/

/-- A word issues in a state, with its effect: a port's issue set stands at it, it passes the checks of R143, nothing holds it,
and its threads replay no sample of the Assayer. `lat` is its fixed latency and `ctr` the counter it names, 7 for none. -/
structure Issues (s : State) (u : Issuing) (i : Instr) (lat ctr : Nat) : Prop where
  word : s.issuing = some u
  legal : i.staticCause = none
  free : commonHold s u i lat ctr = false
  clear : ∀ k ∈ u.members, memberClear (beginWord s u i) i k = true
  plain : s.samples = []

/-- The members of the issue set for which the word takes effect, where its predicate is true (R130). -/
def actives (s : State) (u : Issuing) (i : Instr) : List Nat := activeMembers (beginWord s u i) u i

/-- A word issues with its effect for one thread, `t` as the word finds it. -/
structure IssuesFor (s : State) (u : Issuing) (i : Instr) (lat ctr k : Nat) (t : Thread) : Prop where
  issues : Issues s u i lat ctr
  only : actives s u i = [k]
  thread : tget k (beginWord s u i).threads = some t

/-! ## What a word leaves alone -/

/-- A state without its threads, ports, launches and the word that issues: what every word changes as it issues. -/
def rest (s : State) : State := { s with threads := [], ports := [], launches := [], issuing := none }

/-- And without the operations in progress and the next key, which a word that begins one changes. -/
def restOps (s : State) : State := { rest s with ops := [], nextKey := 0 }

/-- And without the results that wait for their clk. -/
def restFixed (s : State) : State := { rest s with fixed := [], nextKey := 0 }

/-- The part of a thread that a program can read: registers, predicates, counters, and what the special registers tell. -/
structure Visible where
  regs : List (Nat × Word32)
  preds : BitVec 8
  ctrs : List (Nat × Nat)
  draw : Nat
  spawns : Nat
  versions : List VersionSel
  srVersion : Nat
  tid : Nat
  member : Nat
  srGroup : Nat
  sys : Bool
  team : Nat
  launch : Nat
  ctx : Nat
  group : Option Nat
  deriving DecidableEq, Repr

/-- What a program can read of a thread. -/
def Thread.visible (t : Thread) : Visible :=
  ⟨t.regs, t.preds, t.ctrs, t.draw, t.spawns, t.versions, t.srVersion, t.tid, t.member, t.srGroup, t.sys, t.team, t.launch,
    t.ctx, t.group⟩

/-- What a program can read of a thread of the package. -/
def seen (s : State) (k : Nat) : Option Visible := (tget k s.threads).map Thread.visible

/-- Every byte reads as before: at its home, past L1 from every core, and as a load reads it. -/
def SameBytes (s t : State) : Prop :=
  (∀ a, memRead t.mem a = memRead s.mem a) ∧ (∀ a, homeByte t a = homeByte s a)
    ∧ (∀ core a, coreByte t core a = coreByte s core a)
    ∧ ∀ core team viaL1 a, loadByte t core team viaL1 a = loadByte s core team viaL1 a

/-- The registers of every thread and group are unchanged, with their predicates, counters and special registers. -/
def SameRegs (s t : State) : Prop := (∀ k, seen t k = seen s k) ∧ t.groups = s.groups

/-- What a word that acts on registers alone leaves as it was, beside the registers it writes: memory, full-empty bits, groups,
barriers and teams, operations in progress, contexts, the engines' commands and the fabric. -/
def SameRest (s t : State) : Prop :=
  SameBytes s t ∧ t.full = s.full ∧ t.groups = s.groups ∧ t.teams = s.teams ∧ t.ops = s.ops ∧ t.contexts = s.contexts
    ∧ t.matrix = s.matrix ∧ t.handles = s.handles ∧ t.packets = s.packets ∧ t.mailboxes = s.mailboxes ∧ t.glob = s.glob

/-- A result waits for its clk: a fixed-latency entry with these writes, due `lat` clk from now, and no other new entry (R60). -/
def Queues (s t : State) (u : Issuing) (lat : Nat) (ws : List RegWrite) : Prop :=
  t.fixed = if ws.isEmpty then s.fixed
    else tset s.nextKey ⟨portKey u.core u.bay u.port, u.pos, s.clk + lat, ws⟩ s.fixed

/-! ## Words that compute registers or predicates (R161 to R174) -/

/-- What a compute word gives: its fixed latency, its register destination if it has one, what it writes for a thread, and whether
it advances the draw count. -/
structure Compute where
  lat : Nat
  dst : Option Nat
  writes : State → Nat → Thread → List RegWrite
  draws : Bool

/-- A word that writes one value of n registers. -/
def Compute.value (lat : Nat) (dst : BitVec 9) (n : Nat) (f : State → Thread → Nat) : Compute :=
  ⟨lat, some dst.toNat, fun s k t => valueWrites t k dst.toNat n (f s t), false⟩

/-- A word that writes one predicate. -/
def Compute.pred (lat : Nat) (dst : BitVec 9) (f : State → Thread → Bool) : Compute :=
  ⟨lat, none, fun s k t => [.p k (bits dst.toNat 0 3) (f s t)], false⟩

/-- A word that rounds, by R34 at random under .RS: the value takes the random word. -/
def Compute.rounded (lat : Nat) (dst : BitVec 9) (n : Nat) (mode : Mode) (f : State → Thread → Nat → Nat) : Compute :=
  ⟨lat, some dst.toNat, fun s k t => valueWrites t k dst.toNat n (f s t (if mode = .rs then threadRand s t 0 else 0)), mode = .rs⟩

/-- R162: two clk, four for a 64-bit type; and for multiplies and floating-point arithmetic four, eight for a 64-bit type. -/
def shortLat (t : Ty) : Nat := if t.width = 64 then 4 else 2
def longLat (t : Ty) : Nat := if t.width = 64 then 8 else 4

/-- Every compute word of the vector and special classes but the paired word, with what R164 to R174 give it. -/
def computes : Instr → Option Compute
  | .nop _ => some ⟨0, none, fun _ _ _ => [], false⟩
  | .mov w => some (.value (shortLat w.ty) w.dst w.ty.regs fun s t => srcValue s t w.ty w.a)
  | .sel w => some (.value (shortLat w.ty) w.dst w.ty.regs fun s t =>
      if predCode t w.c.toNat then srcValue s t w.ty w.a else srcValue s t w.ty w.b)
  | .iadd w => some (.value (shortLat w.ty) w.dst w.ty.regs fun s t =>
      w.ty.narrow w.sat (w.ty.intValue (srcValue s t w.ty w.a) + w.ty.intValue (srcValue s t w.ty w.b)))
  | .isub w => some (.value (shortLat w.ty) w.dst w.ty.regs fun s t =>
      w.ty.narrow w.sat (w.ty.intValue (srcValue s t w.ty w.a) - w.ty.intValue (srcValue s t w.ty w.b)))
  | .imul w => some (.value (longLat w.ty) w.dst w.ty.regs fun s t =>
      w.ty.narrow w.sat (w.ty.intValue (srcValue s t w.ty w.a) * w.ty.intValue (srcValue s t w.ty w.b)))
  | .imulhi w => some (.value (longLat w.ty) w.dst w.ty.regs fun s t =>
      mulHigh w.ty (srcValue s t w.ty w.a) (srcValue s t w.ty w.b))
  | .imad w => some (.value (longLat w.ty) w.dst w.ty.regs fun s t =>
      w.ty.narrow w.sat (w.ty.intValue (srcValue s t w.ty w.a) * w.ty.intValue (srcValue s t w.ty w.b)
        + w.ty.intValue (srcValue s t w.ty w.c)))
  | .imin w => some (.value (shortLat w.ty) w.dst w.ty.regs fun s t =>
      if w.ty.intValue (srcValue s t w.ty w.a) ≤ w.ty.intValue (srcValue s t w.ty w.b)
      then srcValue s t w.ty w.a else srcValue s t w.ty w.b)
  | .imax w => some (.value (shortLat w.ty) w.dst w.ty.regs fun s t =>
      if w.ty.intValue (srcValue s t w.ty w.a) ≤ w.ty.intValue (srcValue s t w.ty w.b)
      then srcValue s t w.ty w.b else srcValue s t w.ty w.a)
  | .iabs w => some (.value (shortLat w.ty) w.dst w.ty.regs fun s t =>
      w.ty.narrow w.sat ((w.ty.intValue (srcValue s t w.ty w.a)).natAbs : Int))
  | .ineg w => some (.value (shortLat w.ty) w.dst w.ty.regs fun s t =>
      w.ty.narrow w.sat (-(w.ty.intValue (srcValue s t w.ty w.a))))
  | .lea w => some (.value (shortLat w.ty) w.dst 2 fun s t =>
      wrap 64 ((src64 s t w.a : Int) + w.ty.intValue (src32 s t w.b) * (2 ^ bits w.c.toNat 0 4 : Nat)))
  | .popc w => some (.value (shortLat w.ty) w.dst 1 fun s t => popCount w.ty.width (srcValue s t w.ty w.a))
  | .clz w => some (.value (shortLat w.ty) w.dst 1 fun s t => leadingZeros w.ty.width (srcValue s t w.ty w.a))
  | .brev w => some (.value (shortLat w.ty) w.dst w.ty.regs fun s t => bitReverse w.ty.width (srcValue s t w.ty w.a))
  | .and w => some (.value (shortLat w.ty) w.dst w.ty.regs fun s t => srcValue s t w.ty w.a &&& srcValue s t w.ty w.b)
  | .or w => some (.value (shortLat w.ty) w.dst w.ty.regs fun s t => srcValue s t w.ty w.a ||| srcValue s t w.ty w.b)
  | .xor w => some (.value (shortLat w.ty) w.dst w.ty.regs fun s t => srcValue s t w.ty w.a ^^^ srcValue s t w.ty w.b)
  | .not w => some (.value (shortLat w.ty) w.dst w.ty.regs fun s t => complement w.ty.width (srcValue s t w.ty w.a))
  | .andn w => some (.value (shortLat w.ty) w.dst w.ty.regs fun s t =>
      srcValue s t w.ty w.a &&& complement w.ty.width (srcValue s t w.ty w.b))
  | .shl w => some (.value (shortLat w.ty) w.dst w.ty.regs fun s t =>
      shiftLeft w.ty.width (srcValue s t w.ty w.a) (src32 s t w.b))
  | .shr w => some (.value (shortLat w.ty) w.dst w.ty.regs fun s t => shiftRight w.ty (srcValue s t w.ty w.a) (src32 s t w.b))
  | .rotl w => some (.value (shortLat w.ty) w.dst w.ty.regs fun s t =>
      rotateLeft w.ty.width (srcValue s t w.ty w.a) (src32 s t w.b))
  | .fadd w => some (.rounded (longLat w.ty) w.dst w.ty.regs w.mode fun s t rnd =>
      fpAdd (fmtOf w) w.mode w.sat w.fz rnd (srcValue s t w.ty w.a) (srcValue s t w.ty w.b))
  | .fsub w => some (.rounded (longLat w.ty) w.dst w.ty.regs w.mode fun s t rnd =>
      fpSub (fmtOf w) w.mode w.sat w.fz rnd (srcValue s t w.ty w.a) (srcValue s t w.ty w.b))
  | .fmul w => some (.rounded (longLat w.ty) w.dst w.ty.regs w.mode fun s t rnd =>
      fpMul (fmtOf w) w.mode w.sat w.fz rnd (srcValue s t w.ty w.a) (srcValue s t w.ty w.b))
  | .ffma w => some (.rounded (longLat w.ty) w.dst w.ty.regs w.mode fun s t rnd =>
      fpFma (fmtOf w) w.mode w.sat w.fz rnd (srcValue s t w.ty w.a) (srcValue s t w.ty w.b) (srcValue s t w.ty w.c))
  | .fmin w => some (.value (shortLat w.ty) w.dst w.ty.regs fun s t =>
      orderMin (fmtOf w) (srcValue s t w.ty w.a) (srcValue s t w.ty w.b))
  | .fmax w => some (.value (shortLat w.ty) w.dst w.ty.regs fun s t =>
      orderMax (fmtOf w) (srcValue s t w.ty w.a) (srcValue s t w.ty w.b))
  | .fminn w => some (.value (shortLat w.ty) w.dst w.ty.regs fun s t =>
      minNumber (fmtOf w) (srcValue s t w.ty w.a) (srcValue s t w.ty w.b))
  | .fmaxn w => some (.value (shortLat w.ty) w.dst w.ty.regs fun s t =>
      maxNumber (fmtOf w) (srcValue s t w.ty w.a) (srcValue s t w.ty w.b))
  | .fabs w => some (.value (shortLat w.ty) w.dst w.ty.regs fun s t => fpAbs (fmtOf w) (srcValue s t w.ty w.a))
  | .fneg w => some (.value (shortLat w.ty) w.dst w.ty.regs fun s t => fpNegate (fmtOf w) (srcValue s t w.ty w.a))
  | .fcsgn w => some (.value (shortLat w.ty) w.dst w.ty.regs fun s t =>
      fpCopySign (fmtOf w) (srcValue s t w.ty w.a) (srcValue s t w.ty w.b))
  | .cvt w => some (.rounded (if (cvtSource w).width = 64 || w.ty.width = 64 then 8 else 4) w.dst w.ty.regs w.mode fun s t rnd =>
      convert (cvtSource w) w.ty (srcValue s t (cvtSource w) w.a) w.mode w.sat w.fz rnd)
  | .pack w => some (.value (shortLat w.ty) w.dst 1 fun s t =>
      putBits (src32 s t w.dst) (w.ty.width * (src32 s t w.b % (32 / w.ty.width))) w.ty.width (srcValue s t w.ty w.a))
  | .unpack w => some (.value (shortLat w.ty) w.dst 1 fun s t =>
      let x := bits (src32 s t w.a) (w.ty.width * (src32 s t w.b % (32 / w.ty.width))) w.ty.width
      if w.ty.isSigned then wrap 32 (signed w.ty.width x) else x)
  | .icmp w => some (.pred (shortLat w.ty) w.dst fun s t =>
      intCond (bits w.c.toNat 0 3) (w.ty.intValue (srcValue s t w.ty w.a)) (w.ty.intValue (srcValue s t w.ty w.b)))
  | .fcmp w => some (.pred (shortLat w.ty) w.dst fun s t =>
      fpCond (fmtOf w) (bits w.c.toNat 0 3) (srcValue s t w.ty w.a) (srcValue s t w.ty w.b))
  | .fclass w => some (.pred (shortLat w.ty) w.dst fun s t => bit w.c.toNat (classBit (fmtOf w) (srcValue s t w.ty w.a)))
  | .plop w => some (.pred 2 w.dst fun _ t => predOp w.opx (predCode t w.a.toNat) (predCode t w.b.toNat))
  | .pget w => some (.value 2 w.dst 1 fun _ t => predBits t)
  | .pset w => some ⟨2, none, fun s k t => (List.range 8).map fun n => .p k n (bit (src32 s t w.a) n), false⟩
  | .iaddImm m w => some (.value (shortLat (immTy m)) w.dst (immTy m).regs fun s t =>
      low (immTy m).width (srcValue s t (immTy m) w.a + immValue (immTy m) w.imm))
  | .imulImm m w => some (.value (longLat (immTy m)) w.dst (immTy m).regs fun s t =>
      low (immTy m).width (srcValue s t (immTy m) w.a * immValue (immTy m) w.imm))
  | .andImm w => some (.value 2 w.dst 1 fun s t => src32 s t w.a &&& w.imm.toNat)
  | .orImm w => some (.value 2 w.dst 1 fun s t => src32 s t w.a ||| w.imm.toNat)
  | .xorImm w => some (.value 2 w.dst 1 fun s t => src32 s t w.a ^^^ w.imm.toNat)
  | .andnImm w => some (.value 2 w.dst 1 fun s t => src32 s t w.a &&& complement 32 w.imm.toNat)
  | .movImm m w => some (.value (shortLat (immTy m)) w.dst (immTy m).regs fun _ _ => immValue (immTy m) w.imm)
  | .faddImm m w => some (.value 4 w.dst 1 fun s t =>
      fpAdd .f32 (immMode m) false false 0 (srcValue s t .f32 w.a) w.imm.toNat)
  | .fmulImm m w => some (.value 4 w.dst 1 fun s t =>
      fpMul .f32 (immMode m) false false 0 (srcValue s t .f32 w.a) w.imm.toNat)
  | .shlImm w => some (.value 2 w.dst 1 fun s t => shiftLeft 32 (src32 s t w.a) w.imm.toNat)
  | .shrN32Imm w => some (.value 2 w.dst 1 fun s t => shiftRight .n32 (src32 s t w.a) w.imm.toNat)
  | .shrS32Imm w => some (.value 2 w.dst 1 fun s t => shiftRight .s32 (srcValue s t .s32 w.a) w.imm.toNat)
  | .rotlImm w => some (.value 2 w.dst 1 fun s t => rotateLeft 32 (src32 s t w.a) w.imm.toNat)
  | .exp2 w => some (.value 12 w.dst 1 fun s t => special .exp2 w.fz (srcValue s t w.ty w.a))
  | .log2 w => some (.value 12 w.dst 1 fun s t => special .log2 w.fz (srcValue s t w.ty w.a))
  | .rcp w => some (.value 12 w.dst 1 fun s t => special .rcp w.fz (srcValue s t w.ty w.a))
  | .rsq w => some (.value 12 w.dst 1 fun s t => special .rsq w.fz (srcValue s t w.ty w.a))
  | .sin w => some (.value 12 w.dst 1 fun s t => special .sin w.fz (srcValue s t w.ty w.a))
  | .cos w => some (.value 12 w.dst 1 fun s t => special .cos w.fz (srcValue s t w.ty w.a))
  | _ => none

/-- What a compute word writes, for the members whose predicate is true. -/
def Compute.all (c : Compute) (s : State) (ks : List Nat) : List RegWrite :=
  ks.flatMap fun k => match tget k s.threads with
    | some t => c.writes s k t
    | none => []

/-! ## Traps (R62, R63, R296) -/

/-- The cause with which a word stops one thread before it has an effect for it: a register beyond its allocation, a guard or a source
that waits for its value under the checking scoreboard, a row that a copy has locked (R44, R61, R73, R143). -/
def registerCause (s : State) (i : Instr) (k : Nat) (t : Thread) : Option Nat :=
  if (i.regs true ++ i.regs false).any (fun r => !((groupOf s t).all fun g => allocated g r)) then some 0x03
  else if guardPending s i k t then some 0x05
  else if !guardTrue i.guard t then none
  else if shortLookBack s i k t then some 0x05
  else if (lockedRow s i t).isSome then some 0x14
  else none

/-- A thread stands in TRAPPED with the record of a trap. -/
def Trapped (s : State) (k cause pc hdr faddr info : Nat) : Prop :=
  ∃ t, tget k s.threads = some t ∧ t.state = .trapped ∧ t.trap = some ⟨cause, pc, hdr, faddr, info, none, []⟩

/-! ## Memory words (R188 to R204) -/

/-- What a program reads of a thread whose counter has risen by one (R57, R188). -/
def Visible.raised (v : Visible) (ctr : Nat) : Visible :=
  { v with ctrs := if ctr < 6 then tset ctr (tgetD ctr 0 v.ctrs + 1) v.ctrs else v.ctrs }

/-- What a program reads of a thread whose counter has fallen by one (R57, R188). -/
def Visible.lowered (v : Visible) (ctr : Nat) : Visible :=
  { v with ctrs := if ctr < 6 then tset ctr (tgetD ctr 0 v.ctrs - 1) v.ctrs else v.ctrs }

/-- The counter of an operation has fallen by one, and no other thread's registers or counters have changed. -/
def Completes (s t : State) (c : Counted) : Prop :=
  ∀ j, seen t j = if j = c.thread then (seen s j).map (·.lowered c.ctr) else seen s j

/-- No byte at its home has changed. -/
def SameHomes (s t : State) : Prop := ∀ a, homeByte t a = homeByte s a

/-- An operation has begun for a thread: it stands under the next key, the thread's counter has risen by one, and nothing else has
changed but threads, ports and launches as every word changes them. -/
def Begins (s t : State) (k ctr : Nat) (o : Op) : Prop :=
  t.ops = tset s.nextKey o s.ops ∧ t.nextKey = s.nextKey + 1 ∧ restOps t = restOps s ∧
    ∀ j, seen t j = if j = k then (seen s k).map (·.raised ctr) else seen s j

/-- The five loads: policy, whether an acquire, and their fields (R190). -/
def loadForm : Instr → Option (LoadKind × Bool × MWord)
  | .ldCa w => some (.ca, false, w)
  | .ldCg w => some (.cg, false, w)
  | .ldLu w => some (.lu, false, w)
  | .ldCaAcq w => some (.ca, true, w)
  | .ldCgAcq w => some (.cg, true, w)
  | _ => none

/-- The two stores: whether a release, and their fields (R192). -/
def storeForm : Instr → Option (Bool × MWord)
  | .st w => some (false, w)
  | .stRel w => some (true, w)
  | _ => none

/-! ## Matrix commands (R217, R222 to R225) -/

/-- The three words that post a command of the matrix engine, with their checks. -/
def matrixForm : Instr → Option (RWord × (State → Nat → Thread → Except Bad MatrixPlan))
  | .mmul w => some (w, checkMmul w)
  | .mmerge w => some (w, checkMmerge w)
  | .mdrain w => some (w, checkMdrain w)
  | _ => none

/-! ## Cross-lane words (R175 to R180) -/

/-- The six cross-lane words, with their mask and destination fields and what a thread contributes: value, operand, predicate. -/
def LaneForm (i : Instr) (mask dst : BitVec 9) (operands : State → Thread → Nat × Nat × Bool) : Prop :=
  ∃ w, mask = w.b ∧
    (((i = .xshfl w ∨ i = .xbcast w) ∧ dst = w.dst ∧ operands = fun s t => (srcValue s t w.ty w.a, src32 s t w.c, false)) ∨
      (i = .xvote w ∧ dst = 0 ∧ operands = fun _ t => (0, 0, predCode t w.c.toNat)) ∨
      (i = .xballot w ∧ dst = w.dst ∧ operands = fun _ t => (0, 0, predCode t w.c.toNat)) ∨
      ((i = .xscan w ∨ i = .xred w) ∧ dst = w.dst ∧ operands = fun s t => (srcValue s t w.ty w.a, 0, false)))

/-- The other threads of a thread's group stand elsewhere, or wait at the CLAIM or RELEASE word that the thread issues, each member one
thread. -/
def OthersAtWord (s : State) (i : Instr) (k g : Nat) (t : Thread) : Prop :=
  t.member < 64 ∧ (∀ j tj, j ≠ k → tget j s.threads = some tj → tj.group = some g → tj.member ≠ t.member ∧
    ∀ r, rendezvousOf tj = some r → r.addr = t.curWord ∧ r.mask = 0 ∧ r.word = i) ∧
  ∀ j j' tj tj', tget j s.threads = some tj → tget j' s.threads = some tj' → tj.group = some g → tj'.group = some g →
    tj.member = tj'.member → j = j'

/-- Every live member of the group but the thread itself waits at the word, so that it is the last to arrive (R65, R71). -/
def AllLiveAtWord (s : State) (i : Instr) (k g : Nat) (t : Thread) (gr : Group) : Prop :=
  bit gr.live t.member = true ∧ ∀ n, n < 64 → bit gr.live n = true → n = t.member ∨
    ∃ j tj r, j ≠ k ∧ tget j s.threads = some tj ∧ tj.group = some g ∧ tj.member = n ∧ rendezvousOf tj = some r ∧
      r.addr = t.curWord ∧ r.mask = 0 ∧ r.word = i

/-! ## Where a thread stands -/

/-- A thread may be picked at a clause: it is READY there, or in COUNTER because the clause's WAIT selects a counter that is not
zero (R57, R63). -/
def GoesOnAt (s : State) (k pc : Nat) : Prop :=
  ∃ t, tget k s.threads = some t ∧ t.pc = pc ∧ (t.state = .ready ∨ ∃ mask, t.state = .counter mask)

/-- A thread has received a value in the n registers from number d on, lowest bits first (R128), its group where they are g registers:
nothing else that a program can read has changed, but the thread's counters. -/
def Receives (s t : State) (k d n v : Nat) : Prop :=
  (∀ j, j ≠ k → seen t j = seen s j) ∧
  ∀ x, seen s k = some x → (∃ y, seen t k = some y ∧ { y with regs := x.regs, ctrs := x.ctrs } = x ∧
      ∀ r, tgetD r 0 y.regs = if d < 384 ∧ d ≤ r ∧ r < d + n then BitVec.ofNat 32 (v / 2 ^ (32 * (r - d))) else tgetD r 0 x.regs) ∧
    ∀ h gr, tget h s.groups = some gr → ∃ gr', tget h t.groups = some gr' ∧ { gr' with uni := gr.uni } = gr ∧
      ∀ r, tgetD r 0 gr'.uni = if x.group = some h ∧ 384 ≤ d ∧ d ≤ r + 384 ∧ r + 384 < d + n
        then BitVec.ofNat 32 (v / 2 ^ (32 * (r + 384 - d))) else tgetD r 0 gr.uni

/-- The counters of a thread read as before. -/
def SameCtrs (s t : State) (k : Nat) : Prop :=
  ∀ x y, seen s k = some x → seen t k = some y → ∀ c, tgetD c 0 y.ctrs = tgetD c 0 x.ctrs

/-- A word is behind a thread of its issue set (R55, R140): the thread still issues, with its port at the next word of the clause, or,
after the clause's last word, it may be picked at the next clause in sequence. -/
def MovesOn (s t : State) (u : Issuing) (k : Nat) : Prop :=
  ∀ pt th, tget (portKey u.core u.bay u.port) s.ports = some pt → pt.pos = u.pos → pt.hdr = u.hdr → pt.members = u.members →
    tget k s.threads = some th → th.state = .issuing →
    (pt.pos + 1 < pt.words → (∃ pt', tget (portKey u.core u.bay u.port) t.ports = some pt' ∧ pt'.pos = u.pos + 1 ∧
        pt'.hdr = u.hdr ∧ pt'.words = pt.words ∧ k ∈ pt'.members) ∧
      ∃ th', tget k t.threads = some th' ∧ th'.state = .issuing) ∧
    (pt.words ≤ pt.pos + 1 → pt.words ≠ 0 → GoesOnAt t k ((u.hdr + 8 * (pt.words + 1)) % 2 ^ 64))

/-- A word is behind every thread of its issue set. -/
def Onward (s t : State) (u : Issuing) : Prop := ∀ k ∈ u.members, MovesOn s t u k

/-- A team keeps no checkpoint interval (R311): its launch is not flagged checkpoint, or it has reached no boundary. -/
def NoInterval (s : State) (team : Nat) : Prop := ∀ tm, tget team s.teams = some tm → tm.interval = none

/-- A team keeps no writer entries (R106): its launch is not flagged deterministic. -/
def NoWriters (s : State) (team : Nat) : Prop :=
  ∀ tm l, tget team s.teams = some tm → tget tm.launch s.launches = some l → l.k.det = false

/-- Nothing in the package waits on memory, on a rendezvous or with an arrival that is held, and nothing is poisoned: re-evaluating
every waiting thread (`settle`) leaves everything as it is. -/
structure Calm (s : State) : Prop where
  ops : s.ops = []
  poison : s.poison = []
  meets : ∀ j t, tget j s.threads = some t → rendezvousOf t = none
  held : ∀ j t n p h sc, tget j s.threads = some t → t.state ≠ .barrier n p (some h) sc ∧ t.state ≠ .releasing n h sc

/-- A key that the machine has not given out names nothing: no thread, group, team, launch, entrant, result or operation. -/
def State.freshKey (s : State) : Prop :=
  ∀ n, s.nextKey ≤ n → tget n s.threads = none ∧ tget n s.groups = none ∧ tget n s.teams = none ∧ tget n s.launches = none ∧
    tget n s.entrants = none ∧ tget n s.fixed = none ∧ tget n s.ops = none

/-! ## Invariants -/

/-- The tables of threads and groups are sorted by key: a thread or group stands in its table once. -/
def State.sorted (s : State) : Prop := tsorted s.threads = true ∧ tsorted s.groups = true

/-- Memory is in its canonical form. -/
def State.memoryOk (s : State) : Prop := Memory.wf s.mem = true

end Sys2Proof.Machine
end

