-- ==== Sys2Proof/WellFormed.lean ====
section
/-! DEFINITION. Well-formed instructions: a word that passes the static checks of R143 steps 4 to 6, an event that names units the
package has (spec/01_organisation.md R9 to R16; spec/05_execution.md R48, R54; spec/27_host_startup.md R322). -/

namespace Sys2Proof

open Machine

/-- A core key, and a bay of it. -/
def isCore (core : Nat) : Bool := core < 4 * coresPerDie
def isBay (core bay : Nat) : Bool := isCore core && bay < 8

/-- A hart of a die. -/
def isHart (die hart : Nat) : Bool := die < 4 && hart < 32

/-- An event's arguments name units that exist; a word has no such arguments. -/
def Instr.unitsExist : Instr → Bool
  | .pickIssueSet core bay _ => isBay core bay
  | .cageTimerExpire core cage => isCore core && cage < 64
  | .groupLaunch core cage => isCore core && cage < 64
  | .queueDoorbell ctx _ => ctx < 64
  | .launchAdmit ctx => ctx < 64
  | .contextOpen ctx _ => ctx < 64
  | .contextClose ctx => ctx < 64
  | .claimGrant core bay => isBay core bay
  | .claimDeadlockTrap core bay => isBay core bay
  | .windowEnable die w => die < 4 && w < 16
  | .windowDisable die w => die < 4 && w < 16
  | .windowPurgeDone die w => die < 4 && w < 16
  | .translationWalk die ctx _ => die < 4 && ctx < 64
  | .walkerInvalidate die _ => die < 4
  | .walkerInvalidateDone die => die < 4
  | .matrixPassEnd quad entry => quad < 4 * quadsPerDie && entry < 64
  | .matrixCommandRetire quad entry => quad < 4 * quadsPerDie && entry < 64
  | .handleDeadlineExpire ctx h => ctx < 64 && h < 1024
  | .linkFlitReceive link _ => link < 24
  | .linkFailure link => link < 24
  | .channelDeadlineExpire ctx ch => ctx < 64 && ch < 4096
  | .stepNoticeReceive ctx ch _ => ctx < 64 && ch < 4096
  | .foremanPublish ctx => ctx < 64
  | .winzeDrainStart ctx => ctx < 64
  | .winzeBatchComplete ctx => ctx < 64
  | .mailboxBind m _ => m < 4096
  | .mailboxUnbind m _ => m < 4096
  | .mailboxStart m => m < 4096
  | .mailboxKill m => m < 4096
  | .episodeHartAssign die => die < 4
  | .actionAppend m => m < 4096
  | .observationTake m => m < 4096
  | .atake die hart _ => isHart die hart
  | .actionHold die hart => isHart die hart
  | .opostStep die hart _ => isHart die hart
  | .opostEnd die hart _ => isHart die hart
  | .opostTerminal die hart _ => isHart die hart
  | .curfewExpire die hart => isHart die hart
  | .hartException die hart => isHart die hart
  | .episodeEndComplete m => m < 4096
  | .preemptRequest _ prio _ => prio < 8
  | .quadRetire die quad => die < 4 && quad < quadsPerDie
  | .patrolScrub sector _ => sector % 64 = 0 && sector < hbmBytes
  | .rowActivationAlert die ctrl _ _ => die < 4 && ctrl < 4
  | .bankHoldEnd die ctrl _ => die < 4 && ctrl < 4
  | .alertsRead die => die < 4
  | .registerWrite offset _ => controlAssigned offset && offset % 8 = 0
  | .driftLinkRetire port => port < 24
  | _ => true

/-- Well-formedness. -/
def Instr.wellFormed (i : Instr) : Bool := i.staticCause.isNone && i.unitsExist

end Sys2Proof
end

