-- ==== Sys2Proof/Certificates/Slice0/Obligations.lean ====
section
/-! DEFINITION. The statements about the model, each with the rule of spec/ that it formalises. In them `b` is the state in which a
word has begun to issue (`beginWord`): its port is taken and its members stand at it. -/

open Sys2Proof Sys2Proof.Machine


/-! ## Encoding and words (R18, R126 to R149) -/

/-- R127, R134 to R136, R144 to R149: the word that stands for an instruction, read in the instruction's class, is that
instruction, with every field at every value it can hold. -/
def Obligations.DecodeOfEncodeIsTheInstruction : Prop :=
  ∀ (i : Instr) (c : Sys2Proof.Class) (w : Word64), encode i = some (c, w) → decodeWord c w = .ok i

/-- R127, R134 to R136, R144 to R149: every word that a class assigns is the word of the instruction it decodes to: no bit of it
is dropped, and no two words are read as one instruction. -/
def Obligations.EncodeOfDecodeIsTheWord : Prop :=
  ∀ (c : Sys2Proof.Class) (w : Word64) (i : Instr), decodeWord c w = .ok i → encode i = some (c, w)

/-- The words that spec/ writes out: FFMA.F32.RZ v20, v1, v2, v3 ~4, CVT.BF16.F32.RS.SAT v5, v6 and (p2) BRA (after R186),
ST.REL.B32.dev [v4:5 + 0x40], v9, w1 (R192), CTB.F32 and CTBSEAL (after R204), and CPY, RELEASE 56 and CLAIM 24. -/
def Obligations.WorkedWordsDecode : Prop :=
  decodeWord .vector 0x2B0A004040378904 = .ok (.ffma ⟨20, 1, 2, 3, ⟨false, 7⟩, 0x890, 4⟩) ∧
  decodeWord .vector 0x3802818001179C80 = .ok (.cvt ⟨5, 6, 0, 0x11, ⟨false, 7⟩, 0x9C8, 0⟩) ∧
  decodeWord .control 0x1800003FFFF2FFC0 = .ok (.bra 0 ⟨0xFFFFFFF8, 0, 0, ⟨false, 2⟩, 0⟩) ∧
  decodeWord .control 0x0D00000003870000 = .ok (.release ⟨0, 0, 0, 56, ⟨false, 7⟩, 0, 0⟩) ∧
  decodeWord .control 0x0C00000001870000 = .ok (.claim ⟨0, 0, 0, 24, ⟨false, 7⟩, 0, 0⟩) ∧
  decodeWord .engine 0x08000A0602174000 = .ok (.cpy ⟨0, 40, 48, 33, ⟨false, 7⟩, 0x400, 0⟩) ∧
  decodeWord .memory 0x0904810001072480 = .ok (.stRel ⟨9, 4, 0x40, ⟨false, 7⟩, 1, 4, 4, false, 0⟩) ∧
  decodeWord .memory 0x2000020140C72000 = .ok (.ctb ⟨0, 8, 10, 12, ⟨false, 7⟩, 0x200, 0⟩) ∧
  decodeWord .memory 0x2100020000072000 = .ok (.ctbseal ⟨0, 8, 0, 0, ⟨false, 7⟩, 0x200, 0⟩)

/-- R149: the words of class 5 are all in register form: opcodes 0x00 to 0x04 are TRAP, SYSRET, SRD, SWR and RINV, and every
other opcode is unassigned. -/
def Obligations.SystemClassOpcodes : Prop :=
  Class.ofBits 5 = some .system ∧
  ∀ w : Word64, decodeWord .system w =
    if opcOf w = 0x00 then .ok (.trap (RWord.decode w))
    else if opcOf w = 0x01 then .ok (.sysret (RWord.decode w))
    else if opcOf w = 0x02 then .ok (.srd (RWord.decode w))
    else if opcOf w = 0x03 then .ok (.swr (RWord.decode w))
    else if opcOf w = 0x04 then .ok (.rinv (RWord.decode w))
    else .error .unassignedOpcode

/-- R18: the physical address of byte `off` of the window of a core of a die; the map's span, which an access meets as a window
of cores and nothing else; and the offsets of a die's window past its 144 cores, which are unassigned. -/
def Obligations.OnChipAddresses : Prop :=
  (∀ die core off : Nat, die < 4 → core < 144 → off < 0x01000000 →
    let pa := onchipPa (die * 144 + core) off
    pa = 0x00F0000000000000 + (die <<< 34) + (core <<< 24) + off ∧
    0x00F0000000000000 ≤ pa ∧ pa ≤ 0x00F0000FFFFFFFFF ∧
    ∀ s : State, coreEnabled s (die * 144 + core) = true → (regionOf s pa).1 = die * 144 + core) ∧
  ∀ (s : State) (pa : Nat), 0x00F0000000000000 ≤ pa → pa ≤ 0x00F0000FFFFFFFFF →
    (engineLocal pa = .onchip pa) ∧
    (144 <<< 24 ≤ (pa - 0x00F0000000000000) % 2 ^ 34 → (regionOf s pa).2 = .unassigned)

/-- R143 step 4, R144: a word whose opcode its class leaves unassigned stops every thread of the issue set at that word with the
illegal-instruction trap, cause 0x01, and nothing else changes.
R130, R143 steps 4 to 6, R163, R201: a word that fails a check of its own fields, once no earlier word of the clause can trap
any more, stops every thread of the issue set at that word with the cause of the check, threads whose predicate is false
included, and has no effect. The model's choices in it: log entry 29.
R44, R61, R73, R297: a register beyond the thread's allocation stops it with cause 0x03; with the checking scoreboard on, a
guard or source that waits for its value with cause 0x05; and a row that a copy has locked with cause 0x14 and the copy's lock
entry in INFO. The word has no effect for that thread. The model's choices in it: log entry 28.
R44, R61, R73, R143, R297: so is it for a word of any class, memory, engine and control words among them: the word has no effect
where it would issue for that thread alone; it stops the thread, or still waits at its port. The model's choices in it: log
entry 28. -/
def Obligations.ChecksStopTheWord : Prop :=
  (∀ (s : State) (core bay : Nat) (p : Port) (pt : PortState) (c : Sys2Proof.Class) (x k : Nat) (t : Thread),
     tget (portKey core bay p) s.ports = some pt → portReady s core bay pt = true → pt.members.head? = some k →
     tget k s.threads = some t → codeHeld s t (wordAddr pt.hdr pt.pos) 8 = false →
     fetchCode s t (wordAddr pt.hdr pt.pos) = .ok x → Class.ofBits pt.cls = some c →
     decodeWord c (BitVec.ofNat 64 x) = .error .unassignedOpcode →
     stepHold s ⟨core, bay, p, pt.hdr, pt.pos, pt.members⟩ = false → pt.members.any (testHold s) = false →
     ∃ s', prepareWord s core bay p = .done s' ∧ rest s' = rest s ∧ (∀ j, seen s' j = seen s j) ∧
       ∀ j ∈ pt.members, (tget j s.threads).isSome → Trapped s' j 0x01 (wordAddr pt.hdr pt.pos) pt.hdr 0 0) ∧
  (∀ (i : Instr) (s : State) (u : Issuing) (c : Nat), (encode i).isSome → s.issuing = some u → i.staticCause = some c →
     earlierWord s u = false →
     ∃ t, exec i s = .next t ∧ rest t = rest s ∧ (∀ k, seen t k = seen s k) ∧ SameBytes s t ∧
       ∀ k ∈ u.members, (tget k s.threads).isSome → Trapped t k c (wordAddr u.hdr u.pos) u.hdr 0 0) ∧
  (∀ (i : Instr) (c : Compute) (s : State) (u : Issuing) (k : Nat) (t : Thread), computes i = some c →
     s.issuing = some u → i.staticCause = none → commonHold s u i c.lat 7 = false → s.samples = [] → s.poison = [] →
     k ∈ u.members → tget k (beginWord s u i).threads = some t →
     ∃ s', exec i s = .next s' ∧ rest { s' with fixed := s.fixed, nextKey := s.nextKey } = rest s ∧
       let b := beginWord s u i
       ∀ x, registerCause b i k t = some x → seen s' k = seen s k ∧
         Trapped s' k x (wordAddr u.hdr u.pos) u.hdr 0 (if x = 0x14 then (lockedRow b i t).getD 0 else 0)) ∧
  (∀ (i : Instr) (s : State) (u : Issuing) (k : Nat) (t : Thread) (x : Nat), (encode i).isSome → s.issuing = some u →
     u.members = [k] → i.staticCause = none → s.samples = [] → Calm s → NoInterval s t.team →
     tget k (beginWord s u i).threads = some t →
     let b := beginWord s u i
     registerCause b i k t = some x →
     ∃ s', exec i s = .next s' ∧ rest s' = rest s ∧ (∀ j, seen s' j = seen s j) ∧ SameBytes s s' ∧
       (Trapped s' k x (wordAddr u.hdr u.pos) u.hdr 0 (if x = 0x14 then (lockedRow b i t).getD 0 else 0) ∨
         (s'.threads = s.threads ∧ s'.ports = s.ports)))


/-! ## Steps, reset and memory -/

/-- R55, R139, R140, R320: when the next move is a port's, its clause has a word to come, its occupancy is over, the bank that
holds the word is not held, and the bytes at that word decode to an instruction, a step is that instruction carried out for the
port's issue set, and then what comes about at once after any move. A word fetched from the control space is read there as any
register. The model's choices in it: log entry 106.
The bytes of a word are read where R139 and R140 put it: the instruction at a port's position is the one that its class gives
the eight bytes that its threads fetch at the header's address + 8 × (position + 1).
When the next move is an event of the package, a step is that event and then what comes about at once after any move. -/
def Obligations.StepRunsTheDecodedWord : Prop :=
  (∀ (s : State) (core bay : Nat) (p : Port) (more : List Turn) (pt : PortState) (k : Nat) (t : Thread) (i : Instr),
     let s0 : State := { s with agenda := more, issuing := none }
     s.agenda = .port core bay p :: more → tget (portKey core bay p) s.ports = some pt → portReady s0 core bay pt = true →
     pt.members.head? = some k → tget k s.threads = some t → codeHeld s0 t (wordAddr pt.hdr pt.pos) 8 = false →
     wordAt s0 t pt = .ok i →
     step s = settled (exec i { noteFetch s0 t (wordAddr pt.hdr pt.pos) with issuing := some ⟨core, bay, p, pt.hdr, pt.pos, pt.members⟩ })) ∧
  (∀ (s : State) (t : Thread) (pt : PortState) (c : Sys2Proof.Class) (x : Nat) (i : Instr),
     Class.ofBits pt.cls = some c → fetchCode s t (wordAddr pt.hdr pt.pos) = .ok x →
     (wordAt s t pt = .ok i ↔ decodeWord c (BitVec.ofNat 64 x) = .ok i)) ∧
  (∀ (s : State) (i : Instr) (more : List Turn), s.agenda = .event i :: more →
     step s = settled (exec i { s with agenda := more, issuing := none }))

/-- R323, R330, R112, R74, R206: what reset leaves: the global block's registers, a cold start standing at its first step,
nothing executing, and the reset values of a matrix configuration, a core's cage timer, a barrier, a window and a die's control
block. The model's choices in it: log entries 6, 12, 13, 14. -/
def Obligations.ResetHoldsTheValuesGiven : Prop :=
  State.reset.glob.fail = 0 ∧ State.reset.glob.kind = 0 ∧ State.reset.glob.calok = false ∧ State.reset.glob.ready = false ∧
  State.reset.glob.wbase = 0 ∧ State.reset.glob.invtmo = 2 ^ 26 ∧ State.reset.glob.asamp = 0 ∧ State.reset.glob.adrop = 0 ∧
  State.reset.glob.aunver = 0 ∧ State.reset.glob.plim = 2800 ∧ State.reset.glob.pranges = [] ∧
  State.reset.glob.step = 1 ∧ State.reset.glob.warm = false ∧
  State.reset.threads = [] ∧ State.reset.contexts = [] ∧ State.reset.launches = [] ∧ State.reset.clk = 0 ∧
  (State.reset.core 0).cageTmo = 1024 ∧ MatrixCfg.reset = ⟨0x8040, 0x7F7F99, 0, 0⟩ ∧
  barrierOf State.reset 0 0 = ⟨0, 0, 0, 0, 0, 0, []⟩ ∧ Window.reset.en = false ∧ DieCtl.reset.rmt = 4096 ∧
  ∀ a, memRead State.reset.mem a = 0

/-- The memory of the machine after reset is in its canonical form. The model's choices in it: log entry 12. -/
def Obligations.ResetMemoryIsCanonical : Prop := State.reset.memoryOk

/-- Every step keeps memory in its canonical form: addresses strictly rising, and no byte listed that reads as an unlisted one.
The model's choices in it: log entry 12. -/
def Obligations.EveryStepKeepsMemoryCanonical : Prop :=
  ∀ s t : State, s.memoryOk → step s = .next t → t.memoryOk

/-- Every step keeps the tables of threads and groups sorted: no thread or group stands in its table twice. -/
def Obligations.EveryStepKeepsTheTablesSorted : Prop :=
  State.reset.sorted ∧ ∀ s t : State, s.sorted → step s = .next t → t.sorted

/-- R4, R81: bytes written at their homes read back there in order of rising addresses, every other byte reads as before, and so
does an eight-byte value, lowest byte first. -/
def Obligations.HomeBytesReadBack : Prop :=
  ∀ (s : State) (pa : Nat) (bs : List Byte),
    (∀ n (h : n < bs.length), homeByte (writeHomes s pa bs) (pa + n) = bs[n]) ∧
    (∀ a, a < pa ∨ pa + bs.length ≤ a → homeByte (writeHomes s pa bs) a = homeByte s a) ∧
    (∀ a, memRead (writeHomes s pa bs).mem a = memRead s.mem a) ∧
    ∀ v n, v < 256 ^ n → leValue ((addrs pa n).map (homeByte (writeHomes s pa (leBytes n v)))) = v


/-! ## Compute words (R127 to R138, R161 to R174) -/

/-- R60, R161, R162, R164 to R174: a compute word with a v register or predicate destination gives, `lat` clk later, the values
that its row of the tables gives each thread for which its predicate is true; nothing that a program can read changes as it
issues, but the draw count where it rounds at random (R34), and its threads go on behind it (R140). -/
def Obligations.ComputeWordsQueueTheirResult : Prop :=
  ∀ (i : Instr) (c : Compute) (s : State) (u : Issuing), computes i = some c → (∀ d, c.dst = some d → d < 384) →
    Issues s u i c.lat 7 →
    ∃ t, exec i s = .next t ∧ Queues s t u c.lat (c.all (beginWord s u i) (actives s u i)) ∧ SameRest s t ∧ Onward s t u ∧
      ∀ k, seen t k = (seen s k).map fun v =>
        if c.draws && (actives s u i).contains k then { v with draw := (v.draw + (actives s u i).count k) % 2 ^ 32 } else v

/-- R67: a compute word with a g register destination writes it for the groups whose live members are all in the issue set, with
the value of the highest-indexed member whose predicate is true; the members of any other group take cause 0x21 and their
group's register is unchanged. Every live member reads the same value. The model's choices in it: log entry 30. -/
def Obligations.UniformWritesNeedWholeGroups : Prop :=
  (∀ (i : Instr) (c : Compute) (s : State) (u : Issuing) (d : Nat), computes i = some c → c.dst = some d → 384 ≤ d →
    Issues s u i c.lat 7 →
    let b := beginWord s u i
    let whole := (actives s u i).filter fun k => match (tget k b.threads).bind (·.group) with
      | some g => wholeGroup b u g
      | none => true
    let highest := whole.filter fun k => match tget k b.threads with
      | some t => whole.all fun k' => match tget k' b.threads with
        | some t' => t'.group ≠ t.group || t'.member ≤ t.member
        | none => true
      | none => false
    ∃ t, exec i s = .next t ∧ Queues s t u c.lat (c.all b highest) ∧ restFixed t = restFixed s ∧
      (∀ k ∈ u.members, k ∉ actives s u i ∨ k ∈ whole → MovesOn s t u k) ∧
      ∀ k ∈ actives s u i, k ∉ whole → Trapped t k 0x21 (wordAddr u.hdr u.pos) u.hdr 0 0) ∧
  ∀ (s : State) (t t' : Thread) (r : Nat), 384 ≤ r → t.group = t'.group → readReg s t r = readReg s t' r

/-- R56, R136, R137: both halves of a paired word read their sources before either writes, and each half's result waits for its
own latency; a half that is a NOP writes nothing. -/
def Obligations.PairedWordsReadBeforeTheyWrite : Prop :=
  ∀ (w : PWord) (s : State) (u : Issuing),
    let b := beginWord s u (.pairedWord w)
    let ks := actives s u (.pairedWord w)
    let entry (h : Half) : FixedWrite :=
      ⟨portKey u.core u.bay u.port, u.pos, s.clk + halfLatency h.op.toNat, ks.flatMap fun k => match tget k b.threads with
        | some t => match halfValue h.op.toNat (readReg b t h.a.toNat).toNat (readReg b t h.b.toNat).toNat with
          | some v => [.v k h.d.toNat (BitVec.ofNat 32 v)]
          | none => []
        | none => []⟩
    Issues s u (.pairedWord w) (max (halfLatency w.ha.op.toNat) (halfLatency w.hb.op.toNat)) 7 → pairOrderHold w s u = false →
    ∃ t, exec (.pairedWord w) s = .next t ∧ restFixed t = restFixed s ∧ (∀ k, seen t k = seen s k) ∧ SameBytes s t ∧ Onward s t u ∧
      (∀ h, h = w.ha ∨ h = w.hb → (entry h).writes ≠ [] → ∃ n, tget n t.fixed = some (entry h)) ∧
      ∀ f : FixedWrite, (∃ n, (n, f) ∈ t.fixed) → (∃ n, (n, f) ∈ s.fixed) ∨ ((f = entry w.ha ∨ f = entry w.hb) ∧ f.writes ≠ [])

/-- R60, R162: a fixed-latency result whose clk has come is written by one writeback, all its writes in the order written, and
it waits no longer: a register write gives that register its value, a predicate write that predicate, one of a g register its
group's, and a version its sr.version; each changes nothing else that a program can read. The model's choices in it: log entry
32.
R55, R57, R139, R140: a compute word that is not its clause's last leaves its threads issuing, their port at the next word;
after the last word every thread goes on at the next clause in sequence, address + 8 × (number of words + 1), and the port is
free: the thread is READY where the WAIT of that clause's header, in memory, selects no counter that is not zero, else in
COUNTER for those it selects; at or past the end of the code there is no header, and it is READY (R142). -/
def Obligations.ResultsLandAndClausesFollow : Prop :=
  ((∀ (s : State) (id : Nat) (f : FixedWrite), tget id s.fixed = some f → f.due ≤ s.clk →
     (∀ o ∈ s.fixed, o.1 < id → s.clk < o.2.due) →
     ∃ t, exec (.fixedLatencyWriteback id) s = .next t ∧ t.fixed = tdel id s.fixed ∧
       { t with fixed := s.fixed } = f.writes.foldl landWrite s ∧ SameBytes s t) ∧
   (∀ (s : State) (k r : Nat) (x : Word32), r < 384 → (landWrite s (.v k r x)).groups = s.groups ∧
     ∀ j, seen (landWrite s (.v k r x)) j = (seen s j).map fun v => if j = k then { v with regs := tset r x v.regs } else v) ∧
   (∀ (s : State) (k p : Nat) (x : Bool), p < 8 → (landWrite s (.p k p x)).groups = s.groups ∧
     ∀ j, ∃ ps, seen (landWrite s (.p k p x)) j = (seen s j).map (fun v => if j = k then { v with preds := ps } else v) ∧
       ∀ v, seen s j = some v → ∀ q, q < 8 → ps.getLsbD q = if q = p then x else v.preds.getLsbD q) ∧
   (∀ (s : State) (g r : Nat) (x : Word32), (landWrite s (.g g r x)).threads = s.threads ∧
     ∀ h, tget h (landWrite s (.g g r x)).groups = (tget h s.groups).map fun gr =>
       if h = g then { gr with uni := tset r x gr.uni } else gr) ∧
   ∀ (s : State) (k x : Nat), (landWrite s (.version k x)).groups = s.groups ∧
     ∀ j, seen (landWrite s (.version k x)) j = (seen s j).map fun v => if j = k then { v with srVersion := x } else v) ∧
  (∀ (i : Instr) (c : Compute) (s : State) (u : Issuing) (pt : PortState) (k : Nat) (t : Thread), computes i = some c →
     (∀ d, c.dst = some d → d < 384) → Issues s u i c.lat 7 → tget (portKey u.core u.bay u.port) s.ports = some pt →
     pt.hdr = u.hdr → pt.pos = u.pos → pt.members = u.members → k ∈ u.members → tget k s.threads = some t →
     t.state = .issuing → t.resume = none →
     ∃ s', exec i s = .next s' ∧
       (pt.pos + 1 < pt.words → (∃ t', tget k s'.threads = some t' ∧ t'.state = .issuing) ∧
         ∃ q, tget (portKey u.core u.bay u.port) s'.ports = some q ∧ q.pos = pt.pos + 1 ∧ q.words = pt.words ∧ q.hdr = pt.hdr ∧
           q.cls = pt.cls ∧ q.members = pt.members) ∧
       (pt.words = pt.pos + 1 → (tget (portKey u.core u.bay u.port) s'.ports).map (fun q => (q.members, q.words)) = some ([], 0) ∧
         let next := (u.hdr + 8 * (pt.words + 1)) % 2 ^ 64
         ∃ t', tget k s'.threads = some t' ∧ t'.pc = next ∧
           let past := (groupOf s t).any fun g => g.k.code + g.k.codeLen ≤ next
           (past = true → t'.state = .ready) ∧
           ∀ h, past = false → fetchCode s t next = .ok h → (∀ pa, codeTarget s t next ≠ .ok (.onchip pa)) →
             (∀ o, codeTarget s t next ≠ .ok (.control o)) →
             let wait := (Header.decode (BitVec.ofNat 64 h)).wait.toNat
             let clear := (List.range 6).all fun n => !bit wait n || tgetD n 0 t.ctrs = 0
             t'.state = if clear then TState.ready else TState.counter wait))

/-- R164, R165, R173: integer results are those of arithmetic on 32 or 64 bits: sums, differences and products wrap; with .SAT
they are the exact value clamped to the type; shifts of the full width or more give 0 or copies of the sign; rotations,
complements, reversals and leading zeros are those of the width. -/
def Obligations.IntegerResultsWrapOrClamp : Prop :=
  (∀ (ty : Ty) (a b : Nat), ty ∈ ints4 → a < 2 ^ ty.width → b < 2 ^ ty.width →
    intBinary ty false (· + ·) a b = (BitVec.ofNat ty.width a + BitVec.ofNat ty.width b).toNat ∧
    intBinary ty false (· - ·) a b = (BitVec.ofNat ty.width a - BitVec.ofNat ty.width b).toNat ∧
    intBinary ty false (· * ·) a b = (BitVec.ofNat ty.width a * BitVec.ofNat ty.width b).toNat) ∧
  (∀ (ty : Ty) (f : Int → Int → Int) (a b : Nat), ty ∈ ints4 →
    let lo : Int := if ty.isSigned then -(2 ^ (ty.width - 1) : Nat) else 0
    let hi : Int := if ty.isSigned then (2 ^ (ty.width - 1) : Nat) - 1 else (2 ^ ty.width : Nat) - 1
    let x := f (ty.intValue a) (ty.intValue b)
    ty.intValue (intBinary ty true f a b) = if x < lo then lo else if hi < x then hi else x) ∧
  (∀ (a b : Nat), a < 2 ^ 64 →
    shiftLeft 64 a b = (BitVec.ofNat 64 a <<< b).toNat ∧ shiftRight .n64 a b = (BitVec.ofNat 64 a >>> b).toNat ∧
    shiftRight .s64 a b = ((BitVec.ofNat 64 a).sshiftRight b).toNat ∧
    rotateLeft 64 a b = ((BitVec.ofNat 64 a).rotateLeft b).toNat ∧ complement 64 a = (~~~ BitVec.ofNat 64 a).toNat ∧
    bitReverse 64 a = (BitVec.ofNat 64 a).reverse.toNat ∧ leadingZeros 64 a = (BitVec.ofNat 64 a).clz.toNat) ∧
  (∀ (a b : Nat), a < 2 ^ 32 →
    shiftLeft 32 a b = (BitVec.ofNat 32 a <<< b).toNat ∧ shiftRight .n32 a b = (BitVec.ofNat 32 a >>> b).toNat ∧
    shiftRight .s32 a b = ((BitVec.ofNat 32 a).sshiftRight b).toNat ∧
    rotateLeft 32 a b = ((BitVec.ofNat 32 a).rotateLeft b).toNat ∧ complement 32 a = (~~~ BitVec.ofNat 32 a).toNat ∧
    bitReverse 32 a = (BitVec.ofNat 32 a).reverse.toNat ∧ leadingZeros 32 a = (BitVec.ofNat 32 a).clz.toNat) ∧
  ∀ (ty : Ty) (a b : Nat), ty ∈ ints4 → (mulHigh ty a b : Int) = (ty.intValue a * ty.intValue b).fdiv (2 ^ ty.width) % 2 ^ ty.width


/-! ## Control and cross-lane words (R65, R66, R175 to R186, R205 to R210) -/

/-- R142, R181, R182, R183: BRA, BRX and RET send each thread whose predicate is true to their target where it is a clause
header of the thread's code image, and stop it with cause 0x04 at the word where it is not; nothing that a program can read
changes. The model's choices in it: log entry 33.
R142, R181, R182: CALL does so too, and a thread that goes receives the address of the next clause in sequence in its v register
pair. The model's choices in it: log entries 33, 40.
R183: BRX is opcode 0x01 and RET opcode 0x03 of the control class; both transfer to the 64-bit address in A, an even v or g
register. An inline constant in A is an illegal operand, cause 0x03, and a field of DST, B or C that is not zero cause 0x02.
Their effect is the same. -/
def Obligations.BranchesAndCallsGoToClauseHeaders : Prop :=
  (∀ (i : Instr) (s : State) (u : Issuing) (target : State → Thread → Nat),
     ((∃ m w, i = .bra m w ∧ target = fun _ t => wrap 64 ((t.curWord : Int) + 8 * signed 32 w.imm.toNat)) ∨
       ∃ w, (i = .brx w ∨ i = .ret w) ∧ target = fun s t => src64 s t w.a) →
     Issues s u i 0 7 →
     let b := beginWord s u i
     s.poison = [] ∨ (∀ k ∈ actives s u i, ∀ t, tget k b.threads = some t → targetLegal b t (target b t) = true) →
     ∃ s', exec i s = .next s' ∧ rest s' = rest s ∧ SameBytes s s' ∧ (∀ j, seen s' j = seen s j) ∧
       (∀ k ∈ u.members, k ∉ actives s u i → MovesOn s s' u k) ∧
       ∀ k ∈ actives s u i, ∀ t, tget k b.threads = some t →
         if targetLegal b t (target b t) then GoesOnAt s' k (target b t)
         else Trapped s' k 0x04 (wordAddr u.hdr u.pos) u.hdr 0 0) ∧
  (∀ (m : BitVec 2) (w : IWord) (s : State) (u : Issuing) (k : Nat) (t : Thread), IssuesFor s u (.call m w) 0 7 k t →
     let b := beginWord s u (.call m w)
     let target := wrap 64 ((t.curWord : Int) + 8 * signed 32 w.imm.toNat)
     let link := (wordAddr u.hdr u.pos + 8) % 2 ^ 64
     s.poison = [] ∨ targetLegal b t target = true →
     ∃ s', exec (.call m w) s = .next s' ∧ rest { s' with poison := s.poison } = rest s ∧
       (∀ g, g ∈ s'.poison → g ∈ s.poison) ∧ SameBytes s s' ∧ (∀ j, j ≠ k → seen s' j = seen s j) ∧
       if targetLegal b t target then
         GoesOnAt s' k target ∧ ∃ t', tget k s'.threads = some t' ∧ t'.preds = t.preds ∧ t'.ctrs = t.ctrs ∧
           ∀ r, tgetD r 0 t'.regs = if r = w.dst.toNat then BitVec.ofNat 32 link
             else if r = w.dst.toNat + 1 then BitVec.ofNat 32 (link / 2 ^ 32) else tgetD r 0 t.regs
       else Trapped s' k 0x04 (wordAddr u.hdr u.pos) u.hdr 0 0 ∧ seen s' k = seen s k) ∧
  (∀ (w : RWord), encode (.brx w) = some (.control, w.encode 0x01) ∧ encode (.ret w) = some (.control, w.encode 0x03) ∧
     (Instr.brx w).staticCause = (Instr.ret w).staticCause ∧
     (w.dst ≠ 0 ∨ w.b ≠ 0 ∨ w.c ≠ 0 ∨ w.func ≠ 0 → (Instr.brx w).staticCause = some 0x02) ∧
     (w.dst = 0 → w.b = 0 → w.c = 0 → w.func = 0 →
       (Instr.brx w).staticCause = if 448 ≤ w.a.toNat ∨ w.a.toNat % 2 = 1 then some 0x03 else none) ∧
     ∀ (s : State) (u : Issuing) (ks : List Nat),
       transfer (fun s t => src64 s t w.a) (fun s _ _ => s) (beginWord s u (.brx w)) u ks
         = transfer (fun s t => src64 s t w.a) (fun s _ _ => s) (beginWord s u (.ret w)) u ks)

/-- R63, R64, R184: EXIT ends each thread whose predicate is true: it is EXITED, its bit of its group's live mask clears and no
other, and no load is left that would write its own registers; a group with no live member and no locked row retires. No byte at
its home changes, no thread that has not exited loses or changes anything that a program can read, and the other threads of the
issue set go on.
R186: YIELD completes for every thread and puts each one whose predicate is true behind the other threads of its bay; it changes
nothing that a program can read, and every thread goes on behind the word. While a candidate for the same port has not yielded,
the picker takes no yielding thread that has not been passed over 64 times. The model's choices in it: log entry 34.
R185, R313: SPAWN at a clause header creates a child: its entry is A, v0 holds B, its index is mix64(t.tid xor mix64(t.spawns +
1)) with bit 63 set, it belongs to the parent's team and launch, and it waits to enter a cage of the parent's core; the parent's
spawn count and its counter rise by one, every other thread keeps what it has, and the issue set goes on. No byte changes, but
where the team keeps a checkpoint interval, which the word ends. A target that is no clause header stops the thread with cause
0x04. -/
def Obligations.ThreadsEndYieldAndSpawn : Prop :=
  (∀ (w : RWord) (s : State) (u : Issuing) (k : Nat) (t : Thread), IssuesFor s u (.exit w) 0 7 k t →
     ∃ s', exec (.exit w) s = .next s' ∧ SameHomes s s' ∧
       (∀ t', tget k s'.threads = some t' → t'.state = .exited) ∧
       (∀ j x, j ≠ k → tget j s.threads = some x → x.state ≠ .exited → seen s' j = seen s j) ∧
       (∀ j ∈ u.members, j ≠ k → MovesOn s s' u j) ∧
       (∀ g gr, t.group = some g → tget g s.groups = some gr →
         (∀ gr', tget g s'.groups = some gr' → gr'.live = putBit gr.live t.member false ∧ gr'.uni = gr.uni) ∧
         (gr.live = 2 ^ t.member → gr.state ≠ .saved → s.rowLocks = [] → tget g s'.groups = none)) ∧
       (∀ h, t.group ≠ some h → tget h s'.groups = tget h s.groups) ∧
       ∀ n o, (n, Op.load o) ∈ s'.ops → ∀ m ∈ o.members, m.thread = k → (∀ d, m.dst = some d → d < 384) → m.done = true) ∧
  ((∀ (w : RWord) (s : State) (u : Issuing), Issues s u (.yield w) 0 7 →
     ∃ s', exec (.yield w) s = .next s' ∧ rest s' = rest s ∧ SameBytes s s' ∧ (∀ j, seen s' j = seen s j) ∧ Onward s s' u ∧
       ∀ k ∈ actives s u (.yield w), ∃ t, tget k s'.threads = some t ∧ 1 ≤ t.yielded) ∧
   ∀ (all mine : List Cand) (c : Cand), c ∈ notYielding all mine → c.thread.yielded ≠ 0 →
     (∀ d ∈ mine, d.thread.yielded ≠ 0) ∨ 64 ≤ c.thread.passed) ∧
  (∀ (w : RWord) (s : State) (u : Issuing) (k : Nat) (t : Thread) (kd : KDesc), IssuesFor s u (.spawn w) 0 w.ctr k t →
     s.freshKey → kernelOf (beginWord s u (.spawn w)) t = some kd →
     let b := beginWord s u (.spawn w)
     let va := src64 b t w.a
     (targetLegal b t va = true → ∃ s' c e, exec (.spawn w) s = .next s' ∧ (NoInterval s t.team → SameBytes s s') ∧
       tget s.nextKey s'.threads = some c ∧ c.state = .caged ∧ c.pc = va ∧ c.child = true ∧ c.team = t.team ∧
       c.launch = t.launch ∧ c.ctx = t.ctx ∧ c.sys = t.sys ∧ c.srGroup = 0xFFFFFFFF ∧ c.spawns = 0 ∧ c.draw = 0 ∧
       c.tid = mix64 (t.tid % 2 ^ 64 ^^^ mix64 (t.spawns + 1)) ||| 2 ^ 63 ∧ c.preds = 0 ∧ c.ctrs = [] ∧
       c.regs = [(0, BitVec.ofNat 32 (src32 b t w.b))] ∧
       tget (s.nextKey + 1) s'.entrants = some e ∧ e.thread = s.nextKey ∧ e.core = coreOf b t ∧ e.entry = va ∧ e.since = s.clk ∧
       s'.groups = s.groups ∧ (∀ j, j ≠ k → j ≠ s.nextKey → seen s' j = seen s j) ∧ Onward s s' u ∧
       seen s' k = (seen s k).map fun v => { v with
         spawns := (v.spawns + 1) % 2 ^ 32
         ctrs := if w.ctr < 6 then tset w.ctr (tgetD w.ctr 0 v.ctrs + 1) v.ctrs else v.ctrs }) ∧
     (targetLegal b t va = false → s.poison = [] → ∃ s', exec (.spawn w) s = .next s' ∧ rest s' = rest s ∧ (∀ j, seen s' j = seen s j) ∧
       Trapped s' k 0x04 (wordAddr u.hdr u.pos) u.hdr 0 0))

/-- R68, R206, R207, R208, R311: a thread arrival of a thread that has not arrived in the phase, its release complete: the
barrier takes the instruction's MODE, its arrival bit and TARR rise, BAR.ARRIVEB adds A to BEXP, DST receives the phase it
arrived in, and where the conditions of MODE then hold the phase completes; the thread goes on, but in a checkpoint launch waits
for the phase to change. A thread that has arrived waits out the phase with its arrival held; when the phase has changed it
makes it in the next phase, once its release is complete.
R68, R206, R208: under MODE 0b10 nobody arrives as a thread: BAR.ARRIVEB adds A to BEXP, DST receives the phase as it stood, and
the phase completes where its bytes have come; the thread goes on. R206, R207, R208: a MODE that differs from the barrier's, and
a thread arrival by a SPAWN child, are illegal operands, cause 0x03, with no effect.
R63, R68, R94, R95, R209: BAR.WAIT of a phase that is past: the thread goes on behind the word, the core's L1 is dropped where
its scope reaches past the core pair (R80), and, as after a FENCE, its later memory words wait until each store that it may have
read is visible within the scope; of the barrier's own phase: the thread waits in BARRIER for it to change. Nothing that a
program can read changes. -/
def Obligations.BarriersCountAndRelease : Prop :=
  ((∀ (i : Instr) (w : RWord) (s : State) (u : Issuing) (k : Nat) (t : Thread) (tm : Team),
     i = .barArrive w ∨ i = .barArriveb w → IssuesFor s u i 0 7 k t → NoInterval s t.team → tget t.team s.teams = some tm →
     (384 ≤ w.dst.toNat → ungathered (beginWord s u i) u [k] = []) →
     let b := beginWord s u i
     let n := bits w.c.toNat 0 5
     let md := bits w.c.toNat 5 2
     let x := barrierOf s t.team n
     let bytes := if i = .barArriveb w then src32 b t w.a else 0
     let y : Barrier := { x with
       mode := md, tarr := x.tarr + 1, arrived := k :: x.arrived, bexp := (x.bexp + bytes) % 2 ^ 64 }
     md = 1 ∨ md = 3 → t.child = false → x.mode = 0 ∨ x.mode = md →
     (k ∉ x.arrived → releasePending s k (barScope w.c) = false → ∃ s', exec i s = .next s' ∧ SameHomes s s' ∧
       barrierOf s' t.team n = (if y.holds then
         { y with phase := (x.phase + 1) % 2 ^ 32, tarr := 0, arrived := [], barr := x.barr - y.bexp, bexp := 0 } else y) ∧
       (∀ m, m ≠ n → barrierOf s' t.team m = barrierOf s t.team m) ∧ (∀ j, j ≠ k → seen s' j = seen s j) ∧
       (w.dst.toNat < 384 → s'.groups = s.groups ∧
         seen s' k = (seen s k).map fun v => { v with regs := tset w.dst.toNat (BitVec.ofNat 32 x.phase) v.regs }) ∧
       (384 ≤ w.dst.toNat → seen s' k = seen s k ∧ ∀ g, t.group = some g → (tget g s'.groups).map (·.uni) =
         (tget g s.groups).map fun gr => tset (w.dst.toNat - 384) (BitVec.ofNat 32 x.phase) gr.uni) ∧
       (y.holds = false → SameBytes s s') ∧
       (isCkpt s t.launch = false → isCkpt s tm.launch = false → Onward s s' u ∧ (y.holds = true → x.phase < 2 ^ 32 →
         ∀ j tj held sc, tget j s.threads = some tj → tj.team = t.team → tj.state = .barrier n x.phase held sc →
           match held with
           | none => GoesOnAt s' j tj.pc
           | some h => ∃ tj', tget j s'.threads = some tj' ∧ tj'.pc = tj.pc ∧ tj'.state = .releasing n h sc)) ∧
       (isCkpt s t.launch = true → isCkpt s tm.launch = true → ∃ t', tget k s'.threads = some t' ∧ t'.state = .barrier n x.phase none (barScope w.c) ∧
         t'.pc = (wordAddr u.hdr u.pos + 8) % 2 ^ 64)) ∧
     (k ∈ x.arrived → ∃ s' t', exec i s = .next s' ∧ SameBytes s s' ∧ (∀ j, seen s' j = seen s j) ∧
       barrierOf s' t.team n = { x with mode := md } ∧ tget k s'.threads = some t' ∧
       t'.state = .barrier n x.phase (some ⟨some w.dst.toNat, bytes⟩) (barScope w.c) ∧ t'.pc = (wordAddr u.hdr u.pos + 8) % 2 ^ 64)) ∧
   ∀ (s : State) (k n sc : Nat) (t : Thread) (h : HeldArrival), tget k s.threads = some t →
     t.state = .releasing n h sc → (tget t.team s.teams).isSome → isCkpt s t.launch = false → (∀ d, h.dst = some d → d < 384) →
     let x := barrierOf s t.team n
     let y : Barrier := { x with tarr := x.tarr + 1, arrived := k :: x.arrived, bexp := (x.bexp + h.bytes) % 2 ^ 64 }
     (releasePending s k sc = true → serveHeld s k = s) ∧
     (releasePending s k sc = false → GoesOnAt (serveHeld s k) k t.pc ∧
       barrierOf (serveHeld s k) t.team n = (if y.holds then
         { y with phase := (x.phase + 1) % 2 ^ 32, tarr := 0, arrived := [], barr := x.barr - y.bexp, bexp := 0 } else y) ∧
       ∀ j, seen (serveHeld s k) j = (seen s j).map fun v =>
         match h.dst with
         | some d => if j = k then { v with regs := tset d (BitVec.ofNat 32 x.phase) v.regs } else v
         | none => v)) ∧
  (∀ (i : Instr) (w : RWord) (s : State) (u : Issuing) (k : Nat) (t : Thread),
     i = .barArrive w ∨ i = .barArriveb w → IssuesFor s u i 0 7 k t →
     let b := beginWord s u i
     let n := bits w.c.toNat 0 5
     let md := bits w.c.toNat 5 2
     let x := barrierOf s t.team n
     let bytes := if i = .barArriveb w then src32 b t w.a else 0
     let y : Barrier := { x with mode := md, bexp := (x.bexp + bytes) % 2 ^ 64 }
     NoInterval s t.team → (tget t.team s.teams).isSome →
     (i = .barArrive w ∨ md = 3 → k ∈ x.arrived ∨ releasePending s k (barScope w.c) = false) →
     (384 ≤ w.dst.toNat → ungathered b u [k] = []) →
     ((md % 2 = 1 ∧ t.child = true) ∨ (x.mode ≠ 0 ∧ x.mode ≠ md) →
       ∃ s', exec i s = .next s' ∧ rest s' = rest s ∧ (∀ j, seen s' j = seen s j) ∧
         Trapped s' k 0x03 (wordAddr u.hdr u.pos) u.hdr 0 0) ∧
     (md = 2 → x.mode = 0 ∨ x.mode = 2 → ∃ s', exec i s = .next s' ∧ SameHomes s s' ∧ Onward s s' u ∧
       barrierOf s' t.team n = (if y.holds then
         { y with phase := (x.phase + 1) % 2 ^ 32, tarr := 0, arrived := [], barr := x.barr - y.bexp, bexp := 0 } else y) ∧
       (∀ m, m ≠ n → barrierOf s' t.team m = barrierOf s t.team m) ∧ (∀ j, j ≠ k → seen s' j = seen s j) ∧
       (y.holds = false → SameBytes s s') ∧
       (w.dst.toNat < 384 → s'.groups = s.groups ∧
         seen s' k = (seen s k).map fun v => { v with regs := tset w.dst.toNat (BitVec.ofNat 32 x.phase) v.regs }) ∧
       (384 ≤ w.dst.toNat → seen s' k = seen s k ∧ ∀ g, t.group = some g → (tget g s'.groups).map (·.uni) =
         (tget g s.groups).map fun gr => tset (w.dst.toNat - 384) (BitVec.ofNat 32 x.phase) gr.uni))) ∧
  (∀ (w : RWord) (s : State) (u : Issuing) (k : Nat) (t : Thread), IssuesFor s u (.barWait w) 0 7 k t →
     let b := beginWord s u (.barWait w)
     let n := bits w.c.toNat 0 5
     let x := barrierOf s t.team n
     (x.phase ≠ src32 b t w.a → ∃ s', exec (.barWait w) s = .next s' ∧ Onward s s' u ∧ (∀ j, seen s' j = seen s j) ∧
       restOps { s' with l1 := s.l1 } = restOps s ∧
       (s'.l1 = if 2 ≤ barScope w.c then s.l1.filter (fun e => e.1 / 2 ^ 56 ≠ coreOf b t) else s.l1) ∧
       let wait := (visibleStores b (coreOf b t)).filter fun id => !reached b (scopeLevel b t (barScope w.c)) id
       s'.ops = if wait = [] then s.ops else tset s.nextKey (.fence ⟨k, 0, 3, barScope w.c, wait⟩) s.ops) ∧
     (x.phase = src32 b t w.a → ∃ s' t', exec (.barWait w) s = .next s' ∧ rest s' = rest s ∧ (∀ j, seen s' j = seen s j) ∧
       tget k s'.threads = some t' ∧ t'.state = .barrier n x.phase none (barScope w.c) ∧
       t'.pc = (wordAddr u.hdr u.pos + 8) % 2 ^ 64))

/-- R65, R71, R210: a CLAIM takes effect once every live member of the group has arrived: its request of k/8 units joins its
bay's queue behind those before it and the members wait in CLAIMING; before that a member that arrives waits in RENDEZVOUS. A
claim past v383 or a fifth segment is an illegal operand.
R65, R71, R210: a RELEASE takes effect once every live member has arrived: the highest k registers of the group go back, a
segment split where needed, and the members go on; a release that would leave fewer than 8 registers is an illegal operand,
cause 0x03, and one of rows that a copy has locked raises cause 0x14 with the copy's lock entry in INFO (R297).
R71, R72, R210, R298: the oldest claim of a bay takes the lowest free run of rows as a new segment and its threads go on; a
claim deadlock that has held for 256 clk stops the threads of the last claimant, unless its team is being saved, with cause
0x20, INFO 1 and the map of its core. -/
def Obligations.RegistersAreClaimedAndReleased : Prop :=
  (∀ (w : RWord) (s : State) (u : Issuing) (k g : Nat) (t : Thread) (gr : Group), IssuesFor s u (.claim w) 0 7 k t →
     t.group = some g → tget g s.groups = some gr → s.sorted →
     (claimIllegal gr w.c.toNat = true →
       ∃ s', exec (.claim w) s = .next s' ∧ rest s' = rest s ∧ (∀ j, seen s' j = seen s j) ∧
         Trapped s' k 0x03 (wordAddr u.hdr u.pos) u.hdr 0 0) ∧
     let r : Rendezvous := ⟨t.curWord, 0, false, 0, 0, false, false, .claim w⟩
     (claimIllegal gr w.c.toNat = false → OthersAtWord s (.claim w) k g t → bit gr.live t.member = true →
         ¬ AllLiveAtWord s (.claim w) k g t gr → blockedBy (waitIn (beginWord s u (.claim w)) k (.rendezvous r)) g gr r = false →
       ∃ s' t', exec (.claim w) s = .next s' ∧ rest s' = rest s ∧ (∀ j, seen s' j = seen s j) ∧
         tget k s'.threads = some t' ∧ t'.state = .rendezvous r ∧ t'.pc = (wordAddr u.hdr u.pos + 8) % 2 ^ 64) ∧
     (claimIllegal gr w.c.toNat = false → OthersAtWord s (.claim w) k g t → AllLiveAtWord s (.claim w) k g t gr →
       ∃ s', exec (.claim w) s = .next s' ∧ SameBytes s s' ∧ (∀ j, seen s' j = seen s j) ∧
         (∃ t', tget k s'.threads = some t' ∧ t'.state = .claiming ∧ t'.pc = (wordAddr u.hdr u.pos + 8) % 2 ^ 64) ∧
         (∀ j tj, tget j s.threads = some tj → tj.group = some g → j ≠ k → (rendezvousOf tj).isSome →
           ∃ tj', tget j s'.threads = some tj' ∧ tj'.state = .claiming ∧ tj'.pc = tj.pc) ∧
         tget g s'.groups = some { gr with claim := some ⟨w.c.toNat / 8, (s.core gr.core).nextClaim, s.clk⟩ } ∧
         (s'.core gr.core).nextClaim = (s.core gr.core).nextClaim + 1)) ∧
  (∀ (w : RWord) (s : State) (u : Issuing) (k g : Nat) (t : Thread) (gr : Group), IssuesFor s u (.release w) 0 7 k t →
     t.group = some g → tget g s.groups = some gr → s.sorted →
     let n := w.c.toNat
     let locked := if s.rowLocks = [] then none else (topRows gr n).findSome? (rowLock s)
     let r : Rendezvous := ⟨t.curWord, 0, false, 0, 0, false, false, .release w⟩
     (releaseIllegal gr n = true →
       ∃ s', exec (.release w) s = .next s' ∧ rest s' = rest s ∧ (∀ j, seen s' j = seen s j) ∧
         Trapped s' k 0x03 (wordAddr u.hdr u.pos) u.hdr 0 0) ∧
     (∀ entry, releaseIllegal gr n = false → locked = some entry →
       ∃ s', exec (.release w) s = .next s' ∧ rest s' = rest s ∧ (∀ j, seen s' j = seen s j) ∧
         Trapped s' k 0x14 (wordAddr u.hdr u.pos) u.hdr 0 entry) ∧
     (releaseIllegal gr n = false → locked = none → OthersAtWord s (.release w) k g t → bit gr.live t.member = true →
         ¬ AllLiveAtWord s (.release w) k g t gr → blockedBy (waitIn (beginWord s u (.release w)) k (.rendezvous r)) g gr r = false →
       ∃ s' t', exec (.release w) s = .next s' ∧ rest s' = rest s ∧ (∀ j, seen s' j = seen s j) ∧
         tget k s'.threads = some t' ∧ t'.state = .rendezvous r ∧ t'.pc = (wordAddr u.hdr u.pos + 8) % 2 ^ 64) ∧
     (releaseIllegal gr n = false → locked = none → s.fixed = [] → s.ops = [] → OthersAtWord s (.release w) k g t →
         AllLiveAtWord s (.release w) k g t gr →
       ∃ s', exec (.release w) s = .next s' ∧ SameBytes s s' ∧ tget g s'.groups = some { gr with segs := dropTop gr n } ∧
         GoesOnAt s' k ((wordAddr u.hdr u.pos + 8) % 2 ^ 64) ∧
         ∀ j tj, tget j s.threads = some tj →
           if j = k ∨ (tj.group = some g ∧ (rendezvousOf tj).isSome) then
             seen s' j = (seen s j).map (fun v => { v with regs := v.regs.filter fun e => e.1 < gr.top - n }) ∧
               (j ≠ k → GoesOnAt s' j ((tj.curWord + 8) % 2 ^ 64))
           else seen s' j = seen s j)) ∧
  ((∀ (s : State) (core bay g row : Nat) (gr : Group) (c : ClaimWait) (more : List (Nat × Group × ClaimWait)), s.sorted →
     claimants s core bay = (g, gr, c) :: more → freeRun s core bay gr.slot0 gr.width c.units = some row →
     ∃ s', exec (.claimGrant core bay) s = .next s' ∧ SameHomes s s' ∧ (∀ j, seen s' j = seen s j) ∧
       tget g s'.groups = some { gr with segs := gr.segs ++ [⟨gr.top, row, 8 * c.units⟩], claim := none } ∧
       (∀ h, h ≠ g → tget h s'.groups = tget h s.groups) ∧
       ∀ k t, tget k s.threads = some t → t.group = some g → t.state = .claiming → GoesOnAt s' k t.pc) ∧
   ∀ (s : State) (core bay since g : Nat), s.sorted → tget bay (s.core core).deadlock = some since → since + 256 ≤ s.clk →
     claimDeadlocked s core bay = true → lastClaimant s core bay = some g →
     (∀ gr tm, tget g s.groups = some gr → tget gr.team s.teams = some tm → tm.state ≠ .saving) →
     ∃ s', exec (.claimDeadlockTrap core bay) s = .next s' ∧ SameHomes s s' ∧ (∀ j, seen s' j = seen s j) ∧
       (∀ gr, tget g s.groups = some gr → tget g s'.groups = some { gr with claim := none }) ∧
       ∀ k t, tget k s.threads = some t → t.group = some g → t.state = .claiming → ∃ t', tget k s'.threads = some t' ∧
         t'.state = .trapped ∧ t'.trap = some ⟨0x20, t.curWord, t.curHdr, 0, 1, none, claimExtension s core⟩)

/-- R65, R66, R175: a thread that comes to a cross-lane word waits in RENDEZVOUS, unless a member that it names cannot arrive,
until every member its mask names has come to the same address with the same mask; then the operation takes effect once: every
destination is written, and the named members go on after the word. Where a named member cannot arrive, it and the members that
wait there take cause 0x22, and where its mask conflicts with that of a member waiting at the address both do. An own bit that
is clear and a bit at or above the group's width are illegal operands, cause 0x03. The model's choices in it: log entry 39.
R65, R67, R175: the members that one mask names may come in one issue set: the operation then takes effect as the last of them
arrives, over those whose predicate is true, and all of them go on after the word. The model's choices in it: log entry 39. -/
def Obligations.LaneWordsTakeEffectOnce : Prop :=
  (∀ (i : Instr) (mask dst : BitVec 9) (operands : State → Thread → Nat × Nat × Bool) (s : State) (u : Issuing) (k g : Nat)
     (t : Thread) (gr : Group), LaneForm i mask dst operands → Issues s u i 0 7 → u.members = [k] →
     tget k (beginWord s u i).threads = some t → t.group = some g → tget g s.groups = some gr → s.sorted →
     (384 ≤ dst.toNat → ungathered (beginWord s u i) u (actives s u i) = []) →
     let b := beginWord s u i
     let m := src64 b t mask
     let active := (actives s u i).contains k
     let r : Rendezvous := ⟨t.curWord, m, !active, (operands b t).1, (operands b t).2.1, (operands b t).2.2, active, i⟩
     let e := waitIn b k (.rendezvous r)
     let all := arrivals e g t.curWord m
     let named := all.filter fun a => bit (namedMask gr m) a.thread.member
     let ms := named.filter fun a => !a.r.silent
     (bit m t.member = false ∨ 2 ^ gr.width ≤ m →
       ∃ s', exec i s = .next s' ∧ rest s' = rest s ∧ (∀ j, seen s' j = seen s j) ∧
         Trapped s' k 0x03 (wordAddr u.hdr u.pos) u.hdr 0 0) ∧
     (bit m t.member = true → m < 2 ^ gr.width →
       (∀ j tj r', tget j s.threads = some tj → tj.group = some g → rendezvousOf tj = some r' → r'.addr = t.curWord →
         r'.mask = m ∨ r'.mask &&& m = 0) →
       (allArrived gr m all = false → blockedBy e g gr r = false →
         ∃ s', exec i s = .next s' ∧ rest s' = rest s ∧ (∀ j, seen s' j = seen s j) ∧
           ∃ t', tget k s'.threads = some t' ∧ t'.state = .rendezvous r ∧ t'.pc = (t.curWord + 8) % 2 ^ 64) ∧
       (allArrived gr m all = false → blockedBy e g gr r = true →
         ∃ s', exec i s = .next s' ∧ rest s' = rest s ∧ (∀ j, seen s' j = seen s j) ∧
           Trapped s' k 0x22 (wordAddr u.hdr u.pos) u.hdr 0 0 ∧
           ∀ j tj r', j ≠ k → tget j s.threads = some tj → tj.group = some g → rendezvousOf tj = some r' → blockedBy e g gr r' = true →
             Trapped s' j 0x22 tj.curWord tj.curHdr 0 0) ∧
       (allArrived gr m all = true → (∀ a ∈ all, a.r.word = i) →
         ∃ s', exec i s = .next s' ∧ SameBytes s s' ∧
           match laneWrites e i gr.width ms with
           | some ws =>
             let f := if laneDraws i then advanceDraw (ws.foldl landWrite e) (ms.map (·.key)) else ws.foldl landWrite e
             (∀ j, seen s' j = seen f j) ∧ rest s' = rest f ∧
               ∀ a ∈ named, GoesOnAt s' a.key ((a.thread.curWord + 8) % 2 ^ 64)
           | none => rest s' = rest s ∧ (∀ j, seen s' j = seen s j) ∧
               ∀ a ∈ ms, Trapped s' a.key 0x03 a.thread.curWord a.thread.curHdr 0 0)) ∧
     ∀ j tj r', bit m t.member = true → m < 2 ^ gr.width →
       (∀ j' tj', j' ≠ k → tget j' s.threads = some tj' → tj'.group = some g → tj'.member ≠ t.member) →
       j ≠ k → tget j s.threads = some tj → tj.group = some g → rendezvousOf tj = some r' → r'.addr = t.curWord → r'.mask ≠ m →
       r'.mask &&& m ≠ 0 →
       ∃ s', exec i s = .next s' ∧ rest s' = rest s ∧ (∀ n, seen s' n = seen s n) ∧
         Trapped s' k 0x22 (wordAddr u.hdr u.pos) u.hdr 0 0 ∧ Trapped s' j 0x22 tj.curWord tj.curHdr 0 0) ∧
  (∀ (i : Instr) (mask dst : BitVec 9) (operands : State → Thread → Nat × Nat × Bool) (s : State) (u : Issuing) (g m : Nat)
     (gr : Group), LaneForm i mask dst operands → Issues s u i 0 7 → u.members ≠ [] → u.members.Nodup →
     tget g s.groups = some gr → s.sorted → m < 2 ^ gr.width →
     (384 ≤ dst.toNat → ungathered (beginWord s u i) u (actives s u i) = []) →
     let b := beginWord s u i
     let addr := wordAddr u.hdr u.pos
     (∀ k ∈ u.members, ∃ t, tget k b.threads = some t ∧ t.group = some g ∧ t.state = .issuing ∧ src64 b t mask = m) →
     (∀ n, bit m n = true → bit gr.live n = true ∧ ∃ k t, k ∈ u.members ∧ tget k b.threads = some t ∧ t.member = n) →
     (∀ j j' tj tj', tget j b.threads = some tj → tget j' b.threads = some tj' → tj.group = some g → tj'.group = some g →
       tj.member = tj'.member → j = j') →
     (∀ k t, tget k b.threads = some t → t.group = some g → rendezvousOf t = none ∧ (k ∈ u.members → bit m t.member = true)) →
     let e := u.members.foldl (fun e k => match tget k b.threads with
       | some t => waitIn e k (.rendezvous ⟨t.curWord, m, !(actives s u i).contains k, (operands b t).1, (operands b t).2.1,
           (operands b t).2.2, (uniformWriters b (actives s u i)).contains k, i⟩)
       | none => e) b
     let ms := (arrivals e g addr m).filter fun a => !a.r.silent
     ∃ s', exec i s = .next s' ∧ SameBytes s s' ∧
       match laneWrites e i gr.width ms with
       | some ws =>
         let f := if laneDraws i then advanceDraw (ws.foldl landWrite e) (ms.map (·.key)) else ws.foldl landWrite e
         (∀ j, seen s' j = seen f j) ∧ rest s' = rest f ∧ ∀ k ∈ u.members, GoesOnAt s' k ((addr + 8) % 2 ^ 64)
       | none => rest s' = rest s ∧ (∀ j, seen s' j = seen s j) ∧ ∀ a ∈ ms, Trapped s' a.key 0x03 addr u.hdr 0 0)

/-- R67, R176, R177, R178: what the shuffles and votes write over the non-silent named members, a value of any width into v
registers, or into g registers by the member that writes them for its group: XSHFL the value of the member that its variant
selects, nothing where that member is not there; XBCAST one member's value, or none at all where that member is not there; XVOTE
the vote of all; XBALLOT the mask of the members whose predicate is 1.
R40, R67, R179, R180: XSCAN.INC gives each non-silent member the chain of the members up to it and XSCAN.EXC the chain of those
before it, the operator's identity at the first; floating-point ADD rounds each step by the word's mode, with the random word of
the member it adds; XRED gives every member the canonical tree over the W slots, and .ADD.PAIR the tree of pairs, hi in the low
register. The operators are those of R175 on 32- and 64-bit integers and floating-point numbers. -/
def Obligations.LaneResultsScansAndReductions : Prop :=
  (∀ (s : State) (w : RWord) (width : Nat) (ms : List Arrival), (ms.map (·.thread.member)).Nodup →
     let write (a : Arrival) (n v : Nat) : List RegWrite :=
       if w.dst.toNat < 384 ∨ a.r.uni = true then valueWrites a.thread a.key w.dst.toNat n v else []
     (let src (a : Arrival) : Int := match w.opx with
         | 0 => a.r.c
         | 1 => (a.thread.member : Int) - a.r.c
         | 2 => a.thread.member + a.r.c
         | _ => (a.thread.member ^^^ a.r.c : Nat)
       laneWrites s (.xshfl w) width ms = some (ms.flatMap fun a => match ms.find? fun c => (c.thread.member : Int) = src a with
         | some c => write a w.ty.regs c.r.a
         | none => [])) ∧
     (∀ a more, ms = a :: more →
       ((∀ c ∈ ms, c.thread.member ≠ a.r.c) → laneWrites s (.xbcast w) width ms = none) ∧
       ∀ c ∈ ms, c.thread.member = a.r.c → laneWrites s (.xbcast w) width ms = some (ms.flatMap fun d => write d w.ty.regs c.r.a)) ∧
     (let q : Bool := match w.opx with
         | 0 => ms.all (·.r.q)
         | 1 => ms.any (·.r.q)
         | _ => ms.all (·.r.q) || ms.all (!·.r.q)
       laneWrites s (.xvote w) width ms = some (ms.map fun a => .p a.key (bits w.dst.toNat 0 3) q)) ∧
     ∃ mask, (∀ m, bit mask m = true ↔ ∃ a ∈ ms, a.thread.member = m ∧ a.r.q = true) ∧
       laneWrites s (.xballot w) width ms = some (ms.flatMap fun a => write a 2 mask)) ∧
  ((∀ (s : State) (w : RWord) (width : Nat) (ms : List Arrival),
     let write (a : Arrival) (n v : Nat) : List RegWrite :=
       if w.dst.toNat < 384 ∨ a.r.uni = true then valueWrites a.thread a.key w.dst.toNat n v else []
     let oper := bits w.c.toNat 0 3
     (let next (x : Nat) (a : Arrival) : Nat := match w.ty.fmt?, oper with
         | some f, 0 => fpAdd f w.mode false w.fz (rand32 (launchIdOf s a.thread) a.thread.tid a.r.addr a.thread.draw 0) x a.r.a
         | _, _ => laneOp w.ty oper x a.r.a
       let upTo (j : Nat) : Option Nat := (ms.take j).foldl (fun acc a => some (match acc with
         | none => a.r.a
         | some x => next x a)) none
       laneWrites s (.xscan w) width ms = some ((List.range ms.length).flatMap fun j => match ms[j]? with
         | some a => write a w.ty.regs (if w.opx = 1 then (upTo j).getD (laneIdentity w.ty oper) else (upTo (j + 1)).getD 0)
         | none => [])) ∧
     let slots : List (Option Nat) := (List.range width).map fun m => (ms.find? fun a => a.thread.member = m).map (·.r.a)
     (w.ty ≠ .f32 ∨ oper ≠ 0 ∨ w.opx ≠ 1 → laneWrites s (.xred w) width ms =
       some (ms.flatMap fun a => write a w.ty.regs ((canonicalReduce (laneOp w.ty oper) slots).getD 0))) ∧
     (w.ty = .f32 → oper = 0 → w.opx = 1 → ∀ p, canonicalReduce pairAdd (slots.map fun x => x.map pairLeaf) = some p →
       laneWrites s (.xred w) width ms = some (ms.flatMap fun a => write a 2 (p.hi.toNat + p.lo.toNat * 2 ^ 32)))) ∧
   (∀ (ty : Ty) (a b : Nat), ty ∈ ints4 → a < 2 ^ ty.width → b < 2 ^ ty.width →
     let lo : Int := if ty.isSigned then -(2 ^ (ty.width - 1) : Nat) else 0
     let hi : Int := if ty.isSigned then (2 ^ (ty.width - 1) : Nat) - 1 else (2 ^ ty.width : Nat) - 1
     [0, 1, 2, 3, 4, 5].map (fun n => laneOp ty n a b) = [(a + b) % 2 ^ ty.width,
       if ty.intValue a ≤ ty.intValue b then a else b, if ty.intValue a ≤ ty.intValue b then b else a, a &&& b, a ||| b, a ^^^ b] ∧
     laneIdentity ty 0 = 0 ∧ ty.intValue (laneIdentity ty 1) = hi ∧ ty.intValue (laneIdentity ty 2) = lo ∧
     laneIdentity ty 3 = 2 ^ ty.width - 1 ∧ laneIdentity ty 4 = 0 ∧ laneIdentity ty 5 = 0) ∧
   ∀ (ty : Ty) (f : FFmt) (a b : Nat), ty.fmt? = some f →
     [0, 1, 2].map (fun n => laneOp ty n a b) = [fpAdd f .rn false false 0 a b, orderMin f a b, orderMax f a b] ∧
     laneIdentity ty 0 = 2 ^ (f.width - 1))


/-! ## Memory words (R187 to R204) -/

/-- R57, R85, R187, R188, R190, R191: a load whose address passes its checks begins: its counter rises by one, and its
destination, address and target are kept until its bytes come; no byte of memory changes. An access that a version window
redirects bypasses L1 (R275).
R85: the loads of one issued word coalesce: its members go in the order of member index and sr.tid, and there is one request to
a 256-byte line, in the order of the lines' first members, for the sectors that its members touch; every member's counter rises.
-/
def Obligations.LoadsBegin : Prop :=
  (∀ (i : Instr) (kind : LoadKind) (acq : Bool) (w : MWord) (s : State) (u : Issuing) (k : Nat) (t : Thread) (va : Nat)
     (bypass : Bool) (tgt : Target), loadForm i = some (kind, acq, w) → IssuesFor s u i 0 w.ctr.toNat k t →
     controlHold s u = false → s.freshKey → s.poison = [] → NoInterval s t.team →
     let b := beginWord s u i
     checkBoth b t needRead true (effectiveVa b t w) (sizeBytes w.size.toNat) = .ok (va, bypass, tgt) →
     (384 ≤ w.dst.toNat → ungathered b u [k] = []) →
     let m : LoadMember := ⟨k, some w.dst.toNat, va, tgt, false⟩
     ∃ s', exec i s = .next s' ∧ SameBytes s s' ∧
       Begins s s' k w.ctr.toNat (.load ⟨if bypass then .cg else kind, u.core, w.ctr.toNat, w.size.toNat, w.scope.toNat, acq,
         [m], lineRequests w.size.toNat [m], (u.hdr, wordAddr u.hdr u.pos)⟩) ∧ Onward s s' u) ∧
  ((∀ (i : Instr) (kind : LoadKind) (acq : Bool) (w : MWord) (s : State) (u : Issuing), loadForm i = some (kind, acq, w) →
     Issues s u i 0 w.ctr.toNat → u.members.Nodup → actives s u i ≠ [] → controlHold s u = false → s.freshKey → s.poison = [] →
     let b := beginWord s u i
     let n := sizeBytes w.size.toNat
     let check (t : Thread) := checkBoth b t needRead true (effectiveVa b t w) n
     (∀ k ∈ actives s u i, ∃ t va tgt, tget k b.threads = some t ∧ NoInterval s t.team ∧ check t = .ok (va, false, tgt)) →
     (384 ≤ w.dst.toNat → ungathered b u (actives s u i) = []) →
     let ms : List LoadMember := (memberOrder b (actives s u i)).filterMap fun k => (tget k b.threads).bind fun t => match check t with
       | .ok (va, _, tgt) => some ⟨k, if w.dst.toNat < 384 ∨ k ∈ uniformWriters b (actives s u i) then some w.dst.toNat else none,
           va, tgt, false⟩
       | .error _ => none
     ∃ s', exec i s = .next s' ∧ SameBytes s s' ∧ Onward s s' u ∧ restOps s' = restOps s ∧ s'.nextKey = s.nextKey + 1 ∧
       s'.ops = tset s.nextKey (.load ⟨kind, u.core, w.ctr.toNat, w.size.toNat, w.scope.toNat, acq, ms,
         lineRequests w.size.toNat ms, (u.hdr, wordAddr u.hdr u.pos)⟩) s.ops ∧
       ∀ j, seen s' j = if j ∈ actives s u i then (seen s j).map (·.raised w.ctr.toNat) else seen s j) ∧
   ∀ (size : Nat) (ms : List LoadMember),
     let rs := lineRequests size ms
     let touched (line c : Nat) : Prop := ∃ m ∈ ms, ∃ pa, m.target = .hbm pa ∧ pa / 256 = line ∧
       line * 256 + 64 * c < pa + sizeBytes size ∧ pa < line * 256 + 64 * c + 64
     rs.map (·.line) = (ms.filterMap fun m => if m.target.isHbm then some (m.target.pa / 256) else none).eraseDups ∧
     ∀ r ∈ rs, r.sent = false ∧ r.filled = 0 ∧ ∀ c, bit r.sectors c = true ↔ c < 4 ∧ touched r.line c)

/-- R187: what stops a load or store, in this order: an address that is not aligned for its size, cause 0x12; a page that does
not translate, cause 0x10, or forbids the access, cause 0x11; a range that is locked, cause 0x14, with INFO naming the entry
(R297). The member has no effect. -/
def Obligations.LoadsAndStoresTrapOnBadAddresses : Prop :=
  ∀ (i : Instr) (w : MWord) (need : Need) (loads : Bool) (s : State) (u : Issuing) (k : Nat) (t : Thread) (bad : Bad),
    ((∃ kind acq, loadForm i = some (kind, acq, w)) ∧ need = needRead ∧ loads = true ∨
      i = .st w ∧ need = needWrite ∧ loads = false) →
    IssuesFor s u i 0 w.ctr.toNat k t → controlHold s u = false → s.poison = [] →
    let b := beginWord s u i
    let va := effectiveVa b t w
    let n := sizeBytes w.size.toNat
    (loads = true → 384 ≤ w.dst.toNat → ungathered b u [k] = []) →
    (loads = false → readsFirst i need (fun s t => effectiveVa s t w) n s u = false) →
    checkBoth b t need loads va n = .error bad →
    (∃ s', exec i s = .next s' ∧ rest s' = rest s ∧ SameBytes s s' ∧ (∀ j, seen s' j = seen s j) ∧
      Trapped s' k bad.cause (wordAddr u.hdr u.pos) u.hdr bad.faddr bad.info) ∧
    (va % n ≠ 0 → bad = ⟨0x12, va, 0⟩) ∧
    (va % n = 0 → windowOf b t va = none → ∀ c,
      resolve b (dieOfCore (coreOf b t)) t.ctx t.team { need with sys := t.sys } va = .error c → bad = ⟨c, va, 0⟩) ∧
    ∀ pa info, va % n = 0 → windowOf b t va = none →
      resolve b (dieOfCore (coreOf b t)) t.ctx t.team { need with sys := t.sys } va = .ok (.hbm pa) →
      rangeConflict b (coreOf b t) t.ctx va n need.wr = some info → bad = ⟨0x14, va, info⟩

/-- R82, R85, R90, R93, R188, R191, R192: a store to local HBM begins: its counter rises by one, its core reads its bytes at
once, but scale bytes of an enabled window, every other byte, and what is at the homes, reads as before, and the thread goes on.
R20, R77, R93, R188, R191: a store to a peer page or to the control space begins: its counter rises by one and no byte changes
until it is performed there. A store to the on-chip map is performed at the target core at once: to its scratchpad, which fills
the granules it writes (R83), and a 32-bit store to a register row in the register of the thread that owns the row (R73).
R85, R192: the stores of one issued word to local HBM coalesce: there is one request to a 256-byte line, in the order of the
lines' first members, with the bytes that the members store there; where they overlap, the last member in the order of member
index and sr.tid gives the byte. The request counts for each of its members.
R78, R93, R191: a store to the scratchpad aperture writes its bytes at once, in order of rising addresses; every other byte
reads as before, no counter rises and no full-empty bit changes. -/
def Obligations.StoresBeginOrWriteAtOnce : Prop :=
  (∀ (i : Instr) (rel : Bool) (w : MWord) (s : State) (u : Issuing) (k : Nat) (t : Thread) (va pa : Nat) (bypass : Bool),
     storeForm i = some (rel, w) → IssuesFor s u i 0 w.ctr.toNat k t → s.freshKey → NoInterval s t.team →
     let b := beginWord s u i
     let n := sizeBytes w.size.toNat
     let data := storeData b t w
     let bytes := (addrs pa n).zip data
     checkBoth b t needWrite false (effectiveVa b t w) n = .ok (va, bypass, .hbm pa) → pa + n ≤ 2 ^ 56 →
     readsFirst i needWrite (fun s t => effectiveVa s t w) n s u = false →
     (rel = true → releasePending s k w.scope.toNat = false) →
     ∃ s', exec i s = .next s' ∧ s'.nextKey = s.nextKey + 1 ∧
       s'.ops = tset s.nextKey (.store ⟨[⟨k, w.ctr.toNat⟩], u.core, t.ctx, t.team, va, .hbm pa, bytes, none, false, none, [va]⟩) s.ops ∧ Onward s s' u ∧
       (∀ j, seen s' j = if j = k then (seen s k).map (·.raised w.ctr.toNat) else seen s j) ∧
       s'.mem = s.mem ∧ s'.l2 = s.l2 ∧ s'.full = s.full ∧ s'.groups = s.groups ∧ s'.contexts = s.contexts ∧
       (∀ j (h : j < data.length), coreByte s' u.core (pa + j) =
         if (scaledBlock s (pa + j)).isNone then data[j] else coreByte s u.core (pa + j)) ∧
       (∀ core a, core ≠ u.core ∨ a < pa ∨ pa + n ≤ a → coreByte s' core a = coreByte s core a) ∧
       (∀ core team viaL1 a, a < 2 ^ 56 → core ≠ u.core ∨ a < pa ∨ pa + n ≤ a →
         loadByte s' core team viaL1 a = loadByte s core team viaL1 a) ∧
       ∀ a, homeByte s' a = homeByte s a) ∧
  (∀ (i : Instr) (rel : Bool) (w : MWord) (s : State) (u : Issuing) (k : Nat) (t : Thread) (va : Nat) (bypass : Bool)
     (tgt : Target), storeForm i = some (rel, w) → IssuesFor s u i 0 w.ctr.toNat k t → s.freshKey → s.poison = [] →
     NoInterval s t.team →
     let b := beginWord s u i
     let n := sizeBytes w.size.toNat
     let data := storeData b t w
     checkBoth b t needWrite false (effectiveVa b t w) n = .ok (va, bypass, tgt) →
     readsFirst i needWrite (fun s t => effectiveVa s t w) n s u = false →
     (rel = true → releasePending s k w.scope.toNat = false) →
     ((∃ pkg pa, tgt = .peer pkg pa) ∨ (∃ o, tgt = .control o) → ∃ s', exec i s = .next s' ∧ SameBytes s s' ∧ Onward s s' u ∧
       Begins s { s' with teams := s.teams } k w.ctr.toNat (.store ⟨[⟨k, w.ctr.toNat⟩], u.core, t.ctx, t.team, va, tgt,
         (addrs tgt.pa n).zip data, none, false, none, [va]⟩)) ∧
     (∀ pa core off, tgt = .onchip pa → (∀ j, j < n → regionOf s (pa + j) = (core, .scratchpad (off + j))) →
       (∀ e o, (e, Op.granule o) ∈ s.ops → ∀ j, j < n → granuleOf o.core o.off ≠ (pa + j) / 16 * 16) →
       ∃ s', exec i s = .next s' ∧ Onward s s' u ∧ (∀ j, seen s' j = seen s j) ∧
         (∀ j (h : j < data.length), memRead s'.mem (pa + j) = data[j]) ∧
         (∀ a, a < pa ∨ pa + n ≤ a → memRead s'.mem a = memRead s.mem a) ∧
         (∀ g, s'.full.contains g = true ↔ s.full.contains g = true ∨ ∃ j, j < n ∧ g = (pa + j) / 16 * 16) ∧
         rest { s' with mem := s.mem, full := s.full, teams := s.teams } = rest s) ∧
     ∀ pa core bay slot row g m r key owner, tgt = .onchip pa → n = 4 →
       (∀ j, j < 4 → regionOf s (pa + j) = (core, .register bay slot row j)) → rowOwner s core bay slot row = some (g, m, r) →
       memberThread s g m = some (key, owner) → r < 384 →
       ∃ s', exec i s = .next s' ∧ Onward s s' u ∧ rest { s' with teams := s.teams } = rest s ∧
         (∀ j, j ≠ key → seen s' j = seen s j) ∧
         ∀ v, seen s key = some v → ∃ v', seen s' key = some v' ∧ { v' with regs := v.regs } = v ∧
           ∀ q, tgetD q 0 v'.regs = if q = r then BitVec.ofNat 32 (leValue data) else tgetD q 0 v.regs) ∧
  (∀ (i : Instr) (rel : Bool) (w : MWord) (s : State) (u : Issuing) (ctx team : Nat), storeForm i = some (rel, w) →
     Issues s u i 0 w.ctr.toNat → u.members.Nodup → s.freshKey → NoInterval s team →
     let b := beginWord s u i
     let n := sizeBytes w.size.toNat
     let check (t : Thread) := checkBoth b t needWrite false (effectiveVa b t w) n
     (∀ k ∈ actives s u i, ∃ t va bypass pa, tget k b.threads = some t ∧ t.ctx = ctx ∧ t.team = team ∧
       check t = .ok (va, bypass, .hbm pa)) →
     readsFirst i needWrite (fun s t => effectiveVa s t w) n s u = false →
     (rel = true → ∀ k ∈ actives s u i, releasePending s k w.scope.toNat = false) →
     let ms : List StoreMember := (memberOrder b (actives s u i)).filterMap fun k => (tget k b.threads).bind fun t => match check t with
       | .ok (va, _, tgt) => some ⟨k, va, tgt, (addrs tgt.pa n).zip (storeData b t w)⟩
       | .error _ => none
     ∃ (s' : State) (rs : List StoreOp), exec i s = .next s' ∧ SameHomes s s' ∧ s'.mem = s.mem ∧ s'.l2 = s.l2 ∧ Onward s s' u ∧
       (∀ j, seen s' j = if j ∈ actives s u i then (seen s j).map (·.raised w.ctr.toNat) else seen s j) ∧
       s'.nextKey = s.nextKey + rs.length ∧
       (∀ e, tget e s'.ops = if s.nextKey ≤ e then rs[e - s.nextKey]?.map Op.store else tget e s.ops) ∧
       rs.map (fun (o : StoreOp) => o.target.pa / 256) = (ms.map fun m => m.target.pa / 256).eraseDups ∧
       ∀ o ∈ rs, o.core = u.core ∧ o.ctx = ctx ∧ o.team = team ∧ o.target.isHbm = true ∧ o.die = none ∧ o.held = false ∧ o.cmd = none ∧
         let mine := ms.filter fun m => m.target.pa / 256 = o.target.pa / 256
         o.cs = mine.map (fun m => ⟨m.thread, w.ctr.toNat⟩) ∧ o.vas = mine.map (·.va) ∧
           ∀ a, tget a o.bytes = mine.reverse.findSome? fun m => tget a m.bytes) ∧
  (∀ (i : Instr) (rel : Bool) (w : MWord) (s : State) (u : Issuing) (k : Nat) (t : Thread) (va core off : Nat) (bypass : Bool),
     storeForm i = some (rel, w) → IssuesFor s u i 0 w.ctr.toNat k t → NoInterval s t.team → s.poison = [] →
     let b := beginWord s u i
     let n := sizeBytes w.size.toNat
     let data := storeData b t w
     let pa := onchipPa core off
     checkBoth b t needWrite false (effectiveVa b t w) n = .ok (va, bypass, .scratch core off) →
     (∀ j, j < n → regionOf s (pa + j) = (core, .scratchpad (off + j))) →
     readsFirst i needWrite (fun s t => effectiveVa s t w) n s u = false →
     (rel = true → releasePending s k w.scope.toNat = false) →
     ∃ s', exec i s = .next s' ∧ (∀ j, seen s' j = seen s j) ∧ Onward s s' u ∧ s'.full = s.full ∧
       (∀ j (h : j < data.length), memRead s'.mem (pa + j) = data[j]) ∧
       (∀ a, a < pa ∨ pa + n ≤ a → memRead s'.mem a = memRead s.mem a) ∧
       rest { s' with mem := s.mem, teams := s.teams } = rest s)

/-- R95: an ST.REL, STT.REL, ATOM.REL, a thread's first arrival at a barrier in its phase, NREC, BWPUSH, RGPUB or RGDONE does
not issue while an earlier read of its thread has no value or an earlier write is not yet visible at its scope: the move changes
nothing but that its port may try again.
R94, R203: FENCE with two masks that are not zero begins to hold its thread's later memory and engine words until every write
that it orders is visible at its scope; with a zero mask it has no effect. -/
def Obligations.ReleasesAndFencesWait : Prop :=
  (∀ (i : Instr) (s : State) (u : Issuing) (scope k : Nat), s.issuing = some u → i.staticCause = none →
     ((∃ w, i = .stRel w ∧ scope = w.scope.toNat) ∨ (∃ w, i = .stt w ∧ w.fbits 9 1 = 1 ∧ scope = w.fbits 10 3) ∨
       (∃ w, (i = .atom w ∨ i = .atomFadd w) ∧ 2 ≤ w.fbits 6 2 ∧ scope = bits w.c.toNat 0 3) ∨
       (∃ w t, (i = .barArrive w ∨ (i = .barArriveb w ∧ bits w.c.toNat 5 2 = 3)) ∧ scope = barScope w.c ∧
         tget k s.threads = some t ∧ k ∉ (barrierOf s t.team (bits w.c.toNat 0 5)).arrived) ∨
       ∃ w, (i = .nrec w ∨ i = .rgpub w ∨ i = .rgdone w ∨ i = .bwpush w) ∧ scope = 4) →
     k ∈ activeMembers s u i → releasePending s k scope = true →
     (∀ j ∈ u.members, ∀ t, tget j s.threads = some t → NoInterval s t.team) →
     exec i s = .next { s with issuing := none }) ∧
  (∀ (w : RWord) (s : State) (u : Issuing) (k : Nat) (t : Thread), IssuesFor s u (.fence w) 0 7 k t → s.freshKey →
     NoInterval s t.team →
     let pred := bits w.c.toNat 0 6
     let succ := w.fbits 4 6
     (pred ≠ 0 → succ ≠ 0 → ∃ s', exec (.fence w) s = .next s' ∧ SameBytes s s' ∧
       Begins s s' k 7 (.fence ⟨k, pred, succ, w.fbits 10 3, fenceSet s k u.core pred⟩) ∧ Onward s s' u ∧
       fenceHold s' ⟨u.core, u.bay, u.port, u.hdr, u.pos, [k]⟩ = true) ∧
     (pred = 0 ∨ succ = 0 → ∃ s', exec (.fence w) s = .next s' ∧ rest s' = rest s ∧ (∀ j, seen s' j = seen s j) ∧ Onward s s' u))

/-- R83, R193: LDFE of a full granule, its oldest wait, takes the bytes at once into its destination, .CLR empties the bit, and
the thread goes on with its counter as it was; of an empty one the thread waits in GRANULE and its counter has risen. No byte
changes. The model's choices in it: log entry 51.
R83, R193: STFE writes its bytes into the scratchpad at once, sets the full-empty bit of their granule, whether it was set or
not, and its thread goes on; no other bit and no other byte changes. The one wait on the granule, if there is one, takes its
bytes and its thread goes on, and with .CLR the bit is empty again. The model's choices in it: log entry 51.
R83, R193, R275: LDFE and STFE at an address that is not aligned raise cause 0x12, in a version window cause 0x11, elsewhere
outside the scratchpad aperture cause 0x03 before any translation, and past the team's allocation cause 0x11 (R78). The model's
choices in it: log entry 58. -/
def Obligations.FullEmptyAccessesFollowTheirGranule : Prop :=
  (∀ (w : MWord) (s : State) (u : Issuing) (k : Nat) (t : Thread) (core off : Nat), IssuesFor s u (.ldfe w) 0 w.ctr.toNat k t →
     s.freshKey → s.poison = [] → (384 ≤ w.dst.toNat → ungathered (beginWord s u (.ldfe w)) u [k] = []) →
     let b := beginWord s u (.ldfe w)
     let n := sizeBytes w.size.toNat
     let g := granuleOf core off
     let bs := (addrs (onchipPa core off) n).map (memRead s.mem)
     (w.dst.toNat < 384 → w.dst.toNat + loadRegs w.size.toNat ≤ 384) →
     checkAperture b t (effectiveVa b t w) n = .ok (.scratch core off) →
     (∀ e o, (e, Op.granule o) ∈ s.ops → granuleOf o.core o.off ≠ g ∧ o.c.thread ≠ k) →
     (s.full.contains g = true → ∃ s', exec (.ldfe w) s = .next s' ∧ SameBytes s s' ∧ s'.ops = s.ops ∧
       s'.full = (if w.x then s.full.filter (· ≠ g) else s.full) ∧ GoesOnAt s' k ((wordAddr u.hdr u.pos + 8) % 2 ^ 64) ∧
       Receives s s' k w.dst.toNat (loadRegs w.size.toNat) (loadedValue w.size.toNat bs) ∧ SameCtrs s s' k) ∧
     (s.full.contains g = false → ∃ s' t', exec (.ldfe w) s = .next s' ∧ SameBytes s s' ∧ s'.full = s.full ∧
       Begins s s' k w.ctr.toNat (.granule
         ⟨⟨k, w.ctr.toNat⟩, s.nextKey, some w.dst.toNat, w.size.toNat, effectiveVa b t w, core, off, w.x⟩) ∧
       tget k s'.threads = some t' ∧ t'.state = .granule s.nextKey)) ∧
  (∀ (w : MWord) (s : State) (u : Issuing) (k : Nat) (t : Thread) (core off : Nat), IssuesFor s u (.stfe w) 0 w.ctr.toNat k t →
     s.poison = [] → (∀ e ∈ s.ops, ∀ j ∈ u.members, ∀ tgt, e.2.readsBytes j tgt (sizeBytes w.size.toNat) = false) →
     let b := beginWord s u (.stfe w)
     let n := sizeBytes w.size.toNat
     let data := storeData b t w
     let pa := onchipPa core off
     let g := granuleOf core off
     checkAperture b t (effectiveVa b t w) n = .ok (.scratch core off) → checkLocks b t (effectiveVa b t w) n true = .ok () →
     (∀ j, j < n → regionOf s (pa + j) = (core, .scratchpad (off + j))) →
     let written (s' : State) : Prop := (∀ j (h : j < data.length), memRead s'.mem (pa + j) = data[j]) ∧
       ∀ a, a < pa ∨ pa + n ≤ a → memRead s'.mem a = memRead s.mem a
     ((∀ e o, (e, Op.granule o) ∈ s.ops → granuleOf o.core o.off ≠ g) →
       ∃ s', exec (.stfe w) s = .next s' ∧ (∀ j, seen s' j = seen s j) ∧ written s' ∧ Onward s s' u ∧
         (∀ h, s'.full.contains h = (s.full.contains h || h = g)) ∧ rest { s' with mem := s.mem, full := s.full } = rest s) ∧
     ∀ id o x d, tget id s.ops = some (.granule o) → granuleOf o.core o.off = g → o.dst = some d →
       (d < 384 → d + loadRegs o.size ≤ 384) → tget o.c.thread s.threads = some x → x.state = .granule id →
       (∀ e y, (e, Op.granule y) ∈ s.ops → granuleOf y.core y.off = g → e = id) → tsorted s.ops = true →
       ∃ s', exec (.stfe w) s = .next s' ∧ written s' ∧ tget id s'.ops = none ∧ GoesOnAt s' o.c.thread x.pc ∧
         Receives s s' o.c.thread d (loadRegs o.size)
           (loadedValue o.size ((addrs (onchipPa o.core o.off) (sizeBytes o.size)).map (memRead s'.mem))) ∧
         ∀ h, s'.full.contains h = ((s.full.contains h || h = g) && !(h = g && o.clr))) ∧
  (∀ (i : Instr) (w : MWord) (s : State) (u : Issuing) (k : Nat) (t : Thread) (bad : Bad), i = .ldfe w ∨ i = .stfe w →
     IssuesFor s u i 0 w.ctr.toNat k t → s.poison = [] →
     (∀ e ∈ s.ops, ∀ j ∈ u.members, ∀ tgt, e.2.readsBytes j tgt (sizeBytes w.size.toNat) = false) →
     (∀ e o, (e, Op.granule o) ∈ s.ops → o.c.thread ≠ k) → (384 ≤ w.dst.toNat → ungathered (beginWord s u i) u [k] = []) →
     let b := beginWord s u i
     let va := effectiveVa b t w
     let n := sizeBytes w.size.toNat
     checkAperture b t va n = .error bad →
     (∃ s', exec i s = .next s' ∧ rest s' = rest s ∧ (∀ j, seen s' j = seen s j) ∧
       Trapped s' k bad.cause (wordAddr u.hdr u.pos) u.hdr bad.faddr bad.info) ∧
     bad = if va % n ≠ 0 then ⟨0x12, va, 0⟩
       else if (windowOf b t va).isSome then ⟨0x11, va, 0⟩
       else if va < apertureBase then ⟨0x03, 0, 0⟩ else ⟨0x11, va, 0⟩)

/-- R99, R100, R188, R194, R195: LDT and STT begin their tile when its checks pass: the counter rises, the rows and the packed
block are kept with the lines they are to lock, and STT has read its block; no byte changes until the tile commits. A failing
check stops the member with its cause, failing address and INFO (R297). -/
def Obligations.TilesBegin : Prop :=
  ∀ (i : Instr) (w : RWord) (s : State) (u : Issuing) (k : Nat) (t : Thread), i = .ldt w ∨ i = .stt w →
    IssuesFor s u i 0 w.ctr k t → s.freshKey → s.poison = [] → NoInterval s t.team →
    (i = .stt w → w.fbits 9 1 = 1 → releasePending s k (w.fbits 10 3) = false) →
    let b := beginWord s u i
    let loads := decide (i = .ldt w)
    let a := src64 b t w.a
    (∀ sh rows block, let vas := (List.range sh.rows).map (sh.row a)
      checkTile b t loads a (src64 b t w.b) (src64 b t w.c) = .ok (sh, rows, block) →
      let hbm := rows.any fun r => r.any fun p => p.1.isHbm
      ∃ s', exec i s = .next s' ∧ SameBytes s s' ∧
        Begins s { s' with teams := s.teams } k w.ctr (.tile ⟨⟨k, w.ctr⟩, u.core, t.ctx, t.team, a, vas, !loads, w.fbits 10 3,
          w.fbits 9 1 = 1, (s.clk, logicalCore s u.core), if hbm then .locking else .data, rows, block,
          if loads then [] else readPieces (memRead s.mem) b block, if hbm then tileLines vas rows else [], [], [],
          (u.hdr, wordAddr u.hdr u.pos)⟩) ∧
        Onward s s' u) ∧
    ∀ bad, checkTile b t loads a (src64 b t w.b) (src64 b t w.c) = .error bad →
      ∃ s', exec i s = .next s' ∧ rest { s' with teams := s.teams } = rest s ∧ (∀ j, seen s' j = seen s j) ∧
        Trapped s' k bad.cause (wordAddr u.hdr u.pos) u.hdr bad.faddr bad.info

/-- R87, R188, R196, R197: DISC begins to treat the sectors of its range, in rising order, when its checks pass, and takes the
trap of the first that fails; PREF begins to fetch its line, or is dropped and counts nothing. No byte changes as they issue. -/
def Obligations.DiscardsAndPrefetchesBegin : Prop :=
  (∀ (w : RWord) (s : State) (u : Issuing) (k : Nat) (t : Thread), IssuesFor s u (.disc w) 0 w.ctr k t → s.freshKey →
    s.poison = [] →
    let b := beginWord s u (.disc w)
    let check := checkDisc b t (src64 b t w.a) (src32 b t w.b)
    (∀ sectors, check = .ok sectors → sectors ≠ [] → ∃ s', exec (.disc w) s = .next s' ∧ SameBytes s s' ∧
      Begins s s' k w.ctr (.disc ⟨⟨k, w.ctr⟩, u.core, t.ctx, t.team, sectors⟩) ∧ Onward s s' u) ∧
    (check = .ok [] → ∃ s', exec (.disc w) s = .next s' ∧ rest s' = rest s ∧ (∀ j, seen s' j = seen s j) ∧ Onward s s' u) ∧
    ∀ bad, check = .error bad → ∃ s', exec (.disc w) s = .next s' ∧ rest s' = rest s ∧ (∀ j, seen s' j = seen s j) ∧
      Trapped s' k bad.cause (wordAddr u.hdr u.pos) u.hdr bad.faddr bad.info) ∧
  ∀ (w : MWord) (s : State) (u : Issuing) (k : Nat) (t : Thread), IssuesFor s u (.pref w) 0 w.ctr.toNat k t → s.freshKey →
    s.poison = [] →
    let b := beginWord s u (.pref w)
    let found := prefetchLine b t (effectiveVa b t w)
    (∀ line bypass, found = some (line, bypass) → missEntries s u.core < 1024 →
      ∃ s', exec (.pref w) s = .next s' ∧ SameBytes s s' ∧
        Begins s s' k w.ctr.toNat (.pref ⟨⟨k, w.ctr.toNat⟩, u.core, line, w.size = 0 && !bypass⟩) ∧ Onward s s' u) ∧
    (found = none ∨ missEntries s u.core = 1024 →
      ∃ s', exec (.pref w) s = .next s' ∧ rest s' = rest s ∧ (∀ j, seen s' j = seen s j) ∧ Onward s s' u)

/-- R102, R188, R198, R199, R200: ATOM and ATOM.FADD of a word of local HBM, a peer page or the scratchpad begin a request that
keeps operation, type, operands and destination until it is performed at its location; the counter rises by one, no byte
changes, and the thread goes on. R103, R187: a failed check stops the thread with its cause, and in a deterministic kernel
ATOM.FADD takes cause 0x31 where its address passes the checks before the range locks.
R102: the atomics of one issued word are aggregated: its members go in the order of member index and sr.tid, and there is one
request to each distinct address, in the order of its first member, with the operands of all members there; CAS and FADD send
one request a member. Every member's counter rises. -/
def Obligations.AtomicsBegin : Prop :=
  (∀ (i : Instr) (fadd : Bool) (w : RWord) (s : State) (u : Issuing) (k : Nat) (t : Thread),
     i = .atom w ∧ fadd = false ∨ i = .atomFadd w ∧ fadd = true →
     IssuesFor s u i 0 w.ctr k t → s.freshKey → s.poison = [] → NoInterval s t.team →
     let b := beginWord s u i
     let n := if fadd then (if w.fbits 8 2 = 1 then 8 else 4) else (atomTy (w.fbits 8 2)).width / 8
     let ops : Nat × Nat := if fadd then (srcValue b t (if w.fbits 8 2 = 1 then .f64 else .f32) w.b, 0) else atomOperands w b t
     let nr := decide (w.fbits 4 1 = 1)
     let scope := bits w.c.toNat 0 3
     let va := src64 b t w.a
     (∀ e ∈ s.ops, ∀ tgt, e.2.readsBytes k tgt n = false) → (2 ≤ w.fbits 6 2 → releasePending s k scope = false) →
     (384 ≤ w.dst.toNat → nr = false → ungathered b u [k] = []) →
     let stops (bad : Bad) : Prop := ∃ s', exec i s = .next s' ∧ rest s' = rest s ∧ (∀ j, seen s' j = seen s j) ∧
       Trapped s' k bad.cause (wordAddr u.hdr u.pos) u.hdr bad.faddr bad.info
     (∀ tgt, checkAtomic b t fadd va n = .ok (va, tgt) →
       ∃ s', exec i s = .next s' ∧ SameBytes s s' ∧ Onward s s' u ∧
         Begins s { s' with teams := s.teams } k w.ctr (.atom ⟨u.core, w.ctr, t.ctx, t.team, fadd, w.fbits 10 3, w.fbits 8 2, scope,
           w.fbits 6 2 % 2 = 1, nr, va, tgt, [⟨k, ops.1, ops.2, if nr then none else some w.dst.toNat⟩],
           (u.hdr, wordAddr u.hdr u.pos)⟩)) ∧
     (∀ bad, checkAtomic b t fadd va n = .error bad → stops bad) ∧
     (fadd = true → isDet b t = true → ∀ tgt, checkPlain b t needBoth false va n = .ok (va, false, tgt) →
       (∀ pa, tgt ≠ .onchip pa ∧ tgt ≠ .control pa) → stops ⟨0x31, 0, 0⟩) ∧
     (∀ tgt, checkPlain b t needBoth false va n = .ok (va, false, tgt) → (∀ pa, tgt ≠ .onchip pa ∧ tgt ≠ .control pa) →
       (fadd = false ∨ isDet b t = false) → checkLocks b t va n true = .ok () → checkAtomic b t fadd va n = .ok (va, tgt))) ∧
  (∀ (i : Instr) (fadd : Bool) (w : RWord) (s : State) (u : Issuing) (ctx team : Nat),
     i = .atom w ∧ fadd = false ∨ i = .atomFadd w ∧ fadd = true →
     Issues s u i 0 w.ctr → u.members.Nodup → s.freshKey → s.poison = [] → NoInterval s team →
     let b := beginWord s u i
     let n := if fadd then (if w.fbits 8 2 = 1 then 8 else 4) else (atomTy (w.fbits 8 2)).width / 8
     let operands (t : Thread) : Nat × Nat :=
       if fadd then (srcValue b t (if w.fbits 8 2 = 1 then .f64 else .f32) w.b, 0) else atomOperands w b t
     let nr := decide (w.fbits 4 1 = 1)
     let scope := bits w.c.toNat 0 3
     let check (t : Thread) := checkAtomic b t fadd (src64 b t w.a) n
     (∀ k ∈ actives s u i, ∃ t va tgt, tget k b.threads = some t ∧ t.ctx = ctx ∧ t.team = team ∧ check t = .ok (va, tgt)) →
     atomHold i w n s u = false → (384 ≤ w.dst.toNat → nr = false → ungathered b u (actives s u i) = []) →
     let ms : List (Nat × Target × AtomMember) := (memberOrder b (actives s u i)).filterMap fun k =>
       (tget k b.threads).bind fun t => match check t with
         | .ok (va, tgt) => some (va, tgt, ⟨k, (operands t).1, (operands t).2,
             if nr ∨ (384 ≤ w.dst.toNat ∧ k ∉ uniformWriters b (actives s u i)) then none else some w.dst.toNat⟩)
         | .error _ => none
     let request (va : Nat) (tgt : Target) (members : List AtomMember) : AtomOp :=
       ⟨u.core, w.ctr, ctx, team, fadd, w.fbits 10 3, w.fbits 8 2, scope, w.fbits 6 2 % 2 = 1, nr, va, tgt, members,
         (u.hdr, wordAddr u.hdr u.pos)⟩
     let rs : List AtomOp :=
       if fadd = true ∨ w.fbits 10 3 = 7 then ms.map fun m => request m.1 m.2.1 [m.2.2]
       else (ms.map (·.2.1)).eraseDups.filterMap fun tgt =>
         let mine := ms.filter fun m => m.2.1 = tgt
         mine.head?.map fun m => request m.1 tgt (mine.map (·.2.2))
     ∃ s', exec i s = .next s' ∧ SameBytes s s' ∧ Onward s s' u ∧ restOps { s' with teams := s.teams } = restOps s ∧
       (∀ j, seen s' j = if j ∈ actives s u i then (seen s j).map (·.raised w.ctr) else seen s j) ∧
       s'.nextKey = s.nextKey + rs.length ∧
       ∀ e, tget e s'.ops = if s.nextKey ≤ e then rs[e - s.nextKey]?.map Op.atom else tget e s.ops)

/-- R188, R201, R202, R246: CTB begins a contribution to a leaf of an open handle that this package owns, with its value;
CTBSEAL begins to seal a handle. A handle that the context does not have, or a leaf that is not this package's, is an illegal
operand, cause 0x03; a leaf map bit, or at the root a destination, in a version window of the thread raises cause 0x11 (R275).
-/
def Obligations.ContributionsBegin : Prop :=
  ∀ (i : Instr) (w : RWord) (s : State) (u : Issuing) (k : Nat) (t : Thread), i = .ctb w ∨ i = .ctbseal w →
    IssuesFor s u i 0 w.ctr k t → s.freshKey → NoInterval s t.team →
    let b := beginWord s u i
    let h := src32 b t w.a
    let leaf := src64 b t w.b
    let legal (hd : Handle) : Bool := decide (i = .ctbseal w) ||
      (leaf ≤ hd.nm1 && leaf / 2 ^ hd.plog = hd.prank && (w.fbits 4 2 ≠ 1 || hd.pairNodes))
    let window (hd : Handle) : Option Nat := if i = .ctb w then ctbWindow b t hd leaf else none
    let o : Op := if i = .ctb w then .ctb ⟨⟨k, w.ctr⟩, u.core, t.ctx, h, leaf, ctbValue b t w, false, (u.hdr, wordAddr u.hdr u.pos)⟩
      else .seal ⟨⟨k, w.ctr⟩, t.ctx, h⟩
    (∀ hd va, h < 1024 → tget (handleKey t.ctx h) s.handles = some hd → legal hd = true → window hd = some va →
      ∃ s', exec i s = .next s' ∧ rest s' = rest s ∧ (∀ j, seen s' j = seen s j) ∧
        Trapped s' k 0x11 (wordAddr u.hdr u.pos) u.hdr va 0) ∧
    (∀ hd, h < 1024 → tget (handleKey t.ctx h) s.handles = some hd → legal hd = true → window hd = none →
      ∃ s', exec i s = .next s' ∧ SameBytes s s' ∧ Begins s s' k w.ctr o ∧ Onward s s' u) ∧
    ((1024 ≤ h ∨ tget (handleKey t.ctx h) s.handles = none ∨
        ∃ hd, tget (handleKey t.ctx h) s.handles = some hd ∧ legal hd = false) →
      ∃ s', exec i s = .next s' ∧ rest s' = rest s ∧ (∀ j, seen s' j = seen s j) ∧
        Trapped s' k 0x03 (wordAddr u.hdr u.pos) u.hdr 0 0)

/-- R63, R92, R94 to R96, R204: WAIT reads the watched word at its scope's point once no earlier write of the thread to it is on
its way: where the condition then holds, the destination takes the value and the thread goes on with its counter as it was,
after .ACQ with a FENCE for the stores it may have read; where it does not, the thread waits in ADDRESS with its counter raised.
No byte at its home changes. The model's choices in it: log entry 52. -/
def Obligations.AddressWaitsHoldUntilTheirCondition : Prop :=
  ∀ (w : RWord) (s : State) (u : Issuing) (k : Nat) (t : Thread) (va : Nat) (bypass : Bool) (tgt : Target),
    IssuesFor s u (.wait w) 0 w.ctr k t → s.freshKey → s.poison = [] →
    (384 ≤ w.dst.toNat → ungathered (beginWord s u (.wait w)) u [k] = []) →
    let b := beginWord s u (.wait w)
    let ty := atomTy (w.fbits 11 2)
    (w.dst.toNat < 384 → w.dst.toNat + ty.regs ≤ 384) →
    checkPlain b t needBoth false (src64 b t w.a) (ty.width / 8) = .ok (va, bypass, tgt) →
    tgt.isHbm = true ∨ tgt.isScratch = true → checkLocks b t va (ty.width / 8) false = .ok () →
    let o : WaitOp := ⟨⟨k, w.ctr⟩, u.core, t.team, some w.dst.toNat, va, tgt, w.fbits 11 2, bits w.c.toNat 0 3,
      srcValue b t ty w.b, bits w.c.toNat 3 3, w.fbits 10 1 = 1⟩
    let v := waitValue b o
    let met := waitReady b s.nextKey o && intCond (bits w.c.toNat 0 3) (ty.intValue v) (ty.intValue (srcValue b t ty w.b))
    let scope := bits w.c.toNat 3 3
    let after := if w.fbits 10 1 = 1 then (visibleStores b u.core).filter fun id => !reached b (scopeLevel b t scope) id else []
    (met = true → ∃ s', exec (.wait w) s = .next s' ∧ SameHomes s s' ∧ s'.mem = s.mem ∧
      s'.ops = (if after = [] then s.ops else tset (s.nextKey + 1) (.fence ⟨k, 0, 3, scope, after⟩) s.ops) ∧
      GoesOnAt s' k ((wordAddr u.hdr u.pos + 8) % 2 ^ 64) ∧ Receives s s' k w.dst.toNat ty.regs v ∧ SameCtrs s s' k) ∧
    (met = false → ∃ s' t', exec (.wait w) s = .next s' ∧ SameBytes s s' ∧ Begins s s' k w.ctr (.wait o) ∧
      tget k s'.threads = some t' ∧ t'.state = .address s.nextKey)


/-! ## System, ring and engine words (R211 to R244) -/

/-- R212, R296: TRAP stops every thread whose predicate is true with the software trap, cause 0x70, INFO its n; nothing else
changes.
R213, R296: SYSRET in system mode names the trapped thread of its context whose record lies at A, frees its slot of the trap
ring, and disposes of it: .RETRY puts it at its stopping word, .SKIP behind it, .KILL ends it, .GOTO puts it at the clause
header in B. A record that names none, and a target that is no header, raise cause 0x03 and leave it trapped; user mode takes
cause 0x11. The model's choices in it: log entry 41. -/
def Obligations.TrapsAndReturnsFromTraps : Prop :=
  (∀ (w : RWord) (s : State) (u : Issuing), Issues s u (.trap w) 0 7 →
     ∃ s', exec (.trap w) s = .next s' ∧ rest s' = rest s ∧ SameBytes s s' ∧ (∀ j, seen s' j = seen s j) ∧
       ∀ k ∈ actives s u (.trap w), Trapped s' k 0x70 (wordAddr u.hdr u.pos) u.hdr 0 (bits w.c.toNat 0 8)) ∧
  (∀ (w : RWord) (s : State) (u : Issuing) (k : Nat) (t : Thread), IssuesFor s u (.sysret w) 0 7 k t → s.sorted →
     u.members = [k] → t.state = .issuing → Calm s →
     let b := beginWord s u (.sysret w)
     let va := src64 b t w.a
     let action := bits w.c.toNat 0 2
     let found := trappedAt b t.ctx va
     let target := src64 b t w.b
     ∃ s', exec (.sysret w) s = .next s' ∧
       (t.sys = false ∨ found = none ∨ (action = 3 ∧ ∃ k' t' i, found = some (k', t', i) ∧ targetLegal b t' target = false) →
         rest s' = rest s ∧ (∀ j, seen s' j = seen s j) ∧
         Trapped s' k (if t.sys then 0x03 else 0x11) (wordAddr u.hdr u.pos) u.hdr 0 0 ∧
         ∀ k' t' i, found = some (k', t', i) →
           ∃ x, tget k' s'.threads = some x ∧ x.state = .trapped ∧ x.trap = some i ∧ x.trapSlot = t'.trapSlot) ∧
       ∀ k' t' i, t.sys = true → found = some (k', t', i) → (action = 3 → targetLegal b t' target = true) →
         let resumed (hdr : Nat) (pos : Option Nat) : Prop := GoesOnAt s' k' hdr ∧
           rest { s' with contexts := s.contexts } = rest s ∧ (∀ j, seen s' j = seen s j) ∧
           ∃ x, tget k' s'.threads = some x ∧ x.trap = none ∧ x.trapSlot = none ∧ x.resume = pos.map (fun p => (hdr, p)) ∧
             x.step = recordStep b (coreOf b t) t.ctx va ∧ (pos.isSome → x.state = .ready)
         Onward s s' u ∧
         (∀ c slot, t'.trapSlot = some slot → tget t.ctx s'.contexts = some c → tget slot c.trapSlots = none) ∧
         (action = 0 → resumed i.hdr (if i.pc = i.hdr then none else some (stopPosition i))) ∧
         (action = 1 → ∀ h, fetchCode b t' i.hdr = .ok h →
           let count := (Header.decode (BitVec.ofNat 64 h)).count.toNat
           if i.pc = i.hdr ∨ count ≤ stopPosition i then resumed (nextClause i.hdr count) none
           else ∀ x, fetchCode b t' i.pc = .ok x →
             if isTransferWord (Header.decode (BitVec.ofNat 64 h)).cls x then resumed (nextClause i.hdr count) none
             else resumed i.hdr (some (stopPosition i + 1))) ∧
         (action = 2 → ∀ x, tget k' s'.threads = some x → x.state = .exited) ∧
         (action = 3 → resumed target none))

/-- R214, R215, R17: SRD gives, after four clk, the special register that its code names, sr.core as the launch numbers the
cores, in v registers or in g registers of a whole group; a code from 0x40 in user mode takes the permission trap, cause 0x11,
and writes nothing.
R214, R215: SWR in system mode sets the checking scoreboard of its context, or the cage timeout of its core where the value is
at least 16; a smaller one raises cause 0x03, user mode cause 0x11, and neither writes anything.
R216: RINV, once its release at .dev is complete, is accepted with its range and its barrier object, and counts nothing more; a
base or length that is no multiple of 256 raises cause 0x12, a length outside 256 to 2^40 cause 0x03. The model's choices in it:
log entry 55. -/
def Obligations.SpecialRegistersAndPurges : Prop :=
  (∀ (w : RWord) (s : State) (u : Issuing) (k g : Nat) (t : Thread) (gr : Group) (tm : Team) (l : Launch) (c : Context),
     IssuesFor s u (.srd w) 4 7 k t → (384 ≤ w.dst.toNat → ungathered (beginWord s u (.srd w)) u [k] = []) →
     t.group = some g → tget g s.groups = some gr →
     tget t.team s.teams = some tm → tget t.launch s.launches = some l → tget t.ctx s.contexts = some c →
     let code := bits w.c.toNat 0 8
     let table : List (Nat × Nat × Nat) := [(0x00, 2, t.tid % 2 ^ 64), (0x01, 1, t.member), (0x02, 1, t.srGroup),
       (0x03, 2, tm.index), (0x04, 2, l.id), (0x05, 1, logicalIn tm.numbering gr.core), (0x06, 2, (s.clk - s.readyAt) % 2 ^ 64),
       (0x07, 1, t.ctx), (0x08, 1, t.srVersion), (0x09, 2, gr.live), (0x0A, 1, t.draw), (0x0B, 1, if t.sys then 1 else 0),
       (0x40, 1, if c.schk then 1 else 0), (0x41, 1, (s.core gr.core).cageTmo)]
     ∃ s', exec (.srd w) s = .next s' ∧ restFixed s' = restFixed s ∧ SameBytes s s' ∧ (∀ j, seen s' j = seen s j) ∧
       if 0x40 ≤ code ∧ t.sys = false then s'.fixed = s.fixed ∧ Trapped s' k 0x11 (wordAddr u.hdr u.pos) u.hdr 0 0
       else Onward s s' u ∧ ∀ e ∈ table, e.1 = code → Queues s s' u 4 ((List.range e.2.1).map fun i =>
         if w.dst.toNat < 384 then .v k (w.dst.toNat + i) (BitVec.ofNat 32 (e.2.2 / 2 ^ (32 * i)))
         else .g g (w.dst.toNat + i - 384) (BitVec.ofNat 32 (e.2.2 / 2 ^ (32 * i))))) ∧
  (∀ (w : RWord) (s : State) (u : Issuing) (k : Nat) (t : Thread), IssuesFor s u (.swr w) 0 7 k t →
     let b := beginWord s u (.swr w)
     let v := src32 b t w.a
     let sysCheck := decide (bits w.c.toNat 0 8 = 0x40)
     ∃ s', exec (.swr w) s = .next s' ∧ SameBytes s s' ∧ (∀ j, seen s' j = seen s j) ∧
       if t.sys = false then rest s' = rest s ∧ Trapped s' k 0x11 (wordAddr u.hdr u.pos) u.hdr 0 0
       else if sysCheck then Onward s s' u ∧ rest { s' with contexts := s.contexts } = rest s ∧
         (∀ c, tget t.ctx s.contexts = some c → tget t.ctx s'.contexts = some { c with schk := v % 2 = 1 }) ∧
         ∀ x, x ≠ t.ctx → tget x s'.contexts = tget x s.contexts
       else if v % 2 ^ 16 < 16 then rest s' = rest s ∧ Trapped s' k 0x03 (wordAddr u.hdr u.pos) u.hdr 0 0
       else Onward s s' u ∧ rest { s' with cores := s.cores } = rest s ∧
         s'.core (coreOf b t) = { s.core (coreOf b t) with cageTmo := v % 2 ^ 16 } ∧
         ∀ x, x ≠ coreOf b t → s'.core x = s.core x) ∧
  (∀ (w : RWord) (s : State) (u : Issuing) (k : Nat) (t : Thread), IssuesFor s u (.rinv w) 0 w.ctr k t → s.freshKey →
     NoInterval s t.team → releasePending s k 4 = false →
     let b := beginWord s u (.rinv w)
     let base := src64 b t w.a
     let len := src64 b t w.b
     let trapped (bad : Bad) : Prop := ∃ s', exec (.rinv w) s = .next s' ∧ rest s' = rest s ∧ (∀ j, seen s' j = seen s j) ∧
       Trapped s' k bad.cause (wordAddr u.hdr u.pos) u.hdr bad.faddr bad.info
     (∀ tgt, checkRinv b t base len (src64 b t w.c) = .ok tgt →
       ∃ s', exec (.rinv w) s = .next s' ∧ SameBytes s s' ∧ (∀ j, seen s' j = seen s j) ∧
         s'.ops = tset s.nextKey (.rinv ⟨⟨k, w.ctr⟩, u.core, t.ctx, base, len, tgt, src64 b t w.c, (u.hdr, wordAddr u.hdr u.pos)⟩) s.ops ∧ s'.nextKey = s.nextKey + 1 ∧
         restOps { s' with teams := s.teams } = restOps s ∧ Onward s s' u) ∧
     (base % 256 ≠ 0 ∨ len % 256 ≠ 0 → trapped ⟨0x12, base, 0⟩) ∧
     (base % 256 = 0 → len % 256 = 0 → len < 256 ∨ 2 ^ 40 < len → trapped ⟨0x03, 0, 0⟩))

/-- R218, R235, R236, R237, R238, R267: RGRES and RGTAKE add one to the index word RES or TAKE of their ring and receive the
index it held: at once where the slot's sequence word has the value they wait for (and the record met its deadline), else when
it has. A descriptor or slot that fails its checks, and an RGTAKE of a ring whose STAGE is 64 to 0xFFFE, stop the thread and
take no index.
R238: a waiting RGTAKE whose record is published and has missed its stage's deadline adds one to the stage's count of misses.
Where the ring names no expiry ring, it completes the record and takes the next index; where it does, it takes an index of that
ring and waits for its slot to be free, then moves the record there with its ARR and publishes it, and completes and takes as
before.
R218, R237: RGPUB writes the slot's ARR, the clk since READY was set, and then its sequence word, index + 1; RGDONE writes index
+ the number of slots. A sequence word that does not hold the value expected raises cause 0x03 and nothing is written; a
descriptor or slot that fails its checks stops the thread with their cause. -/
def Obligations.RingsAreTakenPublishedAndCompleted : Prop :=
  (∀ (i : Instr) (kind : RingKind) (w : RWord) (s : State) (u : Issuing) (k : Nat) (t : Thread),
     (i = .rgres w ∧ kind = .res ∨ i = .rgtake w ∧ kind = .take) → IssuesFor s u i 0 w.ctr k t →
     (384 ≤ w.dst.toNat → ungathered (beginWord s u i) u [k] = []) → (w.dst.toNat < 384 → w.dst.toNat + 2 ≤ 384) →
     Calm s → NoInterval s t.team → ringHold i false w s u = false →
     let b := beginWord s u i
     let die := dieOfCore u.core
     let trapped (bad : Bad) : Prop := ∃ s', exec i s = .next s' ∧ rest s' = rest s ∧ (∀ j, seen s' j = seen s j) ∧
       Trapped s' k bad.cause (wordAddr u.hdr u.pos) u.hdr bad.faddr bad.info
     (∀ bad, readRing b t (src64 b t w.a) = .error bad → trapped bad) ∧
     ∀ r, readRing b t (src64 b t w.a) = .ok r →
       let word := (r.desc + if kind = .res then 0 else 8) % 2 ^ 64
       let index := (devWord b die t.ctx word 8).getD 0
       let o : RingOp := ⟨kind, ⟨k, w.ctr⟩, u.core, t.ctx, some w.dst.toNat, r, index, none, (u.hdr, wordAddr u.hdr u.pos)⟩
       let added := devWrite b die t.ctx word (leBytes 8 ((index + 1) % 2 ^ 64))
       let e := countAt ((raiseCtr added ⟨k, w.ctr⟩).beginOp (.ring o)) die t.ctx word
       let granted := decide (ringSeq e die t.ctx r index = some (if kind = .res then index else (index + 1) % 2 ^ 64))
       (kind = .take → 64 ≤ r.stage → r.stage ≠ 0xFFFF → trapped ⟨0x03, 0, 0⟩) ∧
       ((kind = .take → r.stage < 64 ∨ r.stage = 0xFFFF) →
         (∀ bad, checkSlot b t r index = .error bad → trapped bad) ∧
         (checkSlot b t r index = .ok () → (granted = true → kind = .take → deadlineMissed e die t.ctx r index = false) →
           o.held e = false → o.lost e = none →
           ∃ s', exec i s = .next s' ∧ (∀ a, homeByte s' a = homeByte added a) ∧ s'.nextKey = s.nextKey + 1 ∧ Onward s s' u ∧
             (granted = true → s'.ops = [] ∧ Receives s s' k w.dst.toNat 2 index ∧ SameCtrs s s' k) ∧
             (granted = false →
               s'.ops = [(s.nextKey, .ring o)] ∧
               ∀ j, seen s' j = if j = k then (seen s k).map (·.raised w.ctr) else seen s j)))) ∧
  (∀ (s : State) (id : Nat) (o : RingOp), tget id s.ops = some (.ring o) → NoWriters s (o.team s) → o.kind = .take →
     let die := dieOfCore o.core
     let word (s : State) (va : Nat) : Nat := (devWord s die o.ctx (va % 2 ^ 64) 8).getD 0
     let put (s : State) (va v : Nat) : State := devWrite s die o.ctx (va % 2 ^ 64) (leBytes 8 (v % 2 ^ 64))
     let completed (s : State) : State := put s (o.ring.slot o.index) (o.index + 2 ^ o.ring.logn)
     let takes (e s' : State) : Prop := let j := word e (o.ring.desc + 8)
       (∀ a, homeByte s' a = homeByte (put e (o.ring.desc + 8) (j + 1)) a) ∧
         tget id s'.ops = some (.ring { o with index := j, moving := none })
     (o.moving = none → ringSeq s die o.ctx o.ring o.index = some ((o.index + 1) % 2 ^ 64) →
       deadlineMissed s die o.ctx o.ring o.index = true →
       let miss := stageVa s o.ctx o.ring.stage + 16
       let counted := put s miss (word s miss + 1)
       ∃ s', serveRing s id o = some s' ∧
         (expiryRing counted die o.ctx o.ring = none → takes (completed counted) s') ∧
         ∀ x, expiryRing counted die o.ctx o.ring = some x →
           (∀ a, homeByte s' a = homeByte (put counted x.desc (word counted x.desc + 1)) a) ∧
           tget id s'.ops = some (.ring { o with moving := some (x, word counted x.desc) })) ∧
     ∀ x j, o.moving = some (x, j) →
       (ringSeq s die o.ctx x j ≠ some j → serveRing s id o = none) ∧
       (ringSeq s die o.ctx x j = some j →
         let record := (devRead s die o.ctx ((o.ring.slot o.index + 16) % 2 ^ 64) (2 ^ o.ring.slog - 16)).getD []
         let moved := devWrite s die o.ctx ((x.slot j + 16) % 2 ^ 64) record
         ∃ s', serveRing s id o = some s' ∧
           takes (completed (put (put moved (x.slot j + 8) (word s (o.ring.slot o.index + 8))) (x.slot j) (j + 1))) s')) ∧
  (∀ (i : Instr) (publish : Bool) (w : RWord) (s : State) (u : Issuing) (k : Nat) (t : Thread),
     (i = .rgpub w ∧ publish = true ∨ i = .rgdone w ∧ publish = false) → IssuesFor s u i 0 w.ctr k t →
     Calm s → NoInterval s t.team → NoWriters s t.team → ringHold i true w s u = false →
     let b := beginWord s u i
     let die := dieOfCore u.core
     let index := src64 b t w.b
     let trapped (bad : Bad) : Prop := ∃ s', exec i s = .next s' ∧ rest s' = rest s ∧ (∀ j, seen s' j = seen s j) ∧
       Trapped s' k bad.cause (wordAddr u.hdr u.pos) u.hdr bad.faddr bad.info
     (∀ bad, readRing b t (src64 b t w.a) = .error bad → trapped bad) ∧
     ∀ r, readRing b t (src64 b t w.a) = .ok r →
       (∀ bad, checkSlot b t r index = .error bad → trapped bad) ∧
       (checkSlot b t r index = .ok () →
         let expected := some (if publish then index else (index + 1) % 2 ^ 64)
         (ringSeq b die t.ctx r index ≠ expected → trapped ⟨0x03, 0, 0⟩) ∧
         (ringSeq b die t.ctx r index = expected → ∃ s', exec i s = .next s' ∧ (∀ j, seen s' j = seen s j) ∧ s'.ops = [] ∧
           Onward s s' u ∧
           let e := if publish then devWrite b die t.ctx ((r.slot index + 8) % 2 ^ 64) (leBytes 8 ((s.clk - s.readyAt) % 2 ^ 64)) else b
           let v := if publish then index + 1 else index + 2 ^ r.logn
           ∀ a, homeByte s' a = homeByte (devWrite e die t.ctx (r.slot index) (leBytes 8 (v % 2 ^ 64))) a)))

/-- R185, R218, R239, R264: NREC creates one relay thread for the entry of its launch's relay table whose DESC is A: v0 to v3
hold the record, its entry is the relay's, and it waits for the relay's batch count or timer; the member's spawn count and
counter rise by one. A descriptor that is in no entry raises cause 0x03.
R217, R218, R240: BWPUSH stages one record for the group's grid: descriptor, argument, launch id, team, group, and zeros;
nothing else that a program can read changes.
R94, R95, R241, R274, R275: WVER of an open channel and a version that its ring of four holds, NEWEST − 3 to NEWEST, gives the
member's reads of the channel's window that version from now on, at VB + (v mod 4) × STRIDE, and sr.version v after two clk, an
acquire at .dev; any other raises cause 0x03 and leaves the selection. -/
def Obligations.RelaysRecordsAndVersions : Prop :=
  (∀ (w : RWord) (s : State) (u : Issuing) (k : Nat) (t : Thread), IssuesFor s u (.nrec w) 0 w.ctr k t → s.freshKey →
     NoInterval s t.team → fenceHold s u = false → releasePending s k 4 = false →
     let b := beginWord s u (.nrec w)
     let found := relayAt b t (src64 b t w.a)
     (found = none → ∃ s', exec (.nrec w) s = .next s' ∧ rest s' = rest s ∧ (∀ j, seen s' j = seen s j) ∧
       Trapped s' k 0x03 (wordAddr u.hdr u.pos) u.hdr 0 0) ∧
     ∀ r, found = some r → ∃ s', exec (.nrec w) s = .next s' ∧ SameBytes s s' ∧ Onward s s' u ∧
       (∀ j, j ≠ k → j ≠ s.nextKey → seen s' j = seen s j) ∧
       (∃ c, tget s.nextKey s'.threads = some c ∧ c.state = .caged ∧ c.pc = r.k.entry ∧ c.child = true ∧ c.team = t.team ∧
         c.launch = t.launch ∧ c.ctx = t.ctx ∧ c.tid = mix64 (t.tid % 2 ^ 64 ^^^ mix64 (t.spawns + 1)) ||| 2 ^ 63 ∧
         (∀ n, n < 4 → tgetD n 0 c.regs = readReg b t (w.b.toNat + n)) ∧ ∀ n, 4 ≤ n → tgetD n 0 c.regs = 0) ∧
       (∃ e, tget (s.nextKey + 1) s'.entrants = some e ∧ e.thread = s.nextKey ∧ e.core = coreOf b t ∧ e.entry = r.k.entry ∧
         e.count = r.batch ∧ e.timeout = r.btmo ∧ e.k = r.k ∧ e.since = s.clk) ∧
       seen s' k = (seen s k).map fun v => { v.raised w.ctr with spawns := (v.spawns + 1) % 2 ^ 32 }) ∧
  (∀ (w : RWord) (s : State) (u : Issuing) (k g : Nat) (t : Thread) (tm : Team) (l : Launch),
     IssuesFor s u (.bwpush w) 0 w.ctr k t → t.group = some g → tget t.team s.teams = some tm → tget t.launch s.launches = some l →
     NoInterval s t.team → fenceHold s u = false → releasePending s k 4 = false →
     let b := beginWord s u (.bwpush w)
     let record := leBytes 8 (src64 b t w.a) ++ leBytes 8 (src64 b t w.b) ++ leBytes 8 l.id ++ leBytes 8 tm.index
       ++ leBytes 4 t.srGroup ++ List.replicate 28 0
     ∃ s', exec (.bwpush w) s = .next s' ∧ SameBytes s s' ∧ Onward s s' u ∧ (∀ j, seen s' j = seen s j) ∧
       rest { s' with teams := s.teams } = rest s ∧
       ∃ l', tget t.launch s'.launches = some l' ∧ l'.staged = l.staged ++ [(tm.index, t.srGroup, record)]) ∧
  (∀ (w : RWord) (s : State) (u : Issuing) (k : Nat) (t : Thread), IssuesFor s u (.wver w) 2 7 k t → t.state = .issuing →
     NoInterval s t.team → fenceHold s u = false → s.poison = [] →
     let b := beginWord s u (.wver w)
     let ch := bits w.c.toNat 0 3
     let v := src32 b t w.a
     let held (e : VersionEntry) : Prop := e.isOpen = true ∧ e.newest - 3 ≤ v ∧ v ≤ e.newest
     ((∀ e, readVersionEntry b t.ctx ch = some e → ¬held e) →
       ∃ s', exec (.wver w) s = .next s' ∧ rest s' = rest s ∧ (∀ j, seen s' j = seen s j) ∧
         Trapped s' k 0x03 (wordAddr u.hdr u.pos) u.hdr 0 0) ∧
     ∀ e, readVersionEntry b t.ctx ch = some e → held e →
       let after := (visibleStores b (coreOf b t)).filter fun id => !reached b (scopeLevel b t 4) id
       ∃ s', exec (.wver w) s = .next s' ∧ restFixed { s' with l1 := s.l1, ops := s.ops } = restFixed s ∧ Onward s s' u ∧
         s'.ops = (if after = [] then s.ops else tset s.nextKey (.fence ⟨k, 0, 3, 4, after⟩) s.ops) ∧
         s'.fixed = tset (s.nextKey + if after = [] then 0 else 1) ⟨portKey u.core u.bay u.port, u.pos, s.clk + 2, [.version k v]⟩ s.fixed ∧ (∀ j, j ≠ k → seen s' j = seen s j) ∧
         seen s' k = (seen s k).map fun x => { x with versions :=
           ⟨ch, e.win, e.len, (e.vb + v % 4 * e.stride) % 2 ^ 64, v⟩ :: x.versions.filter (·.ch ≠ ch) })

/-- R107, R108, R109, R112, R217, R218, R219: MMUL, MMERGE and MDRAIN post one command for the group: it takes a free entry of
the quad's table with the next sequence number, captures the group's configuration, its operation and its predecessors, raises
the counter and gives its identifier, seq × 64 + entry. A failing check stops the member and posts nothing. The model's choices
in it: log entries 65, 66.
R112, R226: MCFG replaces the selector that C names, 0 to 3, of its group's configuration record by A, where the bits that the
selector reserves are zero, and changes nothing else; any other selector or value raises cause 0x03 and writes nothing. -/
def Obligations.MatrixCommandsAndConfigurations : Prop :=
  (∀ (i : Instr) (w : RWord) (check : State → Nat → Thread → Except Bad MatrixPlan) (s : State) (u : Issuing) (k g : Nat)
     (t : Thread) (gr : Group), matrixForm i = some (w, check) → IssuesFor s u i 0 w.ctr k t → t.group = some g →
     tget g s.groups = some gr → (384 ≤ w.dst.toNat → ungathered (beginWord s u i) u [k] = []) → fenceHold s u = false →
     s.rangeLocks = [] → s.poison = [] →
     let b := beginWord s u i
     let quad := quadOfCore u.core
     (quadEntries s quad).length < 32 →
     (∀ bad, check b k t = .error bad → ∃ s', exec i s = .next s' ∧ rest s' = rest s ∧ (∀ j, seen s' j = seen s j) ∧
       Trapped s' k bad.cause (wordAddr u.hdr u.pos) u.hdr bad.faddr bad.info) ∧
     ∀ p, check b k t = .ok p → ∃ s' n e, exec i s = .next s' ∧ n < 64 ∧ tget (matrixKey quad n) s.matrix = none ∧
       tget (matrixKey quad n) s'.matrix = some e ∧ e.entry = n ∧ e.seq = tgetD (matrixKey quad n) 0 s.matrixSeq % 1023 + 1 ∧
       e.cfg = gr.cfg ∧ e.kind = p.kind ∧ e.preds = p.preds ∧ e.ctx = t.ctx ∧ e.team = t.team ∧ e.poster = k ∧ e.core = u.core ∧
       e.counted = [⟨k, w.ctr⟩] ∧ e.age.1 = s.clk ∧ e.cores = (if p.pair then [(pairOfCore u.core).1, (pairOfCore u.core).2]
         else [u.core]) ∧
       (∀ c, c ∈ (lockCores b t) → (lockCores b t).Nodup →
         (tgetD c [] s'.rangeLocks).map (fun x => (x.2.lo, x.2.hi, x.2.write)) = p.locks) ∧
       SameBytes s s' ∧ Onward s s' u ∧
       (∀ x y, seen s k = some x → seen s' k = some y → ∀ c, tgetD c 0 y.ctrs = tgetD c 0 (x.raised w.ctr).ctrs) ∧
       Receives (match p.kind with
         | .mdrain _ rnd _ _ _ _ _ => if rnd = 4 then advanceDraw s [k] else s
         | _ => s) s' k w.dst.toNat 1 (e.seq * 64 + n)) ∧
  (∀ (w : RWord) (s : State) (u : Issuing) (k g : Nat) (t : Thread) (gr : Group), IssuesFor s u (.mcfg w) 0 7 k t →
     t.group = some g → tget g s.groups = some gr → fenceHold s u = false →
     let v := src64 (beginWord s u (.mcfg w)) t w.a
     let limits : List Nat := [2 ^ 16, 2 ^ 24, 2 ^ 64, 2 ^ 3]
     let x := BitVec.ofNat 64 v
     let records : List MatrixCfg := [{ gr.cfg with sel0 := x }, { gr.cfg with sel1 := x }, { gr.cfg with sel2 := x },
       { gr.cfg with sel3 := x }]
     ∃ s', exec (.mcfg w) s = .next s' ∧ (∀ j, seen s' j = seen s j) ∧ SameBytes s s' ∧
       ((∃ n, limits[w.c.toNat]? = some n ∧ v < n) → Onward s s' u ∧ rest { s' with groups := s.groups } = rest s ∧
         (∀ c, records[w.c.toNat]? = some c → tget g s'.groups = some { gr with cfg := c }) ∧
         ∀ h, h ≠ g → tget h s'.groups = tget h s.groups) ∧
       ((∀ n, limits[w.c.toNat]? = some n → n ≤ v) → rest s' = rest s ∧
         Trapped s' k 0x03 (wordAddr u.hdr u.pos) u.hdr 0 0))

/-- R97, R217, R218, R219, R227: CPY and CPYT post one copy for the group, with its rows, the pages captured for them and its
barrier; source and destination spans are locked, the counter rises, and no byte is written as they issue. A copy of length 0
posts nothing; a failing check stops the member and posts nothing. The model's choices in it: log entries 61, 64. -/
def Obligations.CopiesArePosted : Prop :=
  ∀ (i : Instr) (w : RWord) (check : State → Nat → Thread → Except Bad CopyPlan) (s : State) (u : Issuing) (k g : Nat)
    (t : Thread), (i = .cpy w ∧ check = checkCpy w ∨ i = .cpyt w ∧ check = checkCpyt w) → IssuesFor s u i 0 w.ctr k t →
    t.group = some g → s.freshKey → NoInterval s t.team → s.ops = [] → s.rangeLocks = [] → s.poison = [] →
    let b := beginWord s u i
    let barrier := if w.c.toNat / 32 % 2 = 1 then some (w.c.toNat % 32) else none
    (∀ bad, check b k t = .error bad → ∃ s', exec i s = .next s' ∧ rest s' = rest s ∧ (∀ j, seen s' j = seen s j) ∧
      Trapped s' k bad.cause (wordAddr u.hdr u.pos) u.hdr bad.faddr bad.info) ∧
    (∀ p, check b k t = .ok p → p.rows = [] → ∃ s', exec i s = .next s' ∧ s'.ops = [] ∧
      (barrier = none → rest s' = rest s ∧ ∀ j, seen s' j = seen s j)) ∧
    (∀ p, check b k t = .ok p → p.rows ≠ [] → ∃ s' o, exec i s = .next s' ∧ s'.ops = [(s.nextKey, .copy o)] ∧
      Onward s s' u ∧ o.rows = p.rows ∧ o.pieces = p.rows ∧ o.failed = [] ∧ o.dst = p.dst ∧ o.src = p.src ∧ o.barrier = barrier ∧ o.cs = [⟨k, w.ctr⟩] ∧ o.poster = k ∧
      o.total = (p.rows.map fun r => r.2.2).sum ∧ o.status = 0 ∧ SameBytes s s' ∧
      (∀ c, c ∈ lockCores b t → (lockCores b t).Nodup →
        (tgetD c [] s'.rangeLocks).map (fun x => (x.2.lo, x.2.hi, x.2.write)) = p.locks) ∧
      ∀ j, seen s' j = if j = k then (seen s k).map (·.raised w.ctr) else seen s j) ∧
    (i = .cpy w → ∀ p, check b k t = .ok p →
      let (d, a) := src128 b t w.a
      let n := src32 b t w.b
      p.rows = (if n = 0 then [] else [(d, a, n)]) ∧ d % 4 = 0 ∧ a % 4 = 0 ∧ n % 4 = 0 ∧ (n = 0 ∨ d + n ≤ a ∨ a + n ≤ d))

/-- R217 to R219, R230, R231, R254: FSEND and FMCAST post one command for the group and send the source's bytes in packets of up
to 64 flits with consecutive sequence numbers, and the flag with REL, from the issuing die's port: one copy of each packet
carries every route of an FMCAST as far as the routes agree, and the flag names the data packets that it follows; the command
awaits one acknowledgement for each packet on each route. The model's choices in it: log entries 67, 69, 111.
R217 to R219, R230, R232, R233: FRED and FSPARSE post one contribution for the group: its leaves by unit of the channel, its
operation and its contributor; an FSPARSE list whose indices do not ascend below NELEM posts an absent contribution with status
6. The model's choices in it: log entry 67. -/
def Obligations.FabricCommandsArePosted : Prop :=
  (∀ (i : Instr) (w : RWord) (check : State → Nat → Thread → Except Bad FabricPlan) (s : State) (u : Issuing) (k g : Nat)
     (t : Thread), (i = .fsend w ∧ check = checkFsend w ∨ i = .fmcast w ∧ check = checkFmcast w) →
     IssuesFor s u i 0 w.ctr k t → t.group = some g → s.freshKey → NoInterval s t.team → s.ops = [] → s.rangeLocks = [] →
     s.poison = [] →
     let b := beginWord s u i
     (∀ bad, check b k t = .error bad → ∃ s', exec i s = .next s' ∧ rest s' = rest s ∧ (∀ j, seen s' j = seen s j) ∧
       Trapped s' k bad.cause (wordAddr u.hdr u.pos) u.hdr bad.faddr bad.info) ∧
     ∀ p, check b k t = .ok p →
       let parts := ceilDiv p.len 4096
       let seq := tgetD (channelKey t.ctx p.ch) 0 s.seqs
       let bytes := sourceBytes b t.team p
       ∃ s' o, exec i s = .next s' ∧ s'.ops = [(s.nextKey, .fabric o)] ∧ o.poster = k ∧ o.cs = [⟨k, w.ctr⟩] ∧ o.ctx = t.ctx ∧
         o.ch = p.ch ∧ o.acks = p.routes.length * (parts + if p.rel then 1 else 0) ∧ o.packets = [] ∧ Onward s s' u ∧
         (∀ n, n < parts → ∃ key f, tget key s'.packets = some f ∧ f.input = 24 + dieOfCore u.core ∧
           f.packet.route :: f.packet.also = p.routes.map routeTurns ∧ f.packet.cmd = s.nextKey ∧
           f.packet.seq = (seq + n) % 2 ^ 32 ∧
           f.packet.body = .data (p.off + 4096 * n) ((bytes.drop (4096 * n)).take 4096)) ∧
         (p.rel = true → ∃ key f, tget key s'.packets = some f ∧ f.packet.route :: f.packet.also = p.routes.map routeTurns ∧
           f.packet.cmd = s.nextKey ∧ f.packet.seq = (seq + parts) % 2 ^ 32 ∧ 
           f.packet.body = .flag (p.routes.flatMap fun r => (List.range parts).map fun n => ((seq + n) % 2 ^ 32, routeTurns r))) ∧
         tgetD (channelKey t.ctx p.ch) 0 s'.seqs = (seq + parts + if p.rel then 1 else 0) % 2 ^ 32 ∧ SameBytes s s' ∧
         ∀ j, seen s' j = if j = k then (seen s k).map (·.raised w.ctr) else seen s j) ∧
  (∀ (i : Instr) (w : RWord) (oper : Nat) (s : State) (u : Issuing) (k g : Nat) (t : Thread),
     (i = .fred w ∧ oper = w.fbits 10 3 ∨ i = .fsparse w ∧ oper = 4) → IssuesFor s u i 0 w.ctr k t → t.group = some g →
     s.freshKey → NoInterval s t.team → s.ops = [] → s.rangeLocks = [] → s.poison = [] →
     let b := beginWord s u i
     let check := checkContribution w oper b k t
     (∀ bad, check = .error bad → ∃ s', exec i s = .next s' ∧ rest s' = rest s ∧ (∀ j, seen s' j = seen s j) ∧
       Trapped s' k bad.cause (wordAddr u.hdr u.pos) u.hdr bad.faddr bad.info) ∧
     ∀ p, check = .ok p →
       let found := contributionUnits p.chan oper p.off (sourceBytes b t.team p)
       ∃ s' o, exec i s = .next s' ∧ s'.ops = [(s.nextKey, .fabric o)] ∧ o.poster = k ∧ o.cs = [⟨k, w.ctr⟩] ∧ o.oper = oper ∧
         Onward s s' u ∧
         o.contributor = src32 b t w.c ∧ o.pend = found.1 ∧ (found.2.isSome → o.status = 6) ∧ (found.2 = none → o.status = 0) ∧
         s'.packets = s.packets ∧ s'.seqs = s.seqs ∧ SameBytes s s' ∧
         ∀ j, seen s' j = if j = k then (seen s k).map (·.raised w.ctr) else seen s j)

/-- R218, R221, R242, R243, R244: MBSEND reads its payload, and MBRECV locks its 256-byte destination, and each joins the queue
of its mailbox behind the requests before it, its counter raised. Reserved bits of the descriptor raise cause 0x03, a mailbox
that is not bound to the context cause 0x61, FADDR and INFO 0 (R297). The model's choices in it: log entry 93. -/
def Obligations.MailboxRequestsAreQueued : Prop :=
  ∀ (i : Instr) (send : Bool) (w : RWord) (s : State) (u : Issuing) (k : Nat) (t : Thread),
    (i = .mbsend w ∧ send = true ∨ i = .mbrecv w ∧ send = false) → IssuesFor s u i 0 w.ctr k t → s.freshKey →
    NoInterval s t.team → (send = true → sendHold s u = false ∧ payloadHeld w s u = false ∧ releasePending s k 4 = false) →
    (send = false → fenceHold s u = false) → s.rangeLocks = [] → s.poison = [] →
    (384 ≤ w.dst.toNat → ungathered (beginWord s u i) u [k] = []) →
    let b := beginWord s u i
    let bv := src32 b t w.b
    let m := bv % 4096
    let va := src64 b t w.a
    let len := if send then bv / 4096 % 256 + 1 else 256
    let reserved := if send then bv / 2 ^ 20 else bv / 2 ^ 12
    let pages := mailboxPages b t (if send then needRead else needWrite) va len
    let trapped (bad : Bad) : Prop := ∃ s', exec i s = .next s' ∧ rest s' = rest s ∧ (∀ j, seen s' j = seen s j) ∧
      Trapped s' k bad.cause (wordAddr u.hdr u.pos) u.hdr bad.faddr bad.info
    (reserved ≠ 0 → trapped ⟨0x03, 0, 0⟩) ∧
    (reserved = 0 → ∀ bad, pages = .error bad → trapped bad) ∧
    (reserved = 0 → ∀ ps, pages = .ok ps → boundTo s m t.ctx = false → trapped ⟨0x61, 0, 0⟩) ∧
    (reserved = 0 → ∀ ps, pages = .ok ps → boundTo s m t.ctx = true →
      let o : Op := if send then .send ⟨⟨k, w.ctr⟩, t.ctx, some w.dst.toNat, m, pieceBytes b ps, t.srVersion⟩
        else .recv ⟨⟨k, w.ctr⟩, u.core, t.ctx, some w.dst.toNat, m, va, ps, (u.hdr, wordAddr u.hdr u.pos)⟩
      ∃ s', exec i s = .next s' ∧ SameBytes s s' ∧ Onward s s' u ∧
        (send = false → ∀ c, c ∈ lockCores b t → (lockCores b t).Nodup →
          (tgetD c [] s'.rangeLocks).map (fun x => (x.2.lo, x.2.hi, x.2.write)) = lockRange va (va + 256) true) ∧
        Begins s { s' with teams := s.teams, mailboxes := s.mailboxes, rangeLocks := s.rangeLocks } k w.ctr o ∧
        s'.mailbox m = (if send then { s.mailbox m with sends := (s.mailbox m).sends ++ [s.nextKey] }
          else { s.mailbox m with recvs := (s.mailbox m).recvs ++ [s.nextKey] }) ∧
        ∀ x, x ≠ m → s'.mailbox x = s.mailbox x)


/-! ## Events of issue, contexts and launches (R46 to R73, R106, R124, R246, R253, R296, R324 to R331) -/

/-- R47, R48, R64, R185, R264: waiting threads enter the cage of their key in the order of their arrival, or a new one whose
timer starts with its value, and the emitter's counter falls; a cage is FULL at its launch count, or when its timer expires; a
FULL cage launches one group of at most the launch count, whose members are numbered in the order of arrival and stand at their
entry; those left over wait on. The model's choices in it: log entry 4. -/
def Obligations.CagesFillAndLaunchGroups : Prop :=
  (∀ (s : State) (id : Nat) (e : Entrant) (t : Thread), tget id s.entrants = some e → tget e.thread s.threads = some t →
    let entered (c : Cage) : Cage := { c with
      threads := c.threads ++ [(e.since, e.thread)], state := if c.count ≤ c.threads.length + 1 then .full else c.state }
    let done (n : Nat) (c : Cage) : Prop := ∃ s', exec (.cageEnter id) s = .next s' ∧ tget id s'.entrants = none ∧
      tget (cageKey e.core n) s'.cages = some (entered c) ∧ SameHomes s s' ∧
      match e.counted with
      | some (k, ctr) => Completes s s' ⟨k, ctr⟩
      | none => ∀ j, seen s' j = seen s j
    let first := (∀ x ∈ s.entrants, x.1 ≠ id → x.2.core = e.core → x.2.k.code = e.k.code → x.2.entry = e.entry →
      ∀ y, tget x.2.thread s.threads = some y → y.ctx = t.ctx → y.team = t.team →
        e.since < x.2.since ∨ (e.since = x.2.since ∧ t.tid < y.tid))
    (∀ x ∈ s.entrants, x.2.core = e.core → x.2.k.code = e.k.code → x.2.entry = e.entry →
      ∀ y, tget x.2.thread s.threads = some y → y.ctx = t.ctx → y.team = t.team → x.2.since < e.since →
        exec (.cageEnter id) s = .next s) ∧
    (first → ∀ n c, cageFor s e.core t.ctx t.team e.k e.entry = some n → tget (cageKey e.core n) s.cages = some c →
      (c.state = .full → exec (.cageEnter id) s = .next s) ∧ (c.state = .filling → done n c)) ∧
    (first → ∀ n, cageFor s e.core t.ctx t.team e.k e.entry = none → emptyCage s e.core = some n →
      done n ⟨t.ctx, e.k, e.entry, t.team, .filling,
        s.clk + (if e.timeout = 0 then (s.core e.core).cageTmo else e.timeout), e.timeout, e.count, []⟩)) ∧
  (∀ (s : State) (core n : Nat) (c : Cage), tget (cageKey core n) s.cages = some c → c.state = .filling → c.timer ≤ s.clk →
    (∀ e ∈ s.entrants, e.2.core ≠ core) → ∃ s', exec (.cageTimerExpire core n) s = .next s' ∧
      tget (cageKey core n) s'.cages = some { c with state := .full } ∧ { s' with cages := s.cages } = s) ∧
  ∀ (s : State) (core n bay slot0 row : Nat) (c : Cage) (tm : Team), tget (cageKey core n) s.cages = some c → c.state = .full →
    (s.core core).frozen = false → tget c.team s.teams = some tm → tm.state ≠ .saving → s.freshKey →
    groupPlace s core c.k.width c.k.regs = some (bay, slot0, row) →
    let order := (cageOrder s c).map (·.2)
    let ms := order.take c.count
    order.Nodup → (∀ k ∈ order, (tget k s.threads).isSome) →
    ∃ s' g, exec (.groupLaunch core n) s = .next s' ∧ tget s.nextKey s'.groups = some g ∧ g.core = core ∧ g.bay = bay ∧
      g.slot0 = slot0 ∧ g.width = c.k.width ∧ g.team = c.team ∧ g.live = 2 ^ ms.length - 1 ∧ g.segs = [⟨0, row, c.k.regs⟩] ∧ g.born = s.clk ∧
      SameHomes s s' ∧ (order.length ≤ c.count → tget (cageKey core n) s'.cages = none) ∧
      (c.count < order.length → ∃ c', tget (cageKey core n) s'.cages = some c' ∧ c'.threads.map (·.2) = order.drop c.count ∧
        c'.state = (if 2 * c.count ≤ order.length then .full else .filling) ∧
        c'.timer = s.clk + if c.timeout = 0 then (s.core core).cageTmo else c.timeout) ∧
      ∀ m k, ms[m]? = some k → ∃ t t', tget k s.threads = some t ∧ GoesOnAt s' k t.pc ∧ tget k s'.threads = some t' ∧
        t'.group = some s.nextKey ∧ t'.member = m ∧ t'.regs = t.regs ∧ t'.preds = t.preds

/-- R55, R56, R59, R140, R142, R143: at a free port of a bay that issues, the picker gathers threads of one code image at one
clause, at most the group's width and no two in one slot, and starts the clause for exactly them; a clause that fails its check
stops them all at the header, and a thread whose header is beyond its code, or cannot be fetched, is stopped there. The model's
choices in it: log entries 33, 34, 35. -/
def Obligations.ThePickerStartsAClause : Prop :=
  ∀ (s : State) (core bay : Nat) (p : Port), s.sorted → (∀ x, tget (portKey core bay p) s.ports = some x → x.words = 0) →
    coreIssues s core bay = true → s.retiring = [] → s.poison = [] →
    (∀ k t g c va, (k, t, g) ∈ bayThreads s core bay → nextHeader s t g = .error (c, va) →
      ∃ s', exec (.pickIssueSet core bay p) s = .next s' ∧ Trapped s' k c t.pc t.pc va 0) ∧
    ∀ (c : Cand) (more others : List Cand), pickSet s core bay p = (c :: more, others) →
      (∀ k t g, (k, t, g) ∈ bayThreads s core bay → ∃ h, nextHeader s t g = .ok h) →
      let set := c :: more
      (∀ x ∈ set, x.thread.pc = c.thread.pc ∧ x.group.k.code = c.group.k.code ∧ bindsTo x.header p = true) ∧
      set.length ≤ max 1 c.group.width ∧ (set.map (·.slot)).Nodup ∧
      ∃ s', exec (.pickIssueSet core bay p) s = .next s' ∧ SameHomes s s' ∧ (∀ j, seen s' j = seen s j) ∧
        (∀ cause, clauseCause s c.thread c.thread.pc c.header = some cause →
          ∀ x ∈ set, Trapped s' x.key cause c.thread.pc c.thread.pc 0 0 ∧ ∀ t, tget x.key s'.threads = some t → t.yielded = 0) ∧
        (clauseCause s c.thread c.thread.pc c.header = none →
          codeHeld s c.thread c.thread.pc (8 * (c.header.count.toNat + 2)) = false →
          (∃ q, tget (portKey core bay p) s'.ports = some q ∧ q.hdr = c.thread.pc ∧ q.words = c.header.count.toNat + 1 ∧
            q.pos = ((c.thread.resume.map (·.2)).getD 0) ∧ q.cls = c.header.cls ∧ q.members = set.map (·.key)) ∧
          (∀ x ∈ set, ∃ t, tget x.key s'.threads = some t ∧ t.state = .issuing ∧ t.passed = 0 ∧ t.yielded = 0 ∧
            t.resume = none) ∧
          ∀ x ∈ others, x.key ∉ set.map (·.key) → ∃ t, tget x.key s'.threads = some t ∧ t.passed = x.thread.passed + 1)

/-- R62, R124, R163, R296, R297: a deferred trap that is due is taken where the thread stands, or at the word that it names; the
record of a trapped thread goes into a free slot of its context's trap ring, and a thread of the context's handler launch is
created in system mode to enter a cage with the slot's address; with no handler launch the context is terminated. The model's
choices in it: log entries 42, 43. -/
def Obligations.TrapsReachTheirHandlers : Prop :=
  (∀ (s : State) (k hdr pc : Nat) (t : Thread) (i : TrapInfo), tget k s.threads = some t →
    (∀ tm, tget t.team s.teams = some tm → tm.state ≠ .saving) → t.deferred.find? (deferredDue s k t) = some i →
    standing s k t = some (hdr, pc) → ∃ s' t', exec (.deferredTrapTake k) s = .next s' ∧ rest s' = rest s ∧
      (∀ j, seen s' j = seen s j) ∧ tget k s'.threads = some t' ∧ t'.state = .trapped ∧
      t'.trap = some (if i.pc = 0 then { i with pc := pc, hdr := hdr } else i) ∧ t'.deferred = (t.deferred.filter fun d => d.cause ≠ 0x71).erase i) ∧
  (∀ (s w s' : State) (k slot l : Nat) (t : Thread) (i : TrapInfo) (c : Context) (x : Launch), tget k s.threads = some t →
    t.state = .trapped → t.trapSlot = none → t.trap = some i → tget t.ctx s.contexts = some c → freeTrapSlot c = some slot →
    ctxWrite s t.ctx (slotVa s t.ctx slot) (trapRecord s t i) = some w → c.handler = some l → tget l s.launches = some x →
    t.handler = false → s.freshKey →
    createHandler (w.onThread k fun t => { t with trapSlot := some slot }) t.ctx l x.k (dieOfCore (coreOf s t)) slot k
      (slotVa s t.ctx slot) = some s' →
    exec (.trapRecordWrite k) s = .next s' ∧ SameHomes w s' ∧ (∃ t', tget k s'.threads = some t' ∧ t'.trapSlot = some slot) ∧
    (∃ c', tget t.ctx s'.contexts = some c' ∧ tget slot c'.trapSlots = some (k, s.nextKey + 1)) ∧
    ∃ h, tget (s.nextKey + 1) s'.threads = some h ∧ h.handler = true ∧ h.sys = true ∧ h.state = .caged ∧ h.ctx = t.ctx ∧
      h.launch = l ∧ h.pc = x.k.entry ∧ tgetD 0 0 h.regs = BitVec.ofNat 32 (slotVa s t.ctx slot) ∧
      tgetD 1 0 h.regs = BitVec.ofNat 32 (slotVa s t.ctx slot / 2 ^ 32)) ∧
  ∀ (s : State) (k : Nat) (t : Thread) (i : TrapInfo) (c : Context), s.sorted → tget k s.threads = some t → t.state = .trapped →
    t.trapSlot = none → t.trap = some i → tget t.ctx s.contexts = some c → c.handler = none ∨ t.handler = true →
    ∃ s', exec (.trapRecordWrite k) s = .next s' ∧ tget k s'.threads = none ∧
      ∃ c', tget t.ctx s'.contexts = some c' ∧ c'.state = if c.state = 2 then 0 else 3

/-- R324, R325, R326, R327, R328, R331: a doorbell moves TAIL of an open context within its ring; the record at HEAD that fails
a check completes with the status of R331 and HEAD passes it; one that passes, and whose first clusters find room, is admitted
with its id, and HEAD passes it; a waiting cluster is placed once it finds room. The model's choices in it: log entries 79, 80.
R98, R106, R253, R328: a grid whose clusters have retired and whose writes have completed completes with status success: its
teams and writer entries go, its STATUS is written, and its interrupt is signalled. The model's choices in it: log entry 78.
R324, R325, R328: CDESC of a free slot opens the context whose descriptor it names, where that passes; 0 closes an open one: its
queued records complete as context terminated, HEAD reaches TAIL, and without a launch left the slot is free. The model's
choices in it: log entries 45, 83. -/
def Obligations.LaunchesAndContextsRunTheirCourse : Prop :=
  ((∀ (s : State) (ctx : Nat) (tail : Word64) (c : Context), tget ctx s.contexts = some c → s.glob.ready = true → c.state = 1 →
     c.head ≤ tail.toNat → tail.toNat ≤ c.head + 2 ^ c.qlog → ∃ s', exec (.queueDoorbell ctx tail) s = .next s' ∧
       tget ctx s'.contexts = some { c with tail := tail.toNat } ∧ { s' with contexts := s.contexts } = s) ∧
   (∀ (s : State) (ctx st : Nat) (c : Context), tget ctx s.contexts = some c → c.state = 1 → c.head < c.tail →
     checkRecord s ctx s.nextKey c c.head = .error st → deviceReaches s (recordPa c c.head) 64 = true → s.poison = [] →
     ∃ s', exec (.launchAdmit ctx) s = .next s' ∧
       (∃ x, tget ctx s'.contexts = some x ∧ { x with targeted := c.targeted } = { c with head := c.head + 1 }) ∧
       homeByte s' (recordPa c c.head + 0x28) = BitVec.ofNat 8 st ∧ s'.launches = s.launches ∧ s'.threads = s.threads ∧
       ∀ a, a ≠ recordPa c c.head + 0x28 → homeByte s' a = homeByte s a) ∧
   (∀ (s w : State) (ctx : Nat) (c : Context) (l : Launch), tget ctx s.contexts = some c → c.state = 1 → c.head < c.tail →
     checkRecord s ctx s.nextKey c c.head = .ok (l, []) → lockRoom c (locksNeeded s { l with id := if l.id = 0 then
       2 ^ 63 + s.idCounter % 2 ^ 62 else l.id } []) = true → l.assay = none → deviceReaches s (recordPa c c.head) 64 = true →
     mustWait s { l with id := if l.id = 0 then 2 ^ 63 + s.idCounter % 2 ^ 62 else l.id } = false →
     let id := if l.id = 0 then 2 ^ 63 + s.idCounter % 2 ^ 62 else l.id
     placeFirst { s with nextKey := s.nextKey + 1, idCounter := if l.id = 0 then s.idCounter + 1 else s.idCounter } s.nextKey
       { l with id := id } = some w →
     ∃ s', exec (.launchAdmit ctx) s = .next s' ∧ (∀ x, tget ctx w.contexts = some x →
         ∃ y, tget ctx s'.contexts = some y ∧ { y with targeted := x.targeted } = { x with head := x.head + 1 }) ∧ s'.launches = w.launches ∧ s'.threads = w.threads ∧
       s'.groups = w.groups ∧ (∀ n, n < 8 → homeByte s' (recordPa c c.head + 0x30 + n) = ((leBytes 8 id)[n]?).getD 0)) ∧
   ∀ (s w : State) (k : Nat) (l : Launch), (waitingLaunches s).head? = some (k, l) → outranked s l = false →
     placeNext s k l = some w → exec .clusterPlace s = .next w) ∧
  (∀ (s : State) (k n : Nat) (l : Launch) (c : Context), tget k s.launches = some l → gridDone s k l = true → l.kind = .queued n →
     l.staged = [] → l.handles = [] → l.assay = none → tget l.ctx s.contexts = some c → c.state = 1 → contained s = false →
     deviceReaches s (recordPa c n) 64 = true →
     ∃ s', exec (.gridComplete k) s = .next s' ∧ homeByte s' (recordPa c n + 0x28) = 1 ∧
       (∀ a, a ≠ recordPa c n + 0x28 → homeByte s' a = homeByte s a) ∧ s'.host = s.host ++ [.interrupt c.desc.vec] ∧
       (∃ l', tget k s'.launches = some l' ∧ l'.status = some 1) ∧ (∀ e ∈ s'.teams, e.2.launch ≠ k) ∧
       (∀ e ∈ s'.writers, e.1.1 ≠ k) ∧ s'.threads = s.threads) ∧
  ((∀ (s : State) (ctx : Nat) (cdesc : Word64), ctx < 64 → s.glob.ready = true → cdesc ≠ 0 →
     (tgetD ctx Context.reset s.contexts).state = 0 →
     let old := tgetD ctx Context.reset s.contexts
     let d := (readCtxDesc s cdesc.toNat).1
     d.hdesc = 0 → ∃ s' c, exec (.contextOpen ctx cdesc) s = .next s' ∧ tget ctx s'.contexts = some c ∧ c.cdesc = cdesc.toNat ∧
       c.desc = d ∧ c.state = (if (readCtxDesc s cdesc.toNat).2 then 1 else 3) ∧ c.qbase = old.qbase ∧ c.qlog = old.qlog ∧
       c.tail = 0 ∧ c.head = 0 ∧ SameHomes s s' ∧ (∀ j, seen s' j = seen s j) ∧
       ∀ x, x ≠ ctx → tget x s'.contexts = tget x s.contexts) ∧
   ∀ (s : State) (ctx : Nat) (c : Context), ctx < 64 → s.glob.ready = true → tget ctx s.contexts = some c → c.state = 1 ∨ c.state = 3 →
     c.head ≤ c.tail → (∀ e ∈ s.launches, e.2.ctx = ctx → e.2.status ≠ none ∨ e.2.kind = .handler) →
     (∀ n, n < c.tail - c.head → deviceReaches s (recordPa c (c.head + n)) 64 = true) →
     ∃ s' c', exec (.contextClose ctx) s = .next s' ∧ tget ctx s'.contexts = some c' ∧ c'.state = 0 ∧ c'.cdesc = 0 ∧
       c'.head = c.tail ∧ (∀ n, n < c.tail - c.head → homeByte s' (recordPa c (c.head + n) + 0x28) = 8) ∧
       (∀ e ∈ s'.threads, e.2.ctx ≠ ctx) ∧ ∀ j t, tget j s.threads = some t → t.ctx ≠ ctx → seen s' j = seen s j)


/-! ## Events of memory (R80 to R106, R188 to R204, R216) -/

/-- R85, R188, R190, R191: the oldest unsent request of a load is sent when its missing sectors find entries; a sector comes to
its line request; and a member whose sectors have come takes its value, the bytes that its policy and scope serve, into its
destination registers alone, and its counter falls. The model's choices in it: log entries 48, 49, 103. -/
def Obligations.LoadsReturnTheirBytes : Prop :=
  (∀ (s : State) (op req : Nat) (o : LoadOp) (r : LineReq), tget op s.ops = some (.load o) → o.reqs[req]? = some r →
    r.sent = false → (∀ x ∈ o.reqs.take req, x.sent = true) → (o.reqs.map (·.line)).Nodup → missEntries s o.core + 4 ≤ 1024 →
    ∃ s' o' r', exec (.coalescerRequestSend op req) s = .next s' ∧ { s' with ops := s.ops } = s ∧
      tget op s'.ops = some (.load o') ∧ o'.members = o.members ∧ o'.reqs[req]? = some r' ∧ r'.sent = true ∧
      r'.line = r.line ∧ r'.sectors = r.sectors ∧ ∀ i x, i ≠ req → o.reqs[i]? = some x → o'.reqs[i]? = some x) ∧
  (∀ (s : State) (op req i : Nat) (o : LoadOp) (r : LineReq), tget op s.ops = some (.load o) → o.reqs[req]? = some r →
    r.sent = true → (List.range 4).find? (fun i => bit r.sectors i && !bit r.filled i) = some i →
    let sector := r.line * 256 + 64 * i
    fillWaits s sector = false → bankHeld s sector = false → lineHeld s (.hbm sector) 64 = false →
    ∃ s' o' r', exec (.sectorFill op req) s = .next s' ∧ SameHomes s s' ∧ (∀ j, seen s' j = seen s j) ∧
      tget op s'.ops = some (.load o') ∧ o'.members = o.members ∧ o'.reqs[req]? = some r' ∧ r' = { r with filled := r.filled ||| 2 ^ i } ∧
      (o.kind.viaL1 o.scope = true → ∀ a ∈ addrs sector 64, tget (l1Key o.core a) s'.l1 = some (coreByte s o.core a)) ∧
      (o.kind.viaL1 o.scope = false → s'.l1 = s.l1) ∧ (o.kind = .lu → r.line ∈ s'.evictFirst)) ∧
  ∀ (s : State) (op n pa d : Nat) (o : LoadOp) (m : LoadMember) (t : Thread), tget op s.ops = some (.load o) →
    o.members[n]? = some m → m.done = false → m.target = .hbm pa → m.dst = some d → (d < 384 → d + loadRegs o.size ≤ 384) →
    tget m.thread s.threads = some t → memberFilled o m = true → s.poison = [] → s.freshKey →
    olderOwnRead s op m.thread (.hbm pa) (sizeBytes o.size) = false → lineHeld s (.hbm pa) (sizeBytes o.size) = false →
    let v := loadedValue o.size ((addrs pa (sizeBytes o.size)).map (loadByte s o.core t.team (o.kind.viaL1 o.scope)))
    ∃ s' t', exec (.loadDataReturn op n) s = .next s' ∧ SameHomes s s' ∧ Receives s s' m.thread d (loadRegs o.size) v ∧
      tget m.thread s'.threads = some t' ∧
      t'.ctrs = (if o.ctr < 6 then tset o.ctr (tgetD o.ctr 0 t.ctrs - 1) t.ctrs else t.ctrs) ∧
      ((∀ x ∈ o.members, x.done = true ∨ x.thread = m.thread) → tget op s'.ops = none)

/-- R82, R90, R93, R102, R103, R104, R199: a store that is ready is performed at its home, one to scale bytes once their lines
are unpinned, and changes its own bytes alone; an atomic gives its destination the old value and its location the new one; and
an atomic interval ends with its counts at zero and its regions at the homes of R104, no byte changed. The model's choices in
it: log entries 47, 48, 49.
R102: an aggregated request stores what its members' operations leave one after another, in the order of its members, and each
member receives the value that those before it left; every member's counter falls. -/
def Obligations.StoresAndAtomicsArePerformed : Prop :=
  ((∀ (s : State) (op pa : Nat) (o : StoreOp) (i : Instr), tget op s.ops = some (.store o) → o.target = .hbm pa →
     (o.bytes.map (·.1)).Nodup → storeReady s op o = true →
     (∀ tm l, tget o.team s.teams = some tm → tget tm.launch s.launches = some l → l.k.det = false) →
     (i = .storePerform op ∧ ∀ a ∈ o.bytes, onScale s (.hbm a.1) 1 = false) ∨
       (i = .scaleStorePerform op ∧ (∃ a ∈ o.bytes, onScale s (.hbm a.1) 1 = true) ∧
         ∀ x ∈ scaledSectors s o, linePinned s (x / 4) = false ∧ dirtyAbroad s x = false ∧ bankHeld s (x * 64) = false) →
     ∃ s', exec i s = .next s' ∧ tget op s'.ops = none ∧ (∀ c, o.cs = [c] → Completes s s' c) ∧
       (o.cs = [] → ∀ j, seen s' j = seen s j) ∧
       ∀ a, homeByte s' a = (tget a o.bytes).getD (homeByte s a)) ∧
   (∀ (s : State) (op pa d : Nat) (o : AtomOp) (m : AtomMember) (t : Thread), tget op s.ops = some (.atom o) → o.target = .hbm pa →
     o.members = [m] → m.dst = some d → (d < 384 → d + 2 ≤ 384) → tget m.thread s.threads = some t → s.poison = [] →
     olderOwn s op m.thread o.target o.bytes = false → seenPending s op o.core 2 o.target o.bytes = false → olderCas s op o = false →
     writeWaits s o.target o.bytes = false → banksHeld s o.target o.bytes = false → s.freshKey →
     let old := leValue ((addrs pa o.bytes).map (homeByte s))
     ∃ s' t', exec (.atomicPerform op) s = .next s' ∧ tget op s'.ops = none ∧
       Receives s s' m.thread d (if o.bytes = 8 then 2 else 1) old ∧ tget m.thread s'.threads = some t' ∧
       t'.ctrs = (if o.ctr < 6 then tset o.ctr (tgetD o.ctr 0 t.ctrs - 1) t.ctrs else t.ctrs) ∧
       ∀ a, homeByte s' a = if pa ≤ a ∧ a < pa + o.bytes then ((leBytes o.bytes (o.apply old m.b m.b2))[a - pa]?).getD 0
         else homeByte s a) ∧
   ∀ s : State, s.glob.atomics ≤ s.clk → ∃ s', exec .atomicIntervalEnd s = .next s' ∧ s'.atomCounts = [] ∧
     s.clk < s'.glob.atomics ∧ SameHomes s s' ∧ s'.threads = s.threads ∧ s'.ops = s.ops ∧
     ∀ r, tget r s'.homes = match migrationOf s r with
       | some d => some d
       | none => tget r s.homes) ∧
  (∀ (s : State) (op pa : Nat) (o : AtomOp), tget op s.ops = some (.atom o) → o.target = .hbm pa → o.members ≠ [] → o.fadd = false →
     o.oper < 7 → (o.members.map (·.thread)).Nodup →
     (∀ m ∈ o.members, m.b < 2 ^ (8 * o.bytes) ∧ (tget m.thread s.threads).isSome ∧ olderOwn s op m.thread o.target o.bytes = false ∧
       ∀ d, m.dst = some d → d + 2 ≤ 384) →
     s.poison = [] → s.freshKey → seenPending s op o.core 2 o.target o.bytes = false → olderCas s op o = false →
     writeWaits s o.target o.bytes = false → banksHeld s o.target o.bytes = false →
     let old := leValue ((addrs pa o.bytes).map (homeByte s))
     let before (n : Nat) : Nat := (o.members.take n).foldl (fun x m => o.apply x m.b m.b2) old
     let regs := if o.bytes = 8 then 2 else 1
     ∃ s', exec (.atomicPerform op) s = .next s' ∧ tget op s'.ops = none ∧
       (∀ a, homeByte s' a = if pa ≤ a ∧ a < pa + o.bytes then ((leBytes o.bytes (before o.members.length))[a - pa]?).getD 0
         else homeByte s a) ∧
       (∀ j, (∀ m ∈ o.members, m.thread ≠ j) → seen s' j = seen s j) ∧
       ∀ (n : Nat) (m : AtomMember) (v : Visible), o.members[n]? = some m → seen s m.thread = some v →
         ∃ v', seen s' m.thread = some v' ∧ { v' with regs := v.regs } = v.lowered o.ctr ∧
           ∀ r, tgetD r 0 v'.regs = match m.dst with
             | some d => if d ≤ r ∧ r < d + regs then BitVec.ofNat 32 (before n / 2 ^ (32 * (r - d))) else tgetD r 0 v.regs
             | none => tgetD r 0 v.regs)

/-- R99 to R101, R106, R194, R195: a tile takes the lock of its next line with an entry at its home slice, and goes on to its
data with its last line; then an STT writes each piece of its rows, and an LDT each piece of its block, nothing else at any
home, and the counter falls. -/
def Obligations.TilesLockAndCommit : Prop :=
  (∀ (s : State) (op line : Nat) (o : TileOp), tget op s.ops = some (.tile o) → o.phase = .locking →
    o.locked ≠ [] ∨ tileStarts s op o = true → o.lines[o.locked.length]? = some line →
    (slicePeers s (homeSlice s line)).length < 32 → lineClash s op o line = false →
    ∃ s' o', exec (.tileLockAcquire op) s = .next s' ∧ { s' with ops := s.ops } = s ∧ tget op s'.ops = some (.tile o') ∧
      o'.locked = o.locked ++ [line] ∧ homeSlice s line ∈ o'.entries ∧
      o'.phase = (if o.locked.length + 1 = o.lines.length then .data else .locking) ∧ o'.rows = o.rows ∧ o'.data = o.data ∧
      ∀ k, k ≠ op → tget k s'.ops = tget k s.ops) ∧
  (∀ (s : State) (op : Nat) (o : TileOp), tget op s.ops = some (.tile o) → o.phase = .data →
    o.lines ≠ [] ∨ tileStarts s op o = true → o.storing = true → o.vas.length = o.rows.length →
    (∀ r ∈ o.rows, ∀ p ∈ r, p.1.isHbm = true ∧ blocksWait s (blockSectors s p.1 p.2) = false ∧ banksHeld s p.1 p.2 = false) →
    s.samples = [] → holdsStores s o.team = false →
    (∀ tm l, tget o.team s.teams = some tm → tget tm.launch s.launches = some l → l.k.det = false) →
    let ps := placePieces o.rows.flatten o.data
    (ps.flatMap fun p => addrs p.1.pa p.2.length).Nodup →
    ∃ s', exec (.tileCommit op) s = .next s' ∧ tget op s'.ops = none ∧ Completes s s' o.c ∧
      (∀ p ∈ ps, ∀ i b, p.2[i]? = some b → homeByte s' (p.1.pa + i) = b) ∧
      ∀ a, a ∉ ps.flatMap (fun p => addrs p.1.pa p.2.length) → homeByte s' a = homeByte s a) ∧
  ∀ (s : State) (op : Nat) (o : TileOp), tget op s.ops = some (.tile o) → o.phase = .data →
    o.lines ≠ [] ∨ tileStarts s op o = true → o.storing = false → s.poison = [] → s.freshKey →
    (∀ r ∈ o.rows, ∀ p ∈ r, banksHeld s p.1 p.2 = false) →
    let ps := placePieces o.block (tileBytes s o)
    (∀ p ∈ ps, ∀ i, i < p.2.length → ∃ c off, regionOf s (p.1.pa + i) = (c, .scratchpad off)) →
    (ps.flatMap fun p => addrs p.1.pa p.2.length).Nodup →
    ∃ s', exec (.tileCommit op) s = .next s' ∧ tget op s'.ops = none ∧ Completes s s' o.c ∧ s'.l2 = s.l2 ∧
      (∀ p ∈ ps, ∀ i b, p.2[i]? = some b → memRead s'.mem (p.1.pa + i) = b) ∧
      ∀ a, a ∉ ps.flatMap (fun p => addrs p.1.pa p.2.length) → memRead s'.mem a = memRead s.mem a

/-- R87, R94, R196, R197, R203, R216: the next sector of a DISC loses its dirty bytes, those in guest copies and those that a
store has brought into an L2 too, unless its line is pinned, and with the last the counter falls; a prefetch that has come
completes; a fence whose predecessors are ordered ends, with TR in SUCC at .cp or wider the core's L1 with it; and a range
invalidation empties the L1 of the cores open to its context and adds one to its object. The model's choices in it: log entries
53, 55. -/
def Obligations.DiscardsFencesAndInvalidationsComplete : Prop :=
  (∀ (s : State) (op x : Nat) (more : List Nat) (o : DiscOp), tget op s.ops = some (.disc o) → o.sectors = x :: more →
    olderOwn s op o.c.thread (.hbm x) 64 = false → lineHeld s (.hbm x) 64 = false →
    ∃ s', exec (.discSectorTreat op) s = .next s' ∧ s'.mem = s.mem ∧
      (∀ a, homeByte s' a = if a / 64 = x / 64 ∧ linePinned s (x / 256) = false then memRead s.mem a else homeByte s a) ∧
      (linePinned s (x / 256) = false → ∀ id y, tget id s'.ops = some (.store y) → y.target.isHbm = true → y.die.isSome = true →
        ∀ b ∈ y.bytes, b.1 / 64 ≠ x / 64) ∧
      if more = [] then tget op s'.ops = none ∧ Completes s s' o.c
      else tget op s'.ops = some (.disc { o with sectors := more }) ∧ ∀ j, seen s' j = seen s j) ∧
  (∀ (s : State) (op : Nat) (o : PrefOp), tget op s.ops = some (.pref o) →
    (∀ i, i < 4 → let x := o.line * 256 + 64 * i
      fillWaits s x = false ∧ bankHeld s x = false ∧ lineHeld s (.hbm x) 64 = false) →
    ∃ s', exec (.prefetchFill op) s = .next s' ∧ tget op s'.ops = none ∧ Completes s s' o.c ∧ SameHomes s s' ∧
      (o.l1 = false → s'.l1 = s.l1)) ∧
  (∀ (s : State) (op : Nat) (o : FenceOp), tget op s.ops = some (.fence o) → fenceDone s o = true →
    ∃ s', exec (.fenceSatisfied op) s = .next s' ∧ tget op s'.ops = none ∧ (∀ j, seen s' j = seen s j) ∧ SameHomes s s' ∧
      (∀ t, tget o.thread s.threads = some t → bit o.succ 0 = true → 2 ≤ o.scope →
        ∀ a, a < 2 ^ 56 → tget (l1Key (coreOf s t) a) s'.l1 = none) ∧ (bit o.succ 0 = false ∨ o.scope < 2 → s'.l1 = s.l1)) ∧
  ∀ (s : State) (op pa : Nat) (o : RinvOp), tget op s.ops = some (.rinv o) → o.obj = .hbm pa → s.poison = [] →
    writeWaits s o.obj 8 = false → banksHeld s o.obj 8 = false → ∃ s', exec (.rinvPurgeDone op) s = .next s' ∧ tget op s'.ops = none ∧
      (∀ j, seen s' j = seen s j) ∧ (∀ core ∈ coresOpen s o.ctx, ∀ a, a < 2 ^ 56 → tget (l1Key core a) s'.l1 = none) ∧
      ∀ a, homeByte s' a = if pa ≤ a ∧ a < pa + 8 then
          ((leBytes 8 (low 64 (leValue ((addrs pa 8).map (homeByte s)) + 1)))[a - pa]?).getD 0
        else homeByte s a


/-! ## Events of pairing, the fabric and the engines (R107 to R123, R227, R242 to R292) -/

/-- R201, R202, R245, R249 to R252: the test of a leaf traps on a second contribution and sends a first one to its place, its
bit set; an arrival that finds no sibling is kept where there is room, and one that finds it goes on as their parent; an entry
held too long is forwarded, its packet with the SRC and SEQ of the packet that brought it, or this package's own next number
(R254); a spilled entry is written to its slot; and a handle is sealed by its deadline, or by CTBSEAL, whose counter falls. The
model's choices in it: log entry 70. -/
def Obligations.ContributionsPairOrAreForwarded : Prop :=
  (∀ (s : State) (op v : Nat) (o : CtbOp) (hd : Handle) (t : Thread), tget op s.ops = some (.ctb o) → o.tested = false →
    (∀ e ∈ s.ops, ∀ x, e.2 = .ctb x → e.1 < op → x.tested = true ∨ x.core ≠ o.core) → tget o.c.thread s.threads = some t →
    tget (handleKey o.ctx o.h) s.handles = some hd → ctxValue s o.ctx (leafByteVa hd o.leaf) 1 = some v →
    writeHeld s (dieOfCore o.core) o.ctx (leafByteVa hd o.leaf) 1 = false → s.poison = [] →
    (bit v (o.leaf % 8) = true → t.state ≠ .exited → ∃ s', exec (.ctbTestReturn op) s = .next s' ∧ tget op s'.ops = none ∧ Completes s s' o.c ∧
      SameHomes s s' ∧ if t.state = .trapped ∨ teamSaving s t.team = true then
          ∃ t', tget o.c.thread s'.threads = some t' ∧ t'.deferred = t.deferred ++ [⟨0x30, o.word.2, o.word.1, 0, 0, none, []⟩]
        else Trapped s' o.c.thread 0x30 o.word.2 o.word.1 0 0) ∧
    ∀ w, bit v (o.leaf % 8) = false → hd.cquota ≠ 0 →
      ctxWrite s o.ctx (leafByteVa hd o.leaf) [BitVec.ofNat 8 (putBit v (o.leaf % 8) true)] = some w →
      ∃ s', exec (.ctbTestReturn op) s = .next s' ∧ SameHomes w s' ∧ (∀ j, seen s' j = seen s j) ∧
        tget op s'.ops = some (.ctb { o with tested := true }) ∧ tget s.nextKey s'.arrivals =
          some ⟨.core o.core, .handle o.ctx o.h 0 o.leaf, .node hd.pairNodes o.value, s.clk, t.team, op, [], [], false, none, false⟩) ∧
  (∀ (s : State) (n core ctx h level index : Nat) (e : PairEntry) (hd : Handle) (o : CtbOp), tget n s.arrivals = some e →
    e.place = .core core → e.tag = .handle ctx h level index → tget (handleKey ctx h) s.handles = some hd →
    tget e.cmd s.ops = some (.ctb o) → (∀ a ∈ s.arrivals, a.2.place = .core core → n ≤ a.1) → e.tag.beyond (hd.nm1 + 1) = false →
    level + 1 < hd.levels → hd.chold ≠ 0 → (s.buffers.filter fun b => b.2.place = .core core).length < min hd.cquota 64 →
    (∀ x ∈ s.treated, x.1 = .core core → x.2 ≠ s.clk) → (∀ b ∈ s.buffers, b.1 < s.nextKey) → e.tag.sibling.beyond (hd.nm1 + 1) = false →
    ((∀ b ∈ s.buffers, b.2.place = .core core → b.2.tag ≠ e.tag.sibling) →
      ∃ s', exec (.pairingArrival n) s = .next s' ∧ tget n s'.arrivals = none ∧ Completes s s' o.c ∧ SameHomes s s' ∧
        tget s.nextKey s'.buffers = some { e with cmd := 0, aged := s.clk }) ∧
    ∀ k b x y p q, s.buffers.find? (fun b => b.2.place = .core core && b.2.tag = e.tag.sibling) = some (k, b) →
      e.value = .node x p → b.value = .node y q → e.tag.parent.sibling.beyond (hd.nm1 + 1) = false →
      (∀ b ∈ s.buffers, b.2.place = .core core → b.2.tag ≠ e.tag.parent.sibling) →
      ∃ s' z, exec (.pairingArrival n) s = .next s' ∧ tget n s'.arrivals = none ∧ tget k s'.buffers = none ∧
        Completes s s' o.c ∧ SameHomes s s' ∧ tget s.nextKey s'.buffers = some z ∧ z.place = .core core ∧
        z.tag = .handle ctx h (level + 1) (index / 2) ∧
        z.value = .node (x || y) (if index % 2 = 0 then nodeJoin (x || y) p q else nodeJoin (x || y) q p)) ∧
  (∀ (s : State) (n : Nat) (e : PairEntry), tget n s.buffers = some e →
    (∀ core ctx h level index hd home, e.place = .core core → e.tag = .handle ctx h level index →
      tget (handleKey ctx h) s.handles = some hd → e.aged + hd.chold ≤ s.clk → homeOf s e.tag = some home →
      ∃ s', exec (.coreHoldExpire n) s = .next s' ∧ tget n s'.buffers = none ∧ SameHomes s s' ∧ (∀ j, seen s' j = seen s j) ∧
        tget s.nextKey s'.arrivals = some { e with place := nextPlace (.core core) home }) ∧
    ∀ port, e.place = .port port → port < 24 → e.leaving = true → e.aged + 256 ≤ s.clk →
      ∃ s', exec (.portHoldExpire n) s = .next s' ∧ tget n s'.buffers = none ∧ (∀ j, seen s' j = seen s j) ∧
        s'.outbox = s.outbox ++ [(port, s.nextKey % 65536, packetOf s e)] ∧
        ((packetOf s e).src, (packetOf s e).seq) = e.stamp.getD (Config.packageNumber,
          tgetD (channelKey (packetOf s e).ctx (packetOf s e).ch) 0 s.seqs)) ∧
  (∀ (s w : State) (n ctx h level index : Nat) (x : Spill) (pairs : Bool) (v : NodeVal) (hd : Handle), tget n s.spills = some x →
    x.key = .handle ctx h level index → x.value = .node pairs v → ctxWrite s ctx x.slotVa (slotBytes v) = some w →
    tget (handleKey ctx h) s.handles = some hd → ∃ s' hd', exec (.spillSlotWrite n) s = .next s' ∧ tget n s'.spills = none ∧
      SameHomes w s' ∧ (∀ j, seen s' j = seen s j) ∧ tget (handleKey ctx h) s'.handles = some hd' ∧
      slotIndex hd level index ∉ hd'.spilling) ∧
  ∀ (s : State) (ctx h : Nat) (hd : Handle), tget (handleKey ctx h) s.handles = some hd → hd.state = 1 →
    (∀ l f, tget hd.launch s.launches = some l → l.firstGroup = some f → hd.deadline ≠ 0 → f + hd.deadline ≤ s.clk →
      ∃ s' hd', exec (.handleDeadlineExpire ctx h) s = .next s' ∧ tget (handleKey ctx h) s'.handles = some hd' ∧ hd'.state = 2 ∧
        ∀ j, seen s' j = seen s j) ∧
    ∀ op o, tget op s.ops = some (.seal o) → o.ctx = ctx → o.h = h → ∃ s' hd', exec (.sealMarkingDone op) s = .next s' ∧
      tget op s'.ops = none ∧ Completes s s' o.c ∧ tget (handleKey ctx h) s'.handles = some hd' ∧ hd'.state = 2

/-- R231, R254, R255, R257: a packet that a link delivers whole and for the first time enters the switch, or the place of its
port; one on a detour goes on along it, and is discarded at its end where it had been accepted over the failed link; a packet
takes its next turn, one copy for the routes of a multicast that agree; and where a link fails, or its port retires, what its
receiver has not acknowledged is sent along its detour, the words of the detour first. The model's choices in it: log entries
70, 76, 77.
R231, R234, R258, R260, R261: a data packet is written into its channel's buffer and acknowledged, once; a flag waits for the
data packets that it follows, then adds one to the channel's flag; the acknowledgement awaited last retires its command, whose
counter falls; and a step ends at the root by its deadline, and elsewhere by its notice. The model's choices in it: log entries
69, 73. -/
def Obligations.PacketsFollowTheirRoutes : Prop :=
  ((∀ (s : State) (link : Nat) (f : LinkFlit), link < 24 → f.crcOk = true → link ∉ s.retiredPorts →
     let key := (f.sender, f.senderLink, f.linkSeq)
     (key ∈ s.accepted → exec (.linkFlitReceive link f) s = .next s) ∧
     (key ∉ s.accepted → f.packet.body ≠ .notice →
       (f.packet.detours = [] → ∃ s', exec (.linkFlitReceive link f) s = .next s' ∧ key ∈ s'.accepted ∧ SameHomes s s' ∧
         s'.threads = s.threads ∧ match packetEntry f.packet with
         | some (tag, v) => tget s.nextKey s'.arrivals = some ⟨.port link, tag, v, s.clk, 0, 0, f.packet.route, f.packet.back, false,
             some (f.packet.src, f.packet.seq), false⟩
         | none => tget s.nextKey s'.packets = some ⟨f.packet, link, none⟩) ∧
       ∀ d ds, f.packet.detours = d :: ds → s.accepted.length < 65536 →
         ∃ s', exec (.linkFlitReceive link f) s = .next s' ∧ key ∈ s'.accepted ∧ SameHomes s s' ∧ s'.threads = s.threads ∧
           (1 < d.left → tget s.nextKey s'.packets =
             some ⟨{ f.packet with detours := { d with left := d.left - 1 } :: ds }, link, none⟩) ∧
           (d.left ≤ 1 → (d.pkg, d.link, d.seq) ∈ s.accepted → s'.packets = s.packets ∧ s'.arrivals = s.arrivals))) ∧
   (∀ (s : State) (n : Nat) (f : InFlight) (turn : BitVec 5) (more : List (BitVec 5)), tget n s.packets = some f → f.arrived = none →
     f.packet.route = turn :: more → f.packet.also = [] → f.packet.detours = [] → turnBad s turn.toNat more.isEmpty = false →
     f.packet.body ≠ .notice → (∀ cmd node, f.packet.body ≠ .drop cmd node) → (∀ x ∈ s.packets, x.1 < n → ordered x.2.packet = false) →
     let p : Packet := { f.packet with route := more, body := turnedBody f.packet.body turn.toNat, back := f.packet.back.map fun x => (x.1, x.2 ++ [BitVec.ofNat 5 f.input]) }
     ∃ s', exec (.switchRoute n) s = .next s' ∧ SameHomes s s' ∧ s'.threads = s.threads ∧ match packetEntry p with
       | some (tag, v) => tget n s'.packets = none ∧
         tget s.nextKey s'.arrivals = some ⟨.port turn.toNat, tag, v, s.clk, 0,
           if p.src = Config.packageNumber then p.cmd else 0, more, p.back, true, some (p.src, p.seq), false⟩
       | none => if more = [] then tget n s'.packets = some ⟨p, f.input, some (turn.toNat - 24)⟩
         else tget n s'.packets = none ∧ s'.outbox = s.outbox ++ [(turn.toNat, s.nextKey % 65536, p)]) ∧
   (∀ (s : State) (n off : Nat) (f : InFlight) (bs : List Byte) (a b : BitVec 5) (x y : List (BitVec 5)),
     tget n s.packets = some f → f.arrived = none → f.packet.route = a :: x → f.packet.also = [b :: y] → x ≠ [] → y ≠ [] →
     f.packet.body = .data off bs → f.packet.detours = [] → turnBad s a.toNat false = false → turnBad s b.toNat false = false →
     (∀ x ∈ s.packets, x.1 < n → ordered x.2.packet = false) →
     let p : Packet := { f.packet with back := f.packet.back.map fun x => (x.1, x.2 ++ [BitVec.ofNat 5 f.input]) }
     ∃ s' i j, exec (.switchRoute n) s = .next s' ∧ tget n s'.packets = none ∧ s'.outbox = s.outbox ++
       if a = b then [(a.toNat, i, { p with route := x, also := [y] })]
       else [(a.toNat, i, { p with route := x, also := [] }), (b.toNat, j, { p with route := y, also := [] })]) ∧
   ∀ (s : State) (link : Nat) (turn : BitVec 5) (more : List (BitVec 5)) (i : Instr), link < 24 →
     routeTurns (tgetD link 0 s.detours).toNat = turn :: more →
     i = .linkFailure link ∨ (i = .driftLinkRetire link ∧ link ∉ s.retiredPorts) →
     (∀ x ∈ s.unacked, x.1 = link →
       turnBad { s with retiredPorts := link :: s.retiredPorts } turn.toNat (more.isEmpty && x.2.2.route.isEmpty) = false) →
     ∃ s' n, exec i s = .next s' ∧ SameHomes s s' ∧ s'.threads = s.threads ∧
       (i = .driftLinkRetire link → link ∈ s'.retiredPorts) ∧
       s'.outbox.map (fun x => (x.1, x.2.2)) = s.outbox.map (fun x => (x.1, x.2.2)) ++
         ((s.unacked.filter fun x => x.1 = link).drop n).map fun x => (turn.toNat, { x.2.2 with
           route := more ++ x.2.2.route, also := x.2.2.also.map (more ++ ·)
           detours := ⟨Config.packageNumber, link, x.2.1, more.length + 1⟩ :: x.2.2.detours })) ∧
  ((∀ (s : State) (n die : Nat) (f : InFlight) (c : Channel) (b : Bool), tget n s.packets = some f →
     f.arrived = some die → s.packets = [(n, f)] → readChannel s f.packet.ctx f.packet.ch = some (c, b) →
     let seqs := ((s.delivered.find? fun d => d.1 = (die, f.packet.src, f.packet.ctx, f.packet.ch)).map (·.2)).getD []
     let acknowledged (w : State) (flag : Bool) : Prop :=
       ∃ s', exec (.destinationDeliver n) s = .next s' ∧ SameHomes w s' ∧ s'.threads = w.threads ∧
         ∃ q, tget w.nextKey s'.packets = some q ∧ q.packet.body = .ack f.packet.cmd flag ∧ q.input = 24 + die ∧
           q.packet.route = ((f.packet.back.headD (0, [])).2).reverse
     (∀ off bs w, f.packet.body = .data off bs → wasDelivered seqs f.packet.seq = false →
       deliverWrite s f.packet.ctx (low 64 (c.buf + off)) bs = some w → acknowledged w false) ∧
     (∀ after w, f.packet.body = .flag after → wasDelivered seqs f.packet.seq = false → flagWaits seqs f.packet = false →
       deliverAdd s f.packet.ctx c.flag 1 = some w → acknowledged w true) ∧
     (∀ after, f.packet.body = .flag after → flagWaits seqs f.packet = true → exec (.destinationDeliver n) s = .next s) ∧
     (∀ off bs, f.packet.body = .data off bs → wasDelivered seqs f.packet.seq = true →
       exec (.destinationDeliver n) s = .next { s with packets := [] })) ∧
   (∀ (s : State) (cmd : Nat) (last : Bool) (o : FabricOp) (c : Counted) (x : Nat × InFlight), tsorted s.ops = true →
     s.packets.find? (fun p => p.2.arrived.isSome && p.2.packet.body = .ack cmd last) = some x →
     tget cmd s.ops = some (.fabric o) → o.acks = 1 → o.pend = [] → o.packets = [] → o.status = 0 → o.cs = [c] →
     (∀ e ∈ s.ops, e.1 ≠ cmd → ∀ y, e.2 = .fabric y → y.pend = [] ∧ y.packets = [] ∧ y.acks ≠ 0) →
     ∃ s', exec (.fabricAckReceive cmd last) s = .next s' ∧ tget x.1 s'.packets = none ∧ tget cmd s'.ops = none ∧
       Completes s s' c ∧ SameHomes s s' ∧ ∀ k, k ≠ cmd → tget k s'.ops = tget k s.ops) ∧
   (∀ (s : State) (ctx ch f op : Nat) (c : Channel) (b : Bool), readChannel s ctx ch = some (c, b) →
     (chanRun s ctx ch).reached.find? (fun x => x.1 = (chanRun s ctx ch).steps) = some ((chanRun s ctx ch).steps, f, op) →
     c.isOpen = true → c.isRoot = true → c.grad = true → c.deadline ≠ 0 → c.replayM = false → f + c.deadline ≤ s.clk → s.ops = [] →
     ∃ s', exec (.channelDeadlineExpire ctx ch) s = .next s' ∧ s'.threads = s.threads ∧
       (chanRun s' ctx ch).steps = (chanRun s ctx ch).steps + 1 ∧ (chanRun s' ctx ch).first = none ∧
       (chanRun s' ctx ch).roots = [] ∧ (chanRun s' ctx ch).present = []) ∧
   ∀ (s : State) (ctx ch step : Nat) (x : Nat × InFlight) (c : Channel) (b : Bool),
     s.packets.find? (fun p => p.2.arrived.isSome && p.2.packet.body = .notice && p.2.packet.ctx = ctx && p.2.packet.ch = ch
       && p.2.packet.step = step) = some x → readChannel s ctx ch = some (c, b) →
     ∃ s', exec (.stepNoticeReceive ctx ch step) s = .next s' ∧ tget x.1 s'.packets = none ∧
       s'.threads = (raiseStep s ctx ch c).threads ∧
       (chanRun s' ctx ch).steps = (chanRun s ctx ch).steps + 1 ∧ SameHomes (raiseStep s ctx ch c) s')

/-- R269, R270: an evaluation lets each resting stage rest one less and reserves at most one slot on its donor's ring; the role
record moves once the slot is free, and then both stages rest for four evaluations. The model's choices in it: log entry 14.
R271, R272, R327: TARGET written away from TOP starts a drain, whose first batch is a grid of the top run of records with the id
of R327, or which ends with status 2 where TARGET lies above TOP; a batch that has completed pops its records, and the drain
ends with its last one, or with one that did not succeed. The model's choices in it: log entry 90. -/
def Obligations.TheForemanAndTheDrain : Prop :=
  ((∀ s : State, s.glob.foreman ≤ s.clk → tsorted s.contexts = true → ∃ s', exec .foremanEvaluate s = .next s' ∧
     s'.glob.foreman = (s.clk / 4096 + 1) * 4096 ∧ s'.threads = s.threads ∧
     ∀ k c, tget k s.contexts = some c → ∃ c', tget k s'.contexts = some c' ∧
       c'.rests = (c.rests.filterMap fun r => if 1 < r.2 then some (r.1, r.2 - 1) else none) ∧
       (c.foremanMove ≠ none → c'.foremanMove = c.foremanMove) ∧
       (c.foremanMove = none → s.contexts = [(k, c)] → c.state = 1 →
         (foremanPair c.rests ((List.range 64).filterMap (readStage s k)) = none → c'.foremanMove = none) ∧
         ∀ t d, foremanPair c.rests ((List.range 64).filterMap (readStage s k)) = some (t, d) →
           c'.foremanMove = some ⟨d.num, t.num, d.ring, (ringNext s (firstDie s k) k d.ring 0).1, t.ring.desc⟩)) ∧
   ∀ (s : State) (ctx : Nat) (c : Context) (m : RoleMove), tget ctx s.contexts = some c → c.foremanMove = some m →
     (ringSeq s (firstDie s ctx) ctx m.ring m.index ≠ some m.index → exec (.foremanPublish ctx) s = .next s) ∧
     (writeHeld s (firstDie s ctx) ctx (m.ring.slot m.index) 40 = true → exec (.foremanPublish ctx) s = .next s) ∧
     (ringSeq s (firstDie s ctx) ctx m.ring m.index = some m.index →
       writeHeld s (firstDie s ctx) ctx (m.ring.slot m.index) 40 = false →
     ∃ s' c', exec (.foremanPublish ctx) s = .next s' ∧ s'.threads = s.threads ∧ tget ctx s'.contexts = some c' ∧
       c'.foremanMove = none ∧ tget m.donor c'.rests = some 4 ∧ tget m.target c'.rests = some 4)) ∧
  ((∀ (s : State) (ctx top target : Nat) (c : Context), tget ctx s.contexts = some c → c.state = 1 → c.targeted = true →
     c.drain = none → winzeWord s ctx 0x10 = some top → winzeWord s ctx 0x18 = some target →
     (top = target → exec (.winzeDrainStart ctx) s = .next (s.onContext ctx fun c => { c with targeted := false })) ∧
     (∀ base, top < target → winzeWord s ctx 0x00 = some base → ∃ s' c', exec (.winzeDrainStart ctx) s = .next s' ∧
       s'.threads = s.threads ∧ s'.launches = s.launches ∧ tget ctx s'.contexts = some c' ∧ c'.drain = none) ∧
     ∀ base desc arg launch team group l, target < top → winzeWord s ctx 0x00 = some base →
       winzeRecord s ctx base (top - 1) = some (desc, arg, launch, team, group) →
       let records := winzeRun s ctx base desc launch (top - target) (top - 1)
       backwardLaunch (({ s with nextKey := s.nextKey + 1 }).onContext ctx fun c => { c with targeted := false }) ctx s.nextKey desc
         records = .ok l →
       ∃ s' c' l', exec (.winzeDrainStart ctx) s = .next s' ∧ tget ctx s'.contexts = some c' ∧
         c'.drain = some ⟨base, some s.nextKey, records.length⟩ ∧ tget s.nextKey s'.launches = some l' ∧ l'.kind = .backward records ∧
         l'.id = backwardId (((records.head?).map (·.2.1)).getD 0) desc) ∧
   ∀ (s : State) (ctx key n base : Nat) (c : Context) (l : Launch), tget ctx s.contexts = some c →
     c.drain = some ⟨base, some key, n⟩ →
     tget key s.launches = some l →
     (∀ st, l.status = some st → st ≠ 1 → ∃ s' c', exec (.winzeBatchComplete ctx) s = .next s' ∧ s'.threads = s.threads ∧
       tget key s'.launches = none ∧ tget ctx s'.contexts = some c' ∧ c'.drain = none) ∧
     ∀ w top, l.status = some 1 → (∀ e ∈ s.launches, e.2.ctx = ctx → e.2.staged = []) → l.staged = [] →
       winzeWord s ctx 0x10 = some top →
       ctxWrite s ctx (low 64 (winzeVa s ctx + 0x10)) (leBytes 8 (top - n)) = some w →
       winzeWord w ctx 0x10 = some (top - n) → winzeWord w ctx 0x18 = some (top - n) →
       ∃ s' c', exec (.winzeBatchComplete ctx) s = .next s' ∧ s'.threads = s.threads ∧ tget key s'.launches = none ∧
         tget ctx s'.contexts = some c' ∧ c'.drain = none)

/-- R115, R117 to R120, R188: a pass that is due leaves in the destination tile, for each element, the canonical reduction of
the products of its row and column; a merge leaves the pair sums of its tiles; and a command with no step and no write left
retires, its entry free and its counter one lower. -/
def Obligations.MatrixCommandsRunAndRetire : Prop :=
  ∀ (s : State) (quad entry due core : Nat) (e : MatrixEntry), tget (matrixKey quad entry) s.matrix = some e →
    e.state = .running → e.due = some due → due ≤ s.clk → e.cores = [core] → e.cfg.red = false →
    (∀ acc slot present p, e.steps = [.pass acc slot present (some 5)] → e.pins = [p] → e.carry = [] → present ≠ 0 →
      p.mismatch = none → p.poisoned = none → p.a.length = e.cfg.m → p.b.length = e.cfg.n → e.cfg.n ≤ 128 →
      ∃ s' e', exec (.matrixPassEnd quad entry) s = .next s' ∧ tget (matrixKey quad entry) s'.matrix = some e' ∧ e'.steps = [] ∧
        (∀ j, seen s' j = seen s j) ∧ s'.l2 = s.l2 ∧
        ∀ i j ra cb, p.a[i]? = some ra → p.b[j]? = some cb →
          let leaves := List.zipWith (fun x y => some (pairLeaf (mulF32 x y))) ra cb
          accElement s' core acc i j = rootValue (canonicalReduce pairAdd (leaves ++ List.replicate (32 - leaves.length) none))) ∧
    (∀ d l r, e.steps = [.merge d l r] → s.poison = [] → e.cfg.n ≤ 128 →
      ∃ s' e', exec (.matrixPassEnd quad entry) s = .next s' ∧ tget (matrixKey quad entry) s'.matrix = some e' ∧ e'.steps = [] ∧
        (∀ j, seen s' j = seen s j) ∧ s'.l2 = s.l2 ∧
        ∀ i j, i < e.cfg.m → j < e.cfg.n →
          accElement s' core d i j = pairAdd (accElement s core l i j) (accElement s core r i j)) ∧
    ∀ c, e.steps = [] → e.status = 0 → e.mismatch = none → e.counted = [c] →
      (∀ o ∈ s.ops, (∀ x, o.2 = .drain x → o.1 ≠ drainKey e) ∧ ∀ x, o.2 = .store x → x.cmd ≠ some (drainKey e)) →
      ∃ s', exec (.matrixCommandRetire quad entry) s = .next s' ∧ tget (matrixKey quad entry) s'.matrix = none ∧
        Completes s s' c ∧ SameHomes s s'

/-- R83, R123, R227, R228: the last unit of a copy takes its destination the bytes of its source, the last one of a drain its
own bytes, and no other byte changes at any home; a copy with nothing left to write retires, its counter one lower. The model's
choices in it: log entry 63. -/
def Obligations.EngineWritesArePerformed : Prop :=
  (∀ (s : State) (op d a n dp sp : Nat) (o : CopyOp), tget op s.ops = some (.copy o) → o.pieces = [(d, a, n)] → n ≠ 0 →
    (d + n - 1) / 4 = d / 4 → capturedTarget s o.team o.dst d = some (.hbm dp) → sourcePieces s o (n + 1) a n = [(.hbm sp, n)] →
    writeWaits s (.hbm dp) n = false → lineHeld s (.hbm sp) n = false → banksHeld s (.hbm sp) n = false →
    (∀ i, i < n → byteFault s o (d + i) (a + i) = none) → s.poison = [] → s.samples = [] →
    holdsStores s o.team = false → NoWriters s o.team → ∃ s', exec (.engineWrite op) s = .next s' ∧
      tget op s'.ops = some (.copy { o with pieces := [] }) ∧ (∀ j, seen s' j = seen s j) ∧
      ∀ x, homeByte s' x = if dp ≤ x ∧ x < dp + n then homeByte s (sp + (x - dp)) else homeByte s x) ∧
  (∀ (s : State) (op va pa : Nat) (bs : List Byte) (o : DrainOp), tget op s.ops = some (.drain o) → o.pieces = [(va, .hbm pa, bs)] →
    writeWaits s (.hbm pa) bs.length = false → s.samples = [] → holdsStores s o.team = false → NoWriters s o.team →
    ∃ s', exec (.engineWrite op) s = .next s' ∧ tget op s'.ops = none ∧ (∀ j, seen s' j = seen s j) ∧
      ∀ x, homeByte s' x = if pa ≤ x ∧ x < pa + bs.length then (bs[x - pa]?).getD 0 else homeByte s x) ∧
  ∀ (s : State) (op : Nat) (o : CopyOp) (c : Counted), tget op s.ops = some (.copy o) → o.pieces = [] → o.status = 0 →
    o.barrier = none → o.cs = [c] → (∀ e ∈ s.ops, ∀ x, e.2 = .store x → x.cmd ≠ some op) →
    (∀ e ∈ s.groups, e.2.state ≠ .draining) → ∃ s', exec (.copyRetire op) s = .next s' ∧ tget op s'.ops = none ∧
      Completes s s' c ∧ SameHomes s s' ∧ s'.groups = s.groups ∧ ∀ r ∈ s'.rowLocks, r.2.2.2.2 ≠ op

/-- R88, R302, R303, R322: EN written from 0 starts an enable unless ERR tells why not, EN written from 1 a disable, and once
the element range is written back EN takes its new value, no byte changed, with no line of the range pinned and no guest copy of
it left; a walk waits while an entry that it reads is in a held bank, then keeps its leaf; and an invalidation holds BUSY until
nothing on its die uses the range, and then no translation of it is cached. The model's choices in it: log entries 22, 23. -/
def Obligations.WindowsAndWalkersAnswer : Prop :=
  (∀ (s : State) (die w : Nat), s.glob.ready = true → (s.window die w).busy = false →
    (die < 4 → w < 16 → (s.window die w).en = false → (s.window die w).layout < 4 → (s.window die w).fmt < 16 →
      let err := enableError s die w (s.window die w)
      ∃ s', exec (.windowEnable die w) s = .next s' ∧ { s' with windows := s.windows } = s ∧
        s'.window die w = { s.window die w with err := err, busy := err = 0 }) ∧
    ((s.window die w).en = true → ∃ s', exec (.windowDisable die w) s = .next s' ∧ { s' with windows := s.windows } = s ∧
      s'.window die w = { s.window die w with busy := true })) ∧
  (∀ (s : State) (die w : Nat), let x := s.window die w
    x.busy = true → (∀ e ∈ s.l2, x.base ≤ e.1 → e.1 < x.base + x.bytes → bankHeld s (e.1 / 64 * 64) = false) →
    rangePinned s x.base x.bytes = false → rangeAbroad s x.base x.bytes = false →
    ∃ s', exec (.windowPurgeDone die w) s = .next s' ∧ SameHomes s s' ∧ (∀ j, seen s' j = seen s j) ∧
      s'.window die w = { x with busy := false, en := !x.en } ∧
      (∀ e ∈ s'.presence, meet (e.1 * 256) 256 x.base x.bytes = false) ∧
      ∀ a, x.base ≤ a → a < x.base + x.bytes → tget a s'.l2 = none) ∧
  (∀ (s : State) (die w : Nat), rangePinned s (s.window die w).base (s.window die w).bytes = true →
    exec (.windowPurgeDone die w) s = .next s) ∧
  (∀ (s : State) (die ctx : Nat) (va : Word64) (c : Context), tget ctx s.contexts = some c → die < 4 → c.state ≠ 0 →
    (walkWaits s die ctx va.toNat = true → exec (.translationWalk die ctx va) s = .next s) ∧
    (walkWaits s die ctx va.toNat = false → leafOf s die ctx va.toNat = none → s.poison = [] → ∃ s', exec (.translationWalk die ctx va) s = .next s' ∧
      { s' with dies := s.dies, draws := s.draws } = s) ∧
    ∀ leaf size, walkWaits s die ctx va.toNat = false → leafOf s die ctx va.toNat = some (leaf, size) → size ≠ 0 →
      ∃ s', exec (.translationWalk die ctx va) s = .next s' ∧ { s' with tlb := s.tlb, dies := s.dies, draws := s.draws } = s ∧
        ∃ t ∈ (tget die s'.tlb).getD [], t.ctx = ctx ∧ t.va ≤ va.toNat ∧ va.toNat < t.va + t.size) ∧
  ∀ (s : State) (die : Nat) (v : Word64),
    (s.glob.ready = true → die < 4 → bit v.toNat 0 = true → (s.die die).busy = false →
      ∃ s', exec (.walkerInvalidate die v) s = .next s' ∧ { s' with dies := s.dies } = s ∧
        s'.die die = { s.die die with npg := bits v.toNat 32 32, ictx := bits v.toNat 2 6, busy := true }) ∧
    ((s.die die).busy = true → (∀ o ∈ s.ops, usesOld s die (s.die die) o.2 = false) →
      (∀ e ∈ s.matrix, commandUsesOld die (s.die die) e.2 = false) →
      ∃ s', exec (.walkerInvalidateDone die) s = .next s' ∧ { s' with dies := s.dies, tlb := s.tlb } = s ∧
        s'.die die = { s.die die with busy := false } ∧
        ∀ t ∈ (tget die s'.tlb).getD [], t.ctx = (s.die die).ictx → (s.die die).touches t.va t.size = false)

/-- R283, R285, R286, R291: a write binds, unbinds, starts or kills a mailbox by its state, and the first waiting episode takes
the lowest free hart at its entry, or ends with reason 5 where its descriptor fails. The model's choices in it: log entry 92.
R242, R243, R288, R289, R292 to R294: the oldest send of a mailbox is appended while a slot is free, with its number in DST, or
is answered 1 or 2 where the episode ends or there is none, and wakes a hart that waits for it; and the oldest observation goes
to the oldest receive. The model's choices in it: log entry 97. -/
def Obligations.MailboxesFollowTheirStates : Prop :=
  ((∀ (s : State) (m : Nat) (v : Word64), s.glob.ready = true → let x := s.mailbox m
     let y := { x with ctx := bits v.toNat 10 6, vch := bits v.toNat 16 3, vchen := bit v.toNat 19 }
     (x.state = .unbound → m < 4096 → bit v.toNat 0 = true → ∃ s', exec (.mailboxBind m v) s = .next s' ∧
       { s' with mailboxes := s.mailboxes } = s ∧ s'.mailbox m = { y with state := .idle }) ∧
     (x.state = .idle → bit v.toNat 0 = false → ∃ s', exec (.mailboxUnbind m v) s = .next s' ∧
       { s' with mailboxes := s.mailboxes } = s ∧ s'.mailbox m = { y with state := .unbound, actions := [], observations := [] }) ∧
     (x.state = .idle → ∃ s', exec (.mailboxStart m) s = .next s' ∧
       { s' with mailboxes := s.mailboxes, nextKey := s.nextKey } = s ∧ (s'.mailbox m).state = .starting ∧
       (s'.mailbox m).steps = 0 ∧ (s'.mailbox m).aseq = 0 ∧ (s'.mailbox m).nstale = 0 ∧ (s'.mailbox m).pin = 0xFFFFFFFF ∧
       (s'.mailbox m).episode = readEpisode s (m / 1024) x.epdesc) ∧
     (x.state = .starting ∨ x.state = .running ∨ x.state = .checking → ∃ s', exec (.mailboxKill m) s = .next s' ∧
       (s'.mailbox m).state = .ending ∧ (s'.mailbox m).reason = 4 ∧ (s'.mailbox m).actions = [] ∧
       (s'.mailbox m).dropped = x.actions.length ∧ SameHomes s s')) ∧
   ∀ (s : State) (die m : Nat) (x : Mailbox) (more : List (Nat × Mailbox)) (e : Episode), startQueue s die = (m, x) :: more →
     tget m s.mailboxes = some x → x.state = .starting → x.episode = some e →
     (episodeOk s die e = false → ∃ s', exec (.episodeHartAssign die) s = .next s' ∧ (s'.mailbox m).state = .ending ∧
       (s'.mailbox m).reason = 5) ∧
     ∀ h, episodeOk s die e = true → freeHart s die = some h → ∃ s', exec (.episodeHartAssign die) s = .next s' ∧
       (s'.mailbox m).state = .running ∧ (s'.mailbox m).hart = h ∧ SameHomes s s' ∧
       (s'.hart (hartKey die h)).mailbox = some m ∧ (s'.hart (hartKey die h)).cycLeft = e.cycLim ∧
       (s'.hart (hartKey die h)).pc = BitVec.ofNat 64 (0x1000000000 + e.entry)) ∧
  ((∀ (s : State) (m id d : Nat) (o : SendOp) (t : Thread), headSend s m = some (id, o) → tget id s.ops = some (.send o) →
     o.ctx = (s.mailbox m).ctx → o.dst = some d → d < 384 → tget o.c.thread s.threads = some t → o.payload.length ≤ 256 →
     let x := s.mailbox m
     let done (status : Nat) (s' : State) : Prop := exec (.actionAppend m) s = .next s' ∧ tget id s'.ops = none ∧
       (∃ t', tget o.c.thread s'.threads = some t' ∧ t'.regs = tset d (BitVec.ofNat 32 status) t.regs ∧ t'.ctrs =
         if o.c.ctr < 6 then tset o.c.ctr (tgetD o.c.ctr 0 t.ctrs - 1) t.ctrs else t.ctrs) ∧ id ∉ (s'.mailbox m).sends
     (x.state = .idle ∨ x.state = .unbound → ∃ s', done 2 s' ∧ SameHomes s s') ∧
     (x.state = .ending → ∃ s', done 1 s' ∧ SameHomes s s') ∧
     (x.state = .starting ∨ x.state = .running ∨ x.state = .checking → actionSlots s m < 64 →
       (∀ k, episodeHart s m = some k → (s.hart k).wfi = true → (s.hart k).timed = true →
         stallCycles s (s.hart k).since ≤ (s.hart k).cycLeft) → ∃ s' a, done (4 * x.aseq) s' ∧
       (∀ k, episodeHart s m = some k → (s.hart k).mailbox = some m → (s'.hart k).wfi = false) ∧
       (s'.mailbox m).actions = x.actions ++ [a] ∧ a.num = x.aseq ∧ a.ver = o.version ∧ a.len = o.payload.length ∧
       (s'.mailbox m).vlast = o.version ∧
       ∀ p, homeByte s' p = if payloadPa s m false x.aseq ≤ p ∧ p < payloadPa s m false x.aseq + o.payload.length then
         (o.payload[p - payloadPa s m false x.aseq]?).getD 0 else homeByte s p)) ∧
   ∀ (s : State) (m id d pa : Nat) (o : RecvOp) (t : Thread) (h : SlotHdr) (more : List SlotHdr), headRecv s m = some (id, o) →
     tget id s.ops = some (.recv o) → (s.mailbox m).observations = h :: more → o.dst = some d → d + 2 ≤ 384 →
     tget o.c.thread s.threads = some t → o.dest = [(.hbm pa, 256)] → h.len ≤ 256 → s.freshKey →
     writeWaits s (.hbm pa) h.len = false → banksHeld s (.hbm pa) h.len = false → s.poison = [] → s.samples = [] →
     holdsStores s t.team = false → NoWriters s t.team →
     ∃ s' t', exec (.observationTake m) s = .next s' ∧ tget id s'.ops = none ∧ (s'.mailbox m).observations = more ∧
       id ∉ (s'.mailbox m).recvs ∧ tget o.c.thread s'.threads = some t' ∧
       t'.regs = tset (d + 1) (BitVec.ofNat 32 (h.word / 2 ^ 32)) (tset d (BitVec.ofNat 32 h.word) t.regs) ∧
       t'.ctrs = (if o.c.ctr < 6 then tset o.c.ctr (tgetD o.c.ctr 0 t.ctrs - 1) t.ctrs else t.ctrs) ∧
       ∀ p, homeByte s' p = if pa ≤ p ∧ p < pa + h.len then homeByte s (payloadPa s m true h.num + (p - pa)) else homeByte s p)

/-- R277, R278, R282, R288, R290 to R292: a hart's ATAKE holds the oldest action or stalls until one comes; OPOST posts the
observation of the held action, waits for a slot, turns to the checker, or stages the terminal record; what they read is 0; the
instruction at the program counter takes its effect, a load or a store among them; a misuse, a curfew, a refused or misaligned
access, an undefined word, a write of a read-only CSR or any other exception ends the episode; and its end frees the hart,
zeroes its arena, posts the terminal record and leaves the mailbox idle. The model's choices in it: log entries 91, 92, 94, 95,
96, 116. -/
def Obligations.HartsRunTheirEpisodes : Prop :=
  (∀ (s : State) (die hart m : Nat) (v : Word64), let k := hartKey die hart
    let h := s.hart k
    let x := s.mailbox m
    let killed (s' : State) (reason : Nat) : Prop := (s'.mailbox m).state = .ending ∧ (s'.mailbox m).reason = reason
    (h.timed = true → hartCounts s k = some m → ∃ s', exec (.curfewExpire die hart) s = .next s' ∧ killed s' 1) ∧
    (hartRuns s k = some m →
      (∃ s', exec (.hartException die hart) s = .next s' ∧ killed s' 3) ∧
      (hartPa h .fetch h.pc.toNat 4 = none → ∃ s', exec (.atake die hart v) s = .next s' ∧ killed s' 3) ∧
      (∀ cycles : Nat, hart < 32 → 1 ≤ cycles → (h.timed = true → cycles ≤ h.cycLeft) → let s' := hartMove s die hart cycles
        (hartPa h .fetch h.pc.toNat 2 = none → killed s' 3) ∧
        ∀ pa, hartPa h .fetch h.pc.toNat 2 = some pa → (∀ a, bankHeld s a = false) → s.poison = [] → low 2 (hartValue s pa 2) = 3 →
          (hartPa h .fetch h.pc.toNat 4 = none → killed s' 3) ∧
          ∀ qa, hartPa h .fetch h.pc.toNat 4 = some qa →
            (decodeRv32 (hartValue s qa 4) = none → killed s' 3) ∧
            ∀ i, decodeRv32 (hartValue s qa 4) = some i → (∀ op c rd a, i = .csr op c rd a true → c ≠ 0x802 ∧ c ≠ 0x810) →
              (hartExec s m k 4 i = .exception s → killed s' 3) ∧
              ∀ t, hartExec s m k 4 i = .goes t → s' = t.onHart k fun h => h.retire cycles) ∧
      (∀ (op : CsrOp) (csr rd : Nat) (a : RvSrc), 0x800 ≤ csr → csr ≤ 0x85F → csr ≠ 0x802 → csr ≠ 0x810 →
        hartExec s m k 4 (.csr op csr rd a true) = .exception s) ∧
      (∀ n r q off len : Nat, 1 ≤ n → n ≤ 8 → let va := low 64 (h.reg r + off)
        (va % n ≠ 0 ∨ hartPa h .store va n = none → hartExec s m k len (.store n r q off) = .exception s) ∧
        ∀ pa, va % n = 0 → hartPa h .store va n = some pa → (∀ a, bankHeld s a = false) →
          ∃ t, hartExec s m k len (.store n r q off) = .goes t ∧ (t.hart k).pc = BitVec.ofNat 64 (h.pc.toNat + len) ∧
            (t.hart k).x = h.x ∧
            ∀ a, homeByte t a = if pa ≤ a ∧ a < pa + n then ((leBytes n (h.reg q))[a - pa]?).getD 0 else homeByte s a) ∧
      (∀ (n rd r off len : Nat) (sgn : Bool), 1 ≤ n → n ≤ 8 → let va := low 64 (h.reg r + off)
        (va % n ≠ 0 ∨ hartPa h .load va n = none → hartExec s m k len (.load n sgn rd r off) = .exception s) ∧
        ∀ pa, va % n = 0 → hartPa h .load va n = some pa → (∀ a, bankHeld s a = false) → s.poison = [] →
          ∃ t, hartExec s m k len (.load n sgn rd r off) = .goes t ∧ SameHomes s t ∧
            (t.hart k).pc = BitVec.ofNat 64 (h.pc.toNat + len) ∧ (t.hart k).x = (h.setReg rd (BitVec.ofNat 64
              (if sgn then sext64 (8 * n) (hartValue s pa n) else hartValue s pa n))).x) ∧
      (hartPa h .fetch h.pc.toNat 4 ≠ none →
        (v = 0 → ∃ s', exec (.atake die hart v) s = .next s' ∧ s'.mailbox m = x ∧ (s'.hart k).held = h.held ∧
          (s'.hart k).pc = h.pc + 4 ∧ (s'.hart k).x = (h.setReg h.rd 0).x) ∧
        (2 ≤ v.toNat ∨ v = 1 ∧ h.held ≠ none → ∃ s', exec (.atake die hart v) s = .next s' ∧ killed s' 3) ∧
        (v = 1 → h.held = none → ∃ s', exec (.atake die hart v) s = .next s' ∧ SameHomes s s' ∧
          (x.actions = [] → (s'.hart k).stalled = true ∧ (s'.hart k).pc = h.pc ∧ s'.mailbox m = x) ∧
          ∀ a more, x.actions = a :: more → (s'.hart k).held = some a ∧ (s'.hart k).pc = h.pc + 4 ∧
            (s'.hart k).x = (h.setReg h.rd 0).x ∧ s'.mailbox m = { x with actions := more }) ∧
        (h.checker = false → bit v.toNat 9 = false →
          (opostMisuse v = true ∨ h.held = none → ∃ s', exec (.opostStep die hart v) s = .next s' ∧ killed s' 3) ∧
          ∀ a, opostMisuse v = false → h.held = some a →
            (63 ≤ x.observations.length → ∃ s', exec (.opostStep die hart v) s = .next s' ∧ s'.mailbox m = x ∧
              (s'.hart k).posting = some v ∧ (s'.hart k).pc = h.pc ∧ (s'.hart k).held = some a) ∧
            (x.observations.length < 63 → ∃ s', exec (.opostStep die hart v) s = .next s' ∧ (s'.hart k).held = none ∧
              (s'.hart k).pc = h.pc + 4 ∧ (s'.hart k).x = (h.setReg h.rd 0).x ∧ (s'.mailbox m).steps = x.steps + 1 ∧
              (s'.mailbox m).observations =
                x.observations ++ [⟨x.nextObs, a.ver, x.steps % 65536, a.stale, false, bits v.toNat 0 9⟩] ∧
              ∀ e, x.episode = some e → if e.stepLim ≤ x.steps + 1 then killed s' 2 else (s'.mailbox m).state = x.state)) ∧
        (∀ e, h.checker = false → bit v.toNat 9 = true → opostMisuse v = false → x.episode = some e →
          ∃ s', exec (.opostEnd die hart v) s = .next s' ∧ SameHomes s s' ∧ (s'.hart k).checker = true ∧ (s'.hart k).held = none ∧
            (s'.hart k).pc = BitVec.ofNat 64 (0x1000000000 + e.chkEntry) ∧ (s'.hart k).cycLeft = e.cycLim ∧
            (s'.mailbox m).state = .checking) ∧
        (h.checker = true → bit v.toNat 9 = false → opostMisuse v = false →
          ∃ s', exec (.opostTerminal die hart v) s = .next s' ∧ SameHomes s s' ∧ killed s' 0 ∧
            (s'.mailbox m).staged = h.opayBytes (bits v.toNat 0 9))))) ∧
  (∀ (s : State) (die hart m : Nat) (a : SlotHdr) (more : List SlotHdr), let k := hartKey die hart
    (s.hart k).mailbox = some m → (s.hart k).stalled = true → (s.mailbox m).actions = a :: more → (.hart, k) ∉ s.frozen →
    ∃ s', exec (.actionHold die hart) s = .next s' ∧ SameHomes s s' ∧ (s'.hart k).held = some a ∧ (s'.hart k).stalled = false ∧
      (s'.hart k).pc = (s.hart k).pc + 4 ∧ s'.mailbox m = { s.mailbox m with actions := more }) ∧
  ∀ (s : State) (m : Nat) (e : Episode), let x := s.mailbox m
    x.state = .ending → x.observations.length < 64 → x.episode = some e →
    let n := (terminalPayload x).length
    let pa := payloadPa s m true x.nextObs
    let arena := arenaOf s (mailboxDie m) e.tag
    let zeroed := (episodeHart s m).isSome || arenaOk s (mailboxDie m) e
    ∃ s', exec (.episodeEndComplete m) s = .next s' ∧ (s'.mailbox m).state = .idle ∧ (s'.mailbox m).terms = (x.terms + 1) % 2 ^ 32 ∧
      (s'.mailbox m).episode = none ∧ (∀ k, episodeHart s m = some k → s'.hart k = Hart.reset) ∧ (s'.mailbox m).observations =
        x.observations ++ [⟨x.nextObs, x.vlast, x.steps % 65536, x.nstale ≠ 0, true, n⟩] ∧
      (∀ i, i < n → homeByte s' (pa + i) = ((terminalPayload x)[i]?).getD 0) ∧
      ∀ a, a < pa ∨ pa + n ≤ a → homeByte s' a = if zeroed ∧ arena.1 ≤ a ∧ a < arena.1 + 2 ^ arena.2 then 0 else homeByte s a


/-! ## Pre-emption, reliability, start-up and the host (R16, R20, R304 to R330) -/

/-- R304, R305, R307: a request comes on top of those that stand, takes victims of lower priority alone and none while enough
cores are free, and the first victim is saved; a team with nothing in issue or outstanding is SAVED, its groups with it; and the
lowest saved cluster of a launch goes back to the lowest die that can hold it. The model's choices in it: log entries 85, 86.
R16, R308 to R313: a period of residual service begins every 12,000,000 clk and its windows end with their time; a launch that
has issued nothing for INVTMO clk is recorded; a quad being retired enters the retirement map once it is empty; and a checkpoint
interval whose stores have completed begins anew with its rollback. The model's choices in it: log entries 4, 14, 87. -/
def Obligations.TeamsAreSavedAndQuadsRetired : Prop :=
  ((∀ (s : State) (cores prio : Nat) (source : PreemptSource), source ≠ .admission → cores ≠ 0 → cores ≤ 576 → prio ≤ 7 →
     let noted : State := { s with requests := s.requests ++ [⟨cores, prio, none⟩] }
     let chosen := chooseVictims noted [0, 1, 2, 3] prio
     ∃ s', exec (.preemptRequest cores prio source) s = .next s' ∧ (∀ j, seen s' j = seen s j) ∧ s'.requests = noted.requests ∧
       (∀ j ∈ chosen.victims, j ∈ s.victims ∨ ∃ e ∈ s.teams, e.1 = j ∧ (e.2.state = .running ∨ e.2.state = .placed) ∧
         ∃ l, tget e.2.launch s.launches = some l ∧ launchPrio s l < prio) ∧
       ((noted.requests.map (wantedOf noted [0, 1, 2, 3])).sum ≤ freeCores noted [0, 1, 2, 3] → chosen.victims = s.victims) ∧
       ∀ k more t, chosen.victims = k :: more → tget k s.teams = some t → t.state = .running ∨ t.state = .placed →
         (∀ e ∈ s.teams, e.2.state ≠ .saving) → ∃ t', tget k s'.teams = some t' ∧ t'.state = .saving) ∧
   (∀ (s : State) (team : Nat) (t : Team), tget team s.teams = some t → t.state = .saving → saveReady s team = true →
     s.residual = [] → ∃ s' t', exec (.teamSaved team) s = .next s' ∧ tget team s'.teams = some t' ∧ t'.state = .saved ∧
       t'.saved ≠ none ∧ (∀ j, seen s' j = seen s j) ∧ (∀ e ∈ s'.groups, e.2.team = team → e.2.state = .saved) ∧
       ∀ e ∈ s'.cages, e.2.team ≠ team) ∧
   ∀ (s w : State) (launch k : Nat) (l : Launch), tget launch s.launches = some l → resumable s launch = some [k] →
     outranked s l = false → (openDies s l.ctx).findSome? (fun die => restoreOnDie die (some s) k) = some w →
     exec (.clusterResume launch) s = .next w ∧ ∃ t', tget k w.teams = some t' ∧ t'.saved = none ∧
       (t'.state = .placed ∨ t'.state = .running)) ∧
  ((∀ s : State, (s.glob.residualAt ≤ s.clk → ∃ s', exec .residualPeriod s = .next s' ∧
       s'.glob.residualAt = (s.clk / 12000000 + 1) * 12000000) ∧
     ∃ s', exec .residualWindowEnd s = .next s' ∧ (∀ j, seen s' j = seen s j) ∧
       ∀ r, r ∈ s'.residual ↔ r ∈ s.residual ∧ ∀ u, r.until_ = some u → s.clk < u) ∧
   (∀ (s : State) (launch : Nat) (l : Launch), tget launch s.launches = some l → l.status = none →
     max l.lastIssue l.reported + s.glob.invtmo ≤ s.clk →
     ∃ s' l', exec (.inversionTimeout launch) s = .next s' ∧ tget launch s'.launches = some l' ∧ l' = { l with reported := s.clk } ∧
       s' = errorRecord (s.onLaunch launch fun l => { l with reported := s.clk }) l.ctx 8 0 0
         (leBytes 8 l.id ++ leBytes 8 (s.clk - l.lastIssue))) ∧
   (∀ (s : State) (die quad : Nat), die < 4 → quad < 36 → let q := die * 36 + quad
     q ∉ s.retiredQuads → q ∉ s.retiring →
     (∀ c, c / 4 = q → teamsOn s c = [] ∧ (∀ e ∈ s.cages, e.1 / 64 ≠ c) ∧ ∀ e ∈ s.entrants, e.2.core ≠ c) →
     ∃ s', exec (.quadRetire die quad) s = .next s' ∧ q ∈ s'.retiredQuads ∧ q ∉ s'.retiring ∧ ∀ j, seen s' j = seen s j) ∧
   ∀ (s : State) (team : Nat) (t : Team) (iv : Interval), tget team s.teams = some t → t.interval = some iv → iv.closing = true →
     t.state ≠ .saved → (∀ o ∈ s.ops, (∀ x, o.2 = .store x → x.team ≠ team) ∧ ∀ x, o.2 = .tile x → x.storing = true → x.team ≠ team) →
     ∃ s' t' iv', exec (.intervalBoundaryComplete team) s = .next s' ∧ tget team s'.teams = some t' ∧ t'.interval = some iv' ∧
       iv'.lost = false ∧ iv'.rolledBack = false)

/-- R315, R317: the patrol records what it finds and poisons a sector it cannot correct; a master that freezes issues nothing
more, its cores with it, until it is reset, its state held to be read and the commands of a sequencer or fetch unit failed, and
a frozen host function leaves the device contained, which its reset does not end. The model's choices in it: log entries 98,
113.
R318, R319: a sampled team's output is hashed once it has finished, or dropped and counted beyond 64; and a replay that has
ended is counted as verified, or as unverified after a discard, and its sample goes. The model's choices in it: log entries 10,
89.
R5, R320, R323: a row that has reached RMT raises ALERTS, alerts the management processor and holds its bank for 96 clk; a read
of ALERTS, ASAMP, ADROP or AUNVER gives the host the value and clears it, where the host may read it; and issue is held on whole
bays above PLIM. The model's choices in it: log entries 7, 101. -/
def Obligations.FaultsAlertsAndTheAssayer : Prop :=
  ((∀ (s : State) (sector : Nat), sector % 64 = 0 → sector < hbmBytes →
     exec (.patrolScrub sector .clean) s = .next s ∧
     (∃ s', exec (.patrolScrub sector .corrected) s = .next s' ∧ s'.poison = s.poison ∧ ∀ j, seen s' j = seen s j) ∧
     ∃ s', exec (.patrolScrub sector .uncorrectable) s = .next s' ∧ sector ∈ s'.poison ∧ ∀ j, seen s' j = seen s j) ∧
   (∀ (s : State) (kind : MasterKind) (id code : Nat), masterExists s kind id = true → (kind, id) ∉ s.frozen →
     ∃ s', exec (.masterFreeze kind id code) s = .next s' ∧ (kind, id) ∈ s'.frozen ∧
       ((kind, id), heldState s kind id) ∈ s'.heldMasters ∧
       (kind = .matrixSequencer ∨ kind = .tileFetch → ∀ key e, tget key s.matrix = some e → key / 64 = id →
         ∃ e', tget key s'.matrix = some e' ∧ e'.steps = [] ∧ e'.status = 4) ∧
       (kind = .hostFunction → contained s' = true) ∧ ∀ c ∈ frozenCores kind id, (s'.core c).frozen = true) ∧
   ∀ (s : State) (kind : MasterKind) (id : Nat), (kind, id) ∈ s.frozen →
     ∃ s', exec (.masterReset kind id) s = .next s' ∧ (∀ f, f ∈ s'.frozen ↔ f ∈ s.frozen ∧ f ≠ (kind, id)) ∧
       (∀ h ∈ s'.heldMasters, h.1 ≠ (kind, id)) ∧
       contained s' = contained s ∧ (∀ c, (s'.core c).frozen = if c ∈ frozenCores kind id then s'.frozen.any fun f => (frozenCores f.1 f.2).contains c
         else (s.core c).frozen) ∧ (∀ j, seen s' j = seen s j) ∧ SameHomes s s') ∧
  ((∀ (s : State) (launch team die : Nat) (l : Launch) (a : Assay), tget launch s.launches = some l → l.assay = some a →
     (∀ e ∈ s.samples, e.2.launch = launch → e.2.team = team → e.2.replay ≠ none) →
     l.unsampled.find? (fun u => u.1 = team) = some (team, die) →
     (64 ≤ s.samples.length → ∃ s', exec (.assayerSample launch team) s = .next s' ∧ s'.glob.adrop = low 64 (s.glob.adrop + 1) ∧
       s'.samples = s.samples ∧ SameHomes s s') ∧
     (s.samples.length < 64 → ∃ s' x, exec (.assayerSample launch team) s = .next s' ∧ tget s.nextKey s'.samples = some x ∧
       x.launch = launch ∧ x.team = team ∧ x.die = die ∧
       x.s1 = sha256 ((ctxRead s l.ctx (outputOf a team).1 (outputOf a team).2).getD []))) ∧
   ∀ (s : State) (n key : Nat) (x : Sample), tget n s.samples = some x → x.replay = some key →
     (x.unverifiable = true → ∃ s', exec (.assayerReplayEnd n) s = .next s' ∧ s'.glob.aunver = low 64 (s.glob.aunver + 1) ∧
       s'.glob.asamp = s.glob.asamp ∧ tget n s'.samples = none ∧ tget key s'.launches = none) ∧
     (x.unverifiable = false → replayDone s key = true → ∃ s', exec (.assayerReplayEnd n) s = .next s' ∧
       s'.glob.asamp = low 64 (s.glob.asamp + 1) ∧ s'.glob.aunver = s.glob.aunver ∧ tget n s'.samples = none ∧
       tget key s'.launches = none)) ∧
  ((∀ (s : State) (die ctrl bank row n : Nat),
     (s.die die).rows.find? (fun r => r.1 = (ctrl, bank, row)) = some ((ctrl, bank, row), n) → (s.die die).rmt ≤ n →
     ∃ s', exec (.rowActivationAlert die ctrl bank row) s = .next s' ∧ { s' with dies := s.dies, glob := s.glob } = s ∧
       s'.glob = { s.glob with alerted := s.glob.alerted ++ [(die, ctrl, bank, row)] } ∧
       (s'.die die).alerts = low 32 ((s.die die).alerts + 1) ∧ (∀ r ∈ (s'.die die).rows, r.1 ≠ (ctrl, bank, row)) ∧
       ∃ u, s.clk + 96 ≤ u ∧ ((ctrl, bank), u) ∈ (s'.die die).holds ∧
         ((∀ h ∈ (s.die die).holds, h.1 ≠ (ctrl, bank)) → u = s.clk + 96)) ∧
   (∀ (s : State) (die ctrl bank u : Nat), ((ctrl, bank), u) ∈ (s.die die).holds → u ≤ s.clk →
     ∃ s', exec (.bankHoldEnd die ctrl bank) s = .next s' ∧ { s' with dies := s.dies } = s ∧
       ∀ h ∈ (s'.die die).holds, h.1 ≠ (ctrl, bank)) ∧
   (∀ s : State, contained s = false →
     (∀ die, die < 4 → s.glob.ready = false → exec (.alertsRead die) s = .next { s with host := s.host ++ [.unsupported] }) ∧
     (∀ die, die < 4 → s.glob.ready = true → ∃ s', exec (.alertsRead die) s = .next s' ∧ (s'.die die).alerts = 0 ∧ (s'.die die).rmt = (s.die die).rmt ∧
       s'.host = s.host ++ [.completion (leBytes 8 ((s.die die).alerts * 2 ^ 32 + (s.die die).rmt))] ∧
       { s' with dies := s.dies, host := s.host } = s) ∧
     ∀ i v g, (i = .asampRead ∧ v = s.glob.asamp ∧ g = { s.glob with asamp := 0 }) ∨
         (i = .adropRead ∧ v = s.glob.adrop ∧ g = { s.glob with adrop := 0 }) ∨
         (i = .aunverRead ∧ v = s.glob.aunver ∧ g = { s.glob with aunver := 0 }) →
       exec i s = .next { s with host := s.host ++ [.completion (leBytes 8 v)], glob := g }) ∧
   ∀ (s : State) (average : Nat), ∃ s', exec (.powerLimitThrottle average) s = .next s' ∧
     { s' with throttled := s.throttled, draws := s.draws } = s ∧ (s.glob.plim < average → s'.throttled ≠ none) ∧
     (average < s.glob.plim → s'.throttled = none) ∧ (average = s.glob.plim → s' = s))

/-- R330: power-on leaves every register at its reset value, but for what the model keeps beside it (its own counters, the
retirement map, what has reached the host: a choice of the model, see the log); a reset or a START write begins a start at step
1 with no context left open; a step that succeeds leads to the next, the zeroing once no write is left, and one that fails stops
the start with its number in FAIL. The model's choices in it: log entries 9, 16, 17, 18.
R329 (the order of the first three requests is the model's choice, log entry 100): a request in its turn gets its parts from the
responder, which runs once step 1 has verified its firmware, and one out of turn gets none. The model's choices in it: log
entries 9, 100.
R20, R21, R321 to R323, R330: through BAR2 the host reads the bytes from WBASE upward, in completions of at most 512 bytes, and
writes them, in writes of at most 512; through BAR0 it writes and reads an assigned register and meets Unsupported Request
elsewhere. The model's choices in it: log entries 19, 20, 24. -/
def Obligations.StartsRespondersAndTheHost : Prop :=
  ((∀ s : State, ∃ s', exec .powerOnReset s = .next s' ∧ s'.retiredQuads = s.retiredQuads ∧ { s' with
     agenda := State.reset.agenda, draws := State.reset.draws, nextKey := State.reset.nextKey
     retiredQuads := State.reset.retiredQuads, retiredPorts := State.reset.retiredPorts, host := State.reset.host } = State.reset) ∧
   (∀ (s : State) (i : Instr) (warm : Bool), i = .pcieFundamentalReset ∧ warm = false ∨
       (s.glob.ready = true ∨ s.glob.fail ≠ 0) ∧ (i = .coldStart ∧ warm = false ∨ i = .warmStart ∧ warm = true) →
     ∃ s', exec i s = .next s' ∧ s'.glob.ready = false ∧ s'.glob.fail = 0 ∧ s'.glob.step = 1 ∧ s'.glob.warm = warm ∧
       contained s' = false ∧
       (∀ k c, tget k s'.contexts = some c → c.state ≠ 1 ∧ c.state ≠ 2) ∧ (i = .pcieFundamentalReset → s'.spdm.stage = 0)) ∧
   ∀ s : State, s.glob.step ≠ 0 → let n := s.glob.step
     (∃ s', exec (.startStepEnd false) s = .next s' ∧ { s' with glob := s.glob } = s ∧ s'.glob.fail = n ∧ s'.glob.step = 0 ∧
       s'.glob.ready = false ∧ s'.glob.calok = (s.glob.calok && !(2 ≤ n && n ≤ 4))) ∧
     (n = 6 → writesLeft s = true → exec (.startStepEnd true) s = .next s) ∧
     ((n = 6 → writesLeft s = false) → ∃ s', exec (.startStepEnd true) s = .next s' ∧
       s'.glob.step = (if n = 1 then (if s.glob.warm && s.glob.calok then 6 else 2) else if n = 8 then 0 else n + 1) ∧
       (n = 8 → s'.glob.ready = true) ∧ (n = 5 → s'.glob.calok = true ∧ s'.glob.calibration = some s.draws) ∧
       (n = 6 → s'.full = [] ∧ s'.ops = [] ∧ s'.rows = [] ∧ ∀ a, s.glob.warm = false ∨ hbmBytes ≤ a ∨ preserved s a = false → homeByte s' a = 0) ∧
       (n = 7 → s'.contexts = [] ∧ s'.windows = [] ∧ s'.mailboxes = [] ∧ s'.threads = [] ∧ s'.mem = s.mem ∧
         s'.retiredQuads = s.retiredQuads))) ∧
  (∀ (s : State) (n : Nat) (i : Instr) (r : List Byte), [.getVersion r, .getCapabilities r, .negotiateAlgorithms r, .getDigests r,
       .getCertificate r, .challenge r, .getMeasurements r][n]? = some i → contained s = false → s.glob.step ≠ 1 → s.glob.fail ≠ 1 →
     let inTurn := n = 0 ∨ (n ≤ 2 ∧ s.spdm.stage = n) ∨ (3 ≤ n ∧ s.spdm.stage = 3)
     ∃ s', exec i s = .next s' ∧ { s' with host := s.host, spdm := s.spdm } = s ∧
       (inTurn → s'.host = s.host ++ [.spdm n (some (spdmParts s n r))] ∧ s'.spdm.stage = if n ≤ 2 then n + 1 else s.spdm.stage) ∧
       (¬ inTurn → s'.host = s.host ++ [.spdm n none] ∧ s'.spdm = s.spdm)) ∧
  ((∀ (s : State) (off n : Nat) (bs : List Byte), let pa := s.glob.wbase + off
     (512 < bs.length → exec (.hostWindowAccess (.write off bs)) s = .next s) ∧
     (contained s = false → s.glob.ready = true → n ≠ 0 → off + n ≤ 2 ^ 36 → pa + n ≤ hbmBytes →
       (lineHeld s (.hbm pa) n = false → banksHeld s (.hbm pa) n = false → s.poison = [] → (∀ a ∈ addrs pa n, arenaTableByte s a = none) →
         ∃ (s' : State) (cs : List (List Byte)), exec (.hostWindowAccess (.read off n)) s = .next s' ∧
           { s' with host := s.host, dies := s.dies, draws := s.draws } = s ∧ s'.host = s.host ++ cs.map .completion ∧
           cs.flatten = (addrs pa n).map (homeByte s) ∧ ∀ c ∈ cs, c.length ≤ 512) ∧
       (bs.length = n → n ≤ 512 → writeWaits s (.hbm pa) n = false → ∃ s', exec (.hostWindowAccess (.write off bs)) s = .next s' ∧
         (∀ j, seen s' j = seen s j) ∧ s'.host = s.host ∧
         ∀ a, homeByte s' a = if pa ≤ a ∧ a < pa + n then (bs[a - pa]?).getD 0 else homeByte s a))) ∧
   ∀ (s : State) (v : Word64), contained s = false →
     exec (.registerWrite 0x10 v) s = .next { s with glob := { s.glob with wbase := v.toNat } } ∧
     registerRead s 0x10 8 = { s with host := s.host ++ [.completion (leBytes 8 s.glob.wbase)] } ∧
     (600 ≤ bits v.toNat 0 16 → bits v.toNat 0 16 ≤ 2800 →
       exec (.registerWrite 0x38 v) s = .next { s with glob := { s.glob with plim := bits v.toNat 0 16 } }) ∧
     ∀ off, controlAssigned off = false ∨ off % 8 ≠ 0 ∨ (s.glob.ready = false ∧ 0x140 ≤ off) →
       exec (.registerWrite off v) s = .next { s with host := s.host ++ [.unsupported] } ∧
       registerRead s off 8 = { s with host := s.host ++ [.unsupported] })
end

