-- ==== Sys2Proof/Laws/State.lean ====
section
/-! SUPPORT. One law for each field of the state under each shared update: the field it changes, and every field it leaves. -/

namespace Sys2Proof.Machine

/-! ### `State.onThread` -/

@[simp] theorem onThread_clk (s : State) (k : Nat) (f : Thread → Thread) : (s.onThread k f).clk = s.clk := rfl
@[simp] theorem onThread_readyAt (s : State) (k : Nat) (f : Thread → Thread) : (s.onThread k f).readyAt = s.readyAt := rfl
@[simp] theorem onThread_agenda (s : State) (k : Nat) (f : Thread → Thread) : (s.onThread k f).agenda = s.agenda := rfl
@[simp] theorem onThread_draws (s : State) (k : Nat) (f : Thread → Thread) : (s.onThread k f).draws = s.draws := rfl
@[simp] theorem onThread_nextKey (s : State) (k : Nat) (f : Thread → Thread) : (s.onThread k f).nextKey = s.nextKey := rfl
@[simp] theorem onThread_issuing (s : State) (k : Nat) (f : Thread → Thread) : (s.onThread k f).issuing = s.issuing := rfl
@[simp] theorem onThread_threads (s : State) (k : Nat) (f : Thread → Thread) : (s.onThread k f).threads = tmod k f s.threads := rfl
@[simp] theorem onThread_groups (s : State) (k : Nat) (f : Thread → Thread) : (s.onThread k f).groups = s.groups := rfl
@[simp] theorem onThread_teams (s : State) (k : Nat) (f : Thread → Thread) : (s.onThread k f).teams = s.teams := rfl
@[simp] theorem onThread_launches (s : State) (k : Nat) (f : Thread → Thread) : (s.onThread k f).launches = s.launches := rfl
@[simp] theorem onThread_contexts (s : State) (k : Nat) (f : Thread → Thread) : (s.onThread k f).contexts = s.contexts := rfl
@[simp] theorem onThread_cores (s : State) (k : Nat) (f : Thread → Thread) : (s.onThread k f).cores = s.cores := rfl
@[simp] theorem onThread_cages (s : State) (k : Nat) (f : Thread → Thread) : (s.onThread k f).cages = s.cages := rfl
@[simp] theorem onThread_entrants (s : State) (k : Nat) (f : Thread → Thread) : (s.onThread k f).entrants = s.entrants := rfl
@[simp] theorem onThread_ports (s : State) (k : Nat) (f : Thread → Thread) : (s.onThread k f).ports = s.ports := rfl
@[simp] theorem onThread_fixed (s : State) (k : Nat) (f : Thread → Thread) : (s.onThread k f).fixed = s.fixed := rfl
@[simp] theorem onThread_ops (s : State) (k : Nat) (f : Thread → Thread) : (s.onThread k f).ops = s.ops := rfl
@[simp] theorem onThread_dieOrder (s : State) (k : Nat) (f : Thread → Thread) : (s.onThread k f).dieOrder = s.dieOrder := rfl
@[simp] theorem onThread_mem (s : State) (k : Nat) (f : Thread → Thread) : (s.onThread k f).mem = s.mem := rfl
@[simp] theorem onThread_l2 (s : State) (k : Nat) (f : Thread → Thread) : (s.onThread k f).l2 = s.l2 := rfl
@[simp] theorem onThread_l1 (s : State) (k : Nat) (f : Thread → Thread) : (s.onThread k f).l1 = s.l1 := rfl
@[simp] theorem onThread_presence (s : State) (k : Nat) (f : Thread → Thread) : (s.onThread k f).presence = s.presence := rfl
@[simp] theorem onThread_rows (s : State) (k : Nat) (f : Thread → Thread) : (s.onThread k f).rows = s.rows := rfl
@[simp] theorem onThread_full (s : State) (k : Nat) (f : Thread → Thread) : (s.onThread k f).full = s.full := rfl
@[simp] theorem onThread_poison (s : State) (k : Nat) (f : Thread → Thread) : (s.onThread k f).poison = s.poison := rfl
@[simp] theorem onThread_tlb (s : State) (k : Nat) (f : Thread → Thread) : (s.onThread k f).tlb = s.tlb := rfl
@[simp] theorem onThread_rangeLocks (s : State) (k : Nat) (f : Thread → Thread) : (s.onThread k f).rangeLocks = s.rangeLocks := rfl
@[simp] theorem onThread_rowLocks (s : State) (k : Nat) (f : Thread → Thread) : (s.onThread k f).rowLocks = s.rowLocks := rfl
@[simp] theorem onThread_writers (s : State) (k : Nat) (f : Thread → Thread) : (s.onThread k f).writers = s.writers := rfl
@[simp] theorem onThread_atomCounts (s : State) (k : Nat) (f : Thread → Thread) : (s.onThread k f).atomCounts = s.atomCounts := rfl
@[simp] theorem onThread_homes (s : State) (k : Nat) (f : Thread → Thread) : (s.onThread k f).homes = s.homes := rfl
@[simp] theorem onThread_evictFirst (s : State) (k : Nat) (f : Thread → Thread) : (s.onThread k f).evictFirst = s.evictFirst := rfl
@[simp] theorem onThread_l1EvictFirst (s : State) (k : Nat) (f : Thread → Thread) : (s.onThread k f).l1EvictFirst = s.l1EvictFirst := rfl
@[simp] theorem onThread_windows (s : State) (k : Nat) (f : Thread → Thread) : (s.onThread k f).windows = s.windows := rfl
@[simp] theorem onThread_dies (s : State) (k : Nat) (f : Thread → Thread) : (s.onThread k f).dies = s.dies := rfl
@[simp] theorem onThread_matrix (s : State) (k : Nat) (f : Thread → Thread) : (s.onThread k f).matrix = s.matrix := rfl
@[simp] theorem onThread_matrixSeq (s : State) (k : Nat) (f : Thread → Thread) : (s.onThread k f).matrixSeq = s.matrixSeq := rfl
@[simp] theorem onThread_marks (s : State) (k : Nat) (f : Thread → Thread) : (s.onThread k f).marks = s.marks := rfl
@[simp] theorem onThread_writersOf (s : State) (k : Nat) (f : Thread → Thread) : (s.onThread k f).writersOf = s.writersOf := rfl
@[simp] theorem onThread_handles (s : State) (k : Nat) (f : Thread → Thread) : (s.onThread k f).handles = s.handles := rfl
@[simp] theorem onThread_buffers (s : State) (k : Nat) (f : Thread → Thread) : (s.onThread k f).buffers = s.buffers := rfl
@[simp] theorem onThread_arrivals (s : State) (k : Nat) (f : Thread → Thread) : (s.onThread k f).arrivals = s.arrivals := rfl
@[simp] theorem onThread_treated (s : State) (k : Nat) (f : Thread → Thread) : (s.onThread k f).treated = s.treated := rfl
@[simp] theorem onThread_spills (s : State) (k : Nat) (f : Thread → Thread) : (s.onThread k f).spills = s.spills := rfl
@[simp] theorem onThread_channels (s : State) (k : Nat) (f : Thread → Thread) : (s.onThread k f).channels = s.channels := rfl
@[simp] theorem onThread_seqs (s : State) (k : Nat) (f : Thread → Thread) : (s.onThread k f).seqs = s.seqs := rfl
@[simp] theorem onThread_packets (s : State) (k : Nat) (f : Thread → Thread) : (s.onThread k f).packets = s.packets := rfl
@[simp] theorem onThread_outbox (s : State) (k : Nat) (f : Thread → Thread) : (s.onThread k f).outbox = s.outbox := rfl
@[simp] theorem onThread_unacked (s : State) (k : Nat) (f : Thread → Thread) : (s.onThread k f).unacked = s.unacked := rfl
@[simp] theorem onThread_delivered (s : State) (k : Nat) (f : Thread → Thread) : (s.onThread k f).delivered = s.delivered := rfl
@[simp] theorem onThread_accepted (s : State) (k : Nat) (f : Thread → Thread) : (s.onThread k f).accepted = s.accepted := rfl
@[simp] theorem onThread_notices (s : State) (k : Nat) (f : Thread → Thread) : (s.onThread k f).notices = s.notices := rfl
@[simp] theorem onThread_detours (s : State) (k : Nat) (f : Thread → Thread) : (s.onThread k f).detours = s.detours := rfl
@[simp] theorem onThread_retiredQuads (s : State) (k : Nat) (f : Thread → Thread) : (s.onThread k f).retiredQuads = s.retiredQuads := rfl
@[simp] theorem onThread_retiredPorts (s : State) (k : Nat) (f : Thread → Thread) : (s.onThread k f).retiredPorts = s.retiredPorts := rfl
@[simp] theorem onThread_mailboxes (s : State) (k : Nat) (f : Thread → Thread) : (s.onThread k f).mailboxes = s.mailboxes := rfl
@[simp] theorem onThread_harts (s : State) (k : Nat) (f : Thread → Thread) : (s.onThread k f).harts = s.harts := rfl
@[simp] theorem onThread_arenas (s : State) (k : Nat) (f : Thread → Thread) : (s.onThread k f).arenas = s.arenas := rfl
@[simp] theorem onThread_requests (s : State) (k : Nat) (f : Thread → Thread) : (s.onThread k f).requests = s.requests := rfl
@[simp] theorem onThread_victims (s : State) (k : Nat) (f : Thread → Thread) : (s.onThread k f).victims = s.victims := rfl
@[simp] theorem onThread_withdrawn (s : State) (k : Nat) (f : Thread → Thread) : (s.onThread k f).withdrawn = s.withdrawn := rfl
@[simp] theorem onThread_retiring (s : State) (k : Nat) (f : Thread → Thread) : (s.onThread k f).retiring = s.retiring := rfl
@[simp] theorem onThread_residual (s : State) (k : Nat) (f : Thread → Thread) : (s.onThread k f).residual = s.residual := rfl
@[simp] theorem onThread_samples (s : State) (k : Nat) (f : Thread → Thread) : (s.onThread k f).samples = s.samples := rfl
@[simp] theorem onThread_frozen (s : State) (k : Nat) (f : Thread → Thread) : (s.onThread k f).frozen = s.frozen := rfl
@[simp] theorem onThread_heldMasters (s : State) (k : Nat) (f : Thread → Thread) : (s.onThread k f).heldMasters = s.heldMasters := rfl
@[simp] theorem onThread_throttled (s : State) (k : Nat) (f : Thread → Thread) : (s.onThread k f).throttled = s.throttled := rfl
@[simp] theorem onThread_idCounter (s : State) (k : Nat) (f : Thread → Thread) : (s.onThread k f).idCounter = s.idCounter := rfl
@[simp] theorem onThread_mgmtLog (s : State) (k : Nat) (f : Thread → Thread) : (s.onThread k f).mgmtLog = s.mgmtLog := rfl
@[simp] theorem onThread_host (s : State) (k : Nat) (f : Thread → Thread) : (s.onThread k f).host = s.host := rfl
@[simp] theorem onThread_msix (s : State) (k : Nat) (f : Thread → Thread) : (s.onThread k f).msix = s.msix := rfl
@[simp] theorem onThread_spdm (s : State) (k : Nat) (f : Thread → Thread) : (s.onThread k f).spdm = s.spdm := rfl
@[simp] theorem onThread_glob (s : State) (k : Nat) (f : Thread → Thread) : (s.onThread k f).glob = s.glob := rfl

/-! ### `State.onGroup` -/

@[simp] theorem onGroup_clk (s : State) (k : Nat) (f : Group → Group) : (s.onGroup k f).clk = s.clk := rfl
@[simp] theorem onGroup_readyAt (s : State) (k : Nat) (f : Group → Group) : (s.onGroup k f).readyAt = s.readyAt := rfl
@[simp] theorem onGroup_agenda (s : State) (k : Nat) (f : Group → Group) : (s.onGroup k f).agenda = s.agenda := rfl
@[simp] theorem onGroup_draws (s : State) (k : Nat) (f : Group → Group) : (s.onGroup k f).draws = s.draws := rfl
@[simp] theorem onGroup_nextKey (s : State) (k : Nat) (f : Group → Group) : (s.onGroup k f).nextKey = s.nextKey := rfl
@[simp] theorem onGroup_issuing (s : State) (k : Nat) (f : Group → Group) : (s.onGroup k f).issuing = s.issuing := rfl
@[simp] theorem onGroup_threads (s : State) (k : Nat) (f : Group → Group) : (s.onGroup k f).threads = s.threads := rfl
@[simp] theorem onGroup_groups (s : State) (k : Nat) (f : Group → Group) : (s.onGroup k f).groups = tmod k f s.groups := rfl
@[simp] theorem onGroup_teams (s : State) (k : Nat) (f : Group → Group) : (s.onGroup k f).teams = s.teams := rfl
@[simp] theorem onGroup_launches (s : State) (k : Nat) (f : Group → Group) : (s.onGroup k f).launches = s.launches := rfl
@[simp] theorem onGroup_contexts (s : State) (k : Nat) (f : Group → Group) : (s.onGroup k f).contexts = s.contexts := rfl
@[simp] theorem onGroup_cores (s : State) (k : Nat) (f : Group → Group) : (s.onGroup k f).cores = s.cores := rfl
@[simp] theorem onGroup_cages (s : State) (k : Nat) (f : Group → Group) : (s.onGroup k f).cages = s.cages := rfl
@[simp] theorem onGroup_entrants (s : State) (k : Nat) (f : Group → Group) : (s.onGroup k f).entrants = s.entrants := rfl
@[simp] theorem onGroup_ports (s : State) (k : Nat) (f : Group → Group) : (s.onGroup k f).ports = s.ports := rfl
@[simp] theorem onGroup_fixed (s : State) (k : Nat) (f : Group → Group) : (s.onGroup k f).fixed = s.fixed := rfl
@[simp] theorem onGroup_ops (s : State) (k : Nat) (f : Group → Group) : (s.onGroup k f).ops = s.ops := rfl
@[simp] theorem onGroup_dieOrder (s : State) (k : Nat) (f : Group → Group) : (s.onGroup k f).dieOrder = s.dieOrder := rfl
@[simp] theorem onGroup_mem (s : State) (k : Nat) (f : Group → Group) : (s.onGroup k f).mem = s.mem := rfl
@[simp] theorem onGroup_l2 (s : State) (k : Nat) (f : Group → Group) : (s.onGroup k f).l2 = s.l2 := rfl
@[simp] theorem onGroup_l1 (s : State) (k : Nat) (f : Group → Group) : (s.onGroup k f).l1 = s.l1 := rfl
@[simp] theorem onGroup_presence (s : State) (k : Nat) (f : Group → Group) : (s.onGroup k f).presence = s.presence := rfl
@[simp] theorem onGroup_rows (s : State) (k : Nat) (f : Group → Group) : (s.onGroup k f).rows = s.rows := rfl
@[simp] theorem onGroup_full (s : State) (k : Nat) (f : Group → Group) : (s.onGroup k f).full = s.full := rfl
@[simp] theorem onGroup_poison (s : State) (k : Nat) (f : Group → Group) : (s.onGroup k f).poison = s.poison := rfl
@[simp] theorem onGroup_tlb (s : State) (k : Nat) (f : Group → Group) : (s.onGroup k f).tlb = s.tlb := rfl
@[simp] theorem onGroup_rangeLocks (s : State) (k : Nat) (f : Group → Group) : (s.onGroup k f).rangeLocks = s.rangeLocks := rfl
@[simp] theorem onGroup_rowLocks (s : State) (k : Nat) (f : Group → Group) : (s.onGroup k f).rowLocks = s.rowLocks := rfl
@[simp] theorem onGroup_writers (s : State) (k : Nat) (f : Group → Group) : (s.onGroup k f).writers = s.writers := rfl
@[simp] theorem onGroup_atomCounts (s : State) (k : Nat) (f : Group → Group) : (s.onGroup k f).atomCounts = s.atomCounts := rfl
@[simp] theorem onGroup_homes (s : State) (k : Nat) (f : Group → Group) : (s.onGroup k f).homes = s.homes := rfl
@[simp] theorem onGroup_evictFirst (s : State) (k : Nat) (f : Group → Group) : (s.onGroup k f).evictFirst = s.evictFirst := rfl
@[simp] theorem onGroup_l1EvictFirst (s : State) (k : Nat) (f : Group → Group) : (s.onGroup k f).l1EvictFirst = s.l1EvictFirst := rfl
@[simp] theorem onGroup_windows (s : State) (k : Nat) (f : Group → Group) : (s.onGroup k f).windows = s.windows := rfl
@[simp] theorem onGroup_dies (s : State) (k : Nat) (f : Group → Group) : (s.onGroup k f).dies = s.dies := rfl
@[simp] theorem onGroup_matrix (s : State) (k : Nat) (f : Group → Group) : (s.onGroup k f).matrix = s.matrix := rfl
@[simp] theorem onGroup_matrixSeq (s : State) (k : Nat) (f : Group → Group) : (s.onGroup k f).matrixSeq = s.matrixSeq := rfl
@[simp] theorem onGroup_marks (s : State) (k : Nat) (f : Group → Group) : (s.onGroup k f).marks = s.marks := rfl
@[simp] theorem onGroup_writersOf (s : State) (k : Nat) (f : Group → Group) : (s.onGroup k f).writersOf = s.writersOf := rfl
@[simp] theorem onGroup_handles (s : State) (k : Nat) (f : Group → Group) : (s.onGroup k f).handles = s.handles := rfl
@[simp] theorem onGroup_buffers (s : State) (k : Nat) (f : Group → Group) : (s.onGroup k f).buffers = s.buffers := rfl
@[simp] theorem onGroup_arrivals (s : State) (k : Nat) (f : Group → Group) : (s.onGroup k f).arrivals = s.arrivals := rfl
@[simp] theorem onGroup_treated (s : State) (k : Nat) (f : Group → Group) : (s.onGroup k f).treated = s.treated := rfl
@[simp] theorem onGroup_spills (s : State) (k : Nat) (f : Group → Group) : (s.onGroup k f).spills = s.spills := rfl
@[simp] theorem onGroup_channels (s : State) (k : Nat) (f : Group → Group) : (s.onGroup k f).channels = s.channels := rfl
@[simp] theorem onGroup_seqs (s : State) (k : Nat) (f : Group → Group) : (s.onGroup k f).seqs = s.seqs := rfl
@[simp] theorem onGroup_packets (s : State) (k : Nat) (f : Group → Group) : (s.onGroup k f).packets = s.packets := rfl
@[simp] theorem onGroup_outbox (s : State) (k : Nat) (f : Group → Group) : (s.onGroup k f).outbox = s.outbox := rfl
@[simp] theorem onGroup_unacked (s : State) (k : Nat) (f : Group → Group) : (s.onGroup k f).unacked = s.unacked := rfl
@[simp] theorem onGroup_delivered (s : State) (k : Nat) (f : Group → Group) : (s.onGroup k f).delivered = s.delivered := rfl
@[simp] theorem onGroup_accepted (s : State) (k : Nat) (f : Group → Group) : (s.onGroup k f).accepted = s.accepted := rfl
@[simp] theorem onGroup_notices (s : State) (k : Nat) (f : Group → Group) : (s.onGroup k f).notices = s.notices := rfl
@[simp] theorem onGroup_detours (s : State) (k : Nat) (f : Group → Group) : (s.onGroup k f).detours = s.detours := rfl
@[simp] theorem onGroup_retiredQuads (s : State) (k : Nat) (f : Group → Group) : (s.onGroup k f).retiredQuads = s.retiredQuads := rfl
@[simp] theorem onGroup_retiredPorts (s : State) (k : Nat) (f : Group → Group) : (s.onGroup k f).retiredPorts = s.retiredPorts := rfl
@[simp] theorem onGroup_mailboxes (s : State) (k : Nat) (f : Group → Group) : (s.onGroup k f).mailboxes = s.mailboxes := rfl
@[simp] theorem onGroup_harts (s : State) (k : Nat) (f : Group → Group) : (s.onGroup k f).harts = s.harts := rfl
@[simp] theorem onGroup_arenas (s : State) (k : Nat) (f : Group → Group) : (s.onGroup k f).arenas = s.arenas := rfl
@[simp] theorem onGroup_requests (s : State) (k : Nat) (f : Group → Group) : (s.onGroup k f).requests = s.requests := rfl
@[simp] theorem onGroup_victims (s : State) (k : Nat) (f : Group → Group) : (s.onGroup k f).victims = s.victims := rfl
@[simp] theorem onGroup_withdrawn (s : State) (k : Nat) (f : Group → Group) : (s.onGroup k f).withdrawn = s.withdrawn := rfl
@[simp] theorem onGroup_retiring (s : State) (k : Nat) (f : Group → Group) : (s.onGroup k f).retiring = s.retiring := rfl
@[simp] theorem onGroup_residual (s : State) (k : Nat) (f : Group → Group) : (s.onGroup k f).residual = s.residual := rfl
@[simp] theorem onGroup_samples (s : State) (k : Nat) (f : Group → Group) : (s.onGroup k f).samples = s.samples := rfl
@[simp] theorem onGroup_frozen (s : State) (k : Nat) (f : Group → Group) : (s.onGroup k f).frozen = s.frozen := rfl
@[simp] theorem onGroup_heldMasters (s : State) (k : Nat) (f : Group → Group) : (s.onGroup k f).heldMasters = s.heldMasters := rfl
@[simp] theorem onGroup_throttled (s : State) (k : Nat) (f : Group → Group) : (s.onGroup k f).throttled = s.throttled := rfl
@[simp] theorem onGroup_idCounter (s : State) (k : Nat) (f : Group → Group) : (s.onGroup k f).idCounter = s.idCounter := rfl
@[simp] theorem onGroup_mgmtLog (s : State) (k : Nat) (f : Group → Group) : (s.onGroup k f).mgmtLog = s.mgmtLog := rfl
@[simp] theorem onGroup_host (s : State) (k : Nat) (f : Group → Group) : (s.onGroup k f).host = s.host := rfl
@[simp] theorem onGroup_msix (s : State) (k : Nat) (f : Group → Group) : (s.onGroup k f).msix = s.msix := rfl
@[simp] theorem onGroup_spdm (s : State) (k : Nat) (f : Group → Group) : (s.onGroup k f).spdm = s.spdm := rfl
@[simp] theorem onGroup_glob (s : State) (k : Nat) (f : Group → Group) : (s.onGroup k f).glob = s.glob := rfl

/-! ### `State.onTeam` -/

@[simp] theorem onTeam_clk (s : State) (k : Nat) (f : Team → Team) : (s.onTeam k f).clk = s.clk := rfl
@[simp] theorem onTeam_readyAt (s : State) (k : Nat) (f : Team → Team) : (s.onTeam k f).readyAt = s.readyAt := rfl
@[simp] theorem onTeam_agenda (s : State) (k : Nat) (f : Team → Team) : (s.onTeam k f).agenda = s.agenda := rfl
@[simp] theorem onTeam_draws (s : State) (k : Nat) (f : Team → Team) : (s.onTeam k f).draws = s.draws := rfl
@[simp] theorem onTeam_nextKey (s : State) (k : Nat) (f : Team → Team) : (s.onTeam k f).nextKey = s.nextKey := rfl
@[simp] theorem onTeam_issuing (s : State) (k : Nat) (f : Team → Team) : (s.onTeam k f).issuing = s.issuing := rfl
@[simp] theorem onTeam_threads (s : State) (k : Nat) (f : Team → Team) : (s.onTeam k f).threads = s.threads := rfl
@[simp] theorem onTeam_groups (s : State) (k : Nat) (f : Team → Team) : (s.onTeam k f).groups = s.groups := rfl
@[simp] theorem onTeam_teams (s : State) (k : Nat) (f : Team → Team) : (s.onTeam k f).teams = tmod k f s.teams := rfl
@[simp] theorem onTeam_launches (s : State) (k : Nat) (f : Team → Team) : (s.onTeam k f).launches = s.launches := rfl
@[simp] theorem onTeam_contexts (s : State) (k : Nat) (f : Team → Team) : (s.onTeam k f).contexts = s.contexts := rfl
@[simp] theorem onTeam_cores (s : State) (k : Nat) (f : Team → Team) : (s.onTeam k f).cores = s.cores := rfl
@[simp] theorem onTeam_cages (s : State) (k : Nat) (f : Team → Team) : (s.onTeam k f).cages = s.cages := rfl
@[simp] theorem onTeam_entrants (s : State) (k : Nat) (f : Team → Team) : (s.onTeam k f).entrants = s.entrants := rfl
@[simp] theorem onTeam_ports (s : State) (k : Nat) (f : Team → Team) : (s.onTeam k f).ports = s.ports := rfl
@[simp] theorem onTeam_fixed (s : State) (k : Nat) (f : Team → Team) : (s.onTeam k f).fixed = s.fixed := rfl
@[simp] theorem onTeam_ops (s : State) (k : Nat) (f : Team → Team) : (s.onTeam k f).ops = s.ops := rfl
@[simp] theorem onTeam_dieOrder (s : State) (k : Nat) (f : Team → Team) : (s.onTeam k f).dieOrder = s.dieOrder := rfl
@[simp] theorem onTeam_mem (s : State) (k : Nat) (f : Team → Team) : (s.onTeam k f).mem = s.mem := rfl
@[simp] theorem onTeam_l2 (s : State) (k : Nat) (f : Team → Team) : (s.onTeam k f).l2 = s.l2 := rfl
@[simp] theorem onTeam_l1 (s : State) (k : Nat) (f : Team → Team) : (s.onTeam k f).l1 = s.l1 := rfl
@[simp] theorem onTeam_presence (s : State) (k : Nat) (f : Team → Team) : (s.onTeam k f).presence = s.presence := rfl
@[simp] theorem onTeam_rows (s : State) (k : Nat) (f : Team → Team) : (s.onTeam k f).rows = s.rows := rfl
@[simp] theorem onTeam_full (s : State) (k : Nat) (f : Team → Team) : (s.onTeam k f).full = s.full := rfl
@[simp] theorem onTeam_poison (s : State) (k : Nat) (f : Team → Team) : (s.onTeam k f).poison = s.poison := rfl
@[simp] theorem onTeam_tlb (s : State) (k : Nat) (f : Team → Team) : (s.onTeam k f).tlb = s.tlb := rfl
@[simp] theorem onTeam_rangeLocks (s : State) (k : Nat) (f : Team → Team) : (s.onTeam k f).rangeLocks = s.rangeLocks := rfl
@[simp] theorem onTeam_rowLocks (s : State) (k : Nat) (f : Team → Team) : (s.onTeam k f).rowLocks = s.rowLocks := rfl
@[simp] theorem onTeam_writers (s : State) (k : Nat) (f : Team → Team) : (s.onTeam k f).writers = s.writers := rfl
@[simp] theorem onTeam_atomCounts (s : State) (k : Nat) (f : Team → Team) : (s.onTeam k f).atomCounts = s.atomCounts := rfl
@[simp] theorem onTeam_homes (s : State) (k : Nat) (f : Team → Team) : (s.onTeam k f).homes = s.homes := rfl
@[simp] theorem onTeam_evictFirst (s : State) (k : Nat) (f : Team → Team) : (s.onTeam k f).evictFirst = s.evictFirst := rfl
@[simp] theorem onTeam_l1EvictFirst (s : State) (k : Nat) (f : Team → Team) : (s.onTeam k f).l1EvictFirst = s.l1EvictFirst := rfl
@[simp] theorem onTeam_windows (s : State) (k : Nat) (f : Team → Team) : (s.onTeam k f).windows = s.windows := rfl
@[simp] theorem onTeam_dies (s : State) (k : Nat) (f : Team → Team) : (s.onTeam k f).dies = s.dies := rfl
@[simp] theorem onTeam_matrix (s : State) (k : Nat) (f : Team → Team) : (s.onTeam k f).matrix = s.matrix := rfl
@[simp] theorem onTeam_matrixSeq (s : State) (k : Nat) (f : Team → Team) : (s.onTeam k f).matrixSeq = s.matrixSeq := rfl
@[simp] theorem onTeam_marks (s : State) (k : Nat) (f : Team → Team) : (s.onTeam k f).marks = s.marks := rfl
@[simp] theorem onTeam_writersOf (s : State) (k : Nat) (f : Team → Team) : (s.onTeam k f).writersOf = s.writersOf := rfl
@[simp] theorem onTeam_handles (s : State) (k : Nat) (f : Team → Team) : (s.onTeam k f).handles = s.handles := rfl
@[simp] theorem onTeam_buffers (s : State) (k : Nat) (f : Team → Team) : (s.onTeam k f).buffers = s.buffers := rfl
@[simp] theorem onTeam_arrivals (s : State) (k : Nat) (f : Team → Team) : (s.onTeam k f).arrivals = s.arrivals := rfl
@[simp] theorem onTeam_treated (s : State) (k : Nat) (f : Team → Team) : (s.onTeam k f).treated = s.treated := rfl
@[simp] theorem onTeam_spills (s : State) (k : Nat) (f : Team → Team) : (s.onTeam k f).spills = s.spills := rfl
@[simp] theorem onTeam_channels (s : State) (k : Nat) (f : Team → Team) : (s.onTeam k f).channels = s.channels := rfl
@[simp] theorem onTeam_seqs (s : State) (k : Nat) (f : Team → Team) : (s.onTeam k f).seqs = s.seqs := rfl
@[simp] theorem onTeam_packets (s : State) (k : Nat) (f : Team → Team) : (s.onTeam k f).packets = s.packets := rfl
@[simp] theorem onTeam_outbox (s : State) (k : Nat) (f : Team → Team) : (s.onTeam k f).outbox = s.outbox := rfl
@[simp] theorem onTeam_unacked (s : State) (k : Nat) (f : Team → Team) : (s.onTeam k f).unacked = s.unacked := rfl
@[simp] theorem onTeam_delivered (s : State) (k : Nat) (f : Team → Team) : (s.onTeam k f).delivered = s.delivered := rfl
@[simp] theorem onTeam_accepted (s : State) (k : Nat) (f : Team → Team) : (s.onTeam k f).accepted = s.accepted := rfl
@[simp] theorem onTeam_notices (s : State) (k : Nat) (f : Team → Team) : (s.onTeam k f).notices = s.notices := rfl
@[simp] theorem onTeam_detours (s : State) (k : Nat) (f : Team → Team) : (s.onTeam k f).detours = s.detours := rfl
@[simp] theorem onTeam_retiredQuads (s : State) (k : Nat) (f : Team → Team) : (s.onTeam k f).retiredQuads = s.retiredQuads := rfl
@[simp] theorem onTeam_retiredPorts (s : State) (k : Nat) (f : Team → Team) : (s.onTeam k f).retiredPorts = s.retiredPorts := rfl
@[simp] theorem onTeam_mailboxes (s : State) (k : Nat) (f : Team → Team) : (s.onTeam k f).mailboxes = s.mailboxes := rfl
@[simp] theorem onTeam_harts (s : State) (k : Nat) (f : Team → Team) : (s.onTeam k f).harts = s.harts := rfl
@[simp] theorem onTeam_arenas (s : State) (k : Nat) (f : Team → Team) : (s.onTeam k f).arenas = s.arenas := rfl
@[simp] theorem onTeam_requests (s : State) (k : Nat) (f : Team → Team) : (s.onTeam k f).requests = s.requests := rfl
@[simp] theorem onTeam_victims (s : State) (k : Nat) (f : Team → Team) : (s.onTeam k f).victims = s.victims := rfl
@[simp] theorem onTeam_withdrawn (s : State) (k : Nat) (f : Team → Team) : (s.onTeam k f).withdrawn = s.withdrawn := rfl
@[simp] theorem onTeam_retiring (s : State) (k : Nat) (f : Team → Team) : (s.onTeam k f).retiring = s.retiring := rfl
@[simp] theorem onTeam_residual (s : State) (k : Nat) (f : Team → Team) : (s.onTeam k f).residual = s.residual := rfl
@[simp] theorem onTeam_samples (s : State) (k : Nat) (f : Team → Team) : (s.onTeam k f).samples = s.samples := rfl
@[simp] theorem onTeam_frozen (s : State) (k : Nat) (f : Team → Team) : (s.onTeam k f).frozen = s.frozen := rfl
@[simp] theorem onTeam_heldMasters (s : State) (k : Nat) (f : Team → Team) : (s.onTeam k f).heldMasters = s.heldMasters := rfl
@[simp] theorem onTeam_throttled (s : State) (k : Nat) (f : Team → Team) : (s.onTeam k f).throttled = s.throttled := rfl
@[simp] theorem onTeam_idCounter (s : State) (k : Nat) (f : Team → Team) : (s.onTeam k f).idCounter = s.idCounter := rfl
@[simp] theorem onTeam_mgmtLog (s : State) (k : Nat) (f : Team → Team) : (s.onTeam k f).mgmtLog = s.mgmtLog := rfl
@[simp] theorem onTeam_host (s : State) (k : Nat) (f : Team → Team) : (s.onTeam k f).host = s.host := rfl
@[simp] theorem onTeam_msix (s : State) (k : Nat) (f : Team → Team) : (s.onTeam k f).msix = s.msix := rfl
@[simp] theorem onTeam_spdm (s : State) (k : Nat) (f : Team → Team) : (s.onTeam k f).spdm = s.spdm := rfl
@[simp] theorem onTeam_glob (s : State) (k : Nat) (f : Team → Team) : (s.onTeam k f).glob = s.glob := rfl

/-! ### `State.onLaunch` -/

@[simp] theorem onLaunch_clk (s : State) (k : Nat) (f : Launch → Launch) : (s.onLaunch k f).clk = s.clk := rfl
@[simp] theorem onLaunch_readyAt (s : State) (k : Nat) (f : Launch → Launch) : (s.onLaunch k f).readyAt = s.readyAt := rfl
@[simp] theorem onLaunch_agenda (s : State) (k : Nat) (f : Launch → Launch) : (s.onLaunch k f).agenda = s.agenda := rfl
@[simp] theorem onLaunch_draws (s : State) (k : Nat) (f : Launch → Launch) : (s.onLaunch k f).draws = s.draws := rfl
@[simp] theorem onLaunch_nextKey (s : State) (k : Nat) (f : Launch → Launch) : (s.onLaunch k f).nextKey = s.nextKey := rfl
@[simp] theorem onLaunch_issuing (s : State) (k : Nat) (f : Launch → Launch) : (s.onLaunch k f).issuing = s.issuing := rfl
@[simp] theorem onLaunch_threads (s : State) (k : Nat) (f : Launch → Launch) : (s.onLaunch k f).threads = s.threads := rfl
@[simp] theorem onLaunch_groups (s : State) (k : Nat) (f : Launch → Launch) : (s.onLaunch k f).groups = s.groups := rfl
@[simp] theorem onLaunch_teams (s : State) (k : Nat) (f : Launch → Launch) : (s.onLaunch k f).teams = s.teams := rfl
@[simp] theorem onLaunch_launches (s : State) (k : Nat) (f : Launch → Launch) : (s.onLaunch k f).launches = tmod k f s.launches := rfl
@[simp] theorem onLaunch_contexts (s : State) (k : Nat) (f : Launch → Launch) : (s.onLaunch k f).contexts = s.contexts := rfl
@[simp] theorem onLaunch_cores (s : State) (k : Nat) (f : Launch → Launch) : (s.onLaunch k f).cores = s.cores := rfl
@[simp] theorem onLaunch_cages (s : State) (k : Nat) (f : Launch → Launch) : (s.onLaunch k f).cages = s.cages := rfl
@[simp] theorem onLaunch_entrants (s : State) (k : Nat) (f : Launch → Launch) : (s.onLaunch k f).entrants = s.entrants := rfl
@[simp] theorem onLaunch_ports (s : State) (k : Nat) (f : Launch → Launch) : (s.onLaunch k f).ports = s.ports := rfl
@[simp] theorem onLaunch_fixed (s : State) (k : Nat) (f : Launch → Launch) : (s.onLaunch k f).fixed = s.fixed := rfl
@[simp] theorem onLaunch_ops (s : State) (k : Nat) (f : Launch → Launch) : (s.onLaunch k f).ops = s.ops := rfl
@[simp] theorem onLaunch_dieOrder (s : State) (k : Nat) (f : Launch → Launch) : (s.onLaunch k f).dieOrder = s.dieOrder := rfl
@[simp] theorem onLaunch_mem (s : State) (k : Nat) (f : Launch → Launch) : (s.onLaunch k f).mem = s.mem := rfl
@[simp] theorem onLaunch_l2 (s : State) (k : Nat) (f : Launch → Launch) : (s.onLaunch k f).l2 = s.l2 := rfl
@[simp] theorem onLaunch_l1 (s : State) (k : Nat) (f : Launch → Launch) : (s.onLaunch k f).l1 = s.l1 := rfl
@[simp] theorem onLaunch_presence (s : State) (k : Nat) (f : Launch → Launch) : (s.onLaunch k f).presence = s.presence := rfl
@[simp] theorem onLaunch_rows (s : State) (k : Nat) (f : Launch → Launch) : (s.onLaunch k f).rows = s.rows := rfl
@[simp] theorem onLaunch_full (s : State) (k : Nat) (f : Launch → Launch) : (s.onLaunch k f).full = s.full := rfl
@[simp] theorem onLaunch_poison (s : State) (k : Nat) (f : Launch → Launch) : (s.onLaunch k f).poison = s.poison := rfl
@[simp] theorem onLaunch_tlb (s : State) (k : Nat) (f : Launch → Launch) : (s.onLaunch k f).tlb = s.tlb := rfl
@[simp] theorem onLaunch_rangeLocks (s : State) (k : Nat) (f : Launch → Launch) : (s.onLaunch k f).rangeLocks = s.rangeLocks := rfl
@[simp] theorem onLaunch_rowLocks (s : State) (k : Nat) (f : Launch → Launch) : (s.onLaunch k f).rowLocks = s.rowLocks := rfl
@[simp] theorem onLaunch_writers (s : State) (k : Nat) (f : Launch → Launch) : (s.onLaunch k f).writers = s.writers := rfl
@[simp] theorem onLaunch_atomCounts (s : State) (k : Nat) (f : Launch → Launch) : (s.onLaunch k f).atomCounts = s.atomCounts := rfl
@[simp] theorem onLaunch_homes (s : State) (k : Nat) (f : Launch → Launch) : (s.onLaunch k f).homes = s.homes := rfl
@[simp] theorem onLaunch_evictFirst (s : State) (k : Nat) (f : Launch → Launch) : (s.onLaunch k f).evictFirst = s.evictFirst := rfl
@[simp] theorem onLaunch_l1EvictFirst (s : State) (k : Nat) (f : Launch → Launch) : (s.onLaunch k f).l1EvictFirst = s.l1EvictFirst := rfl
@[simp] theorem onLaunch_windows (s : State) (k : Nat) (f : Launch → Launch) : (s.onLaunch k f).windows = s.windows := rfl
@[simp] theorem onLaunch_dies (s : State) (k : Nat) (f : Launch → Launch) : (s.onLaunch k f).dies = s.dies := rfl
@[simp] theorem onLaunch_matrix (s : State) (k : Nat) (f : Launch → Launch) : (s.onLaunch k f).matrix = s.matrix := rfl
@[simp] theorem onLaunch_matrixSeq (s : State) (k : Nat) (f : Launch → Launch) : (s.onLaunch k f).matrixSeq = s.matrixSeq := rfl
@[simp] theorem onLaunch_marks (s : State) (k : Nat) (f : Launch → Launch) : (s.onLaunch k f).marks = s.marks := rfl
@[simp] theorem onLaunch_writersOf (s : State) (k : Nat) (f : Launch → Launch) : (s.onLaunch k f).writersOf = s.writersOf := rfl
@[simp] theorem onLaunch_handles (s : State) (k : Nat) (f : Launch → Launch) : (s.onLaunch k f).handles = s.handles := rfl
@[simp] theorem onLaunch_buffers (s : State) (k : Nat) (f : Launch → Launch) : (s.onLaunch k f).buffers = s.buffers := rfl
@[simp] theorem onLaunch_arrivals (s : State) (k : Nat) (f : Launch → Launch) : (s.onLaunch k f).arrivals = s.arrivals := rfl
@[simp] theorem onLaunch_treated (s : State) (k : Nat) (f : Launch → Launch) : (s.onLaunch k f).treated = s.treated := rfl
@[simp] theorem onLaunch_spills (s : State) (k : Nat) (f : Launch → Launch) : (s.onLaunch k f).spills = s.spills := rfl
@[simp] theorem onLaunch_channels (s : State) (k : Nat) (f : Launch → Launch) : (s.onLaunch k f).channels = s.channels := rfl
@[simp] theorem onLaunch_seqs (s : State) (k : Nat) (f : Launch → Launch) : (s.onLaunch k f).seqs = s.seqs := rfl
@[simp] theorem onLaunch_packets (s : State) (k : Nat) (f : Launch → Launch) : (s.onLaunch k f).packets = s.packets := rfl
@[simp] theorem onLaunch_outbox (s : State) (k : Nat) (f : Launch → Launch) : (s.onLaunch k f).outbox = s.outbox := rfl
@[simp] theorem onLaunch_unacked (s : State) (k : Nat) (f : Launch → Launch) : (s.onLaunch k f).unacked = s.unacked := rfl
@[simp] theorem onLaunch_delivered (s : State) (k : Nat) (f : Launch → Launch) : (s.onLaunch k f).delivered = s.delivered := rfl
@[simp] theorem onLaunch_accepted (s : State) (k : Nat) (f : Launch → Launch) : (s.onLaunch k f).accepted = s.accepted := rfl
@[simp] theorem onLaunch_notices (s : State) (k : Nat) (f : Launch → Launch) : (s.onLaunch k f).notices = s.notices := rfl
@[simp] theorem onLaunch_detours (s : State) (k : Nat) (f : Launch → Launch) : (s.onLaunch k f).detours = s.detours := rfl
@[simp] theorem onLaunch_retiredQuads (s : State) (k : Nat) (f : Launch → Launch) : (s.onLaunch k f).retiredQuads = s.retiredQuads := rfl
@[simp] theorem onLaunch_retiredPorts (s : State) (k : Nat) (f : Launch → Launch) : (s.onLaunch k f).retiredPorts = s.retiredPorts := rfl
@[simp] theorem onLaunch_mailboxes (s : State) (k : Nat) (f : Launch → Launch) : (s.onLaunch k f).mailboxes = s.mailboxes := rfl
@[simp] theorem onLaunch_harts (s : State) (k : Nat) (f : Launch → Launch) : (s.onLaunch k f).harts = s.harts := rfl
@[simp] theorem onLaunch_arenas (s : State) (k : Nat) (f : Launch → Launch) : (s.onLaunch k f).arenas = s.arenas := rfl
@[simp] theorem onLaunch_requests (s : State) (k : Nat) (f : Launch → Launch) : (s.onLaunch k f).requests = s.requests := rfl
@[simp] theorem onLaunch_victims (s : State) (k : Nat) (f : Launch → Launch) : (s.onLaunch k f).victims = s.victims := rfl
@[simp] theorem onLaunch_withdrawn (s : State) (k : Nat) (f : Launch → Launch) : (s.onLaunch k f).withdrawn = s.withdrawn := rfl
@[simp] theorem onLaunch_retiring (s : State) (k : Nat) (f : Launch → Launch) : (s.onLaunch k f).retiring = s.retiring := rfl
@[simp] theorem onLaunch_residual (s : State) (k : Nat) (f : Launch → Launch) : (s.onLaunch k f).residual = s.residual := rfl
@[simp] theorem onLaunch_samples (s : State) (k : Nat) (f : Launch → Launch) : (s.onLaunch k f).samples = s.samples := rfl
@[simp] theorem onLaunch_frozen (s : State) (k : Nat) (f : Launch → Launch) : (s.onLaunch k f).frozen = s.frozen := rfl
@[simp] theorem onLaunch_heldMasters (s : State) (k : Nat) (f : Launch → Launch) : (s.onLaunch k f).heldMasters = s.heldMasters := rfl
@[simp] theorem onLaunch_throttled (s : State) (k : Nat) (f : Launch → Launch) : (s.onLaunch k f).throttled = s.throttled := rfl
@[simp] theorem onLaunch_idCounter (s : State) (k : Nat) (f : Launch → Launch) : (s.onLaunch k f).idCounter = s.idCounter := rfl
@[simp] theorem onLaunch_mgmtLog (s : State) (k : Nat) (f : Launch → Launch) : (s.onLaunch k f).mgmtLog = s.mgmtLog := rfl
@[simp] theorem onLaunch_host (s : State) (k : Nat) (f : Launch → Launch) : (s.onLaunch k f).host = s.host := rfl
@[simp] theorem onLaunch_msix (s : State) (k : Nat) (f : Launch → Launch) : (s.onLaunch k f).msix = s.msix := rfl
@[simp] theorem onLaunch_spdm (s : State) (k : Nat) (f : Launch → Launch) : (s.onLaunch k f).spdm = s.spdm := rfl
@[simp] theorem onLaunch_glob (s : State) (k : Nat) (f : Launch → Launch) : (s.onLaunch k f).glob = s.glob := rfl

/-! ### `State.onContext` -/

@[simp] theorem onContext_clk (s : State) (k : Nat) (f : Context → Context) : (s.onContext k f).clk = s.clk := rfl
@[simp] theorem onContext_readyAt (s : State) (k : Nat) (f : Context → Context) : (s.onContext k f).readyAt = s.readyAt := rfl
@[simp] theorem onContext_agenda (s : State) (k : Nat) (f : Context → Context) : (s.onContext k f).agenda = s.agenda := rfl
@[simp] theorem onContext_draws (s : State) (k : Nat) (f : Context → Context) : (s.onContext k f).draws = s.draws := rfl
@[simp] theorem onContext_nextKey (s : State) (k : Nat) (f : Context → Context) : (s.onContext k f).nextKey = s.nextKey := rfl
@[simp] theorem onContext_issuing (s : State) (k : Nat) (f : Context → Context) : (s.onContext k f).issuing = s.issuing := rfl
@[simp] theorem onContext_threads (s : State) (k : Nat) (f : Context → Context) : (s.onContext k f).threads = s.threads := rfl
@[simp] theorem onContext_groups (s : State) (k : Nat) (f : Context → Context) : (s.onContext k f).groups = s.groups := rfl
@[simp] theorem onContext_teams (s : State) (k : Nat) (f : Context → Context) : (s.onContext k f).teams = s.teams := rfl
@[simp] theorem onContext_launches (s : State) (k : Nat) (f : Context → Context) : (s.onContext k f).launches = s.launches := rfl
@[simp] theorem onContext_contexts (s : State) (k : Nat) (f : Context → Context) : (s.onContext k f).contexts = tmod k f s.contexts := rfl
@[simp] theorem onContext_cores (s : State) (k : Nat) (f : Context → Context) : (s.onContext k f).cores = s.cores := rfl
@[simp] theorem onContext_cages (s : State) (k : Nat) (f : Context → Context) : (s.onContext k f).cages = s.cages := rfl
@[simp] theorem onContext_entrants (s : State) (k : Nat) (f : Context → Context) : (s.onContext k f).entrants = s.entrants := rfl
@[simp] theorem onContext_ports (s : State) (k : Nat) (f : Context → Context) : (s.onContext k f).ports = s.ports := rfl
@[simp] theorem onContext_fixed (s : State) (k : Nat) (f : Context → Context) : (s.onContext k f).fixed = s.fixed := rfl
@[simp] theorem onContext_ops (s : State) (k : Nat) (f : Context → Context) : (s.onContext k f).ops = s.ops := rfl
@[simp] theorem onContext_dieOrder (s : State) (k : Nat) (f : Context → Context) : (s.onContext k f).dieOrder = s.dieOrder := rfl
@[simp] theorem onContext_mem (s : State) (k : Nat) (f : Context → Context) : (s.onContext k f).mem = s.mem := rfl
@[simp] theorem onContext_l2 (s : State) (k : Nat) (f : Context → Context) : (s.onContext k f).l2 = s.l2 := rfl
@[simp] theorem onContext_l1 (s : State) (k : Nat) (f : Context → Context) : (s.onContext k f).l1 = s.l1 := rfl
@[simp] theorem onContext_presence (s : State) (k : Nat) (f : Context → Context) : (s.onContext k f).presence = s.presence := rfl
@[simp] theorem onContext_rows (s : State) (k : Nat) (f : Context → Context) : (s.onContext k f).rows = s.rows := rfl
@[simp] theorem onContext_full (s : State) (k : Nat) (f : Context → Context) : (s.onContext k f).full = s.full := rfl
@[simp] theorem onContext_poison (s : State) (k : Nat) (f : Context → Context) : (s.onContext k f).poison = s.poison := rfl
@[simp] theorem onContext_tlb (s : State) (k : Nat) (f : Context → Context) : (s.onContext k f).tlb = s.tlb := rfl
@[simp] theorem onContext_rangeLocks (s : State) (k : Nat) (f : Context → Context) : (s.onContext k f).rangeLocks = s.rangeLocks := rfl
@[simp] theorem onContext_rowLocks (s : State) (k : Nat) (f : Context → Context) : (s.onContext k f).rowLocks = s.rowLocks := rfl
@[simp] theorem onContext_writers (s : State) (k : Nat) (f : Context → Context) : (s.onContext k f).writers = s.writers := rfl
@[simp] theorem onContext_atomCounts (s : State) (k : Nat) (f : Context → Context) : (s.onContext k f).atomCounts = s.atomCounts := rfl
@[simp] theorem onContext_homes (s : State) (k : Nat) (f : Context → Context) : (s.onContext k f).homes = s.homes := rfl
@[simp] theorem onContext_evictFirst (s : State) (k : Nat) (f : Context → Context) : (s.onContext k f).evictFirst = s.evictFirst := rfl
@[simp] theorem onContext_l1EvictFirst (s : State) (k : Nat) (f : Context → Context) : (s.onContext k f).l1EvictFirst = s.l1EvictFirst := rfl
@[simp] theorem onContext_windows (s : State) (k : Nat) (f : Context → Context) : (s.onContext k f).windows = s.windows := rfl
@[simp] theorem onContext_dies (s : State) (k : Nat) (f : Context → Context) : (s.onContext k f).dies = s.dies := rfl
@[simp] theorem onContext_matrix (s : State) (k : Nat) (f : Context → Context) : (s.onContext k f).matrix = s.matrix := rfl
@[simp] theorem onContext_matrixSeq (s : State) (k : Nat) (f : Context → Context) : (s.onContext k f).matrixSeq = s.matrixSeq := rfl
@[simp] theorem onContext_marks (s : State) (k : Nat) (f : Context → Context) : (s.onContext k f).marks = s.marks := rfl
@[simp] theorem onContext_writersOf (s : State) (k : Nat) (f : Context → Context) : (s.onContext k f).writersOf = s.writersOf := rfl
@[simp] theorem onContext_handles (s : State) (k : Nat) (f : Context → Context) : (s.onContext k f).handles = s.handles := rfl
@[simp] theorem onContext_buffers (s : State) (k : Nat) (f : Context → Context) : (s.onContext k f).buffers = s.buffers := rfl
@[simp] theorem onContext_arrivals (s : State) (k : Nat) (f : Context → Context) : (s.onContext k f).arrivals = s.arrivals := rfl
@[simp] theorem onContext_treated (s : State) (k : Nat) (f : Context → Context) : (s.onContext k f).treated = s.treated := rfl
@[simp] theorem onContext_spills (s : State) (k : Nat) (f : Context → Context) : (s.onContext k f).spills = s.spills := rfl
@[simp] theorem onContext_channels (s : State) (k : Nat) (f : Context → Context) : (s.onContext k f).channels = s.channels := rfl
@[simp] theorem onContext_seqs (s : State) (k : Nat) (f : Context → Context) : (s.onContext k f).seqs = s.seqs := rfl
@[simp] theorem onContext_packets (s : State) (k : Nat) (f : Context → Context) : (s.onContext k f).packets = s.packets := rfl
@[simp] theorem onContext_outbox (s : State) (k : Nat) (f : Context → Context) : (s.onContext k f).outbox = s.outbox := rfl
@[simp] theorem onContext_unacked (s : State) (k : Nat) (f : Context → Context) : (s.onContext k f).unacked = s.unacked := rfl
@[simp] theorem onContext_delivered (s : State) (k : Nat) (f : Context → Context) : (s.onContext k f).delivered = s.delivered := rfl
@[simp] theorem onContext_accepted (s : State) (k : Nat) (f : Context → Context) : (s.onContext k f).accepted = s.accepted := rfl
@[simp] theorem onContext_notices (s : State) (k : Nat) (f : Context → Context) : (s.onContext k f).notices = s.notices := rfl
@[simp] theorem onContext_detours (s : State) (k : Nat) (f : Context → Context) : (s.onContext k f).detours = s.detours := rfl
@[simp] theorem onContext_retiredQuads (s : State) (k : Nat) (f : Context → Context) : (s.onContext k f).retiredQuads = s.retiredQuads := rfl
@[simp] theorem onContext_retiredPorts (s : State) (k : Nat) (f : Context → Context) : (s.onContext k f).retiredPorts = s.retiredPorts := rfl
@[simp] theorem onContext_mailboxes (s : State) (k : Nat) (f : Context → Context) : (s.onContext k f).mailboxes = s.mailboxes := rfl
@[simp] theorem onContext_harts (s : State) (k : Nat) (f : Context → Context) : (s.onContext k f).harts = s.harts := rfl
@[simp] theorem onContext_arenas (s : State) (k : Nat) (f : Context → Context) : (s.onContext k f).arenas = s.arenas := rfl
@[simp] theorem onContext_requests (s : State) (k : Nat) (f : Context → Context) : (s.onContext k f).requests = s.requests := rfl
@[simp] theorem onContext_victims (s : State) (k : Nat) (f : Context → Context) : (s.onContext k f).victims = s.victims := rfl
@[simp] theorem onContext_withdrawn (s : State) (k : Nat) (f : Context → Context) : (s.onContext k f).withdrawn = s.withdrawn := rfl
@[simp] theorem onContext_retiring (s : State) (k : Nat) (f : Context → Context) : (s.onContext k f).retiring = s.retiring := rfl
@[simp] theorem onContext_residual (s : State) (k : Nat) (f : Context → Context) : (s.onContext k f).residual = s.residual := rfl
@[simp] theorem onContext_samples (s : State) (k : Nat) (f : Context → Context) : (s.onContext k f).samples = s.samples := rfl
@[simp] theorem onContext_frozen (s : State) (k : Nat) (f : Context → Context) : (s.onContext k f).frozen = s.frozen := rfl
@[simp] theorem onContext_heldMasters (s : State) (k : Nat) (f : Context → Context) : (s.onContext k f).heldMasters = s.heldMasters := rfl
@[simp] theorem onContext_throttled (s : State) (k : Nat) (f : Context → Context) : (s.onContext k f).throttled = s.throttled := rfl
@[simp] theorem onContext_idCounter (s : State) (k : Nat) (f : Context → Context) : (s.onContext k f).idCounter = s.idCounter := rfl
@[simp] theorem onContext_mgmtLog (s : State) (k : Nat) (f : Context → Context) : (s.onContext k f).mgmtLog = s.mgmtLog := rfl
@[simp] theorem onContext_host (s : State) (k : Nat) (f : Context → Context) : (s.onContext k f).host = s.host := rfl
@[simp] theorem onContext_msix (s : State) (k : Nat) (f : Context → Context) : (s.onContext k f).msix = s.msix := rfl
@[simp] theorem onContext_spdm (s : State) (k : Nat) (f : Context → Context) : (s.onContext k f).spdm = s.spdm := rfl
@[simp] theorem onContext_glob (s : State) (k : Nat) (f : Context → Context) : (s.onContext k f).glob = s.glob := rfl

/-! ### `State.onCore` -/

@[simp] theorem onCore_clk (s : State) (k : Nat) (f : CoreCtl → CoreCtl) : (s.onCore k f).clk = s.clk := rfl
@[simp] theorem onCore_readyAt (s : State) (k : Nat) (f : CoreCtl → CoreCtl) : (s.onCore k f).readyAt = s.readyAt := rfl
@[simp] theorem onCore_agenda (s : State) (k : Nat) (f : CoreCtl → CoreCtl) : (s.onCore k f).agenda = s.agenda := rfl
@[simp] theorem onCore_draws (s : State) (k : Nat) (f : CoreCtl → CoreCtl) : (s.onCore k f).draws = s.draws := rfl
@[simp] theorem onCore_nextKey (s : State) (k : Nat) (f : CoreCtl → CoreCtl) : (s.onCore k f).nextKey = s.nextKey := rfl
@[simp] theorem onCore_issuing (s : State) (k : Nat) (f : CoreCtl → CoreCtl) : (s.onCore k f).issuing = s.issuing := rfl
@[simp] theorem onCore_threads (s : State) (k : Nat) (f : CoreCtl → CoreCtl) : (s.onCore k f).threads = s.threads := rfl
@[simp] theorem onCore_groups (s : State) (k : Nat) (f : CoreCtl → CoreCtl) : (s.onCore k f).groups = s.groups := rfl
@[simp] theorem onCore_teams (s : State) (k : Nat) (f : CoreCtl → CoreCtl) : (s.onCore k f).teams = s.teams := rfl
@[simp] theorem onCore_launches (s : State) (k : Nat) (f : CoreCtl → CoreCtl) : (s.onCore k f).launches = s.launches := rfl
@[simp] theorem onCore_contexts (s : State) (k : Nat) (f : CoreCtl → CoreCtl) : (s.onCore k f).contexts = s.contexts := rfl
@[simp] theorem onCore_cores (s : State) (k : Nat) (f : CoreCtl → CoreCtl) : (s.onCore k f).cores = tset k (f (s.core k)) s.cores := rfl
@[simp] theorem onCore_cages (s : State) (k : Nat) (f : CoreCtl → CoreCtl) : (s.onCore k f).cages = s.cages := rfl
@[simp] theorem onCore_entrants (s : State) (k : Nat) (f : CoreCtl → CoreCtl) : (s.onCore k f).entrants = s.entrants := rfl
@[simp] theorem onCore_ports (s : State) (k : Nat) (f : CoreCtl → CoreCtl) : (s.onCore k f).ports = s.ports := rfl
@[simp] theorem onCore_fixed (s : State) (k : Nat) (f : CoreCtl → CoreCtl) : (s.onCore k f).fixed = s.fixed := rfl
@[simp] theorem onCore_ops (s : State) (k : Nat) (f : CoreCtl → CoreCtl) : (s.onCore k f).ops = s.ops := rfl
@[simp] theorem onCore_dieOrder (s : State) (k : Nat) (f : CoreCtl → CoreCtl) : (s.onCore k f).dieOrder = s.dieOrder := rfl
@[simp] theorem onCore_mem (s : State) (k : Nat) (f : CoreCtl → CoreCtl) : (s.onCore k f).mem = s.mem := rfl
@[simp] theorem onCore_l2 (s : State) (k : Nat) (f : CoreCtl → CoreCtl) : (s.onCore k f).l2 = s.l2 := rfl
@[simp] theorem onCore_l1 (s : State) (k : Nat) (f : CoreCtl → CoreCtl) : (s.onCore k f).l1 = s.l1 := rfl
@[simp] theorem onCore_presence (s : State) (k : Nat) (f : CoreCtl → CoreCtl) : (s.onCore k f).presence = s.presence := rfl
@[simp] theorem onCore_rows (s : State) (k : Nat) (f : CoreCtl → CoreCtl) : (s.onCore k f).rows = s.rows := rfl
@[simp] theorem onCore_full (s : State) (k : Nat) (f : CoreCtl → CoreCtl) : (s.onCore k f).full = s.full := rfl
@[simp] theorem onCore_poison (s : State) (k : Nat) (f : CoreCtl → CoreCtl) : (s.onCore k f).poison = s.poison := rfl
@[simp] theorem onCore_tlb (s : State) (k : Nat) (f : CoreCtl → CoreCtl) : (s.onCore k f).tlb = s.tlb := rfl
@[simp] theorem onCore_rangeLocks (s : State) (k : Nat) (f : CoreCtl → CoreCtl) : (s.onCore k f).rangeLocks = s.rangeLocks := rfl
@[simp] theorem onCore_rowLocks (s : State) (k : Nat) (f : CoreCtl → CoreCtl) : (s.onCore k f).rowLocks = s.rowLocks := rfl
@[simp] theorem onCore_writers (s : State) (k : Nat) (f : CoreCtl → CoreCtl) : (s.onCore k f).writers = s.writers := rfl
@[simp] theorem onCore_atomCounts (s : State) (k : Nat) (f : CoreCtl → CoreCtl) : (s.onCore k f).atomCounts = s.atomCounts := rfl
@[simp] theorem onCore_homes (s : State) (k : Nat) (f : CoreCtl → CoreCtl) : (s.onCore k f).homes = s.homes := rfl
@[simp] theorem onCore_evictFirst (s : State) (k : Nat) (f : CoreCtl → CoreCtl) : (s.onCore k f).evictFirst = s.evictFirst := rfl
@[simp] theorem onCore_l1EvictFirst (s : State) (k : Nat) (f : CoreCtl → CoreCtl) : (s.onCore k f).l1EvictFirst = s.l1EvictFirst := rfl
@[simp] theorem onCore_windows (s : State) (k : Nat) (f : CoreCtl → CoreCtl) : (s.onCore k f).windows = s.windows := rfl
@[simp] theorem onCore_dies (s : State) (k : Nat) (f : CoreCtl → CoreCtl) : (s.onCore k f).dies = s.dies := rfl
@[simp] theorem onCore_matrix (s : State) (k : Nat) (f : CoreCtl → CoreCtl) : (s.onCore k f).matrix = s.matrix := rfl
@[simp] theorem onCore_matrixSeq (s : State) (k : Nat) (f : CoreCtl → CoreCtl) : (s.onCore k f).matrixSeq = s.matrixSeq := rfl
@[simp] theorem onCore_marks (s : State) (k : Nat) (f : CoreCtl → CoreCtl) : (s.onCore k f).marks = s.marks := rfl
@[simp] theorem onCore_writersOf (s : State) (k : Nat) (f : CoreCtl → CoreCtl) : (s.onCore k f).writersOf = s.writersOf := rfl
@[simp] theorem onCore_handles (s : State) (k : Nat) (f : CoreCtl → CoreCtl) : (s.onCore k f).handles = s.handles := rfl
@[simp] theorem onCore_buffers (s : State) (k : Nat) (f : CoreCtl → CoreCtl) : (s.onCore k f).buffers = s.buffers := rfl
@[simp] theorem onCore_arrivals (s : State) (k : Nat) (f : CoreCtl → CoreCtl) : (s.onCore k f).arrivals = s.arrivals := rfl
@[simp] theorem onCore_treated (s : State) (k : Nat) (f : CoreCtl → CoreCtl) : (s.onCore k f).treated = s.treated := rfl
@[simp] theorem onCore_spills (s : State) (k : Nat) (f : CoreCtl → CoreCtl) : (s.onCore k f).spills = s.spills := rfl
@[simp] theorem onCore_channels (s : State) (k : Nat) (f : CoreCtl → CoreCtl) : (s.onCore k f).channels = s.channels := rfl
@[simp] theorem onCore_seqs (s : State) (k : Nat) (f : CoreCtl → CoreCtl) : (s.onCore k f).seqs = s.seqs := rfl
@[simp] theorem onCore_packets (s : State) (k : Nat) (f : CoreCtl → CoreCtl) : (s.onCore k f).packets = s.packets := rfl
@[simp] theorem onCore_outbox (s : State) (k : Nat) (f : CoreCtl → CoreCtl) : (s.onCore k f).outbox = s.outbox := rfl
@[simp] theorem onCore_unacked (s : State) (k : Nat) (f : CoreCtl → CoreCtl) : (s.onCore k f).unacked = s.unacked := rfl
@[simp] theorem onCore_delivered (s : State) (k : Nat) (f : CoreCtl → CoreCtl) : (s.onCore k f).delivered = s.delivered := rfl
@[simp] theorem onCore_accepted (s : State) (k : Nat) (f : CoreCtl → CoreCtl) : (s.onCore k f).accepted = s.accepted := rfl
@[simp] theorem onCore_notices (s : State) (k : Nat) (f : CoreCtl → CoreCtl) : (s.onCore k f).notices = s.notices := rfl
@[simp] theorem onCore_detours (s : State) (k : Nat) (f : CoreCtl → CoreCtl) : (s.onCore k f).detours = s.detours := rfl
@[simp] theorem onCore_retiredQuads (s : State) (k : Nat) (f : CoreCtl → CoreCtl) : (s.onCore k f).retiredQuads = s.retiredQuads := rfl
@[simp] theorem onCore_retiredPorts (s : State) (k : Nat) (f : CoreCtl → CoreCtl) : (s.onCore k f).retiredPorts = s.retiredPorts := rfl
@[simp] theorem onCore_mailboxes (s : State) (k : Nat) (f : CoreCtl → CoreCtl) : (s.onCore k f).mailboxes = s.mailboxes := rfl
@[simp] theorem onCore_harts (s : State) (k : Nat) (f : CoreCtl → CoreCtl) : (s.onCore k f).harts = s.harts := rfl
@[simp] theorem onCore_arenas (s : State) (k : Nat) (f : CoreCtl → CoreCtl) : (s.onCore k f).arenas = s.arenas := rfl
@[simp] theorem onCore_requests (s : State) (k : Nat) (f : CoreCtl → CoreCtl) : (s.onCore k f).requests = s.requests := rfl
@[simp] theorem onCore_victims (s : State) (k : Nat) (f : CoreCtl → CoreCtl) : (s.onCore k f).victims = s.victims := rfl
@[simp] theorem onCore_withdrawn (s : State) (k : Nat) (f : CoreCtl → CoreCtl) : (s.onCore k f).withdrawn = s.withdrawn := rfl
@[simp] theorem onCore_retiring (s : State) (k : Nat) (f : CoreCtl → CoreCtl) : (s.onCore k f).retiring = s.retiring := rfl
@[simp] theorem onCore_residual (s : State) (k : Nat) (f : CoreCtl → CoreCtl) : (s.onCore k f).residual = s.residual := rfl
@[simp] theorem onCore_samples (s : State) (k : Nat) (f : CoreCtl → CoreCtl) : (s.onCore k f).samples = s.samples := rfl
@[simp] theorem onCore_frozen (s : State) (k : Nat) (f : CoreCtl → CoreCtl) : (s.onCore k f).frozen = s.frozen := rfl
@[simp] theorem onCore_heldMasters (s : State) (k : Nat) (f : CoreCtl → CoreCtl) : (s.onCore k f).heldMasters = s.heldMasters := rfl
@[simp] theorem onCore_throttled (s : State) (k : Nat) (f : CoreCtl → CoreCtl) : (s.onCore k f).throttled = s.throttled := rfl
@[simp] theorem onCore_idCounter (s : State) (k : Nat) (f : CoreCtl → CoreCtl) : (s.onCore k f).idCounter = s.idCounter := rfl
@[simp] theorem onCore_mgmtLog (s : State) (k : Nat) (f : CoreCtl → CoreCtl) : (s.onCore k f).mgmtLog = s.mgmtLog := rfl
@[simp] theorem onCore_host (s : State) (k : Nat) (f : CoreCtl → CoreCtl) : (s.onCore k f).host = s.host := rfl
@[simp] theorem onCore_msix (s : State) (k : Nat) (f : CoreCtl → CoreCtl) : (s.onCore k f).msix = s.msix := rfl
@[simp] theorem onCore_spdm (s : State) (k : Nat) (f : CoreCtl → CoreCtl) : (s.onCore k f).spdm = s.spdm := rfl
@[simp] theorem onCore_glob (s : State) (k : Nat) (f : CoreCtl → CoreCtl) : (s.onCore k f).glob = s.glob := rfl

/-! ### `State.onOp` -/

@[simp] theorem onOp_clk (s : State) (k : Nat) (f : Op → Op) : (s.onOp k f).clk = s.clk := rfl
@[simp] theorem onOp_readyAt (s : State) (k : Nat) (f : Op → Op) : (s.onOp k f).readyAt = s.readyAt := rfl
@[simp] theorem onOp_agenda (s : State) (k : Nat) (f : Op → Op) : (s.onOp k f).agenda = s.agenda := rfl
@[simp] theorem onOp_draws (s : State) (k : Nat) (f : Op → Op) : (s.onOp k f).draws = s.draws := rfl
@[simp] theorem onOp_nextKey (s : State) (k : Nat) (f : Op → Op) : (s.onOp k f).nextKey = s.nextKey := rfl
@[simp] theorem onOp_issuing (s : State) (k : Nat) (f : Op → Op) : (s.onOp k f).issuing = s.issuing := rfl
@[simp] theorem onOp_threads (s : State) (k : Nat) (f : Op → Op) : (s.onOp k f).threads = s.threads := rfl
@[simp] theorem onOp_groups (s : State) (k : Nat) (f : Op → Op) : (s.onOp k f).groups = s.groups := rfl
@[simp] theorem onOp_teams (s : State) (k : Nat) (f : Op → Op) : (s.onOp k f).teams = s.teams := rfl
@[simp] theorem onOp_launches (s : State) (k : Nat) (f : Op → Op) : (s.onOp k f).launches = s.launches := rfl
@[simp] theorem onOp_contexts (s : State) (k : Nat) (f : Op → Op) : (s.onOp k f).contexts = s.contexts := rfl
@[simp] theorem onOp_cores (s : State) (k : Nat) (f : Op → Op) : (s.onOp k f).cores = s.cores := rfl
@[simp] theorem onOp_cages (s : State) (k : Nat) (f : Op → Op) : (s.onOp k f).cages = s.cages := rfl
@[simp] theorem onOp_entrants (s : State) (k : Nat) (f : Op → Op) : (s.onOp k f).entrants = s.entrants := rfl
@[simp] theorem onOp_ports (s : State) (k : Nat) (f : Op → Op) : (s.onOp k f).ports = s.ports := rfl
@[simp] theorem onOp_fixed (s : State) (k : Nat) (f : Op → Op) : (s.onOp k f).fixed = s.fixed := rfl
@[simp] theorem onOp_ops (s : State) (k : Nat) (f : Op → Op) : (s.onOp k f).ops = tmod k f s.ops := rfl
@[simp] theorem onOp_dieOrder (s : State) (k : Nat) (f : Op → Op) : (s.onOp k f).dieOrder = s.dieOrder := rfl
@[simp] theorem onOp_mem (s : State) (k : Nat) (f : Op → Op) : (s.onOp k f).mem = s.mem := rfl
@[simp] theorem onOp_l2 (s : State) (k : Nat) (f : Op → Op) : (s.onOp k f).l2 = s.l2 := rfl
@[simp] theorem onOp_l1 (s : State) (k : Nat) (f : Op → Op) : (s.onOp k f).l1 = s.l1 := rfl
@[simp] theorem onOp_presence (s : State) (k : Nat) (f : Op → Op) : (s.onOp k f).presence = s.presence := rfl
@[simp] theorem onOp_rows (s : State) (k : Nat) (f : Op → Op) : (s.onOp k f).rows = s.rows := rfl
@[simp] theorem onOp_full (s : State) (k : Nat) (f : Op → Op) : (s.onOp k f).full = s.full := rfl
@[simp] theorem onOp_poison (s : State) (k : Nat) (f : Op → Op) : (s.onOp k f).poison = s.poison := rfl
@[simp] theorem onOp_tlb (s : State) (k : Nat) (f : Op → Op) : (s.onOp k f).tlb = s.tlb := rfl
@[simp] theorem onOp_rangeLocks (s : State) (k : Nat) (f : Op → Op) : (s.onOp k f).rangeLocks = s.rangeLocks := rfl
@[simp] theorem onOp_rowLocks (s : State) (k : Nat) (f : Op → Op) : (s.onOp k f).rowLocks = s.rowLocks := rfl
@[simp] theorem onOp_writers (s : State) (k : Nat) (f : Op → Op) : (s.onOp k f).writers = s.writers := rfl
@[simp] theorem onOp_atomCounts (s : State) (k : Nat) (f : Op → Op) : (s.onOp k f).atomCounts = s.atomCounts := rfl
@[simp] theorem onOp_homes (s : State) (k : Nat) (f : Op → Op) : (s.onOp k f).homes = s.homes := rfl
@[simp] theorem onOp_evictFirst (s : State) (k : Nat) (f : Op → Op) : (s.onOp k f).evictFirst = s.evictFirst := rfl
@[simp] theorem onOp_l1EvictFirst (s : State) (k : Nat) (f : Op → Op) : (s.onOp k f).l1EvictFirst = s.l1EvictFirst := rfl
@[simp] theorem onOp_windows (s : State) (k : Nat) (f : Op → Op) : (s.onOp k f).windows = s.windows := rfl
@[simp] theorem onOp_dies (s : State) (k : Nat) (f : Op → Op) : (s.onOp k f).dies = s.dies := rfl
@[simp] theorem onOp_matrix (s : State) (k : Nat) (f : Op → Op) : (s.onOp k f).matrix = s.matrix := rfl
@[simp] theorem onOp_matrixSeq (s : State) (k : Nat) (f : Op → Op) : (s.onOp k f).matrixSeq = s.matrixSeq := rfl
@[simp] theorem onOp_marks (s : State) (k : Nat) (f : Op → Op) : (s.onOp k f).marks = s.marks := rfl
@[simp] theorem onOp_writersOf (s : State) (k : Nat) (f : Op → Op) : (s.onOp k f).writersOf = s.writersOf := rfl
@[simp] theorem onOp_handles (s : State) (k : Nat) (f : Op → Op) : (s.onOp k f).handles = s.handles := rfl
@[simp] theorem onOp_buffers (s : State) (k : Nat) (f : Op → Op) : (s.onOp k f).buffers = s.buffers := rfl
@[simp] theorem onOp_arrivals (s : State) (k : Nat) (f : Op → Op) : (s.onOp k f).arrivals = s.arrivals := rfl
@[simp] theorem onOp_treated (s : State) (k : Nat) (f : Op → Op) : (s.onOp k f).treated = s.treated := rfl
@[simp] theorem onOp_spills (s : State) (k : Nat) (f : Op → Op) : (s.onOp k f).spills = s.spills := rfl
@[simp] theorem onOp_channels (s : State) (k : Nat) (f : Op → Op) : (s.onOp k f).channels = s.channels := rfl
@[simp] theorem onOp_seqs (s : State) (k : Nat) (f : Op → Op) : (s.onOp k f).seqs = s.seqs := rfl
@[simp] theorem onOp_packets (s : State) (k : Nat) (f : Op → Op) : (s.onOp k f).packets = s.packets := rfl
@[simp] theorem onOp_outbox (s : State) (k : Nat) (f : Op → Op) : (s.onOp k f).outbox = s.outbox := rfl
@[simp] theorem onOp_unacked (s : State) (k : Nat) (f : Op → Op) : (s.onOp k f).unacked = s.unacked := rfl
@[simp] theorem onOp_delivered (s : State) (k : Nat) (f : Op → Op) : (s.onOp k f).delivered = s.delivered := rfl
@[simp] theorem onOp_accepted (s : State) (k : Nat) (f : Op → Op) : (s.onOp k f).accepted = s.accepted := rfl
@[simp] theorem onOp_notices (s : State) (k : Nat) (f : Op → Op) : (s.onOp k f).notices = s.notices := rfl
@[simp] theorem onOp_detours (s : State) (k : Nat) (f : Op → Op) : (s.onOp k f).detours = s.detours := rfl
@[simp] theorem onOp_retiredQuads (s : State) (k : Nat) (f : Op → Op) : (s.onOp k f).retiredQuads = s.retiredQuads := rfl
@[simp] theorem onOp_retiredPorts (s : State) (k : Nat) (f : Op → Op) : (s.onOp k f).retiredPorts = s.retiredPorts := rfl
@[simp] theorem onOp_mailboxes (s : State) (k : Nat) (f : Op → Op) : (s.onOp k f).mailboxes = s.mailboxes := rfl
@[simp] theorem onOp_harts (s : State) (k : Nat) (f : Op → Op) : (s.onOp k f).harts = s.harts := rfl
@[simp] theorem onOp_arenas (s : State) (k : Nat) (f : Op → Op) : (s.onOp k f).arenas = s.arenas := rfl
@[simp] theorem onOp_requests (s : State) (k : Nat) (f : Op → Op) : (s.onOp k f).requests = s.requests := rfl
@[simp] theorem onOp_victims (s : State) (k : Nat) (f : Op → Op) : (s.onOp k f).victims = s.victims := rfl
@[simp] theorem onOp_withdrawn (s : State) (k : Nat) (f : Op → Op) : (s.onOp k f).withdrawn = s.withdrawn := rfl
@[simp] theorem onOp_retiring (s : State) (k : Nat) (f : Op → Op) : (s.onOp k f).retiring = s.retiring := rfl
@[simp] theorem onOp_residual (s : State) (k : Nat) (f : Op → Op) : (s.onOp k f).residual = s.residual := rfl
@[simp] theorem onOp_samples (s : State) (k : Nat) (f : Op → Op) : (s.onOp k f).samples = s.samples := rfl
@[simp] theorem onOp_frozen (s : State) (k : Nat) (f : Op → Op) : (s.onOp k f).frozen = s.frozen := rfl
@[simp] theorem onOp_heldMasters (s : State) (k : Nat) (f : Op → Op) : (s.onOp k f).heldMasters = s.heldMasters := rfl
@[simp] theorem onOp_throttled (s : State) (k : Nat) (f : Op → Op) : (s.onOp k f).throttled = s.throttled := rfl
@[simp] theorem onOp_idCounter (s : State) (k : Nat) (f : Op → Op) : (s.onOp k f).idCounter = s.idCounter := rfl
@[simp] theorem onOp_mgmtLog (s : State) (k : Nat) (f : Op → Op) : (s.onOp k f).mgmtLog = s.mgmtLog := rfl
@[simp] theorem onOp_host (s : State) (k : Nat) (f : Op → Op) : (s.onOp k f).host = s.host := rfl
@[simp] theorem onOp_msix (s : State) (k : Nat) (f : Op → Op) : (s.onOp k f).msix = s.msix := rfl
@[simp] theorem onOp_spdm (s : State) (k : Nat) (f : Op → Op) : (s.onOp k f).spdm = s.spdm := rfl
@[simp] theorem onOp_glob (s : State) (k : Nat) (f : Op → Op) : (s.onOp k f).glob = s.glob := rfl

/-! ### `State.endOp` -/

@[simp] theorem endOp_clk (s : State) (k : Nat) : (s.endOp k).clk = s.clk := rfl
@[simp] theorem endOp_readyAt (s : State) (k : Nat) : (s.endOp k).readyAt = s.readyAt := rfl
@[simp] theorem endOp_agenda (s : State) (k : Nat) : (s.endOp k).agenda = s.agenda := rfl
@[simp] theorem endOp_draws (s : State) (k : Nat) : (s.endOp k).draws = s.draws := rfl
@[simp] theorem endOp_nextKey (s : State) (k : Nat) : (s.endOp k).nextKey = s.nextKey := rfl
@[simp] theorem endOp_issuing (s : State) (k : Nat) : (s.endOp k).issuing = s.issuing := rfl
@[simp] theorem endOp_threads (s : State) (k : Nat) : (s.endOp k).threads = s.threads := rfl
@[simp] theorem endOp_groups (s : State) (k : Nat) : (s.endOp k).groups = s.groups := rfl
@[simp] theorem endOp_teams (s : State) (k : Nat) : (s.endOp k).teams = s.teams := rfl
@[simp] theorem endOp_launches (s : State) (k : Nat) : (s.endOp k).launches = s.launches := rfl
@[simp] theorem endOp_contexts (s : State) (k : Nat) : (s.endOp k).contexts = s.contexts := rfl
@[simp] theorem endOp_cores (s : State) (k : Nat) : (s.endOp k).cores = s.cores := rfl
@[simp] theorem endOp_cages (s : State) (k : Nat) : (s.endOp k).cages = s.cages := rfl
@[simp] theorem endOp_entrants (s : State) (k : Nat) : (s.endOp k).entrants = s.entrants := rfl
@[simp] theorem endOp_ports (s : State) (k : Nat) : (s.endOp k).ports = s.ports := rfl
@[simp] theorem endOp_fixed (s : State) (k : Nat) : (s.endOp k).fixed = s.fixed := rfl
@[simp] theorem endOp_ops (s : State) (k : Nat) : (s.endOp k).ops = tdel k s.ops := rfl
@[simp] theorem endOp_dieOrder (s : State) (k : Nat) : (s.endOp k).dieOrder = s.dieOrder := rfl
@[simp] theorem endOp_mem (s : State) (k : Nat) : (s.endOp k).mem = s.mem := rfl
@[simp] theorem endOp_l2 (s : State) (k : Nat) : (s.endOp k).l2 = s.l2 := rfl
@[simp] theorem endOp_l1 (s : State) (k : Nat) : (s.endOp k).l1 = s.l1 := rfl
@[simp] theorem endOp_presence (s : State) (k : Nat) : (s.endOp k).presence = s.presence := rfl
@[simp] theorem endOp_rows (s : State) (k : Nat) : (s.endOp k).rows = s.rows := rfl
@[simp] theorem endOp_full (s : State) (k : Nat) : (s.endOp k).full = s.full := rfl
@[simp] theorem endOp_poison (s : State) (k : Nat) : (s.endOp k).poison = s.poison := rfl
@[simp] theorem endOp_tlb (s : State) (k : Nat) : (s.endOp k).tlb = s.tlb := rfl
@[simp] theorem endOp_rangeLocks (s : State) (k : Nat) : (s.endOp k).rangeLocks = s.rangeLocks := rfl
@[simp] theorem endOp_rowLocks (s : State) (k : Nat) : (s.endOp k).rowLocks = s.rowLocks := rfl
@[simp] theorem endOp_writers (s : State) (k : Nat) : (s.endOp k).writers = s.writers := rfl
@[simp] theorem endOp_atomCounts (s : State) (k : Nat) : (s.endOp k).atomCounts = s.atomCounts := rfl
@[simp] theorem endOp_homes (s : State) (k : Nat) : (s.endOp k).homes = s.homes := rfl
@[simp] theorem endOp_evictFirst (s : State) (k : Nat) : (s.endOp k).evictFirst = s.evictFirst := rfl
@[simp] theorem endOp_l1EvictFirst (s : State) (k : Nat) : (s.endOp k).l1EvictFirst = s.l1EvictFirst := rfl
@[simp] theorem endOp_windows (s : State) (k : Nat) : (s.endOp k).windows = s.windows := rfl
@[simp] theorem endOp_dies (s : State) (k : Nat) : (s.endOp k).dies = s.dies := rfl
@[simp] theorem endOp_matrix (s : State) (k : Nat) : (s.endOp k).matrix = s.matrix := rfl
@[simp] theorem endOp_matrixSeq (s : State) (k : Nat) : (s.endOp k).matrixSeq = s.matrixSeq := rfl
@[simp] theorem endOp_marks (s : State) (k : Nat) : (s.endOp k).marks = s.marks := rfl
@[simp] theorem endOp_writersOf (s : State) (k : Nat) : (s.endOp k).writersOf = s.writersOf := rfl
@[simp] theorem endOp_handles (s : State) (k : Nat) : (s.endOp k).handles = s.handles := rfl
@[simp] theorem endOp_buffers (s : State) (k : Nat) : (s.endOp k).buffers = s.buffers := rfl
@[simp] theorem endOp_arrivals (s : State) (k : Nat) : (s.endOp k).arrivals = s.arrivals := rfl
@[simp] theorem endOp_treated (s : State) (k : Nat) : (s.endOp k).treated = s.treated := rfl
@[simp] theorem endOp_spills (s : State) (k : Nat) : (s.endOp k).spills = s.spills := rfl
@[simp] theorem endOp_channels (s : State) (k : Nat) : (s.endOp k).channels = s.channels := rfl
@[simp] theorem endOp_seqs (s : State) (k : Nat) : (s.endOp k).seqs = s.seqs := rfl
@[simp] theorem endOp_packets (s : State) (k : Nat) : (s.endOp k).packets = s.packets := rfl
@[simp] theorem endOp_outbox (s : State) (k : Nat) : (s.endOp k).outbox = s.outbox := rfl
@[simp] theorem endOp_unacked (s : State) (k : Nat) : (s.endOp k).unacked = s.unacked := rfl
@[simp] theorem endOp_delivered (s : State) (k : Nat) : (s.endOp k).delivered = s.delivered := rfl
@[simp] theorem endOp_accepted (s : State) (k : Nat) : (s.endOp k).accepted = s.accepted := rfl
@[simp] theorem endOp_notices (s : State) (k : Nat) : (s.endOp k).notices = s.notices := rfl
@[simp] theorem endOp_detours (s : State) (k : Nat) : (s.endOp k).detours = s.detours := rfl
@[simp] theorem endOp_retiredQuads (s : State) (k : Nat) : (s.endOp k).retiredQuads = s.retiredQuads := rfl
@[simp] theorem endOp_retiredPorts (s : State) (k : Nat) : (s.endOp k).retiredPorts = s.retiredPorts := rfl
@[simp] theorem endOp_mailboxes (s : State) (k : Nat) : (s.endOp k).mailboxes = s.mailboxes := rfl
@[simp] theorem endOp_harts (s : State) (k : Nat) : (s.endOp k).harts = s.harts := rfl
@[simp] theorem endOp_arenas (s : State) (k : Nat) : (s.endOp k).arenas = s.arenas := rfl
@[simp] theorem endOp_requests (s : State) (k : Nat) : (s.endOp k).requests = s.requests := rfl
@[simp] theorem endOp_victims (s : State) (k : Nat) : (s.endOp k).victims = s.victims := rfl
@[simp] theorem endOp_withdrawn (s : State) (k : Nat) : (s.endOp k).withdrawn = s.withdrawn := rfl
@[simp] theorem endOp_retiring (s : State) (k : Nat) : (s.endOp k).retiring = s.retiring := rfl
@[simp] theorem endOp_residual (s : State) (k : Nat) : (s.endOp k).residual = s.residual := rfl
@[simp] theorem endOp_samples (s : State) (k : Nat) : (s.endOp k).samples = s.samples := rfl
@[simp] theorem endOp_frozen (s : State) (k : Nat) : (s.endOp k).frozen = s.frozen := rfl
@[simp] theorem endOp_heldMasters (s : State) (k : Nat) : (s.endOp k).heldMasters = s.heldMasters := rfl
@[simp] theorem endOp_throttled (s : State) (k : Nat) : (s.endOp k).throttled = s.throttled := rfl
@[simp] theorem endOp_idCounter (s : State) (k : Nat) : (s.endOp k).idCounter = s.idCounter := rfl
@[simp] theorem endOp_mgmtLog (s : State) (k : Nat) : (s.endOp k).mgmtLog = s.mgmtLog := rfl
@[simp] theorem endOp_host (s : State) (k : Nat) : (s.endOp k).host = s.host := rfl
@[simp] theorem endOp_msix (s : State) (k : Nat) : (s.endOp k).msix = s.msix := rfl
@[simp] theorem endOp_spdm (s : State) (k : Nat) : (s.endOp k).spdm = s.spdm := rfl
@[simp] theorem endOp_glob (s : State) (k : Nat) : (s.endOp k).glob = s.glob := rfl

/-! ### `State.beginOp` -/

@[simp] theorem beginOp_clk (s : State) (o : Op) : (s.beginOp o).clk = s.clk := rfl
@[simp] theorem beginOp_readyAt (s : State) (o : Op) : (s.beginOp o).readyAt = s.readyAt := rfl
@[simp] theorem beginOp_agenda (s : State) (o : Op) : (s.beginOp o).agenda = s.agenda := rfl
@[simp] theorem beginOp_draws (s : State) (o : Op) : (s.beginOp o).draws = s.draws := rfl
@[simp] theorem beginOp_nextKey (s : State) (o : Op) : (s.beginOp o).nextKey = s.nextKey + 1 := rfl
@[simp] theorem beginOp_issuing (s : State) (o : Op) : (s.beginOp o).issuing = s.issuing := rfl
@[simp] theorem beginOp_threads (s : State) (o : Op) : (s.beginOp o).threads = s.threads := rfl
@[simp] theorem beginOp_groups (s : State) (o : Op) : (s.beginOp o).groups = s.groups := rfl
@[simp] theorem beginOp_teams (s : State) (o : Op) : (s.beginOp o).teams = s.teams := rfl
@[simp] theorem beginOp_launches (s : State) (o : Op) : (s.beginOp o).launches = s.launches := rfl
@[simp] theorem beginOp_contexts (s : State) (o : Op) : (s.beginOp o).contexts = s.contexts := rfl
@[simp] theorem beginOp_cores (s : State) (o : Op) : (s.beginOp o).cores = s.cores := rfl
@[simp] theorem beginOp_cages (s : State) (o : Op) : (s.beginOp o).cages = s.cages := rfl
@[simp] theorem beginOp_entrants (s : State) (o : Op) : (s.beginOp o).entrants = s.entrants := rfl
@[simp] theorem beginOp_ports (s : State) (o : Op) : (s.beginOp o).ports = s.ports := rfl
@[simp] theorem beginOp_fixed (s : State) (o : Op) : (s.beginOp o).fixed = s.fixed := rfl
@[simp] theorem beginOp_ops (s : State) (o : Op) : (s.beginOp o).ops = tset s.nextKey o s.ops := rfl
@[simp] theorem beginOp_dieOrder (s : State) (o : Op) : (s.beginOp o).dieOrder = s.dieOrder := rfl
@[simp] theorem beginOp_mem (s : State) (o : Op) : (s.beginOp o).mem = s.mem := rfl
@[simp] theorem beginOp_l2 (s : State) (o : Op) : (s.beginOp o).l2 = s.l2 := rfl
@[simp] theorem beginOp_l1 (s : State) (o : Op) : (s.beginOp o).l1 = s.l1 := rfl
@[simp] theorem beginOp_presence (s : State) (o : Op) : (s.beginOp o).presence = s.presence := rfl
@[simp] theorem beginOp_rows (s : State) (o : Op) : (s.beginOp o).rows = s.rows := rfl
@[simp] theorem beginOp_full (s : State) (o : Op) : (s.beginOp o).full = s.full := rfl
@[simp] theorem beginOp_poison (s : State) (o : Op) : (s.beginOp o).poison = s.poison := rfl
@[simp] theorem beginOp_tlb (s : State) (o : Op) : (s.beginOp o).tlb = s.tlb := rfl
@[simp] theorem beginOp_rangeLocks (s : State) (o : Op) : (s.beginOp o).rangeLocks = s.rangeLocks := rfl
@[simp] theorem beginOp_rowLocks (s : State) (o : Op) : (s.beginOp o).rowLocks = s.rowLocks := rfl
@[simp] theorem beginOp_writers (s : State) (o : Op) : (s.beginOp o).writers = s.writers := rfl
@[simp] theorem beginOp_atomCounts (s : State) (o : Op) : (s.beginOp o).atomCounts = s.atomCounts := rfl
@[simp] theorem beginOp_homes (s : State) (o : Op) : (s.beginOp o).homes = s.homes := rfl
@[simp] theorem beginOp_evictFirst (s : State) (o : Op) : (s.beginOp o).evictFirst = s.evictFirst := rfl
@[simp] theorem beginOp_l1EvictFirst (s : State) (o : Op) : (s.beginOp o).l1EvictFirst = s.l1EvictFirst := rfl
@[simp] theorem beginOp_windows (s : State) (o : Op) : (s.beginOp o).windows = s.windows := rfl
@[simp] theorem beginOp_dies (s : State) (o : Op) : (s.beginOp o).dies = s.dies := rfl
@[simp] theorem beginOp_matrix (s : State) (o : Op) : (s.beginOp o).matrix = s.matrix := rfl
@[simp] theorem beginOp_matrixSeq (s : State) (o : Op) : (s.beginOp o).matrixSeq = s.matrixSeq := rfl
@[simp] theorem beginOp_marks (s : State) (o : Op) : (s.beginOp o).marks = s.marks := rfl
@[simp] theorem beginOp_writersOf (s : State) (o : Op) : (s.beginOp o).writersOf = s.writersOf := rfl
@[simp] theorem beginOp_handles (s : State) (o : Op) : (s.beginOp o).handles = s.handles := rfl
@[simp] theorem beginOp_buffers (s : State) (o : Op) : (s.beginOp o).buffers = s.buffers := rfl
@[simp] theorem beginOp_arrivals (s : State) (o : Op) : (s.beginOp o).arrivals = s.arrivals := rfl
@[simp] theorem beginOp_treated (s : State) (o : Op) : (s.beginOp o).treated = s.treated := rfl
@[simp] theorem beginOp_spills (s : State) (o : Op) : (s.beginOp o).spills = s.spills := rfl
@[simp] theorem beginOp_channels (s : State) (o : Op) : (s.beginOp o).channels = s.channels := rfl
@[simp] theorem beginOp_seqs (s : State) (o : Op) : (s.beginOp o).seqs = s.seqs := rfl
@[simp] theorem beginOp_packets (s : State) (o : Op) : (s.beginOp o).packets = s.packets := rfl
@[simp] theorem beginOp_outbox (s : State) (o : Op) : (s.beginOp o).outbox = s.outbox := rfl
@[simp] theorem beginOp_unacked (s : State) (o : Op) : (s.beginOp o).unacked = s.unacked := rfl
@[simp] theorem beginOp_delivered (s : State) (o : Op) : (s.beginOp o).delivered = s.delivered := rfl
@[simp] theorem beginOp_accepted (s : State) (o : Op) : (s.beginOp o).accepted = s.accepted := rfl
@[simp] theorem beginOp_notices (s : State) (o : Op) : (s.beginOp o).notices = s.notices := rfl
@[simp] theorem beginOp_detours (s : State) (o : Op) : (s.beginOp o).detours = s.detours := rfl
@[simp] theorem beginOp_retiredQuads (s : State) (o : Op) : (s.beginOp o).retiredQuads = s.retiredQuads := rfl
@[simp] theorem beginOp_retiredPorts (s : State) (o : Op) : (s.beginOp o).retiredPorts = s.retiredPorts := rfl
@[simp] theorem beginOp_mailboxes (s : State) (o : Op) : (s.beginOp o).mailboxes = s.mailboxes := rfl
@[simp] theorem beginOp_harts (s : State) (o : Op) : (s.beginOp o).harts = s.harts := rfl
@[simp] theorem beginOp_arenas (s : State) (o : Op) : (s.beginOp o).arenas = s.arenas := rfl
@[simp] theorem beginOp_requests (s : State) (o : Op) : (s.beginOp o).requests = s.requests := rfl
@[simp] theorem beginOp_victims (s : State) (o : Op) : (s.beginOp o).victims = s.victims := rfl
@[simp] theorem beginOp_withdrawn (s : State) (o : Op) : (s.beginOp o).withdrawn = s.withdrawn := rfl
@[simp] theorem beginOp_retiring (s : State) (o : Op) : (s.beginOp o).retiring = s.retiring := rfl
@[simp] theorem beginOp_residual (s : State) (o : Op) : (s.beginOp o).residual = s.residual := rfl
@[simp] theorem beginOp_samples (s : State) (o : Op) : (s.beginOp o).samples = s.samples := rfl
@[simp] theorem beginOp_frozen (s : State) (o : Op) : (s.beginOp o).frozen = s.frozen := rfl
@[simp] theorem beginOp_heldMasters (s : State) (o : Op) : (s.beginOp o).heldMasters = s.heldMasters := rfl
@[simp] theorem beginOp_throttled (s : State) (o : Op) : (s.beginOp o).throttled = s.throttled := rfl
@[simp] theorem beginOp_idCounter (s : State) (o : Op) : (s.beginOp o).idCounter = s.idCounter := rfl
@[simp] theorem beginOp_mgmtLog (s : State) (o : Op) : (s.beginOp o).mgmtLog = s.mgmtLog := rfl
@[simp] theorem beginOp_host (s : State) (o : Op) : (s.beginOp o).host = s.host := rfl
@[simp] theorem beginOp_msix (s : State) (o : Op) : (s.beginOp o).msix = s.msix := rfl
@[simp] theorem beginOp_spdm (s : State) (o : Op) : (s.beginOp o).spdm = s.spdm := rfl
@[simp] theorem beginOp_glob (s : State) (o : Op) : (s.beginOp o).glob = s.glob := rfl

/-! ### `writeHome` -/

@[simp] theorem writeHome_clk (s : State) (pa : Nat) (b : Byte) : (writeHome s pa b).clk = s.clk := rfl
@[simp] theorem writeHome_readyAt (s : State) (pa : Nat) (b : Byte) : (writeHome s pa b).readyAt = s.readyAt := rfl
@[simp] theorem writeHome_agenda (s : State) (pa : Nat) (b : Byte) : (writeHome s pa b).agenda = s.agenda := rfl
@[simp] theorem writeHome_draws (s : State) (pa : Nat) (b : Byte) : (writeHome s pa b).draws = s.draws := rfl
@[simp] theorem writeHome_nextKey (s : State) (pa : Nat) (b : Byte) : (writeHome s pa b).nextKey = s.nextKey := rfl
@[simp] theorem writeHome_issuing (s : State) (pa : Nat) (b : Byte) : (writeHome s pa b).issuing = s.issuing := rfl
@[simp] theorem writeHome_threads (s : State) (pa : Nat) (b : Byte) : (writeHome s pa b).threads = s.threads := rfl
@[simp] theorem writeHome_groups (s : State) (pa : Nat) (b : Byte) : (writeHome s pa b).groups = s.groups := rfl
@[simp] theorem writeHome_teams (s : State) (pa : Nat) (b : Byte) : (writeHome s pa b).teams = s.teams := rfl
@[simp] theorem writeHome_launches (s : State) (pa : Nat) (b : Byte) : (writeHome s pa b).launches = s.launches := rfl
@[simp] theorem writeHome_contexts (s : State) (pa : Nat) (b : Byte) : (writeHome s pa b).contexts = s.contexts := rfl
@[simp] theorem writeHome_cores (s : State) (pa : Nat) (b : Byte) : (writeHome s pa b).cores = s.cores := rfl
@[simp] theorem writeHome_cages (s : State) (pa : Nat) (b : Byte) : (writeHome s pa b).cages = s.cages := rfl
@[simp] theorem writeHome_entrants (s : State) (pa : Nat) (b : Byte) : (writeHome s pa b).entrants = s.entrants := rfl
@[simp] theorem writeHome_ports (s : State) (pa : Nat) (b : Byte) : (writeHome s pa b).ports = s.ports := rfl
@[simp] theorem writeHome_fixed (s : State) (pa : Nat) (b : Byte) : (writeHome s pa b).fixed = s.fixed := rfl
@[simp] theorem writeHome_ops (s : State) (pa : Nat) (b : Byte) : (writeHome s pa b).ops = s.ops := rfl
@[simp] theorem writeHome_dieOrder (s : State) (pa : Nat) (b : Byte) : (writeHome s pa b).dieOrder = s.dieOrder := rfl
@[simp] theorem writeHome_mem (s : State) (pa : Nat) (b : Byte) : (writeHome s pa b).mem = s.mem := rfl
@[simp] theorem writeHome_l2 (s : State) (pa : Nat) (b : Byte) : (writeHome s pa b).l2 = tset pa b s.l2 := rfl
@[simp] theorem writeHome_l1 (s : State) (pa : Nat) (b : Byte) : (writeHome s pa b).l1 = s.l1 := rfl
@[simp] theorem writeHome_presence (s : State) (pa : Nat) (b : Byte) : (writeHome s pa b).presence = tdel (pa / 256) s.presence := rfl
@[simp] theorem writeHome_rows (s : State) (pa : Nat) (b : Byte) : (writeHome s pa b).rows = s.rows := rfl
@[simp] theorem writeHome_full (s : State) (pa : Nat) (b : Byte) : (writeHome s pa b).full = s.full := rfl
@[simp] theorem writeHome_poison (s : State) (pa : Nat) (b : Byte) : (writeHome s pa b).poison = s.poison := rfl
@[simp] theorem writeHome_tlb (s : State) (pa : Nat) (b : Byte) : (writeHome s pa b).tlb = s.tlb := rfl
@[simp] theorem writeHome_rangeLocks (s : State) (pa : Nat) (b : Byte) : (writeHome s pa b).rangeLocks = s.rangeLocks := rfl
@[simp] theorem writeHome_rowLocks (s : State) (pa : Nat) (b : Byte) : (writeHome s pa b).rowLocks = s.rowLocks := rfl
@[simp] theorem writeHome_writers (s : State) (pa : Nat) (b : Byte) : (writeHome s pa b).writers = s.writers := rfl
@[simp] theorem writeHome_atomCounts (s : State) (pa : Nat) (b : Byte) : (writeHome s pa b).atomCounts = s.atomCounts := rfl
@[simp] theorem writeHome_homes (s : State) (pa : Nat) (b : Byte) : (writeHome s pa b).homes = s.homes := rfl
@[simp] theorem writeHome_evictFirst (s : State) (pa : Nat) (b : Byte) : (writeHome s pa b).evictFirst = s.evictFirst := rfl
@[simp] theorem writeHome_l1EvictFirst (s : State) (pa : Nat) (b : Byte) : (writeHome s pa b).l1EvictFirst = s.l1EvictFirst := rfl
@[simp] theorem writeHome_windows (s : State) (pa : Nat) (b : Byte) : (writeHome s pa b).windows = s.windows := rfl
@[simp] theorem writeHome_dies (s : State) (pa : Nat) (b : Byte) : (writeHome s pa b).dies = s.dies := rfl
@[simp] theorem writeHome_matrix (s : State) (pa : Nat) (b : Byte) : (writeHome s pa b).matrix = s.matrix := rfl
@[simp] theorem writeHome_matrixSeq (s : State) (pa : Nat) (b : Byte) : (writeHome s pa b).matrixSeq = s.matrixSeq := rfl
@[simp] theorem writeHome_marks (s : State) (pa : Nat) (b : Byte) : (writeHome s pa b).marks = s.marks := rfl
@[simp] theorem writeHome_writersOf (s : State) (pa : Nat) (b : Byte) : (writeHome s pa b).writersOf = s.writersOf := rfl
@[simp] theorem writeHome_handles (s : State) (pa : Nat) (b : Byte) : (writeHome s pa b).handles = s.handles := rfl
@[simp] theorem writeHome_buffers (s : State) (pa : Nat) (b : Byte) : (writeHome s pa b).buffers = s.buffers := rfl
@[simp] theorem writeHome_arrivals (s : State) (pa : Nat) (b : Byte) : (writeHome s pa b).arrivals = s.arrivals := rfl
@[simp] theorem writeHome_treated (s : State) (pa : Nat) (b : Byte) : (writeHome s pa b).treated = s.treated := rfl
@[simp] theorem writeHome_spills (s : State) (pa : Nat) (b : Byte) : (writeHome s pa b).spills = s.spills := rfl
@[simp] theorem writeHome_channels (s : State) (pa : Nat) (b : Byte) : (writeHome s pa b).channels = s.channels := rfl
@[simp] theorem writeHome_seqs (s : State) (pa : Nat) (b : Byte) : (writeHome s pa b).seqs = s.seqs := rfl
@[simp] theorem writeHome_packets (s : State) (pa : Nat) (b : Byte) : (writeHome s pa b).packets = s.packets := rfl
@[simp] theorem writeHome_outbox (s : State) (pa : Nat) (b : Byte) : (writeHome s pa b).outbox = s.outbox := rfl
@[simp] theorem writeHome_unacked (s : State) (pa : Nat) (b : Byte) : (writeHome s pa b).unacked = s.unacked := rfl
@[simp] theorem writeHome_delivered (s : State) (pa : Nat) (b : Byte) : (writeHome s pa b).delivered = s.delivered := rfl
@[simp] theorem writeHome_accepted (s : State) (pa : Nat) (b : Byte) : (writeHome s pa b).accepted = s.accepted := rfl
@[simp] theorem writeHome_notices (s : State) (pa : Nat) (b : Byte) : (writeHome s pa b).notices = s.notices := rfl
@[simp] theorem writeHome_detours (s : State) (pa : Nat) (b : Byte) : (writeHome s pa b).detours = s.detours := rfl
@[simp] theorem writeHome_retiredQuads (s : State) (pa : Nat) (b : Byte) : (writeHome s pa b).retiredQuads = s.retiredQuads := rfl
@[simp] theorem writeHome_retiredPorts (s : State) (pa : Nat) (b : Byte) : (writeHome s pa b).retiredPorts = s.retiredPorts := rfl
@[simp] theorem writeHome_mailboxes (s : State) (pa : Nat) (b : Byte) : (writeHome s pa b).mailboxes = s.mailboxes := rfl
@[simp] theorem writeHome_harts (s : State) (pa : Nat) (b : Byte) : (writeHome s pa b).harts = s.harts := rfl
@[simp] theorem writeHome_arenas (s : State) (pa : Nat) (b : Byte) : (writeHome s pa b).arenas = s.arenas := rfl
@[simp] theorem writeHome_requests (s : State) (pa : Nat) (b : Byte) : (writeHome s pa b).requests = s.requests := rfl
@[simp] theorem writeHome_victims (s : State) (pa : Nat) (b : Byte) : (writeHome s pa b).victims = s.victims := rfl
@[simp] theorem writeHome_withdrawn (s : State) (pa : Nat) (b : Byte) : (writeHome s pa b).withdrawn = s.withdrawn := rfl
@[simp] theorem writeHome_retiring (s : State) (pa : Nat) (b : Byte) : (writeHome s pa b).retiring = s.retiring := rfl
@[simp] theorem writeHome_residual (s : State) (pa : Nat) (b : Byte) : (writeHome s pa b).residual = s.residual := rfl
@[simp] theorem writeHome_samples (s : State) (pa : Nat) (b : Byte) : (writeHome s pa b).samples = s.samples := rfl
@[simp] theorem writeHome_frozen (s : State) (pa : Nat) (b : Byte) : (writeHome s pa b).frozen = s.frozen := rfl
@[simp] theorem writeHome_heldMasters (s : State) (pa : Nat) (b : Byte) : (writeHome s pa b).heldMasters = s.heldMasters := rfl
@[simp] theorem writeHome_throttled (s : State) (pa : Nat) (b : Byte) : (writeHome s pa b).throttled = s.throttled := rfl
@[simp] theorem writeHome_idCounter (s : State) (pa : Nat) (b : Byte) : (writeHome s pa b).idCounter = s.idCounter := rfl
@[simp] theorem writeHome_mgmtLog (s : State) (pa : Nat) (b : Byte) : (writeHome s pa b).mgmtLog = s.mgmtLog := rfl
@[simp] theorem writeHome_host (s : State) (pa : Nat) (b : Byte) : (writeHome s pa b).host = s.host := rfl
@[simp] theorem writeHome_msix (s : State) (pa : Nat) (b : Byte) : (writeHome s pa b).msix = s.msix := rfl
@[simp] theorem writeHome_spdm (s : State) (pa : Nat) (b : Byte) : (writeHome s pa b).spdm = s.spdm := rfl
@[simp] theorem writeHome_glob (s : State) (pa : Nat) (b : Byte) : (writeHome s pa b).glob = s.glob := rfl

/-! ### `leaveIssue` -/

@[simp] theorem leaveIssue_clk (s : State) (k : Nat) : (leaveIssue s k).clk = s.clk := rfl
@[simp] theorem leaveIssue_readyAt (s : State) (k : Nat) : (leaveIssue s k).readyAt = s.readyAt := rfl
@[simp] theorem leaveIssue_agenda (s : State) (k : Nat) : (leaveIssue s k).agenda = s.agenda := rfl
@[simp] theorem leaveIssue_draws (s : State) (k : Nat) : (leaveIssue s k).draws = s.draws := rfl
@[simp] theorem leaveIssue_nextKey (s : State) (k : Nat) : (leaveIssue s k).nextKey = s.nextKey := rfl
@[simp] theorem leaveIssue_issuing (s : State) (k : Nat) : (leaveIssue s k).issuing = s.issuing.map fun w => { w with members := w.members.filter (· ≠ k) } := rfl
@[simp] theorem leaveIssue_threads (s : State) (k : Nat) : (leaveIssue s k).threads = s.threads := rfl
@[simp] theorem leaveIssue_groups (s : State) (k : Nat) : (leaveIssue s k).groups = s.groups := rfl
@[simp] theorem leaveIssue_teams (s : State) (k : Nat) : (leaveIssue s k).teams = s.teams := rfl
@[simp] theorem leaveIssue_launches (s : State) (k : Nat) : (leaveIssue s k).launches = s.launches := rfl
@[simp] theorem leaveIssue_contexts (s : State) (k : Nat) : (leaveIssue s k).contexts = s.contexts := rfl
@[simp] theorem leaveIssue_cores (s : State) (k : Nat) : (leaveIssue s k).cores = s.cores := rfl
@[simp] theorem leaveIssue_cages (s : State) (k : Nat) : (leaveIssue s k).cages = s.cages := rfl
@[simp] theorem leaveIssue_entrants (s : State) (k : Nat) : (leaveIssue s k).entrants = s.entrants := rfl
@[simp] theorem leaveIssue_ports (s : State) (k : Nat) : (leaveIssue s k).ports = s.ports.map fun e => (e.1, { e.2 with members := e.2.members.filter (· ≠ k) }) := rfl
@[simp] theorem leaveIssue_fixed (s : State) (k : Nat) : (leaveIssue s k).fixed = s.fixed := rfl
@[simp] theorem leaveIssue_ops (s : State) (k : Nat) : (leaveIssue s k).ops = s.ops := rfl
@[simp] theorem leaveIssue_dieOrder (s : State) (k : Nat) : (leaveIssue s k).dieOrder = s.dieOrder := rfl
@[simp] theorem leaveIssue_mem (s : State) (k : Nat) : (leaveIssue s k).mem = s.mem := rfl
@[simp] theorem leaveIssue_l2 (s : State) (k : Nat) : (leaveIssue s k).l2 = s.l2 := rfl
@[simp] theorem leaveIssue_l1 (s : State) (k : Nat) : (leaveIssue s k).l1 = s.l1 := rfl
@[simp] theorem leaveIssue_presence (s : State) (k : Nat) : (leaveIssue s k).presence = s.presence := rfl
@[simp] theorem leaveIssue_rows (s : State) (k : Nat) : (leaveIssue s k).rows = s.rows := rfl
@[simp] theorem leaveIssue_full (s : State) (k : Nat) : (leaveIssue s k).full = s.full := rfl
@[simp] theorem leaveIssue_poison (s : State) (k : Nat) : (leaveIssue s k).poison = s.poison := rfl
@[simp] theorem leaveIssue_tlb (s : State) (k : Nat) : (leaveIssue s k).tlb = s.tlb := rfl
@[simp] theorem leaveIssue_rangeLocks (s : State) (k : Nat) : (leaveIssue s k).rangeLocks = s.rangeLocks := rfl
@[simp] theorem leaveIssue_rowLocks (s : State) (k : Nat) : (leaveIssue s k).rowLocks = s.rowLocks := rfl
@[simp] theorem leaveIssue_writers (s : State) (k : Nat) : (leaveIssue s k).writers = s.writers := rfl
@[simp] theorem leaveIssue_atomCounts (s : State) (k : Nat) : (leaveIssue s k).atomCounts = s.atomCounts := rfl
@[simp] theorem leaveIssue_homes (s : State) (k : Nat) : (leaveIssue s k).homes = s.homes := rfl
@[simp] theorem leaveIssue_evictFirst (s : State) (k : Nat) : (leaveIssue s k).evictFirst = s.evictFirst := rfl
@[simp] theorem leaveIssue_l1EvictFirst (s : State) (k : Nat) : (leaveIssue s k).l1EvictFirst = s.l1EvictFirst := rfl
@[simp] theorem leaveIssue_windows (s : State) (k : Nat) : (leaveIssue s k).windows = s.windows := rfl
@[simp] theorem leaveIssue_dies (s : State) (k : Nat) : (leaveIssue s k).dies = s.dies := rfl
@[simp] theorem leaveIssue_matrix (s : State) (k : Nat) : (leaveIssue s k).matrix = s.matrix := rfl
@[simp] theorem leaveIssue_matrixSeq (s : State) (k : Nat) : (leaveIssue s k).matrixSeq = s.matrixSeq := rfl
@[simp] theorem leaveIssue_marks (s : State) (k : Nat) : (leaveIssue s k).marks = s.marks := rfl
@[simp] theorem leaveIssue_writersOf (s : State) (k : Nat) : (leaveIssue s k).writersOf = s.writersOf := rfl
@[simp] theorem leaveIssue_handles (s : State) (k : Nat) : (leaveIssue s k).handles = s.handles := rfl
@[simp] theorem leaveIssue_buffers (s : State) (k : Nat) : (leaveIssue s k).buffers = s.buffers := rfl
@[simp] theorem leaveIssue_arrivals (s : State) (k : Nat) : (leaveIssue s k).arrivals = s.arrivals := rfl
@[simp] theorem leaveIssue_treated (s : State) (k : Nat) : (leaveIssue s k).treated = s.treated := rfl
@[simp] theorem leaveIssue_spills (s : State) (k : Nat) : (leaveIssue s k).spills = s.spills := rfl
@[simp] theorem leaveIssue_channels (s : State) (k : Nat) : (leaveIssue s k).channels = s.channels := rfl
@[simp] theorem leaveIssue_seqs (s : State) (k : Nat) : (leaveIssue s k).seqs = s.seqs := rfl
@[simp] theorem leaveIssue_packets (s : State) (k : Nat) : (leaveIssue s k).packets = s.packets := rfl
@[simp] theorem leaveIssue_outbox (s : State) (k : Nat) : (leaveIssue s k).outbox = s.outbox := rfl
@[simp] theorem leaveIssue_unacked (s : State) (k : Nat) : (leaveIssue s k).unacked = s.unacked := rfl
@[simp] theorem leaveIssue_delivered (s : State) (k : Nat) : (leaveIssue s k).delivered = s.delivered := rfl
@[simp] theorem leaveIssue_accepted (s : State) (k : Nat) : (leaveIssue s k).accepted = s.accepted := rfl
@[simp] theorem leaveIssue_notices (s : State) (k : Nat) : (leaveIssue s k).notices = s.notices := rfl
@[simp] theorem leaveIssue_detours (s : State) (k : Nat) : (leaveIssue s k).detours = s.detours := rfl
@[simp] theorem leaveIssue_retiredQuads (s : State) (k : Nat) : (leaveIssue s k).retiredQuads = s.retiredQuads := rfl
@[simp] theorem leaveIssue_retiredPorts (s : State) (k : Nat) : (leaveIssue s k).retiredPorts = s.retiredPorts := rfl
@[simp] theorem leaveIssue_mailboxes (s : State) (k : Nat) : (leaveIssue s k).mailboxes = s.mailboxes := rfl
@[simp] theorem leaveIssue_harts (s : State) (k : Nat) : (leaveIssue s k).harts = s.harts := rfl
@[simp] theorem leaveIssue_arenas (s : State) (k : Nat) : (leaveIssue s k).arenas = s.arenas := rfl
@[simp] theorem leaveIssue_requests (s : State) (k : Nat) : (leaveIssue s k).requests = s.requests := rfl
@[simp] theorem leaveIssue_victims (s : State) (k : Nat) : (leaveIssue s k).victims = s.victims := rfl
@[simp] theorem leaveIssue_withdrawn (s : State) (k : Nat) : (leaveIssue s k).withdrawn = s.withdrawn := rfl
@[simp] theorem leaveIssue_retiring (s : State) (k : Nat) : (leaveIssue s k).retiring = s.retiring := rfl
@[simp] theorem leaveIssue_residual (s : State) (k : Nat) : (leaveIssue s k).residual = s.residual := rfl
@[simp] theorem leaveIssue_samples (s : State) (k : Nat) : (leaveIssue s k).samples = s.samples := rfl
@[simp] theorem leaveIssue_frozen (s : State) (k : Nat) : (leaveIssue s k).frozen = s.frozen := rfl
@[simp] theorem leaveIssue_heldMasters (s : State) (k : Nat) : (leaveIssue s k).heldMasters = s.heldMasters := rfl
@[simp] theorem leaveIssue_throttled (s : State) (k : Nat) : (leaveIssue s k).throttled = s.throttled := rfl
@[simp] theorem leaveIssue_idCounter (s : State) (k : Nat) : (leaveIssue s k).idCounter = s.idCounter := rfl
@[simp] theorem leaveIssue_mgmtLog (s : State) (k : Nat) : (leaveIssue s k).mgmtLog = s.mgmtLog := rfl
@[simp] theorem leaveIssue_host (s : State) (k : Nat) : (leaveIssue s k).host = s.host := rfl
@[simp] theorem leaveIssue_msix (s : State) (k : Nat) : (leaveIssue s k).msix = s.msix := rfl
@[simp] theorem leaveIssue_spdm (s : State) (k : Nat) : (leaveIssue s k).spdm = s.spdm := rfl
@[simp] theorem leaveIssue_glob (s : State) (k : Nat) : (leaveIssue s k).glob = s.glob := rfl

/-! ### `setEmpty` -/

@[simp] theorem setEmpty_clk (s : State) (g : Nat) : (setEmpty s g).clk = s.clk := rfl
@[simp] theorem setEmpty_readyAt (s : State) (g : Nat) : (setEmpty s g).readyAt = s.readyAt := rfl
@[simp] theorem setEmpty_agenda (s : State) (g : Nat) : (setEmpty s g).agenda = s.agenda := rfl
@[simp] theorem setEmpty_draws (s : State) (g : Nat) : (setEmpty s g).draws = s.draws := rfl
@[simp] theorem setEmpty_nextKey (s : State) (g : Nat) : (setEmpty s g).nextKey = s.nextKey := rfl
@[simp] theorem setEmpty_issuing (s : State) (g : Nat) : (setEmpty s g).issuing = s.issuing := rfl
@[simp] theorem setEmpty_threads (s : State) (g : Nat) : (setEmpty s g).threads = s.threads := rfl
@[simp] theorem setEmpty_groups (s : State) (g : Nat) : (setEmpty s g).groups = s.groups := rfl
@[simp] theorem setEmpty_teams (s : State) (g : Nat) : (setEmpty s g).teams = s.teams := rfl
@[simp] theorem setEmpty_launches (s : State) (g : Nat) : (setEmpty s g).launches = s.launches := rfl
@[simp] theorem setEmpty_contexts (s : State) (g : Nat) : (setEmpty s g).contexts = s.contexts := rfl
@[simp] theorem setEmpty_cores (s : State) (g : Nat) : (setEmpty s g).cores = s.cores := rfl
@[simp] theorem setEmpty_cages (s : State) (g : Nat) : (setEmpty s g).cages = s.cages := rfl
@[simp] theorem setEmpty_entrants (s : State) (g : Nat) : (setEmpty s g).entrants = s.entrants := rfl
@[simp] theorem setEmpty_ports (s : State) (g : Nat) : (setEmpty s g).ports = s.ports := rfl
@[simp] theorem setEmpty_fixed (s : State) (g : Nat) : (setEmpty s g).fixed = s.fixed := rfl
@[simp] theorem setEmpty_ops (s : State) (g : Nat) : (setEmpty s g).ops = s.ops := rfl
@[simp] theorem setEmpty_dieOrder (s : State) (g : Nat) : (setEmpty s g).dieOrder = s.dieOrder := rfl
@[simp] theorem setEmpty_mem (s : State) (g : Nat) : (setEmpty s g).mem = s.mem := rfl
@[simp] theorem setEmpty_l2 (s : State) (g : Nat) : (setEmpty s g).l2 = s.l2 := rfl
@[simp] theorem setEmpty_l1 (s : State) (g : Nat) : (setEmpty s g).l1 = s.l1 := rfl
@[simp] theorem setEmpty_presence (s : State) (g : Nat) : (setEmpty s g).presence = s.presence := rfl
@[simp] theorem setEmpty_rows (s : State) (g : Nat) : (setEmpty s g).rows = s.rows := rfl
@[simp] theorem setEmpty_full (s : State) (g : Nat) : (setEmpty s g).full = s.full.filter (· ≠ g) := rfl
@[simp] theorem setEmpty_poison (s : State) (g : Nat) : (setEmpty s g).poison = s.poison := rfl
@[simp] theorem setEmpty_tlb (s : State) (g : Nat) : (setEmpty s g).tlb = s.tlb := rfl
@[simp] theorem setEmpty_rangeLocks (s : State) (g : Nat) : (setEmpty s g).rangeLocks = s.rangeLocks := rfl
@[simp] theorem setEmpty_rowLocks (s : State) (g : Nat) : (setEmpty s g).rowLocks = s.rowLocks := rfl
@[simp] theorem setEmpty_writers (s : State) (g : Nat) : (setEmpty s g).writers = s.writers := rfl
@[simp] theorem setEmpty_atomCounts (s : State) (g : Nat) : (setEmpty s g).atomCounts = s.atomCounts := rfl
@[simp] theorem setEmpty_homes (s : State) (g : Nat) : (setEmpty s g).homes = s.homes := rfl
@[simp] theorem setEmpty_evictFirst (s : State) (g : Nat) : (setEmpty s g).evictFirst = s.evictFirst := rfl
@[simp] theorem setEmpty_l1EvictFirst (s : State) (g : Nat) : (setEmpty s g).l1EvictFirst = s.l1EvictFirst := rfl
@[simp] theorem setEmpty_windows (s : State) (g : Nat) : (setEmpty s g).windows = s.windows := rfl
@[simp] theorem setEmpty_dies (s : State) (g : Nat) : (setEmpty s g).dies = s.dies := rfl
@[simp] theorem setEmpty_matrix (s : State) (g : Nat) : (setEmpty s g).matrix = s.matrix := rfl
@[simp] theorem setEmpty_matrixSeq (s : State) (g : Nat) : (setEmpty s g).matrixSeq = s.matrixSeq := rfl
@[simp] theorem setEmpty_marks (s : State) (g : Nat) : (setEmpty s g).marks = s.marks := rfl
@[simp] theorem setEmpty_writersOf (s : State) (g : Nat) : (setEmpty s g).writersOf = s.writersOf := rfl
@[simp] theorem setEmpty_handles (s : State) (g : Nat) : (setEmpty s g).handles = s.handles := rfl
@[simp] theorem setEmpty_buffers (s : State) (g : Nat) : (setEmpty s g).buffers = s.buffers := rfl
@[simp] theorem setEmpty_arrivals (s : State) (g : Nat) : (setEmpty s g).arrivals = s.arrivals := rfl
@[simp] theorem setEmpty_treated (s : State) (g : Nat) : (setEmpty s g).treated = s.treated := rfl
@[simp] theorem setEmpty_spills (s : State) (g : Nat) : (setEmpty s g).spills = s.spills := rfl
@[simp] theorem setEmpty_channels (s : State) (g : Nat) : (setEmpty s g).channels = s.channels := rfl
@[simp] theorem setEmpty_seqs (s : State) (g : Nat) : (setEmpty s g).seqs = s.seqs := rfl
@[simp] theorem setEmpty_packets (s : State) (g : Nat) : (setEmpty s g).packets = s.packets := rfl
@[simp] theorem setEmpty_outbox (s : State) (g : Nat) : (setEmpty s g).outbox = s.outbox := rfl
@[simp] theorem setEmpty_unacked (s : State) (g : Nat) : (setEmpty s g).unacked = s.unacked := rfl
@[simp] theorem setEmpty_delivered (s : State) (g : Nat) : (setEmpty s g).delivered = s.delivered := rfl
@[simp] theorem setEmpty_accepted (s : State) (g : Nat) : (setEmpty s g).accepted = s.accepted := rfl
@[simp] theorem setEmpty_notices (s : State) (g : Nat) : (setEmpty s g).notices = s.notices := rfl
@[simp] theorem setEmpty_detours (s : State) (g : Nat) : (setEmpty s g).detours = s.detours := rfl
@[simp] theorem setEmpty_retiredQuads (s : State) (g : Nat) : (setEmpty s g).retiredQuads = s.retiredQuads := rfl
@[simp] theorem setEmpty_retiredPorts (s : State) (g : Nat) : (setEmpty s g).retiredPorts = s.retiredPorts := rfl
@[simp] theorem setEmpty_mailboxes (s : State) (g : Nat) : (setEmpty s g).mailboxes = s.mailboxes := rfl
@[simp] theorem setEmpty_harts (s : State) (g : Nat) : (setEmpty s g).harts = s.harts := rfl
@[simp] theorem setEmpty_arenas (s : State) (g : Nat) : (setEmpty s g).arenas = s.arenas := rfl
@[simp] theorem setEmpty_requests (s : State) (g : Nat) : (setEmpty s g).requests = s.requests := rfl
@[simp] theorem setEmpty_victims (s : State) (g : Nat) : (setEmpty s g).victims = s.victims := rfl
@[simp] theorem setEmpty_withdrawn (s : State) (g : Nat) : (setEmpty s g).withdrawn = s.withdrawn := rfl
@[simp] theorem setEmpty_retiring (s : State) (g : Nat) : (setEmpty s g).retiring = s.retiring := rfl
@[simp] theorem setEmpty_residual (s : State) (g : Nat) : (setEmpty s g).residual = s.residual := rfl
@[simp] theorem setEmpty_samples (s : State) (g : Nat) : (setEmpty s g).samples = s.samples := rfl
@[simp] theorem setEmpty_frozen (s : State) (g : Nat) : (setEmpty s g).frozen = s.frozen := rfl
@[simp] theorem setEmpty_heldMasters (s : State) (g : Nat) : (setEmpty s g).heldMasters = s.heldMasters := rfl
@[simp] theorem setEmpty_throttled (s : State) (g : Nat) : (setEmpty s g).throttled = s.throttled := rfl
@[simp] theorem setEmpty_idCounter (s : State) (g : Nat) : (setEmpty s g).idCounter = s.idCounter := rfl
@[simp] theorem setEmpty_mgmtLog (s : State) (g : Nat) : (setEmpty s g).mgmtLog = s.mgmtLog := rfl
@[simp] theorem setEmpty_host (s : State) (g : Nat) : (setEmpty s g).host = s.host := rfl
@[simp] theorem setEmpty_msix (s : State) (g : Nat) : (setEmpty s g).msix = s.msix := rfl
@[simp] theorem setEmpty_spdm (s : State) (g : Nat) : (setEmpty s g).spdm = s.spdm := rfl
@[simp] theorem setEmpty_glob (s : State) (g : Nat) : (setEmpty s g).glob = s.glob := rfl

/-! ### `invalidateL1` -/

@[simp] theorem invalidateL1_clk (s : State) (core : Nat) : (invalidateL1 s core).clk = s.clk := rfl
@[simp] theorem invalidateL1_readyAt (s : State) (core : Nat) : (invalidateL1 s core).readyAt = s.readyAt := rfl
@[simp] theorem invalidateL1_agenda (s : State) (core : Nat) : (invalidateL1 s core).agenda = s.agenda := rfl
@[simp] theorem invalidateL1_draws (s : State) (core : Nat) : (invalidateL1 s core).draws = s.draws := rfl
@[simp] theorem invalidateL1_nextKey (s : State) (core : Nat) : (invalidateL1 s core).nextKey = s.nextKey := rfl
@[simp] theorem invalidateL1_issuing (s : State) (core : Nat) : (invalidateL1 s core).issuing = s.issuing := rfl
@[simp] theorem invalidateL1_threads (s : State) (core : Nat) : (invalidateL1 s core).threads = s.threads := rfl
@[simp] theorem invalidateL1_groups (s : State) (core : Nat) : (invalidateL1 s core).groups = s.groups := rfl
@[simp] theorem invalidateL1_teams (s : State) (core : Nat) : (invalidateL1 s core).teams = s.teams := rfl
@[simp] theorem invalidateL1_launches (s : State) (core : Nat) : (invalidateL1 s core).launches = s.launches := rfl
@[simp] theorem invalidateL1_contexts (s : State) (core : Nat) : (invalidateL1 s core).contexts = s.contexts := rfl
@[simp] theorem invalidateL1_cores (s : State) (core : Nat) : (invalidateL1 s core).cores = s.cores := rfl
@[simp] theorem invalidateL1_cages (s : State) (core : Nat) : (invalidateL1 s core).cages = s.cages := rfl
@[simp] theorem invalidateL1_entrants (s : State) (core : Nat) : (invalidateL1 s core).entrants = s.entrants := rfl
@[simp] theorem invalidateL1_ports (s : State) (core : Nat) : (invalidateL1 s core).ports = s.ports := rfl
@[simp] theorem invalidateL1_fixed (s : State) (core : Nat) : (invalidateL1 s core).fixed = s.fixed := rfl
@[simp] theorem invalidateL1_ops (s : State) (core : Nat) : (invalidateL1 s core).ops = s.ops := rfl
@[simp] theorem invalidateL1_dieOrder (s : State) (core : Nat) : (invalidateL1 s core).dieOrder = s.dieOrder := rfl
@[simp] theorem invalidateL1_mem (s : State) (core : Nat) : (invalidateL1 s core).mem = s.mem := rfl
@[simp] theorem invalidateL1_l2 (s : State) (core : Nat) : (invalidateL1 s core).l2 = s.l2 := rfl
@[simp] theorem invalidateL1_l1 (s : State) (core : Nat) : (invalidateL1 s core).l1 = s.l1.filter fun e => e.1 / 2 ^ 56 ≠ core := rfl
@[simp] theorem invalidateL1_presence (s : State) (core : Nat) : (invalidateL1 s core).presence = s.presence := rfl
@[simp] theorem invalidateL1_rows (s : State) (core : Nat) : (invalidateL1 s core).rows = s.rows := rfl
@[simp] theorem invalidateL1_full (s : State) (core : Nat) : (invalidateL1 s core).full = s.full := rfl
@[simp] theorem invalidateL1_poison (s : State) (core : Nat) : (invalidateL1 s core).poison = s.poison := rfl
@[simp] theorem invalidateL1_tlb (s : State) (core : Nat) : (invalidateL1 s core).tlb = s.tlb := rfl
@[simp] theorem invalidateL1_rangeLocks (s : State) (core : Nat) : (invalidateL1 s core).rangeLocks = s.rangeLocks := rfl
@[simp] theorem invalidateL1_rowLocks (s : State) (core : Nat) : (invalidateL1 s core).rowLocks = s.rowLocks := rfl
@[simp] theorem invalidateL1_writers (s : State) (core : Nat) : (invalidateL1 s core).writers = s.writers := rfl
@[simp] theorem invalidateL1_atomCounts (s : State) (core : Nat) : (invalidateL1 s core).atomCounts = s.atomCounts := rfl
@[simp] theorem invalidateL1_homes (s : State) (core : Nat) : (invalidateL1 s core).homes = s.homes := rfl
@[simp] theorem invalidateL1_evictFirst (s : State) (core : Nat) : (invalidateL1 s core).evictFirst = s.evictFirst := rfl
@[simp] theorem invalidateL1_l1EvictFirst (s : State) (core : Nat) : (invalidateL1 s core).l1EvictFirst = s.l1EvictFirst := rfl
@[simp] theorem invalidateL1_windows (s : State) (core : Nat) : (invalidateL1 s core).windows = s.windows := rfl
@[simp] theorem invalidateL1_dies (s : State) (core : Nat) : (invalidateL1 s core).dies = s.dies := rfl
@[simp] theorem invalidateL1_matrix (s : State) (core : Nat) : (invalidateL1 s core).matrix = s.matrix := rfl
@[simp] theorem invalidateL1_matrixSeq (s : State) (core : Nat) : (invalidateL1 s core).matrixSeq = s.matrixSeq := rfl
@[simp] theorem invalidateL1_marks (s : State) (core : Nat) : (invalidateL1 s core).marks = s.marks := rfl
@[simp] theorem invalidateL1_writersOf (s : State) (core : Nat) : (invalidateL1 s core).writersOf = s.writersOf := rfl
@[simp] theorem invalidateL1_handles (s : State) (core : Nat) : (invalidateL1 s core).handles = s.handles := rfl
@[simp] theorem invalidateL1_buffers (s : State) (core : Nat) : (invalidateL1 s core).buffers = s.buffers := rfl
@[simp] theorem invalidateL1_arrivals (s : State) (core : Nat) : (invalidateL1 s core).arrivals = s.arrivals := rfl
@[simp] theorem invalidateL1_treated (s : State) (core : Nat) : (invalidateL1 s core).treated = s.treated := rfl
@[simp] theorem invalidateL1_spills (s : State) (core : Nat) : (invalidateL1 s core).spills = s.spills := rfl
@[simp] theorem invalidateL1_channels (s : State) (core : Nat) : (invalidateL1 s core).channels = s.channels := rfl
@[simp] theorem invalidateL1_seqs (s : State) (core : Nat) : (invalidateL1 s core).seqs = s.seqs := rfl
@[simp] theorem invalidateL1_packets (s : State) (core : Nat) : (invalidateL1 s core).packets = s.packets := rfl
@[simp] theorem invalidateL1_outbox (s : State) (core : Nat) : (invalidateL1 s core).outbox = s.outbox := rfl
@[simp] theorem invalidateL1_unacked (s : State) (core : Nat) : (invalidateL1 s core).unacked = s.unacked := rfl
@[simp] theorem invalidateL1_delivered (s : State) (core : Nat) : (invalidateL1 s core).delivered = s.delivered := rfl
@[simp] theorem invalidateL1_accepted (s : State) (core : Nat) : (invalidateL1 s core).accepted = s.accepted := rfl
@[simp] theorem invalidateL1_notices (s : State) (core : Nat) : (invalidateL1 s core).notices = s.notices := rfl
@[simp] theorem invalidateL1_detours (s : State) (core : Nat) : (invalidateL1 s core).detours = s.detours := rfl
@[simp] theorem invalidateL1_retiredQuads (s : State) (core : Nat) : (invalidateL1 s core).retiredQuads = s.retiredQuads := rfl
@[simp] theorem invalidateL1_retiredPorts (s : State) (core : Nat) : (invalidateL1 s core).retiredPorts = s.retiredPorts := rfl
@[simp] theorem invalidateL1_mailboxes (s : State) (core : Nat) : (invalidateL1 s core).mailboxes = s.mailboxes := rfl
@[simp] theorem invalidateL1_harts (s : State) (core : Nat) : (invalidateL1 s core).harts = s.harts := rfl
@[simp] theorem invalidateL1_arenas (s : State) (core : Nat) : (invalidateL1 s core).arenas = s.arenas := rfl
@[simp] theorem invalidateL1_requests (s : State) (core : Nat) : (invalidateL1 s core).requests = s.requests := rfl
@[simp] theorem invalidateL1_victims (s : State) (core : Nat) : (invalidateL1 s core).victims = s.victims := rfl
@[simp] theorem invalidateL1_withdrawn (s : State) (core : Nat) : (invalidateL1 s core).withdrawn = s.withdrawn := rfl
@[simp] theorem invalidateL1_retiring (s : State) (core : Nat) : (invalidateL1 s core).retiring = s.retiring := rfl
@[simp] theorem invalidateL1_residual (s : State) (core : Nat) : (invalidateL1 s core).residual = s.residual := rfl
@[simp] theorem invalidateL1_samples (s : State) (core : Nat) : (invalidateL1 s core).samples = s.samples := rfl
@[simp] theorem invalidateL1_frozen (s : State) (core : Nat) : (invalidateL1 s core).frozen = s.frozen := rfl
@[simp] theorem invalidateL1_heldMasters (s : State) (core : Nat) : (invalidateL1 s core).heldMasters = s.heldMasters := rfl
@[simp] theorem invalidateL1_throttled (s : State) (core : Nat) : (invalidateL1 s core).throttled = s.throttled := rfl
@[simp] theorem invalidateL1_idCounter (s : State) (core : Nat) : (invalidateL1 s core).idCounter = s.idCounter := rfl
@[simp] theorem invalidateL1_mgmtLog (s : State) (core : Nat) : (invalidateL1 s core).mgmtLog = s.mgmtLog := rfl
@[simp] theorem invalidateL1_host (s : State) (core : Nat) : (invalidateL1 s core).host = s.host := rfl
@[simp] theorem invalidateL1_msix (s : State) (core : Nat) : (invalidateL1 s core).msix = s.msix := rfl
@[simp] theorem invalidateL1_spdm (s : State) (core : Nat) : (invalidateL1 s core).spdm = s.spdm := rfl
@[simp] theorem invalidateL1_glob (s : State) (core : Nat) : (invalidateL1 s core).glob = s.glob := rfl

end Sys2Proof.Machine
end

