-- ==== Sys2Proof/Laws/Table.lean ====
section
/-! SUPPORT. Laws of the sparse tables: reading after setting, deleting and changing, and the rising order of keys. -/

namespace Sys2Proof.Machine

variable {α : Type}

@[simp] theorem tget_nil (k : Nat) : tget k ([] : List (Nat × α)) = none := rfl

@[simp] theorem tget_tset_same (k : Nat) (v : α) (t : List (Nat × α)) : tget k (tset k v t) = some v := by
  induction t with
  | nil => simp [tset, tget]
  | cons e t ih =>
    obtain ⟨k', v'⟩ := e
    simp only [tset]
    split
    · simp [tget]
    · split
      · simp [tget]
      · rename_i h; simp [tget, h, ih]

theorem tget_tset_ne {j k : Nat} (h : j ≠ k) (v : α) (t : List (Nat × α)) : tget j (tset k v t) = tget j t := by
  induction t with
  | nil => simp [tset, tget, Ne.symm h]
  | cons e t ih =>
    obtain ⟨k', v'⟩ := e
    simp only [tset]
    split
    · simp [tget, Ne.symm h]
    · split
      · subst_vars; simp [tget, Ne.symm h]
      · simp only [tget, ih]

theorem tget_tset (j k : Nat) (v : α) (t : List (Nat × α)) :
    tget j (tset k v t) = if j = k then some v else tget j t := by
  by_cases h : j = k
  · subst h; simp
  · simp [h, tget_tset_ne h]

@[simp] theorem tget_tdel_same (k : Nat) (t : List (Nat × α)) : tget k (tdel k t) = none := by
  induction t with
  | nil => rfl
  | cons e t ih =>
    obtain ⟨k', v'⟩ := e
    by_cases h : k' = k <;> simp [tdel, tget, h, ih]

theorem tget_tdel_ne {j k : Nat} (h : j ≠ k) (t : List (Nat × α)) : tget j (tdel k t) = tget j t := by
  induction t with
  | nil => rfl
  | cons e t ih =>
    obtain ⟨k', v'⟩ := e
    by_cases h' : k' = k
    · subst h'; simp [tdel, tget, Ne.symm h, ih]
    · simp [tdel, tget, h', ih]

theorem tget_tmod (j k : Nat) (f : α → α) (t : List (Nat × α)) :
    tget j (tmod k f t) = if j = k then (tget j t).map f else tget j t := by
  unfold tmod
  by_cases h : j = k
  · subst h; cases hv : tget j t <;> simp [hv]
  · cases hv : tget k t <;> simp [h, tget_tset_ne h]

@[simp] theorem tget_tmod_same (k : Nat) (f : α → α) (t : List (Nat × α)) : tget k (tmod k f t) = (tget k t).map f := by
  simp [tget_tmod]

theorem tget_tmod_ne {j k : Nat} (h : j ≠ k) (f : α → α) (t : List (Nat × α)) : tget j (tmod k f t) = tget j t := by
  simp [tget_tmod, h]

/-! ## Rising keys -/

/-- Every key of a table is at least a bound. -/
theorem tsorted_cons (a : Nat) (v : α) (t : List (Nat × α)) :
    tsorted ((a, v) :: t) = true ↔ tsorted t = true ∧ ∀ e ∈ t.head?, a < e.1 := by
  cases t with
  | nil => simp [tsorted]
  | cons e t => obtain ⟨b, w⟩ := e; simp [tsorted, and_comm]

theorem tset_head (k : Nat) (v : α) (t : List (Nat × α)) (a : Nat) (ha : ∀ e ∈ t.head?, a < e.1) (hk : a < k) :
    ∀ e ∈ (tset k v t).head?, a < e.1 := by
  cases t with
  | nil => simp [tset, hk]
  | cons e t =>
    obtain ⟨b, w⟩ := e
    simp only [tset]
    split
    · simp [hk]
    · split
      · simp [hk]
      · simpa using ha

theorem tsorted_tset (k : Nat) (v : α) (t : List (Nat × α)) (h : tsorted t = true) : tsorted (tset k v t) = true := by
  induction t with
  | nil => simp [tset, tsorted]
  | cons e t ih =>
    obtain ⟨a, w⟩ := e
    have h' := (tsorted_cons a w t).1 h
    simp only [tset]
    split
    · rename_i hk; simp [tsorted, hk, h]
    · split
      · rename_i hk; subst hk; exact (tsorted_cons a v t).2 h'
      · rename_i hk he
        exact (tsorted_cons a w _).2 ⟨ih h'.1, tset_head k v t a h'.2 (by omega)⟩

theorem tsorted_tail {a : Nat} {v : α} {t : List (Nat × α)} (h : tsorted ((a, v) :: t) = true) : tsorted t = true :=
  ((tsorted_cons a v t).1 h).1

/-- Below a head that rises, every key rises. -/
theorem tsorted_forall {a : Nat} {v : α} {t : List (Nat × α)} (h : tsorted ((a, v) :: t) = true) : ∀ e ∈ t, a < e.1 := by
  induction t generalizing a v with
  | nil => simp
  | cons e t ih =>
    obtain ⟨b, w⟩ := e
    have h1 := (tsorted_cons a v _).1 h
    have hb : a < b := h1.2 (b, w) (by simp)
    intro e he
    rcases List.mem_cons.1 he with rfl | he
    · exact hb
    · exact Nat.lt_trans hb (ih h1.1 e he)

theorem tsorted_sublist {s t : List (Nat × α)} (hs : s.Sublist t) (h : tsorted t = true) : tsorted s = true := by
  induction hs with
  | slnil => rfl
  | cons e _ ih => exact ih (tsorted_tail (v := e.2) (a := e.1) h)
  | cons_cons e hs ih =>
    obtain ⟨a, v⟩ := e
    refine (tsorted_cons a v _).2 ⟨ih (tsorted_tail h), ?_⟩
    intro x hx
    exact tsorted_forall h x (hs.subset (List.mem_of_mem_head? hx))

theorem tsorted_filter (p : Nat × α → Bool) {t : List (Nat × α)} (h : tsorted t = true) : tsorted (t.filter p) = true :=
  tsorted_sublist List.filter_sublist h

theorem tdel_eq_filter (k : Nat) (t : List (Nat × α)) : tdel k t = t.filter fun e => decide (e.1 ≠ k) := by
  induction t with
  | nil => rfl
  | cons e t ih =>
    obtain ⟨a, v⟩ := e
    by_cases h : a = k <;> simp [tdel, h, ih]

theorem tsorted_tdel (k : Nat) {t : List (Nat × α)} (h : tsorted t = true) : tsorted (tdel k t) = true := by
  rw [tdel_eq_filter]; exact tsorted_filter _ h

/-- What a set table holds: the new entry, or an old one. -/
theorem mem_tset {k : Nat} {v : α} {t : List (Nat × α)} {e : Nat × α} (h : e ∈ tset k v t) : e = (k, v) ∨ e ∈ t := by
  induction t with
  | nil => simpa [tset] using h
  | cons x t ih =>
    obtain ⟨a, w⟩ := x
    simp only [tset] at h
    split at h
    · simpa using h
    · split at h
      · rcases List.mem_cons.1 h with h | h
        · exact .inl h
        · exact .inr (List.mem_cons_of_mem _ h)
      · rcases List.mem_cons.1 h with h | h
        · exact .inr (by simp [h])
        · exact (ih h).imp id (List.mem_cons_of_mem _)

/-- A value that a table gives is one of its entries. -/
theorem mem_of_tget {k : Nat} {v : α} {t : List (Nat × α)} (h : tget k t = some v) : (k, v) ∈ t := by
  induction t with
  | nil => simp at h
  | cons e t ih =>
    obtain ⟨a, w⟩ := e
    simp only [tget] at h
    split at h
    · rename_i hk; cases h; subst hk; exact List.mem_cons_self
    · exact List.mem_cons_of_mem _ (ih h)

end Sys2Proof.Machine
end

