-- ==== Sys2Proof/Laws/Issue.lean ====
section
/-! SUPPORT. The issue of a word: what its beginning and its end leave alone, and what a word that is free to issue comes to. -/

namespace Sys2Proof.Machine

/-! ## Folds that leave something alone -/

theorem foldl_keeps {β γ : Type} (g : State → γ) (f : State → β → State) (h : ∀ s x, g (f s x) = g s) (xs : List β) :
    ∀ s, g (xs.foldl f s) = g s := by
  induction xs with
  | nil => intro s; rfl
  | cons x xs ih => intro s; rw [List.foldl_cons, ih, h]

theorem foldl_still {β : Type} (f : State → β → State) (s : State) (xs : List β) (h : ∀ x ∈ xs, f s x = s) :
    xs.foldl f s = s := by
  induction xs with
  | nil => rfl
  | cons x xs ih =>
    rw [List.foldl_cons, h x (by simp)]
    exact ih fun y hy => h y (List.mem_cons_of_mem _ hy)

/-! ## The state apart from what every word touches -/

theorem rest_onThread (s : State) (k : Nat) (f : Thread → Thread) : rest (s.onThread k f) = rest s := rfl
theorem rest_onLaunch (s : State) (k : Nat) (f : Launch → Launch) : rest (s.onLaunch k f) = rest s := rfl
theorem rest_leaveIssue (s : State) (k : Nat) : rest (leaveIssue s k) = rest s := rfl

theorem seen_onThread (s : State) (k j : Nat) (f : Thread → Thread) (h : ∀ t, (f t).visible = t.visible) :
    seen (s.onThread k f) j = seen s j := by
  unfold seen
  rw [onThread_threads, tget_tmod]
  split
  · cases tget j s.threads <;> simp [h]
  · rfl

theorem seen_of_threads {s t : State} (h : t.threads = s.threads) (k : Nat) : seen t k = seen s k := by
  unfold seen; rw [h]

theorem rest_makeReady (s : State) (k pc : Nat) : rest (makeReady s k pc) = rest s := by
  unfold makeReady; split <;> rfl

theorem seen_makeReady (s : State) (k pc j : Nat) : seen (makeReady s k pc) j = seen s j := by
  unfold makeReady seen
  split
  · rfl
  · rename_i t ht
    by_cases h : j = k
    · subst h; simp [ht, Thread.visible]
    · simp [tget_tset_ne h]

theorem rest_armStep (s : State) (k : Nat) : rest (armStep s k) = rest s := rfl

theorem seen_armStep (s : State) (k j : Nat) : seen (armStep s k) j = seen s j := by
  unfold armStep
  apply seen_onThread
  intro t; split <;> rfl

theorem rest_endClause (s : State) (key : Nat) (p : PortState) : rest (endClause s key p) = rest s := by
  unfold endClause
  simp only
  split
  · refine Eq.trans (b := rest (List.foldl _ _ _)) rfl ?_
    rw [foldl_keeps rest]
    · rw [foldl_keeps rest]
      intro s x; split
      · split
        · exact rest_makeReady ..
        · rfl
      · rfl
    · intro s x; rfl
  · refine Eq.trans (b := rest (List.foldl _ _ _)) rfl ?_
    rw [foldl_keeps rest]
    intro s x; split
    · split
      · exact rest_makeReady ..
      · rfl
    · rfl

theorem seen_endClause (s : State) (key : Nat) (p : PortState) (j : Nat) : seen (endClause s key p) j = seen s j := by
  have base : ∀ (next : Nat) (ms : List Nat) (s : State), seen (ms.foldl (fun s k => match tget k s.threads with
      | some t => if t.state = .issuing then makeReady s k next else s
      | none => s) s) j = seen s j := by
    intro next ms
    apply foldl_keeps (fun s => seen s j)
    intro s x
    show seen (match tget x s.threads with | some t => _ | none => _) j = _
    split
    · split
      · exact seen_makeReady ..
      · rfl
    · rfl
  unfold endClause
  simp only
  split
  · refine Eq.trans (seen_of_threads (s := List.foldl _ _ _) rfl j) ?_
    rw [foldl_keeps (fun s => seen s j)]
    · exact base ..
    · intro s x; apply seen_onThread; intro t; rfl
  · exact Eq.trans (seen_of_threads (s := List.foldl _ _ _) rfl j) (base ..)

/-- The end of a word changes nothing but threads, ports and the word that issues. -/
theorem rest_finishWord (s : State) (w : Issuing) : rest (finishWord s w) = rest s := by
  unfold finishWord
  simp only
  have h : rest (w.members.foldl armStep { s with issuing := none }) = rest s := by
    rw [foldl_keeps rest _ rest_armStep]; rfl
  split
  · exact h
  · split
    · rw [rest_endClause, h]
    · exact h

/-- The end of a word changes nothing that a program can read of a thread. -/
theorem seen_finishWord (s : State) (w : Issuing) (j : Nat) : seen (finishWord s w) j = seen s j := by
  unfold finishWord
  simp only
  have h : seen (w.members.foldl armStep { s with issuing := none }) j = seen s j := by
    rw [foldl_keeps (fun s => seen s j) _ (fun s k => seen_armStep s k j)]; rfl
  split
  · exact h
  · split
    · rw [seen_endClause, h]
    · exact h

theorem rest_beginWord (s : State) (w : Issuing) (i : Instr) : rest (beginWord s w i) = rest s := by
  unfold beginWord
  simp only
  rw [foldl_keeps rest]
  · rfl
  · intro s k; split <;> rfl

theorem seen_beginWord (s : State) (w : Issuing) (i : Instr) (j : Nat) : seen (beginWord s w i) j = seen s j := by
  unfold beginWord
  simp only
  rw [foldl_keeps (fun s => seen s j)]
  · rfl
  · intro s k
    show seen (match tget k s.threads with | some t => _ | none => _) j = _
    split
    · refine Eq.trans (seen_of_threads (s := State.onThread _ _ _) rfl j) ?_
      apply seen_onThread; intro t; rfl
    · rfl

theorem beginWord_issuing (s : State) (w : Issuing) (i : Instr) : (beginWord s w i).issuing = s.issuing := by
  unfold beginWord
  simp only
  rw [foldl_keeps State.issuing]
  intro s k; split <;> rfl

/-- A field that the rest keeps. -/
theorem of_rest {s t : State} {α : Type} (g : State → α) (h : rest t = rest s) (hg : ∀ s, g (rest s) = g s) : g t = g s := by
  rw [← hg t, h, hg s]

/-! ## A word that is free to issue -/

theorem memberChecks_clear (s : State) (i : Instr) (k : Nat) (h : memberClear s i k = true) : memberChecks i s k = s := by
  unfold memberChecks
  unfold memberClear at h
  split
  · rfl
  · rename_i t ht
    simp only [ht, Bool.and_eq_true, Bool.not_eq_true', Bool.or_eq_true, Option.isNone_iff_eq_none] at h
    obtain ⟨⟨h1, h2⟩, h3⟩ := h
    simp only [h1, h2, Bool.false_eq_true, ↓reduceIte]
    rcases h3 with h3 | ⟨⟨h3, h4⟩, h5⟩
    · simp [h3]
    · simp [h3, h4, h5]

/-- What a word that is free to issue comes to: its effect on the begun word's state, then the end of the word. -/
theorem issueWord_issues {s : State} {u : Issuing} {i : Instr} {lat ctr : Nat} (own : State → Issuing → Bool)
    (effect : State → Issuing → List Nat → State) (h : Issues s u i lat ctr) (ho : own s u = false) :
    issueWord i lat ctr own effect s = .next (finishWord (effect (beginWord s u i) u (actives s u i)) u) := by
  have hs : (beginWord s u i).samples = [] := by
    rw [of_rest State.samples (rest_beginWord s u i) fun _ => rfl]; exact h.plain
  have hc : u.members.foldl (memberChecks i) (beginWord s u i) = beginWord s u i :=
    foldl_still _ _ _ fun k hk => memberChecks_clear _ _ _ (h.clear k hk)
  unfold issueWord
  simp only [h.word, h.legal, h.free, ho, Bool.or_self, Bool.false_eq_true, ↓reduceIte, hc, beginWord_issuing]
  simp [dropReplayed, hs, actives]

end Sys2Proof.Machine
end

