-- ==== Sys2Proof/Laws/Effects.lean ====
section
/-! SUPPORT. What each shared operation does, said once: results queued, draws, counters, traps, bytes at their homes. -/

namespace Sys2Proof.Machine

/-! ## What the unchanged rest of a state leaves -/

/-- What a pending store shows depends on its state through the format windows alone (R90). -/
theorem storeByte_congr {s t : State} (h : t.windows = s.windows) (pa : Nat) (o : Op) : storeByte t pa o = storeByte s pa o := by
  have e : scaledBlock t pa = scaledBlock s pa := by unfold scaledBlock; rw [h]
  unfold storeByte; rw [e]

theorem sameBytes_of_rest {s t : State} (h : rest t = rest s) : SameBytes s t := by
  have e1 : t.mem = s.mem := of_rest State.mem h fun _ => rfl
  have e2 : t.l2 = s.l2 := of_rest State.l2 h fun _ => rfl
  have e3 : t.l1 = s.l1 := of_rest State.l1 h fun _ => rfl
  have e4 : t.ops = s.ops := of_rest State.ops h fun _ => rfl
  have e5 : t.teams = s.teams := of_rest State.teams h fun _ => rfl
  have e6 : t.samples = s.samples := of_rest State.samples h fun _ => rfl
  have e7 : t.windows = s.windows := of_rest State.windows h fun _ => rfl
  refine ⟨?_, ?_, ?_, ?_⟩ <;> intros <;>
    simp only [loadByte, heldByte, replayOf, coreByte, dieByte, homeByte, storeByte_congr e7, e1, e2, e3, e4, e5, e6]

theorem sameRest_of_rest {s t : State} (h : rest t = rest s) : SameRest s t :=
  ⟨sameBytes_of_rest h, of_rest State.full h fun _ => rfl, of_rest State.groups h fun _ => rfl,
   of_rest State.teams h fun _ => rfl, of_rest State.ops h fun _ => rfl, of_rest State.contexts h fun _ => rfl,
   of_rest State.matrix h fun _ => rfl, of_rest State.handles h fun _ => rfl, of_rest State.packets h fun _ => rfl,
   of_rest State.mailboxes h fun _ => rfl, of_rest State.glob h fun _ => rfl⟩

theorem sameRest_of_restFixed {s t : State} (h : restFixed t = restFixed s) : SameRest s t := by
  have g : ∀ {α} (f : State → α), (∀ s, f (restFixed s) = f s) → f t = f s := fun f hf => by rw [← hf t, h, hf s]
  have e1 : t.mem = s.mem := g State.mem fun _ => rfl
  have e2 : t.l2 = s.l2 := g State.l2 fun _ => rfl
  have e3 : t.l1 = s.l1 := g State.l1 fun _ => rfl
  have e4 : t.ops = s.ops := g State.ops fun _ => rfl
  have e5 : t.teams = s.teams := g State.teams fun _ => rfl
  have e6 : t.samples = s.samples := g State.samples fun _ => rfl
  have e7 : t.windows = s.windows := g State.windows fun _ => rfl
  refine ⟨⟨?_, ?_, ?_, ?_⟩, g State.full fun _ => rfl, g State.groups fun _ => rfl, e5, e4, g State.contexts fun _ => rfl,
    g State.matrix fun _ => rfl, g State.handles fun _ => rfl, g State.packets fun _ => rfl, g State.mailboxes fun _ => rfl,
    g State.glob fun _ => rfl⟩ <;> intros <;>
    simp only [loadByte, heldByte, replayOf, coreByte, dieByte, homeByte, storeByte_congr e7, e1, e2, e3, e4, e5, e6]

theorem restFixed_of_rest {s t : State} (h : rest t = rest s) : restFixed t = restFixed s := by
  unfold restFixed; rw [h]

theorem restFixed_finishWord (s : State) (u : Issuing) : restFixed (finishWord s u) = restFixed s :=
  restFixed_of_rest (rest_finishWord s u)

theorem restFixed_beginWord (s : State) (u : Issuing) (i : Instr) : restFixed (beginWord s u i) = restFixed s :=
  restFixed_of_rest (rest_beginWord s u i)

/-! ## Results that wait for their clk (R60) -/

theorem restFixed_queueFixed (s : State) (u : Issuing) (lat : Nat) (ws : List RegWrite) :
    restFixed (queueFixed s u lat ws) = restFixed s := by
  unfold queueFixed; split <;> rfl

theorem seen_queueFixed (s : State) (u : Issuing) (lat : Nat) (ws : List RegWrite) (k : Nat) :
    seen (queueFixed s u lat ws) k = seen s k := by
  unfold queueFixed; split <;> rfl

/-- A word whose effect is to queue its writes queues exactly them. -/
theorem queues_word (s : State) (u : Issuing) (i : Instr) (lat : Nat) (ws : List RegWrite) :
    Queues s (finishWord (queueFixed (beginWord s u i) u lat ws) u) u lat ws := by
  have e (f : State → List (Nat × FixedWrite)) (hf : ∀ s, f (rest s) = f s) (t : State) : f (finishWord t u) = f t :=
    of_rest f (rest_finishWord t u) hf
  unfold Queues
  rw [e State.fixed fun _ => rfl]
  unfold queueFixed
  have e1 : (beginWord s u i).fixed = s.fixed := of_rest State.fixed (rest_beginWord s u i) fun _ => rfl
  have e2 : (beginWord s u i).nextKey = s.nextKey := of_rest State.nextKey (rest_beginWord s u i) fun _ => rfl
  have e3 : (beginWord s u i).clk = s.clk := of_rest State.clk (rest_beginWord s u i) fun _ => rfl
  split <;> simp [e1, e2, e3]

/-! ## Draws (R34) -/

/-- Each thread's draw count rises by one for each place it has in the list. -/
theorem seen_advanceDraw (ks : List Nat) : ∀ (s : State) (k : Nat), seen (advanceDraw s ks) k = (seen s k).map fun v =>
    if ks.contains k then { v with draw := (v.draw + ks.count k) % 2 ^ 32 } else v := by
  induction ks with
  | nil => intro s k; simp [advanceDraw]
  | cons x xs ih =>
    intro s k
    have : advanceDraw s (x :: xs) = advanceDraw (s.onThread x fun t => { t with draw := (t.draw + 1) % 2 ^ 32 }) xs := rfl
    rw [this, ih]
    unfold seen
    rw [onThread_threads, tget_tmod]
    by_cases hk : k = x
    · subst hk
      simp only [↓reduceIte]
      cases tget k s.threads with
      | none => rfl
      | some t =>
        simp only [Option.map_some, Option.some.injEq]
        by_cases hx : k ∈ xs
        · simp [hx, Thread.visible]; omega
        · have : xs.count k = 0 := List.count_eq_zero.2 hx
          simp [hx, Thread.visible, this]
    · have hx : ¬ x = k := fun h => hk h.symm
      simp [hk, hx]

theorem rest_advanceDraw (ks : List Nat) (s : State) : rest (advanceDraw s ks) = rest s := by
  unfold advanceDraw; rw [foldl_keeps rest]; intros; rfl

/-! ## Counters (R57, R188) -/

theorem rest_raiseCtr (s : State) (c : Counted) : rest (raiseCtr s c) = rest s := by
  unfold raiseCtr; split <;> rfl

theorem seen_raiseCtr (s : State) (c : Counted) (j : Nat) :
    seen (raiseCtr s c) j = if j = c.thread then (seen s j).map (·.raised c.ctr) else seen s j := by
  unfold raiseCtr
  split
  · rename_i h
    unfold seen
    rw [onThread_threads, tget_tmod]
    split
    · cases tget j s.threads <;> simp [Thread.visible, Visible.raised, h]
    · rfl
  · rename_i h
    split
    · cases hs : seen s j <;> simp [Visible.raised, h]
    · rfl

theorem rest_lowerCtr (s : State) (c : Counted) : rest (lowerCtr s c) = rest s := by
  unfold lowerCtr; split <;> rfl

/-- A counter that falls is the only thing a program can read that changes. -/
theorem completes_lowerCtr (s : State) (c : Counted) : Completes s (lowerCtr s c) c := by
  intro j
  unfold lowerCtr
  split
  · rename_i h
    unfold seen
    rw [onThread_threads, tget_tmod]
    split
    · cases tget j s.threads with
      | none => rfl
      | some t =>
        simp only [Option.map_some, Option.some.injEq]
        split
        · split <;> simp [Thread.visible, Visible.lowered, h]
        · simp [Thread.visible, Visible.lowered, h]
    · rfl
  · rename_i h
    split
    · cases hs : seen s j <;> simp [Visible.lowered, h]
    · rfl

/-! ## Traps (R62, R296) -/

theorem rest_takeTrapAt (s : State) (k hdr pc cause faddr info : Nat) : rest (takeTrapAt s k hdr pc cause faddr info) = rest s := rfl

theorem seen_takeTrapAt (s : State) (k hdr pc cause faddr info j : Nat) :
    seen (takeTrapAt s k hdr pc cause faddr info) j = seen s j :=
  (seen_of_threads rfl j).trans (seen_onThread s k j _ fun _ => rfl)

/-- A thread that takes a trap stands in TRAPPED with its record. -/
theorem trapped_takeTrapAt (s : State) (k hdr pc cause faddr info : Nat) (h : (tget k s.threads).isSome) :
    Trapped (takeTrapAt s k hdr pc cause faddr info) k cause pc hdr faddr info := by
  obtain ⟨t, ht⟩ := Option.isSome_iff_exists.mp h
  have h2 := tget_tmod k k (fun t : Thread => { t with
    state := .trapped
    trap := some ⟨cause, pc, hdr, faddr, info, none, []⟩
    trapSlot := none
    resume := none
    deferred := t.deferred.filter (·.cause ≠ 0x71)
    step := false }) s.threads
  rw [if_pos rfl, ht] at h2
  exact ⟨_, h2, rfl, rfl⟩

/-- A trap of one thread leaves every other thread as it was. -/
theorem takeTrapAt_other (s : State) {k j : Nat} (hdr pc cause faddr info : Nat) (h : j ≠ k) :
    tget j (takeTrapAt s k hdr pc cause faddr info).threads = tget j s.threads := tget_tmod_ne h _ _

/-- A trap that arises after its word's issue is taken at that word by a thread that runs and whose team is not being saved. -/
theorem trapAtWord_running {s : State} {k : Nat} {t : Thread} (h : tget k s.threads = some t) (he : t.state ≠ .exited)
    (ht : t.state ≠ .trapped) (hs : teamSaving s t.team = false) (word : Nat × Nat) (cause faddr info : Nat) :
    trapAtWord s k word cause faddr info = takeTrapAt s k word.1 word.2 cause faddr info := by
  simp [trapAtWord, h, he, ht, hs]

theorem rest_trapAtWord (s : State) (k : Nat) (word : Nat × Nat) (cause faddr info : Nat) :
    rest (trapAtWord s k word cause faddr info) = rest s := by
  unfold trapAtWord
  split
  · rfl
  · split
    · rfl
    · split
      · rfl
      · exact rest_takeTrapAt ..

theorem seen_trapAtWord (s : State) (k : Nat) (word : Nat × Nat) (cause faddr info j : Nat) :
    seen (trapAtWord s k word cause faddr info) j = seen s j := by
  unfold trapAtWord
  split
  · rfl
  · split
    · rfl
    · split
      · exact seen_onThread s k j _ fun _ => rfl
      · exact seen_takeTrapAt ..

/-! ## Fences and L1 (R80, R94, R95) -/

/-- A read that has its value adds to its thread's fences, and changes nothing but operations. -/
theorem ops_readFences (s : State) (k core : Nat) : { readFences s k core with ops := s.ops } = s := rfl

theorem restOps_readFences (s : State) (k core : Nat) : restOps (readFences s k core) = restOps s := rfl

/-- Dropped L1 copies change nothing but the L1. -/
theorem l1_dropL1Bytes (s : State) (cores : List Nat) (bytes : List (Nat × Byte)) :
    { dropL1Bytes s cores bytes with l1 := s.l1 } = s := by
  have h (x : Nat) (s' : State) : ({ cores.foldl (fun s c => dropL1Sector s c x) s' with l1 := [] } : State) = { s' with l1 := [] } :=
    foldl_keeps (fun s : State => ({ s with l1 := [] } : State)) (fun s c => dropL1Sector s c x) (fun _ _ => rfl) cores s'
  have g : ({ dropL1Bytes s cores bytes with l1 := [] } : State) = { s with l1 := [] } :=
    foldl_keeps (fun s : State => ({ s with l1 := [] } : State)) _ (fun s' x => h x s') _ s
  have e := congrArg (fun t : State => ({ t with l1 := s.l1 } : State)) g
  exact e

/-! ## Bytes at their homes (R81) -/

theorem homeByte_writeHome (s : State) (pa a : Nat) (b : Byte) :
    homeByte (writeHome s pa b) a = if a = pa then b else homeByte s a := by
  unfold homeByte writeHome
  simp only [tget_tset]
  split <;> simp_all

/-- Bytes written at their homes are read there, and every other byte as before. -/
theorem homeByte_writeAll (l : List (Nat × Byte)) : ∀ (s : State) (a : Nat), (l.map (·.1)).Nodup →
    homeByte (l.foldl (fun s e => writeHome s e.1 e.2) s) a = (tget a l).getD (homeByte s a) := by
  induction l with
  | nil => intro s a _; rfl
  | cons e l ih =>
    intro s a h
    obtain ⟨x, v⟩ := e
    rw [List.map_cons, List.nodup_cons] at h
    rw [List.foldl_cons, ih _ _ h.2, homeByte_writeHome]
    by_cases hx : a = x
    · subst hx
      have : tget a l = none := by
        cases hg : tget a l with
        | none => rfl
        | some w => exact absurd (List.mem_map.2 ⟨(a, w), mem_of_tget hg, rfl⟩) h.1
      simp [tget, this]
    · simp [tget, hx, Ne.symm hx]

theorem addrs_succ (a n : Nat) : addrs a (n + 1) = a :: addrs (a + 1) n := by
  simp only [addrs, List.range_succ_eq_map, List.map_cons, List.map_map, Nat.add_zero, List.cons.injEq, true_and]
  exact List.map_congr_left fun i _ => by simp; omega

theorem tget_zip_addrs (bs : List Byte) : ∀ pa a : Nat,
    tget a ((addrs pa bs.length).zip bs) = if pa ≤ a then bs[a - pa]? else none := by
  induction bs with
  | nil => intro pa a; simp
  | cons b bs ih =>
    intro pa a
    rw [List.length_cons, addrs_succ, List.zip_cons_cons, tget, ih]
    by_cases h : pa = a
    · simp [h]
    · by_cases h1 : pa ≤ a
      · rw [if_neg h, if_pos (by omega), if_pos h1, show a - pa = a - (pa + 1) + 1 by omega, List.getElem?_cons_succ]
      · simp [h, h1, show ¬ pa + 1 ≤ a by omega]

theorem homeByte_writeHomes (s : State) (pa a : Nat) (bs : List Byte) :
    homeByte (writeHomes s pa bs) a = ((if pa ≤ a then bs[a - pa]? else none).getD (homeByte s a)) := by
  have nodup : ((addrs pa bs.length).zip bs |>.map (·.1)).Nodup := by
    rw [List.map_fst_zip (by simp [addrs])]
    exact List.pairwise_map.2 (List.Pairwise.imp (fun h e => h (Nat.add_left_cancel e)) List.nodup_range)
  rw [writeHomes, homeByte_writeAll _ _ _ nodup, tget_zip_addrs]

/-- Clearing poison changes nothing but poison. -/
theorem poison_clearPoison (s : State) (bytes : List (Nat × Byte)) : { clearPoison s bytes with poison := s.poison } = s := by
  unfold clearPoison; split <;> rfl

theorem homeByte_clearPoison (s : State) (bytes : List (Nat × Byte)) (a : Nat) : homeByte (clearPoison s bytes) a = homeByte s a := by
  unfold clearPoison; split <;> rfl

end Sys2Proof.Machine
end

