-- ==== Sys2Proof/Laws/Hart.lean ====
section
/-! SUPPORT. What a hart's registers, bytes and instructions can do: x0, the bytes that an access reaches, and when it goes through. -/

namespace Sys2Proof.Machine

/-! ## Registers (R277) -/

@[simp] theorem Hart.reg_zero (h : Hart) : h.reg 0 = 0 := rfl

@[simp] theorem Hart.setReg_zero (h : Hart) (v : Word64) : h.setReg 0 v = h := rfl

theorem Hart.reg_setReg (h : Hart) {r : Nat} (v : Word64) (h1 : 1 ≤ r) (h2 : r < 32) (j : Nat) :
    (h.setReg r v).reg j = if j = r then v.toNat else h.reg j := by
  simp only [Hart.setReg, h1, h2, decide_true, Bool.and_self, ↓reduceIte, Hart.reg, tgetD, tget_tset]
  by_cases hj : j = r
  · subst hj; simp [Nat.ne_of_gt h1]
  · simp [hj]

/-! ## Memory (R277, R278) -/

/-- An access completes only where the mapping and PMP permit it, no bank holds it, and what it reads is not poisoned. -/
theorem hartAccess_goes {s t : State} {k va n : Nat} {a : HartAccess} {f : Nat → HartEnd} (h : hartAccess s k a va n f = .goes t) :
    ∃ pa, hartPa (s.hart k) a va n = some pa ∧ (addrs pa n).any (bankHeld s) = false ∧
      (a ≠ .store → poisonedAt s pa n = none) ∧ f pa = .goes t := by
  unfold hartAccess at h
  split at h
  · cases h
  · rename_i pa hp
    split at h
    · cases h
    · rename_i hb
      split at h
      · cases h
      · rename_i hq
        exact ⟨pa, hp, by simpa using hb, fun ha => by simpa [ha] using hq, h⟩

/-- And only where it is aligned to its size. -/
theorem hartAligned_goes {s t : State} {k va n : Nat} {a : HartAccess} {f : Nat → HartEnd} (h : hartAligned s k a va n f = .goes t) :
    va % n = 0 ∧ hartAccess s k a va n f = .goes t := by
  unfold hartAligned at h
  split at h
  · cases h
  · rename_i hn; exact ⟨by simpa using hn, h⟩

end Sys2Proof.Machine
end

