-- ==== Sys2Proof/Laws/Memory.lean ====
section
/-! SUPPORT. Laws of the byte memory: a byte read after a write, and the canonical form that every write keeps. -/

namespace Sys2Proof.Machine

/-! ## Reading after writing -/

@[simp] theorem memRead_memWrite_same (m : List Host.Cell) (a : Nat) (b : Byte) : memRead (memWrite m a b) a = b := by
  unfold memWrite memRead tgetD
  split <;> simp_all

theorem memRead_memWrite_ne {x a : Nat} (h : x ≠ a) (m : List Host.Cell) (b : Byte) :
    memRead (memWrite m a b) x = memRead m x := by
  unfold memWrite memRead tgetD
  split
  · rw [tget_tdel_ne h]
  · rw [tget_tset_ne h]

theorem memRead_memWrite (m : List Host.Cell) (a x : Nat) (b : Byte) :
    memRead (memWrite m a b) x = if x = a then b else memRead m x := by
  by_cases h : x = a
  · subst h; simp
  · simp [h, memRead_memWrite_ne h]

/-- A run of bytes written leaves every address outside it alone. -/
theorem memRead_memWrites_out (bs : List Byte) : ∀ (m : List Host.Cell) (a x : Nat), x < a ∨ a + bs.length ≤ x →
    memRead (memWrites m a bs) x = memRead m x := by
  induction bs with
  | nil => intro m a x _; rfl
  | cons b bs ih =>
    intro m a x h
    simp only [List.length_cons] at h
    rw [memWrites, ih _ _ _ (by omega), memRead_memWrite_ne (by omega)]

/-- A byte inside a run that is written reads as the run's. -/
theorem memRead_memWrites_in (bs : List Byte) : ∀ (m : List Host.Cell) (a i : Nat) (h : i < bs.length),
    memRead (memWrites m a bs) (a + i) = bs[i] := by
  induction bs with
  | nil => intro m a i h; simp at h
  | cons b bs ih =>
    intro m a i h
    rw [memWrites]
    cases i with
    | zero => rw [memRead_memWrites_out _ _ _ _ (by omega)]; simp
    | succ i =>
      have := ih (memWrite m a b) (a + 1) i (by simpa using h)
      rw [show a + (i + 1) = a + 1 + i by omega, this]; rfl

/-! ## The canonical form -/

theorem Memory.wf_nil : Memory.wf [] = true := rfl

theorem Memory.wf_iff (m : List Host.Cell) : Memory.wf m = true ↔ tsorted m = true ∧ ∀ e ∈ m, e.2 ≠ 0 := by
  simp [Memory.wf]

theorem Memory.wf_write {m : List Host.Cell} (a : Nat) (b : Byte) (h : Memory.wf m = true) :
    Memory.wf (memWrite m a b) = true := by
  rw [Memory.wf_iff] at *
  unfold memWrite
  split
  · refine ⟨tsorted_tdel a h.1, fun e he => h.2 e ?_⟩
    rw [tdel_eq_filter] at he
    exact (List.mem_filter.1 he).1
  · refine ⟨tsorted_tset a b m h.1, fun e he => ?_⟩
    rcases mem_tset he with rfl | he
    · assumption
    · exact h.2 e he

theorem Memory.wf_writes (bs : List Byte) : ∀ (m : List Host.Cell) (a : Nat), Memory.wf m = true →
    Memory.wf (memWrites m a bs) = true := by
  induction bs with
  | nil => intro m a h; exact h
  | cons b bs ih => intro m a h; exact ih _ _ (Memory.wf_write a b h)

/-- A list of writes keeps the canonical form. -/
theorem Memory.wf_foldl_write {β : Type} (addr : β → Nat) (byte : β → Byte) (xs : List β) : ∀ (m : List Host.Cell),
    Memory.wf m = true → Memory.wf (xs.foldl (fun m x => memWrite m (addr x) (byte x)) m) = true := by
  induction xs with
  | nil => intro m h; exact h
  | cons x xs ih => intro m h; exact ih _ (Memory.wf_write _ _ h)

/-- Memory without some of its cells keeps the canonical form. -/
theorem Memory.wf_filter (p : Host.Cell → Bool) {m : List Host.Cell} (h : Memory.wf m = true) :
    Memory.wf (m.filter p) = true := by
  rw [Memory.wf_iff] at *
  exact ⟨tsorted_filter p h.1, fun e he => h.2 e (List.mem_filter.1 he).1⟩

theorem Memory.wf_reset : Memory.wf State.reset.mem = true := rfl

theorem tget_none_of_below {m : List Host.Cell} {a : Nat} (h : tsorted m = true) (hb : ∀ e ∈ m.head?, a < e.1) :
    tget a m = none := by
  induction m with
  | nil => rfl
  | cons e m ih =>
    obtain ⟨b, w⟩ := e
    have hab : a < b := hb (b, w) (by simp)
    have h' := (tsorted_cons b w m).1 h
    simp only [tget, Nat.ne_of_gt hab, ↓reduceIte]
    exact ih h'.1 fun e he => Nat.lt_trans hab (h'.2 e he)

/-- Two memories in canonical form that read alike are the same list. -/
theorem Memory.ext_read {m n : List Host.Cell} (hm : Memory.wf m = true) (hn : Memory.wf n = true)
    (h : ∀ a, memRead m a = memRead n a) : m = n := by
  induction m generalizing n with
  | nil =>
    cases n with
    | nil => rfl
    | cons e n =>
      obtain ⟨b, w⟩ := e
      have := h b
      simp [memRead, tgetD, tget] at this
      exact absurd this.symm (((Memory.wf_iff _).1 hn).2 (b, w) (by simp))
  | cons e m ih =>
    obtain ⟨a, v⟩ := e
    have hm' := (Memory.wf_iff _).1 hm
    have ha := (tsorted_cons a v m).1 hm'.1
    cases n with
    | nil =>
      have := h a
      simp [memRead, tgetD, tget] at this
      exact absurd this (hm'.2 (a, v) (by simp))
    | cons e n =>
      obtain ⟨b, w⟩ := e
      have hn' := (Memory.wf_iff _).1 hn
      have hb := (tsorted_cons b w n).1 hn'.1
      have hab : a = b := by
        rcases Nat.lt_trichotomy a b with hlt | heq | hgt
        · have h1 := h a
          simp only [memRead, tgetD, tget, ↓reduceIte, Option.getD_some, Nat.ne_of_gt hlt] at h1
          rw [tget_none_of_below hb.1 fun e he => Nat.lt_trans hlt (hb.2 e he)] at h1
          exact absurd h1 (hm'.2 (a, v) (by simp))
        · exact heq
        · have h1 := h b
          simp only [memRead, tgetD, tget, ↓reduceIte, Option.getD_some, Nat.ne_of_gt hgt] at h1
          rw [tget_none_of_below ha.1 fun e he => Nat.lt_trans hgt (ha.2 e he)] at h1
          exact absurd h1.symm (hn'.2 (b, w) (by simp))
      subst hab
      have hvw : v = w := by simpa [memRead, tgetD, tget] using h a
      subst hvw
      refine congrArg _ (ih ?_ ?_ fun x => ?_)
      · exact (Memory.wf_iff _).2 ⟨ha.1, fun e he => hm'.2 e (List.mem_cons_of_mem _ he)⟩
      · exact (Memory.wf_iff _).2 ⟨hb.1, fun e he => hn'.2 e (List.mem_cons_of_mem _ he)⟩
      · by_cases hx : x = a
        · subst hx
          simp [memRead, tgetD, tget_none_of_below ha.1 ha.2, tget_none_of_below hb.1 hb.2]
        · have h1 := h x
          simpa [memRead, tgetD, tget, Ne.symm hx] using h1

end Sys2Proof.Machine
end

