-- ==== Sys2Proof/Laws/PerInstr.lean ====
section
/-! SUPPORT. Laws that hold of every instruction, one lemma for each constructor. The family WordGuard: the guard by which a word's
members take part (R130) is the guard among its fields, but for a word that ignores it. -/

namespace Sys2Proof

/-- The guard that a word's bits 19 to 16 hold (R130). -/
theorem Laws.guard_bits (g : Guard) (w : Word64) (h : w.extractLsb' 16 4 = g.encode) : Guard.decode w = g := by
  have hb : ∀ i, i < 4 → w.getLsbD (16 + i) = g.encode.getLsbD i := fun i hi => by
    rw [← h, BitVec.getLsbD_extractLsb']; simp [hi]
  obtain ⟨pn, pred⟩ := g
  have h3 := hb 3 (by omega)
  simp only [Guard.decode, Guard.mk.injEq]
  refine ⟨?_, ?_⟩
  · rw [Guard.encode, BitVec.getLsbD_append] at h3
    simpa using h3
  · apply BitVec.eq_of_getLsbD_eq
    intro i hi
    have := hb i (by omega)
    rw [Guard.encode, BitVec.getLsbD_append, if_pos hi] at this
    simpa [BitVec.getLsbD_extractLsb', hi] using this

/-- The word of each form keeps its guard (R127, R130). -/
theorem Laws.guard_encode_R (opc : BitVec 8) (w : RWord) : Guard.decode (w.encode opc) = w.guard := by
  apply Laws.guard_bits
  apply BitVec.eq_of_getLsbD_eq
  intro i hi
  have : i = 0 ∨ i = 1 ∨ i = 2 ∨ i = 3 := by omega
  rcases this with rfl | rfl | rfl | rfl <;>
    simp only [RWord.encode, BitVec.getLsbD_extractLsb', BitVec.getLsbD_append] <;> rfl
theorem Laws.guard_encode_I (opc : BitVec 4) (m : BitVec 2) (w : IWord) : Guard.decode (w.encode opc m) = w.guard := by
  apply Laws.guard_bits
  apply BitVec.eq_of_getLsbD_eq
  intro i hi
  have : i = 0 ∨ i = 1 ∨ i = 2 ∨ i = 3 := by omega
  rcases this with rfl | rfl | rfl | rfl <;>
    simp only [IWord.encode, BitVec.getLsbD_extractLsb', BitVec.getLsbD_append] <;> rfl
theorem Laws.guard_encode_M (opc : BitVec 8) (w : MWord) : Guard.decode (w.encode opc) = w.guard := by
  apply Laws.guard_bits
  apply BitVec.eq_of_getLsbD_eq
  intro i hi
  have : i = 0 ∨ i = 1 ∨ i = 2 ∨ i = 3 := by omega
  rcases this with rfl | rfl | rfl | rfl <;>
    simp only [MWord.encode, BitVec.getLsbD_extractLsb', BitVec.getLsbD_append] <;> rfl

/-- The guard among the fields of a word; a NOP ignores its guard, a paired word and an event have none, and
they take part always (R130, R136, R166). -/
def Laws.guardField : Instr → Guard
  | .nop _ => Guard.always
  | .mov w => w.guard
  | .sel w => w.guard
  | .iadd w => w.guard
  | .isub w => w.guard
  | .imul w => w.guard
  | .imulhi w => w.guard
  | .imad w => w.guard
  | .imin w => w.guard
  | .imax w => w.guard
  | .iabs w => w.guard
  | .ineg w => w.guard
  | .lea w => w.guard
  | .popc w => w.guard
  | .clz w => w.guard
  | .brev w => w.guard
  | .and w => w.guard
  | .or w => w.guard
  | .xor w => w.guard
  | .not w => w.guard
  | .andn w => w.guard
  | .shl w => w.guard
  | .shr w => w.guard
  | .rotl w => w.guard
  | .fadd w => w.guard
  | .fsub w => w.guard
  | .fmul w => w.guard
  | .ffma w => w.guard
  | .fmin w => w.guard
  | .fmax w => w.guard
  | .fminn w => w.guard
  | .fmaxn w => w.guard
  | .fabs w => w.guard
  | .fneg w => w.guard
  | .fcsgn w => w.guard
  | .cvt w => w.guard
  | .pack w => w.guard
  | .unpack w => w.guard
  | .icmp w => w.guard
  | .fcmp w => w.guard
  | .fclass w => w.guard
  | .plop w => w.guard
  | .pget w => w.guard
  | .pset w => w.guard
  | .iaddImm _ w => w.guard
  | .imulImm _ w => w.guard
  | .andImm w => w.guard
  | .orImm w => w.guard
  | .xorImm w => w.guard
  | .andnImm w => w.guard
  | .movImm _ w => w.guard
  | .faddImm _ w => w.guard
  | .fmulImm _ w => w.guard
  | .shlImm w => w.guard
  | .shrN32Imm w => w.guard
  | .shrS32Imm w => w.guard
  | .rotlImm w => w.guard
  | .exp2 w => w.guard
  | .log2 w => w.guard
  | .rcp w => w.guard
  | .rsq w => w.guard
  | .sin w => w.guard
  | .cos w => w.guard
  | .xshfl w => w.guard
  | .xbcast w => w.guard
  | .xvote w => w.guard
  | .xballot w => w.guard
  | .xscan w => w.guard
  | .xred w => w.guard
  | .bra _ w => w.guard
  | .call _ w => w.guard
  | .brx w => w.guard
  | .ret w => w.guard
  | .exit w => w.guard
  | .spawn w => w.guard
  | .yield w => w.guard
  | .barArrive w => w.guard
  | .barArriveb w => w.guard
  | .barWait w => w.guard
  | .claim w => w.guard
  | .release w => w.guard
  | .ldCa w => w.guard
  | .ldCg w => w.guard
  | .ldLu w => w.guard
  | .ldCaAcq w => w.guard
  | .ldCgAcq w => w.guard
  | .st w => w.guard
  | .stRel w => w.guard
  | .ldt w => w.guard
  | .stt w => w.guard
  | .ldfe w => w.guard
  | .stfe w => w.guard
  | .disc w => w.guard
  | .pref w => w.guard
  | .atom w => w.guard
  | .atomFadd w => w.guard
  | .ctb w => w.guard
  | .ctbseal w => w.guard
  | .fence w => w.guard
  | .wait w => w.guard
  | .trap w => w.guard
  | .sysret w => w.guard
  | .srd w => w.guard
  | .swr w => w.guard
  | .rinv w => w.guard
  | .mmul w => w.guard
  | .mmerge w => w.guard
  | .mdrain w => w.guard
  | .mcfg w => w.guard
  | .cpy w => w.guard
  | .cpyt w => w.guard
  | .fsend w => w.guard
  | .fmcast w => w.guard
  | .fred w => w.guard
  | .fsparse w => w.guard
  | .rgres w => w.guard
  | .rgpub w => w.guard
  | .rgtake w => w.guard
  | .rgdone w => w.guard
  | .nrec w => w.guard
  | .bwpush w => w.guard
  | .wver w => w.guard
  | .mbsend w => w.guard
  | .mbrecv w => w.guard
  | _ => Guard.always

/-- The guard that the machine reads is the word's own. -/
def Laws.WordGuard.Statement (i : Instr) : Prop := i.guard = guardField i

theorem Laws.WordGuard.nop (w : RWord) : WordGuard.Statement (.nop w) := rfl
theorem Laws.WordGuard.mov (w : RWord) : WordGuard.Statement (.mov w) := guard_encode_R ..
theorem Laws.WordGuard.sel (w : RWord) : WordGuard.Statement (.sel w) := guard_encode_R ..
theorem Laws.WordGuard.iadd (w : RWord) : WordGuard.Statement (.iadd w) := guard_encode_R ..
theorem Laws.WordGuard.isub (w : RWord) : WordGuard.Statement (.isub w) := guard_encode_R ..
theorem Laws.WordGuard.imul (w : RWord) : WordGuard.Statement (.imul w) := guard_encode_R ..
theorem Laws.WordGuard.imulhi (w : RWord) : WordGuard.Statement (.imulhi w) := guard_encode_R ..
theorem Laws.WordGuard.imad (w : RWord) : WordGuard.Statement (.imad w) := guard_encode_R ..
theorem Laws.WordGuard.imin (w : RWord) : WordGuard.Statement (.imin w) := guard_encode_R ..
theorem Laws.WordGuard.imax (w : RWord) : WordGuard.Statement (.imax w) := guard_encode_R ..
theorem Laws.WordGuard.iabs (w : RWord) : WordGuard.Statement (.iabs w) := guard_encode_R ..
theorem Laws.WordGuard.ineg (w : RWord) : WordGuard.Statement (.ineg w) := guard_encode_R ..
theorem Laws.WordGuard.lea (w : RWord) : WordGuard.Statement (.lea w) := guard_encode_R ..
theorem Laws.WordGuard.popc (w : RWord) : WordGuard.Statement (.popc w) := guard_encode_R ..
theorem Laws.WordGuard.clz (w : RWord) : WordGuard.Statement (.clz w) := guard_encode_R ..
theorem Laws.WordGuard.brev (w : RWord) : WordGuard.Statement (.brev w) := guard_encode_R ..
theorem Laws.WordGuard.and (w : RWord) : WordGuard.Statement (.and w) := guard_encode_R ..
theorem Laws.WordGuard.or (w : RWord) : WordGuard.Statement (.or w) := guard_encode_R ..
theorem Laws.WordGuard.xor (w : RWord) : WordGuard.Statement (.xor w) := guard_encode_R ..
theorem Laws.WordGuard.not (w : RWord) : WordGuard.Statement (.not w) := guard_encode_R ..
theorem Laws.WordGuard.andn (w : RWord) : WordGuard.Statement (.andn w) := guard_encode_R ..
theorem Laws.WordGuard.shl (w : RWord) : WordGuard.Statement (.shl w) := guard_encode_R ..
theorem Laws.WordGuard.shr (w : RWord) : WordGuard.Statement (.shr w) := guard_encode_R ..
theorem Laws.WordGuard.rotl (w : RWord) : WordGuard.Statement (.rotl w) := guard_encode_R ..
theorem Laws.WordGuard.fadd (w : RWord) : WordGuard.Statement (.fadd w) := guard_encode_R ..
theorem Laws.WordGuard.fsub (w : RWord) : WordGuard.Statement (.fsub w) := guard_encode_R ..
theorem Laws.WordGuard.fmul (w : RWord) : WordGuard.Statement (.fmul w) := guard_encode_R ..
theorem Laws.WordGuard.ffma (w : RWord) : WordGuard.Statement (.ffma w) := guard_encode_R ..
theorem Laws.WordGuard.fmin (w : RWord) : WordGuard.Statement (.fmin w) := guard_encode_R ..
theorem Laws.WordGuard.fmax (w : RWord) : WordGuard.Statement (.fmax w) := guard_encode_R ..
theorem Laws.WordGuard.fminn (w : RWord) : WordGuard.Statement (.fminn w) := guard_encode_R ..
theorem Laws.WordGuard.fmaxn (w : RWord) : WordGuard.Statement (.fmaxn w) := guard_encode_R ..
theorem Laws.WordGuard.fabs (w : RWord) : WordGuard.Statement (.fabs w) := guard_encode_R ..
theorem Laws.WordGuard.fneg (w : RWord) : WordGuard.Statement (.fneg w) := guard_encode_R ..
theorem Laws.WordGuard.fcsgn (w : RWord) : WordGuard.Statement (.fcsgn w) := guard_encode_R ..
theorem Laws.WordGuard.cvt (w : RWord) : WordGuard.Statement (.cvt w) := guard_encode_R ..
theorem Laws.WordGuard.pack (w : RWord) : WordGuard.Statement (.pack w) := guard_encode_R ..
theorem Laws.WordGuard.unpack (w : RWord) : WordGuard.Statement (.unpack w) := guard_encode_R ..
theorem Laws.WordGuard.icmp (w : RWord) : WordGuard.Statement (.icmp w) := guard_encode_R ..
theorem Laws.WordGuard.fcmp (w : RWord) : WordGuard.Statement (.fcmp w) := guard_encode_R ..
theorem Laws.WordGuard.fclass (w : RWord) : WordGuard.Statement (.fclass w) := guard_encode_R ..
theorem Laws.WordGuard.plop (w : RWord) : WordGuard.Statement (.plop w) := guard_encode_R ..
theorem Laws.WordGuard.pget (w : RWord) : WordGuard.Statement (.pget w) := guard_encode_R ..
theorem Laws.WordGuard.pset (w : RWord) : WordGuard.Statement (.pset w) := guard_encode_R ..
theorem Laws.WordGuard.iaddImm (imod : BitVec 2) (w : IWord) : WordGuard.Statement (.iaddImm imod w) := guard_encode_I ..
theorem Laws.WordGuard.imulImm (imod : BitVec 2) (w : IWord) : WordGuard.Statement (.imulImm imod w) := guard_encode_I ..
theorem Laws.WordGuard.andImm (w : IWord) : WordGuard.Statement (.andImm w) := guard_encode_I ..
theorem Laws.WordGuard.orImm (w : IWord) : WordGuard.Statement (.orImm w) := guard_encode_I ..
theorem Laws.WordGuard.xorImm (w : IWord) : WordGuard.Statement (.xorImm w) := guard_encode_I ..
theorem Laws.WordGuard.andnImm (w : IWord) : WordGuard.Statement (.andnImm w) := guard_encode_I ..
theorem Laws.WordGuard.movImm (imod : BitVec 2) (w : IWord) : WordGuard.Statement (.movImm imod w) := guard_encode_I ..
theorem Laws.WordGuard.faddImm (imod : BitVec 2) (w : IWord) : WordGuard.Statement (.faddImm imod w) := guard_encode_I ..
theorem Laws.WordGuard.fmulImm (imod : BitVec 2) (w : IWord) : WordGuard.Statement (.fmulImm imod w) := guard_encode_I ..
theorem Laws.WordGuard.shlImm (w : IWord) : WordGuard.Statement (.shlImm w) := guard_encode_I ..
theorem Laws.WordGuard.shrN32Imm (w : IWord) : WordGuard.Statement (.shrN32Imm w) := guard_encode_I ..
theorem Laws.WordGuard.shrS32Imm (w : IWord) : WordGuard.Statement (.shrS32Imm w) := guard_encode_I ..
theorem Laws.WordGuard.rotlImm (w : IWord) : WordGuard.Statement (.rotlImm w) := guard_encode_I ..
theorem Laws.WordGuard.pairedWord (w : PWord) : WordGuard.Statement (.pairedWord w) := rfl
theorem Laws.WordGuard.exp2 (w : RWord) : WordGuard.Statement (.exp2 w) := guard_encode_R ..
theorem Laws.WordGuard.log2 (w : RWord) : WordGuard.Statement (.log2 w) := guard_encode_R ..
theorem Laws.WordGuard.rcp (w : RWord) : WordGuard.Statement (.rcp w) := guard_encode_R ..
theorem Laws.WordGuard.rsq (w : RWord) : WordGuard.Statement (.rsq w) := guard_encode_R ..
theorem Laws.WordGuard.sin (w : RWord) : WordGuard.Statement (.sin w) := guard_encode_R ..
theorem Laws.WordGuard.cos (w : RWord) : WordGuard.Statement (.cos w) := guard_encode_R ..
theorem Laws.WordGuard.xshfl (w : RWord) : WordGuard.Statement (.xshfl w) := guard_encode_R ..
theorem Laws.WordGuard.xbcast (w : RWord) : WordGuard.Statement (.xbcast w) := guard_encode_R ..
theorem Laws.WordGuard.xvote (w : RWord) : WordGuard.Statement (.xvote w) := guard_encode_R ..
theorem Laws.WordGuard.xballot (w : RWord) : WordGuard.Statement (.xballot w) := guard_encode_R ..
theorem Laws.WordGuard.xscan (w : RWord) : WordGuard.Statement (.xscan w) := guard_encode_R ..
theorem Laws.WordGuard.xred (w : RWord) : WordGuard.Statement (.xred w) := guard_encode_R ..
theorem Laws.WordGuard.bra (imod : BitVec 2) (w : IWord) : WordGuard.Statement (.bra imod w) := guard_encode_I ..
theorem Laws.WordGuard.call (imod : BitVec 2) (w : IWord) : WordGuard.Statement (.call imod w) := guard_encode_I ..
theorem Laws.WordGuard.brx (w : RWord) : WordGuard.Statement (.brx w) := guard_encode_R ..
theorem Laws.WordGuard.ret (w : RWord) : WordGuard.Statement (.ret w) := guard_encode_R ..
theorem Laws.WordGuard.exit (w : RWord) : WordGuard.Statement (.exit w) := guard_encode_R ..
theorem Laws.WordGuard.spawn (w : RWord) : WordGuard.Statement (.spawn w) := guard_encode_R ..
theorem Laws.WordGuard.yield (w : RWord) : WordGuard.Statement (.yield w) := guard_encode_R ..
theorem Laws.WordGuard.barArrive (w : RWord) : WordGuard.Statement (.barArrive w) := guard_encode_R ..
theorem Laws.WordGuard.barArriveb (w : RWord) : WordGuard.Statement (.barArriveb w) := guard_encode_R ..
theorem Laws.WordGuard.barWait (w : RWord) : WordGuard.Statement (.barWait w) := guard_encode_R ..
theorem Laws.WordGuard.claim (w : RWord) : WordGuard.Statement (.claim w) := guard_encode_R ..
theorem Laws.WordGuard.release (w : RWord) : WordGuard.Statement (.release w) := guard_encode_R ..
theorem Laws.WordGuard.ldCa (w : MWord) : WordGuard.Statement (.ldCa w) := guard_encode_M ..
theorem Laws.WordGuard.ldCg (w : MWord) : WordGuard.Statement (.ldCg w) := guard_encode_M ..
theorem Laws.WordGuard.ldLu (w : MWord) : WordGuard.Statement (.ldLu w) := guard_encode_M ..
theorem Laws.WordGuard.ldCaAcq (w : MWord) : WordGuard.Statement (.ldCaAcq w) := guard_encode_M ..
theorem Laws.WordGuard.ldCgAcq (w : MWord) : WordGuard.Statement (.ldCgAcq w) := guard_encode_M ..
theorem Laws.WordGuard.st (w : MWord) : WordGuard.Statement (.st w) := guard_encode_M ..
theorem Laws.WordGuard.stRel (w : MWord) : WordGuard.Statement (.stRel w) := guard_encode_M ..
theorem Laws.WordGuard.ldt (w : RWord) : WordGuard.Statement (.ldt w) := guard_encode_R ..
theorem Laws.WordGuard.stt (w : RWord) : WordGuard.Statement (.stt w) := guard_encode_R ..
theorem Laws.WordGuard.ldfe (w : MWord) : WordGuard.Statement (.ldfe w) := guard_encode_M ..
theorem Laws.WordGuard.stfe (w : MWord) : WordGuard.Statement (.stfe w) := guard_encode_M ..
theorem Laws.WordGuard.disc (w : RWord) : WordGuard.Statement (.disc w) := guard_encode_R ..
theorem Laws.WordGuard.pref (w : MWord) : WordGuard.Statement (.pref w) := guard_encode_M ..
theorem Laws.WordGuard.atom (w : RWord) : WordGuard.Statement (.atom w) := guard_encode_R ..
theorem Laws.WordGuard.atomFadd (w : RWord) : WordGuard.Statement (.atomFadd w) := guard_encode_R ..
theorem Laws.WordGuard.ctb (w : RWord) : WordGuard.Statement (.ctb w) := guard_encode_R ..
theorem Laws.WordGuard.ctbseal (w : RWord) : WordGuard.Statement (.ctbseal w) := guard_encode_R ..
theorem Laws.WordGuard.fence (w : RWord) : WordGuard.Statement (.fence w) := guard_encode_R ..
theorem Laws.WordGuard.wait (w : RWord) : WordGuard.Statement (.wait w) := guard_encode_R ..
theorem Laws.WordGuard.trap (w : RWord) : WordGuard.Statement (.trap w) := guard_encode_R ..
theorem Laws.WordGuard.sysret (w : RWord) : WordGuard.Statement (.sysret w) := guard_encode_R ..
theorem Laws.WordGuard.srd (w : RWord) : WordGuard.Statement (.srd w) := guard_encode_R ..
theorem Laws.WordGuard.swr (w : RWord) : WordGuard.Statement (.swr w) := guard_encode_R ..
theorem Laws.WordGuard.rinv (w : RWord) : WordGuard.Statement (.rinv w) := guard_encode_R ..
theorem Laws.WordGuard.mmul (w : RWord) : WordGuard.Statement (.mmul w) := guard_encode_R ..
theorem Laws.WordGuard.mmerge (w : RWord) : WordGuard.Statement (.mmerge w) := guard_encode_R ..
theorem Laws.WordGuard.mdrain (w : RWord) : WordGuard.Statement (.mdrain w) := guard_encode_R ..
theorem Laws.WordGuard.mcfg (w : RWord) : WordGuard.Statement (.mcfg w) := guard_encode_R ..
theorem Laws.WordGuard.cpy (w : RWord) : WordGuard.Statement (.cpy w) := guard_encode_R ..
theorem Laws.WordGuard.cpyt (w : RWord) : WordGuard.Statement (.cpyt w) := guard_encode_R ..
theorem Laws.WordGuard.fsend (w : RWord) : WordGuard.Statement (.fsend w) := guard_encode_R ..
theorem Laws.WordGuard.fmcast (w : RWord) : WordGuard.Statement (.fmcast w) := guard_encode_R ..
theorem Laws.WordGuard.fred (w : RWord) : WordGuard.Statement (.fred w) := guard_encode_R ..
theorem Laws.WordGuard.fsparse (w : RWord) : WordGuard.Statement (.fsparse w) := guard_encode_R ..
theorem Laws.WordGuard.rgres (w : RWord) : WordGuard.Statement (.rgres w) := guard_encode_R ..
theorem Laws.WordGuard.rgpub (w : RWord) : WordGuard.Statement (.rgpub w) := guard_encode_R ..
theorem Laws.WordGuard.rgtake (w : RWord) : WordGuard.Statement (.rgtake w) := guard_encode_R ..
theorem Laws.WordGuard.rgdone (w : RWord) : WordGuard.Statement (.rgdone w) := guard_encode_R ..
theorem Laws.WordGuard.nrec (w : RWord) : WordGuard.Statement (.nrec w) := guard_encode_R ..
theorem Laws.WordGuard.bwpush (w : RWord) : WordGuard.Statement (.bwpush w) := guard_encode_R ..
theorem Laws.WordGuard.wver (w : RWord) : WordGuard.Statement (.wver w) := guard_encode_R ..
theorem Laws.WordGuard.mbsend (w : RWord) : WordGuard.Statement (.mbsend w) := guard_encode_R ..
theorem Laws.WordGuard.mbrecv (w : RWord) : WordGuard.Statement (.mbrecv w) := guard_encode_R ..
theorem Laws.WordGuard.pickIssueSet (core bay : Nat) (port : Port) : WordGuard.Statement (.pickIssueSet core bay port) := rfl
theorem Laws.WordGuard.fixedLatencyWriteback (id : Nat) : WordGuard.Statement (.fixedLatencyWriteback id) := rfl
theorem Laws.WordGuard.deferredTrapTake (thread : Nat) : WordGuard.Statement (.deferredTrapTake thread) := rfl
theorem Laws.WordGuard.cageEnter (entrant : Nat) : WordGuard.Statement (.cageEnter entrant) := rfl
theorem Laws.WordGuard.cageTimerExpire (core cage : Nat) : WordGuard.Statement (.cageTimerExpire core cage) := rfl
theorem Laws.WordGuard.groupLaunch (core cage : Nat) : WordGuard.Statement (.groupLaunch core cage) := rfl
theorem Laws.WordGuard.queueDoorbell (ctx : Nat) (tail : Word64) : WordGuard.Statement (.queueDoorbell ctx tail) := rfl
theorem Laws.WordGuard.launchAdmit (ctx : Nat) : WordGuard.Statement (.launchAdmit ctx) := rfl
theorem Laws.WordGuard.clusterPlace : WordGuard.Statement .clusterPlace := rfl
theorem Laws.WordGuard.gridComplete (launch : Nat) : WordGuard.Statement (.gridComplete launch) := rfl
theorem Laws.WordGuard.contextOpen (ctx : Nat) (cdesc : Word64) : WordGuard.Statement (.contextOpen ctx cdesc) := rfl
theorem Laws.WordGuard.contextClose (ctx : Nat) : WordGuard.Statement (.contextClose ctx) := rfl
theorem Laws.WordGuard.claimGrant (core bay : Nat) : WordGuard.Statement (.claimGrant core bay) := rfl
theorem Laws.WordGuard.claimDeadlockTrap (core bay : Nat) : WordGuard.Statement (.claimDeadlockTrap core bay) := rfl
theorem Laws.WordGuard.trapRecordWrite (thread : Nat) : WordGuard.Statement (.trapRecordWrite thread) := rfl
theorem Laws.WordGuard.coalescerRequestSend (op req : Nat) : WordGuard.Statement (.coalescerRequestSend op req) := rfl
theorem Laws.WordGuard.sectorFill (op req : Nat) : WordGuard.Statement (.sectorFill op req) := rfl
theorem Laws.WordGuard.loadDataReturn (op member : Nat) : WordGuard.Statement (.loadDataReturn op member) := rfl
theorem Laws.WordGuard.storePerform (op : Nat) : WordGuard.Statement (.storePerform op) := rfl
theorem Laws.WordGuard.atomicPerform (op : Nat) : WordGuard.Statement (.atomicPerform op) := rfl
theorem Laws.WordGuard.atomicIntervalEnd : WordGuard.Statement .atomicIntervalEnd := rfl
theorem Laws.WordGuard.tileLockAcquire (op : Nat) : WordGuard.Statement (.tileLockAcquire op) := rfl
theorem Laws.WordGuard.tileCommit (op : Nat) : WordGuard.Statement (.tileCommit op) := rfl
theorem Laws.WordGuard.discSectorTreat (op : Nat) : WordGuard.Statement (.discSectorTreat op) := rfl
theorem Laws.WordGuard.prefetchFill (op : Nat) : WordGuard.Statement (.prefetchFill op) := rfl
theorem Laws.WordGuard.ctbTestReturn (op : Nat) : WordGuard.Statement (.ctbTestReturn op) := rfl
theorem Laws.WordGuard.fenceSatisfied (op : Nat) : WordGuard.Statement (.fenceSatisfied op) := rfl
theorem Laws.WordGuard.scaleStorePerform (op : Nat) : WordGuard.Statement (.scaleStorePerform op) := rfl
theorem Laws.WordGuard.windowEnable (die w : Nat) : WordGuard.Statement (.windowEnable die w) := rfl
theorem Laws.WordGuard.windowDisable (die w : Nat) : WordGuard.Statement (.windowDisable die w) := rfl
theorem Laws.WordGuard.windowPurgeDone (die w : Nat) : WordGuard.Statement (.windowPurgeDone die w) := rfl
theorem Laws.WordGuard.translationWalk (die ctx : Nat) (va : Word64) : WordGuard.Statement (.translationWalk die ctx va) := rfl
theorem Laws.WordGuard.walkerInvalidate (die : Nat) (value : Word64) : WordGuard.Statement (.walkerInvalidate die value) := rfl
theorem Laws.WordGuard.walkerInvalidateDone (die : Nat) : WordGuard.Statement (.walkerInvalidateDone die) := rfl
theorem Laws.WordGuard.rinvPurgeDone (op : Nat) : WordGuard.Statement (.rinvPurgeDone op) := rfl
theorem Laws.WordGuard.matrixPassEnd (quad entry : Nat) : WordGuard.Statement (.matrixPassEnd quad entry) := rfl
theorem Laws.WordGuard.matrixCommandRetire (quad entry : Nat) : WordGuard.Statement (.matrixCommandRetire quad entry) := rfl
theorem Laws.WordGuard.copyRetire (op : Nat) : WordGuard.Statement (.copyRetire op) := rfl
theorem Laws.WordGuard.pairingArrival (arrival : Nat) : WordGuard.Statement (.pairingArrival arrival) := rfl
theorem Laws.WordGuard.spillSlotWrite (spill : Nat) : WordGuard.Statement (.spillSlotWrite spill) := rfl
theorem Laws.WordGuard.coreHoldExpire (entry : Nat) : WordGuard.Statement (.coreHoldExpire entry) := rfl
theorem Laws.WordGuard.portHoldExpire (entry : Nat) : WordGuard.Statement (.portHoldExpire entry) := rfl
theorem Laws.WordGuard.handleDeadlineExpire (ctx h : Nat) : WordGuard.Statement (.handleDeadlineExpire ctx h) := rfl
theorem Laws.WordGuard.linkFlitReceive (link : Nat) (flit : LinkFlit) : WordGuard.Statement (.linkFlitReceive link flit) := rfl
theorem Laws.WordGuard.linkFailure (link : Nat) : WordGuard.Statement (.linkFailure link) := rfl
theorem Laws.WordGuard.switchRoute (packet : Nat) : WordGuard.Statement (.switchRoute packet) := rfl
theorem Laws.WordGuard.destinationDeliver (packet : Nat) : WordGuard.Statement (.destinationDeliver packet) := rfl
theorem Laws.WordGuard.fabricAckReceive (cmd : Nat) (last : Bool) : WordGuard.Statement (.fabricAckReceive cmd last) := rfl
theorem Laws.WordGuard.channelDeadlineExpire (ctx ch : Nat) : WordGuard.Statement (.channelDeadlineExpire ctx ch) := rfl
theorem Laws.WordGuard.stepNoticeReceive (ctx ch step : Nat) : WordGuard.Statement (.stepNoticeReceive ctx ch step) := rfl
theorem Laws.WordGuard.foremanEvaluate : WordGuard.Statement .foremanEvaluate := rfl
theorem Laws.WordGuard.foremanPublish (ctx : Nat) : WordGuard.Statement (.foremanPublish ctx) := rfl
theorem Laws.WordGuard.winzeDrainStart (ctx : Nat) : WordGuard.Statement (.winzeDrainStart ctx) := rfl
theorem Laws.WordGuard.winzeBatchComplete (ctx : Nat) : WordGuard.Statement (.winzeBatchComplete ctx) := rfl
theorem Laws.WordGuard.mailboxBind (mailbox : Nat) (value : Word64) : WordGuard.Statement (.mailboxBind mailbox value) := rfl
theorem Laws.WordGuard.mailboxUnbind (mailbox : Nat) (value : Word64) : WordGuard.Statement (.mailboxUnbind mailbox value) := rfl
theorem Laws.WordGuard.mailboxStart (mailbox : Nat) : WordGuard.Statement (.mailboxStart mailbox) := rfl
theorem Laws.WordGuard.mailboxKill (mailbox : Nat) : WordGuard.Statement (.mailboxKill mailbox) := rfl
theorem Laws.WordGuard.episodeHartAssign (die : Nat) : WordGuard.Statement (.episodeHartAssign die) := rfl
theorem Laws.WordGuard.actionAppend (mailbox : Nat) : WordGuard.Statement (.actionAppend mailbox) := rfl
theorem Laws.WordGuard.observationTake (mailbox : Nat) : WordGuard.Statement (.observationTake mailbox) := rfl
theorem Laws.WordGuard.atake (die hart : Nat) (value : Word64) : WordGuard.Statement (.atake die hart value) := rfl
theorem Laws.WordGuard.actionHold (die hart : Nat) : WordGuard.Statement (.actionHold die hart) := rfl
theorem Laws.WordGuard.opostStep (die hart : Nat) (value : Word64) : WordGuard.Statement (.opostStep die hart value) := rfl
theorem Laws.WordGuard.opostEnd (die hart : Nat) (value : Word64) : WordGuard.Statement (.opostEnd die hart value) := rfl
theorem Laws.WordGuard.opostTerminal (die hart : Nat) (value : Word64) : WordGuard.Statement (.opostTerminal die hart value) := rfl
theorem Laws.WordGuard.curfewExpire (die hart : Nat) : WordGuard.Statement (.curfewExpire die hart) := rfl
theorem Laws.WordGuard.hartException (die hart : Nat) : WordGuard.Statement (.hartException die hart) := rfl
theorem Laws.WordGuard.episodeEndComplete (mailbox : Nat) : WordGuard.Statement (.episodeEndComplete mailbox) := rfl
theorem Laws.WordGuard.preemptRequest (cores prio : Nat) (source : PreemptSource) : WordGuard.Statement (.preemptRequest cores prio source) := rfl
theorem Laws.WordGuard.teamSaved (team : Nat) : WordGuard.Statement (.teamSaved team) := rfl
theorem Laws.WordGuard.clusterResume (launch : Nat) : WordGuard.Statement (.clusterResume launch) := rfl
theorem Laws.WordGuard.residualPeriod : WordGuard.Statement .residualPeriod := rfl
theorem Laws.WordGuard.residualWindowEnd : WordGuard.Statement .residualWindowEnd := rfl
theorem Laws.WordGuard.inversionTimeout (launch : Nat) : WordGuard.Statement (.inversionTimeout launch) := rfl
theorem Laws.WordGuard.quadRetire (die quad : Nat) : WordGuard.Statement (.quadRetire die quad) := rfl
theorem Laws.WordGuard.intervalBoundaryComplete (team : Nat) : WordGuard.Statement (.intervalBoundaryComplete team) := rfl
theorem Laws.WordGuard.patrolScrub (sector : Nat) (finding : EccFinding) : WordGuard.Statement (.patrolScrub sector finding) := rfl
theorem Laws.WordGuard.masterFreeze (kind : MasterKind) (identity code : Nat) : WordGuard.Statement (.masterFreeze kind identity code) := rfl
theorem Laws.WordGuard.assayerSample (launch team : Nat) : WordGuard.Statement (.assayerSample launch team) := rfl
theorem Laws.WordGuard.assayerReplayEnd (sample : Nat) : WordGuard.Statement (.assayerReplayEnd sample) := rfl
theorem Laws.WordGuard.rowActivationAlert (die ctrl bank row : Nat) : WordGuard.Statement (.rowActivationAlert die ctrl bank row) := rfl
theorem Laws.WordGuard.bankHoldEnd (die ctrl bank : Nat) : WordGuard.Statement (.bankHoldEnd die ctrl bank) := rfl
theorem Laws.WordGuard.alertsRead (die : Nat) : WordGuard.Statement (.alertsRead die) := rfl
theorem Laws.WordGuard.asampRead : WordGuard.Statement .asampRead := rfl
theorem Laws.WordGuard.adropRead : WordGuard.Statement .adropRead := rfl
theorem Laws.WordGuard.aunverRead : WordGuard.Statement .aunverRead := rfl
theorem Laws.WordGuard.powerLimitThrottle (average : Nat) : WordGuard.Statement (.powerLimitThrottle average) := rfl
theorem Laws.WordGuard.powerOnReset : WordGuard.Statement .powerOnReset := rfl
theorem Laws.WordGuard.pcieFundamentalReset : WordGuard.Statement .pcieFundamentalReset := rfl
theorem Laws.WordGuard.coldStart : WordGuard.Statement .coldStart := rfl
theorem Laws.WordGuard.warmStart : WordGuard.Statement .warmStart := rfl
theorem Laws.WordGuard.startStepEnd (ok : Bool) : WordGuard.Statement (.startStepEnd ok) := rfl
theorem Laws.WordGuard.getVersion (request : List Byte) : WordGuard.Statement (.getVersion request) := rfl
theorem Laws.WordGuard.getCapabilities (request : List Byte) : WordGuard.Statement (.getCapabilities request) := rfl
theorem Laws.WordGuard.negotiateAlgorithms (request : List Byte) : WordGuard.Statement (.negotiateAlgorithms request) := rfl
theorem Laws.WordGuard.getDigests (request : List Byte) : WordGuard.Statement (.getDigests request) := rfl
theorem Laws.WordGuard.getCertificate (request : List Byte) : WordGuard.Statement (.getCertificate request) := rfl
theorem Laws.WordGuard.challenge (request : List Byte) : WordGuard.Statement (.challenge request) := rfl
theorem Laws.WordGuard.getMeasurements (request : List Byte) : WordGuard.Statement (.getMeasurements request) := rfl
theorem Laws.WordGuard.hostWindowAccess (access : HostAccess) : WordGuard.Statement (.hostWindowAccess access) := rfl
theorem Laws.WordGuard.registerWrite (offset : Nat) (value : Word64) : WordGuard.Statement (.registerWrite offset value) := rfl
theorem Laws.WordGuard.engineWrite (op : Nat) : WordGuard.Statement (.engineWrite op) := rfl
theorem Laws.WordGuard.sealMarkingDone (op : Nat) : WordGuard.Statement (.sealMarkingDone op) := rfl
theorem Laws.WordGuard.driftLinkRetire (port : Nat) : WordGuard.Statement (.driftLinkRetire port) := rfl
theorem Laws.WordGuard.masterReset (kind : MasterKind) (identity : Nat) : WordGuard.Statement (.masterReset kind identity) := rfl

end Sys2Proof
end

