-- ==== Sys2Proof/Tests/Slice0.lean ====
section
/-! SUPPORT. Tests: ill-formed terms that WellFormed refuses, words written out from the spec's encodings, and for each statement
concrete states and operands that meet its hypotheses. -/

namespace Sys2Proof.Tests

open Sys2Proof.Machine

/-! ## States that tests start from -/

/-- A clause header of a class with no WAIT and one word. -/
def header (c : Class) : Nat := c.toBits.toNat * 2 ^ 61

/-- The class of a word. -/
def classOf (i : Instr) : Class := ((encode i).map (·.1)).getD .vector

/-- The package after reset with a word placed for its next move: thread 4 of group 3, team 2, launch 1, context 0 on bay 0 of
core 0. -/
def placed (i : Instr) : State := match encode i with
  | some (c, w) => State.reset.withFetchWord 128 (header c + w.toNat * 2 ^ 64)
  | none => State.reset

/-- The port and members with which the placed word issues. -/
def issuer (i : Instr) : Issuing := ⟨0, 0, portOf (classOf i).toBits.toNat, 0x40000, 0, [4]⟩

/-- The placed word as its port issues it. -/
def issuing (i : Instr) : State := { placed i with agenda := [], issuing := some (issuer i) }

/-- The registers of thread 4. -/
def withRegs (regs : List (Nat × Word32)) (s : State) : State := s.onThread 4 fun t => { t with regs := regs }

/-- Memory bytes, by physical address, at their homes. -/
def poke (pa n v : Nat) (s : State) : State := writeHomes s pa (leBytes n v)

/-- A thread, group, team, launch and context, for what a table does not hold. -/
def blankThread : Thread :=
  ⟨0, 0, 0, none, 0, 0, 0, false, false, false, .exited, 0, none, 0, 0, [], 0, [], 0, 0, [], 0, 0, 0, none, none, [], false, 0⟩
def blankGroup : Group := ⟨0, 0, 0, 0, 0, 1, 0, 0, 0, 0, none, 0, .resident, 0, [], [], MatrixCfg.reset, none, placedKernel⟩
def blankTeam : Team := ⟨0, 0, 0, 0, [], .placed, [], 0, [], 0, 0, none, none, none, none⟩
def blankLaunch : Launch :=
  ⟨0, 1, .handler, placedKernel, false, 0, [], [], [], none, 1, [], 0, none, 0, 0, [], none, none, [], []⟩
def blankContext : Context := ⟨0, 0, 0, 0, 0, 0, placedContext, false, [], none, [], [], none, false, [], none⟩

/-- Thread 4 as the placed word finds it, and its group, team, launch and context. -/
def thread4 (s : State) (i : Instr) : Thread := tgetD 4 blankThread (beginWord s (issuer i) i).threads
def group3 (s : State) : Group := tgetD 3 blankGroup s.groups
def team2 (s : State) : Team := tgetD 2 blankTeam s.teams
def launch1 (s : State) : Launch := tgetD 1 blankLaunch s.launches
def context0 (s : State) : Context := tgetD 0 blankContext s.contexts

/-- Thread 4, its team or its group changed. -/
def onThread4 (f : Thread → Thread) (s : State) : State := s.onThread 4 f
def onGroup3 (f : Group → Group) (s : State) : State := s.onGroup 3 f
def onTeam2 (f : Team → Team) (s : State) : State := s.onTeam 2 f

/-- The guard of an unpredicated word. -/
def always : Guard := ⟨false, 7⟩

/-- A register-form word without predicate. -/
def rw_ (dst a b c func : Nat) : RWord :=
  ⟨BitVec.ofNat 9 dst, BitVec.ofNat 9 a, BitVec.ofNat 9 b, BitVec.ofNat 9 c, always, BitVec.ofNat 12 func, 0⟩

/-- A memory-form word without predicate. -/
def mw (dst a off ctr size scope : Nat) (x : Bool := false) : MWord where
  dst := BitVec.ofNat 9 dst
  a := BitVec.ofNat 9 a
  off := BitVec.ofNat 20 off
  guard := always
  ctr := BitVec.ofNat 3 ctr
  scope := BitVec.ofNat 3 scope
  size := BitVec.ofNat 3 size
  x := x
  look := 0


/-! ## How a witness meets a hypothesis that is not decidable as it stands -/

theorem witness_issues {s : State} {u : Issuing} {i : Instr} {lat ctr : Nat}
    (h : s.issuing = some u ∧ i.staticCause = none ∧ commonHold s u i lat ctr = false ∧
      (∀ k ∈ u.members, memberClear (beginWord s u i) i k = true) ∧ s.samples = []) : Issues s u i lat ctr :=
  ⟨h.1, h.2.1, h.2.2.1, h.2.2.2.1, h.2.2.2.2⟩

theorem witness_issuesFor {s : State} {u : Issuing} {i : Instr} {lat ctr k : Nat} {t : Thread}
    (h : (s.issuing = some u ∧ i.staticCause = none ∧ commonHold s u i lat ctr = false ∧
      (∀ k ∈ u.members, memberClear (beginWord s u i) i k = true) ∧ s.samples = []) ∧ actives s u i = [k] ∧
      tget k (beginWord s u i).threads = some t) : IssuesFor s u i lat ctr k t :=
  ⟨witness_issues h.1, h.2.1, h.2.2⟩

theorem tget_none_of_below {α : Type} {n m : Nat} (hm : n ≤ m) : ∀ {l : List (Nat × α)},
    (l.all fun e => decide (e.1 < n)) = true → tget m l = none
  | [], _ => rfl
  | (k, v) :: t, h => by
    simp only [List.all_cons, Bool.and_eq_true, decide_eq_true_eq] at h
    rw [tget, if_neg (by omega)]
    exact tget_none_of_below hm h.2

theorem witness_fresh {s : State} (h : ((s.threads.all fun e => decide (e.1 < s.nextKey)) = true ∧
    (s.groups.all fun e => decide (e.1 < s.nextKey)) = true ∧ (s.teams.all fun e => decide (e.1 < s.nextKey)) = true) ∧
    (s.launches.all fun e => decide (e.1 < s.nextKey)) = true ∧ (s.entrants.all fun e => decide (e.1 < s.nextKey)) = true ∧
    (s.fixed.all fun e => decide (e.1 < s.nextKey)) = true ∧ (s.ops.all fun e => decide (e.1 < s.nextKey)) = true) : s.freshKey :=
  fun _ hn => ⟨tget_none_of_below hn h.1.1, tget_none_of_below hn h.1.2.1, tget_none_of_below hn h.1.2.2,
    tget_none_of_below hn h.2.1, tget_none_of_below hn h.2.2.1, tget_none_of_below hn h.2.2.2.1, tget_none_of_below hn h.2.2.2.2⟩

theorem witness_option {α : Type} {o : Option α} {p : α → Prop} [DecidablePred p] (h : (o.all fun x => decide (p x)) = true) :
    ∀ x, o = some x → p x := fun x hx => by subst hx; simpa using h

theorem witness_noInterval {s : State} {team : Nat} (h : ((tget team s.teams).all fun t => decide (t.interval = none)) = true) :
    NoInterval s team := witness_option h

theorem witness_noWriters {s : State} {team : Nat}
    (h : ((tget team s.teams).all fun t => (tget t.launch s.launches).all fun l => !l.k.det) = true) : NoWriters s team := by
  intro t l ht hl
  simpa [ht, hl] using h

theorem witness_table {α : Type} {l : List (Nat × α)} {p : Nat → α → Prop} [∀ k v, Decidable (p k v)]
    (h : (l.all fun e => decide (p e.1 e.2)) = true) : ∀ k v, tget k l = some v → p k v := by
  induction l with
  | nil => intro k v hk; simp [tget] at hk
  | cons e t ih =>
    intro k v hk
    simp only [List.all_cons, Bool.and_eq_true, decide_eq_true_eq] at h
    rw [tget] at hk
    split at hk
    · rename_i he; injection hk with hk; subst hk; exact he ▸ h.1
    · exact ih h.2 k v hk

theorem witness_nil {α : Type} {l : List α} {p : α → Prop} (h : l = []) : ∀ x ∈ l, p x := fun x hx => by subst h; simp at hx

theorem tget_none_of_above {α : Type} {m : Nat} : ∀ {l : List (Nat × α)}, (l.all fun e => decide (e.1 < m)) = true →
    ∀ n, m ≤ n → tget n l = none := fun h _ hn => tget_none_of_below hn h

/-- The bytes that a context reads where its die holds the translation of an identity page and no operation is open. -/
theorem witness_read {s : State} {ctx : Nat}
    (h : s.tlb = [(0, [⟨ctx, 0, 2 ^ 30, 0x1F⟩])] ∧ firstDie s ctx = 0 ∧ s.ops = [] ∧ s.poison = [] ∧
      (s.dies.all fun e => decide (e.2.clen = 0)) = true) (va : Nat) (h2 : va + 128 ≤ 2 ^ 30) (h3 : va % 128 = 0) :
    ctxRead s ctx va 128 = some ((addrs va 128).map (homeByte s)) := by
  obtain ⟨ht, hd, ho, hp, hc⟩ := h
  have hcar : inCarveOut s va = false := by
    rw [inCarveOut, List.any_eq_false]
    intro e he
    have := List.all_eq_true.mp hc e he
    simp at this ⊢
    omega
  have hleaf : leafOf s 0 ctx va = some (0x1F, 2 ^ 30) := by
    have : va < 1073741824 := by omega
    simp [leafOf, ht, tget, this]
  have hres : resolve s 0 ctx 0 ⟨true, false, false, true⟩ va = .ok (.hbm va) := by
    have : ¬ apertureBase ≤ va := by simp [apertureBase]; omega
    have hmod : va % 2 ^ 30 = va := by omega
    have hb : va < hbmBytes := by simp only [hbmBytes]; omega
    have ht : targetOf s true 0x1F (2 ^ 30) va = .ok (.hbm va) := by
      have b1 : bits 0x1F 6 2 = 0 := by decide
      have b2 : bits 0x1F 16 40 = 0 := by decide
      simp only [targetOf, b1, b2, hmod, Nat.zero_mul, Nat.zero_add, if_pos hb, hcar]
      rfl
    rw [resolve, if_neg this, hleaf]
    exact ht
  have hn : min 128 (pieceRoom s 0 va) = 128 := by
    have : va < apertureBase := by simp [apertureBase]; omega
    rw [pieceRoom, if_pos this]
    omega
  have hpo : poisonedAt s va 128 = none := by simp [poisonedAt, hp]
  rw [ctxRead, hd]
  simp only [pieceFuel, show 128 / 65536 + 4 = 4 by rfl, resolveRange, hn, hres, Nat.sub_self, List.foldl_cons, List.foldl_nil, hpo]
  rfl

theorem witness_zeros {s : State} {ctx m : Nat}
    (h : (s.tlb = [(0, [⟨ctx, 0, 2 ^ 30, 0x1F⟩])] ∧ firstDie s ctx = 0 ∧ s.ops = [] ∧ s.poison = [] ∧
      (s.dies.all fun e => decide (e.2.clen = 0)) = true) ∧ s.mem = [] ∧ (s.l2.all fun e => decide (e.1 < m)) = true)
    (va : Nat) (h1 : m ≤ va) (h2 : va + 128 ≤ 2 ^ 30) (h3 : va % 128 = 0) :
    ctxRead s ctx va 128 = some (List.replicate 128 0) := by
  rw [witness_read h.1 va h2 h3]
  congr 1
  rw [addrs, List.map_map, List.eq_replicate_iff]
  refine ⟨by simp, fun b hb => ?_⟩
  simp only [List.mem_map, List.mem_range, Function.comp] at hb
  obtain ⟨i, -, rfl⟩ := hb
  have := tget_none_of_above h.2.2 (va + i) (by omega)
  simp only [homeByte, h.2.1, this]
  rfl

theorem witness_channels {s : State} {ctx : Nat}
    (h : ((tget ctx s.contexts).map (·.desc.ctab)).getD 0 = 0x100000 ∧ (s.tlb = [(0, [⟨ctx, 0, 2 ^ 30, 0x1F⟩])] ∧
      firstDie s ctx = 0 ∧ s.ops = [] ∧ s.poison = [] ∧ (s.dies.all fun e => decide (e.2.clen = 0)) = true) ∧
      s.mem = [] ∧ (s.l2.all fun e => decide (e.1 < 0x100000)) = true) : channelsOk s ctx = true := by
  rw [channelsOk, List.all_eq_true]
  intro ch hch
  have hch : ch < 4096 := List.mem_range.mp hch
  have := witness_zeros h.2 (0x100000 + 128 * ch) (by omega) (by omega) (by omega)
  rw [readChannel, h.1]
  simp only [this]
  rw [show bit (leValue (List.take 8 (List.drop (8 * 6) (List.replicate 128 (0 : Byte))))) 16 = false by decide]
  rfl

theorem witness_ok {ε α : Type} {x : Except ε α} {a : α} (h : x.toOption = some a) : x = .ok a := by
  cases x with
  | error e => simp [Except.toOption] at h
  | ok v => simpa [Except.toOption] using h

theorem witness_calm {s : State} (h : s.ops = [] ∧ s.poison = [] ∧
    (s.threads.all fun e => (rendezvousOf e.2).isNone && match e.2.state with
      | .barrier _ _ (some _) _ => false
      | .releasing _ _ _ => false
      | _ => true) = true) : Calm s := by
  have get {j : Nat} {t : Thread} (ht : tget j s.threads = some t) : (rendezvousOf t).isNone ∧
      ∀ n p h sc, t.state ≠ .barrier n p (some h) sc ∧ t.state ≠ .releasing n h sc := by
    have := witness_table (p := fun _ (t : Thread) => ((rendezvousOf t).isNone && match t.state with
      | .barrier _ _ (some _) _ => false
      | .releasing _ _ _ => false
      | _ => true) = true) (by simpa using h.2.2) j t ht
    simp only [Bool.and_eq_true] at this
    refine ⟨this.1, fun n p h sc => ⟨fun hb => ?_, fun hb => ?_⟩⟩ <;>
    · rw [hb] at this
      simp at this
  exact ⟨h.1, h.2.1, fun j t ht => by simpa using (get ht).1, fun j t n p h sc ht => (get ht).2 n p h sc⟩

/-! ## Groups of more than one member -/

theorem any_some {α : Type} {o : Option α} {p : α → Bool} (h : o.any p = true) : ∃ x, o = some x ∧ p x = true := by
  cases o with
  | none => simp at h
  | some x => exact ⟨x, rfl, by simpa using h⟩

theorem witness_unique {s : State} {g : Nat} (h : (s.threads.all fun e => s.threads.all fun e' =>
      !(decide (e.2.group = some g) && decide (e'.2.group = some g) && decide (e.2.member = e'.2.member)) || decide (e.1 = e'.1)) = true) :
    ∀ j j' tj tj', tget j s.threads = some tj → tget j' s.threads = some tj' → tj.group = some g → tj'.group = some g →
      tj.member = tj'.member → j = j' := by
  intro j j' tj tj' hj hj' hg hg' hm
  have h1 := witness_table (p := fun j (t : Thread) => (s.threads.all fun e' =>
      !(decide (t.group = some g) && decide (e'.2.group = some g) && decide (t.member = e'.2.member)) || decide (j = e'.1)) = true)
    (by simpa using h) j tj hj
  have h2 := witness_table (p := fun j' (t : Thread) =>
      (!(decide (tj.group = some g) && decide (t.group = some g) && decide (tj.member = t.member)) || decide (j = j')) = true)
    (by simpa using h1) j' tj' hj'
  simpa [hg, hg', hm] using h2

theorem witness_others {s : State} {i : Instr} {k g : Nat} {t : Thread} (h : t.member < 64 ∧
    (s.threads.all fun e => decide (e.1 = k) || decide (e.2.group ≠ some g) || (decide (e.2.member ≠ t.member) &&
      (rendezvousOf e.2).all fun r => decide (r.addr = t.curWord ∧ r.mask = 0 ∧ r.word = i))) = true ∧
    (s.threads.all fun e => s.threads.all fun e' =>
      !(decide (e.2.group = some g) && decide (e'.2.group = some g) && decide (e.2.member = e'.2.member)) || decide (e.1 = e'.1)) = true) :
    OthersAtWord s i k g t := by
  refine ⟨h.1, fun j tj hk hj hg => ?_, witness_unique h.2.2⟩
  have := witness_table (p := fun j (x : Thread) => (decide (j = k) || decide (x.group ≠ some g) || (decide (x.member ≠ t.member) &&
      (rendezvousOf x).all fun r => decide (r.addr = t.curWord ∧ r.mask = 0 ∧ r.word = i))) = true)
    (by simpa using h.2.1) j tj hj
  simp only [hk, hg, decide_false, ne_eq, not_true_eq_false, Bool.false_or, Bool.and_eq_true, decide_eq_true_eq] at this
  exact ⟨this.1, fun r hr => by simpa [hr] using this.2⟩

theorem witness_allLive {s : State} {i : Instr} {k g : Nat} {t : Thread} {gr : Group} (h : bit gr.live t.member = true ∧
    ((List.range 64).all fun n => !bit gr.live n || decide (n = t.member) || s.threads.any fun e => decide (e.1 ≠ k) &&
      decide (tget e.1 s.threads = some e.2 ∧ e.2.group = some g ∧ e.2.member = n) && (rendezvousOf e.2).any fun r =>
        decide (r.addr = t.curWord ∧ r.mask = 0 ∧ r.word = i)) = true) : AllLiveAtWord s i k g t gr := by
  refine ⟨h.1, fun n hn hb => ?_⟩
  have := List.all_eq_true.mp h.2 n (List.mem_range.mpr hn)
  simp only [hb, Bool.not_true, Bool.false_or, Bool.or_eq_true, decide_eq_true_eq, List.any_eq_true, Bool.and_eq_true] at this
  rcases this with h | ⟨e, -, ⟨h1, h2, h3, h4⟩, h5⟩
  · exact .inl h
  · obtain ⟨r, hr, h6⟩ := any_some h5
    simp only [decide_eq_true_eq] at h6
    exact .inr ⟨e.1, e.2, r, h1, h2, h3, h4, hr, h6⟩

theorem witness_notLive {s : State} {i : Instr} {k g n : Nat} {t : Thread} {gr : Group} (h : (n < 64 ∧ bit gr.live n = true ∧
    n ≠ t.member) ∧ (s.threads.all fun e => decide (e.1 = k) || (rendezvousOf e.2).isNone) = true) : ¬ AllLiveAtWord s i k g t gr := by
  intro hall
  rcases hall.2 n h.1.1 h.1.2.1 with hn | ⟨j, tj, r, hk, hj, -, -, hr, -⟩
  · exact h.1.2.2 hn
  · have := witness_table (p := fun j (x : Thread) => (decide (j = k) || (rendezvousOf x).isNone) = true) (by simpa using h.2) j tj hj
    simp [hk, hr] at this

theorem witness_meets {s : State} {g m a : Nat} (h : (s.threads.all fun e => (rendezvousOf e.2).all fun r => decide (r.mask = m)) = true) :
    ∀ j tj r', tget j s.threads = some tj → tj.group = some g → rendezvousOf tj = some r' → r'.addr = a →
      r'.mask = m ∨ r'.mask &&& m = 0 := by
  intro j tj r' hj _ hr _
  have := witness_table (p := fun _ (x : Thread) => ((rendezvousOf x).all fun r => decide (r.mask = m)) = true) (by simpa using h) j tj hj
  exact .inl (by simpa [hr] using this)

theorem witness_members {α : Type} {l : List Nat} {T : List (Nat × α)} (p : α → Prop) [DecidablePred p]
    (h : (l.all fun k => (tget k T).any fun t => decide (p t)) = true) : ∀ k ∈ l, ∃ t, tget k T = some t ∧ p t := by
  intro k hk
  obtain ⟨t, ht, hp⟩ := any_some (List.all_eq_true.mp h k hk)
  exact ⟨t, ht, by simpa using hp⟩

theorem witness_named {m : Nat} {p : Nat → Prop} (l : List Nat) (T : List (Nat × Thread)) (h : m < 2 ^ 64 ∧
    ∀ n, n < 64 → bit m n = true → p n ∧ (l.any fun k => (tget k T).any fun t => decide (t.member = n)) = true) :
    ∀ n, bit m n = true → p n ∧ ∃ k t, k ∈ l ∧ tget k T = some t ∧ t.member = n := by
  intro n hb
  have hn : n < 64 := Decidable.byContradiction fun hn => by
    rw [bit, Nat.div_eq_of_lt (Nat.lt_of_lt_of_le h.1 (Nat.pow_le_pow_right (by decide) (by omega)))] at hb
    simp at hb
  obtain ⟨h1, h2⟩ := h.2 n hn hb
  obtain ⟨k, hk, h3⟩ := List.any_eq_true.mp h2
  obtain ⟨t, ht, h4⟩ := any_some h3
  exact ⟨h1, k, t, hk, ht, by simpa using h4⟩

/-- The package with thread 4 in its clause and nothing to issue. -/
def idle : State := { placed (.nop (rw_ 0 0 0 0 0)) with agenda := [] }

/-- Two live members, threads 4 and 5, the second at a rendezvous if one is given. -/
def twoLanes (i : Instr) (regs : List (Nat × Word32)) (r : Option Rendezvous) : State :=
  let s := withRegs regs (issuing i)
  onGroup3 (fun g => { g with live := 3 }) { s with nextKey := 6, threads := s.threads ++ [(5, { thread4 s i with
    member := 1, regs := regs, pc := 0x40010, state := match r with
      | some r => .rendezvous r
      | none => .ready })] }

/-- Two members of one issue set, threads 4 and 5. -/
def twoIssuing (i : Instr) (regs4 regs5 : List (Nat × Word32)) : State :=
  let s := withRegs regs4 (issuing i)
  onGroup3 (fun g => { g with live := 3 }) { s with
    nextKey := 6
    threads := s.threads ++ [(5, { thread4 s i with member := 1, tid := 1, regs := regs5 })]
    issuing := some { issuer i with members := [4, 5] }
    ports := s.ports.map fun p => (p.1, { p.2 with members := if p.2.members = [4] then [4, 5] else p.2.members }) }

theorem witness_clash {s : State} {g k m a : Nat} (h : (s.threads.any fun e => decide (tget e.1 s.threads = some e.2 ∧ e.1 ≠ k ∧
    e.2.group = some g) && (rendezvousOf e.2).any fun r => decide (r.addr = a ∧ r.mask ≠ m ∧ r.mask &&& m ≠ 0)) = true) :
    ∃ j tj r', j ≠ k ∧ tget j s.threads = some tj ∧ tj.group = some g ∧ rendezvousOf tj = some r' ∧ r'.addr = a ∧ r'.mask ≠ m ∧
      r'.mask &&& m ≠ 0 := by
  obtain ⟨e, -, he⟩ := List.any_eq_true.mp h
  simp only [Bool.and_eq_true, decide_eq_true_eq] at he
  obtain ⟨⟨h1, h2, h3⟩, h4⟩ := he
  obtain ⟨r, hr, h5⟩ := any_some h4
  simp only [decide_eq_true_eq] at h5
  exact ⟨e.1, e.2, r, h2, h1, h3, hr, h5⟩

theorem witness_oneOf {s : State} {k g m : Nat} (h : (s.threads.all fun e => decide (e.1 = k) || decide (e.2.group ≠ some g) ||
    decide (e.2.member ≠ m)) = true) :
    ∀ j' tj', j' ≠ k → tget j' s.threads = some tj' → tj'.group = some g → tj'.member ≠ m := by
  intro j tj hk hj hg
  have := witness_table (p := fun j (x : Thread) => (decide (j = k) || decide (x.group ≠ some g) || decide (x.member ≠ m)) = true)
    (by simpa using h) j tj hj
  simpa [hk, hg] using this

def addW : Instr := .iadd (rw_ 20 1 2 0 0x300)
def sAdd : State := withRegs [(1, 5), (2, 7)] (issuing addW)
def plan (i : Instr) : Compute := (computes i).getD ⟨0, none, fun _ _ _ => [], false⟩
/-- A port of bay 0 with a one-word clause of a class. -/
def portAt (c : Class) : PortState := ⟨0x40000, 0, 1, c.toBits, 0, [4], 0, 0, false⟩
def sOpcode : State := { placeClause State.reset (header .system) (0x05 * 2 ^ 56) with agenda := [] }
def badTypeW : Instr := .iadd (rw_ 20 1 2 0 0)
def sBeyond : State := onGroup3 (fun g => { g with segs := [⟨0, 0, 16⟩] }) sAdd
def sUnready : State := { sAdd with contexts := [(0, { context0 sAdd with schk := true })], fixed := [(0, ⟨portKey 0 0 .va, 0, 9, [.v 4 1 1]⟩)] }
def sLocked : State := { sAdd with rowLocks := [(0, 0, 0, 1, 9)] }
/-- LD.CA of [v2:3] into v20, a compute-free word: its registers beyond the allocation, not yet written, or locked by a copy. -/
def stoppedW : Instr := .ldCa (mw 20 2 0 1 4 1)
def sStopped (seg : Nat) (schk : Bool) (locks : List (Nat × Nat × Nat × Nat × Nat)) : State :=
  { onGroup3 (fun g => { g with width := 1, segs := [⟨0, 0, seg⟩] }) (issuing stoppedW) with
    contexts := [(0, { context0 (issuing stoppedW) with schk := schk })], rowLocks := locks
    fixed := if schk then [(0, ⟨portKey 0 0 .va, 0, 9, [.v 4 2 1]⟩)] else [] }
def sPort : State := { placed addW with agenda := [.port 0 0 .va] }
def sEvent : State := { sPort with agenda := [.event .clusterPlace] }
def uniW : Instr := .iadd (rw_ 384 1 2 0 0x300)
def sUni : State := withRegs [(1, 5), (2, 7)] (issuing uniW)
def sUniPart : State := onGroup3 (fun g => { g with live := 3 }) sUni
/-- MOV in half A and a NOP in half B. -/
def pairW : PWord := ⟨⟨1, 20, 1, 2⟩, ⟨0, 0, 0, 0⟩, 0⟩
def sPair : State := withRegs [(1, 5), (2, 7)] (issuing (.pairedWord pairW))
def sDue : State := { sAdd with clk := 9, fixed := [(5, ⟨0, 0, 9, [.v 4 20 12, .v 4 21 7]⟩)] }
/-- The same word as the first of a clause of two. -/
def sFirst : State := { sAdd with ports := [(portKey 0 0 .va, { portAt .vector with words := 2 })] }
/-- The word ends its clause inside the code: the next header is read from memory. -/
def sInside : State := onGroup3 (fun g => { g with k := { g.k with codeLen := 64 } }) sAdd

/-- A branch back to the header of its clause. -/
def braW : Instr := .bra 0 ⟨BitVec.ofInt 32 (-1), 0, 0, always, 0⟩
def braTo (off : Int) : State → Thread → Nat := fun _ t => wrap 64 ((t.curWord : Int) + 8 * off)
def brxW : Instr := .brx (rw_ 0 2 0 0 0)
def sBrx : State := withRegs [(2, 0x40000)] (issuing brxW)
def callI : IWord := ⟨BitVec.ofInt 32 (-1), 30, 0, always, 0⟩
def exitW : RWord := rw_ 0 0 0 0 0
def cand (y passed : Nat) : Cand := ⟨4, { blankThread with yielded := y, passed := passed }, blankGroup, Header.decode 0⟩
def spawnW : RWord := rw_ 0 2 4 0 0x200
def sSpawn : State := withRegs [(2, 0x40000), (4, 77)] (issuing (.spawn spawnW))
def sSpawnOut : State := withRegs [(2, 0x40008), (4, 77)] (issuing (.spawn spawnW))
/-- A barrier arrival: b1, MODE 1, scope .core; and one by ARRIVEB with MODE 3, and one with MODE 2. -/
def arriveW : RWord := rw_ 10 0 0 0x21 0
def arrivebW : RWord := rw_ 10 2 0 0x61 0
def bytesW : RWord := rw_ 10 2 0 0x41 0
def barrier1 (x : Barrier) (s : State) : State := setBarrier s 2 1 x
def sArrive : State := barrier1 { Barrier.reset with texp := 1 } (issuing (.barArrive arriveW))
def sArriveLess : State := barrier1 { Barrier.reset with texp := 2 } (issuing (.barArrive arriveW))
def sArriveb : State := barrier1 { Barrier.reset with texp := 1, barr := 9 } (withRegs [(2, 8)] (issuing (.barArriveb arrivebW)))
def sBytes : State := barrier1 { Barrier.reset with texp := 1 } (withRegs [(2, 8)] (issuing (.barArriveb bytesW)))
def arriveUniW : RWord := rw_ 390 0 0 0x21 0
def sArriveUni : State := barrier1 { Barrier.reset with texp := 1 } (issuing (.barArrive arriveUniW))
def sArriveCkpt : State := sArrive.onLaunch 1 fun l => { l with k := { l.k with ckpt := true } }
def sArrived : State := barrier1 { Barrier.reset with texp := 2, mode := 1, tarr := 1, arrived := [4] } (issuing (.barArrive arriveW))
def sArriveHeld : State := (twoLanes (.barArrive arriveW) [] none).onThread 5 fun t => { t with state := .barrier 1 0 (some ⟨some 10, 8⟩) 4 }
def sHolder : State := barrier1 { Barrier.reset with texp := 1 } sArriveHeld
/-- A store of thread 4 that is not yet at its home. -/
def storeOp : StoreOp :=
  ⟨[⟨4, 1⟩], 0, 0, 2, 0x61000, .hbm 0x61000, (addrs 0x61000 4).zip (leBytes 4 0x01020304), none, false, none, [0x61000]⟩
/-- Thread 4 makes an arrival that was held until the phase of b1 changed, once its release at .dev is complete. -/
def sHeld (ops : List (Nat × Op)) : State := barrier1 { Barrier.reset with texp := 1, phase := 1 } (onThread4 (fun t => { t with
  pc := 0x40010, state := .releasing 1 ⟨some 10, 8⟩ 4 }) { issuing (.barArrive arriveW) with nextKey := 6, ops := ops })
def sMode : State := barrier1 { Barrier.reset with mode := 3 } (withRegs [(2, 8)] (issuing (.barArriveb bytesW)))
def waitW : RWord := rw_ 0 2 0 0x101 0
def sBarWait (phase token : Nat) : State := barrier1 { Barrier.reset with texp := 1, phase := phase } (withRegs [(2, BitVec.ofNat 32 token)] (issuing (.barWait waitW)))
def claimW : RWord := rw_ 0 0 0 24 0
def sClaim : State := onGroup3 (fun g => { g with segs := [⟨0, 0, 64⟩] }) (issuing (.claim claimW))
/-- Threads 4 and 5 in one group, 5 waiting at the word that 4 issues, or not there yet. -/
def groupWide (i : Instr) (seg : Nat) (waits : Bool) : State := onGroup3 (fun g => { g with segs := [⟨0, 0, seg⟩] }) (twoLanes i []
  (if waits then some ⟨0x40008, 0, false, 0, 0, false, false, i⟩ else none))
def releaseW : RWord := rw_ 0 0 0 56 0
def sRelease : State := withRegs [(1, 9), (380, 9)] (issuing (.release releaseW))
def sReleaseAll : State := onGroup3 (fun g => { g with segs := [⟨0, 0, 56⟩] }) (issuing (.release releaseW))
def releaseFewW : RWord := rw_ 0 0 0 8 0
def sReleaseLocked : State := { onGroup3 (fun g => { g with width := 1, segs := [⟨0, 0, 16⟩] }) (issuing (.release releaseFewW)) with rowLocks := [(0, 0, 0, 15, 9)] }
/-- Group 3 waits with a claim of three units, its thread in CLAIMING. -/
def sGrant : State := { onThread4 (fun t => { t with state := .claiming, pc := 0x40010 }) (onGroup3 (fun g => { g with segs := [⟨0, 0, 64⟩], claim := some ⟨3, 0, 0⟩ }) (placed (.claim claimW))) with agenda := [] }
def grG : Group := { group3 sGrant with claim := some ⟨3, 0, 0⟩ }
/-- Group 3 holds every row of its slots and claims more: a deadlock since clk 0. -/
def sDead : State := { onThread4 (fun t => { t with state := .claiming, pc := 0x40010 }) (onGroup3 (fun g => { g with segs := [⟨0, 0, 384⟩, ⟨384, 384, 640⟩], claim := some ⟨3, 0, 0⟩ }) (placed (.claim claimW))) with
  agenda := [], clk := 256, cores := [(0, { CoreCtl.reset with deadlock := [(0, 0)] })] }
theorem witness_running {s : State} {g : Nat}
    (h : ((tget g s.groups).all fun gr => (tget gr.team s.teams).all fun tm => decide (tm.state ≠ .saving)) = true) :
    ∀ gr tm, tget g s.groups = some gr → tget gr.team s.teams = some tm → tm.state ≠ .saving := by
  intro gr tm hg ht
  simpa [hg, ht] using h
def shflW : RWord := rw_ 20 1 2 4 0x300
def ballotW : RWord := rw_ 20 0 2 7 0
def shflOps : State → Thread → Nat × Nat × Bool := fun s t => (srcValue s t shflW.ty shflW.a, src32 s t shflW.c, false)
def sLane1 : State := (withRegs [(1, 11), (2, 1), (4, 0)] (issuing (.xshfl shflW)))
def sLaneWait : State := twoLanes (.xshfl shflW) [(1, 11), (2, 3), (4, 1)] none
def sLaneGone : State := withRegs [(1, 11), (2, 3), (4, 1)] (issuing (.xshfl shflW))
/-- Thread 5 waits at the word with a mask that names thread 4 too, and another one. -/
def sLaneClash : State := twoLanes (.xshfl shflW) [(1, 11), (2, 3), (4, 1)] (some ⟨0x40008, 7, false, 12, 0, false, true, .xshfl shflW⟩)
def sLaneBoth : State := twoLanes (.xshfl shflW) [(1, 11), (2, 3), (4, 1)] (some ⟨0x40008, 3, false, 12, 0, false, true, .xshfl shflW⟩)
def sLaneOwn : State := withRegs [(1, 11), (2, 2), (4, 0)] (issuing (.xshfl shflW))
def sLaneSet : State := twoIssuing (.xshfl shflW) [(1, 11), (2, 3), (4, 1)] [(1, 12), (2, 3), (4, 0)]
def laneSet : Issuing := { issuer (.xshfl shflW) with members := [4, 5] }
def arrival (k m a c : Nat) (q : Bool) (i : Instr) : Arrival := ⟨k, { blankThread with member := m }, ⟨0x40008, 3, false, a, c, q, true, i⟩⟩
def lanes : List Arrival := [arrival 4 0 11 1 true (.xshfl shflW), arrival 5 1 12 0 false (.xshfl shflW)]
def bcastW : RWord := rw_ 20 1 2 4 0x300
def scanW : RWord := rw_ 20 1 2 0 0x301
def pairScanW : RWord := rw_ 20 1 2 0 0x881

/-- Where memory words of the tests read and write: 0x60000 in HBM, and byte 0x40 of the aperture. -/
def atHbm : List (Nat × Word32) := [(2, 0x60000), (3, 0), (4, 0x61000), (5, 0), (6, 77), (7, 5)]
def atScratch : List (Nat × Word32) := [(2, 0x40), (3, 0xFFFFFF00), (4, 0x61000), (5, 0), (6, 77), (7, 5)]
def loadW : MWord := mw 20 2 0 1 4 1
def sLoad : State := withRegs atHbm (issuing (.ldCa loadW))
def sLoadScratch : State := withRegs atScratch (issuing (.ldCa loadW))
def sLoadOdd : State := withRegs [(2, 0x60001)] (issuing (.ldCa loadW))
def sLoadFar : State := withRegs [(2, 0), (3, 1)] (issuing (.ldCa loadW))
def storeW : MWord := mw 6 2 0 1 4 1
def sStore : State := withRegs atHbm (issuing (.st storeW))
def sStoreLocked : State := { sStore with rangeLocks := [(0, [(3, ⟨0x60000, 0x60040, true, 64⟩)])] }
def sStoreScratch : State := withRegs atScratch (issuing (.st storeW))
def sRelHold : State := { withRegs atHbm (issuing (.stRel storeW)) with nextKey := 6, ops := [(5, .store storeOp)] }
def relW : MWord := mw 6 2 0 1 4 4
def sRel : State := { withRegs atHbm (issuing (.stRel relW)) with nextKey := 6, ops := [(5, .store storeOp)] }
def fenceW : RWord := rw_ 0 0 0 3 0xF03
def sFence : State := { issuing (.fence fenceW) with nextKey := 6, ops := [(5, .store storeOp)] }
def fence0W : RWord := rw_ 0 0 0 0 0xF03
def ldfeW : MWord := mw 20 2 0 1 4 0 true
def sLdfe (full : List Nat) : State := { poke (onchipPa 0 0x40) 4 99 (withRegs atScratch (issuing (.ldfe ldfeW))) with full := full }
def stfeW : MWord := mw 6 2 0 7 4 0
def sStfe : State := withRegs atScratch (issuing (.stfe stfeW))
/-- Thread 5 waits in GRANULE for the full-empty bit that the store sets. -/
def sStfeWaiter : State := { sStfe with nextKey := 8, ops := [(7, .granule ⟨⟨5, 7⟩, 7, some 20, 4, 0xFFFFFF0000000040, 0, 0x40, true⟩)]
                                        threads := sStfe.threads ++ [(5, { tgetD 4 blankThread sStfe.threads with member := 1, pc := 0x40010, state := .granule 7 })] }
/-- A tile of two rows of 16 bytes, 256 bytes apart, and its block at byte 0x40 of the aperture. -/
def tileW : RWord := rw_ 0 2 4 8 0x240
def atTile : List (Nat × Word32) := [(2, 0x60000), (3, 0), (4, 0x40), (5, 0xFFFFFF00), (8, 256), (9, 0x810F)]
def discW : RWord := rw_ 0 2 6 0 0x200
def sDisc (len : Nat) : State := withRegs [(2, 0x60000), (6, BitVec.ofNat 32 len)] (issuing (.disc discW))
def prefW : MWord := mw 0 2 0 1 0 0
def sPref : State := withRegs atHbm (issuing (.pref prefW))
/-- ATOM.ADD.N32 at .dev into v20, and ATOM.FADD.F32. -/
def atomW : RWord := rw_ 20 2 6 4 0x200
def sAtom : State := withRegs atHbm (issuing (.atom atomW))
def sFadd : State := withRegs atHbm (issuing (.atomFadd atomW))
def sFaddDet : State := { sFadd with launches := [(1, { launch1 sFadd with k := { placedKernel with det := true } })] }
/-- A handle of one leaf's worth of package: two leaves, both this package's, plain nodes, open. -/
def handle : Handle := ⟨1, 0x70000, 0x70100, 0x71000, 0x1000, 0, 1, 0, 64, 1, 0, 4, 4, true, 1, false, 1, []⟩
def ctbW : RWord := rw_ 0 4 6 8 0x200
def sealW : RWord := rw_ 0 4 0 0 0x200
def withHandle (s : State) : State := { s with handles := [(handleKey 0 5, handle)] }
def atLeaf (h leaf : Nat) : List (Nat × Word32) := [(4, BitVec.ofNat 32 h), (6, BitVec.ofNat 32 leaf), (8, 0x3F800000)]
/-- WAIT.EQ.N32 at .dev. -/
def waitAW : RWord := rw_ 20 2 6 0x20 0x200
def sWait (v : Nat) : State := poke 0x60000 4 v (withRegs atHbm (issuing (.wait waitAW)))
/-- The issue set of threads 4 and 5. -/
def setOf (i : Instr) : Issuing := { issuer i with members := [4, 5] }
/-- Thread 5's registers: the address 4 bytes on, and other data. -/
def atHbm4 : List (Nat × Word32) := [(2, 0x60004), (3, 0), (4, 0x61000), (5, 0), (6, 78), (7, 5)]
def sLoadSet : State := twoIssuing (.ldCa loadW) atHbm atHbm4
def sStoreSet : State := twoIssuing (.st storeW) atHbm atHbm4
def sAtomSet : State := twoIssuing (.atom atomW) atHbm [(2, 0x60000), (6, 78)]
/-- A store of thread 4 to a page that the die's walker holds. -/
def sStoreAt (leaf va : Nat) (sys : Bool) : State := onThread4 (fun t => { t with sys := sys })
  { withRegs [(2, BitVec.ofNat 32 va), (6, 77)] (issuing (.st storeW)) with tlb := [(0, [⟨0, 0x60000, 65536, BitVec.ofNat 64 leaf⟩])] }
/-- A contribution at the root whose destination lies in a version window of the thread. -/
def sCtbWindow : State := (withHandle (withRegs (atLeaf 5 1) (issuing (.ctb ctbW)))).onLaunch 1 fun l => { l with windows := [(0, 0x70000, 0x80)] }

def trapW : RWord := rw_ 0 0 0 7 0
/-- Thread 5 is stopped by a trap whose record lies at 0x80000 in slot 0; thread 4 issues SYSRET with that address, and 0x40000 as
the target. -/
def sysretW (action : Nat) : RWord := rw_ 0 2 (if action = 3 then 4 else 0) action 0
def sSysret (action : Nat) (i : TrapInfo) (sys : Bool := true) : State :=
  let s := withRegs [(2, 0x80000), (4, 0x40000)] (issuing (.sysret (sysretW action)))
  onGroup3 (fun g => { g with live := 3 }) (onThread4 (fun t => { t with sys := sys }) { s with
    nextKey := 6
    threads := s.threads ++ [(5, { thread4 s (.sysret (sysretW action)) with
      member := 1, state := .trapped, trap := some i, trapSlot := some 0, pc := 0x40000, regs := [] })]
    contexts := [(0, { context0 s with desc := { placedContext with tring := 0x80000 }, trapSlots := [(0, 5, 4)] })] })
def wordTrapInfo : TrapInfo := ⟨0x12, 0x40008, 0x40000, 0, 0, none, []⟩
def srdW (code : Nat) : RWord := rw_ 20 0 0 code 0
def sSrd (code : Nat) (sys : Bool := true) : State := onThread4 (fun t => { t with sys := sys }) (issuing (.srd (srdW code)))
def swrW (code : Nat) : RWord := rw_ 0 6 0 code 0
def sSwr (code v : Nat) (sys : Bool := true) : State := onThread4 (fun t => { t with sys := sys }) (withRegs [(6, BitVec.ofNat 32 v)] (issuing (.swr (swrW code))))
def rinvW : RWord := rw_ 0 2 4 8 0x200
def sRinv (base len : Nat) : State := withRegs [(2, BitVec.ofNat 32 base), (4, BitVec.ofNat 32 len), (8, 0x61000)] (issuing (.rinv rinvW))
/-- A ring of four slots of 64 bytes at 0x68000, its descriptor at 0x60000. -/
def ringAt : Ring := ⟨0x60000, 0x68000, 6, 2, 0, 0xFFFF⟩
def withRing (seq : Nat) (s : State) : State :=
  poke 0x60010 8 0x68000 (poke 0x60018 8 0x602 (poke 0x60028 8 0xFFFF (poke 0x68000 8 seq s)))
def ringW : RWord := rw_ 20 2 0 0 0x200
def ringDoneW : RWord := rw_ 0 2 4 0 0x200
def sRing (i : Instr) (seq : Nat) : State := withRing seq (withRegs [(2, 0x60000), (4, 0)] (issuing i))
/-- A ring with a stage of the table at 0x90000 whose deadline is 10 clk; its record 0 was published at clk 5, and it is clk 1000. -/
def stageRing (stage expiry : Nat) : Ring := ⟨0x60000, 0x68000, 6, 2, expiry, stage⟩
def takeOp (expiry : Nat) (moving : Option (Ring × Nat)) : RingOp :=
  ⟨.take, ⟨4, 1⟩, 0, 0, some 20, stageRing 1 expiry, 0, moving, (0x40000, 0x40008)⟩
def expiryAt : Ring := ⟨0x64000, 0x6A000, 6, 2, 0, 0xFFFF⟩
def sMissed (o : RingOp) (seq : Nat) : State :=
  poke 0x90048 4 10 (poke 0x68000 8 1 (poke 0x68008 8 5 (poke 0x68010 8 77 (poke 0x64010 8 0x6A000 (poke 0x64018 8 0x602
    (poke 0x64028 8 0xFFFF (poke 0x6A000 8 seq { idle with
      clk := 1000, nextKey := 6, ops := [(5, .ring o)]
      contexts := [(0, { context0 idle with desc := { placedContext with stab := 0x90000 } })] })))))))
def sStage (stage : Nat) : State := poke 0x60028 8 stage (sRing (.rgtake ringW) 1)
def nrecW : RWord := rw_ 0 2 8 0 0x200
def relay : Relay := ⟨0x60000, 4, 100, placedKernel⟩
def sNrec (va : Nat) : State :=
  let s := withRegs [(2, BitVec.ofNat 32 va), (8, 1), (9, 2), (10, 3), (11, 4)] (issuing (.nrec nrecW))
  { s with launches := [(1, { launch1 s with relays := [relay] })] }
def bwpushW : RWord := rw_ 0 2 4 0 0x200
def sBwpush : State := withRegs [(2, 0x60000), (4, 9)] (issuing (.bwpush bwpushW))
def wverW : RWord := rw_ 0 6 0 1 0xE00
/-- Version channel 1 at 0x90040: window 0x100000 of 64 KiB, slots from 0x200000, newest version 5. -/
def sWver (v : Nat) : State :=
  let s := withRegs [(6, BitVec.ofNat 32 v)] (issuing (.wver wverW))
  poke 0x90040 8 0x100000 (poke 0x90048 8 0x10000 (poke 0x90050 8 0x200000 (poke 0x90058 8 0x10000
    (poke 0x90060 8 (5 * 2 ^ 32 + 1) { s with contexts := [(0, { context0 s with desc := { placedContext with vtab := 0x90000 } })] }))))
def versionEntry : VersionEntry := ⟨0x100000, 0x10000, 0x200000, 0x10000, 5, true, true⟩
/-- Products of one row by one column, in slots of eight elements. -/
def mmulW : RWord := rw_ 20 8 4 6 0x200
def mmergeW : RWord := rw_ 20 0 6 0x21 0x200
def mdrainW : RWord := rw_ 20 2 6 1 0x200
def sMatrix (i : Instr) : State :=
  onGroup3 (fun g => { g with cfg := ⟨0x0101, 0x7F7F99, 0, 0⟩ }) (withRegs [(2, 0x60000), (5, 0xA000), (8, 0x60000), (10, 0x61000)] (issuing i))
def mcfgW (sel : Nat) : RWord := rw_ 0 2 0 sel 0xE00
def sMcfg (sel v : Nat) : State := withRegs [(2, BitVec.ofNat 32 v)] (issuing (.mcfg (mcfgW sel)))
def cpyW (c : Nat) : RWord := rw_ 0 8 6 c 0x200
def cpytW : RWord := rw_ 0 8 12 0 0x200
def copyRegs (d n : Nat) : List (Nat × Word32) :=
  [(6, BitVec.ofNat 32 n), (8, BitVec.ofNat 32 d), (10, 0x60000), (12, 256), (13, 0x810F), (14, 256)]
/-- Channel 2 of the context, open, of 64 plain elements and two contributors, its table at 0x90000. -/
def withChannel (s : State) : State :=
  poke 0x90100 8 0x62000 (poke 0x90108 8 0x63000 (poke 0x90128 8 (64 * 2 ^ 32) (poke 0x90130 8 (2 ^ 32 + 2 ^ 20 + 2 ^ 16)
    { s with contexts := [(0, { context0 s with desc := { placedContext with ctab := 0x90000 } })] })))
def fabricRegs (routeLo routeHi len : Nat) : List (Nat × Word32) :=
  [(4, BitVec.ofNat 32 len), (5, 2), (7, 1), (8, 0x60000), (10, BitVec.ofNat 32 routeLo), (11, BitVec.ofNat 32 routeHi)]
def fsendW : RWord := rw_ 0 8 4 0 0x220
def fredW : RWord := rw_ 0 8 4 7 0x200
def sFabric (i : Instr) (lo hi len : Nat) : State :=
  withChannel (poke 0x61000 8 (2 ^ 60 + 24) (poke 0x60004 4 5 (poke 0x60008 4 3 (withRegs (fabricRegs lo hi len) (issuing i)))))
def boxW : RWord := rw_ 20 2 6 0 0x200
def sBox (i : Instr) (bv : Nat) : State := { withRegs [(2, 0x60000), (6, BitVec.ofNat 32 bv)] (issuing i) with mailboxes := [(3, { Mailbox.reset with state := .idle })] }

theorem witness_some {α : Type} {o : Option α} {d : α} (h : o.isSome = true) : o = some (o.getD d) := by
  cases o with
  | none => simp at h
  | some x => rfl

/-- A thread of context 0 that has been created under a key, and its place among the entrants under key 6. -/
def created (k : Nat) : Thread := { blankThread with launch := 1, team := 2, tid := k, state := .caged, pc := 0x40000 }
def entrant : Entrant := ⟨5, 0, placedKernel, 0x40000, 2, 0, some (4, 1), 0⟩
def sEnter (cages : List (Nat × Cage)) : State :=
  onThread4 (fun t => { t with ctrs := [(1, 1)] }) { idle with
    nextKey := 8, threads := idle.threads ++ [(5, created 5)], entrants := [(6, entrant)], cages := cages
    ops := [(7, .emit ⟨4, 1⟩ 6 false)] }
def cage (st : CageState) (threads : List (Nat × Nat)) : Cage := ⟨0, placedKernel, 0x40000, 2, st, 9, 0, 2, threads⟩
def late : Entrant := { entrant with since := 5 }
/-- Thread 8 has come to the same cage before thread 5. -/
def sQueueing : State :=
  let s := sEnter []
  { s with threads := s.threads ++ [(8, created 8)], entrants := [(6, late), (7, { entrant with thread := 8, since := 3 })] }
def sTimer : State := { idle with clk := 9, cages := [(cageKey 0 3, cage .filling [(0, 9)])] }
/-- A full cage of core 0 with two or three threads; the registers of its kernel fit a bay. -/
def smallKernel : KDesc := { placedKernel with regs := 32 }
def bigCage (threads : List (Nat × Nat)) : Cage := ⟨0, smallKernel, 0x40000, 2, .full, 9, 0, 2, threads⟩
def sLaunch (threads : List (Nat × Nat)) : State := { idle with
  nextKey := 8, threads := idle.threads ++ [(5, created 5), (6, created 6), (7, created 7)], cages := [(cageKey 0 3, bigCage threads)] }
/-- Threads 4 and 5 of group 3, ready at the clause of a header. -/
def readyAt (pc : Nat) (s : State) : State := { onThread4 (fun t => { t with state := .ready, pc := pc }) s with ports := [] }
def picked (s : State) : Cand := ⟨4, tgetD 4 blankThread s.threads, group3 s, Header.decode (BitVec.ofNat 64 (header .vector))⟩
def sPick : State := readyAt 0x40000 idle
def sPickBad : State := readyAt 0x40000 (poke 0x40000 8 (header .vector + 1) idle)
def candBad : Cand := { picked sPickBad with header := Header.decode (BitVec.ofNat 64 (header .vector + 1)) }
def sPickBeyond : State := readyAt 0x40010 idle
def stepTrap : TrapInfo := ⟨0x71, 0, 0, 0, 0, none, []⟩
def sDeferred : State := onThread4 (fun t => { t with state := .ready, pc := 0x40000, deferred := [stepTrap] }) { idle with ports := [] }
/-- Thread 4 is trapped; launch 1 is its context's handler, or there is none. -/
def sTrapped (handler : Option Nat) : State :=
  let s := onThread4 (fun t => { t with state := .trapped, trap := some wordTrapInfo }) { idle with ports := [] }
  { s with contexts := [(0, { context0 s with desc := { placedContext with tring := 0x80000 }, handler := handler })] }
def recordWritten : State :=
  (ctxWrite (sTrapped (some 1)) 0 0x80000 (trapRecord (sTrapped (some 1)) (tgetD 4 blankThread (sTrapped (some 1)).threads) wordTrapInfo)).getD idle
def handlerMade : State :=
  (createHandler (recordWritten.onThread 4 fun t => { t with trapSlot := some 0 }) 0 1 placedKernel 0 0 4 0x80000).getD idle
/-- Context 0 with a queue at 0x70000 and one record to admit: the kernel at 0x71000, id 5. -/
def queued (lid kdesc : Nat) : State :=
  let s := poke 0x70000 8 kdesc (poke 0x70030 8 lid { State.reset with retiredQuads := [], nextKey := 9 })
  let s := poke 0x10000 8 0x20001 (poke 0x20000 8 0x30001 (poke 0x30000 8 0x1F s))
  { s with
    glob := { Global.reset with ready := true }
    contexts := [(0, { blankContext with qbase := 0x70000, qlog := 4, tail := 1, state := 1, desc := { placedContext with dies := 1 } })] }
def sQueued : State := queued 5 0
/-- The kernel descriptor of a grid of one team of one thread, at 0x71000. -/
def withKernel (s : State) : State := s
def grid : Launch := { blankLaunch with id := 5, kind := .queued 0, k := smallKernel, order := 8, placed := 0, lastIssue := 0 }
def sWaiting : State := { queued 5 0 with launches := [(8, grid)] }
def sAdmit : State :=
  let s := poke 0x71000 8 0x40000 (poke 0x71008 8 0x40000 (poke 0x71010 8 0x50000 (poke 0x71018 8 (16 * 2 ^ 32) (queued 5 0x71000))))
  let s := poke 0x71020 8 (2 ^ 32 + 32 * 2 ^ 14 + 2 ^ 12 + 2 ^ 6) (poke 0x71028 8 0x421 (poke 0x71030 8 (1 + 2 ^ 32 + 2 ^ 48) s))
  { s with
    tlb := [(0, [⟨0, 0, 2 ^ 30, 0x1F⟩])]
    contexts := [(0, { context0 s with desc := { placedContext with dies := 1, ctab := 0x100000 } })] }
def admitted : Launch := { grid with order := 9, k := { smallKernel with scratch := 0, prog := 1 } }
theorem sAdmit_checked : checkRecord sAdmit 0 sAdmit.nextKey (context0 sAdmit) (context0 sAdmit).head = .ok (admitted, []) := by
  refine witness_ok ?_
  rw [checkRecord, witness_channels (by decide)]
  decide
def admittedIn : State := (placeFirst { sAdmit with nextKey := 10 } 9 admitted).getD idle
/-- A grid of context 0 whose one team has retired. -/
def gridEnded : Launch := { grid with placed := 1, retired := 1 }
def sEnded : State := { queued 5 0 with
  launches := [(8, gridEnded)], teams := [(7, { blankTeam with launch := 8, state := .done })], writers := [((8, 3), (7, 0, none, 1, false))] }
def sClosed : State := poke 0x1008 8 0x0F (poke 0x1000 8 0x10000 { queued 5 0 with contexts := [] })

/-- The package between words, with one operation under key 5. -/
def withOp (x : Op) : State := { poke 0x60000 8 0x1122334455667788 idle with nextKey := 8, ops := [(5, x)] }
def thread4' : Thread := tgetD 4 blankThread idle.threads
def loadOp (kind : LoadKind) (sent : Bool) (filled : Nat) : LoadOp :=
  ⟨kind, 0, 1, 3, 0, false, [⟨4, some 20, 0x60000, .hbm 0x60000, false⟩], [⟨0x600, 1, sent, filled⟩], (0x40000, 0x40008)⟩
def sLoading (kind : LoadKind) (sent : Bool) (filled : Nat) : State := withOp (.load (loadOp kind sent filled))
def storing4 (pa : Nat) : StoreOp :=
  ⟨[⟨4, 1⟩], 0, 0, 2, pa, .hbm pa, [(pa, 1), (pa + 1, 2), (pa + 2, 3), (pa + 3, 4)], some 0, false, none, [pa]⟩
def sStoring (pa : Nat) : State := withOp (.store (storing4 pa))
theorem witness_det {s : State} {team : Nat}
    (h : ((tget team s.teams).all fun tm => (tget tm.launch s.launches).all fun l => !l.k.det) = true) :
    ∀ tm l, tget team s.teams = some tm → tget tm.launch s.launches = some l → l.k.det = false := fun tm l h1 h2 => by
  rw [h1] at h; simpa [h2] using h
def engineOp : StoreOp := { storing4 0x60000 with cs := [] }
def sScale : State := { sStoring 0x60000 with windows := [(0, ⟨0, 1, 4, false, true, 0x700000, 0x60000, 64, 64⟩)] }
def atomMember : AtomMember := ⟨4, 7, 0, some 20⟩
def atomOp : AtomOp := ⟨0, 1, 0, 2, false, 0, 1, 2, false, false, 0x60000, .hbm 0x60000, [atomMember], (0x40000, 0x40008)⟩
def sAtomic : State := withOp (.atom atomOp)
def sInterval : State := { idle with clk := 2 ^ 24, atomCounts := [((3, 1), 70)] }
/-- A request of two members, threads 4 and 5. -/
def atomPair : AtomOp := { atomOp with members := [⟨4, 7, 0, some 20⟩, ⟨5, 9, 0, some 22⟩] }
def sAtomPair : State :=
  let s := withOp (.atom atomPair)
  { s with threads := s.threads ++ [(5, { thread4' with member := 1 })] }
def tileOp (storing : Bool) (phase : TilePhase) : TileOp :=
  ⟨⟨4, 1⟩, 0, 0, 2, 0x60000, [0x60000], storing, 0, false, (0, 0), phase, [[(.hbm 0x60000, 4)]], [(.scratch 0 64, 4)], [9, 8, 7, 6], [0x600],
    (if phase = .data then [0] else []), if phase = .data then [0x600] else [], (0x40000, 0x40008)⟩
def sTile (storing : Bool) (phase : TilePhase) : State := withOp (.tile (tileOp storing phase))
theorem witness_block {s : State} {ps : List (Target × List Byte)} (h : (ps.all fun p => (List.range p.2.length).all fun i =>
    match regionOf s (p.1.pa + i) with
    | (_, .scratchpad _) => true
    | _ => false) = true) : ∀ p ∈ ps, ∀ i, i < p.2.length → ∃ c off, regionOf s (p.1.pa + i) = (c, .scratchpad off) := fun p hp i hi => by
  have h2 := List.all_eq_true.mp (List.all_eq_true.mp h p hp) i (List.mem_range.mpr hi)
  split at h2
  · exact ⟨_, _, by assumption⟩
  · simp at h2
def sDiscard (xs : List Nat) : State := withOp (.disc ⟨⟨4, 1⟩, 0, 0, 2, xs⟩)
def sPrefetch (l1 : Bool) : State := withOp (.pref ⟨⟨4, 1⟩, 0, 0x600, l1⟩)
def sFenced (succ scope : Nat) : State := withOp (.fence ⟨4, 3, succ, scope, []⟩)
def rinvOp : RinvOp := ⟨⟨4, 1⟩, 0, 0, 0x60000, 256, .hbm 0x61000, 0x61000, (0x40000, 0x40008)⟩
def sRinvDone : State := withOp (.rinv rinvOp)
/-- A guest copy of another die holds dirty bytes of the sector. -/
def abroad : StoreOp := { storing4 0x60000 with core := 144, die := some 1, cs := [] }
def sAbroad : State :=
  let s := sDiscard [0x60000]
  { s with ops := s.ops ++ [(6, .store abroad)] }

/-- An open handle of four leaves, all this package's, with plain nodes. -/
def handle4 : Handle := { handle with nm1 := 3, plog := 2, deadline := 100 }
def leafValue (x : Nat) : NodeVal := .val ⟨BitVec.ofNat 32 x, 0⟩
def ctbOp (tested : Bool) : CtbOp := ⟨⟨4, 1⟩, 0, 0, 5, 1, leafValue 0x3F800000, tested, (0x40000, 0x40008)⟩
/-- The bit of a leaf 1 in the map of the handle's leaves, set or not. -/
def sCtb (tested : Bool) (map : Nat) : State :=
  let s := withOp (.ctb (ctbOp tested))
  poke (leafMapVa handle4) 1 map { s with handles := [(handleKey 0 5, handle4)] }
def ctbMarked : State := (ctxWrite (sCtb false 0) 0 (leafByteVa handle4 1) [2]).getD idle
theorem witness_tests {s : State} {op core : Nat} (h : (s.ops.all fun e => match e.2 with
    | .ctb x => decide (op ≤ e.1) || x.tested || decide (x.core ≠ core)
    | _ => true) = true) : ∀ e ∈ s.ops, ∀ x, e.2 = .ctb x → e.1 < op → x.tested = true ∨ x.core ≠ core := fun e he x hx hlt => by
  have := List.all_eq_true.mp h e he
  rw [hx] at this
  simp at this
  rcases this with (h | h) | h
  · omega
  · exact .inl h
  · exact .inr h
def sCtbTrapped : State := onThread4 (fun t => { t with state := .trapped }) (sCtb false 2)
def arriving : PairEntry := ⟨.core 0, .handle 0 5 0 1, .node false (leafValue 0x3F800000), 0, 2, 5, [], [], false, none, false⟩
def kept : PairEntry := { arriving with tag := .handle 0 5 0 0, value := .node false (leafValue 0x40000000), cmd := 0 }
def sArriving (buffers : List (Nat × PairEntry)) : State := { sCtb true 2 with arrivals := [(6, arriving)], buffers := buffers }
def onPort : PairEntry := { arriving with place := .port 3, leaving := true, route := [24], back := [(9, [1])] }
def sAged (e : PairEntry) : State := { sCtb true 2 with clk := 1000, buffers := [(6, e)] }
theorem homeOf_kept : homeOf (sAged arriving) arriving.tag = some ((homeOf (sAged arriving) arriving.tag).getD 0) :=
  witness_some (by decide)
def spilled : Spill := ⟨0, .handle 0 5 0 1, 0x71010, .node false (leafValue 0x3F800000)⟩
def sSpill : State := { sCtb true 2 with spills := [(6, spilled)] }
def spillWritten : State := (ctxWrite sSpill 0 0x71010 (slotBytes (leafValue 0x3F800000))).getD idle
def sSeal (launch : Launch) : State :=
  let s := withOp (.seal ⟨⟨4, 1⟩, 0, 5⟩)
  { s with clk := 200, launches := [(1, launch)], handles := [(handleKey 0 5, handle4)] }
def packet (route : List (BitVec 5)) (body : Payload) : Packet := ⟨route, 9, 0, 2, 0, 0, [(9, [])], 5, body, [], []⟩
def flit (body : Payload) : LinkFlit := ⟨packet [24] body, 9, 1, 7, true⟩
def nodeBody : Payload := .node false 0 1 (leafValue 0x3F800000)
def sLinked (taken : List (Nat × Nat × Nat)) : State := { idle with accepted := taken }
def detourFlit (left : Nat) : LinkFlit := { flit (.flag []) with packet := { packet [24] (.flag []) with detours := [⟨8, 2, 4, left⟩] } }
def flying (route : List (BitVec 5)) (body : Payload) (arrived : Option Nat) : InFlight := ⟨packet route body, 3, arrived⟩
def sFlying (route : List (BitVec 5)) (body : Payload) (arrived : Option Nat) : State :=
  withChannel { idle with nextKey := 7, packets := [(6, flying route body arrived)] }
def casting (second : BitVec 5) : InFlight := ⟨{ packet [5, 24] (.data 0 [1, 2]) with also := [[second, 25]] }, 3, none⟩
def sCasting (second : BitVec 5) : State := { idle with nextKey := 7, packets := [(6, casting second)] }
def sDetour : State := { idle with detours := [(3, BitVec.ofNat 64 (2 ^ 60 + 5))], unacked := [(3, 7, packet [24] (.flag []))] }
def sData : State := sFlying [] (.data 8 [1, 2, 3, 4]) (some 0)
def channelRead (s : State) : Channel × Bool := (readChannel s 0 2).getD (⟨0, 0, 0, 0, 0, 0, 0, 0, 0, 0, 0, false, false, false, false, 0, 0⟩, false)
def dataWritten : State := (ctxWrite sData 0 0x62008 [1, 2, 3, 4]).getD idle
def delivery (body : Payload) : InFlight := ⟨{ packet [] body with seq := 1 }, 3, some 0⟩
/-- A packet at its port, where the packet before it, sequence 0, has been delivered or not. -/
def sDelivery (body : Payload) (before : List Nat) : State :=
  withChannel { idle with
    nextKey := 7, packets := [(6, delivery body)]
    delivered := if before = [] then [] else [((0, 9, 0, 2), before)] }
def flagged : State := (deliverAdd (sDelivery (.flag [(0, [])]) [0]) 0 0x63000 1).getD idle
def fabricOp : FabricOp := ⟨[⟨4, 1⟩], 4, some 3, 0, 0, 2, 0, 0, 1, 1, 0, 0, [], [], [], 0, none, []⟩
def acked : InFlight := flying [] (.ack 5 false) (some 0)
def sAcked : State := { withOp (.fabric fabricOp) with packets := [(6, acked)] }
def sNotice : State := sFlying [] .notice (some 0)
/-- The table entry of channel 0 of context 0: open, with gradients, a deadline of one clk, and the package of its root. -/
def rootChannel (pkg : Nat) : Channel := ⟨0, 0, 0, 0, 0, 0, 1, pkg, 0, 0, 0, true, false, false, true, 0, 0⟩
def sRootOf (p q : Byte) : State :=
  let s := { State.reset with retiredQuads := [], clk := 9, tlb := [(0, [⟨0, 0, 2 ^ 30, 0x1F⟩])] }
  { s with
    l2 := [(0x100028, 1), (0x100032, 9), (0x100036, p), (0x100037, q)]
    contexts := [(0, { blankContext with state := 1, desc := { placedContext with dies := 1, ctab := 0x100000 } })]
    channels := [(0, ⟨0, [], some 3, [(0, 3, 0)], none, [], [], [], [], [], []⟩)] }
def rootBytes (p q : Byte) : List Byte :=
  List.replicate 40 0 ++ [1] ++ List.replicate 9 0 ++ [9] ++ List.replicate 3 0 ++ [p, q] ++ List.replicate 72 0
theorem rootBytes_read (p q : Byte) : ctxRead (sRootOf p q) 0 0x100000 128 = some (rootBytes p q) := by
  have hc : tget 0 (sRootOf p q).contexts = some { blankContext with state := 1, desc := { placedContext with dies := 1, ctab := 0x100000 } } := rfl
  have hf : firstDie (sRootOf p q) 0 = 0 := by rw [firstDie, hc]; decide
  rw [witness_read ⟨rfl, hf, rfl, rfl, rfl⟩ 0x100000 (by omega) (by omega)]
  rfl
theorem rootBytes_word (p q : Byte) : leValue (((rootBytes p q).drop (8 * 6)).take 8) = 9 * 2 ^ 16 + (p.toNat + 256 * q.toNat) * 2 ^ 48 := by
  have : ((rootBytes p q).drop (8 * 6)).take 8 = [0, 0, 9, 0, 0, 0, p, q] := rfl
  rw [this]
  simp [leValue]
  omega
theorem rootBytes_part (p q : Byte) (n : Nat) (h : n < 16) (h6 : n ≠ 6) :
    ((rootBytes p q).drop (8 * n)).take 8 = if n = 5 then [1, 0, 0, 0, 0, 0, 0, 0] else [0, 0, 0, 0, 0, 0, 0, 0] := by
  have : n = 0 ∨ n = 1 ∨ n = 2 ∨ n = 3 ∨ n = 4 ∨ n = 5 ∨ n = 7 ∨ n = 8 ∨ n = 9 ∨ n = 10 ∨ n = 11 ∨ n = 12 ∨ n = 13 ∨ n = 14 ∨
    n = 15 := by omega
  rcases this with rfl | rfl | rfl | rfl | rfl | rfl | rfl | rfl | rfl | rfl | rfl | rfl | rfl | rfl | rfl <;> rfl
theorem rootBytes_other (p q : Byte) (n : Nat) (h : n < 16) (h6 : n ≠ 6) :
    leValue (((rootBytes p q).drop (8 * n)).take 8) = if n = 5 then 1 else 0 := by
  rw [rootBytes_part p q n h h6]
  split <;> decide
theorem sRootOf_channel (p q : Byte) : readChannel (sRootOf p q) 0 0 = some (rootChannel (p.toNat + 256 * q.toNat), true) := by
  have hc : ((tget 0 (sRootOf p q).contexts).map (·.desc.ctab)).getD 0 = 0x100000 := rfl
  rw [readChannel, hc]
  have hp := p.isLt
  have hq := q.isLt
  have h6 := rootBytes_word p q
  have ho := rootBytes_other p q
  simp only [Nat.mul_zero, Nat.add_zero, rootBytes_read]
  generalize rootBytes p q = bs at h6 ho
  have hall : ((List.range 7).all fun i => decide (leValue (List.take 8 (List.drop (8 * (9 + i)) bs)) = 0)) = true := by
    rw [List.all_eq_true]
    intro i hi
    have := List.mem_range.mp hi
    rw [ho _ (by omega) (by omega), if_neg (by omega)]
    decide
  have hz : ∀ n, n < 16 → n ≠ 5 → n ≠ 6 → leValue ((bs.drop (8 * n)).take 8) = 0 := fun n h h5 h6 => by rw [ho n h h6, if_neg h5]
  have h5 := ho 5 (by omega) (by omega)
  rw [if_pos rfl] at h5
  have h0 := hz 0 (by omega) (by omega) (by omega)
  simp only [Nat.mul_zero] at h0
  simp only [h0, hz 1 (by omega) (by omega) (by omega), hz 2 (by omega) (by omega) (by omega), hz 3 (by omega) (by omega) (by omega),
    hz 4 (by omega) (by omega) (by omega), h5, hz 7 (by omega) (by omega) (by omega), h6, hall]
  clear h6 ho hall h0 h5 hz
  generalize hg : p.toNat + 256 * q.toNat = v
  have hv : v < 65536 := by omega
  have b1 : bits (9 * 2 ^ 16 + v * 2 ^ 48) 48 16 = v := by simp only [bits]; omega
  have b2 : bits (9 * 2 ^ 16 + v * 2 ^ 48) 32 16 = 0 := by simp only [bits]; omega
  have b3 : bits (9 * 2 ^ 16 + v * 2 ^ 48) 24 8 = 0 := by simp only [bits]; omega
  have b4 : bits (9 * 2 ^ 16 + v * 2 ^ 48) 20 4 = 0 := by simp only [bits]; omega
  have b5 : bits (9 * 2 ^ 16 + v * 2 ^ 48) 11 5 = 0 := by simp only [bits]; omega
  have b6 : bits (9 * 2 ^ 16 + v * 2 ^ 48) 0 11 = 0 := by simp only [bits]; omega
  have t1 : bit (9 * 2 ^ 16 + v * 2 ^ 48) 19 = true := by simp only [bit]; simp; omega
  have t2 : bit (9 * 2 ^ 16 + v * 2 ^ 48) 18 = false := by simp only [bit]; simp; omega
  have t3 : bit (9 * 2 ^ 16 + v * 2 ^ 48) 17 = false := by simp only [bit]; simp; omega
  have t4 : bit (9 * 2 ^ 16 + v * 2 ^ 48) 16 = true := by simp only [bit]; simp; omega
  simp only [b1, b2, b3, b4, b5, b6, t1, t2, t3, t4]
  rfl
def sRoot : State := sRootOf (BitVec.ofNat 8 Config.packageNumber) (BitVec.ofNat 8 (Config.packageNumber / 256))
theorem sRoot_channel : readChannel sRoot 0 0 = some (rootChannel Config.packageNumber, true) := by
  have hp : Config.packageNumber < 65536 := Config.package.isLt
  rw [sRoot, sRootOf_channel]
  congr 3
  simp
  omega
theorem rootChannel_isRoot : (rootChannel Config.packageNumber).isRoot = true := decide_eq_true rfl
/-- Context 0 with two governed stages, stage 0 short of workers, stage 1 with room for fewer; the entries past them have no canonical
address. -/
def stageAt (n ring workers : Nat) (s : State) : State :=
  poke (0x3FFFFF80 + 64 * n) 8 ring (poke (0x3FFFFF98 + 64 * n) 8 (8 * 2 ^ 48 + 1 * 2 ^ 32 + 2 * 2 ^ 16 + 1) (poke (0x3FFFFFA0 + 64 * n) 8 (workers * 2 ^ 32 + 1) s))
def ringOf (desc base res take : Nat) (s : State) : State :=
  poke desc 8 res (poke (desc + 8) 8 take (poke (desc + 0x10) 8 base (poke (desc + 0x18) 8 0x602 s)))
/-- The move of a worker from stage 1 to stage 0, its record to go to index 0 of the ring of stage 1. -/
def roleMove : RoleMove := ⟨1, 0, ⟨0x61000, 0x69000, 6, 2, 0, 0⟩, 0, 0x60000⟩
def sStages (rests : List (Nat × Nat)) (move : Option RoleMove) : State :=
  let s := { State.reset with retiredQuads := [], clk := 4096, tlb := [(0, [⟨0, 0, 2 ^ 30, 0x1F⟩, ⟨0, 2 ^ 56 - 2 ^ 30, 2 ^ 30, 0x1F⟩])] }
  let s := stageAt 0 0x60000 2 (stageAt 1 0x61000 4 (ringOf 0x60000 0x68000 5 0 (ringOf 0x61000 0x69000 0 0 s)))
  let d := { placedContext with dies := 1, stab := 2 ^ 56 - 128 }
  { s with contexts := [(0, { blankContext with state := 1, rests := rests, foremanMove := move, desc := d })] }
def contextOf (s : State) : Context := tgetD 0 blankContext s.contexts
/-- The donor's ring has its slot free, or not. -/
def sPublish (seq : Nat) : State := poke 0x69000 8 seq (sStages [] (some roleMove))
/-- Context 0 with a winze header at 0xB0000, records at 0xC0000 whose backward kernel lies at 0x71000. -/
def sWinze (top target : Nat) (drain : Option Drain) (launches : List (Nat × Launch)) : State :=
  let s := { State.reset with retiredQuads := [], nextKey := 9, launches := launches, tlb := [(0, [⟨0, 0, 2 ^ 30, 0x1F⟩])] }
  let s := poke 0xB0000 8 0xC0000 (poke 0xB0010 8 top (poke 0xB0018 8 target s))
  let s := poke 0xC0000 8 0x71000 (poke 0xC0008 8 7 (poke 0xC0010 8 5 (poke 0xC0018 8 1 s)))
  let s := poke 0x71000 8 0x40000 (poke 0x71008 8 0x40000 (poke 0x71010 8 0x50000 (poke 0x71018 8 (16 * 2 ^ 32) s)))
  let s := poke 0x71020 8 (2 ^ 32 + 32 * 2 ^ 14 + 2 ^ 12 + 2 ^ 6) (poke 0x71028 8 0x421 (poke 0x71030 8 (1 + 2 ^ 32 + 2 ^ 48) s))
  let d := { placedContext with dies := 1, wz := 0xB0000, ctab := 0x100000 }
  { s with contexts := [(0, { blankContext with state := 1, targeted := true, drain := drain, desc := d })] }
def recordOf : Nat × Nat × Nat × Nat × Nat := (0x71000, 7, 5, 1, 0)
def sBatch : State := sWinze 1 0 none []
def batchLaunch : Launch := { blankLaunch with id := backwardId 5 0x71000, kind := .backward [(7, 5, 1, 0)], order := 9, placed := 0, k := { smallKernel with scratch := 0, prog := 1 }, lastIssue := 0 }
theorem sBatch_launch : backwardLaunch (({ sBatch with nextKey := sBatch.nextKey + 1 }).onContext 0 fun c => { c with targeted := false })
    0 sBatch.nextKey 0x71000 (winzeRun sBatch 0 0xC0000 0x71000 5 1 0) = .ok batchLaunch := by
  refine witness_ok ?_
  rw [backwardLaunch, witness_channels (by decide)]
  decide
def ended (status : Nat) : Launch := { batchLaunch with status := some status }
def sBatchEnds (status : Nat) : State := sWinze 1 0 (some ⟨0xC0000, some 8, 1⟩) [(8, ended status)]
def popped : State := (ctxWrite (sBatchEnds 1) 0 0xB0010 (leBytes 8 0)).getD idle

/-- A command of one row by one column on core 0, running since clk 0 with its step due at clk 3. -/
def command (steps : List MatrixStep) (pins : List PassPins) : MatrixEntry where
  entry := 0
  seq := 1
  ctx := 0
  team := 2
  launch := 1
  poster := 4
  counted := [⟨4, 1⟩]
  tid := 0
  launchId := 0
  core := 0
  cores := [0]
  age := (0, 6)
  state := .running
  preds := []
  kind := .mmerge 1 2 3
  cfg := ⟨0x0101, 0x7F7F99, 0, 0⟩
  a := ⟨0x60000, [], none⟩
  b := ⟨0x60000, [], none⟩
  steps := steps
  fmtA := none
  fmtB := none
  carry := []
  pins := pins
  due := some 3
  status := 0
  bad := none
  mismatch := none
def sCommand (e : MatrixEntry) : State := { idle with clk := 9, nextKey := 8, matrix := [(matrixKey 0 0, e)] }
def pinned : PassPins := ⟨[0x600], [[0x40000000, 0x40400000]], [[0x3F800000, 0x3F000000]], 3, none, none⟩
def passing : MatrixEntry := command [.pass 1 0 3 (some 5)] [pinned]
def merging : MatrixEntry := command [.merge 1 2 3] []
def spent : MatrixEntry := command [] []
def copyOp (pieces : List (Nat × Nat × Nat)) : CopyOp where
  cs := [⟨4, 1⟩]
  poster := 4
  core := 0
  ctx := 0
  team := 2
  tid := 0
  launchId := 0
  rows := [(0x60004, 0x70010, 4)]
  pieces := pieces
  failed := []
  dst := [(6, .hbm 0x60000)]
  src := [(7, .hbm 0x70000)]
  total := 4
  barrier := none
  status := 0
  bad := none
def sCopying (pieces : List (Nat × Nat × Nat)) : State := poke 0x70010 4 0x04030201 (withOp (.copy (copyOp pieces)))
def drainOp : DrainOp := ⟨6, 0, 0, 2, [(0x60000, .hbm 0x60000, [1, 2, 3])]⟩
def sDraining : State := withOp (.drain drainOp)
theorem witness_noStores {s : State} {op : Nat} (h : (s.ops.all fun e => match e.2 with
    | .store x => decide (x.cmd ≠ some op)
    | _ => true) = true) : ∀ e ∈ s.ops, ∀ x, e.2 = .store x → x.cmd ≠ some op := fun e he x hx => by
  have := List.all_eq_true.mp h e he
  rw [hx] at this
  simpa using this
theorem witness_groups {s : State} (h : (s.groups.all fun e => decide (e.2.state ≠ .draining)) = true) :
    ∀ e ∈ s.groups, e.2.state ≠ .draining := fun e he => by simpa using List.all_eq_true.mp h e he
def windowAt (en busy : Bool) (fmt : Nat) : Window := ⟨0, 0, fmt, busy, en, 0x600000, 0, 64, 64⟩
def sWindow (x : Window) : State := { idle with glob := { Global.reset with ready := true }, windows := [(3, x)] }
def sPurging : State := poke 0x60000 8 77 (sWindow { windowAt false true 2 with base := 0x60000 })
def sPinned : State := { sWindow { windowAt false true 2 with base := 0x60000 } with matrix := [(matrixKey 0 0, passing)] }
theorem witness_noHold {s : State} (h : (s.dies.all fun e => e.2.holds.isEmpty) = true) (a : Nat) : bankHeld s a = false := by
  have : (s.die (a / dieHbmBytes)).holds = [] := by
    rw [State.die, tgetD]
    cases hd : tget (a / dieHbmBytes) s.dies with
    | none => rfl
    | some d => simpa using witness_table (p := fun _ (d : DieCtl) => d.holds.isEmpty = true) (by simpa using h) _ d hd
  rw [bankHeld, this]
  rfl
theorem witness_noWait {s : State} {die ctx va : Nat} (h : (s.dies.all fun e => e.2.holds.isEmpty) = true) :
    walkWaits s die ctx va = false := List.any_eq_false.mpr fun a _ => by simp [witness_noHold h a]
/-- The bank of the first entry of the page table is held. -/
def sWalkHeld : State := { idle with dies := [(0, { DieCtl.reset with holds := [((controllerOf 0x10000, bankOf 0x10000), 100)] })] }
theorem sWalkHeld_waits : walkWaits sWalkHeld 0 0 (0x60010 : Word64).toNat = true :=
  List.any_eq_true.mpr ⟨0x10000, by decide, by
    rw [bankHeld, List.any_eq_true]
    exact ⟨_, List.mem_singleton.mpr rfl, by simp; decide⟩⟩
def sWalker (busy : Bool) : State := { idle with
  glob := { Global.reset with ready := true }
  tlb := [(0, [⟨0, 0, 2 ^ 30, 0x1F⟩])]
  dies := [(0, { DieCtl.reset with npg := 4, busy := busy })] }

/-- An episode descriptor in the carve-out of die 0, with images of 4 KiB and the arena of tag 0. -/
def episode : Episode := ⟨0x4000000, 0x4001000, 0x1000, 0x1000, 0, 16, 5, 4096, 0, true⟩
def mailboxAt (st : MbState) (order : Nat := 0) : Mailbox :=
  { Mailbox.reset with state := st, order := order, episode := if st = .idle ∨ st = .unbound then none else some episode }
def sMailbox (st : MbState) (x : Mailbox := mailboxAt st) : State := { idle with
  glob := { Global.reset with ready := true }
  mailboxes := [(3, x)]
  arenas := [(0, (0x2000000, 20))]
  dies := [(0, { DieCtl.reset with cbase := 0, clen := 2 ^ 30 })] }
def sendOp : SendOp := ⟨⟨4, 1⟩, 0, some 20, 3, [1, 2, 3], 9⟩
def sSending (st : MbState) : State := { sMailbox st { mailboxAt st with sends := [5] } with nextKey := 8, ops := [(5, .send sendOp)] }
def recvOp : RecvOp := ⟨⟨4, 1⟩, 0, 0, some 20, 3, 0x60000, [(.hbm 0x60000, 256)], (0x40000, 0x40008)⟩
def observation : SlotHdr := ⟨2, 9, 3, false, false, 8⟩
def sReceiving : State := { sMailbox .running { mailboxAt .running with recvs := [5], observations := [observation] } with
  nextKey := 8, ops := [(5, .recv recvOp)] }
/-- The environment of the mailbox waits in WFI. -/
def sWaking : State := { sSending .running with harts := [(2, { Hart.reset with mailbox := some 3, wfi := true })] }
/-- Hart 2 of die 0 runs the episode of mailbox 3. -/
def sHart (x : Mailbox) (h : Hart) : State := { sMailbox .running x with
  harts := [(2, { enterImage h 0x2000000 20 0x4000000 0x1000 16 episode with mailbox := some 3, cycLeft := h.cycLeft })] }
def action : SlotHdr := ⟨0, 9, 0, false, false, 3⟩
def holding : Hart := { Hart.reset with held := some action, cycLeft := 100 }
def checking : Hart := { Hart.reset with checker := true, cycLeft := 100 }
/-- A hart whose pc lies outside its image. -/
def sLost : State := { sMailbox .running with harts := [(2, { Hart.reset with mailbox := some 3 })] }
/-- An environment whose window of observations is full. -/
def fullBox : Mailbox := { mailboxAt .running with observations := List.replicate 63 observation }
/-- The hart's next word, at its entry point. -/
def sCode (w : Nat) : State := poke 0x4000010 4 w (sHart (mailboxAt .running) holding)

/-- Context 0 with room in its save pool; team 2 runs, is being saved, or has been saved. -/
def withPool (s : State) : State :=
  { s with contexts := [(0, { context0 s with desc := { placedContext with save := 0x1000000, savelen := 0x1000000, dies := 1 } })] }
def sRunning : State :=
  onTeam2 (fun t => { t with state := .running }) { withPool idle with launches := [(1, { launch1 idle with kind := .queued 0 })] }
def sSaving : State :=
  (advanceSaves ((chooseTeam { sRunning with ports := [] } 2).getD idle)).onThread 4 fun t => { t with state := .ready, pc := 0x40000 }
def sSaved : State := match execTeamSaved 2 sSaving with
  | .next s => s
  | _ => idle
def resumed : State := ((openDies sSaved 0).findSome? (fun die => restoreOnDie die (some sSaved) 2)).getD idle
def requested (s : State) (cores : Nat) : State := { s with requests := [⟨cores, 5, none⟩] }
def sPeriod : State := { idle with clk := 12000005, residual := [⟨1, [0, 1], [], some 12000000⟩] }
def sStill : State := { idle with clk := 2 ^ 27, launches := [(1, { launch1 idle with kind := .queued 0 })] }
def closing : Interval := ⟨[], [], [], [], [], (0, 0), false, false, true, 0, false⟩
def sClosing : State := onTeam2 (fun t => { t with interval := some closing }) idle
theorem witness_quad {s : State} {q : Nat} (h : (s.cages = [] ∧ s.entrants = []) ∧
      teamsOn s (4 * q) = [] ∧ teamsOn s (4 * q + 1) = [] ∧ teamsOn s (4 * q + 2) = [] ∧ teamsOn s (4 * q + 3) = []) :
    ∀ c, c / 4 = q → teamsOn s c = [] ∧ (∀ e ∈ s.cages, e.1 / 64 ≠ c) ∧ ∀ e ∈ s.entrants, e.2.core ≠ c := fun c hc => by
  obtain ⟨⟨hg, he⟩, h0, h1, h2, h3⟩ := h
  have : c = 4 * q ∨ c = 4 * q + 1 ∨ c = 4 * q + 2 ∨ c = 4 * q + 3 := by omega
  rcases this with rfl | rfl | rfl | rfl <;> simp_all
theorem witness_teamStores {s : State} {team : Nat} (h : s.ops = []) :
    ∀ o ∈ s.ops, (∀ x, o.2 = .store x → x.team ≠ team) ∧ ∀ x, o.2 = .tile x → x.storing = true → x.team ≠ team := fun o ho => by
  rw [h] at ho; cases ho
def sFrozen : State := { idle with frozen := [(.core, 3), (.hart, 9)], cores := [(3, { idle.core 3 with frozen := true })] }
def assay : Assay := ⟨[(0x60000, 256)], 0x62000, 64, 32⟩
def sampled1 : Launch := { launch1 idle with kind := .queued 0, assay := some assay, unsampled := [(0, 0)] }
def oldSample : Sample := ⟨6, 7, 0, 0, [], none, [], false, 0x62000, 32⟩
def sFinished (n : Nat) : State := { idle with
  launches := [(1, sampled1)], samples := (List.range n).map fun i => (i + 20, { oldSample with team := i }), nextKey := 100 }
def replaying (bad : Bool) : Sample := ⟨1, 0, 0, 0, List.replicate 32 0, some 8, [], bad, 0x62000, 32⟩
def sReplayed (bad : Bool) : State := { idle with
  launches := [(1, sampled1), (8, { sampled1 with kind := .replay 20 })], samples := [(20, replaying bad)], nextKey := 100
  teams := [(9, { blankTeam with launch := 8, state := .done, replay := some 20 })] }
def sRows : State := { idle with dies := [(1, { DieCtl.reset with rows := [((2, 3, 4), 5000)], holds := [((2, 5), 0)], alerts := 6 })] }
def sCounters : State := { sRows with glob := { Global.reset with asamp := 3, adrop := 4, aunver := 5 } }
def sReadyCounters : State := { sRows with glob := { Global.reset with ready := true, adrop := 4 } }
def sStarting (n : Nat) (warm : Bool) : State := { poke 0x60000 8 7 idle with glob := { Global.reset with step := n, warm := warm, calok := warm } }
def sReady : State := { idle with glob := { Global.reset with ready := true, step := 0 } }
def sWriting : State := { sStoring 0x60000 with glob := { Global.reset with step := 6 } }
def sSpdm (stage : Nat) : State := { sReady with spdm := ⟨stage⟩ }
def sHost : State := { poke 0x60000 8 7 idle with glob := { Global.reset with ready := true, wbase := 0x60000 } }



/-! ## Witnesses -/

/-- R315: an uncorrectable error poisons a word of the scratchpad. -/
theorem test_word_error_poisons : (wordError idle (onchipPa 0 0x100) false).poison = [onchipPa 0 0x100] := by decide

/-- R315: register v2 of member 0 of a group at slot 0 of core 0, bay 0 is row 2 of slot 0; writing it clears its poison, and
writing v3 does not. -/
theorem test_row_poison_clears :
    (writeReg { idle with poison := [onchipPa 0 0x400008] } 4 2 7).poison = [] ∧
    (writeReg { idle with poison := [onchipPa 0 0x400008] } 4 3 7).poison = [onchipPa 0 0x400008] := by decide

/-- R317: a class 3 error terminates every context, reaches the host as a fatal error, and nothing after it does. -/
theorem test_ownerless_error_contains :
    let s := ownerlessError idle 0 4 0 false
    s.host = [.aer 3] ∧ (toHost s .unsupported).host = [.aer 3] ∧ s.threads = [] := by decide


/-- R277: words of RV64GC, Zba, Zbb and Zicond, as RISC-V encodes them: ADDI, LD, SD, SH1ADD, CZERO.EQZ, REV8, CSRRW of AEND, and
C.ADDI and C.LDSP. -/
theorem test_decodes_hart_words :
    decodeRv32 0x00700293 = some (.alu .add 64 5 0 (.imm 7)) ∧ decodeRv32 0x0085B503 = some (.load 8 true 10 11 8) ∧
    decodeRv32 0xFEA13C23 = some (.store 8 2 10 (2 ^ 64 - 8)) ∧ decodeRv32 0x207322B3 = some (.alu (.shAdd 1) 64 5 6 (.reg 7)) ∧
    decodeRv32 0x0E7352B3 = some (.alu .czeroEqz 64 5 6 (.reg 7)) ∧ decodeRv32 0x6B835293 = some (.alu .rev8 64 5 6 (.imm 0)) ∧
    decodeRv32 0x80229073 = some (.csr .rw 0x802 0 (.reg 5) true) ∧
    decodeRvc 0x147D = some (.alu .add 64 8 8 (.imm (2 ^ 64 - 1))) ∧ decodeRvc 0x60A2 = some (.load 8 true 1 2 8) := by decide
theorem test_compute_words_queue_their_result :
    ∃ i : Instr, ∃ c : Compute, ∃ s : State, ∃ u : Issuing, computes i = some c ∧ (∀ d, c.dst = some d → d < 384) ∧ Issues s u
      i c.lat 7 := by
  refine ⟨addW, (plan addW), sAdd, (issuer addW), ?_, ?_, ?_⟩ <;>
    first
      | decide | exact witness_issues (by decide) | exact witness_table (by decide) | exact witness_option (by decide) | rfl
      | exact fun d h => by injection h with h; subst h; decide

theorem test_unassigned_opcodes_trap :
    ∃ s : State, ∃ core : Nat, ∃ bay : Nat, ∃ p : Port, ∃ pt : PortState, ∃ c : Sys2Proof.Class, ∃ x : Nat, ∃ k : Nat, ∃ t :
      Thread, tget (portKey core bay p) s.ports = some pt ∧ portReady s core bay pt = true ∧ pt.members.head? = some k ∧ tget k
      s.threads = some t ∧ codeHeld s t (wordAddr pt.hdr pt.pos) 8 = false ∧ fetchCode s t (wordAddr pt.hdr pt.pos) = .ok x ∧
      Class.ofBits pt.cls = some c ∧ decodeWord c (BitVec.ofNat 64 x) = .error .unassignedOpcode ∧ stepHold s ⟨core, bay, p,
      pt.hdr, pt.pos, pt.members⟩ = false ∧ pt.members.any (testHold s) = false := by
  refine ⟨sOpcode, 0, 0, .c, (portAt .system), .system, (0x05 * 2 ^ 56), 4, (tgetD 4 blankThread sOpcode.threads), ?_, ?_, ?_,
    ?_, ?_, ?_, ?_, ?_, ?_, ?_⟩ <;>
    first
      | decide | rfl

theorem test_static_checks_stop_every_thread :
    ∃ i : Instr, ∃ s : State, ∃ u : Issuing, ∃ c : Nat, (encode i).isSome ∧ s.issuing = some u ∧ i.staticCause = some c ∧
      earlierWord s u = false := by
  refine ⟨badTypeW, (issuing badTypeW), (issuer badTypeW), 1, ?_, ?_, ?_, ?_⟩ <;> decide

theorem test_register_checks_beyond_the_allocation :
    ∃ i : Instr, ∃ c : Compute, ∃ s : State, ∃ u : Issuing, ∃ k : Nat, ∃ t : Thread, computes i = some c ∧ s.issuing = some u ∧
      i.staticCause = none ∧ commonHold s u i c.lat 7 = false ∧ s.samples = [] ∧ s.poison = [] ∧ k ∈ u.members ∧ tget k
      (beginWord s u i).threads = some t := by
  refine ⟨addW, (plan addW), sBeyond, (issuer addW), 4, (thread4 sBeyond addW), ?_, ?_, ?_, ?_, ?_, ?_, ?_, ?_⟩ <;>
    first
      | decide | rfl

theorem test_register_checks_before_the_value :
    ∃ i : Instr, ∃ c : Compute, ∃ s : State, ∃ u : Issuing, ∃ k : Nat, ∃ t : Thread, computes i = some c ∧ s.issuing = some u ∧
      i.staticCause = none ∧ commonHold s u i c.lat 7 = false ∧ s.samples = [] ∧ s.poison = [] ∧ k ∈ u.members ∧ tget k
      (beginWord s u i).threads = some t := by
  refine ⟨addW, (plan addW), sUnready, (issuer addW), 4, (thread4 sUnready addW), ?_, ?_, ?_, ?_, ?_, ?_, ?_, ?_⟩ <;>
    first
      | decide | rfl

theorem test_register_checks_in_a_locked_row :
    ∃ i : Instr, ∃ c : Compute, ∃ s : State, ∃ u : Issuing, ∃ k : Nat, ∃ t : Thread, computes i = some c ∧ s.issuing = some u ∧
      i.staticCause = none ∧ commonHold s u i c.lat 7 = false ∧ s.samples = [] ∧ s.poison = [] ∧ k ∈ u.members ∧ tget k
      (beginWord s u i).threads = some t := by
  refine ⟨addW, (plan addW), sLocked, (issuer addW), 4, (thread4 sLocked addW), ?_, ?_, ?_, ?_, ?_, ?_, ?_, ?_⟩ <;>
    first
      | decide | rfl

theorem test_memory_word_beyond_the_allocation :
    ∃ i : Instr, ∃ s : State, ∃ u : Issuing, ∃ k : Nat, ∃ t : Thread, ∃ x : Nat, (encode i).isSome ∧ s.issuing = some u ∧
      u.members = [k] ∧ i.staticCause = none ∧ s.samples = [] ∧ Calm s ∧ NoInterval s t.team ∧ tget k (beginWord s u i).threads
      = some t ∧
    let b := beginWord s u i
    registerCause b i k t = some x := by
  refine ⟨stoppedW, (sStopped 16 false []), (issuer stoppedW), 4, (thread4 (sStopped 16 false []) stoppedW), 3, ?_, ?_, ?_,
    ?_, ?_, ?_, ?_, ?_, ?_⟩ <;>
    first
      | decide | exact witness_calm (by decide) | exact witness_noInterval (by decide)

theorem test_memory_word_before_the_value :
    ∃ i : Instr, ∃ s : State, ∃ u : Issuing, ∃ k : Nat, ∃ t : Thread, ∃ x : Nat, (encode i).isSome ∧ s.issuing = some u ∧
      u.members = [k] ∧ i.staticCause = none ∧ s.samples = [] ∧ Calm s ∧ NoInterval s t.team ∧ tget k (beginWord s u i).threads
      = some t ∧
    let b := beginWord s u i
    registerCause b i k t = some x := by
  refine ⟨stoppedW, (sStopped 384 true []), (issuer stoppedW), 4, (thread4 (sStopped 384 true []) stoppedW), 5, ?_, ?_, ?_,
    ?_, ?_, ?_, ?_, ?_, ?_⟩ <;>
    first
      | decide | exact witness_calm (by decide) | exact witness_noInterval (by decide)

theorem test_memory_word_in_a_locked_row :
    ∃ i : Instr, ∃ s : State, ∃ u : Issuing, ∃ k : Nat, ∃ t : Thread, ∃ x : Nat, (encode i).isSome ∧ s.issuing = some u ∧
      u.members = [k] ∧ i.staticCause = none ∧ s.samples = [] ∧ Calm s ∧ NoInterval s t.team ∧ tget k (beginWord s u i).threads
      = some t ∧
    let b := beginWord s u i
    registerCause b i k t = some x := by
  refine ⟨stoppedW, (sStopped 384 false [(0, 0, 0, 20, 9)]), (issuer stoppedW), 4,
    (thread4 (sStopped 384 false [(0, 0, 0, 20, 9)]) stoppedW), 0x14, ?_, ?_, ?_, ?_, ?_, ?_, ?_, ?_, ?_⟩ <;>
    first
      | decide | exact witness_calm (by decide) | exact witness_noInterval (by decide)

theorem test_step_runs_the_decoded_word :
    ∃ s : State, ∃ core : Nat, ∃ bay : Nat, ∃ p : Port, ∃ more : List Turn, ∃ pt : PortState, ∃ k : Nat, ∃ t : Thread, ∃ i :
      Instr,
    let s0 : State := { s with agenda := more, issuing := none }
    s.agenda = .port core bay p :: more ∧ tget (portKey core bay p) s.ports = some pt ∧ portReady s0 core bay pt = true ∧
      pt.members.head? = some k ∧ tget k s.threads = some t ∧ codeHeld s0 t (wordAddr pt.hdr pt.pos) 8 = false ∧ wordAt s0 t pt
      = .ok i := by
  refine ⟨sPort, 0, 0, .va, [], (portAt .vector), 4, (tgetD 4 blankThread sPort.threads), addW, ?_, ?_, ?_, ?_, ?_, ?_,
    ?_⟩ <;>
    first
      | decide | rfl

theorem test_words_are_read_at_their_position :
    ∃ s : State, ∃ t : Thread, ∃ pt : PortState, ∃ c : Sys2Proof.Class, ∃ x : Nat, Class.ofBits pt.cls = some c ∧ fetchCode s t
      (wordAddr pt.hdr pt.pos) = .ok x := by
  refine ⟨sPort, (tgetD 4 blankThread sPort.threads), (portAt .vector), .vector, 0x040A004040073000, ?_, ?_⟩ <;>
    first
      | decide | rfl

theorem test_step_runs_the_event :
    ∃ s : State, ∃ i : Instr, ∃ more : List Turn, s.agenda = .event i :: more := by
  refine ⟨sEvent, .clusterPlace, [], ?_⟩ <;> decide

theorem test_uniform_writes_need_whole_groups_0 :
    ∃ i : Instr, ∃ c : Compute, ∃ s : State, ∃ u : Issuing, ∃ d : Nat, computes i = some c ∧ c.dst = some d ∧ 384 ≤ d ∧ Issues
      s u i c.lat 7 := by
  refine ⟨uniW, (plan uniW), sUni, (issuer uniW), 384, ?_, ?_, ?_, ?_⟩ <;>
    first
      | decide | exact witness_issues (by decide) | rfl

theorem test_uniform_writes_of_a_part_of_a_group :
    ∃ i : Instr, ∃ c : Compute, ∃ s : State, ∃ u : Issuing, ∃ d : Nat, computes i = some c ∧ c.dst = some d ∧ 384 ≤ d ∧ Issues
      s u i c.lat 7 := by
  refine ⟨uniW, (plan uniW), sUniPart, (issuer uniW), 384, ?_, ?_, ?_, ?_⟩ <;>
    first
      | decide | exact witness_issues (by decide) | rfl

theorem test_uniform_writes_need_whole_groups_1 :
    ∃ t : Thread, ∃ t' : Thread, ∃ r : Nat, 384 ≤ r ∧ t.group = t'.group := by
  refine ⟨(thread4 sUni uniW), { thread4 sUni uniW with member := 1 }, 384, ?_, ?_⟩ <;> decide

theorem test_paired_words_read_before_they_write :
    ∃ w : PWord, ∃ s : State, ∃ u : Issuing, Issues s u (.pairedWord w) (max (halfLatency w.ha.op.toNat) (halfLatency
      w.hb.op.toNat)) 7 ∧ pairOrderHold w s u = false := by
  refine ⟨pairW, sPair, (issuer (.pairedWord pairW)), ?_, ?_⟩ <;>
    first
      | decide | exact witness_issues (by decide)

theorem test_results_land_when_due_0 :
    ∃ s : State, ∃ id : Nat, ∃ f : FixedWrite, tget id s.fixed = some f ∧ f.due ≤ s.clk ∧ (∀ o ∈ s.fixed, o.1 < id → s.clk <
      o.2.due) := by
  refine ⟨sDue, 5, ⟨0, 0, 9, [.v 4 20 12, .v 4 21 7]⟩, ?_, ?_, ?_⟩ <;> decide

theorem test_results_land_when_due_1 :
    ∃ r : Nat, r < 384 := by
  refine ⟨20, ?_⟩ <;> decide

theorem test_results_land_when_due_2 :
    ∃ p : Nat, p < 8 := by
  refine ⟨1, ?_⟩ <;> decide

theorem test_clauses_follow_in_sequence :
    ∃ i : Instr, ∃ c : Compute, ∃ s : State, ∃ u : Issuing, ∃ pt : PortState, ∃ k : Nat, ∃ t : Thread, computes i = some c ∧ (∀
      d, c.dst = some d → d < 384) ∧ Issues s u i c.lat 7 ∧ tget (portKey u.core u.bay u.port) s.ports = some pt ∧ pt.hdr =
      u.hdr ∧ pt.pos = u.pos ∧ pt.members = u.members ∧ k ∈ u.members ∧ tget k s.threads = some t ∧ t.state = .issuing ∧
      t.resume = none := by
  refine ⟨addW, (plan addW), sAdd, (issuer addW), (portAt .vector), 4, (tgetD 4 blankThread sAdd.threads), ?_, ?_, ?_, ?_, ?_,
    ?_, ?_, ?_, ?_, ?_, ?_⟩ <;>
    first
      | decide | exact witness_issues (by decide) | exact witness_table (by decide) | exact witness_option (by decide) | rfl

theorem test_clauses_follow_in_sequence_b :
    ∃ i : Instr, ∃ c : Compute, ∃ s : State, ∃ u : Issuing, ∃ pt : PortState, ∃ k : Nat, ∃ t : Thread, computes i = some c ∧ (∀
      d, c.dst = some d → d < 384) ∧ Issues s u i c.lat 7 ∧ tget (portKey u.core u.bay u.port) s.ports = some pt ∧ pt.hdr =
      u.hdr ∧ pt.pos = u.pos ∧ pt.members = u.members ∧ k ∈ u.members ∧ tget k s.threads = some t ∧ t.state = .issuing ∧
      t.resume = none := by
  refine ⟨addW, (plan addW), sFirst, (issuer addW), { portAt .vector with words := 2 }, 4,
    (tgetD 4 blankThread sFirst.threads), ?_, ?_, ?_, ?_, ?_, ?_, ?_, ?_, ?_, ?_, ?_⟩ <;>
    first
      | decide | exact witness_issues (by decide) | exact witness_table (by decide) | exact witness_option (by decide) | rfl

theorem test_clause_followed_by_another :
    ∃ i : Instr, ∃ c : Compute, ∃ s : State, ∃ u : Issuing, ∃ pt : PortState, ∃ k : Nat, ∃ t : Thread, computes i = some c ∧ (∀
      d, c.dst = some d → d < 384) ∧ Issues s u i c.lat 7 ∧ tget (portKey u.core u.bay u.port) s.ports = some pt ∧ pt.hdr =
      u.hdr ∧ pt.pos = u.pos ∧ pt.members = u.members ∧ k ∈ u.members ∧ tget k s.threads = some t ∧ t.state = .issuing ∧
      t.resume = none := by
  refine ⟨addW, (plan addW), sInside, (issuer addW), (portAt .vector), 4, (tgetD 4 blankThread sInside.threads), ?_, ?_, ?_,
    ?_, ?_, ?_, ?_, ?_, ?_, ?_, ?_⟩ <;>
    first
      | decide | exact witness_issues (by decide) | exact witness_table (by decide) | exact witness_option (by decide) | rfl

theorem test_compute_words_inside_a_clause :
    ∃ i : Instr, ∃ c : Compute, ∃ s : State, ∃ u : Issuing, computes i = some c ∧ (∀ d, c.dst = some d → d < 384) ∧ Issues s u
      i c.lat 7 := by
  refine ⟨addW, (plan addW), sFirst, (issuer addW), ?_, ?_, ?_⟩ <;>
    first
      | decide | exact witness_issues (by decide) | exact witness_table (by decide) | exact witness_option (by decide) | rfl
      | exact fun d h => by injection h with h; subst h; decide

theorem test_branches_go_to_clause_headers :
    ∃ i : Instr, ∃ s : State, ∃ u : Issuing, ∃ target : State → Thread → Nat, ((∃ m w, i = .bra m w ∧ target = fun _ t => wrap
      64 ((t.curWord : Int) + 8 * signed 32 w.imm.toNat)) ∨ ∃ w, (i = .brx w ∨ i = .ret w) ∧ target = fun s t => src64 s t w.a)
      ∧ Issues s u i 0 7 ∧
    let b := beginWord s u i
    (s.poison = [] ∨ (∀ k ∈ actives s u i, ∀ t, tget k b.threads = some t → targetLegal b t (target b t) = true)) := by
  refine ⟨braW, (issuing braW), (issuer braW),
    (fun _ t => wrap 64 ((t.curWord : Int) + 8 * signed 32 (BitVec.ofInt 32 (-1)).toNat)), ?_, ?_, ?_⟩ <;>
    first
      | decide | exact witness_issues (by decide) | exact witness_table (by decide) | exact witness_option (by decide)
      | exact Or.inl ⟨0, ⟨BitVec.ofInt 32 (-1), 0, 0, always, 0⟩, rfl, rfl⟩

theorem test_branches_go_to_clause_headers_b :
    ∃ i : Instr, ∃ s : State, ∃ u : Issuing, ∃ target : State → Thread → Nat, ((∃ m w, i = .bra m w ∧ target = fun _ t => wrap
      64 ((t.curWord : Int) + 8 * signed 32 w.imm.toNat)) ∨ ∃ w, (i = .brx w ∨ i = .ret w) ∧ target = fun s t => src64 s t w.a)
      ∧ Issues s u i 0 7 ∧
    let b := beginWord s u i
    (s.poison = [] ∨ (∀ k ∈ actives s u i, ∀ t, tget k b.threads = some t → targetLegal b t (target b t) = true)) := by
  refine ⟨brxW, sBrx, (issuer brxW), (fun s t => src64 s t 2), ?_, ?_, ?_⟩ <;>
    first
      | decide | exact witness_issues (by decide) | exact witness_table (by decide) | exact witness_option (by decide)
      | exact Or.inr ⟨rw_ 0 2 0 0 0, Or.inl rfl, rfl⟩

theorem test_calls_link_to_the_next_clause :
    ∃ m : BitVec 2, ∃ w : IWord, ∃ s : State, ∃ u : Issuing, ∃ k : Nat, ∃ t : Thread, IssuesFor s u (.call m w) 0 7 k t ∧
    let b := beginWord s u (.call m w)
    let target := wrap 64 ((t.curWord : Int) + 8 * signed 32 w.imm.toNat)
    (s.poison = [] ∨ targetLegal b t target = true) := by
  refine ⟨0, callI, (issuing (.call 0 callI)), (issuer (.call 0 callI)), 4,
    (thread4 (issuing (.call 0 callI)) (.call 0 callI)), ?_, ?_⟩ <;>
    first
      | decide | exact witness_issuesFor (by decide)

theorem test_exit_ends_the_thread :
    ∃ w : RWord, ∃ s : State, ∃ u : Issuing, ∃ k : Nat, ∃ t : Thread, IssuesFor s u (.exit w) 0 7 k t := by
  refine ⟨exitW, (issuing (.exit exitW)), (issuer (.exit exitW)), 4, (thread4 (issuing (.exit exitW)) (.exit exitW)), ?_⟩ <;>
    first
      | decide | exact witness_issuesFor (by decide)

theorem test_yielding_threads_wait_for_others_0 :
    ∃ w : RWord, ∃ s : State, ∃ u : Issuing, Issues s u (.yield w) 0 7 := by
  refine ⟨exitW, (issuing (.yield exitW)), (issuer (.yield exitW)), ?_⟩ <;>
    first
      | decide | exact witness_issues (by decide)

theorem test_yielding_threads_wait_for_others_1 :
    ∃ all : List Cand, ∃ mine : List Cand, ∃ c : Cand, c ∈ notYielding all mine ∧ c.thread.yielded ≠ 0 := by
  refine ⟨[cand 1 0], [cand 1 0], (cand 1 0), ?_, ?_⟩ <;> decide

theorem test_spawn_creates_a_child :
    ∃ w : RWord, ∃ s : State, ∃ u : Issuing, ∃ k : Nat, ∃ t : Thread, ∃ kd : KDesc, IssuesFor s u (.spawn w) 0 w.ctr k t ∧
      s.freshKey ∧ kernelOf (beginWord s u (.spawn w)) t = some kd := by
  refine ⟨spawnW, sSpawn, (issuer (.spawn spawnW)), 4, (thread4 sSpawn (.spawn spawnW)), placedKernel, ?_, ?_, ?_⟩ <;>
    first
      | decide | exact witness_issuesFor (by decide) | exact witness_fresh (by decide) | rfl

theorem test_spawn_to_no_clause_header :
    ∃ w : RWord, ∃ s : State, ∃ u : Issuing, ∃ k : Nat, ∃ t : Thread, ∃ kd : KDesc, IssuesFor s u (.spawn w) 0 w.ctr k t ∧
      s.freshKey ∧ kernelOf (beginWord s u (.spawn w)) t = some kd := by
  refine ⟨spawnW, sSpawnOut, (issuer (.spawn spawnW)), 4, (thread4 sSpawnOut (.spawn spawnW)), placedKernel, ?_, ?_, ?_⟩ <;>
    first
      | decide | exact witness_issuesFor (by decide) | exact witness_fresh (by decide) | rfl

theorem test_thread_arrival_completes_a_phase :
    ∃ i : Instr, ∃ w : RWord, ∃ s : State, ∃ u : Issuing, ∃ k : Nat, ∃ t : Thread, ∃ tm : Team, (i = .barArrive w ∨ i =
      .barArriveb w) ∧ IssuesFor s u i 0 7 k t ∧ NoInterval s t.team ∧ tget t.team s.teams = some tm ∧ (384 ≤ w.dst.toNat →
      ungathered (beginWord s u i) u [k] = []) ∧
    let n := bits w.c.toNat 0 5
    let md := bits w.c.toNat 5 2
    let x := barrierOf s t.team n
    (md = 1 ∨ md = 3) ∧ t.child = false ∧ (x.mode = 0 ∨ x.mode = md) ∧ (k ∉ x.arrived) ∧ (releasePending s k (barScope w.c) =
      false) := by
  refine ⟨(.barArrive arriveW), arriveW, sArrive, (issuer (.barArrive arriveW)), 4, (thread4 sArrive (.barArrive arriveW)),
    (team2 sArrive), ?_, ?_, ?_, ?_, ?_, ?_, ?_, ?_, ?_, ?_⟩ <;>
    first
      | decide | exact witness_issuesFor (by decide) | exact witness_noInterval (by decide) | exact Or.inl rfl
      | exact Or.inr rfl | exact witness_table (by decide)
      | exact fun j tj p h sc hj hs => by have := @witness_table _ _ (fun _ (t : Thread) => t.state = .issuing) _ (by decide) j tj hj; rw [this] at hs; cases hs

theorem test_thread_arrival_waits_for_others :
    ∃ i : Instr, ∃ w : RWord, ∃ s : State, ∃ u : Issuing, ∃ k : Nat, ∃ t : Thread, ∃ tm : Team, (i = .barArrive w ∨ i =
      .barArriveb w) ∧ IssuesFor s u i 0 7 k t ∧ NoInterval s t.team ∧ tget t.team s.teams = some tm ∧ (384 ≤ w.dst.toNat →
      ungathered (beginWord s u i) u [k] = []) ∧
    let n := bits w.c.toNat 0 5
    let md := bits w.c.toNat 5 2
    let x := barrierOf s t.team n
    (md = 1 ∨ md = 3) ∧ t.child = false ∧ (x.mode = 0 ∨ x.mode = md) ∧ (k ∉ x.arrived) ∧ (releasePending s k (barScope w.c) =
      false) := by
  refine ⟨(.barArrive arriveW), arriveW, sArriveLess, (issuer (.barArrive arriveW)), 4,
    (thread4 sArriveLess (.barArrive arriveW)), (team2 sArriveLess), ?_, ?_, ?_, ?_, ?_, ?_, ?_, ?_, ?_, ?_⟩ <;>
    first
      | decide | exact witness_issuesFor (by decide) | exact witness_noInterval (by decide) | exact Or.inl rfl
      | exact Or.inr rfl | exact witness_table (by decide)
      | exact fun j tj p h sc hj hs => by have := @witness_table _ _ (fun _ (t : Thread) => t.state = .issuing) _ (by decide) j tj hj; rw [this] at hs; cases hs

theorem test_thread_and_byte_arrival :
    ∃ i : Instr, ∃ w : RWord, ∃ s : State, ∃ u : Issuing, ∃ k : Nat, ∃ t : Thread, ∃ tm : Team, (i = .barArrive w ∨ i =
      .barArriveb w) ∧ IssuesFor s u i 0 7 k t ∧ NoInterval s t.team ∧ tget t.team s.teams = some tm ∧ (384 ≤ w.dst.toNat →
      ungathered (beginWord s u i) u [k] = []) ∧
    let n := bits w.c.toNat 0 5
    let md := bits w.c.toNat 5 2
    let x := barrierOf s t.team n
    (md = 1 ∨ md = 3) ∧ t.child = false ∧ (x.mode = 0 ∨ x.mode = md) ∧ (k ∉ x.arrived) ∧ (releasePending s k (barScope w.c) =
      false) := by
  refine ⟨(.barArriveb arrivebW), arrivebW, sArriveb, (issuer (.barArriveb arrivebW)), 4,
    (thread4 sArriveb (.barArriveb arrivebW)), (team2 sArriveb), ?_, ?_, ?_, ?_, ?_, ?_, ?_, ?_, ?_, ?_⟩ <;>
    first
      | decide | exact witness_issuesFor (by decide) | exact witness_noInterval (by decide) | exact Or.inl rfl
      | exact Or.inr rfl | exact witness_table (by decide)
      | exact fun j tj p h sc hj hs => by have := @witness_table _ _ (fun _ (t : Thread) => t.state = .issuing) _ (by decide) j tj hj; rw [this] at hs; cases hs

theorem test_arrival_with_a_uniform_destination :
    ∃ i : Instr, ∃ w : RWord, ∃ s : State, ∃ u : Issuing, ∃ k : Nat, ∃ t : Thread, ∃ tm : Team, (i = .barArrive w ∨ i =
      .barArriveb w) ∧ IssuesFor s u i 0 7 k t ∧ NoInterval s t.team ∧ tget t.team s.teams = some tm ∧ (384 ≤ w.dst.toNat →
      ungathered (beginWord s u i) u [k] = []) ∧
    let n := bits w.c.toNat 0 5
    let md := bits w.c.toNat 5 2
    let x := barrierOf s t.team n
    (md = 1 ∨ md = 3) ∧ t.child = false ∧ (x.mode = 0 ∨ x.mode = md) ∧ (384 ≤ w.dst.toNat) ∧ (k ∉ x.arrived) ∧ (releasePending
      s k (barScope w.c) = false) := by
  refine ⟨(.barArrive arriveUniW), arriveUniW, sArriveUni, (issuer (.barArrive arriveUniW)), 4,
    (thread4 sArriveUni (.barArrive arriveUniW)), (team2 sArriveUni), ?_, ?_, ?_, ?_, ?_, ?_, ?_, ?_, ?_, ?_, ?_⟩ <;>
    first
      | decide | exact witness_issuesFor (by decide) | exact witness_noInterval (by decide) | exact Or.inl rfl
      | exact Or.inr rfl | exact witness_table (by decide)
      | exact fun j tj p h sc hj hs => by have := @witness_table _ _ (fun _ (t : Thread) => t.state = .issuing) _ (by decide) j tj hj; rw [this] at hs; cases hs

theorem test_arrival_in_a_checkpoint_launch :
    ∃ i : Instr, ∃ w : RWord, ∃ s : State, ∃ u : Issuing, ∃ k : Nat, ∃ t : Thread, ∃ tm : Team, (i = .barArrive w ∨ i =
      .barArriveb w) ∧ IssuesFor s u i 0 7 k t ∧ NoInterval s t.team ∧ tget t.team s.teams = some tm ∧ (384 ≤ w.dst.toNat →
      ungathered (beginWord s u i) u [k] = []) ∧
    let n := bits w.c.toNat 0 5
    let md := bits w.c.toNat 5 2
    let x := barrierOf s t.team n
    (md = 1 ∨ md = 3) ∧ t.child = false ∧ (x.mode = 0 ∨ x.mode = md) ∧ (k ∉ x.arrived) ∧ (releasePending s k (barScope w.c) =
      false) ∧ (isCkpt s t.launch = true) ∧ (isCkpt s tm.launch = true) := by
  refine ⟨(.barArrive arriveW), arriveW, sArriveCkpt, (issuer (.barArrive arriveW)), 4,
    (thread4 sArriveCkpt (.barArrive arriveW)), (team2 sArriveCkpt), ?_, ?_, ?_, ?_, ?_, ?_, ?_, ?_, ?_, ?_, ?_, ?_⟩ <;>
    first
      | decide | exact witness_issuesFor (by decide) | exact witness_noInterval (by decide) | exact Or.inl rfl
      | exact Or.inr rfl | exact witness_table (by decide)
      | exact fun j tj p h sc hj hs => by have := @witness_table _ _ (fun _ (t : Thread) => t.state = .issuing) _ (by decide) j tj hj; rw [this] at hs; cases hs

theorem test_second_arrival_waits :
    ∃ i : Instr, ∃ w : RWord, ∃ s : State, ∃ u : Issuing, ∃ k : Nat, ∃ t : Thread, ∃ tm : Team, (i = .barArrive w ∨ i =
      .barArriveb w) ∧ IssuesFor s u i 0 7 k t ∧ NoInterval s t.team ∧ tget t.team s.teams = some tm ∧ (384 ≤ w.dst.toNat →
      ungathered (beginWord s u i) u [k] = []) ∧
    let n := bits w.c.toNat 0 5
    let md := bits w.c.toNat 5 2
    let x := barrierOf s t.team n
    (md = 1 ∨ md = 3) ∧ t.child = false ∧ (x.mode = 0 ∨ x.mode = md) ∧ (k ∈ x.arrived) := by
  refine ⟨(.barArrive arriveW), arriveW, sArrived, (issuer (.barArrive arriveW)), 4, (thread4 sArrived (.barArrive arriveW)),
    (team2 sArrived), ?_, ?_, ?_, ?_, ?_, ?_, ?_, ?_, ?_⟩ <;>
    first
      | decide | exact witness_issuesFor (by decide) | exact witness_noInterval (by decide) | exact Or.inl rfl
      | exact Or.inr rfl | exact witness_table (by decide)
      | exact fun j tj p h sc hj hs => by have := @witness_table _ _ (fun _ (t : Thread) => t.state = .issuing) _ (by decide) j tj hj; rw [this] at hs; cases hs

theorem test_arrival_lets_a_held_one_begin :
    ∃ i : Instr, ∃ w : RWord, ∃ s : State, ∃ u : Issuing, ∃ k : Nat, ∃ t : Thread, ∃ tm : Team, (i = .barArrive w ∨ i =
      .barArriveb w) ∧ IssuesFor s u i 0 7 k t ∧ NoInterval s t.team ∧ tget t.team s.teams = some tm ∧ (384 ≤ w.dst.toNat →
      ungathered (beginWord s u i) u [k] = []) ∧
    let n := bits w.c.toNat 0 5
    let md := bits w.c.toNat 5 2
    let x := barrierOf s t.team n
    (md = 1 ∨ md = 3) ∧ t.child = false ∧ (x.mode = 0 ∨ x.mode = md) ∧ (k ∉ x.arrived) ∧ (releasePending s k (barScope w.c) =
      false) := by
  refine ⟨(.barArrive arriveW), arriveW, sHolder, (issuer (.barArrive arriveW)), 4, (thread4 sHolder (.barArrive arriveW)),
    (team2 sHolder), ?_, ?_, ?_, ?_, ?_, ?_, ?_, ?_, ?_, ?_⟩ <;>
    first
      | decide | exact witness_issuesFor (by decide) | exact witness_noInterval (by decide) | exact Or.inl rfl
      | exact Or.inr rfl | exact witness_table (by decide)
      | exact fun j tj p h sc hj hs => by have := @witness_table _ _ (fun _ (t : Thread) => t.state = .issuing) _ (by decide) j tj hj; rw [this] at hs; cases hs

theorem test_held_arrival_waits :
    ∃ s : State, ∃ k : Nat, ∃ n : Nat, ∃ sc : Nat, ∃ t : Thread, ∃ h : HeldArrival, tget k s.threads = some t ∧ t.state =
      .releasing n h sc ∧ (tget t.team s.teams).isSome ∧ isCkpt s t.launch = false ∧ (∀ d, h.dst = some d → d < 384) ∧
      (releasePending s k sc = true) := by
  refine ⟨(sHeld [(5, .store storeOp)]), 4, 1, 4, (tgetD 4 blankThread (sHeld [(5, .store storeOp)]).threads), ⟨some 10, 8⟩,
    ?_, ?_, ?_, ?_, ?_, ?_⟩ <;>
    first
      | decide | exact witness_table (by decide) | exact witness_option (by decide) | rfl
      | exact fun d h => by injection h with h; subst h; decide

theorem test_held_arrival_is_made :
    ∃ s : State, ∃ k : Nat, ∃ n : Nat, ∃ sc : Nat, ∃ t : Thread, ∃ h : HeldArrival, tget k s.threads = some t ∧ t.state =
      .releasing n h sc ∧ (tget t.team s.teams).isSome ∧ isCkpt s t.launch = false ∧ (∀ d, h.dst = some d → d < 384) ∧
      (releasePending s k sc = false) := by
  refine ⟨(sHeld []), 4, 1, 4, (tgetD 4 blankThread (sHeld []).threads), ⟨some 10, 8⟩, ?_, ?_, ?_, ?_, ?_, ?_⟩ <;>
    first
      | decide | exact witness_table (by decide) | exact witness_option (by decide) | rfl
      | exact fun d h => by injection h with h; subst h; decide

theorem test_byte_arrivals_and_illegal_arrivals :
    ∃ i : Instr, ∃ w : RWord, ∃ s : State, ∃ u : Issuing, ∃ k : Nat, ∃ t : Thread, (i = .barArrive w ∨ i = .barArriveb w) ∧
      IssuesFor s u i 0 7 k t ∧
    let b := beginWord s u i
    let n := bits w.c.toNat 0 5
    let md := bits w.c.toNat 5 2
    let x := barrierOf s t.team n
    let bytes := if i = .barArriveb w then src32 b t w.a else 0
    let y : Barrier := { x with mode := md, bexp := (x.bexp + bytes) % 2 ^ 64 }
    NoInterval s t.team ∧ (tget t.team s.teams).isSome ∧ (i = .barArrive w ∨ md = 3 → k ∈ x.arrived ∨ releasePending s k
      (barScope w.c) = false) ∧ (384 ≤ w.dst.toNat → ungathered b u [k] = []) ∧ (md = 2) ∧ (x.mode = 0 ∨ x.mode = 2) ∧ (y.holds
      = false) := by
  refine ⟨(.barArriveb bytesW), bytesW, sBytes, (issuer (.barArriveb bytesW)), 4, (thread4 sBytes (.barArriveb bytesW)), ?_,
    ?_, ?_, ?_, ?_, ?_, ?_, ?_, ?_⟩ <;>
    first
      | decide | exact witness_issuesFor (by decide) | exact witness_noInterval (by decide) | exact Or.inl rfl
      | exact Or.inr rfl | exact witness_table (by decide)
      | exact fun j tj p h sc hj hs => by have := @witness_table _ _ (fun _ (t : Thread) => t.state = .issuing) _ (by decide) j tj hj; rw [this] at hs; cases hs

theorem test_arrival_with_another_mode :
    ∃ i : Instr, ∃ w : RWord, ∃ s : State, ∃ u : Issuing, ∃ k : Nat, ∃ t : Thread, (i = .barArrive w ∨ i = .barArriveb w) ∧
      IssuesFor s u i 0 7 k t ∧
    let b := beginWord s u i
    let n := bits w.c.toNat 0 5
    let md := bits w.c.toNat 5 2
    let x := barrierOf s t.team n
    NoInterval s t.team ∧ (tget t.team s.teams).isSome ∧ (i = .barArrive w ∨ md = 3 → k ∈ x.arrived ∨ releasePending s k
      (barScope w.c) = false) ∧ (384 ≤ w.dst.toNat → ungathered b u [k] = []) ∧ (x.mode ≠ 0 ∧ x.mode ≠ md) := by
  refine ⟨(.barArriveb bytesW), bytesW, sMode, (issuer (.barArriveb bytesW)), 4, (thread4 sMode (.barArriveb bytesW)), ?_, ?_,
    ?_, ?_, ?_, ?_, ?_⟩ <;>
    first
      | decide | exact witness_issuesFor (by decide) | exact witness_noInterval (by decide) | exact Or.inl rfl
      | exact Or.inr rfl | exact witness_table (by decide)
      | exact fun j tj p h sc hj hs => by have := @witness_table _ _ (fun _ (t : Thread) => t.state = .issuing) _ (by decide) j tj hj; rw [this] at hs; cases hs

theorem test_waits_leave_the_barrier_when_its_phase_changes :
    ∃ w : RWord, ∃ s : State, ∃ u : Issuing, ∃ k : Nat, ∃ t : Thread, IssuesFor s u (.barWait w) 0 7 k t ∧
    let b := beginWord s u (.barWait w)
    let n := bits w.c.toNat 0 5
    let x := barrierOf s t.team n
    (x.phase ≠ src32 b t w.a) := by
  refine ⟨waitW, (sBarWait 1 0), (issuer (.barWait waitW)), 4, (thread4 (sBarWait 1 0) (.barWait waitW)), ?_, ?_⟩ <;>
    first
      | decide | exact witness_issuesFor (by decide)

theorem test_waits_leave_the_barrier_when_its_phase_changes_b :
    ∃ w : RWord, ∃ s : State, ∃ u : Issuing, ∃ k : Nat, ∃ t : Thread, IssuesFor s u (.barWait w) 0 7 k t ∧
    let b := beginWord s u (.barWait w)
    let n := bits w.c.toNat 0 5
    let x := barrierOf s t.team n
    (x.phase = src32 b t w.a) := by
  refine ⟨waitW, (sBarWait 1 1), (issuer (.barWait waitW)), 4, (thread4 (sBarWait 1 1) (.barWait waitW)), ?_, ?_⟩ <;>
    first
      | decide | exact witness_issuesFor (by decide)

theorem test_claims_join_their_bays_queue :
    ∃ w : RWord, ∃ s : State, ∃ u : Issuing, ∃ k : Nat, ∃ g : Nat, ∃ t : Thread, ∃ gr : Group, IssuesFor s u (.claim w) 0 7 k t
      ∧ t.group = some g ∧ tget g s.groups = some gr ∧ s.sorted ∧ (claimIllegal gr w.c.toNat = false) ∧ (OthersAtWord s (.claim
      claimW) k g t) ∧ (AllLiveAtWord s (.claim claimW) k g t gr) := by
  refine ⟨claimW, sClaim, (issuer (.claim claimW)), 4, 3, (thread4 sClaim (.claim claimW)), (group3 sClaim), ?_, ?_, ?_, ?_,
    ?_, ?_, ?_⟩ <;>
    first
      | decide | exact witness_issuesFor (by decide) | exact ⟨rfl, rfl⟩ | exact witness_table (by decide)
      | exact witness_others (by decide) | exact witness_allLive (by decide) | (refine witness_notLive (n := 1) ?_; decide)

theorem test_claim_of_the_last_of_two_members :
    ∃ w : RWord, ∃ s : State, ∃ u : Issuing, ∃ k : Nat, ∃ g : Nat, ∃ t : Thread, ∃ gr : Group, IssuesFor s u (.claim w) 0 7 k t
      ∧ t.group = some g ∧ tget g s.groups = some gr ∧ s.sorted ∧ (claimIllegal gr w.c.toNat = false) ∧ (OthersAtWord s (.claim
      claimW) k g t) ∧ (AllLiveAtWord s (.claim claimW) k g t gr) := by
  refine ⟨claimW, (groupWide (.claim claimW) 64 true), (issuer (.claim claimW)), 4, 3,
    (thread4 (groupWide (.claim claimW) 64 true) (.claim claimW)), (group3 (groupWide (.claim claimW) 64 true)), ?_, ?_, ?_,
    ?_, ?_, ?_, ?_⟩ <;>
    first
      | decide | exact witness_issuesFor (by decide) | exact ⟨rfl, rfl⟩ | exact witness_table (by decide)
      | exact witness_others (by decide) | exact witness_allLive (by decide) | (refine witness_notLive (n := 1) ?_; decide)

theorem test_claim_waits_for_the_other_member :
    ∃ w : RWord, ∃ s : State, ∃ u : Issuing, ∃ k : Nat, ∃ g : Nat, ∃ t : Thread, ∃ gr : Group, IssuesFor s u (.claim w) 0 7 k t
      ∧ t.group = some g ∧ tget g s.groups = some gr ∧ s.sorted ∧ (claimIllegal gr w.c.toNat = false) ∧ (OthersAtWord s (.claim
      claimW) k g t) ∧ (bit gr.live t.member = true) ∧ (¬ AllLiveAtWord s (.claim claimW) k g t gr) ∧ (blockedBy (waitIn
      (beginWord s u (.claim claimW)) k (.rendezvous ⟨t.curWord, 0, false, 0, 0, false, false, (.claim claimW)⟩)) g gr
      ⟨t.curWord, 0, false, 0, 0, false, false, (.claim claimW)⟩ = false) := by
  refine ⟨claimW, (groupWide (.claim claimW) 64 false), (issuer (.claim claimW)), 4, 3,
    (thread4 (groupWide (.claim claimW) 64 false) (.claim claimW)), (group3 (groupWide (.claim claimW) 64 false)), ?_, ?_, ?_,
    ?_, ?_, ?_, ?_, ?_, ?_⟩ <;>
    first
      | decide | exact witness_issuesFor (by decide) | exact ⟨rfl, rfl⟩ | exact witness_table (by decide)
      | exact witness_others (by decide) | exact witness_allLive (by decide) | (refine witness_notLive (n := 1) ?_; decide)

theorem test_claim_past_the_last_register :
    ∃ w : RWord, ∃ s : State, ∃ u : Issuing, ∃ k : Nat, ∃ g : Nat, ∃ t : Thread, ∃ gr : Group, IssuesFor s u (.claim w) 0 7 k t
      ∧ t.group = some g ∧ tget g s.groups = some gr ∧ s.sorted ∧ (claimIllegal gr w.c.toNat = true) := by
  refine ⟨claimW, (issuing (.claim claimW)), (issuer (.claim claimW)), 4, 3,
    (thread4 (issuing (.claim claimW)) (.claim claimW)), (group3 (issuing (.claim claimW))), ?_, ?_, ?_, ?_, ?_⟩ <;>
    first
      | decide | exact witness_issuesFor (by decide) | exact ⟨rfl, rfl⟩ | exact witness_table (by decide)

theorem test_releases_return_the_highest_registers :
    ∃ w : RWord, ∃ s : State, ∃ u : Issuing, ∃ k : Nat, ∃ g : Nat, ∃ t : Thread, ∃ gr : Group, IssuesFor s u (.release w) 0 7 k
      t ∧ t.group = some g ∧ tget g s.groups = some gr ∧ s.sorted ∧
    let n := w.c.toNat
    let locked := if s.rowLocks = [] then none else (topRows gr n).findSome? (rowLock s)
    (releaseIllegal gr n = false) ∧ (locked = none) ∧ (s.fixed = []) ∧ (s.ops = []) ∧ (OthersAtWord s (.release releaseW) k g
      t) ∧ (AllLiveAtWord s (.release releaseW) k g t gr) := by
  refine ⟨releaseW, sRelease, (issuer (.release releaseW)), 4, 3, (thread4 sRelease (.release releaseW)), (group3 sRelease),
    ?_, ?_, ?_, ?_, ?_, ?_, ?_, ?_, ?_, ?_⟩ <;>
    first
      | decide | exact witness_issuesFor (by decide) | exact ⟨rfl, rfl⟩ | exact witness_table (by decide)
      | exact witness_others (by decide) | exact witness_allLive (by decide) | (refine witness_notLive (n := 1) ?_; decide)

theorem test_release_of_the_last_of_two_members :
    ∃ w : RWord, ∃ s : State, ∃ u : Issuing, ∃ k : Nat, ∃ g : Nat, ∃ t : Thread, ∃ gr : Group, IssuesFor s u (.release w) 0 7 k
      t ∧ t.group = some g ∧ tget g s.groups = some gr ∧ s.sorted ∧
    let n := w.c.toNat
    let locked := if s.rowLocks = [] then none else (topRows gr n).findSome? (rowLock s)
    (releaseIllegal gr n = false) ∧ (locked = none) ∧ (s.fixed = []) ∧ (s.ops = []) ∧ (OthersAtWord s (.release releaseW) k g
      t) ∧ (AllLiveAtWord s (.release releaseW) k g t gr) := by
  refine ⟨releaseW, (groupWide (.release releaseW) 384 true), (issuer (.release releaseW)), 4, 3,
    (thread4 (groupWide (.release releaseW) 384 true) (.release releaseW)), (group3 (groupWide (.release releaseW) 384 true)),
    ?_, ?_, ?_, ?_, ?_, ?_, ?_, ?_, ?_, ?_⟩ <;>
    first
      | decide | exact witness_issuesFor (by decide) | exact ⟨rfl, rfl⟩ | exact witness_table (by decide)
      | exact witness_others (by decide) | exact witness_allLive (by decide) | (refine witness_notLive (n := 1) ?_; decide)

theorem test_release_waits_for_the_other_member :
    ∃ w : RWord, ∃ s : State, ∃ u : Issuing, ∃ k : Nat, ∃ g : Nat, ∃ t : Thread, ∃ gr : Group, IssuesFor s u (.release w) 0 7 k
      t ∧ t.group = some g ∧ tget g s.groups = some gr ∧ s.sorted ∧
    let n := w.c.toNat
    let locked := if s.rowLocks = [] then none else (topRows gr n).findSome? (rowLock s)
    (releaseIllegal gr n = false) ∧ (locked = none) ∧ (OthersAtWord s (.release releaseW) k g t) ∧ (bit gr.live t.member =
      true) ∧ (¬ AllLiveAtWord s (.release releaseW) k g t gr) ∧ (blockedBy (waitIn (beginWord s u (.release releaseW)) k
      (.rendezvous ⟨t.curWord, 0, false, 0, 0, false, false, (.release releaseW)⟩)) g gr ⟨t.curWord, 0, false, 0, 0, false,
      false, (.release releaseW)⟩ = false) := by
  refine ⟨releaseW, (groupWide (.release releaseW) 384 false), (issuer (.release releaseW)), 4, 3,
    (thread4 (groupWide (.release releaseW) 384 false) (.release releaseW)),
    (group3 (groupWide (.release releaseW) 384 false)), ?_, ?_, ?_, ?_, ?_, ?_, ?_, ?_, ?_, ?_⟩ <;>
    first
      | decide | exact witness_issuesFor (by decide) | exact ⟨rfl, rfl⟩ | exact witness_table (by decide)
      | exact witness_others (by decide) | exact witness_allLive (by decide) | (refine witness_notLive (n := 1) ?_; decide)

theorem test_release_of_every_register :
    ∃ w : RWord, ∃ s : State, ∃ u : Issuing, ∃ k : Nat, ∃ g : Nat, ∃ t : Thread, ∃ gr : Group, IssuesFor s u (.release w) 0 7 k
      t ∧ t.group = some g ∧ tget g s.groups = some gr ∧ s.sorted ∧
    let n := w.c.toNat
    (releaseIllegal gr n = true) := by
  refine ⟨releaseW, sReleaseAll, (issuer (.release releaseW)), 4, 3, (thread4 sReleaseAll (.release releaseW)),
    (group3 sReleaseAll), ?_, ?_, ?_, ?_, ?_⟩ <;>
    first
      | decide | exact witness_issuesFor (by decide) | exact ⟨rfl, rfl⟩ | exact witness_table (by decide)

theorem test_release_of_locked_rows :
    ∃ w : RWord, ∃ s : State, ∃ u : Issuing, ∃ k : Nat, ∃ g : Nat, ∃ t : Thread, ∃ gr : Group, IssuesFor s u (.release w) 0 7 k
      t ∧ t.group = some g ∧ tget g s.groups = some gr ∧ s.sorted ∧
    let n := w.c.toNat
    let locked := if s.rowLocks = [] then none else (topRows gr n).findSome? (rowLock s)
    (releaseIllegal gr n = false) ∧ (locked.isSome) := by
  refine ⟨releaseFewW, sReleaseLocked, (issuer (.release releaseFewW)), 4, 3, (thread4 sReleaseLocked (.release releaseFewW)),
    (group3 sReleaseLocked), ?_, ?_, ?_, ?_, ?_, ?_⟩ <;>
    first
      | decide | exact witness_issuesFor (by decide) | exact ⟨rfl, rfl⟩ | exact witness_table (by decide) | exact rfl

theorem test_claims_are_granted_in_order_0 :
    ∃ s : State, ∃ core : Nat, ∃ bay : Nat, ∃ g : Nat, ∃ row : Nat, ∃ gr : Group, ∃ c : ClaimWait, ∃ more : List (Nat × Group ×
      ClaimWait), s.sorted ∧ claimants s core bay = (g, gr, c) :: more ∧ freeRun s core bay gr.slot0 gr.width c.units = some
      row := by
  refine ⟨sGrant, 0, 0, 3, 64, (group3 sGrant), ⟨3, 0, 0⟩, [], ?_, ?_, ?_⟩ <;>
    first
      | decide | exact ⟨rfl, rfl⟩

theorem test_claims_are_granted_in_order_1 :
    ∃ s : State, ∃ core : Nat, ∃ bay : Nat, ∃ since : Nat, ∃ g : Nat, s.sorted ∧ tget bay (s.core core).deadlock = some since ∧
      since + 256 ≤ s.clk ∧ claimDeadlocked s core bay = true ∧ lastClaimant s core bay = some g ∧ (∀ gr tm, tget g s.groups =
      some gr → tget gr.team s.teams = some tm → tm.state ≠ .saving) := by
  refine ⟨sDead, 0, 0, 0, 3, ?_, ?_, ?_, ?_, ?_, ?_⟩ <;>
    first
      | decide | exact ⟨rfl, rfl⟩ | exact witness_table (by decide) | exact witness_option (by decide)
      | exact witness_running (by decide)

theorem test_lane_words_take_effect_once :
    ∃ i : Instr, ∃ mask : BitVec 9, ∃ dst : BitVec 9, ∃ operands : State → Thread → Nat × Nat × Bool, ∃ s : State, ∃ u :
      Issuing, ∃ k : Nat, ∃ g : Nat, ∃ t : Thread, ∃ gr : Group, LaneForm i mask dst operands ∧ Issues s u i 0 7 ∧ u.members =
      [k] ∧ tget k (beginWord s u i).threads = some t ∧ t.group = some g ∧ tget g s.groups = some gr ∧ s.sorted ∧ (384 ≤
      dst.toNat → ungathered (beginWord s u i) u (actives s u i) = []) ∧
    let b := beginWord s u i
    let m := src64 b t mask
    let active := (actives s u i).contains k
    let r : Rendezvous := ⟨t.curWord, m, !active, (operands b t).1, (operands b t).2.1, (operands b t).2.2, active, i⟩
    let e := waitIn b k (.rendezvous r)
    let all := arrivals e g t.curWord m
    (bit m t.member = true) ∧ (m < 2 ^ gr.width) ∧ (∀ j tj r', tget j s.threads = some tj → tj.group = some g → rendezvousOf tj
      = some r' → r'.addr = t.curWord → r'.mask = m ∨ r'.mask &&& m = 0) ∧ (allArrived gr m all = true) ∧ (∀ a ∈ all, a.r.word
      = i) := by
  refine ⟨(.xshfl shflW), 2, 20, (fun s t => (srcValue s t shflW.ty shflW.a, src32 s t shflW.c, false)), sLane1,
    (issuer (.xshfl shflW)), 4, 3, (thread4 sLane1 (.xshfl shflW)), (group3 sLane1), ?_, ?_, ?_, ?_, ?_, ?_, ?_, ?_, ?_, ?_,
    ?_, ?_, ?_⟩ <;>
    first
      | decide | exact witness_issues (by decide) | exact ⟨rfl, rfl⟩ | exact witness_table (by decide)
      | exact witness_option (by decide) | exact witness_meets (by decide) | exact ⟨shflW, rfl, Or.inl ⟨Or.inl rfl, rfl, rfl⟩⟩

theorem test_lane_word_waits :
    ∃ i : Instr, ∃ mask : BitVec 9, ∃ dst : BitVec 9, ∃ operands : State → Thread → Nat × Nat × Bool, ∃ s : State, ∃ u :
      Issuing, ∃ k : Nat, ∃ g : Nat, ∃ t : Thread, ∃ gr : Group, LaneForm i mask dst operands ∧ Issues s u i 0 7 ∧ u.members =
      [k] ∧ tget k (beginWord s u i).threads = some t ∧ t.group = some g ∧ tget g s.groups = some gr ∧ s.sorted ∧ (384 ≤
      dst.toNat → ungathered (beginWord s u i) u (actives s u i) = []) ∧
    let b := beginWord s u i
    let m := src64 b t mask
    let active := (actives s u i).contains k
    let r : Rendezvous := ⟨t.curWord, m, !active, (operands b t).1, (operands b t).2.1, (operands b t).2.2, active, i⟩
    let e := waitIn b k (.rendezvous r)
    let all := arrivals e g t.curWord m
    (bit m t.member = true) ∧ (m < 2 ^ gr.width) ∧ (∀ j tj r', tget j s.threads = some tj → tj.group = some g → rendezvousOf tj
      = some r' → r'.addr = t.curWord → r'.mask = m ∨ r'.mask &&& m = 0) ∧ (allArrived gr m all = false) ∧ (blockedBy e g gr r
      = false) := by
  refine ⟨(.xshfl shflW), 2, 20, (fun s t => (srcValue s t shflW.ty shflW.a, src32 s t shflW.c, false)), sLaneWait,
    (issuer (.xshfl shflW)), 4, 3, (thread4 sLaneWait (.xshfl shflW)), (group3 sLaneWait), ?_, ?_, ?_, ?_, ?_, ?_, ?_, ?_, ?_,
    ?_, ?_, ?_, ?_⟩ <;>
    first
      | decide | exact witness_issues (by decide) | exact ⟨rfl, rfl⟩ | exact witness_table (by decide)
      | exact witness_option (by decide) | exact witness_meets (by decide) | exact ⟨shflW, rfl, Or.inl ⟨Or.inl rfl, rfl, rfl⟩⟩

theorem test_lane_word_with_an_exited_member :
    ∃ i : Instr, ∃ mask : BitVec 9, ∃ dst : BitVec 9, ∃ operands : State → Thread → Nat × Nat × Bool, ∃ s : State, ∃ u :
      Issuing, ∃ k : Nat, ∃ g : Nat, ∃ t : Thread, ∃ gr : Group, LaneForm i mask dst operands ∧ Issues s u i 0 7 ∧ u.members =
      [k] ∧ tget k (beginWord s u i).threads = some t ∧ t.group = some g ∧ tget g s.groups = some gr ∧ s.sorted ∧ (384 ≤
      dst.toNat → ungathered (beginWord s u i) u (actives s u i) = []) ∧
    let b := beginWord s u i
    let m := src64 b t mask
    let active := (actives s u i).contains k
    let r : Rendezvous := ⟨t.curWord, m, !active, (operands b t).1, (operands b t).2.1, (operands b t).2.2, active, i⟩
    let e := waitIn b k (.rendezvous r)
    let all := arrivals e g t.curWord m
    (bit m t.member = true) ∧ (m < 2 ^ gr.width) ∧ (∀ j tj r', tget j s.threads = some tj → tj.group = some g → rendezvousOf tj
      = some r' → r'.addr = t.curWord → r'.mask = m ∨ r'.mask &&& m = 0) ∧ (allArrived gr m all = false) ∧ (blockedBy e g gr r
      = true) := by
  refine ⟨(.xshfl shflW), 2, 20, (fun s t => (srcValue s t shflW.ty shflW.a, src32 s t shflW.c, false)), sLaneGone,
    (issuer (.xshfl shflW)), 4, 3, (thread4 sLaneGone (.xshfl shflW)), (group3 sLaneGone), ?_, ?_, ?_, ?_, ?_, ?_, ?_, ?_, ?_,
    ?_, ?_, ?_, ?_⟩ <;>
    first
      | decide | exact witness_issues (by decide) | exact ⟨rfl, rfl⟩ | exact witness_table (by decide)
      | exact witness_option (by decide) | exact witness_meets (by decide) | exact ⟨shflW, rfl, Or.inl ⟨Or.inl rfl, rfl, rfl⟩⟩

theorem test_lane_words_with_masks_that_conflict :
    ∃ i : Instr, ∃ mask : BitVec 9, ∃ dst : BitVec 9, ∃ operands : State → Thread → Nat × Nat × Bool, ∃ s : State, ∃ u :
      Issuing, ∃ k : Nat, ∃ g : Nat, ∃ t : Thread, ∃ gr : Group, LaneForm i mask dst operands ∧ Issues s u i 0 7 ∧ u.members =
      [k] ∧ tget k (beginWord s u i).threads = some t ∧ t.group = some g ∧ tget g s.groups = some gr ∧ s.sorted ∧ (384 ≤
      dst.toNat → ungathered (beginWord s u i) u (actives s u i) = []) ∧
    let b := beginWord s u i
    let m := src64 b t mask
    (bit m t.member = true) ∧ (m < 2 ^ gr.width) ∧ (∀ j' tj', j' ≠ k → tget j' s.threads = some tj' → tj'.group = some g →
      tj'.member ≠ t.member) ∧ (∃ j tj r', j ≠ k ∧ tget j s.threads = some tj ∧ tj.group = some g ∧ rendezvousOf tj = some r' ∧
      r'.addr = t.curWord ∧ r'.mask ≠ m ∧ r'.mask &&& m ≠ 0) := by
  refine ⟨(.xshfl shflW), 2, 20, (fun s t => (srcValue s t shflW.ty shflW.a, src32 s t shflW.c, false)), sLaneClash,
    (issuer (.xshfl shflW)), 4, 3, (thread4 sLaneClash (.xshfl shflW)), (group3 sLaneClash), ?_, ?_, ?_, ?_, ?_, ?_, ?_, ?_,
    ?_, ?_, ?_, ?_⟩ <;>
    first
      | decide | exact witness_issues (by decide) | exact ⟨rfl, rfl⟩ | exact witness_table (by decide)
      | exact witness_option (by decide) | exact witness_meets (by decide) | exact ⟨shflW, rfl, Or.inl ⟨Or.inl rfl, rfl, rfl⟩⟩
      | exact witness_clash (by decide) | exact witness_oneOf (by decide)

theorem test_lane_word_completes :
    ∃ i : Instr, ∃ mask : BitVec 9, ∃ dst : BitVec 9, ∃ operands : State → Thread → Nat × Nat × Bool, ∃ s : State, ∃ u :
      Issuing, ∃ k : Nat, ∃ g : Nat, ∃ t : Thread, ∃ gr : Group, LaneForm i mask dst operands ∧ Issues s u i 0 7 ∧ u.members =
      [k] ∧ tget k (beginWord s u i).threads = some t ∧ t.group = some g ∧ tget g s.groups = some gr ∧ s.sorted ∧ (384 ≤
      dst.toNat → ungathered (beginWord s u i) u (actives s u i) = []) ∧
    let b := beginWord s u i
    let m := src64 b t mask
    let active := (actives s u i).contains k
    let r : Rendezvous := ⟨t.curWord, m, !active, (operands b t).1, (operands b t).2.1, (operands b t).2.2, active, i⟩
    let e := waitIn b k (.rendezvous r)
    let all := arrivals e g t.curWord m
    (bit m t.member = true) ∧ (m < 2 ^ gr.width) ∧ (∀ j tj r', tget j s.threads = some tj → tj.group = some g → rendezvousOf tj
      = some r' → r'.addr = t.curWord → r'.mask = m ∨ r'.mask &&& m = 0) ∧ (allArrived gr m all = true) ∧ (∀ a ∈ all, a.r.word
      = i) := by
  refine ⟨(.xshfl shflW), 2, 20, (fun s t => (srcValue s t shflW.ty shflW.a, src32 s t shflW.c, false)), sLaneBoth,
    (issuer (.xshfl shflW)), 4, 3, (thread4 sLaneBoth (.xshfl shflW)), (group3 sLaneBoth), ?_, ?_, ?_, ?_, ?_, ?_, ?_, ?_, ?_,
    ?_, ?_, ?_, ?_⟩ <;>
    first
      | decide | exact witness_issues (by decide) | exact ⟨rfl, rfl⟩ | exact witness_table (by decide)
      | exact witness_option (by decide) | exact witness_meets (by decide) | exact ⟨shflW, rfl, Or.inl ⟨Or.inl rfl, rfl, rfl⟩⟩

theorem test_lane_word_without_its_own_bit :
    ∃ i : Instr, ∃ mask : BitVec 9, ∃ dst : BitVec 9, ∃ operands : State → Thread → Nat × Nat × Bool, ∃ s : State, ∃ u :
      Issuing, ∃ k : Nat, ∃ g : Nat, ∃ t : Thread, ∃ gr : Group, LaneForm i mask dst operands ∧ Issues s u i 0 7 ∧ u.members =
      [k] ∧ tget k (beginWord s u i).threads = some t ∧ t.group = some g ∧ tget g s.groups = some gr ∧ s.sorted ∧ (384 ≤
      dst.toNat → ungathered (beginWord s u i) u (actives s u i) = []) ∧
    let b := beginWord s u i
    let m := src64 b t mask
    (bit m t.member = false ∨ 2 ^ gr.width ≤ m) := by
  refine ⟨(.xshfl shflW), 2, 20, (fun s t => (srcValue s t shflW.ty shflW.a, src32 s t shflW.c, false)), sLaneOwn,
    (issuer (.xshfl shflW)), 4, 3, (thread4 sLaneOwn (.xshfl shflW)), (group3 sLaneOwn), ?_, ?_, ?_, ?_, ?_, ?_, ?_, ?_,
    ?_⟩ <;>
    first
      | decide | exact witness_issues (by decide) | exact ⟨rfl, rfl⟩ | exact witness_meets (by decide)
      | exact ⟨shflW, rfl, Or.inl ⟨Or.inl rfl, rfl, rfl⟩⟩

theorem test_lane_words_of_one_issue_set_complete_at_once :
    ∃ i : Instr, ∃ mask : BitVec 9, ∃ dst : BitVec 9, ∃ operands : State → Thread → Nat × Nat × Bool, ∃ s : State, ∃ u :
      Issuing, ∃ g : Nat, ∃ m : Nat, ∃ gr : Group, LaneForm i mask dst operands ∧ Issues s u i 0 7 ∧ u.members ≠ [] ∧
      u.members.Nodup ∧ tget g s.groups = some gr ∧ s.sorted ∧ m < 2 ^ gr.width ∧ (384 ≤ dst.toNat → ungathered (beginWord s u
      i) u (actives s u i) = []) ∧
    let b := beginWord s u i
    (∀ k ∈ u.members, ∃ t, tget k b.threads = some t ∧ t.group = some g ∧ t.state = .issuing ∧ src64 b t mask = m) ∧ (∀ n, bit
      m n = true → bit gr.live n = true ∧ ∃ k t, k ∈ u.members ∧ tget k b.threads = some t ∧ t.member = n) ∧ (∀ j j' tj tj',
      tget j b.threads = some tj → tget j' b.threads = some tj' → tj.group = some g → tj'.group = some g → tj.member =
      tj'.member → j = j') ∧ (∀ k t, tget k b.threads = some t → t.group = some g → rendezvousOf t = none ∧ (k ∈ u.members →
      bit m t.member = true)) := by
  refine ⟨(.xshfl shflW), 2, 20, (fun s t => (srcValue s t shflW.ty shflW.a, src32 s t shflW.c, false)), sLaneSet, laneSet, 3,
    3, (group3 sLaneSet), ?_, ?_, ?_, ?_, ?_, ?_, ?_, ?_, ?_, ?_, ?_, ?_⟩ <;>
    first
      | decide | exact witness_issues (by decide) | exact ⟨rfl, rfl⟩ | exact witness_table (by decide)
      | exact witness_option (by decide) | exact witness_meets (by decide) | exact ⟨shflW, rfl, Or.inl ⟨Or.inl rfl, rfl, rfl⟩⟩
      | exact witness_members (fun t => t.group = some 3 ∧ t.state = .issuing ∧ src64 (beginWord sLaneSet laneSet (.xshfl shflW)) t 2 = 3) (by decide)
      | exact witness_named [4, 5] (beginWord sLaneSet laneSet (.xshfl shflW)).threads (by decide)
      | exact witness_unique (by decide)

theorem test_lane_results_follow_their_rules :
    ∃ ms : List Arrival, (ms.map (·.thread.member)).Nodup := by
  refine ⟨lanes, ?_⟩ <;>
    first
      | decide | exact rfl

theorem test_broadcast_of_no_member :
    ∃ ms : List Arrival, (ms.map (·.thread.member)).Nodup ∧ (∀ a more, ms = a :: more → ∀ c ∈ ms, c.thread.member ≠ a.r.c) := by
  refine ⟨[arrival 5 1 12 7 false (.xbcast shflW)], ?_,
    fun a _ h c hc => by simp at h hc; obtain ⟨rfl, -⟩ := h; subst hc; decide⟩ <;>
    first
      | decide | exact rfl

theorem test_scans_and_reductions_run_over_the_members_0 :
    ∃ w : RWord,
    let oper := bits w.c.toNat 0 3
    (w.ty ≠ .f32 ∨ oper ≠ 0 ∨ w.opx ≠ 1) := by
  refine ⟨scanW, ?_⟩ <;> decide

theorem test_scans_and_reductions_run_over_the_members_0_b :
    ∃ w : RWord,
    let oper := bits w.c.toNat 0 3
    (w.ty = .f32) ∧ (oper = 0) ∧ (w.opx = 1) := by
  refine ⟨pairScanW, ?_, ?_, ?_⟩ <;> decide

theorem test_scans_and_reductions_run_over_the_members_1 :
    ∃ ty : Ty, ∃ a : Nat, ∃ b : Nat, ty ∈ ints4 ∧ a < 2 ^ ty.width ∧ b < 2 ^ ty.width := by
  refine ⟨.n32, 0xFFFFFFFF, 1, ?_, ?_, ?_⟩ <;> decide

theorem test_scans_and_reductions_run_over_the_members_2 :
    ∃ ty : Ty, ∃ f : FFmt, ty.fmt? = some f := by
  refine ⟨.f32, .f32, ?_⟩ <;>
    first
      | decide | rfl

theorem test_loads_begin :
    ∃ i : Instr, ∃ kind : LoadKind, ∃ acq : Bool, ∃ w : MWord, ∃ s : State, ∃ u : Issuing, ∃ k : Nat, ∃ t : Thread, ∃ va : Nat,
      ∃ bypass : Bool, ∃ tgt : Target, loadForm i = some (kind, acq, w) ∧ IssuesFor s u i 0 w.ctr.toNat k t ∧ controlHold s u =
      false ∧ s.freshKey ∧ s.poison = [] ∧ NoInterval s t.team ∧
    let b := beginWord s u i
    checkBoth b t needRead true (effectiveVa b t w) (sizeBytes w.size.toNat) = .ok (va, bypass, tgt) ∧ (384 ≤ w.dst.toNat →
      ungathered b u [k] = []) := by
  refine ⟨(.ldCa loadW), .ca, false, loadW, sLoad, (issuer (.ldCa loadW)), 4, (thread4 sLoad (.ldCa loadW)), 0x60000, false,
    (.hbm 0x60000), ?_, ?_, ?_, ?_, ?_, ?_, ?_, ?_⟩ <;>
    first
      | decide | exact witness_issuesFor (by decide) | exact witness_fresh (by decide) | exact witness_noInterval (by decide)
      | rfl

theorem test_load_from_the_scratchpad_begins :
    ∃ i : Instr, ∃ kind : LoadKind, ∃ acq : Bool, ∃ w : MWord, ∃ s : State, ∃ u : Issuing, ∃ k : Nat, ∃ t : Thread, ∃ va : Nat,
      ∃ bypass : Bool, ∃ tgt : Target, loadForm i = some (kind, acq, w) ∧ IssuesFor s u i 0 w.ctr.toNat k t ∧ controlHold s u =
      false ∧ s.freshKey ∧ s.poison = [] ∧ NoInterval s t.team ∧
    let b := beginWord s u i
    checkBoth b t needRead true (effectiveVa b t w) (sizeBytes w.size.toNat) = .ok (va, bypass, tgt) ∧ (384 ≤ w.dst.toNat →
      ungathered b u [k] = []) := by
  refine ⟨(.ldCa loadW), .ca, false, loadW, sLoadScratch, (issuer (.ldCa loadW)), 4, (thread4 sLoadScratch (.ldCa loadW)),
    0xFFFFFF0000000040, false, (.scratch 0 0x40), ?_, ?_, ?_, ?_, ?_, ?_, ?_, ?_⟩ <;>
    first
      | decide | exact witness_issuesFor (by decide) | exact witness_fresh (by decide) | exact witness_noInterval (by decide)
      | rfl

theorem test_load_that_is_not_aligned :
    ∃ i : Instr, ∃ w : MWord, ∃ need : Need, ∃ loads : Bool, ∃ s : State, ∃ u : Issuing, ∃ k : Nat, ∃ t : Thread, ∃ bad : Bad,
      ((∃ kind acq, loadForm i = some (kind, acq, w)) ∧ need = needRead ∧ loads = true ∨ i = .st w ∧ need = needWrite ∧ loads =
      false) ∧ IssuesFor s u i 0 w.ctr.toNat k t ∧ controlHold s u = false ∧ s.poison = [] ∧
    let b := beginWord s u i
    let va := effectiveVa b t w
    let n := sizeBytes w.size.toNat
    (loads = true → 384 ≤ w.dst.toNat → ungathered b u [k] = []) ∧ (loads = false → readsFirst i need (fun s t => effectiveVa s
      t w) n s u = false) ∧ checkBoth b t need loads va n = .error bad ∧ (va % n ≠ 0) := by
  refine ⟨(.ldCa loadW), loadW, needRead, true, sLoadOdd, (issuer (.ldCa loadW)), 4, (thread4 sLoadOdd (.ldCa loadW)),
    ⟨0x12, 0x60001, 0⟩, ?_, ?_, ?_, ?_, ?_, ?_, ?_, ?_⟩ <;>
    first
      | decide | exact witness_issuesFor (by decide) | rfl | exact Or.inl ⟨⟨.ca, false, rfl⟩, rfl, rfl⟩
      | exact Or.inr ⟨rfl, rfl, rfl⟩

theorem test_load_beyond_its_page :
    ∃ i : Instr, ∃ w : MWord, ∃ need : Need, ∃ loads : Bool, ∃ s : State, ∃ u : Issuing, ∃ k : Nat, ∃ t : Thread, ∃ bad : Bad,
      ((∃ kind acq, loadForm i = some (kind, acq, w)) ∧ need = needRead ∧ loads = true ∨ i = .st w ∧ need = needWrite ∧ loads =
      false) ∧ IssuesFor s u i 0 w.ctr.toNat k t ∧ controlHold s u = false ∧ s.poison = [] ∧
    let b := beginWord s u i
    let va := effectiveVa b t w
    let n := sizeBytes w.size.toNat
    (loads = true → 384 ≤ w.dst.toNat → ungathered b u [k] = []) ∧ (loads = false → readsFirst i need (fun s t => effectiveVa s
      t w) n s u = false) ∧ checkBoth b t need loads va n = .error bad ∧ (va % n = 0) ∧ (windowOf b t va = none) := by
  refine ⟨(.ldCa loadW), loadW, needRead, true, sLoadFar, (issuer (.ldCa loadW)), 4, (thread4 sLoadFar (.ldCa loadW)),
    ⟨0x10, 0x100000000, 0⟩, ?_, ?_, ?_, ?_, ?_, ?_, ?_, ?_, ?_⟩ <;>
    first
      | decide | exact witness_issuesFor (by decide) | rfl | exact Or.inl ⟨⟨.ca, false, rfl⟩, rfl, rfl⟩
      | exact Or.inr ⟨rfl, rfl, rfl⟩

theorem test_store_to_a_locked_range :
    ∃ i : Instr, ∃ w : MWord, ∃ need : Need, ∃ loads : Bool, ∃ s : State, ∃ u : Issuing, ∃ k : Nat, ∃ t : Thread, ∃ bad : Bad,
      ((∃ kind acq, loadForm i = some (kind, acq, w)) ∧ need = needRead ∧ loads = true ∨ i = .st w ∧ need = needWrite ∧ loads =
      false) ∧ IssuesFor s u i 0 w.ctr.toNat k t ∧ controlHold s u = false ∧ s.poison = [] ∧
    let b := beginWord s u i
    let va := effectiveVa b t w
    let n := sizeBytes w.size.toNat
    (loads = true → 384 ≤ w.dst.toNat → ungathered b u [k] = []) ∧ (loads = false → readsFirst i need (fun s t => effectiveVa s
      t w) n s u = false) ∧ checkBoth b t need loads va n = .error bad ∧ (va % n = 0) ∧ (windowOf b t va = none) := by
  refine ⟨(.st storeW), storeW, needWrite, false, sStoreLocked, (issuer (.st storeW)), 4, (thread4 sStoreLocked (.st storeW)),
    ⟨0x14, 0x60000, 3⟩, ?_, ?_, ?_, ?_, ?_, ?_, ?_, ?_, ?_⟩ <;>
    first
      | decide | exact witness_issuesFor (by decide) | rfl | exact Or.inl ⟨⟨.ca, false, rfl⟩, rfl, rfl⟩
      | exact Or.inr ⟨rfl, rfl, rfl⟩

theorem test_stores_begin :
    ∃ i : Instr, ∃ rel : Bool, ∃ w : MWord, ∃ s : State, ∃ u : Issuing, ∃ k : Nat, ∃ t : Thread, ∃ va : Nat, ∃ pa : Nat, ∃
      bypass : Bool, storeForm i = some (rel, w) ∧ IssuesFor s u i 0 w.ctr.toNat k t ∧ s.freshKey ∧ NoInterval s t.team ∧
    let b := beginWord s u i
    let n := sizeBytes w.size.toNat
    checkBoth b t needWrite false (effectiveVa b t w) n = .ok (va, bypass, .hbm pa) ∧ pa + n ≤ 2 ^ 56 ∧ readsFirst i needWrite
      (fun s t => effectiveVa s t w) n s u = false ∧ (rel = true → releasePending s k w.scope.toNat = false) := by
  refine ⟨(.st storeW), false, storeW, sStore, (issuer (.st storeW)), 4, (thread4 sStore (.st storeW)), 0x60000, 0x60000,
    false, ?_, ?_, ?_, ?_, ?_, ?_, ?_, ?_⟩ <;>
    first
      | decide | exact witness_issuesFor (by decide) | exact witness_fresh (by decide) | exact witness_noInterval (by decide)
      | rfl

theorem test_scratchpad_stores_write_at_once :
    ∃ i : Instr, ∃ rel : Bool, ∃ w : MWord, ∃ s : State, ∃ u : Issuing, ∃ k : Nat, ∃ t : Thread, ∃ va : Nat, ∃ core : Nat, ∃
      off : Nat, ∃ bypass : Bool, storeForm i = some (rel, w) ∧ IssuesFor s u i 0 w.ctr.toNat k t ∧ NoInterval s t.team ∧
      s.poison = [] ∧
    let b := beginWord s u i
    let n := sizeBytes w.size.toNat
    let pa := onchipPa core off
    checkBoth b t needWrite false (effectiveVa b t w) n = .ok (va, bypass, .scratch core off) ∧ (∀ j, j < n → regionOf s (pa +
      j) = (core, .scratchpad (off + j))) ∧ readsFirst i needWrite (fun s t => effectiveVa s t w) n s u = false ∧ (rel = true →
      releasePending s k w.scope.toNat = false) := by
  refine ⟨(.st storeW), false, storeW, sStoreScratch, (issuer (.st storeW)), 4, (thread4 sStoreScratch (.st storeW)),
    0xFFFFFF0000000040, 0, 0x40, false, ?_, ?_, ?_, ?_, ?_, ?_, ?_, ?_⟩ <;>
    first
      | decide | exact witness_issuesFor (by decide) | exact witness_noInterval (by decide) | rfl

theorem test_releases_wait_for_earlier_accesses :
    ∃ i : Instr, ∃ s : State, ∃ u : Issuing, ∃ scope : Nat, ∃ k : Nat, s.issuing = some u ∧ i.staticCause = none ∧ ((∃ w, i =
      .stRel w ∧ scope = w.scope.toNat) ∨ (∃ w, i = .stt w ∧ w.fbits 9 1 = 1 ∧ scope = w.fbits 10 3) ∨ (∃ w, (i = .atom w ∨ i =
      .atomFadd w) ∧ 2 ≤ w.fbits 6 2 ∧ scope = bits w.c.toNat 0 3) ∨ (∃ w t, (i = .barArrive w ∨ (i = .barArriveb w ∧ bits
      w.c.toNat 5 2 = 3)) ∧ scope = barScope w.c ∧ tget k s.threads = some t ∧ k ∉ (barrierOf s t.team (bits w.c.toNat 0
      5)).arrived) ∨ ∃ w, (i = .nrec w ∨ i = .rgpub w ∨ i = .rgdone w ∨ i = .bwpush w) ∧ scope = 4) ∧ k ∈ activeMembers s u i ∧
      releasePending s k scope = true ∧ (∀ j ∈ u.members, ∀ t, tget j s.threads = some t → NoInterval s t.team) := by
  refine ⟨(.stRel relW), sRel, (issuer (.stRel relW)), 4, 4, ?_, ?_, ?_, ?_, ?_, ?_⟩ <;>
    first
      | decide | exact witness_noInterval (by decide) | exact witness_table (by decide) | exact witness_option (by decide)
      | exact Or.inl ⟨relW, rfl, rfl⟩
      | exact fun j _ t ht => by rw [show t.team = 2 from witness_table (p := fun _ t => t.team = 2) (by decide) j t ht]; exact witness_noInterval (by decide)

theorem test_fences_begin :
    ∃ w : RWord, ∃ s : State, ∃ u : Issuing, ∃ k : Nat, ∃ t : Thread, IssuesFor s u (.fence w) 0 7 k t ∧ s.freshKey ∧
      NoInterval s t.team ∧
    let pred := bits w.c.toNat 0 6
    let succ := w.fbits 4 6
    (pred ≠ 0) ∧ (succ ≠ 0) := by
  refine ⟨fenceW, sFence, (issuer (.fence fenceW)), 4, (thread4 sFence (.fence fenceW)), ?_, ?_, ?_, ?_, ?_⟩ <;>
    first
      | decide | exact witness_issuesFor (by decide) | exact witness_fresh (by decide) | exact witness_noInterval (by decide)

theorem test_fence_with_a_zero_mask :
    ∃ w : RWord, ∃ s : State, ∃ u : Issuing, ∃ k : Nat, ∃ t : Thread, IssuesFor s u (.fence w) 0 7 k t ∧ s.freshKey ∧
      NoInterval s t.team ∧
    let pred := bits w.c.toNat 0 6
    let succ := w.fbits 4 6
    (pred = 0 ∨ succ = 0) := by
  refine ⟨fence0W, (issuing (.fence fence0W)), (issuer (.fence fence0W)), 4,
    (thread4 (issuing (.fence fence0W)) (.fence fence0W)), ?_, ?_, ?_, ?_⟩ <;>
    first
      | decide | exact witness_issuesFor (by decide) | exact witness_fresh (by decide) | exact witness_noInterval (by decide)

theorem test_full_empty_load_of_a_full_granule :
    ∃ w : MWord, ∃ s : State, ∃ u : Issuing, ∃ k : Nat, ∃ t : Thread, ∃ core : Nat, ∃ off : Nat, IssuesFor s u (.ldfe w) 0
      w.ctr.toNat k t ∧ s.freshKey ∧ s.poison = [] ∧ (384 ≤ w.dst.toNat → ungathered (beginWord s u (.ldfe w)) u [k] = []) ∧
    let b := beginWord s u (.ldfe w)
    let n := sizeBytes w.size.toNat
    let g := granuleOf core off
    (w.dst.toNat < 384 → w.dst.toNat + loadRegs w.size.toNat ≤ 384) ∧ checkAperture b t (effectiveVa b t w) n = .ok (.scratch
      core off) ∧ (∀ e o, (e, Op.granule o) ∈ s.ops → granuleOf o.core o.off ≠ g ∧ o.c.thread ≠ k) ∧ (s.full.contains g = true) := by
  refine ⟨ldfeW, (sLdfe [granuleOf 0 0x40]), (issuer (.ldfe ldfeW)), 4, (thread4 (sLdfe [granuleOf 0 0x40]) (.ldfe ldfeW)), 0,
    0x40, ?_, ?_, ?_, ?_, ?_, ?_, ?_, ?_⟩ <;>
    first
      | decide | exact witness_issuesFor (by decide)
      | exact fun e o h => absurd (show (e, Op.granule o) ∈ ([] : List (Nat × Op)) from h) (by simp)
      | exact witness_fresh (by decide) | exact witness_nil rfl | rfl | exact fun e o h => by cases h

theorem test_full_empty_load_of_an_empty_granule :
    ∃ w : MWord, ∃ s : State, ∃ u : Issuing, ∃ k : Nat, ∃ t : Thread, ∃ core : Nat, ∃ off : Nat, IssuesFor s u (.ldfe w) 0
      w.ctr.toNat k t ∧ s.freshKey ∧ s.poison = [] ∧ (384 ≤ w.dst.toNat → ungathered (beginWord s u (.ldfe w)) u [k] = []) ∧
    let b := beginWord s u (.ldfe w)
    let n := sizeBytes w.size.toNat
    let g := granuleOf core off
    (w.dst.toNat < 384 → w.dst.toNat + loadRegs w.size.toNat ≤ 384) ∧ checkAperture b t (effectiveVa b t w) n = .ok (.scratch
      core off) ∧ (∀ e o, (e, Op.granule o) ∈ s.ops → granuleOf o.core o.off ≠ g ∧ o.c.thread ≠ k) ∧ (s.full.contains g =
      false) := by
  refine ⟨ldfeW, (sLdfe []), (issuer (.ldfe ldfeW)), 4, (thread4 (sLdfe []) (.ldfe ldfeW)), 0, 0x40, ?_, ?_, ?_, ?_, ?_, ?_,
    ?_, ?_⟩ <;>
    first
      | decide | exact witness_issuesFor (by decide)
      | exact fun e o h => absurd (show (e, Op.granule o) ∈ ([] : List (Nat × Op)) from h) (by simp)
      | exact witness_fresh (by decide) | exact witness_nil rfl | rfl | exact fun e o h => by cases h

theorem test_full_empty_stores_fill_their_granule :
    ∃ w : MWord, ∃ s : State, ∃ u : Issuing, ∃ k : Nat, ∃ t : Thread, ∃ core : Nat, ∃ off : Nat, IssuesFor s u (.stfe w) 0
      w.ctr.toNat k t ∧ s.poison = [] ∧ (∀ e ∈ s.ops, ∀ j ∈ u.members, ∀ tgt, e.2.readsBytes j tgt (sizeBytes w.size.toNat) =
      false) ∧
    let b := beginWord s u (.stfe w)
    let n := sizeBytes w.size.toNat
    let pa := onchipPa core off
    checkAperture b t (effectiveVa b t w) n = .ok (.scratch core off) ∧ checkLocks b t (effectiveVa b t w) n true = .ok () ∧ (∀
      j, j < n → regionOf s (pa + j) = (core, .scratchpad (off + j))) := by
  refine ⟨stfeW, sStfe, (issuer (.stfe stfeW)), 4, (thread4 sStfe (.stfe stfeW)), 0, 0x40, ?_, ?_, ?_, ?_, ?_, ?_⟩ <;>
    first
      | decide | exact witness_issuesFor (by decide) | exact witness_nil rfl | rfl

theorem test_full_empty_store_wakes_a_wait :
    ∃ w : MWord, ∃ s : State, ∃ u : Issuing, ∃ k : Nat, ∃ t : Thread, ∃ core : Nat, ∃ off : Nat, IssuesFor s u (.stfe w) 0
      w.ctr.toNat k t ∧ s.poison = [] ∧ (∀ e ∈ s.ops, ∀ j ∈ u.members, ∀ tgt, e.2.readsBytes j tgt (sizeBytes w.size.toNat) =
      false) ∧
    let b := beginWord s u (.stfe w)
    let n := sizeBytes w.size.toNat
    let pa := onchipPa core off
    let g := granuleOf core off
    checkAperture b t (effectiveVa b t w) n = .ok (.scratch core off) ∧ checkLocks b t (effectiveVa b t w) n true = .ok () ∧ (∀
      j, j < n → regionOf s (pa + j) = (core, .scratchpad (off + j))) ∧ (tget 7 s.ops = some (.granule ⟨⟨5, 7⟩, 7, some 20, 4,
      0xFFFFFF0000000040, 0, 0x40, true⟩)) ∧ (granuleOf 0 0x40 = g) := by
  refine ⟨stfeW, sStfeWaiter, (issuer (.stfe stfeW)), 4, (thread4 sStfeWaiter (.stfe stfeW)), 0, 0x40, ?_, ?_, ?_, ?_, ?_, ?_,
    ?_, ?_⟩ <;>
    first
      | decide | exact witness_issuesFor (by decide) | exact witness_table (by decide) | exact witness_option (by decide)
      | exact witness_nil rfl | rfl
      | exact fun e he => by have : e = (7, .granule ⟨⟨5, 7⟩, 7, some 20, 4, 0xFFFFFF0000000040, 0, 0x40, true⟩) := (by simpa [sStfeWaiter] using he); subst this; exact fun j hj tgt => rfl

theorem test_full_empty_access_not_aligned :
    ∃ i : Instr, ∃ w : MWord, ∃ s : State, ∃ u : Issuing, ∃ k : Nat, ∃ t : Thread, ∃ bad : Bad, (i = .ldfe w ∨ i = .stfe w) ∧
      IssuesFor s u i 0 w.ctr.toNat k t ∧ s.poison = [] ∧ (∀ e ∈ s.ops, ∀ j ∈ u.members, ∀ tgt, e.2.readsBytes j tgt (sizeBytes
      w.size.toNat) = false) ∧ (∀ e o, (e, Op.granule o) ∈ s.ops → o.c.thread ≠ k) ∧ (384 ≤ w.dst.toNat → ungathered (beginWord
      s u i) u [k] = []) ∧
    let b := beginWord s u i
    let va := effectiveVa b t w
    let n := sizeBytes w.size.toNat
    checkAperture b t va n = .error bad := by
  refine ⟨(.stfe stfeW), stfeW, (withRegs [(2, 0x42), (3, 0xFFFFFF00)] (issuing (.stfe stfeW))), (issuer (.stfe stfeW)), 4,
    (thread4 (withRegs [(2, 0x42), (3, 0xFFFFFF00)] (issuing (.stfe stfeW))) (.stfe stfeW)), ⟨0x12, 0xFFFFFF0000000042, 0⟩,
    ?_, ?_, ?_, ?_, ?_, ?_, ?_⟩ <;>
    first
      | decide | exact witness_issuesFor (by decide)
      | exact fun e o h => absurd (show (e, Op.granule o) ∈ ([] : List (Nat × Op)) from h) (by simp) | exact witness_nil rfl
      | rfl | exact Or.inr rfl

theorem test_full_empty_access_below_the_aperture :
    ∃ i : Instr, ∃ w : MWord, ∃ s : State, ∃ u : Issuing, ∃ k : Nat, ∃ t : Thread, ∃ bad : Bad, (i = .ldfe w ∨ i = .stfe w) ∧
      IssuesFor s u i 0 w.ctr.toNat k t ∧ s.poison = [] ∧ (∀ e ∈ s.ops, ∀ j ∈ u.members, ∀ tgt, e.2.readsBytes j tgt (sizeBytes
      w.size.toNat) = false) ∧ (∀ e o, (e, Op.granule o) ∈ s.ops → o.c.thread ≠ k) ∧ (384 ≤ w.dst.toNat → ungathered (beginWord
      s u i) u [k] = []) ∧
    let b := beginWord s u i
    let va := effectiveVa b t w
    let n := sizeBytes w.size.toNat
    checkAperture b t va n = .error bad := by
  refine ⟨(.stfe stfeW), stfeW, (withRegs [(2, 0x60000)] (issuing (.stfe stfeW))), (issuer (.stfe stfeW)), 4,
    (thread4 (withRegs [(2, 0x60000)] (issuing (.stfe stfeW))) (.stfe stfeW)), ⟨0x03, 0, 0⟩, ?_, ?_, ?_, ?_, ?_, ?_, ?_⟩ <;>
    first
      | decide | exact witness_issuesFor (by decide)
      | exact fun e o h => absurd (show (e, Op.granule o) ∈ ([] : List (Nat × Op)) from h) (by simp) | exact witness_nil rfl
      | rfl | exact Or.inr rfl

theorem test_full_empty_access_past_the_allocation :
    ∃ i : Instr, ∃ w : MWord, ∃ s : State, ∃ u : Issuing, ∃ k : Nat, ∃ t : Thread, ∃ bad : Bad, (i = .ldfe w ∨ i = .stfe w) ∧
      IssuesFor s u i 0 w.ctr.toNat k t ∧ s.poison = [] ∧ (∀ e ∈ s.ops, ∀ j ∈ u.members, ∀ tgt, e.2.readsBytes j tgt (sizeBytes
      w.size.toNat) = false) ∧ (∀ e o, (e, Op.granule o) ∈ s.ops → o.c.thread ≠ k) ∧ (384 ≤ w.dst.toNat → ungathered (beginWord
      s u i) u [k] = []) ∧
    let b := beginWord s u i
    let va := effectiveVa b t w
    let n := sizeBytes w.size.toNat
    checkAperture b t va n = .error bad := by
  refine ⟨(.stfe stfeW), stfeW, (withRegs [(2, 0x1000), (3, 0xFFFFFF00)] (issuing (.stfe stfeW))), (issuer (.stfe stfeW)), 4,
    (thread4 (withRegs [(2, 0x1000), (3, 0xFFFFFF00)] (issuing (.stfe stfeW))) (.stfe stfeW)), ⟨0x11, 0xFFFFFF0000001000, 0⟩,
    ?_, ?_, ?_, ?_, ?_, ?_, ?_⟩ <;>
    first
      | decide | exact witness_issuesFor (by decide)
      | exact fun e o h => absurd (show (e, Op.granule o) ∈ ([] : List (Nat × Op)) from h) (by simp) | exact witness_nil rfl
      | rfl | exact Or.inr rfl

theorem test_tile_load_begins :
    ∃ i : Instr, ∃ w : RWord, ∃ s : State, ∃ u : Issuing, ∃ k : Nat, ∃ t : Thread, (i = .ldt w ∨ i = .stt w) ∧ IssuesFor s u i
      0 w.ctr k t ∧ s.freshKey ∧ s.poison = [] ∧ NoInterval s t.team ∧ (i = .stt w → w.fbits 9 1 = 1 → releasePending s k
      (w.fbits 10 3) = false) ∧
    let b := beginWord s u i
    let loads := decide (i = .ldt w)
    let a := src64 b t w.a
    ((checkTile b t loads a (src64 b t w.b) (src64 b t w.c)).isOk = true) := by
  refine ⟨(.ldt tileW), tileW, (withRegs atTile (issuing (.ldt tileW))), (issuer (.ldt tileW)), 4,
    (thread4 (withRegs atTile (issuing (.ldt tileW))) (.ldt tileW)), ?_, ?_, ?_, ?_, ?_, ?_, ?_⟩ <;>
    first
      | decide | exact witness_issuesFor (by decide) | exact witness_fresh (by decide) | exact witness_noInterval (by decide)
      | exact Or.inl rfl | exact Or.inr rfl

theorem test_tile_store_begins :
    ∃ i : Instr, ∃ w : RWord, ∃ s : State, ∃ u : Issuing, ∃ k : Nat, ∃ t : Thread, (i = .ldt w ∨ i = .stt w) ∧ IssuesFor s u i
      0 w.ctr k t ∧ s.freshKey ∧ s.poison = [] ∧ NoInterval s t.team ∧ (i = .stt w → w.fbits 9 1 = 1 → releasePending s k
      (w.fbits 10 3) = false) ∧
    let b := beginWord s u i
    let loads := decide (i = .ldt w)
    let a := src64 b t w.a
    ((checkTile b t loads a (src64 b t w.b) (src64 b t w.c)).isOk = true) := by
  refine ⟨(.stt tileW), tileW, (withRegs atTile (issuing (.stt tileW))), (issuer (.stt tileW)), 4,
    (thread4 (withRegs atTile (issuing (.stt tileW))) (.stt tileW)), ?_, ?_, ?_, ?_, ?_, ?_, ?_⟩ <;>
    first
      | decide | exact witness_issuesFor (by decide) | exact witness_fresh (by decide) | exact witness_noInterval (by decide)
      | exact Or.inl rfl | exact Or.inr rfl

theorem test_tile_that_is_not_aligned :
    ∃ i : Instr, ∃ w : RWord, ∃ s : State, ∃ u : Issuing, ∃ k : Nat, ∃ t : Thread, (i = .ldt w ∨ i = .stt w) ∧ IssuesFor s u i
      0 w.ctr k t ∧ s.freshKey ∧ s.poison = [] ∧ NoInterval s t.team ∧ (i = .stt w → w.fbits 9 1 = 1 → releasePending s k
      (w.fbits 10 3) = false) ∧
    let b := beginWord s u i
    let loads := decide (i = .ldt w)
    let a := src64 b t w.a
    ((checkTile b t loads a (src64 b t w.b) (src64 b t w.c)).isOk = false) := by
  refine ⟨(.ldt tileW), tileW,
    (withRegs [(2, 0x60001), (4, 0x40), (5, 0xFFFFFF00), (8, 256), (9, 0x810F)] (issuing (.ldt tileW))),
    (issuer (.ldt tileW)), 4,
    (thread4 (withRegs [(2, 0x60001), (4, 0x40), (5, 0xFFFFFF00), (8, 256), (9, 0x810F)] (issuing (.ldt tileW))) (.ldt tileW)),
    ?_, ?_, ?_, ?_, ?_, ?_, ?_⟩ <;>
    first
      | decide | exact witness_issuesFor (by decide) | exact witness_fresh (by decide) | exact witness_noInterval (by decide)
      | exact Or.inl rfl | exact Or.inr rfl

theorem test_discards_and_prefetches_begin_0 :
    ∃ w : RWord, ∃ s : State, ∃ u : Issuing, ∃ k : Nat, ∃ t : Thread, IssuesFor s u (.disc w) 0 w.ctr k t ∧ s.freshKey ∧
      s.poison = [] ∧
    let b := beginWord s u (.disc w)
    let check := checkDisc b t (src64 b t w.a) (src32 b t w.b)
    (check = .ok [0x60000, 0x60040]) := by
  refine ⟨discW, (sDisc 128), (issuer (.disc discW)), 4, (thread4 (sDisc 128) (.disc discW)), ?_, ?_, ?_, ?_⟩ <;>
    first
      | decide | exact witness_issuesFor (by decide) | exact witness_fresh (by decide) | rfl

theorem test_discard_of_nothing :
    ∃ w : RWord, ∃ s : State, ∃ u : Issuing, ∃ k : Nat, ∃ t : Thread, IssuesFor s u (.disc w) 0 w.ctr k t ∧ s.freshKey ∧
      s.poison = [] ∧
    let b := beginWord s u (.disc w)
    let check := checkDisc b t (src64 b t w.a) (src32 b t w.b)
    (check = .ok []) := by
  refine ⟨discW, (sDisc 0), (issuer (.disc discW)), 4, (thread4 (sDisc 0) (.disc discW)), ?_, ?_, ?_, ?_⟩ <;>
    first
      | decide | exact witness_issuesFor (by decide) | exact witness_fresh (by decide) | rfl

theorem test_discard_not_aligned :
    ∃ w : RWord, ∃ s : State, ∃ u : Issuing, ∃ k : Nat, ∃ t : Thread, IssuesFor s u (.disc w) 0 w.ctr k t ∧ s.freshKey ∧
      s.poison = [] ∧
    let b := beginWord s u (.disc w)
    let check := checkDisc b t (src64 b t w.a) (src32 b t w.b)
    (check = .error ⟨0x12, 0x60000, 0⟩) := by
  refine ⟨discW, (sDisc 63), (issuer (.disc discW)), 4, (thread4 (sDisc 63) (.disc discW)), ?_, ?_, ?_, ?_⟩ <;>
    first
      | decide | exact witness_issuesFor (by decide) | exact witness_fresh (by decide) | rfl

theorem test_discards_and_prefetches_begin_1 :
    ∃ w : MWord, ∃ s : State, ∃ u : Issuing, ∃ k : Nat, ∃ t : Thread, IssuesFor s u (.pref w) 0 w.ctr.toNat k t ∧ s.freshKey ∧
      s.poison = [] ∧
    let b := beginWord s u (.pref w)
    let found := prefetchLine b t (effectiveVa b t w)
    (found = some (0x600, false)) ∧ (missEntries s u.core < 1024) := by
  refine ⟨prefW, sPref, (issuer (.pref prefW)), 4, (thread4 sPref (.pref prefW)), ?_, ?_, ?_, ?_, ?_⟩ <;>
    first
      | decide | exact witness_issuesFor (by decide) | exact witness_fresh (by decide)

theorem test_prefetch_that_is_dropped :
    ∃ w : MWord, ∃ s : State, ∃ u : Issuing, ∃ k : Nat, ∃ t : Thread, IssuesFor s u (.pref w) 0 w.ctr.toNat k t ∧ s.freshKey ∧
      s.poison = [] ∧
    let b := beginWord s u (.pref w)
    let found := prefetchLine b t (effectiveVa b t w)
    (found = none) := by
  refine ⟨prefW, (withRegs [(3, 1)] (issuing (.pref prefW))), (issuer (.pref prefW)), 4,
    (thread4 (withRegs [(3, 1)] (issuing (.pref prefW))) (.pref prefW)), ?_, ?_, ?_, ?_⟩ <;>
    first
      | decide | exact witness_issuesFor (by decide) | exact witness_fresh (by decide)

theorem test_atomic_begins :
    ∃ i : Instr, ∃ fadd : Bool, ∃ w : RWord, ∃ s : State, ∃ u : Issuing, ∃ k : Nat, ∃ t : Thread, (i = .atom w ∧ fadd = false ∨
      i = .atomFadd w ∧ fadd = true) ∧ IssuesFor s u i 0 w.ctr k t ∧ s.freshKey ∧ s.poison = [] ∧ NoInterval s t.team ∧
    let b := beginWord s u i
    let n := if fadd then (if w.fbits 8 2 = 1 then 8 else 4) else (atomTy (w.fbits 8 2)).width / 8
    let nr := decide (w.fbits 4 1 = 1)
    let scope := bits w.c.toNat 0 3
    (∀ e ∈ s.ops, ∀ tgt, e.2.readsBytes k tgt n = false) ∧ (2 ≤ w.fbits 6 2 → releasePending s k scope = false) ∧ (384 ≤
      w.dst.toNat → nr = false → ungathered b u [k] = []) ∧ (checkAtomic b t fadd (src64 b t w.a) n = .ok (0x60000, .hbm
      0x60000)) := by
  refine ⟨(.atom atomW), false, atomW, sAtom, (issuer (.atom atomW)), 4, (thread4 sAtom (.atom atomW)), ?_, ?_, ?_, ?_, ?_,
    ?_, ?_, ?_, ?_⟩ <;>
    first
      | decide | exact witness_issuesFor (by decide) | exact witness_fresh (by decide) | exact witness_noInterval (by decide)
      | exact witness_nil rfl | rfl | exact Or.inl ⟨rfl, rfl⟩ | exact Or.inr ⟨rfl, rfl⟩

theorem test_floating_atomic_begins :
    ∃ i : Instr, ∃ fadd : Bool, ∃ w : RWord, ∃ s : State, ∃ u : Issuing, ∃ k : Nat, ∃ t : Thread, (i = .atom w ∧ fadd = false ∨
      i = .atomFadd w ∧ fadd = true) ∧ IssuesFor s u i 0 w.ctr k t ∧ s.freshKey ∧ s.poison = [] ∧ NoInterval s t.team ∧
    let b := beginWord s u i
    let n := if fadd then (if w.fbits 8 2 = 1 then 8 else 4) else (atomTy (w.fbits 8 2)).width / 8
    let nr := decide (w.fbits 4 1 = 1)
    let scope := bits w.c.toNat 0 3
    (∀ e ∈ s.ops, ∀ tgt, e.2.readsBytes k tgt n = false) ∧ (2 ≤ w.fbits 6 2 → releasePending s k scope = false) ∧ (384 ≤
      w.dst.toNat → nr = false → ungathered b u [k] = []) ∧ (checkAtomic b t fadd (src64 b t w.a) n = .ok (0x60000, .hbm
      0x60000)) := by
  refine ⟨(.atomFadd atomW), true, atomW, sFadd, (issuer (.atomFadd atomW)), 4, (thread4 sFadd (.atomFadd atomW)), ?_, ?_, ?_,
    ?_, ?_, ?_, ?_, ?_, ?_⟩ <;>
    first
      | decide | exact witness_issuesFor (by decide) | exact witness_fresh (by decide) | exact witness_noInterval (by decide)
      | exact witness_nil rfl | rfl | exact Or.inl ⟨rfl, rfl⟩ | exact Or.inr ⟨rfl, rfl⟩

theorem test_floating_atomic_in_a_deterministic_kernel :
    ∃ i : Instr, ∃ fadd : Bool, ∃ w : RWord, ∃ s : State, ∃ u : Issuing, ∃ k : Nat, ∃ t : Thread, (i = .atom w ∧ fadd = false ∨
      i = .atomFadd w ∧ fadd = true) ∧ IssuesFor s u i 0 w.ctr k t ∧ s.freshKey ∧ s.poison = [] ∧ NoInterval s t.team ∧
    let b := beginWord s u i
    let n := if fadd then (if w.fbits 8 2 = 1 then 8 else 4) else (atomTy (w.fbits 8 2)).width / 8
    let nr := decide (w.fbits 4 1 = 1)
    let scope := bits w.c.toNat 0 3
    (∀ e ∈ s.ops, ∀ tgt, e.2.readsBytes k tgt n = false) ∧ (2 ≤ w.fbits 6 2 → releasePending s k scope = false) ∧ (384 ≤
      w.dst.toNat → nr = false → ungathered b u [k] = []) ∧ (checkAtomic b t fadd (src64 b t w.a) n = .error ⟨0x31, 0, 0⟩) := by
  refine ⟨(.atomFadd atomW), true, atomW, sFaddDet, (issuer (.atomFadd atomW)), 4, (thread4 sFaddDet (.atomFadd atomW)), ?_,
    ?_, ?_, ?_, ?_, ?_, ?_, ?_, ?_⟩ <;>
    first
      | decide | exact witness_issuesFor (by decide) | exact witness_fresh (by decide) | exact witness_noInterval (by decide)
      | exact witness_nil rfl | rfl | exact Or.inl ⟨rfl, rfl⟩ | exact Or.inr ⟨rfl, rfl⟩

theorem test_contribution_begins :
    ∃ i : Instr, ∃ w : RWord, ∃ s : State, ∃ u : Issuing, ∃ k : Nat, ∃ t : Thread, (i = .ctb w ∨ i = .ctbseal w) ∧ IssuesFor s
      u i 0 w.ctr k t ∧ s.freshKey ∧ NoInterval s t.team ∧
    let b := beginWord s u i
    let h := src32 b t w.a
    let leaf := src64 b t w.b
    let legal (hd : Handle) : Bool := decide (i = .ctbseal w) ||
    (leaf ≤ hd.nm1 && leaf / 2 ^ hd.plog = hd.prank && (w.fbits 4 2 ≠ 1 || hd.pairNodes))
    let window (hd : Handle) : Option Nat := if i = .ctb w then ctbWindow b t hd leaf else none
    (h < 1024) ∧ (tget (handleKey t.ctx h) s.handles = some handle) ∧ (legal handle = true) ∧ (window handle = none) := by
  refine ⟨(.ctb ctbW), ctbW, (withHandle (withRegs (atLeaf 5 1) (issuing (.ctb ctbW)))), (issuer (.ctb ctbW)), 4,
    (thread4 (withHandle (withRegs (atLeaf 5 1) (issuing (.ctb ctbW)))) (.ctb ctbW)), ?_, ?_, ?_, ?_, ?_, ?_, ?_, ?_⟩ <;>
    first
      | decide | exact witness_issuesFor (by decide) | exact witness_fresh (by decide) | exact witness_noInterval (by decide)
      | exact Or.inl rfl | exact Or.inr rfl

theorem test_seal_begins :
    ∃ i : Instr, ∃ w : RWord, ∃ s : State, ∃ u : Issuing, ∃ k : Nat, ∃ t : Thread, (i = .ctb w ∨ i = .ctbseal w) ∧ IssuesFor s
      u i 0 w.ctr k t ∧ s.freshKey ∧ NoInterval s t.team ∧
    let b := beginWord s u i
    let h := src32 b t w.a
    let leaf := src64 b t w.b
    let legal (hd : Handle) : Bool := decide (i = .ctbseal w) ||
    (leaf ≤ hd.nm1 && leaf / 2 ^ hd.plog = hd.prank && (w.fbits 4 2 ≠ 1 || hd.pairNodes))
    let window (hd : Handle) : Option Nat := if i = .ctb w then ctbWindow b t hd leaf else none
    (h < 1024) ∧ (tget (handleKey t.ctx h) s.handles = some handle) ∧ (legal handle = true) ∧ (window handle = none) := by
  refine ⟨(.ctbseal sealW), sealW, (withHandle (withRegs (atLeaf 5 1) (issuing (.ctbseal sealW)))), (issuer (.ctbseal sealW)),
    4, (thread4 (withHandle (withRegs (atLeaf 5 1) (issuing (.ctbseal sealW)))) (.ctbseal sealW)), ?_, ?_, ?_, ?_, ?_, ?_, ?_,
    ?_⟩ <;>
    first
      | decide | exact witness_issuesFor (by decide) | exact witness_fresh (by decide) | exact witness_noInterval (by decide)
      | exact Or.inl rfl | exact Or.inr rfl

theorem test_contribution_to_no_leaf :
    ∃ i : Instr, ∃ w : RWord, ∃ s : State, ∃ u : Issuing, ∃ k : Nat, ∃ t : Thread, (i = .ctb w ∨ i = .ctbseal w) ∧ IssuesFor s
      u i 0 w.ctr k t ∧ s.freshKey ∧ NoInterval s t.team ∧
    let b := beginWord s u i
    let h := src32 b t w.a
    let leaf := src64 b t w.b
    let legal (hd : Handle) : Bool := decide (i = .ctbseal w) ||
    (leaf ≤ hd.nm1 && leaf / 2 ^ hd.plog = hd.prank && (w.fbits 4 2 ≠ 1 || hd.pairNodes))
    (tget (handleKey t.ctx h) s.handles = some handle) ∧ (legal handle = false) := by
  refine ⟨(.ctb ctbW), ctbW, (withHandle (withRegs (atLeaf 5 2) (issuing (.ctb ctbW)))), (issuer (.ctb ctbW)), 4,
    (thread4 (withHandle (withRegs (atLeaf 5 2) (issuing (.ctb ctbW)))) (.ctb ctbW)), ?_, ?_, ?_, ?_, ?_, ?_⟩ <;>
    first
      | decide | exact witness_issuesFor (by decide) | exact witness_fresh (by decide) | exact witness_noInterval (by decide)
      | exact Or.inl rfl | exact Or.inr rfl

theorem test_contribution_to_no_handle :
    ∃ i : Instr, ∃ w : RWord, ∃ s : State, ∃ u : Issuing, ∃ k : Nat, ∃ t : Thread, (i = .ctb w ∨ i = .ctbseal w) ∧ IssuesFor s
      u i 0 w.ctr k t ∧ s.freshKey ∧ NoInterval s t.team ∧
    let b := beginWord s u i
    let h := src32 b t w.a
    (1024 ≤ h) := by
  refine ⟨(.ctb ctbW), ctbW, (withHandle (withRegs (atLeaf 1024 1) (issuing (.ctb ctbW)))), (issuer (.ctb ctbW)), 4,
    (thread4 (withHandle (withRegs (atLeaf 1024 1) (issuing (.ctb ctbW)))) (.ctb ctbW)), ?_, ?_, ?_, ?_, ?_⟩ <;>
    first
      | decide | exact witness_issuesFor (by decide) | exact witness_fresh (by decide) | exact witness_noInterval (by decide)
      | exact Or.inl rfl | exact Or.inr rfl

theorem test_address_wait_goes_on :
    ∃ w : RWord, ∃ s : State, ∃ u : Issuing, ∃ k : Nat, ∃ t : Thread, ∃ va : Nat, ∃ bypass : Bool, ∃ tgt : Target, IssuesFor s
      u (.wait w) 0 w.ctr k t ∧ s.freshKey ∧ s.poison = [] ∧ (384 ≤ w.dst.toNat → ungathered (beginWord s u (.wait w)) u [k] =
      []) ∧
    let b := beginWord s u (.wait w)
    let ty := atomTy (w.fbits 11 2)
    (w.dst.toNat < 384 → w.dst.toNat + ty.regs ≤ 384) ∧ checkPlain b t needBoth false (src64 b t w.a) (ty.width / 8) = .ok (va,
      bypass, tgt) ∧ (tgt.isHbm = true ∨ tgt.isScratch = true) ∧ checkLocks b t va (ty.width / 8) false = .ok () ∧
    let o : WaitOp := ⟨⟨k, w.ctr⟩, u.core, t.team, some w.dst.toNat, va, tgt, w.fbits 11 2, bits w.c.toNat 0 3,
    srcValue b t ty w.b, bits w.c.toNat 3 3, w.fbits 10 1 = 1⟩
    let v := waitValue b o
    let met := waitReady b s.nextKey o && intCond (bits w.c.toNat 0 3) (ty.intValue v) (ty.intValue (srcValue b t ty w.b))
    (met = true) := by
  refine ⟨waitAW, (sWait 77), (issuer (.wait waitAW)), 4, (thread4 (sWait 77) (.wait waitAW)), 0x60000, false, (.hbm 0x60000),
    ?_, ?_, ?_, ?_, ?_, ?_, ?_, ?_, ?_⟩ <;>
    first
      | decide | exact witness_issuesFor (by decide) | exact witness_fresh (by decide) | rfl | exact Or.inl rfl

theorem test_address_wait_waits :
    ∃ w : RWord, ∃ s : State, ∃ u : Issuing, ∃ k : Nat, ∃ t : Thread, ∃ va : Nat, ∃ bypass : Bool, ∃ tgt : Target, IssuesFor s
      u (.wait w) 0 w.ctr k t ∧ s.freshKey ∧ s.poison = [] ∧ (384 ≤ w.dst.toNat → ungathered (beginWord s u (.wait w)) u [k] =
      []) ∧
    let b := beginWord s u (.wait w)
    let ty := atomTy (w.fbits 11 2)
    (w.dst.toNat < 384 → w.dst.toNat + ty.regs ≤ 384) ∧ checkPlain b t needBoth false (src64 b t w.a) (ty.width / 8) = .ok (va,
      bypass, tgt) ∧ (tgt.isHbm = true ∨ tgt.isScratch = true) ∧ checkLocks b t va (ty.width / 8) false = .ok () ∧
    let o : WaitOp := ⟨⟨k, w.ctr⟩, u.core, t.team, some w.dst.toNat, va, tgt, w.fbits 11 2, bits w.c.toNat 0 3,
    srcValue b t ty w.b, bits w.c.toNat 3 3, w.fbits 10 1 = 1⟩
    let v := waitValue b o
    let met := waitReady b s.nextKey o && intCond (bits w.c.toNat 0 3) (ty.intValue v) (ty.intValue (srcValue b t ty w.b))
    (met = false) := by
  refine ⟨waitAW, (sWait 5), (issuer (.wait waitAW)), 4, (thread4 (sWait 5) (.wait waitAW)), 0x60000, false, (.hbm 0x60000),
    ?_, ?_, ?_, ?_, ?_, ?_, ?_, ?_, ?_⟩ <;>
    first
      | decide | exact witness_issuesFor (by decide) | exact witness_fresh (by decide) | rfl | exact Or.inl rfl

theorem test_loads_of_one_word_coalesce :
    ∃ i : Instr, ∃ kind : LoadKind, ∃ acq : Bool, ∃ w : MWord, ∃ s : State, ∃ u : Issuing, loadForm i = some (kind, acq, w) ∧
      Issues s u i 0 w.ctr.toNat ∧ u.members.Nodup ∧ actives s u i ≠ [] ∧ controlHold s u = false ∧ s.freshKey ∧ s.poison = []
      ∧
    let b := beginWord s u i
    let n := sizeBytes w.size.toNat
    let check (t : Thread) := checkBoth b t needRead true (effectiveVa b t w) n
    (∀ k ∈ actives s u i, ∃ t va tgt, tget k b.threads = some t ∧ NoInterval s t.team ∧ check t = .ok (va, false, tgt)) ∧ (384
      ≤ w.dst.toNat → ungathered b u (actives s u i) = []) := by
  refine ⟨(.ldCa loadW), .ca, false, loadW, sLoadSet, (setOf (.ldCa loadW)), ?_, ?_, ?_, ?_, ?_, ?_, ?_, ?_, ?_⟩ <;>
    first
      | decide | exact witness_issues (by decide) | exact witness_fresh (by decide) | exact witness_noInterval (by decide)
      | rfl
      | exact fun k hk => by
          rw [show actives sLoadSet (setOf (.ldCa loadW)) (.ldCa loadW) = [4, 5] by decide] at hk
          simp only [List.mem_cons, List.not_mem_nil, or_false] at hk
          rcases hk with rfl | rfl
          · exact ⟨tgetD 4 blankThread (beginWord sLoadSet (setOf (.ldCa loadW)) (.ldCa loadW)).threads, 0x60000, .hbm 0x60000, by decide, witness_noInterval (by decide), rfl⟩
          · exact ⟨tgetD 5 blankThread (beginWord sLoadSet (setOf (.ldCa loadW)) (.ldCa loadW)).threads, 0x60004, .hbm 0x60004, by decide, witness_noInterval (by decide), rfl⟩

theorem test_stores_of_one_word_coalesce :
    ∃ i : Instr, ∃ rel : Bool, ∃ w : MWord, ∃ s : State, ∃ u : Issuing, ∃ ctx : Nat, ∃ team : Nat, storeForm i = some (rel, w)
      ∧ Issues s u i 0 w.ctr.toNat ∧ u.members.Nodup ∧ s.freshKey ∧ NoInterval s team ∧
    let b := beginWord s u i
    let n := sizeBytes w.size.toNat
    let check (t : Thread) := checkBoth b t needWrite false (effectiveVa b t w) n
    (∀ k ∈ actives s u i, ∃ t va bypass pa, tget k b.threads = some t ∧ t.ctx = ctx ∧ t.team = team ∧ check t = .ok (va,
      bypass, .hbm pa)) ∧ readsFirst i needWrite (fun s t => effectiveVa s t w) n s u = false ∧ (rel = true → ∀ k ∈ actives s u
      i, releasePending s k w.scope.toNat = false) := by
  refine ⟨(.st storeW), false, storeW, sStoreSet, (setOf (.st storeW)), 0, 2, ?_, ?_, ?_, ?_, ?_, ?_, ?_, ?_⟩ <;>
    first
      | decide | exact witness_issues (by decide) | exact witness_fresh (by decide) | exact witness_noInterval (by decide)
      | rfl
      | exact fun k hk => by
          rw [show actives sStoreSet (setOf (.st storeW)) (.st storeW) = [4, 5] by decide] at hk
          simp only [List.mem_cons, List.not_mem_nil, or_false] at hk
          rcases hk with rfl | rfl
          · exact ⟨tgetD 4 blankThread (beginWord sStoreSet (setOf (.st storeW)) (.st storeW)).threads, 0x60000, false, 0x60000, by decide, rfl, rfl, rfl⟩
          · exact ⟨tgetD 5 blankThread (beginWord sStoreSet (setOf (.st storeW)) (.st storeW)).threads, 0x60004, false, 0x60004, by decide, rfl, rfl, rfl⟩

theorem test_atomics_of_one_word_aggregate :
    ∃ i : Instr, ∃ fadd : Bool, ∃ w : RWord, ∃ s : State, ∃ u : Issuing, ∃ ctx : Nat, ∃ team : Nat, (i = .atom w ∧ fadd = false
      ∨ i = .atomFadd w ∧ fadd = true) ∧ Issues s u i 0 w.ctr ∧ u.members.Nodup ∧ s.freshKey ∧ s.poison = [] ∧ NoInterval s
      team ∧
    let b := beginWord s u i
    let n := if fadd then (if w.fbits 8 2 = 1 then 8 else 4) else (atomTy (w.fbits 8 2)).width / 8
    let nr := decide (w.fbits 4 1 = 1)
    let check (t : Thread) := checkAtomic b t fadd (src64 b t w.a) n
    (∀ k ∈ actives s u i, ∃ t va tgt, tget k b.threads = some t ∧ t.ctx = ctx ∧ t.team = team ∧ check t = .ok (va, tgt)) ∧
      atomHold i w n s u = false ∧ (384 ≤ w.dst.toNat → nr = false → ungathered b u (actives s u i) = []) := by
  refine ⟨(.atom atomW), false, atomW, sAtomSet, (setOf (.atom atomW)), 0, 2, ?_, ?_, ?_, ?_, ?_, ?_, ?_, ?_, ?_⟩ <;>
    first
      | decide | exact witness_issues (by decide) | exact witness_fresh (by decide) | exact witness_noInterval (by decide)
      | rfl | exact Or.inl ⟨rfl, rfl⟩
      | exact fun k hk => by
          rw [show actives sAtomSet (setOf (.atom atomW)) (.atom atomW) = [4, 5] by decide] at hk
          simp only [List.mem_cons, List.not_mem_nil, or_false] at hk
          rcases hk with rfl | rfl
          · exact ⟨tgetD 4 blankThread (beginWord sAtomSet (setOf (.atom atomW)) (.atom atomW)).threads, 0x60000, .hbm 0x60000, by decide, rfl, rfl, rfl⟩
          · exact ⟨tgetD 5 blankThread (beginWord sAtomSet (setOf (.atom atomW)) (.atom atomW)).threads, 0x60000, .hbm 0x60000, by decide, rfl, rfl, rfl⟩

theorem test_store_to_a_peer_page :
    ∃ i : Instr, ∃ rel : Bool, ∃ w : MWord, ∃ s : State, ∃ u : Issuing, ∃ k : Nat, ∃ t : Thread, ∃ va : Nat, ∃ bypass : Bool, ∃
      tgt : Target, storeForm i = some (rel, w) ∧ IssuesFor s u i 0 w.ctr.toNat k t ∧ s.freshKey ∧ s.poison = [] ∧ NoInterval s
      t.team ∧
    let b := beginWord s u i
    let n := sizeBytes w.size.toNat
    checkBoth b t needWrite false (effectiveVa b t w) n = .ok (va, bypass, tgt) ∧ readsFirst i needWrite (fun s t =>
      effectiveVa s t w) n s u = false ∧ (rel = true → releasePending s k w.scope.toNat = false) ∧ (tgt = .peer 3 0x40) := by
  refine ⟨(.st storeW), false, storeW, (sStoreAt 0x3000000005F 0x60040 false), (issuer (.st storeW)), 4,
    (thread4 (sStoreAt 0x3000000005F 0x60040 false) (.st storeW)), 0x60040, false, (.peer 3 0x40), ?_, ?_, ?_, ?_, ?_, ?_, ?_,
    ?_, ?_⟩ <;>
    first
      | decide | exact witness_issuesFor (by decide) | exact witness_fresh (by decide) | exact witness_noInterval (by decide)
      | rfl

theorem test_store_to_the_control_space :
    ∃ i : Instr, ∃ rel : Bool, ∃ w : MWord, ∃ s : State, ∃ u : Issuing, ∃ k : Nat, ∃ t : Thread, ∃ va : Nat, ∃ bypass : Bool, ∃
      tgt : Target, storeForm i = some (rel, w) ∧ IssuesFor s u i 0 w.ctr.toNat k t ∧ s.freshKey ∧ s.poison = [] ∧ NoInterval s
      t.team ∧
    let b := beginWord s u i
    let n := sizeBytes w.size.toNat
    checkBoth b t needWrite false (effectiveVa b t w) n = .ok (va, bypass, tgt) ∧ readsFirst i needWrite (fun s t =>
      effectiveVa s t w) n s u = false ∧ (rel = true → releasePending s k w.scope.toNat = false) ∧ (tgt = .control 0x10) := by
  refine ⟨(.st storeW), false, storeW, (sStoreAt 0xF100000000001F 0x60010 true), (issuer (.st storeW)), 4,
    (thread4 (sStoreAt 0xF100000000001F 0x60010 true) (.st storeW)), 0x60010, false, (.control 0x10), ?_, ?_, ?_, ?_, ?_, ?_,
    ?_, ?_, ?_⟩ <;>
    first
      | decide | exact witness_issuesFor (by decide) | exact witness_fresh (by decide) | exact witness_noInterval (by decide)
      | rfl

theorem test_store_to_a_scratchpad_by_the_map :
    ∃ i : Instr, ∃ rel : Bool, ∃ w : MWord, ∃ s : State, ∃ u : Issuing, ∃ k : Nat, ∃ t : Thread, ∃ va : Nat, ∃ bypass : Bool, ∃
      tgt : Target, storeForm i = some (rel, w) ∧ IssuesFor s u i 0 w.ctr.toNat k t ∧ s.freshKey ∧ s.poison = [] ∧ NoInterval s
      t.team ∧
    let b := beginWord s u i
    let n := sizeBytes w.size.toNat
    checkBoth b t needWrite false (effectiveVa b t w) n = .ok (va, bypass, tgt) ∧ readsFirst i needWrite (fun s t =>
      effectiveVa s t w) n s u = false ∧ (rel = true → releasePending s k w.scope.toNat = false) ∧ (tgt = .onchip
      0xF0000000000040) ∧ (∀ j, j < n → regionOf s (0xF0000000000040 + j) = (0, .scratchpad (0x40 + j))) ∧ (s.ops = []) := by
  refine ⟨(.st storeW), false, storeW, (sStoreAt 0xF000000000001F 0x60040 false), (issuer (.st storeW)), 4,
    (thread4 (sStoreAt 0xF000000000001F 0x60040 false) (.st storeW)), 0x60040, false, (.onchip 0xF0000000000040), ?_, ?_, ?_,
    ?_, ?_, ?_, ?_, ?_, ?_, ?_, ?_⟩ <;>
    first
      | decide | exact witness_issuesFor (by decide) | exact witness_fresh (by decide) | exact witness_noInterval (by decide)
      | rfl

theorem test_store_to_a_register_row :
    ∃ i : Instr, ∃ rel : Bool, ∃ w : MWord, ∃ s : State, ∃ u : Issuing, ∃ k : Nat, ∃ t : Thread, ∃ va : Nat, ∃ bypass : Bool, ∃
      tgt : Target, storeForm i = some (rel, w) ∧ IssuesFor s u i 0 w.ctr.toNat k t ∧ s.freshKey ∧ s.poison = [] ∧ NoInterval s
      t.team ∧
    let b := beginWord s u i
    let n := sizeBytes w.size.toNat
    checkBoth b t needWrite false (effectiveVa b t w) n = .ok (va, bypass, tgt) ∧ readsFirst i needWrite (fun s t =>
      effectiveVa s t w) n s u = false ∧ (rel = true → releasePending s k w.scope.toNat = false) ∧ (tgt = .onchip
      0xF0000000400020) ∧ (∀ j, j < 4 → regionOf s (0xF0000000400020 + j) = (0, .register 0 0 8 j)) ∧ (rowOwner s 0 0 0 8 =
      some (3, 0, 8)) ∧ (memberThread s 3 0 = some (4, tgetD 4 blankThread s.threads)) := by
  refine ⟨(.st storeW), false, storeW, (sStoreAt 0xF000000040001F 0x60020 false), (issuer (.st storeW)), 4,
    (thread4 (sStoreAt 0xF000000040001F 0x60020 false) (.st storeW)), 0x60020, false, (.onchip 0xF0000000400020), ?_, ?_, ?_,
    ?_, ?_, ?_, ?_, ?_, ?_, ?_, ?_, ?_⟩ <;>
    first
      | decide | exact witness_issuesFor (by decide) | exact witness_fresh (by decide) | exact witness_noInterval (by decide)
      | exact witness_table (by decide) | exact witness_option (by decide) | rfl

theorem test_contribution_to_a_version_window :
    ∃ i : Instr, ∃ w : RWord, ∃ s : State, ∃ u : Issuing, ∃ k : Nat, ∃ t : Thread, (i = .ctb w ∨ i = .ctbseal w) ∧ IssuesFor s
      u i 0 w.ctr k t ∧ s.freshKey ∧ NoInterval s t.team ∧
    let b := beginWord s u i
    let h := src32 b t w.a
    let leaf := src64 b t w.b
    let legal (hd : Handle) : Bool := decide (i = .ctbseal w) ||
    (leaf ≤ hd.nm1 && leaf / 2 ^ hd.plog = hd.prank && (w.fbits 4 2 ≠ 1 || hd.pairNodes))
    let window (hd : Handle) : Option Nat := if i = .ctb w then ctbWindow b t hd leaf else none
    (h < 1024) ∧ (tget (handleKey t.ctx h) s.handles = some handle) ∧ (legal handle = true) ∧ (window handle = some 0x70000) := by
  refine ⟨(.ctb ctbW), ctbW, sCtbWindow, (issuer (.ctb ctbW)), 4, (thread4 sCtbWindow (.ctb ctbW)), ?_, ?_, ?_, ?_, ?_, ?_,
    ?_, ?_⟩ <;>
    first
      | decide | exact witness_issuesFor (by decide) | exact witness_fresh (by decide) | exact witness_noInterval (by decide)
      | exact Or.inl rfl | exact Or.inr rfl

theorem test_traps_raise_the_software_trap :
    ∃ w : RWord, ∃ s : State, ∃ u : Issuing, Issues s u (.trap w) 0 7 := by
  refine ⟨trapW, (issuing (.trap trapW)), (issuer (.trap trapW)), ?_⟩ <;>
    first
      | decide | exact witness_issues (by decide)

theorem test_sysret_retry :
    ∃ w : RWord, ∃ s : State, ∃ u : Issuing, ∃ k : Nat, ∃ t : Thread, IssuesFor s u (.sysret w) 0 7 k t ∧ s.sorted ∧ u.members
      = [k] ∧ t.state = .issuing ∧ Calm s ∧
    let b := beginWord s u (.sysret w)
    let va := src64 b t w.a
    let action := bits w.c.toNat 0 2
    let found := trappedAt b t.ctx va
    (found.isSome) ∧ (t.sys = true) ∧ (action = 0) := by
  refine ⟨(sysretW 0), (sSysret 0 wordTrapInfo), (issuer (.sysret (sysretW 0))), 4,
    (thread4 (sSysret 0 wordTrapInfo) (.sysret (sysretW 0))), ?_, ?_, ?_, ?_, ?_, ?_, ?_, ?_⟩ <;>
    first
      | decide | exact witness_issuesFor (by decide) | exact witness_calm (by decide) | exact ⟨rfl, rfl⟩ | rfl

theorem test_sysret_skip :
    ∃ w : RWord, ∃ s : State, ∃ u : Issuing, ∃ k : Nat, ∃ t : Thread, IssuesFor s u (.sysret w) 0 7 k t ∧ s.sorted ∧ u.members
      = [k] ∧ t.state = .issuing ∧ Calm s ∧
    let b := beginWord s u (.sysret w)
    let va := src64 b t w.a
    let action := bits w.c.toNat 0 2
    let found := trappedAt b t.ctx va
    (found.isSome) ∧ (t.sys = true) ∧ (action = 1) := by
  refine ⟨(sysretW 1), (sSysret 1 wordTrapInfo), (issuer (.sysret (sysretW 1))), 4,
    (thread4 (sSysret 1 wordTrapInfo) (.sysret (sysretW 1))), ?_, ?_, ?_, ?_, ?_, ?_, ?_, ?_⟩ <;>
    first
      | decide | exact witness_issuesFor (by decide) | exact witness_calm (by decide) | exact ⟨rfl, rfl⟩ | rfl

theorem test_sysret_kill :
    ∃ w : RWord, ∃ s : State, ∃ u : Issuing, ∃ k : Nat, ∃ t : Thread, IssuesFor s u (.sysret w) 0 7 k t ∧ s.sorted ∧ u.members
      = [k] ∧ t.state = .issuing ∧ Calm s ∧
    let b := beginWord s u (.sysret w)
    let va := src64 b t w.a
    let action := bits w.c.toNat 0 2
    let found := trappedAt b t.ctx va
    (found.isSome) ∧ (t.sys = true) ∧ (action = 2) := by
  refine ⟨(sysretW 2), (sSysret 2 wordTrapInfo), (issuer (.sysret (sysretW 2))), 4,
    (thread4 (sSysret 2 wordTrapInfo) (.sysret (sysretW 2))), ?_, ?_, ?_, ?_, ?_, ?_, ?_, ?_⟩ <;>
    first
      | decide | exact witness_issuesFor (by decide) | exact witness_calm (by decide) | exact ⟨rfl, rfl⟩ | rfl

theorem test_sysret_goto :
    ∃ w : RWord, ∃ s : State, ∃ u : Issuing, ∃ k : Nat, ∃ t : Thread, IssuesFor s u (.sysret w) 0 7 k t ∧ s.sorted ∧ u.members
      = [k] ∧ t.state = .issuing ∧ Calm s ∧
    let b := beginWord s u (.sysret w)
    let va := src64 b t w.a
    let action := bits w.c.toNat 0 2
    let found := trappedAt b t.ctx va
    (found.isSome) ∧ (t.sys = true) ∧ (action = 3) := by
  refine ⟨(sysretW 3), (sSysret 3 wordTrapInfo), (issuer (.sysret (sysretW 3))), 4,
    (thread4 (sSysret 3 wordTrapInfo) (.sysret (sysretW 3))), ?_, ?_, ?_, ?_, ?_, ?_, ?_, ?_⟩ <;>
    first
      | decide | exact witness_issuesFor (by decide) | exact witness_calm (by decide) | exact ⟨rfl, rfl⟩ | rfl

theorem test_sysret_in_user_mode :
    ∃ w : RWord, ∃ s : State, ∃ u : Issuing, ∃ k : Nat, ∃ t : Thread, IssuesFor s u (.sysret w) 0 7 k t ∧ s.sorted ∧ u.members
      = [k] ∧ t.state = .issuing ∧ Calm s ∧ (t.sys = false) := by
  refine ⟨(sysretW 0), (sSysret 0 wordTrapInfo false), (issuer (.sysret (sysretW 0))), 4,
    (thread4 (sSysret 0 wordTrapInfo false) (.sysret (sysretW 0))), ?_, ?_, ?_, ?_, ?_, ?_⟩ <;>
    first
      | decide | exact witness_issuesFor (by decide) | exact witness_calm (by decide) | exact ⟨rfl, rfl⟩ | rfl

theorem test_srd_of_code_0 :
    ∃ w : RWord, ∃ s : State, ∃ u : Issuing, ∃ k : Nat, ∃ g : Nat, ∃ t : Thread, ∃ gr : Group, ∃ tm : Team, ∃ l : Launch, ∃ c :
      Context, IssuesFor s u (.srd w) 4 7 k t ∧ (384 ≤ w.dst.toNat → ungathered (beginWord s u (.srd w)) u [k] = []) ∧ t.group
      = some g ∧ tget g s.groups = some gr ∧ tget t.team s.teams = some tm ∧ tget t.launch s.launches = some l ∧ tget t.ctx
      s.contexts = some c := by
  refine ⟨(srdW 0), (sSrd 0 true), (issuer (.srd (srdW 0))), 4, 3, (thread4 (sSrd 0 true) (.srd (srdW 0))),
    (group3 (sSrd 0 true)), (team2 (sSrd 0 true)), (launch1 (sSrd 0 true)), (context0 (sSrd 0 true)), ?_, ?_, ?_, ?_, ?_, ?_,
    ?_⟩ <;>
    first
      | decide | exact witness_issuesFor (by decide)

theorem test_srd_of_code_6 :
    ∃ w : RWord, ∃ s : State, ∃ u : Issuing, ∃ k : Nat, ∃ g : Nat, ∃ t : Thread, ∃ gr : Group, ∃ tm : Team, ∃ l : Launch, ∃ c :
      Context, IssuesFor s u (.srd w) 4 7 k t ∧ (384 ≤ w.dst.toNat → ungathered (beginWord s u (.srd w)) u [k] = []) ∧ t.group
      = some g ∧ tget g s.groups = some gr ∧ tget t.team s.teams = some tm ∧ tget t.launch s.launches = some l ∧ tget t.ctx
      s.contexts = some c := by
  refine ⟨(srdW 6), (sSrd 6 true), (issuer (.srd (srdW 6))), 4, 3, (thread4 (sSrd 6 true) (.srd (srdW 6))),
    (group3 (sSrd 6 true)), (team2 (sSrd 6 true)), (launch1 (sSrd 6 true)), (context0 (sSrd 6 true)), ?_, ?_, ?_, ?_, ?_, ?_,
    ?_⟩ <;>
    first
      | decide | exact witness_issuesFor (by decide)

theorem test_srd_of_code_9 :
    ∃ w : RWord, ∃ s : State, ∃ u : Issuing, ∃ k : Nat, ∃ g : Nat, ∃ t : Thread, ∃ gr : Group, ∃ tm : Team, ∃ l : Launch, ∃ c :
      Context, IssuesFor s u (.srd w) 4 7 k t ∧ (384 ≤ w.dst.toNat → ungathered (beginWord s u (.srd w)) u [k] = []) ∧ t.group
      = some g ∧ tget g s.groups = some gr ∧ tget t.team s.teams = some tm ∧ tget t.launch s.launches = some l ∧ tget t.ctx
      s.contexts = some c := by
  refine ⟨(srdW 9), (sSrd 9 true), (issuer (.srd (srdW 9))), 4, 3, (thread4 (sSrd 9 true) (.srd (srdW 9))),
    (group3 (sSrd 9 true)), (team2 (sSrd 9 true)), (launch1 (sSrd 9 true)), (context0 (sSrd 9 true)), ?_, ?_, ?_, ?_, ?_, ?_,
    ?_⟩ <;>
    first
      | decide | exact witness_issuesFor (by decide)

theorem test_srd_of_code_64 :
    ∃ w : RWord, ∃ s : State, ∃ u : Issuing, ∃ k : Nat, ∃ g : Nat, ∃ t : Thread, ∃ gr : Group, ∃ tm : Team, ∃ l : Launch, ∃ c :
      Context, IssuesFor s u (.srd w) 4 7 k t ∧ (384 ≤ w.dst.toNat → ungathered (beginWord s u (.srd w)) u [k] = []) ∧ t.group
      = some g ∧ tget g s.groups = some gr ∧ tget t.team s.teams = some tm ∧ tget t.launch s.launches = some l ∧ tget t.ctx
      s.contexts = some c := by
  refine ⟨(srdW 64), (sSrd 64 true), (issuer (.srd (srdW 64))), 4, 3, (thread4 (sSrd 64 true) (.srd (srdW 64))),
    (group3 (sSrd 64 true)), (team2 (sSrd 64 true)), (launch1 (sSrd 64 true)), (context0 (sSrd 64 true)), ?_, ?_, ?_, ?_, ?_,
    ?_, ?_⟩ <;>
    first
      | decide | exact witness_issuesFor (by decide)

theorem test_srd_of_code_65 :
    ∃ w : RWord, ∃ s : State, ∃ u : Issuing, ∃ k : Nat, ∃ g : Nat, ∃ t : Thread, ∃ gr : Group, ∃ tm : Team, ∃ l : Launch, ∃ c :
      Context, IssuesFor s u (.srd w) 4 7 k t ∧ (384 ≤ w.dst.toNat → ungathered (beginWord s u (.srd w)) u [k] = []) ∧ t.group
      = some g ∧ tget g s.groups = some gr ∧ tget t.team s.teams = some tm ∧ tget t.launch s.launches = some l ∧ tget t.ctx
      s.contexts = some c := by
  refine ⟨(srdW 65), (sSrd 65 false), (issuer (.srd (srdW 65))), 4, 3, (thread4 (sSrd 65 false) (.srd (srdW 65))),
    (group3 (sSrd 65 false)), (team2 (sSrd 65 false)), (launch1 (sSrd 65 false)), (context0 (sSrd 65 false)), ?_, ?_, ?_, ?_,
    ?_, ?_, ?_⟩ <;>
    first
      | decide | exact witness_issuesFor (by decide)

theorem test_swr_check :
    ∃ w : RWord, ∃ s : State, ∃ u : Issuing, ∃ k : Nat, ∃ t : Thread, IssuesFor s u (.swr w) 0 7 k t := by
  refine ⟨(swrW 64), (sSwr 64 1 true), (issuer (.swr (swrW 64))), 4, (thread4 (sSwr 64 1 true) (.swr (swrW 64))), ?_⟩ <;>
    first
      | decide | exact witness_issuesFor (by decide)

theorem test_swr_cage_timeout :
    ∃ w : RWord, ∃ s : State, ∃ u : Issuing, ∃ k : Nat, ∃ t : Thread, IssuesFor s u (.swr w) 0 7 k t := by
  refine ⟨(swrW 65), (sSwr 65 16 true), (issuer (.swr (swrW 65))), 4, (thread4 (sSwr 65 16 true) (.swr (swrW 65))), ?_⟩ <;>
    first
      | decide | exact witness_issuesFor (by decide)

theorem test_swr_small_cage_timeout :
    ∃ w : RWord, ∃ s : State, ∃ u : Issuing, ∃ k : Nat, ∃ t : Thread, IssuesFor s u (.swr w) 0 7 k t := by
  refine ⟨(swrW 65), (sSwr 65 15 true), (issuer (.swr (swrW 65))), 4, (thread4 (sSwr 65 15 true) (.swr (swrW 65))), ?_⟩ <;>
    first
      | decide | exact witness_issuesFor (by decide)

theorem test_swr_user_mode :
    ∃ w : RWord, ∃ s : State, ∃ u : Issuing, ∃ k : Nat, ∃ t : Thread, IssuesFor s u (.swr w) 0 7 k t := by
  refine ⟨(swrW 65), (sSwr 65 16 false), (issuer (.swr (swrW 65))), 4, (thread4 (sSwr 65 16 false) (.swr (swrW 65))), ?_⟩ <;>
    first
      | decide | exact witness_issuesFor (by decide)

theorem test_purge_is_accepted :
    ∃ w : RWord, ∃ s : State, ∃ u : Issuing, ∃ k : Nat, ∃ t : Thread, IssuesFor s u (.rinv w) 0 w.ctr k t ∧ s.freshKey ∧
      NoInterval s t.team ∧ releasePending s k 4 = false ∧
    let b := beginWord s u (.rinv w)
    let base := src64 b t w.a
    let len := src64 b t w.b
    (checkRinv b t base len (src64 b t w.c) = .ok (.hbm 0x61000)) := by
  refine ⟨rinvW, (sRinv 393216 256), (issuer (.rinv rinvW)), 4, (thread4 (sRinv 393216 256) (.rinv rinvW)), ?_, ?_, ?_, ?_,
    ?_⟩ <;>
    first
      | decide | exact witness_issuesFor (by decide) | exact witness_fresh (by decide) | exact witness_noInterval (by decide)
      | rfl

theorem test_purge_not_aligned :
    ∃ w : RWord, ∃ s : State, ∃ u : Issuing, ∃ k : Nat, ∃ t : Thread, IssuesFor s u (.rinv w) 0 w.ctr k t ∧ s.freshKey ∧
      NoInterval s t.team ∧ releasePending s k 4 = false ∧
    let b := beginWord s u (.rinv w)
    let base := src64 b t w.a
    let len := src64 b t w.b
    (base % 256 ≠ 0 ∨ len % 256 ≠ 0) := by
  refine ⟨rinvW, (sRinv 393217 256), (issuer (.rinv rinvW)), 4, (thread4 (sRinv 393217 256) (.rinv rinvW)), ?_, ?_, ?_, ?_,
    ?_⟩ <;>
    first
      | decide | exact witness_issuesFor (by decide) | exact witness_fresh (by decide) | exact witness_noInterval (by decide)
      | rfl

theorem test_purge_of_nothing :
    ∃ w : RWord, ∃ s : State, ∃ u : Issuing, ∃ k : Nat, ∃ t : Thread, IssuesFor s u (.rinv w) 0 w.ctr k t ∧ s.freshKey ∧
      NoInterval s t.team ∧ releasePending s k 4 = false ∧
    let b := beginWord s u (.rinv w)
    let base := src64 b t w.a
    let len := src64 b t w.b
    (base % 256 = 0) ∧ (len % 256 = 0) ∧ (len < 256 ∨ 2 ^ 40 < len) := by
  refine ⟨rinvW, (sRinv 393216 0), (issuer (.rinv rinvW)), 4, (thread4 (sRinv 393216 0) (.rinv rinvW)), ?_, ?_, ?_, ?_, ?_,
    ?_, ?_⟩ <;>
    first
      | decide | exact witness_issuesFor (by decide) | exact witness_fresh (by decide) | exact witness_noInterval (by decide)
      | rfl

theorem test_ring_slot_is_reserved :
    ∃ i : Instr, ∃ kind : RingKind, ∃ w : RWord, ∃ s : State, ∃ u : Issuing, ∃ k : Nat, ∃ t : Thread, (i = .rgres w ∧ kind =
      .res ∨ i = .rgtake w ∧ kind = .take) ∧ IssuesFor s u i 0 w.ctr k t ∧ (384 ≤ w.dst.toNat → ungathered (beginWord s u i) u
      [k] = []) ∧ (w.dst.toNat < 384 → w.dst.toNat + 2 ≤ 384) ∧ Calm s ∧ NoInterval s t.team ∧ ringHold i false w s u = false := by
  refine ⟨(.rgres ringW), .res, ringW, (sRing (.rgres ringW) 0), (issuer (.rgres ringW)), 4,
    (thread4 (sRing (.rgres ringW) 0) (.rgres ringW)), ?_, ?_, ?_, ?_, ?_, ?_, ?_⟩ <;>
    first
      | decide | exact witness_issuesFor (by decide) | exact witness_calm (by decide) | exact witness_noInterval (by decide)
      | rfl | exact Or.inl ⟨rfl, rfl⟩ | exact Or.inr ⟨rfl, rfl⟩

theorem test_ring_reservation_waits :
    ∃ i : Instr, ∃ kind : RingKind, ∃ w : RWord, ∃ s : State, ∃ u : Issuing, ∃ k : Nat, ∃ t : Thread, (i = .rgres w ∧ kind =
      .res ∨ i = .rgtake w ∧ kind = .take) ∧ IssuesFor s u i 0 w.ctr k t ∧ (384 ≤ w.dst.toNat → ungathered (beginWord s u i) u
      [k] = []) ∧ (w.dst.toNat < 384 → w.dst.toNat + 2 ≤ 384) ∧ Calm s ∧ NoInterval s t.team ∧ ringHold i false w s u = false := by
  refine ⟨(.rgres ringW), .res, ringW, (sRing (.rgres ringW) 3), (issuer (.rgres ringW)), 4,
    (thread4 (sRing (.rgres ringW) 3) (.rgres ringW)), ?_, ?_, ?_, ?_, ?_, ?_, ?_⟩ <;>
    first
      | decide | exact witness_issuesFor (by decide) | exact witness_calm (by decide) | exact witness_noInterval (by decide)
      | rfl | exact Or.inl ⟨rfl, rfl⟩ | exact Or.inr ⟨rfl, rfl⟩

theorem test_ring_slot_is_taken :
    ∃ i : Instr, ∃ kind : RingKind, ∃ w : RWord, ∃ s : State, ∃ u : Issuing, ∃ k : Nat, ∃ t : Thread, (i = .rgres w ∧ kind =
      .res ∨ i = .rgtake w ∧ kind = .take) ∧ IssuesFor s u i 0 w.ctr k t ∧ (384 ≤ w.dst.toNat → ungathered (beginWord s u i) u
      [k] = []) ∧ (w.dst.toNat < 384 → w.dst.toNat + 2 ≤ 384) ∧ Calm s ∧ NoInterval s t.team ∧ ringHold i false w s u = false := by
  refine ⟨(.rgtake ringW), .take, ringW, (sRing (.rgtake ringW) 1), (issuer (.rgtake ringW)), 4,
    (thread4 (sRing (.rgtake ringW) 1) (.rgtake ringW)), ?_, ?_, ?_, ?_, ?_, ?_, ?_⟩ <;>
    first
      | decide | exact witness_issuesFor (by decide) | exact witness_calm (by decide) | exact witness_noInterval (by decide)
      | rfl | exact Or.inl ⟨rfl, rfl⟩ | exact Or.inr ⟨rfl, rfl⟩

theorem test_ring_take_waits :
    ∃ i : Instr, ∃ kind : RingKind, ∃ w : RWord, ∃ s : State, ∃ u : Issuing, ∃ k : Nat, ∃ t : Thread, (i = .rgres w ∧ kind =
      .res ∨ i = .rgtake w ∧ kind = .take) ∧ IssuesFor s u i 0 w.ctr k t ∧ (384 ≤ w.dst.toNat → ungathered (beginWord s u i) u
      [k] = []) ∧ (w.dst.toNat < 384 → w.dst.toNat + 2 ≤ 384) ∧ Calm s ∧ NoInterval s t.team ∧ ringHold i false w s u = false := by
  refine ⟨(.rgtake ringW), .take, ringW, (sRing (.rgtake ringW) 0), (issuer (.rgtake ringW)), 4,
    (thread4 (sRing (.rgtake ringW) 0) (.rgtake ringW)), ?_, ?_, ?_, ?_, ?_, ?_, ?_⟩ <;>
    first
      | decide | exact witness_issuesFor (by decide) | exact witness_calm (by decide) | exact witness_noInterval (by decide)
      | rfl | exact Or.inl ⟨rfl, rfl⟩ | exact Or.inr ⟨rfl, rfl⟩

theorem test_ring_slot_is_published :
    ∃ i : Instr, ∃ publish : Bool, ∃ w : RWord, ∃ s : State, ∃ u : Issuing, ∃ k : Nat, ∃ t : Thread, (i = .rgpub w ∧ publish =
      true ∨ i = .rgdone w ∧ publish = false) ∧ IssuesFor s u i 0 w.ctr k t ∧ Calm s ∧ NoInterval s t.team ∧ NoWriters s t.team
      ∧ ringHold i true w s u = false := by
  refine ⟨(.rgpub ringDoneW), true, ringDoneW, (sRing (.rgpub ringDoneW) 0), (issuer (.rgpub ringDoneW)), 4,
    (thread4 (sRing (.rgpub ringDoneW) 0) (.rgpub ringDoneW)), ?_, ?_, ?_, ?_, ?_, ?_⟩ <;>
    first
      | decide | exact witness_issuesFor (by decide) | exact witness_calm (by decide) | exact witness_noWriters (by decide)
      | exact witness_noInterval (by decide) | rfl | exact Or.inl ⟨rfl, rfl⟩ | exact Or.inr ⟨rfl, rfl⟩

theorem test_ring_slot_is_completed :
    ∃ i : Instr, ∃ publish : Bool, ∃ w : RWord, ∃ s : State, ∃ u : Issuing, ∃ k : Nat, ∃ t : Thread, (i = .rgpub w ∧ publish =
      true ∨ i = .rgdone w ∧ publish = false) ∧ IssuesFor s u i 0 w.ctr k t ∧ Calm s ∧ NoInterval s t.team ∧ NoWriters s t.team
      ∧ ringHold i true w s u = false := by
  refine ⟨(.rgdone ringDoneW), false, ringDoneW, (sRing (.rgdone ringDoneW) 1), (issuer (.rgdone ringDoneW)), 4,
    (thread4 (sRing (.rgdone ringDoneW) 1) (.rgdone ringDoneW)), ?_, ?_, ?_, ?_, ?_, ?_⟩ <;>
    first
      | decide | exact witness_issuesFor (by decide) | exact witness_calm (by decide) | exact witness_noWriters (by decide)
      | exact witness_noInterval (by decide) | rfl | exact Or.inl ⟨rfl, rfl⟩ | exact Or.inr ⟨rfl, rfl⟩

theorem test_ring_slot_with_another_sequence :
    ∃ i : Instr, ∃ publish : Bool, ∃ w : RWord, ∃ s : State, ∃ u : Issuing, ∃ k : Nat, ∃ t : Thread, (i = .rgpub w ∧ publish =
      true ∨ i = .rgdone w ∧ publish = false) ∧ IssuesFor s u i 0 w.ctr k t ∧ Calm s ∧ NoInterval s t.team ∧ NoWriters s t.team
      ∧ ringHold i true w s u = false := by
  refine ⟨(.rgpub ringDoneW), true, ringDoneW, (sRing (.rgpub ringDoneW) 1), (issuer (.rgpub ringDoneW)), 4,
    (thread4 (sRing (.rgpub ringDoneW) 1) (.rgpub ringDoneW)), ?_, ?_, ?_, ?_, ?_, ?_⟩ <;>
    first
      | decide | exact witness_issuesFor (by decide) | exact witness_calm (by decide) | exact witness_noWriters (by decide)
      | exact witness_noInterval (by decide) | rfl | exact Or.inl ⟨rfl, rfl⟩ | exact Or.inr ⟨rfl, rfl⟩

theorem test_missed_record_is_dropped :
    ∃ s : State, ∃ id : Nat, ∃ o : RingOp, tget id s.ops = some (.ring o) ∧ NoWriters s (o.team s) ∧ o.kind = .take ∧
    let die := dieOfCore o.core
    (o.moving = none) ∧ (ringSeq s die o.ctx o.ring o.index = some ((o.index + 1) % 2 ^ 64)) ∧ (deadlineMissed s die o.ctx
      o.ring o.index = true) ∧ (expiryRing (devWrite s 0 0 0x90050 (leBytes 8 1)) 0 0 o.ring = none) := by
  refine ⟨(sMissed (takeOp 0 none) 0), 5, (takeOp 0 none), ?_, ?_, ?_, ?_, ?_, ?_, ?_⟩ <;>
    first
      | decide | exact witness_noWriters (by decide) | rfl

theorem test_missed_record_reserves_on_the_expiry_ring :
    ∃ s : State, ∃ id : Nat, ∃ o : RingOp, tget id s.ops = some (.ring o) ∧ NoWriters s (o.team s) ∧ o.kind = .take ∧
    let die := dieOfCore o.core
    (o.moving = none) ∧ (ringSeq s die o.ctx o.ring o.index = some ((o.index + 1) % 2 ^ 64)) ∧ (deadlineMissed s die o.ctx
      o.ring o.index = true) ∧ (expiryRing (devWrite s 0 0 0x90050 (leBytes 8 1)) 0 0 o.ring = some expiryAt) := by
  refine ⟨(sMissed (takeOp 0x64000 none) 0), 5, (takeOp 0x64000 none), ?_, ?_, ?_, ?_, ?_, ?_, ?_⟩ <;>
    first
      | decide | exact witness_noWriters (by decide) | rfl

theorem test_missed_record_waits_for_its_slot :
    ∃ s : State, ∃ id : Nat, ∃ o : RingOp, tget id s.ops = some (.ring o) ∧ NoWriters s (o.team s) ∧ o.kind = .take ∧
    let die := dieOfCore o.core
    (o.moving = some (expiryAt, 0)) ∧ (ringSeq s die o.ctx expiryAt 0 ≠ some 0) := by
  refine ⟨(sMissed (takeOp 0x64000 (some (expiryAt, 0))) 3), 5, (takeOp 0x64000 (some (expiryAt, 0))), ?_, ?_, ?_, ?_, ?_⟩ <;>
    first
      | decide | exact witness_noWriters (by decide) | rfl

theorem test_missed_record_is_moved :
    ∃ s : State, ∃ id : Nat, ∃ o : RingOp, tget id s.ops = some (.ring o) ∧ NoWriters s (o.team s) ∧ o.kind = .take ∧
    let die := dieOfCore o.core
    (o.moving = some (expiryAt, 0)) ∧ (ringSeq s die o.ctx expiryAt 0 = some 0) := by
  refine ⟨(sMissed (takeOp 0x64000 (some (expiryAt, 0))) 0), 5, (takeOp 0x64000 (some (expiryAt, 0))), ?_, ?_, ?_, ?_, ?_⟩ <;>
    first
      | decide | exact witness_noWriters (by decide) | rfl

theorem test_ring_of_stage_64 :
    ∃ i : Instr, ∃ kind : RingKind, ∃ w : RWord, ∃ s : State, ∃ u : Issuing, ∃ k : Nat, ∃ t : Thread, (i = .rgres w ∧ kind =
      .res ∨ i = .rgtake w ∧ kind = .take) ∧ IssuesFor s u i 0 w.ctr k t ∧ (384 ≤ w.dst.toNat → ungathered (beginWord s u i) u
      [k] = []) ∧ (w.dst.toNat < 384 → w.dst.toNat + 2 ≤ 384) ∧ Calm s ∧ NoInterval s t.team ∧ ringHold i false w s u = false ∧
    let b := beginWord s u i
    (readRing b t (src64 b t w.a) = .ok (stageRing 64 0)) ∧ (64 ≤ (stageRing 64 0).stage) := by
  refine ⟨(.rgtake ringW), .take, ringW, (sStage 64), (issuer (.rgtake ringW)), 4, (thread4 (sStage 64) (.rgtake ringW)), ?_,
    ?_, ?_, ?_, ?_, ?_, ?_, ?_, ?_⟩ <;>
    first
      | decide | exact witness_issuesFor (by decide) | exact witness_calm (by decide) | exact witness_noInterval (by decide)
      | rfl | exact Or.inl ⟨rfl, rfl⟩ | exact Or.inr ⟨rfl, rfl⟩

theorem test_ring_of_stage_0xFFFE :
    ∃ i : Instr, ∃ kind : RingKind, ∃ w : RWord, ∃ s : State, ∃ u : Issuing, ∃ k : Nat, ∃ t : Thread, (i = .rgres w ∧ kind =
      .res ∨ i = .rgtake w ∧ kind = .take) ∧ IssuesFor s u i 0 w.ctr k t ∧ (384 ≤ w.dst.toNat → ungathered (beginWord s u i) u
      [k] = []) ∧ (w.dst.toNat < 384 → w.dst.toNat + 2 ≤ 384) ∧ Calm s ∧ NoInterval s t.team ∧ ringHold i false w s u = false ∧
    let b := beginWord s u i
    (readRing b t (src64 b t w.a) = .ok (stageRing 0xFFFE 0)) ∧ (64 ≤ (stageRing 0xFFFE 0).stage) := by
  refine ⟨(.rgtake ringW), .take, ringW, (sStage 0xFFFE), (issuer (.rgtake ringW)), 4,
    (thread4 (sStage 0xFFFE) (.rgtake ringW)), ?_, ?_, ?_, ?_, ?_, ?_, ?_, ?_, ?_⟩ <;>
    first
      | decide | exact witness_issuesFor (by decide) | exact witness_calm (by decide) | exact witness_noInterval (by decide)
      | rfl | exact Or.inl ⟨rfl, rfl⟩ | exact Or.inr ⟨rfl, rfl⟩

theorem test_records_create_relay_threads :
    ∃ w : RWord, ∃ s : State, ∃ u : Issuing, ∃ k : Nat, ∃ t : Thread, IssuesFor s u (.nrec w) 0 w.ctr k t ∧ s.freshKey ∧
      NoInterval s t.team ∧ fenceHold s u = false ∧ releasePending s k 4 = false ∧
    let b := beginWord s u (.nrec w)
    let found := relayAt b t (src64 b t w.a)
    (found = some relay) := by
  refine ⟨nrecW, (sNrec 0x60000), (issuer (.nrec nrecW)), 4, (thread4 (sNrec 0x60000) (.nrec nrecW)), ?_, ?_, ?_, ?_, ?_,
    ?_⟩ <;>
    first
      | decide | exact witness_issuesFor (by decide) | exact witness_fresh (by decide) | exact witness_noInterval (by decide)

theorem test_record_for_no_relay :
    ∃ w : RWord, ∃ s : State, ∃ u : Issuing, ∃ k : Nat, ∃ t : Thread, IssuesFor s u (.nrec w) 0 w.ctr k t ∧ s.freshKey ∧
      NoInterval s t.team ∧ fenceHold s u = false ∧ releasePending s k 4 = false ∧
    let b := beginWord s u (.nrec w)
    let found := relayAt b t (src64 b t w.a)
    (found = none) := by
  refine ⟨nrecW, (sNrec 0x60040), (issuer (.nrec nrecW)), 4, (thread4 (sNrec 0x60040) (.nrec nrecW)), ?_, ?_, ?_, ?_, ?_,
    ?_⟩ <;>
    first
      | decide | exact witness_issuesFor (by decide) | exact witness_fresh (by decide) | exact witness_noInterval (by decide)

theorem test_backward_records_are_staged :
    ∃ w : RWord, ∃ s : State, ∃ u : Issuing, ∃ k : Nat, ∃ g : Nat, ∃ t : Thread, ∃ tm : Team, ∃ l : Launch, IssuesFor s u
      (.bwpush w) 0 w.ctr k t ∧ t.group = some g ∧ tget t.team s.teams = some tm ∧ tget t.launch s.launches = some l ∧
      NoInterval s t.team ∧ fenceHold s u = false ∧ releasePending s k 4 = false := by
  refine ⟨bwpushW, sBwpush, (issuer (.bwpush bwpushW)), 4, 3, (thread4 sBwpush (.bwpush bwpushW)), (team2 sBwpush),
    (launch1 sBwpush), ?_, ?_, ?_, ?_, ?_, ?_, ?_⟩ <;>
    first
      | decide | exact witness_issuesFor (by decide) | exact witness_noInterval (by decide)

theorem test_version_2_is_held :
    ∃ w : RWord, ∃ s : State, ∃ u : Issuing, ∃ k : Nat, ∃ t : Thread, IssuesFor s u (.wver w) 2 7 k t ∧ t.state = .issuing ∧
      NoInterval s t.team ∧ fenceHold s u = false ∧ s.poison = [] ∧
    let b := beginWord s u (.wver w)
    let ch := bits w.c.toNat 0 3
    let v := src32 b t w.a
    (readVersionEntry b t.ctx ch = some versionEntry) ∧ ((versionEntry.isOpen = true ∧ versionEntry.newest - 3 ≤ v ∧ v ≤
      versionEntry.newest)) := by
  refine ⟨wverW, (sWver 2), (issuer (.wver wverW)), 4, (thread4 (sWver 2) (.wver wverW)), ?_, ?_, ?_, ?_, ?_, ?_, ?_⟩ <;>
    first
      | decide | exact witness_issuesFor (by decide) | exact witness_noInterval (by decide) | rfl

theorem test_version_5_is_held :
    ∃ w : RWord, ∃ s : State, ∃ u : Issuing, ∃ k : Nat, ∃ t : Thread, IssuesFor s u (.wver w) 2 7 k t ∧ t.state = .issuing ∧
      NoInterval s t.team ∧ fenceHold s u = false ∧ s.poison = [] ∧
    let b := beginWord s u (.wver w)
    let ch := bits w.c.toNat 0 3
    let v := src32 b t w.a
    (readVersionEntry b t.ctx ch = some versionEntry) ∧ ((versionEntry.isOpen = true ∧ versionEntry.newest - 3 ≤ v ∧ v ≤
      versionEntry.newest)) := by
  refine ⟨wverW, (sWver 5), (issuer (.wver wverW)), 4, (thread4 (sWver 5) (.wver wverW)), ?_, ?_, ?_, ?_, ?_, ?_, ?_⟩ <;>
    first
      | decide | exact witness_issuesFor (by decide) | exact witness_noInterval (by decide) | rfl

theorem test_version_1_is_not_held :
    ∃ w : RWord, ∃ s : State, ∃ u : Issuing, ∃ k : Nat, ∃ t : Thread, IssuesFor s u (.wver w) 2 7 k t ∧ t.state = .issuing ∧
      NoInterval s t.team ∧ fenceHold s u = false ∧ s.poison = [] ∧
    let b := beginWord s u (.wver w)
    let ch := bits w.c.toNat 0 3
    let v := src32 b t w.a
    (readVersionEntry b t.ctx ch = some versionEntry) ∧ (¬(versionEntry.isOpen = true ∧ versionEntry.newest - 3 ≤ v ∧ v ≤
      versionEntry.newest)) := by
  refine ⟨wverW, (sWver 1), (issuer (.wver wverW)), 4, (thread4 (sWver 1) (.wver wverW)), ?_, ?_, ?_, ?_, ?_, ?_, ?_⟩ <;>
    first
      | decide | exact witness_issuesFor (by decide) | exact witness_noInterval (by decide) | rfl

theorem test_version_6_is_not_held :
    ∃ w : RWord, ∃ s : State, ∃ u : Issuing, ∃ k : Nat, ∃ t : Thread, IssuesFor s u (.wver w) 2 7 k t ∧ t.state = .issuing ∧
      NoInterval s t.team ∧ fenceHold s u = false ∧ s.poison = [] ∧
    let b := beginWord s u (.wver w)
    let ch := bits w.c.toNat 0 3
    let v := src32 b t w.a
    (readVersionEntry b t.ctx ch = some versionEntry) ∧ (¬(versionEntry.isOpen = true ∧ versionEntry.newest - 3 ≤ v ∧ v ≤
      versionEntry.newest)) := by
  refine ⟨wverW, (sWver 6), (issuer (.wver wverW)), 4, (thread4 (sWver 6) (.wver wverW)), ?_, ?_, ?_, ?_, ?_, ?_, ?_⟩ <;>
    first
      | decide | exact witness_issuesFor (by decide) | exact witness_noInterval (by decide) | rfl

theorem test_mmul_is_posted :
    ∃ i : Instr, ∃ w : RWord, ∃ check : State → Nat → Thread → Except Bad MatrixPlan, ∃ s : State, ∃ u : Issuing, ∃ k : Nat, ∃
      g : Nat, ∃ t : Thread, ∃ gr : Group, matrixForm i = some (w, check) ∧ IssuesFor s u i 0 w.ctr k t ∧ t.group = some g ∧
      tget g s.groups = some gr ∧ (384 ≤ w.dst.toNat → ungathered (beginWord s u i) u [k] = []) ∧ fenceHold s u = false ∧
      s.rangeLocks = [] ∧ s.poison = [] ∧
    let b := beginWord s u i
    let quad := quadOfCore u.core
    (quadEntries s quad).length < 32 ∧ ((check b k t).isOk = true) := by
  refine ⟨(.mmul mmulW), mmulW, (checkMmul mmulW), (sMatrix (.mmul mmulW)), (issuer (.mmul mmulW)), 4, 3,
    (thread4 (sMatrix (.mmul mmulW)) (.mmul mmulW)), (group3 (sMatrix (.mmul mmulW))), ?_, ?_, ?_, ?_, ?_, ?_, ?_, ?_, ?_,
    ?_⟩ <;>
    first
      | decide | exact witness_issuesFor (by decide) | rfl

theorem test_mmerge_is_posted :
    ∃ i : Instr, ∃ w : RWord, ∃ check : State → Nat → Thread → Except Bad MatrixPlan, ∃ s : State, ∃ u : Issuing, ∃ k : Nat, ∃
      g : Nat, ∃ t : Thread, ∃ gr : Group, matrixForm i = some (w, check) ∧ IssuesFor s u i 0 w.ctr k t ∧ t.group = some g ∧
      tget g s.groups = some gr ∧ (384 ≤ w.dst.toNat → ungathered (beginWord s u i) u [k] = []) ∧ fenceHold s u = false ∧
      s.rangeLocks = [] ∧ s.poison = [] ∧
    let b := beginWord s u i
    let quad := quadOfCore u.core
    (quadEntries s quad).length < 32 ∧ ((check b k t).isOk = true) := by
  refine ⟨(.mmerge mmergeW), mmergeW, (checkMmerge mmergeW), (sMatrix (.mmerge mmergeW)), (issuer (.mmerge mmergeW)), 4, 3,
    (thread4 (sMatrix (.mmerge mmergeW)) (.mmerge mmergeW)), (group3 (sMatrix (.mmerge mmergeW))), ?_, ?_, ?_, ?_, ?_, ?_, ?_,
    ?_, ?_, ?_⟩ <;>
    first
      | decide | exact witness_issuesFor (by decide) | rfl

theorem test_mdrain_is_posted :
    ∃ i : Instr, ∃ w : RWord, ∃ check : State → Nat → Thread → Except Bad MatrixPlan, ∃ s : State, ∃ u : Issuing, ∃ k : Nat, ∃
      g : Nat, ∃ t : Thread, ∃ gr : Group, matrixForm i = some (w, check) ∧ IssuesFor s u i 0 w.ctr k t ∧ t.group = some g ∧
      tget g s.groups = some gr ∧ (384 ≤ w.dst.toNat → ungathered (beginWord s u i) u [k] = []) ∧ fenceHold s u = false ∧
      s.rangeLocks = [] ∧ s.poison = [] ∧
    let b := beginWord s u i
    let quad := quadOfCore u.core
    (quadEntries s quad).length < 32 ∧ ((check b k t).isOk = true) := by
  refine ⟨(.mdrain mdrainW), mdrainW, (checkMdrain mdrainW), (sMatrix (.mdrain mdrainW)), (issuer (.mdrain mdrainW)), 4, 3,
    (thread4 (sMatrix (.mdrain mdrainW)) (.mdrain mdrainW)), (group3 (sMatrix (.mdrain mdrainW))), ?_, ?_, ?_, ?_, ?_, ?_, ?_,
    ?_, ?_, ?_⟩ <;>
    first
      | decide | exact witness_issuesFor (by decide) | rfl

theorem test_mmul_with_a_bad_k_word :
    ∃ i : Instr, ∃ w : RWord, ∃ check : State → Nat → Thread → Except Bad MatrixPlan, ∃ s : State, ∃ u : Issuing, ∃ k : Nat, ∃
      g : Nat, ∃ t : Thread, ∃ gr : Group, matrixForm i = some (w, check) ∧ IssuesFor s u i 0 w.ctr k t ∧ t.group = some g ∧
      tget g s.groups = some gr ∧ (384 ≤ w.dst.toNat → ungathered (beginWord s u i) u [k] = []) ∧ fenceHold s u = false ∧
      s.rangeLocks = [] ∧ s.poison = [] ∧
    let b := beginWord s u i
    let quad := quadOfCore u.core
    (quadEntries s quad).length < 32 ∧ (check b k t = .error ⟨0x03, 0, 0⟩) := by
  refine ⟨(.mmul mmulW), mmulW, (checkMmul mmulW), (withRegs [(8, 0x60000), (10, 0x61000)] (sMatrix (.mmul mmulW))),
    (issuer (.mmul mmulW)), 4, 3, (thread4 (withRegs [(8, 0x60000), (10, 0x61000)] (sMatrix (.mmul mmulW))) (.mmul mmulW)),
    (group3 (withRegs [(8, 0x60000), (10, 0x61000)] (sMatrix (.mmul mmulW)))), ?_, ?_, ?_, ?_, ?_, ?_, ?_, ?_, ?_, ?_⟩ <;>
    first
      | decide | exact witness_issuesFor (by decide) | rfl

theorem test_mcfg_0_is_written :
    ∃ w : RWord, ∃ s : State, ∃ u : Issuing, ∃ k : Nat, ∃ g : Nat, ∃ t : Thread, ∃ gr : Group, IssuesFor s u (.mcfg w) 0 7 k t
      ∧ t.group = some g ∧ tget g s.groups = some gr ∧ fenceHold s u = false ∧
    let v := src64 (beginWord s u (.mcfg w)) t w.a
    let limits : List Nat := [2 ^ 16, 2 ^ 24, 2 ^ 64, 2 ^ 3]
    (∃ n, limits[w.c.toNat]? = some n ∧ v < n) := by
  refine ⟨(mcfgW 0), (sMcfg 0 65535), (issuer (.mcfg (mcfgW 0))), 4, 3, (thread4 (sMcfg 0 65535) (.mcfg (mcfgW 0))),
    (group3 (sMcfg 0 65535)), ?_, ?_, ?_, ?_, ?_⟩ <;>
    first
      | decide | exact witness_issuesFor (by decide) | exact ⟨_, rfl, by decide⟩ | exact witness_option (by decide)

theorem test_mcfg_1_is_written :
    ∃ w : RWord, ∃ s : State, ∃ u : Issuing, ∃ k : Nat, ∃ g : Nat, ∃ t : Thread, ∃ gr : Group, IssuesFor s u (.mcfg w) 0 7 k t
      ∧ t.group = some g ∧ tget g s.groups = some gr ∧ fenceHold s u = false ∧
    let v := src64 (beginWord s u (.mcfg w)) t w.a
    let limits : List Nat := [2 ^ 16, 2 ^ 24, 2 ^ 64, 2 ^ 3]
    (∃ n, limits[w.c.toNat]? = some n ∧ v < n) := by
  refine ⟨(mcfgW 1), (sMcfg 1 16777215), (issuer (.mcfg (mcfgW 1))), 4, 3, (thread4 (sMcfg 1 16777215) (.mcfg (mcfgW 1))),
    (group3 (sMcfg 1 16777215)), ?_, ?_, ?_, ?_, ?_⟩ <;>
    first
      | decide | exact witness_issuesFor (by decide) | exact ⟨_, rfl, by decide⟩ | exact witness_option (by decide)

theorem test_mcfg_3_is_written :
    ∃ w : RWord, ∃ s : State, ∃ u : Issuing, ∃ k : Nat, ∃ g : Nat, ∃ t : Thread, ∃ gr : Group, IssuesFor s u (.mcfg w) 0 7 k t
      ∧ t.group = some g ∧ tget g s.groups = some gr ∧ fenceHold s u = false ∧
    let v := src64 (beginWord s u (.mcfg w)) t w.a
    let limits : List Nat := [2 ^ 16, 2 ^ 24, 2 ^ 64, 2 ^ 3]
    (∃ n, limits[w.c.toNat]? = some n ∧ v < n) := by
  refine ⟨(mcfgW 3), (sMcfg 3 7), (issuer (.mcfg (mcfgW 3))), 4, 3, (thread4 (sMcfg 3 7) (.mcfg (mcfgW 3))),
    (group3 (sMcfg 3 7)), ?_, ?_, ?_, ?_, ?_⟩ <;>
    first
      | decide | exact witness_issuesFor (by decide) | exact ⟨_, rfl, by decide⟩ | exact witness_option (by decide)

theorem test_mcfg_0_is_illegal :
    ∃ w : RWord, ∃ s : State, ∃ u : Issuing, ∃ k : Nat, ∃ g : Nat, ∃ t : Thread, ∃ gr : Group, IssuesFor s u (.mcfg w) 0 7 k t
      ∧ t.group = some g ∧ tget g s.groups = some gr ∧ fenceHold s u = false ∧
    let v := src64 (beginWord s u (.mcfg w)) t w.a
    let limits : List Nat := [2 ^ 16, 2 ^ 24, 2 ^ 64, 2 ^ 3]
    (∀ n, limits[w.c.toNat]? = some n → n ≤ v) := by
  refine ⟨(mcfgW 0), (sMcfg 0 65536), (issuer (.mcfg (mcfgW 0))), 4, 3, (thread4 (sMcfg 0 65536) (.mcfg (mcfgW 0))),
    (group3 (sMcfg 0 65536)), ?_, ?_, ?_, ?_, ?_⟩ <;>
    first
      | decide | exact witness_issuesFor (by decide) | exact witness_table (by decide) | exact witness_option (by decide)
      | exact ⟨_, rfl, by decide⟩

theorem test_mcfg_3_is_illegal :
    ∃ w : RWord, ∃ s : State, ∃ u : Issuing, ∃ k : Nat, ∃ g : Nat, ∃ t : Thread, ∃ gr : Group, IssuesFor s u (.mcfg w) 0 7 k t
      ∧ t.group = some g ∧ tget g s.groups = some gr ∧ fenceHold s u = false ∧
    let v := src64 (beginWord s u (.mcfg w)) t w.a
    let limits : List Nat := [2 ^ 16, 2 ^ 24, 2 ^ 64, 2 ^ 3]
    (∀ n, limits[w.c.toNat]? = some n → n ≤ v) := by
  refine ⟨(mcfgW 3), (sMcfg 3 8), (issuer (.mcfg (mcfgW 3))), 4, 3, (thread4 (sMcfg 3 8) (.mcfg (mcfgW 3))),
    (group3 (sMcfg 3 8)), ?_, ?_, ?_, ?_, ?_⟩ <;>
    first
      | decide | exact witness_issuesFor (by decide) | exact witness_table (by decide) | exact witness_option (by decide)
      | exact ⟨_, rfl, by decide⟩

theorem test_mcfg_4_is_illegal :
    ∃ w : RWord, ∃ s : State, ∃ u : Issuing, ∃ k : Nat, ∃ g : Nat, ∃ t : Thread, ∃ gr : Group, IssuesFor s u (.mcfg w) 0 7 k t
      ∧ t.group = some g ∧ tget g s.groups = some gr ∧ fenceHold s u = false ∧
    let v := src64 (beginWord s u (.mcfg w)) t w.a
    let limits : List Nat := [2 ^ 16, 2 ^ 24, 2 ^ 64, 2 ^ 3]
    (∀ n, limits[w.c.toNat]? = some n → n ≤ v) := by
  refine ⟨(mcfgW 4), (sMcfg 4 0), (issuer (.mcfg (mcfgW 4))), 4, 3, (thread4 (sMcfg 4 0) (.mcfg (mcfgW 4))),
    (group3 (sMcfg 4 0)), ?_, ?_, ?_, ?_, ?_⟩ <;>
    first
      | decide | exact witness_issuesFor (by decide) | exact witness_table (by decide) | exact witness_option (by decide)
      | exact ⟨_, rfl, by decide⟩

theorem test_copy_is_posted :
    ∃ i : Instr, ∃ w : RWord, ∃ check : State → Nat → Thread → Except Bad CopyPlan, ∃ s : State, ∃ u : Issuing, ∃ k : Nat, ∃ g
      : Nat, ∃ t : Thread, (i = .cpy w ∧ check = checkCpy w ∨ i = .cpyt w ∧ check = checkCpyt w) ∧ IssuesFor s u i 0 w.ctr k t
      ∧ t.group = some g ∧ s.freshKey ∧ NoInterval s t.team ∧ s.ops = [] ∧ s.rangeLocks = [] ∧ s.poison = [] ∧
    let b := beginWord s u i
    ((check b k t).isOk = true) := by
  refine ⟨(.cpy (cpyW 0)), (cpyW 0), (checkCpy (cpyW 0)), (withRegs (copyRegs 401408 16) (issuing (.cpy (cpyW 0)))),
    (issuer (.cpy (cpyW 0))), 4, 3, (thread4 (withRegs (copyRegs 401408 16) (issuing (.cpy (cpyW 0)))) (.cpy (cpyW 0))), ?_,
    ?_, ?_, ?_, ?_, ?_, ?_, ?_, ?_⟩ <;>
    first
      | decide | exact witness_issuesFor (by decide) | exact witness_fresh (by decide) | exact witness_noInterval (by decide)
      | rfl | exact Or.inl ⟨rfl, rfl⟩ | exact Or.inr ⟨rfl, rfl⟩

theorem test_copy_with_a_barrier :
    ∃ i : Instr, ∃ w : RWord, ∃ check : State → Nat → Thread → Except Bad CopyPlan, ∃ s : State, ∃ u : Issuing, ∃ k : Nat, ∃ g
      : Nat, ∃ t : Thread, (i = .cpy w ∧ check = checkCpy w ∨ i = .cpyt w ∧ check = checkCpyt w) ∧ IssuesFor s u i 0 w.ctr k t
      ∧ t.group = some g ∧ s.freshKey ∧ NoInterval s t.team ∧ s.ops = [] ∧ s.rangeLocks = [] ∧ s.poison = [] ∧
    let b := beginWord s u i
    ((check b k t).isOk = true) := by
  refine ⟨(.cpy (cpyW 33)), (cpyW 33), (checkCpy (cpyW 33)), (withRegs (copyRegs 401408 16) (issuing (.cpy (cpyW 33)))),
    (issuer (.cpy (cpyW 33))), 4, 3, (thread4 (withRegs (copyRegs 401408 16) (issuing (.cpy (cpyW 33)))) (.cpy (cpyW 33))),
    ?_, ?_, ?_, ?_, ?_, ?_, ?_, ?_, ?_⟩ <;>
    first
      | decide | exact witness_issuesFor (by decide) | exact witness_fresh (by decide) | exact witness_noInterval (by decide)
      | rfl | exact Or.inl ⟨rfl, rfl⟩ | exact Or.inr ⟨rfl, rfl⟩

theorem test_copy_of_nothing :
    ∃ i : Instr, ∃ w : RWord, ∃ check : State → Nat → Thread → Except Bad CopyPlan, ∃ s : State, ∃ u : Issuing, ∃ k : Nat, ∃ g
      : Nat, ∃ t : Thread, (i = .cpy w ∧ check = checkCpy w ∨ i = .cpyt w ∧ check = checkCpyt w) ∧ IssuesFor s u i 0 w.ctr k t
      ∧ t.group = some g ∧ s.freshKey ∧ NoInterval s t.team ∧ s.ops = [] ∧ s.rangeLocks = [] ∧ s.poison = [] ∧
    let b := beginWord s u i
    ((check b k t).toOption = some ⟨[], [], [], []⟩) := by
  refine ⟨(.cpy (cpyW 0)), (cpyW 0), (checkCpy (cpyW 0)), (withRegs (copyRegs 401408 0) (issuing (.cpy (cpyW 0)))),
    (issuer (.cpy (cpyW 0))), 4, 3, (thread4 (withRegs (copyRegs 401408 0) (issuing (.cpy (cpyW 0)))) (.cpy (cpyW 0))), ?_,
    ?_, ?_, ?_, ?_, ?_, ?_, ?_, ?_⟩ <;>
    first
      | decide | exact witness_issuesFor (by decide) | exact witness_fresh (by decide) | exact witness_noInterval (by decide)
      | rfl | exact Or.inl ⟨rfl, rfl⟩ | exact Or.inr ⟨rfl, rfl⟩

theorem test_copy_onto_itself :
    ∃ i : Instr, ∃ w : RWord, ∃ check : State → Nat → Thread → Except Bad CopyPlan, ∃ s : State, ∃ u : Issuing, ∃ k : Nat, ∃ g
      : Nat, ∃ t : Thread, (i = .cpy w ∧ check = checkCpy w ∨ i = .cpyt w ∧ check = checkCpyt w) ∧ IssuesFor s u i 0 w.ctr k t
      ∧ t.group = some g ∧ s.freshKey ∧ NoInterval s t.team ∧ s.ops = [] ∧ s.rangeLocks = [] ∧ s.poison = [] ∧
    let b := beginWord s u i
    ((check b k t).isOk = false) := by
  refine ⟨(.cpy (cpyW 0)), (cpyW 0), (checkCpy (cpyW 0)), (withRegs (copyRegs 393220 16) (issuing (.cpy (cpyW 0)))),
    (issuer (.cpy (cpyW 0))), 4, 3, (thread4 (withRegs (copyRegs 393220 16) (issuing (.cpy (cpyW 0)))) (.cpy (cpyW 0))), ?_,
    ?_, ?_, ?_, ?_, ?_, ?_, ?_, ?_⟩ <;>
    first
      | decide | exact witness_issuesFor (by decide) | exact witness_fresh (by decide) | exact witness_noInterval (by decide)
      | rfl | exact Or.inl ⟨rfl, rfl⟩ | exact Or.inr ⟨rfl, rfl⟩

theorem test_tile_copy_is_posted :
    ∃ i : Instr, ∃ w : RWord, ∃ check : State → Nat → Thread → Except Bad CopyPlan, ∃ s : State, ∃ u : Issuing, ∃ k : Nat, ∃ g
      : Nat, ∃ t : Thread, (i = .cpy w ∧ check = checkCpy w ∨ i = .cpyt w ∧ check = checkCpyt w) ∧ IssuesFor s u i 0 w.ctr k t
      ∧ t.group = some g ∧ s.freshKey ∧ NoInterval s t.team ∧ s.ops = [] ∧ s.rangeLocks = [] ∧ s.poison = [] ∧
    let b := beginWord s u i
    ((check b k t).isOk = true) := by
  refine ⟨(.cpyt cpytW), cpytW, (checkCpyt cpytW), (withRegs (copyRegs 0x62000 0) (issuing (.cpyt cpytW))),
    (issuer (.cpyt cpytW)), 4, 3, (thread4 (withRegs (copyRegs 0x62000 0) (issuing (.cpyt cpytW))) (.cpyt cpytW)), ?_, ?_, ?_,
    ?_, ?_, ?_, ?_, ?_, ?_⟩ <;>
    first
      | decide | exact witness_issuesFor (by decide) | exact witness_fresh (by decide) | exact witness_noInterval (by decide)
      | rfl | exact Or.inl ⟨rfl, rfl⟩ | exact Or.inr ⟨rfl, rfl⟩

theorem test_send_leaves :
    ∃ i : Instr, ∃ w : RWord, ∃ check : State → Nat → Thread → Except Bad FabricPlan, ∃ s : State, ∃ u : Issuing, ∃ k : Nat, ∃
      g : Nat, ∃ t : Thread, (i = .fsend w ∧ check = checkFsend w ∨ i = .fmcast w ∧ check = checkFmcast w) ∧ IssuesFor s u i 0
      w.ctr k t ∧ t.group = some g ∧ s.freshKey ∧ NoInterval s t.team ∧ s.ops = [] ∧ s.rangeLocks = [] ∧ s.poison = [] ∧
    let b := beginWord s u i
    ((check b k t).isOk = true) := by
  refine ⟨(.fsend fsendW), fsendW, (checkFsend fsendW), (sFabric (.fsend fsendW) 24 268435456 16), (issuer (.fsend fsendW)),
    4, 3, (thread4 (sFabric (.fsend fsendW) 24 268435456 16) (.fsend fsendW)), ?_, ?_, ?_, ?_, ?_, ?_, ?_, ?_, ?_⟩ <;>
    first
      | decide | exact witness_issuesFor (by decide) | exact witness_fresh (by decide) | exact witness_noInterval (by decide)
      | rfl | exact Or.inl ⟨rfl, rfl⟩ | exact Or.inr ⟨rfl, rfl⟩

theorem test_multicast_leaves :
    ∃ i : Instr, ∃ w : RWord, ∃ check : State → Nat → Thread → Except Bad FabricPlan, ∃ s : State, ∃ u : Issuing, ∃ k : Nat, ∃
      g : Nat, ∃ t : Thread, (i = .fsend w ∧ check = checkFsend w ∨ i = .fmcast w ∧ check = checkFmcast w) ∧ IssuesFor s u i 0
      w.ctr k t ∧ t.group = some g ∧ s.freshKey ∧ NoInterval s t.team ∧ s.ops = [] ∧ s.rangeLocks = [] ∧ s.poison = [] ∧
    let b := beginWord s u i
    ((check b k t).isOk = true) := by
  refine ⟨(.fmcast fsendW), fsendW, (checkFmcast fsendW), (sFabric (.fmcast fsendW) 397312 0 16), (issuer (.fmcast fsendW)),
    4, 3, (thread4 (sFabric (.fmcast fsendW) 397312 0 16) (.fmcast fsendW)), ?_, ?_, ?_, ?_, ?_, ?_, ?_, ?_, ?_⟩ <;>
    first
      | decide | exact witness_issuesFor (by decide) | exact witness_fresh (by decide) | exact witness_noInterval (by decide)
      | rfl | exact Or.inl ⟨rfl, rfl⟩ | exact Or.inr ⟨rfl, rfl⟩

theorem test_send_without_a_turn :
    ∃ i : Instr, ∃ w : RWord, ∃ check : State → Nat → Thread → Except Bad FabricPlan, ∃ s : State, ∃ u : Issuing, ∃ k : Nat, ∃
      g : Nat, ∃ t : Thread, (i = .fsend w ∧ check = checkFsend w ∨ i = .fmcast w ∧ check = checkFmcast w) ∧ IssuesFor s u i 0
      w.ctr k t ∧ t.group = some g ∧ s.freshKey ∧ NoInterval s t.team ∧ s.ops = [] ∧ s.rangeLocks = [] ∧ s.poison = [] ∧
    let b := beginWord s u i
    ((check b k t).isOk = false) := by
  refine ⟨(.fsend fsendW), fsendW, (checkFsend fsendW), (sFabric (.fsend fsendW) 24 0 16), (issuer (.fsend fsendW)), 4, 3,
    (thread4 (sFabric (.fsend fsendW) 24 0 16) (.fsend fsendW)), ?_, ?_, ?_, ?_, ?_, ?_, ?_, ?_, ?_⟩ <;>
    first
      | decide | exact witness_issuesFor (by decide) | exact witness_fresh (by decide) | exact witness_noInterval (by decide)
      | rfl | exact Or.inl ⟨rfl, rfl⟩ | exact Or.inr ⟨rfl, rfl⟩

theorem test_reduction_is_posted :
    ∃ i : Instr, ∃ w : RWord, ∃ oper : Nat, ∃ s : State, ∃ u : Issuing, ∃ k : Nat, ∃ g : Nat, ∃ t : Thread, (i = .fred w ∧ oper
      = w.fbits 10 3 ∨ i = .fsparse w ∧ oper = 4) ∧ IssuesFor s u i 0 w.ctr k t ∧ t.group = some g ∧ s.freshKey ∧ NoInterval s
      t.team ∧ s.ops = [] ∧ s.rangeLocks = [] ∧ s.poison = [] ∧
    let b := beginWord s u i
    ((checkContribution w oper b k t).isOk = true) := by
  refine ⟨(.fred fredW), fredW, 0, (sFabric (.fred fredW) 24 0x10000000 16), (issuer (.fred fredW)), 4, 3,
    (thread4 (sFabric (.fred fredW) 24 0x10000000 16) (.fred fredW)), ?_, ?_, ?_, ?_, ?_, ?_, ?_, ?_, ?_⟩ <;>
    first
      | decide | exact witness_issuesFor (by decide) | exact witness_fresh (by decide) | exact witness_noInterval (by decide)
      | rfl | exact Or.inl ⟨rfl, rfl⟩ | exact Or.inr ⟨rfl, rfl⟩

theorem test_sparse_contribution_is_posted :
    ∃ i : Instr, ∃ w : RWord, ∃ oper : Nat, ∃ s : State, ∃ u : Issuing, ∃ k : Nat, ∃ g : Nat, ∃ t : Thread, (i = .fred w ∧ oper
      = w.fbits 10 3 ∨ i = .fsparse w ∧ oper = 4) ∧ IssuesFor s u i 0 w.ctr k t ∧ t.group = some g ∧ s.freshKey ∧ NoInterval s
      t.team ∧ s.ops = [] ∧ s.rangeLocks = [] ∧ s.poison = [] ∧
    let b := beginWord s u i
    ((checkContribution w oper b k t).isOk = true) := by
  refine ⟨(.fsparse fredW), fredW, 4, (sFabric (.fsparse fredW) 24 0x10000000 16), (issuer (.fsparse fredW)), 4, 3,
    (thread4 (sFabric (.fsparse fredW) 24 0x10000000 16) (.fsparse fredW)), ?_, ?_, ?_, ?_, ?_, ?_, ?_, ?_, ?_⟩ <;>
    first
      | decide | exact witness_issuesFor (by decide) | exact witness_fresh (by decide) | exact witness_noInterval (by decide)
      | rfl | exact Or.inl ⟨rfl, rfl⟩ | exact Or.inr ⟨rfl, rfl⟩

theorem test_reduction_beyond_its_channel :
    ∃ i : Instr, ∃ w : RWord, ∃ oper : Nat, ∃ s : State, ∃ u : Issuing, ∃ k : Nat, ∃ g : Nat, ∃ t : Thread, (i = .fred w ∧ oper
      = w.fbits 10 3 ∨ i = .fsparse w ∧ oper = 4) ∧ IssuesFor s u i 0 w.ctr k t ∧ t.group = some g ∧ s.freshKey ∧ NoInterval s
      t.team ∧ s.ops = [] ∧ s.rangeLocks = [] ∧ s.poison = [] ∧
    let b := beginWord s u i
    ((checkContribution w oper b k t).isOk = false) := by
  refine ⟨(.fred fredW), fredW, 0, (sFabric (.fred fredW) 24 0x10000000 260), (issuer (.fred fredW)), 4, 3,
    (thread4 (sFabric (.fred fredW) 24 0x10000000 260) (.fred fredW)), ?_, ?_, ?_, ?_, ?_, ?_, ?_, ?_, ?_⟩ <;>
    first
      | decide | exact witness_issuesFor (by decide) | exact witness_fresh (by decide) | exact witness_noInterval (by decide)
      | rfl | exact Or.inl ⟨rfl, rfl⟩ | exact Or.inr ⟨rfl, rfl⟩

theorem test_send_is_queued :
    ∃ i : Instr, ∃ send : Bool, ∃ w : RWord, ∃ s : State, ∃ u : Issuing, ∃ k : Nat, ∃ t : Thread, (i = .mbsend w ∧ send = true
      ∨ i = .mbrecv w ∧ send = false) ∧ IssuesFor s u i 0 w.ctr k t ∧ s.freshKey ∧ NoInterval s t.team ∧ (send = true →
      sendHold s u = false ∧ payloadHeld w s u = false ∧ releasePending s k 4 = false) ∧ (send = false → fenceHold s u = false)
      ∧ s.rangeLocks = [] ∧ s.poison = [] ∧ (384 ≤ w.dst.toNat → ungathered (beginWord s u i) u [k] = []) ∧
    let b := beginWord s u i
    let bv := src32 b t w.b
    let m := bv % 4096
    let va := src64 b t w.a
    let len := if send then bv / 4096 % 256 + 1 else 256
    let reserved := if send then bv / 2 ^ 20 else bv / 2 ^ 12
    let pages := mailboxPages b t (if send then needRead else needWrite) va len
    (reserved = 0) ∧ (pages.isOk = true) ∧ (boundTo s m t.ctx = true) := by
  refine ⟨(.mbsend boxW), true, boxW, (sBox (.mbsend boxW) 61443), (issuer (.mbsend boxW)), 4,
    (thread4 (sBox (.mbsend boxW) 61443) (.mbsend boxW)), ?_, ?_, ?_, ?_, ?_, ?_, ?_, ?_, ?_, ?_, ?_, ?_⟩ <;>
    first
      | decide | exact witness_issuesFor (by decide) | exact witness_fresh (by decide) | exact witness_noInterval (by decide)
      | rfl | exact Or.inl ⟨rfl, rfl⟩ | exact Or.inr ⟨rfl, rfl⟩

theorem test_receive_is_queued :
    ∃ i : Instr, ∃ send : Bool, ∃ w : RWord, ∃ s : State, ∃ u : Issuing, ∃ k : Nat, ∃ t : Thread, (i = .mbsend w ∧ send = true
      ∨ i = .mbrecv w ∧ send = false) ∧ IssuesFor s u i 0 w.ctr k t ∧ s.freshKey ∧ NoInterval s t.team ∧ (send = true →
      sendHold s u = false ∧ payloadHeld w s u = false ∧ releasePending s k 4 = false) ∧ (send = false → fenceHold s u = false)
      ∧ s.rangeLocks = [] ∧ s.poison = [] ∧ (384 ≤ w.dst.toNat → ungathered (beginWord s u i) u [k] = []) ∧
    let b := beginWord s u i
    let bv := src32 b t w.b
    let m := bv % 4096
    let va := src64 b t w.a
    let len := if send then bv / 4096 % 256 + 1 else 256
    let reserved := if send then bv / 2 ^ 20 else bv / 2 ^ 12
    let pages := mailboxPages b t (if send then needRead else needWrite) va len
    (reserved = 0) ∧ (pages.isOk = true) ∧ (boundTo s m t.ctx = true) := by
  refine ⟨(.mbrecv boxW), false, boxW, (sBox (.mbrecv boxW) 3), (issuer (.mbrecv boxW)), 4,
    (thread4 (sBox (.mbrecv boxW) 3) (.mbrecv boxW)), ?_, ?_, ?_, ?_, ?_, ?_, ?_, ?_, ?_, ?_, ?_, ?_⟩ <;>
    first
      | decide | exact witness_issuesFor (by decide) | exact witness_fresh (by decide) | exact witness_noInterval (by decide)
      | rfl | exact Or.inl ⟨rfl, rfl⟩ | exact Or.inr ⟨rfl, rfl⟩

theorem test_send_with_reserved_bits :
    ∃ i : Instr, ∃ send : Bool, ∃ w : RWord, ∃ s : State, ∃ u : Issuing, ∃ k : Nat, ∃ t : Thread, (i = .mbsend w ∧ send = true
      ∨ i = .mbrecv w ∧ send = false) ∧ IssuesFor s u i 0 w.ctr k t ∧ s.freshKey ∧ NoInterval s t.team ∧ (send = true →
      sendHold s u = false ∧ payloadHeld w s u = false ∧ releasePending s k 4 = false) ∧ (send = false → fenceHold s u = false)
      ∧ s.rangeLocks = [] ∧ s.poison = [] ∧ (384 ≤ w.dst.toNat → ungathered (beginWord s u i) u [k] = []) ∧
    let b := beginWord s u i
    let bv := src32 b t w.b
    let reserved := if send then bv / 2 ^ 20 else bv / 2 ^ 12
    (reserved ≠ 0) := by
  refine ⟨(.mbsend boxW), true, boxW, (sBox (.mbsend boxW) 1048576), (issuer (.mbsend boxW)), 4,
    (thread4 (sBox (.mbsend boxW) 1048576) (.mbsend boxW)), ?_, ?_, ?_, ?_, ?_, ?_, ?_, ?_, ?_, ?_⟩ <;>
    first
      | decide | exact witness_issuesFor (by decide) | exact witness_fresh (by decide) | exact witness_noInterval (by decide)
      | rfl | exact Or.inl ⟨rfl, rfl⟩ | exact Or.inr ⟨rfl, rfl⟩

theorem test_receive_of_no_mailbox :
    ∃ i : Instr, ∃ send : Bool, ∃ w : RWord, ∃ s : State, ∃ u : Issuing, ∃ k : Nat, ∃ t : Thread, (i = .mbsend w ∧ send = true
      ∨ i = .mbrecv w ∧ send = false) ∧ IssuesFor s u i 0 w.ctr k t ∧ s.freshKey ∧ NoInterval s t.team ∧ (send = true →
      sendHold s u = false ∧ payloadHeld w s u = false ∧ releasePending s k 4 = false) ∧ (send = false → fenceHold s u = false)
      ∧ s.rangeLocks = [] ∧ s.poison = [] ∧ (384 ≤ w.dst.toNat → ungathered (beginWord s u i) u [k] = []) ∧
    let b := beginWord s u i
    let bv := src32 b t w.b
    let m := bv % 4096
    let va := src64 b t w.a
    let len := if send then bv / 4096 % 256 + 1 else 256
    let reserved := if send then bv / 2 ^ 20 else bv / 2 ^ 12
    let pages := mailboxPages b t (if send then needRead else needWrite) va len
    (reserved = 0) ∧ (pages.isOk = true) ∧ (boundTo s m t.ctx = false) := by
  refine ⟨(.mbrecv boxW), false, boxW, (sBox (.mbrecv boxW) 4), (issuer (.mbrecv boxW)), 4,
    (thread4 (sBox (.mbrecv boxW) 4) (.mbrecv boxW)), ?_, ?_, ?_, ?_, ?_, ?_, ?_, ?_, ?_, ?_, ?_, ?_⟩ <;>
    first
      | decide | exact witness_issuesFor (by decide) | exact witness_fresh (by decide) | exact witness_noInterval (by decide)
      | rfl | exact Or.inl ⟨rfl, rfl⟩ | exact Or.inr ⟨rfl, rfl⟩

theorem test_cage_opens_for_a_thread :
    ∃ s : State, ∃ id : Nat, ∃ e : Entrant, ∃ t : Thread, tget id s.entrants = some e ∧ tget e.thread s.threads = some t ∧
      (cageFor s e.core t.ctx t.team e.k e.entry = none) ∧ (emptyCage s e.core = some 0) := by
  refine ⟨(sEnter []), 6, entrant, (created 5), ?_, ?_, ?_, ?_⟩ <;> decide

theorem test_cage_fills :
    ∃ s : State, ∃ id : Nat, ∃ e : Entrant, ∃ t : Thread, tget id s.entrants = some e ∧ tget e.thread s.threads = some t ∧
      (cageFor s e.core t.ctx t.team e.k e.entry = some 3) ∧ (tget (cageKey e.core 3) s.cages = some (cage .filling [(0, 9)])) := by
  refine ⟨(sEnter [(cageKey 0 3, cage .filling [(0, 9)])]), 6, entrant, (created 5), ?_, ?_, ?_, ?_⟩ <;> decide

theorem test_full_cage_takes_no_thread :
    ∃ s : State, ∃ id : Nat, ∃ e : Entrant, ∃ t : Thread, tget id s.entrants = some e ∧ tget e.thread s.threads = some t ∧
      (cageFor s e.core t.ctx t.team e.k e.entry = some 3) ∧ (tget (cageKey e.core 3) s.cages = some (cage .full [(0, 9), (0,
      8)])) := by
  refine ⟨(sEnter [(cageKey 0 3, cage .full [(0, 9), (0, 8)])]), 6, entrant, (created 5), ?_, ?_, ?_, ?_⟩ <;> decide

theorem test_thread_behind_another_does_not_enter :
    ∃ s : State, ∃ id : Nat, ∃ e : Entrant, ∃ t : Thread, tget id s.entrants = some e ∧ tget e.thread s.threads = some t ∧ (∃ x
      ∈ s.entrants, x.2.core = e.core ∧ x.2.k.code = e.k.code ∧ x.2.entry = e.entry ∧ x.2.since < e.since ∧ (tget x.2.thread
      s.threads).any (fun y => y.ctx = t.ctx ∧ y.team = t.team) = true) := by
  refine ⟨sQueueing, 6, late, (created 5), ?_, ?_, ?_⟩ <;> decide

theorem test_cages_fill_and_launch_groups_1 :
    ∃ s : State, ∃ core : Nat, ∃ n : Nat, ∃ c : Cage, tget (cageKey core n) s.cages = some c ∧ c.state = .filling ∧ c.timer ≤
      s.clk ∧ (∀ e ∈ s.entrants, e.2.core ≠ core) := by
  refine ⟨sTimer, 0, 3, (cage .filling [(0, 9)]), ?_, ?_, ?_, ?_⟩ <;>
    first
      | decide | exact witness_nil rfl

theorem test_group_launches :
    ∃ s : State, ∃ core : Nat, ∃ n : Nat, ∃ bay : Nat, ∃ slot0 : Nat, ∃ row : Nat, ∃ c : Cage, ∃ tm : Team, tget (cageKey core
      n) s.cages = some c ∧ c.state = .full ∧ (s.core core).frozen = false ∧ tget c.team s.teams = some tm ∧ tm.state ≠ .saving
      ∧ s.freshKey ∧ groupPlace s core c.k.width c.k.regs = some (bay, slot0, row) ∧
    let order := (cageOrder s c).map (·.2)
    order.Nodup ∧ (∀ k ∈ order, (tget k s.threads).isSome) := by
  refine ⟨(sLaunch [(0, 6), (0, 5)]), 0, 3, 0, 0, 384, (bigCage [(0, 6), (0, 5)]), (team2 (sLaunch [(0, 6), (0, 5)])), ?_, ?_,
    ?_, ?_, ?_, ?_, ?_, ?_, ?_⟩ <;>
    first
      | decide | exact witness_fresh (by decide)

theorem test_group_launches_and_leaves_a_thread :
    ∃ s : State, ∃ core : Nat, ∃ n : Nat, ∃ bay : Nat, ∃ slot0 : Nat, ∃ row : Nat, ∃ c : Cage, ∃ tm : Team, tget (cageKey core
      n) s.cages = some c ∧ c.state = .full ∧ (s.core core).frozen = false ∧ tget c.team s.teams = some tm ∧ tm.state ≠ .saving
      ∧ s.freshKey ∧ groupPlace s core c.k.width c.k.regs = some (bay, slot0, row) ∧
    let order := (cageOrder s c).map (·.2)
    order.Nodup ∧ (∀ k ∈ order, (tget k s.threads).isSome) := by
  refine ⟨(sLaunch [(0, 6), (0, 5), (1, 7)]), 0, 3, 0, 0, 384, (bigCage [(0, 6), (0, 5), (1, 7)]),
    (team2 (sLaunch [(0, 6), (0, 5), (1, 7)])), ?_, ?_, ?_, ?_, ?_, ?_, ?_, ?_, ?_⟩ <;>
    first
      | decide | exact witness_fresh (by decide)

theorem test_clause_is_picked :
    ∃ s : State, ∃ core : Nat, ∃ bay : Nat, ∃ p : Port, s.sorted ∧ (∀ x, tget (portKey core bay p) s.ports = some x → x.words =
      0) ∧ coreIssues s core bay = true ∧ s.retiring = [] ∧ s.poison = [] ∧ (pickSet s core bay p = ([(picked sPick)], [(picked
      sPick)])) ∧ ((bayThreads s core bay).all (fun e => (nextHeader s e.2.1 e.2.2).isOk) = true) := by
  refine ⟨sPick, 0, 0, .va, ?_, ?_, ?_, ?_, ?_, ?_, ?_⟩ <;>
    first
      | decide | exact ⟨rfl, rfl⟩ | exact witness_table (by decide) | exact witness_option (by decide)
      | exact fun x h => by cases h

theorem test_clause_that_fails_its_check :
    ∃ s : State, ∃ core : Nat, ∃ bay : Nat, ∃ p : Port, s.sorted ∧ (∀ x, tget (portKey core bay p) s.ports = some x → x.words =
      0) ∧ coreIssues s core bay = true ∧ s.retiring = [] ∧ s.poison = [] ∧ (pickSet s core bay p = ([candBad], [candBad])) ∧
      ((bayThreads s core bay).all (fun e => (nextHeader s e.2.1 e.2.2).isOk) = true) := by
  refine ⟨sPickBad, 0, 0, .va, ?_, ?_, ?_, ?_, ?_, ?_, ?_⟩ <;>
    first
      | decide | exact ⟨rfl, rfl⟩ | exact witness_table (by decide) | exact witness_option (by decide)
      | exact fun x h => by cases h

theorem test_thread_beyond_its_code :
    ∃ s : State, ∃ core : Nat, ∃ bay : Nat, ∃ p : Port, s.sorted ∧ (∀ x, tget (portKey core bay p) s.ports = some x → x.words =
      0) ∧ coreIssues s core bay = true ∧ s.retiring = [] ∧ s.poison = [] ∧ ((bayThreads s core bay).all (fun e => !(nextHeader
      s e.2.1 e.2.2).isOk) = true) ∧ (bayThreads s core bay ≠ []) := by
  refine ⟨sPickBeyond, 0, 0, .va, ?_, ?_, ?_, ?_, ?_, ?_, ?_⟩ <;>
    first
      | decide | exact ⟨rfl, rfl⟩ | exact witness_table (by decide) | exact witness_option (by decide)
      | exact fun x h => by cases h

theorem test_traps_reach_their_handlers_0 :
    ∃ s : State, ∃ k : Nat, ∃ hdr : Nat, ∃ pc : Nat, ∃ t : Thread, ∃ i : TrapInfo, tget k s.threads = some t ∧ (∀ tm, tget
      t.team s.teams = some tm → tm.state ≠ .saving) ∧ t.deferred.find? (deferredDue s k t) = some i ∧ standing s k t = some
      (hdr, pc) := by
  refine ⟨sDeferred, 4, 0x40000, 0x40000, (tgetD 4 blankThread sDeferred.threads), stepTrap, ?_, ?_, ?_, ?_⟩ <;>
    first
      | decide | exact witness_table (by decide) | exact witness_option (by decide)

theorem test_traps_reach_their_handlers_1 :
    ∃ s : State, ∃ w : State, ∃ s' : State, ∃ k : Nat, ∃ slot : Nat, ∃ l : Nat, ∃ t : Thread, ∃ i : TrapInfo, ∃ c : Context, ∃
      x : Launch, tget k s.threads = some t ∧ t.state = .trapped ∧ t.trapSlot = none ∧ t.trap = some i ∧ tget t.ctx s.contexts
      = some c ∧ freeTrapSlot c = some slot ∧ ctxWrite s t.ctx (slotVa s t.ctx slot) (trapRecord s t i) = some w ∧ c.handler =
      some l ∧ tget l s.launches = some x ∧ t.handler = false ∧ s.freshKey ∧ createHandler (w.onThread k fun t => { t with
      trapSlot := some slot }) t.ctx l x.k (dieOfCore (coreOf s t)) slot k (slotVa s t.ctx slot) = some s' := by
  refine ⟨(sTrapped (some 1)), recordWritten, handlerMade, 4, 0, 1, (tgetD 4 blankThread (sTrapped (some 1)).threads),
    wordTrapInfo, (context0 (sTrapped (some 1))), (launch1 idle), ?_, ?_, ?_, ?_, ?_, ?_, ?_, ?_, ?_, ?_, ?_, ?_⟩ <;>
    first
      | decide | exact witness_fresh (by decide) | exact witness_some (by decide)

theorem test_traps_reach_their_handlers_2 :
    ∃ s : State, ∃ k : Nat, ∃ t : Thread, ∃ i : TrapInfo, ∃ c : Context, s.sorted ∧ tget k s.threads = some t ∧ t.state =
      .trapped ∧ t.trapSlot = none ∧ t.trap = some i ∧ tget t.ctx s.contexts = some c ∧ (c.handler = none ∨ t.handler = true) := by
  refine ⟨(sTrapped none), 4, (tgetD 4 blankThread (sTrapped none).threads), wordTrapInfo, (context0 (sTrapped none)), ?_, ?_,
    ?_, ?_, ?_, ?_, ?_⟩ <;>
    first
      | decide | exact ⟨rfl, rfl⟩

theorem test_launch_records_are_admitted_0 :
    ∃ s : State, ∃ ctx : Nat, ∃ tail : Word64, ∃ c : Context, tget ctx s.contexts = some c ∧ s.glob.ready = true ∧ c.state = 1
      ∧ c.head ≤ tail.toNat ∧ tail.toNat ≤ c.head + 2 ^ c.qlog := by
  refine ⟨sQueued, 0, 16, (context0 sQueued), ?_, ?_, ?_, ?_, ?_⟩ <;> decide

theorem test_launch_records_are_admitted_1 :
    ∃ s : State, ∃ ctx : Nat, ∃ st : Nat, ∃ c : Context, tget ctx s.contexts = some c ∧ c.state = 1 ∧ c.head < c.tail ∧
      checkRecord s ctx s.nextKey c c.head = .error st ∧ deviceReaches s (recordPa c c.head) 64 = true ∧ s.poison = [] := by
  refine ⟨sQueued, 0, 2, (context0 sQueued), ?_, ?_, ?_, ?_, ?_, ?_⟩ <;>
    first
      | decide | rfl

theorem test_launch_records_are_admitted_3 :
    ∃ s : State, ∃ w : State, ∃ k : Nat, ∃ l : Launch, (waitingLaunches s).head? = some (k, l) ∧ outranked s l = false ∧
      placeNext s k l = some w := by
  refine ⟨sWaiting, ((placeNext sWaiting 8 grid).getD idle), 8, grid, ?_, ?_, ?_⟩ <;>
    first
      | decide | exact witness_some (by decide)

theorem test_launch_records_are_admitted_2 :
    ∃ s : State, ∃ w : State, ∃ ctx : Nat, ∃ c : Context, ∃ l : Launch, tget ctx s.contexts = some c ∧ c.state = 1 ∧ c.head <
      c.tail ∧ checkRecord s ctx s.nextKey c c.head = .ok (l, []) ∧ lockRoom c (locksNeeded s { l with id := if l.id = 0 then 2
      ^ 63 + s.idCounter % 2 ^ 62 else l.id } []) = true ∧ l.assay = none ∧ deviceReaches s (recordPa c c.head) 64 = true ∧
      mustWait s { l with id := if l.id = 0 then 2 ^ 63 + s.idCounter % 2 ^ 62 else l.id } = false ∧
    let id := if l.id = 0 then 2 ^ 63 + s.idCounter % 2 ^ 62 else l.id
    placeFirst { s with nextKey := s.nextKey + 1, idCounter := if l.id = 0 then s.idCounter + 1 else s.idCounter } s.nextKey {
      l with id := id } = some w := by
  refine ⟨sAdmit, admittedIn, 0, (context0 sAdmit), admitted, ?_, ?_, ?_, sAdmit_checked, ?_, ?_, ?_, ?_, ?_⟩ <;>
    first
      | decide | exact witness_some (by decide)

theorem test_grids_complete :
    ∃ s : State, ∃ k : Nat, ∃ n : Nat, ∃ l : Launch, ∃ c : Context, tget k s.launches = some l ∧ gridDone s k l = true ∧ l.kind
      = .queued n ∧ l.staged = [] ∧ l.handles = [] ∧ l.assay = none ∧ tget l.ctx s.contexts = some c ∧ c.state = 1 ∧ contained
      s = false ∧ deviceReaches s (recordPa c n) 64 = true := by
  refine ⟨sEnded, 8, 0, gridEnded, (context0 sEnded), ?_, ?_, ?_, ?_, ?_, ?_, ?_, ?_, ?_, ?_⟩ <;> decide

theorem test_contexts_open_and_close_0 :
    ∃ s : State, ∃ ctx : Nat, ∃ cdesc : Word64, ctx < 64 ∧ s.glob.ready = true ∧ cdesc ≠ 0 ∧ (tgetD ctx Context.reset
      s.contexts).state = 0 ∧
    let d := (readCtxDesc s cdesc.toNat).1
    d.hdesc = 0 ∧ ((readCtxDesc s cdesc.toNat).1.hdesc = 0) := by
  refine ⟨sClosed, 63, 0x1000, ?_, ?_, ?_, ?_, ?_, ?_⟩ <;> decide

theorem test_contexts_open_and_close_1 :
    ∃ s : State, ∃ ctx : Nat, ∃ c : Context, ctx < 64 ∧ s.glob.ready = true ∧ tget ctx s.contexts = some c ∧ (c.state = 1 ∨
      c.state = 3) ∧ c.head ≤ c.tail ∧ (∀ e ∈ s.launches, e.2.ctx = ctx → e.2.status ≠ none ∨ e.2.kind = .handler) ∧ (∀ n, n <
      c.tail - c.head → deviceReaches s (recordPa c (c.head + n)) 64 = true) := by
  refine ⟨sQueued, 0, (context0 sQueued), ?_, ?_, ?_, ?_, ?_, ?_, ?_⟩ <;>
    first
      | decide | exact fun e h => by cases h
      | exact fun n h => by have : n = 0 := by change n < 1 at h; omega
          subst this; decide

theorem test_loads_return_their_bytes_0 :
    ∃ s : State, ∃ op : Nat, ∃ req : Nat, ∃ o : LoadOp, ∃ r : LineReq, tget op s.ops = some (.load o) ∧ o.reqs[req]? = some r ∧
      r.sent = false ∧ (∀ x ∈ o.reqs.take req, x.sent = true) ∧ (o.reqs.map (·.line)).Nodup ∧ missEntries s o.core + 4 ≤ 1024 := by
  refine ⟨(sLoading .ca false 0), 5, 0, (loadOp .ca false 0), ⟨0x600, 1, false, 0⟩, ?_, ?_, ?_, ?_, ?_, ?_⟩ <;> decide

theorem test_sector_comes_ca :
    ∃ s : State, ∃ op : Nat, ∃ req : Nat, ∃ i : Nat, ∃ o : LoadOp, ∃ r : LineReq, tget op s.ops = some (.load o) ∧ o.reqs[req]?
      = some r ∧ r.sent = true ∧ (List.range 4).find? (fun i => bit r.sectors i && !bit r.filled i) = some i ∧
    let sector := r.line * 256 + 64 * i
    fillWaits s sector = false ∧ bankHeld s sector = false ∧ lineHeld s (.hbm sector) 64 = false ∧ (o.kind.viaL1 o.scope =
      true) := by
  refine ⟨(sLoading .ca true 0), 5, 0, 0, (loadOp .ca true 0), ⟨0x600, 1, true, 0⟩, ?_, ?_, ?_, ?_, ?_, ?_, ?_, ?_⟩ <;> decide

theorem test_sector_comes_cg :
    ∃ s : State, ∃ op : Nat, ∃ req : Nat, ∃ i : Nat, ∃ o : LoadOp, ∃ r : LineReq, tget op s.ops = some (.load o) ∧ o.reqs[req]?
      = some r ∧ r.sent = true ∧ (List.range 4).find? (fun i => bit r.sectors i && !bit r.filled i) = some i ∧
    let sector := r.line * 256 + 64 * i
    fillWaits s sector = false ∧ bankHeld s sector = false ∧ lineHeld s (.hbm sector) 64 = false ∧ (o.kind.viaL1 o.scope =
      false) := by
  refine ⟨(sLoading .cg true 0), 5, 0, 0, (loadOp .cg true 0), ⟨0x600, 1, true, 0⟩, ?_, ?_, ?_, ?_, ?_, ?_, ?_, ?_⟩ <;> decide

theorem test_sector_comes_lu :
    ∃ s : State, ∃ op : Nat, ∃ req : Nat, ∃ i : Nat, ∃ o : LoadOp, ∃ r : LineReq, tget op s.ops = some (.load o) ∧ o.reqs[req]?
      = some r ∧ r.sent = true ∧ (List.range 4).find? (fun i => bit r.sectors i && !bit r.filled i) = some i ∧
    let sector := r.line * 256 + 64 * i
    fillWaits s sector = false ∧ bankHeld s sector = false ∧ lineHeld s (.hbm sector) 64 = false ∧ (o.kind.viaL1 o.scope =
      false) ∧ (o.kind = .lu) := by
  refine ⟨(sLoading .lu true 0), 5, 0, 0, (loadOp .lu true 0), ⟨0x600, 1, true, 0⟩, ?_, ?_, ?_, ?_, ?_, ?_, ?_, ?_, ?_⟩ <;> decide

theorem test_loads_return_their_bytes_2 :
    ∃ s : State, ∃ op : Nat, ∃ n : Nat, ∃ pa : Nat, ∃ d : Nat, ∃ o : LoadOp, ∃ m : LoadMember, ∃ t : Thread, tget op s.ops =
      some (.load o) ∧ o.members[n]? = some m ∧ m.done = false ∧ m.target = .hbm pa ∧ m.dst = some d ∧ (d < 384 → d + loadRegs
      o.size ≤ 384) ∧ tget m.thread s.threads = some t ∧ memberFilled o m = true ∧ s.poison = [] ∧ s.freshKey ∧ olderOwnRead s
      op m.thread (.hbm pa) (sizeBytes o.size) = false ∧ lineHeld s (.hbm pa) (sizeBytes o.size) = false := by
  refine ⟨(sLoading .ca true 1), 5, 0, 0x60000, 20, (loadOp .ca true 1), ⟨4, some 20, 0x60000, .hbm 0x60000, false⟩, thread4',
    ?_, ?_, ?_, ?_, ?_, ?_, ?_, ?_, ?_, ?_, ?_, ?_⟩ <;>
    first
      | decide | exact witness_fresh (by decide)

theorem test_stores_and_atomics_are_performed_0 :
    ∃ s : State, ∃ op : Nat, ∃ pa : Nat, ∃ o : StoreOp, ∃ i : Instr, tget op s.ops = some (.store o) ∧ o.target = .hbm pa ∧
      (o.bytes.map (·.1)).Nodup ∧ storeReady s op o = true ∧ (∀ tm l, tget o.team s.teams = some tm → tget tm.launch s.launches
      = some l → l.k.det = false) ∧ ((i = .storePerform op ∧ ∀ a ∈ o.bytes, onScale s (.hbm a.1) 1 = false) ∨ (i =
      .scaleStorePerform op ∧ (∃ a ∈ o.bytes, onScale s (.hbm a.1) 1 = true) ∧ ∀ x ∈ scaledSectors s o, linePinned s (x / 4) =
      false ∧ dirtyAbroad s x = false ∧ bankHeld s (x * 64) = false)) := by
  refine ⟨(sStoring 0x60000), 5, 0x60000, (storing4 0x60000), (.storePerform 5), ?_, ?_, ?_, ?_, ?_, ?_⟩ <;>
    first
      | decide | exact witness_table (by decide) | exact witness_option (by decide)
      | exact fun tm l h1 h2 => witness_det (by decide) tm l h1 h2 | exact Or.inl ⟨rfl, by decide⟩
      | exact Or.inr ⟨rfl, by decide, by decide⟩

theorem test_engine_store_is_performed :
    ∃ s : State, ∃ op : Nat, ∃ pa : Nat, ∃ o : StoreOp, ∃ i : Instr, tget op s.ops = some (.store o) ∧ o.target = .hbm pa ∧
      (o.bytes.map (·.1)).Nodup ∧ storeReady s op o = true ∧ (∀ tm l, tget o.team s.teams = some tm → tget tm.launch s.launches
      = some l → l.k.det = false) ∧ ((i = .storePerform op ∧ ∀ a ∈ o.bytes, onScale s (.hbm a.1) 1 = false) ∨ (i =
      .scaleStorePerform op ∧ (∃ a ∈ o.bytes, onScale s (.hbm a.1) 1 = true) ∧ ∀ x ∈ scaledSectors s o, linePinned s (x / 4) =
      false ∧ dirtyAbroad s x = false ∧ bankHeld s (x * 64) = false)) ∧ (o.cs = []) := by
  refine ⟨(withOp (.store engineOp)), 5, 0x60000, engineOp, (.storePerform 5), ?_, ?_, ?_, ?_, ?_, ?_, ?_⟩ <;>
    first
      | decide | exact witness_table (by decide) | exact witness_option (by decide)
      | exact fun tm l h1 h2 => witness_det (by decide) tm l h1 h2 | exact Or.inl ⟨rfl, by decide⟩
      | exact Or.inr ⟨rfl, by decide, by decide⟩

theorem test_scale_store_is_performed :
    ∃ s : State, ∃ op : Nat, ∃ pa : Nat, ∃ o : StoreOp, ∃ i : Instr, tget op s.ops = some (.store o) ∧ o.target = .hbm pa ∧
      (o.bytes.map (·.1)).Nodup ∧ storeReady s op o = true ∧ (∀ tm l, tget o.team s.teams = some tm → tget tm.launch s.launches
      = some l → l.k.det = false) ∧ ((i = .storePerform op ∧ ∀ a ∈ o.bytes, onScale s (.hbm a.1) 1 = false) ∨ (i =
      .scaleStorePerform op ∧ (∃ a ∈ o.bytes, onScale s (.hbm a.1) 1 = true) ∧ ∀ x ∈ scaledSectors s o, linePinned s (x / 4) =
      false ∧ dirtyAbroad s x = false ∧ bankHeld s (x * 64) = false)) := by
  refine ⟨sScale, 5, 0x60000, (storing4 0x60000), (.scaleStorePerform 5), ?_, ?_, ?_, ?_, ?_, ?_⟩ <;>
    first
      | decide | exact witness_table (by decide) | exact witness_option (by decide)
      | exact fun tm l h1 h2 => witness_det (by decide) tm l h1 h2 | exact Or.inl ⟨rfl, by decide⟩
      | exact Or.inr ⟨rfl, by decide, by decide⟩

theorem test_stores_and_atomics_are_performed_1 :
    ∃ s : State, ∃ op : Nat, ∃ pa : Nat, ∃ d : Nat, ∃ o : AtomOp, ∃ m : AtomMember, ∃ t : Thread, tget op s.ops = some (.atom
      o) ∧ o.target = .hbm pa ∧ o.members = [m] ∧ m.dst = some d ∧ (d < 384 → d + 2 ≤ 384) ∧ tget m.thread s.threads = some t ∧
      s.poison = [] ∧ olderOwn s op m.thread o.target o.bytes = false ∧ seenPending s op o.core 2 o.target o.bytes = false ∧
      olderCas s op o = false ∧ writeWaits s o.target o.bytes = false ∧ banksHeld s o.target o.bytes = false ∧ s.freshKey := by
  refine ⟨sAtomic, 5, 0x60000, 20, atomOp, atomMember, thread4', ?_, ?_, ?_, ?_, ?_, ?_, ?_, ?_, ?_, ?_, ?_, ?_, ?_⟩ <;>
    first
      | decide | exact witness_fresh (by decide) | rfl

theorem test_stores_and_atomics_are_performed_2 :
    ∃ s : State, s.glob.atomics ≤ s.clk := by
  refine ⟨sInterval, ?_⟩ <;> decide

theorem test_aggregated_atomics_serve_their_members_in_order :
    ∃ s : State, ∃ op : Nat, ∃ pa : Nat, ∃ o : AtomOp, tget op s.ops = some (.atom o) ∧ o.target = .hbm pa ∧ o.members ≠ [] ∧
      o.fadd = false ∧ o.oper < 7 ∧ (o.members.map (·.thread)).Nodup ∧ (∀ m ∈ o.members, m.b < 2 ^ (8 * o.bytes) ∧ (tget
      m.thread s.threads).isSome ∧ olderOwn s op m.thread o.target o.bytes = false ∧ ∀ d, m.dst = some d → d + 2 ≤ 384) ∧
      s.poison = [] ∧ s.freshKey ∧ seenPending s op o.core 2 o.target o.bytes = false ∧ olderCas s op o = false ∧ writeWaits s
      o.target o.bytes = false ∧ banksHeld s o.target o.bytes = false := by
  refine ⟨sAtomPair, 5, 0x60000, atomPair, ?_, ?_, ?_, ?_, ?_, ?_, ?_, ?_, ?_, ?_, ?_, ?_, ?_⟩ <;>
    first
      | decide | exact witness_fresh (by decide) | exact witness_table (by decide) | exact witness_option (by decide)
      | exact fun m hm => by
          rcases (by simpa [atomPair] using hm : m = ⟨4, 7, 0, some 20⟩ ∨ m = ⟨5, 9, 0, some 22⟩) with rfl | rfl <;> exact ⟨by decide, rfl, rfl, fun d h => by injection h with h; subst h; decide⟩

theorem test_tiles_lock_and_commit_0 :
    ∃ s : State, ∃ op : Nat, ∃ line : Nat, ∃ o : TileOp, tget op s.ops = some (.tile o) ∧ o.phase = .locking ∧ (o.locked ≠ [] ∨
      tileStarts s op o = true) ∧ o.lines[o.locked.length]? = some line ∧ (slicePeers s (homeSlice s line)).length < 32 ∧
      lineClash s op o line = false := by
  refine ⟨(sTile true .locking), 5, 0x600, (tileOp true .locking), ?_, ?_, ?_, ?_, ?_, ?_⟩ <;>
    first
      | decide | exact Or.inl (by decide) | exact Or.inr (by decide)

theorem test_tiles_lock_and_commit_1 :
    ∃ s : State, ∃ op : Nat, ∃ o : TileOp, tget op s.ops = some (.tile o) ∧ o.phase = .data ∧ (o.lines ≠ [] ∨ tileStarts s op o
      = true) ∧ o.storing = true ∧ o.vas.length = o.rows.length ∧ (∀ r ∈ o.rows, ∀ p ∈ r, p.1.isHbm = true ∧ blocksWait s
      (blockSectors s p.1 p.2) = false ∧ banksHeld s p.1 p.2 = false) ∧ s.samples = [] ∧ holdsStores s o.team = false ∧ (∀ tm
      l, tget o.team s.teams = some tm → tget tm.launch s.launches = some l → l.k.det = false) ∧
    let ps := placePieces o.rows.flatten o.data
    (ps.flatMap fun p => addrs p.1.pa p.2.length).Nodup := by
  refine ⟨(sTile true .data), 5, (tileOp true .data), ?_, ?_, ?_, ?_, ?_, ?_, ?_, ?_, ?_, ?_⟩ <;>
    first
      | decide | exact witness_table (by decide) | exact witness_option (by decide) | exact Or.inl (by decide)
      | exact Or.inr (by decide) | exact fun tm l h1 h2 => witness_det (by decide) tm l h1 h2

theorem test_tiles_lock_and_commit_2 :
    ∃ s : State, ∃ op : Nat, ∃ o : TileOp, tget op s.ops = some (.tile o) ∧ o.phase = .data ∧ (o.lines ≠ [] ∨ tileStarts s op o
      = true) ∧ o.storing = false ∧ s.poison = [] ∧ s.freshKey ∧ (∀ r ∈ o.rows, ∀ p ∈ r, banksHeld s p.1 p.2 = false) ∧
    let ps := placePieces o.block (tileBytes s o)
    (∀ p ∈ ps, ∀ i, i < p.2.length → ∃ c off, regionOf s (p.1.pa + i) = (c, .scratchpad off)) ∧ (ps.flatMap fun p => addrs
      p.1.pa p.2.length).Nodup := by
  refine ⟨(sTile false .data), 5, (tileOp false .data), ?_, ?_, ?_, ?_, ?_, ?_, ?_, ?_, ?_⟩ <;>
    first
      | decide | exact witness_fresh (by decide) | exact Or.inl (by decide) | exact Or.inr (by decide)
      | exact witness_block (by decide)

theorem test_sector_is_discarded :
    ∃ s : State, ∃ op : Nat, ∃ x : Nat, ∃ more : List Nat, ∃ o : DiscOp, tget op s.ops = some (.disc o) ∧ o.sectors = x :: more
      ∧ olderOwn s op o.c.thread (.hbm x) 64 = false ∧ lineHeld s (.hbm x) 64 = false := by
  refine ⟨(sDiscard [0x60000, 0x60040]), 5, 0x60000, [0x60040], ⟨⟨4, 1⟩, 0, 0, 2, [0x60000, 0x60040]⟩, ?_, ?_, ?_, ?_⟩ <;> decide

theorem test_last_sector_is_discarded :
    ∃ s : State, ∃ op : Nat, ∃ x : Nat, ∃ more : List Nat, ∃ o : DiscOp, tget op s.ops = some (.disc o) ∧ o.sectors = x :: more
      ∧ olderOwn s op o.c.thread (.hbm x) 64 = false ∧ lineHeld s (.hbm x) 64 = false := by
  refine ⟨(sDiscard [0x60000]), 5, 0x60000, [], ⟨⟨4, 1⟩, 0, 0, 2, [0x60000]⟩, ?_, ?_, ?_, ?_⟩ <;> decide

theorem test_discard_drops_a_guest_copy :
    ∃ s : State, ∃ op : Nat, ∃ x : Nat, ∃ more : List Nat, ∃ o : DiscOp, tget op s.ops = some (.disc o) ∧ o.sectors = x :: more
      ∧ olderOwn s op o.c.thread (.hbm x) 64 = false ∧ lineHeld s (.hbm x) 64 = false ∧ (linePinned s (x / 256) = false ∧
      homeDie s x ≠ dieOfCore abroad.core ∧ tget 6 s.ops = some (.store abroad)) := by
  refine ⟨sAbroad, 5, 0x60000, [], ⟨⟨4, 1⟩, 0, 0, 2, [0x60000]⟩, ?_, ?_, ?_, ?_, ?_⟩ <;>
    first
      | decide | exact ⟨rfl, by decide, rfl⟩

theorem test_discards_fences_and_invalidations_complete_1 :
    ∃ s : State, ∃ op : Nat, ∃ o : PrefOp, tget op s.ops = some (.pref o) ∧ (∀ i, i < 4 → let x := o.line * 256 + 64 * i
      fillWaits s x = false ∧ bankHeld s x = false ∧ lineHeld s (.hbm x) 64 = false) ∧ (o.l1 = false) := by
  refine ⟨(sPrefetch false), 5, ⟨⟨4, 1⟩, 0, 0x600, false⟩, ?_, ?_, ?_⟩ <;> decide

theorem test_discards_fences_and_invalidations_complete_2 :
    ∃ s : State, ∃ op : Nat, ∃ o : FenceOp, tget op s.ops = some (.fence o) ∧ fenceDone s o = true ∧ (bit o.succ 0 = true ∧ 2 ≤
      o.scope) := by
  refine ⟨(sFenced 1 2), 5, ⟨4, 3, 1, 2, []⟩, ?_, ?_, ?_⟩ <;>
    first
      | decide | exact Or.inl (by decide) | exact Or.inr (by decide)

theorem test_discards_fences_and_invalidations_complete_2_b :
    ∃ s : State, ∃ op : Nat, ∃ o : FenceOp, tget op s.ops = some (.fence o) ∧ fenceDone s o = true ∧ (bit o.succ 0 = false ∨
      o.scope < 2) := by
  refine ⟨(sFenced 2 0), 5, ⟨4, 3, 2, 0, []⟩, ?_, ?_, ?_⟩ <;>
    first
      | decide | exact Or.inl (by decide) | exact Or.inr (by decide)

theorem test_discards_fences_and_invalidations_complete_3 :
    ∃ s : State, ∃ op : Nat, ∃ pa : Nat, ∃ o : RinvOp, tget op s.ops = some (.rinv o) ∧ o.obj = .hbm pa ∧ s.poison = [] ∧
      writeWaits s o.obj 8 = false ∧ banksHeld s o.obj 8 = false := by
  refine ⟨sRinvDone, 5, 0x61000, rinvOp, ?_, ?_, ?_, ?_, ?_⟩ <;> decide

theorem test_first_contribution_of_a_leaf :
    ∃ s : State, ∃ op : Nat, ∃ v : Nat, ∃ o : CtbOp, ∃ hd : Handle, ∃ t : Thread, tget op s.ops = some (.ctb o) ∧ o.tested =
      false ∧ (∀ e ∈ s.ops, ∀ x, e.2 = .ctb x → e.1 < op → x.tested = true ∨ x.core ≠ o.core) ∧ tget o.c.thread s.threads =
      some t ∧ tget (handleKey o.ctx o.h) s.handles = some hd ∧ ctxValue s o.ctx (leafByteVa hd o.leaf) 1 = some v ∧ writeHeld
      s (dieOfCore o.core) o.ctx (leafByteVa hd o.leaf) 1 = false ∧ s.poison = [] ∧ (bit v (o.leaf % 8) = false ∧ hd.cquota ≠ 0
      ∧ ctxWrite s o.ctx (leafByteVa hd o.leaf) [BitVec.ofNat 8 (putBit v (o.leaf % 8) true)] = some ctbMarked) := by
  refine ⟨(sCtb false 0), 5, 0, (ctbOp false), handle4, (tgetD 4 blankThread idle.threads), ?_, ?_, ?_, ?_, ?_, ?_, ?_, ?_,
    ?_⟩ <;>
    first
      | decide | exact witness_table (by decide) | exact witness_option (by decide) | exact witness_nil rfl
      | exact witness_tests (by decide) | exact witness_some (by decide)

theorem test_second_contribution_of_a_leaf :
    ∃ s : State, ∃ op : Nat, ∃ v : Nat, ∃ o : CtbOp, ∃ hd : Handle, ∃ t : Thread, tget op s.ops = some (.ctb o) ∧ o.tested =
      false ∧ (∀ e ∈ s.ops, ∀ x, e.2 = .ctb x → e.1 < op → x.tested = true ∨ x.core ≠ o.core) ∧ tget o.c.thread s.threads =
      some t ∧ tget (handleKey o.ctx o.h) s.handles = some hd ∧ ctxValue s o.ctx (leafByteVa hd o.leaf) 1 = some v ∧ writeHeld
      s (dieOfCore o.core) o.ctx (leafByteVa hd o.leaf) 1 = false ∧ s.poison = [] ∧ (bit v (o.leaf % 8) = true) ∧ (t.state ≠
      .exited) := by
  refine ⟨(sCtb false 2), 5, 2, (ctbOp false), handle4, (tgetD 4 blankThread idle.threads), ?_, ?_, ?_, ?_, ?_, ?_, ?_, ?_,
    ?_, ?_⟩ <;>
    first
      | decide | exact witness_table (by decide) | exact witness_option (by decide) | exact witness_nil rfl
      | exact witness_tests (by decide) | exact witness_some (by decide)

theorem test_second_contribution_of_a_trapped_thread :
    ∃ s : State, ∃ op : Nat, ∃ v : Nat, ∃ o : CtbOp, ∃ hd : Handle, ∃ t : Thread, tget op s.ops = some (.ctb o) ∧ o.tested =
      false ∧ (∀ e ∈ s.ops, ∀ x, e.2 = .ctb x → e.1 < op → x.tested = true ∨ x.core ≠ o.core) ∧ tget o.c.thread s.threads =
      some t ∧ tget (handleKey o.ctx o.h) s.handles = some hd ∧ ctxValue s o.ctx (leafByteVa hd o.leaf) 1 = some v ∧ writeHeld
      s (dieOfCore o.core) o.ctx (leafByteVa hd o.leaf) 1 = false ∧ s.poison = [] ∧ (bit v (o.leaf % 8) = true) ∧ (t.state =
      .trapped) := by
  refine ⟨sCtbTrapped, 5, 2, (ctbOp false), handle4, (tgetD 4 blankThread sCtbTrapped.threads), ?_, ?_, ?_, ?_, ?_, ?_, ?_,
    ?_, ?_, ?_⟩ <;>
    first
      | decide | exact witness_table (by decide) | exact witness_option (by decide) | exact witness_nil rfl
      | exact witness_tests (by decide) | exact witness_some (by decide)

theorem test_arrival_is_kept :
    ∃ s : State, ∃ n : Nat, ∃ core : Nat, ∃ ctx : Nat, ∃ h : Nat, ∃ level : Nat, ∃ index : Nat, ∃ e : PairEntry, ∃ hd : Handle,
      ∃ o : CtbOp, tget n s.arrivals = some e ∧ e.place = .core core ∧ e.tag = .handle ctx h level index ∧ tget (handleKey ctx
      h) s.handles = some hd ∧ tget e.cmd s.ops = some (.ctb o) ∧ (∀ a ∈ s.arrivals, a.2.place = .core core → n ≤ a.1) ∧
      e.tag.beyond (hd.nm1 + 1) = false ∧ level + 1 < hd.levels ∧ hd.chold ≠ 0 ∧ (s.buffers.filter fun b => b.2.place = .core
      core).length < min hd.cquota 64 ∧ (∀ x ∈ s.treated, x.1 = .core core → x.2 ≠ s.clk) ∧ (∀ b ∈ s.buffers, b.1 < s.nextKey)
      ∧ e.tag.sibling.beyond (hd.nm1 + 1) = false ∧ (∀ b ∈ s.buffers, b.2.place = .core core → b.2.tag ≠ e.tag.sibling) := by
  refine ⟨(sArriving []), 6, 0, 0, 5, 0, 1, arriving, handle4, (ctbOp true), ?_, ?_, ?_, ?_, ?_, ?_, ?_, ?_, ?_, ?_, ?_, ?_,
    ?_, ?_⟩ <;> decide

theorem test_arrival_meets_its_sibling :
    ∃ s : State, ∃ n : Nat, ∃ core : Nat, ∃ ctx : Nat, ∃ h : Nat, ∃ level : Nat, ∃ index : Nat, ∃ e : PairEntry, ∃ hd : Handle,
      ∃ o : CtbOp, tget n s.arrivals = some e ∧ e.place = .core core ∧ e.tag = .handle ctx h level index ∧ tget (handleKey ctx
      h) s.handles = some hd ∧ tget e.cmd s.ops = some (.ctb o) ∧ (∀ a ∈ s.arrivals, a.2.place = .core core → n ≤ a.1) ∧
      e.tag.beyond (hd.nm1 + 1) = false ∧ level + 1 < hd.levels ∧ hd.chold ≠ 0 ∧ (s.buffers.filter fun b => b.2.place = .core
      core).length < min hd.cquota 64 ∧ (∀ x ∈ s.treated, x.1 = .core core → x.2 ≠ s.clk) ∧ (∀ b ∈ s.buffers, b.1 < s.nextKey)
      ∧ e.tag.sibling.beyond (hd.nm1 + 1) = false ∧ (s.buffers.find? (fun b => b.2.place = .core core && b.2.tag =
      e.tag.sibling) = some (7, kept)) ∧ (∀ b ∈ s.buffers, b.2.place = .core core → b.2.tag ≠ e.tag.parent.sibling) := by
  refine ⟨(sArriving [(7, kept)]), 6, 0, 0, 5, 0, 1, arriving, handle4, (ctbOp true), ?_, ?_, ?_, ?_, ?_, ?_, ?_, ?_, ?_, ?_,
    ?_, ?_, ?_, ?_, ?_⟩ <;> decide

theorem test_entry_held_too_long_at_a_core :
    ∃ s : State, ∃ n : Nat, ∃ e : PairEntry, tget n s.buffers = some e ∧ (e.place = .core 0) ∧ (e.tag = .handle 0 5 0 1) ∧
      (tget (handleKey 0 5) s.handles = some handle4) ∧ (e.aged + handle4.chold ≤ s.clk) ∧ ((homeOf s e.tag).isSome = true) := by
  refine ⟨(sAged arriving), 6, arriving, ?_, ?_, ?_, ?_, ?_, ?_⟩ <;> decide

theorem test_entry_held_too_long_at_a_port :
    ∃ s : State, ∃ n : Nat, ∃ e : PairEntry, tget n s.buffers = some e ∧ (e.place = .port 3) ∧ (e.leaving = true) ∧ (e.aged +
      256 ≤ s.clk) := by
  refine ⟨(sAged onPort), 6, onPort, ?_, ?_, ?_, ?_⟩ <;> decide

theorem test_contributions_pair_or_are_forwarded_3 :
    ∃ s : State, ∃ w : State, ∃ n : Nat, ∃ ctx : Nat, ∃ h : Nat, ∃ level : Nat, ∃ index : Nat, ∃ x : Spill, ∃ pairs : Bool, ∃ v
      : NodeVal, ∃ hd : Handle, tget n s.spills = some x ∧ x.key = .handle ctx h level index ∧ x.value = .node pairs v ∧
      ctxWrite s ctx x.slotVa (slotBytes v) = some w ∧ tget (handleKey ctx h) s.handles = some hd := by
  refine ⟨sSpill, spillWritten, 6, 0, 5, 0, 1, spilled, false, (leafValue 0x3F800000), handle4, ?_, ?_, ?_, ?_, ?_⟩ <;>
    first
      | decide | exact witness_some (by decide)

theorem test_handle_reaches_its_deadline :
    ∃ s : State, ∃ ctx : Nat, ∃ h : Nat, ∃ hd : Handle, tget (handleKey ctx h) s.handles = some hd ∧ hd.state = 1 ∧ (tget
      hd.launch s.launches = some { launch1 idle with firstGroup := some 50 }) ∧ (50 + hd.deadline ≤ s.clk) := by
  refine ⟨(sSeal { launch1 idle with firstGroup := some 50 }), 0, 5, handle4, ?_, ?_, ?_, ?_⟩ <;> decide

theorem test_handle_is_sealed :
    ∃ s : State, ∃ ctx : Nat, ∃ h : Nat, ∃ hd : Handle, tget (handleKey ctx h) s.handles = some hd ∧ hd.state = 1 ∧ (tget 5
      s.ops = some (.seal ⟨⟨4, 1⟩, 0, 5⟩)) := by
  refine ⟨(sSeal (launch1 idle)), 0, 5, handle4, ?_, ?_, ?_⟩ <;> decide

theorem test_packet_enters_the_switch :
    ∃ s : State, ∃ link : Nat, ∃ f : LinkFlit, link < 24 ∧ f.crcOk = true ∧ link ∉ s.retiredPorts ∧ ((f.sender, f.senderLink,
      f.linkSeq) ∉ s.accepted) ∧ (f.packet.body ≠ .notice) := by
  refine ⟨(sLinked []), 3, (flit (.data 0 [1, 2])), ?_, ?_, ?_, ?_, ?_⟩ <;> decide

theorem test_node_comes_to_its_port :
    ∃ s : State, ∃ link : Nat, ∃ f : LinkFlit, link < 24 ∧ f.crcOk = true ∧ link ∉ s.retiredPorts ∧ ((f.sender, f.senderLink,
      f.linkSeq) ∉ s.accepted) ∧ (f.packet.body ≠ .notice) := by
  refine ⟨(sLinked []), 3, (flit nodeBody), ?_, ?_, ?_, ?_, ?_⟩ <;> decide

theorem test_packet_comes_again :
    ∃ s : State, ∃ link : Nat, ∃ f : LinkFlit, link < 24 ∧ f.crcOk = true ∧ link ∉ s.retiredPorts ∧ ((f.sender, f.senderLink,
      f.linkSeq) ∈ s.accepted) := by
  refine ⟨(sLinked [(9, 1, 7)]), 3, (flit (.flag [])), ?_, ?_, ?_, ?_⟩ <;> decide

theorem test_packet_on_its_detour :
    ∃ s : State, ∃ link : Nat, ∃ f : LinkFlit, link < 24 ∧ f.crcOk = true ∧ link ∉ s.retiredPorts ∧ ((f.sender, f.senderLink,
      f.linkSeq) ∉ s.accepted) ∧ (f.packet.body ≠ .notice) ∧ (f.packet.detours = [⟨8, 2, 4, 2⟩]) := by
  refine ⟨(sLinked []), 3, (detourFlit 2), ?_, ?_, ?_, ?_, ?_, ?_⟩ <;> decide

theorem test_packet_at_the_end_of_its_detour :
    ∃ s : State, ∃ link : Nat, ∃ f : LinkFlit, link < 24 ∧ f.crcOk = true ∧ link ∉ s.retiredPorts ∧ ((f.sender, f.senderLink,
      f.linkSeq) ∉ s.accepted) ∧ (f.packet.body ≠ .notice) ∧ (f.packet.detours = [⟨8, 2, 4, 1⟩]) ∧ ((8, 2, 4) ∈ s.accepted) := by
  refine ⟨(sLinked [(8, 2, 4)]), 3, (detourFlit 1), ?_, ?_, ?_, ?_, ?_, ?_, ?_⟩ <;> decide

theorem test_packet_arrives :
    ∃ s : State, ∃ n : Nat, ∃ f : InFlight, ∃ turn : BitVec 5, ∃ more : List (BitVec 5), tget n s.packets = some f ∧ f.arrived
      = none ∧ f.packet.route = turn :: more ∧ f.packet.also = [] ∧ f.packet.detours = [] ∧ turnBad s turn.toNat more.isEmpty =
      false ∧ f.packet.body ≠ .notice ∧ (∀ cmd node, f.packet.body ≠ .drop cmd node) ∧ (∀ x ∈ s.packets, x.1 < n → ordered
      x.2.packet = false) := by
  refine ⟨(sFlying [24] (.flag []) none), 6, (flying [24] (.flag []) none), 24, [], ?_, ?_, ?_, ?_, ?_, ?_, ?_, ?_, ?_⟩ <;>
    first
      | decide | exact fun _ _ h => nomatch h

theorem test_packet_goes_on :
    ∃ s : State, ∃ n : Nat, ∃ f : InFlight, ∃ turn : BitVec 5, ∃ more : List (BitVec 5), tget n s.packets = some f ∧ f.arrived
      = none ∧ f.packet.route = turn :: more ∧ f.packet.also = [] ∧ f.packet.detours = [] ∧ turnBad s turn.toNat more.isEmpty =
      false ∧ f.packet.body ≠ .notice ∧ (∀ cmd node, f.packet.body ≠ .drop cmd node) ∧ (∀ x ∈ s.packets, x.1 < n → ordered
      x.2.packet = false) := by
  refine ⟨(sFlying [5, 24] (.flag []) none), 6, (flying [5, 24] (.flag []) none), 5, [24], ?_, ?_, ?_, ?_, ?_, ?_, ?_, ?_,
    ?_⟩ <;>
    first
      | decide | exact fun _ _ h => nomatch h

theorem test_node_is_put_before_its_port :
    ∃ s : State, ∃ n : Nat, ∃ f : InFlight, ∃ turn : BitVec 5, ∃ more : List (BitVec 5), tget n s.packets = some f ∧ f.arrived
      = none ∧ f.packet.route = turn :: more ∧ f.packet.also = [] ∧ f.packet.detours = [] ∧ turnBad s turn.toNat more.isEmpty =
      false ∧ f.packet.body ≠ .notice ∧ (∀ cmd node, f.packet.body ≠ .drop cmd node) ∧ (∀ x ∈ s.packets, x.1 < n → ordered
      x.2.packet = false) := by
  refine ⟨(sFlying [24] nodeBody none), 6, (flying [24] nodeBody none), 24, [], ?_, ?_, ?_, ?_, ?_, ?_, ?_, ?_, ?_⟩ <;>
    first
      | decide | exact fun _ _ h => nomatch h

theorem test_multicast_leaves_as_one :
    ∃ s : State, ∃ n : Nat, ∃ off : Nat, ∃ f : InFlight, ∃ bs : List Byte, ∃ a : BitVec 5, ∃ b : BitVec 5, ∃ x : List (BitVec
      5), ∃ y : List (BitVec 5), tget n s.packets = some f ∧ f.arrived = none ∧ f.packet.route = a :: x ∧ f.packet.also = [b ::
      y] ∧ x ≠ [] ∧ y ≠ [] ∧ f.packet.body = .data off bs ∧ f.packet.detours = [] ∧ turnBad s a.toNat false = false ∧ turnBad s
      b.toNat false = false ∧ (∀ x ∈ s.packets, x.1 < n → ordered x.2.packet = false) := by
  refine ⟨(sCasting 5), 6, 0, (casting 5), [1, 2], 5, 5, [24], [25], ?_, ?_, ?_, ?_, ?_, ?_, ?_, ?_, ?_, ?_, ?_⟩ <;> decide

theorem test_multicast_parts :
    ∃ s : State, ∃ n : Nat, ∃ off : Nat, ∃ f : InFlight, ∃ bs : List Byte, ∃ a : BitVec 5, ∃ b : BitVec 5, ∃ x : List (BitVec
      5), ∃ y : List (BitVec 5), tget n s.packets = some f ∧ f.arrived = none ∧ f.packet.route = a :: x ∧ f.packet.also = [b ::
      y] ∧ x ≠ [] ∧ y ≠ [] ∧ f.packet.body = .data off bs ∧ f.packet.detours = [] ∧ turnBad s a.toNat false = false ∧ turnBad s
      b.toNat false = false ∧ (∀ x ∈ s.packets, x.1 < n → ordered x.2.packet = false) := by
  refine ⟨(sCasting 7), 6, 0, (casting 7), [1, 2], 5, 7, [24], [25], ?_, ?_, ?_, ?_, ?_, ?_, ?_, ?_, ?_, ?_, ?_⟩ <;> decide

theorem test_link_fails :
    ∃ s : State, ∃ link : Nat, ∃ turn : BitVec 5, ∃ more : List (BitVec 5), ∃ i : Instr, link < 24 ∧ routeTurns (tgetD link 0
      s.detours).toNat = turn :: more ∧ (i = .linkFailure link ∨ (i = .driftLinkRetire link ∧ link ∉ s.retiredPorts)) ∧ (∀ x ∈
      s.unacked, x.1 = link → turnBad { s with retiredPorts := link :: s.retiredPorts } turn.toNat (more.isEmpty &&
      x.2.2.route.isEmpty) = false) := by
  refine ⟨sDetour, 3, 5, [], (.linkFailure 3), ?_, ?_, ?_, ?_⟩ <;>
    first
      | decide | exact Or.inl rfl | exact Or.inr ⟨rfl, by decide⟩

theorem test_link_retires :
    ∃ s : State, ∃ link : Nat, ∃ turn : BitVec 5, ∃ more : List (BitVec 5), ∃ i : Instr, link < 24 ∧ routeTurns (tgetD link 0
      s.detours).toNat = turn :: more ∧ (i = .linkFailure link ∨ (i = .driftLinkRetire link ∧ link ∉ s.retiredPorts)) ∧ (∀ x ∈
      s.unacked, x.1 = link → turnBad { s with retiredPorts := link :: s.retiredPorts } turn.toNat (more.isEmpty &&
      x.2.2.route.isEmpty) = false) := by
  refine ⟨sDetour, 3, 5, [], (.driftLinkRetire 3), ?_, ?_, ?_, ?_⟩ <;>
    first
      | decide | exact Or.inl rfl | exact Or.inr ⟨rfl, by decide⟩

theorem test_deliveries_and_steps_complete_0 :
    ∃ s : State, ∃ n : Nat, ∃ die : Nat, ∃ f : InFlight, ∃ c : Channel, ∃ b : Bool, tget n s.packets = some f ∧ f.arrived =
      some die ∧ s.packets = [(n, f)] ∧ readChannel s f.packet.ctx f.packet.ch = some (c, b) := by
  refine ⟨sData, 6, 0, (flying [] (.data 8 [1, 2, 3, 4]) (some 0)), (channelRead sData).1, (channelRead sData).2, ?_, ?_, ?_,
    ?_⟩ <;>
    first
      | decide | exact witness_some (by decide) | exact witness_nil rfl

theorem test_flag_is_delivered :
    ∃ s : State, ∃ n : Nat, ∃ die : Nat, ∃ f : InFlight, ∃ c : Channel, ∃ b : Bool, tget n s.packets = some f ∧ f.arrived =
      some die ∧ s.packets = [(n, f)] ∧ readChannel s f.packet.ctx f.packet.ch = some (c, b) ∧ (flagWaits [0] f.packet = false)
      ∧ (wasDelivered [0] f.packet.seq = false) ∧ (deliverAdd s f.packet.ctx c.flag 1 = some flagged) := by
  refine ⟨(sDelivery (.flag [(0, [])]) [0]), 6, 0, (delivery (.flag [(0, [])])),
    (channelRead (sDelivery (.flag [(0, [])]) [0])).1, (channelRead (sDelivery (.flag [(0, [])]) [0])).2, ?_, ?_, ?_, ?_, ?_,
    ?_, ?_⟩ <;>
    first
      | decide | exact witness_some (by decide) | exact witness_nil rfl

theorem test_flag_waits_for_its_data :
    ∃ s : State, ∃ n : Nat, ∃ die : Nat, ∃ f : InFlight, ∃ c : Channel, ∃ b : Bool, tget n s.packets = some f ∧ f.arrived =
      some die ∧ s.packets = [(n, f)] ∧ readChannel s f.packet.ctx f.packet.ch = some (c, b) ∧ (flagWaits [] f.packet = true) := by
  refine ⟨(sDelivery (.flag [(0, [])]) []), 6, 0, (delivery (.flag [(0, [])])),
    (channelRead (sDelivery (.flag [(0, [])]) [])).1, (channelRead (sDelivery (.flag [(0, [])]) [])).2, ?_, ?_, ?_, ?_,
    ?_⟩ <;>
    first
      | decide | exact witness_some (by decide) | exact witness_nil rfl

theorem test_packet_is_delivered_again :
    ∃ s : State, ∃ n : Nat, ∃ die : Nat, ∃ f : InFlight, ∃ c : Channel, ∃ b : Bool, tget n s.packets = some f ∧ f.arrived =
      some die ∧ s.packets = [(n, f)] ∧ readChannel s f.packet.ctx f.packet.ch = some (c, b) ∧ (wasDelivered [1] f.packet.seq =
      true) := by
  refine ⟨(sDelivery (.data 8 [1]) [1]), 6, 0, (delivery (.data 8 [1])), (channelRead (sDelivery (.data 8 [1]) [1])).1,
    (channelRead (sDelivery (.data 8 [1]) [1])).2, ?_, ?_, ?_, ?_, ?_⟩ <;>
    first
      | decide | exact witness_some (by decide) | exact witness_nil rfl

theorem test_deliveries_and_steps_complete_1 :
    ∃ s : State, ∃ cmd : Nat, ∃ last : Bool, ∃ o : FabricOp, ∃ c : Counted, ∃ x : Nat × InFlight, tsorted s.ops = true ∧
      s.packets.find? (fun p => p.2.arrived.isSome && p.2.packet.body = .ack cmd last) = some x ∧ tget cmd s.ops = some
      (.fabric o) ∧ o.acks = 1 ∧ o.pend = [] ∧ o.packets = [] ∧ o.status = 0 ∧ o.cs = [c] ∧ (∀ e ∈ s.ops, e.1 ≠ cmd → ∀ y, e.2
      = .fabric y → y.pend = [] ∧ y.packets = [] ∧ y.acks ≠ 0) := by
  refine ⟨sAcked, 5, false, fabricOp, ⟨4, 1⟩, (6, acked), ?_, ?_, ?_, ?_, ?_, ?_, ?_, ?_, ?_⟩ <;>
    first
      | decide | exact witness_nil rfl
      | exact fun e he hne => absurd (by simpa [sAcked, withOp] using congrArg Prod.fst (List.mem_singleton.mp he)) hne

theorem test_deliveries_and_steps_complete_3 :
    ∃ s : State, ∃ ctx : Nat, ∃ ch : Nat, ∃ step : Nat, ∃ x : Nat × InFlight, ∃ c : Channel, ∃ b : Bool, s.packets.find? (fun p
      => p.2.arrived.isSome && p.2.packet.body = .notice && p.2.packet.ctx = ctx && p.2.packet.ch = ch && p.2.packet.step =
      step) = some x ∧ readChannel s ctx ch = some (c, b) := by
  refine ⟨sNotice, 0, 2, 0, (6, flying [] .notice (some 0)), (channelRead sNotice).1, (channelRead sNotice).2, ?_, ?_⟩ <;>
    first
      | decide | exact witness_some (by decide)

theorem test_deliveries_and_steps_complete_2 :
    ∃ s : State, ∃ ctx : Nat, ∃ ch : Nat, ∃ f : Nat, ∃ op : Nat, ∃ c : Channel, ∃ b : Bool, readChannel s ctx ch = some (c, b)
      ∧ (chanRun s ctx ch).reached.find? (fun x => x.1 = (chanRun s ctx ch).steps) = some ((chanRun s ctx ch).steps, f, op) ∧
      c.isOpen = true ∧ c.isRoot = true ∧ c.grad = true ∧ c.deadline ≠ 0 ∧ c.replayM = false ∧ f + c.deadline ≤ s.clk ∧ s.ops =
      [] := by
  refine ⟨sRoot, 0, 0, 3, 0, (rootChannel Config.packageNumber), true, sRoot_channel, ?_, ?_, rootChannel_isRoot, ?_, ?_, ?_,
    ?_, ?_⟩ <;> decide

theorem test_worker_is_to_move :
    ∃ s : State, s.glob.foreman ≤ s.clk ∧ tsorted s.contexts = true ∧ ((foremanPair (contextOf s).rests ((List.range
      64).filterMap (readStage s 0))).isSome = true) := by
  refine ⟨(sStages [] none), ?_, ?_, ?_⟩ <;> decide

theorem test_stages_rest :
    ∃ s : State, s.glob.foreman ≤ s.clk ∧ tsorted s.contexts = true ∧ (foremanPair (contextOf s).rests ((List.range
      64).filterMap (readStage s 0)) = none) := by
  refine ⟨(sStages [(0, 2), (1, 1)] none), ?_, ?_, ?_⟩ <;> decide

theorem test_move_is_awaited :
    ∃ s : State, s.glob.foreman ≤ s.clk ∧ tsorted s.contexts = true ∧ ((contextOf s).foremanMove ≠ none) := by
  refine ⟨(sStages [] (some roleMove)), ?_, ?_, ?_⟩ <;> decide

theorem test_role_record_is_published :
    ∃ s : State, ∃ ctx : Nat, ∃ c : Context, ∃ m : RoleMove, tget ctx s.contexts = some c ∧ c.foremanMove = some m ∧ (ringSeq s
      (firstDie s ctx) ctx m.ring m.index = some m.index) := by
  refine ⟨(sPublish 0), 0, (contextOf (sPublish 0)), roleMove, ?_, ?_, ?_⟩ <;> decide

theorem test_role_record_waits :
    ∃ s : State, ∃ ctx : Nat, ∃ c : Context, ∃ m : RoleMove, tget ctx s.contexts = some c ∧ c.foremanMove = some m ∧ (ringSeq s
      (firstDie s ctx) ctx m.ring m.index ≠ some m.index) := by
  refine ⟨(sPublish 5), 0, (contextOf (sPublish 5)), roleMove, ?_, ?_, ?_⟩ <;> decide

theorem test_target_equals_top :
    ∃ s : State, ∃ ctx : Nat, ∃ top : Nat, ∃ target : Nat, ∃ c : Context, tget ctx s.contexts = some c ∧ c.state = 1 ∧
      c.targeted = true ∧ c.drain = none ∧ winzeWord s ctx 0x10 = some top ∧ winzeWord s ctx 0x18 = some target ∧ (top =
      target) := by
  refine ⟨(sWinze 1 1 none []), 0, 1, 1, (contextOf (sWinze 1 1 none [])), ?_, ?_, ?_, ?_, ?_, ?_, ?_⟩ <;> decide

theorem test_target_above_top :
    ∃ s : State, ∃ ctx : Nat, ∃ top : Nat, ∃ target : Nat, ∃ c : Context, tget ctx s.contexts = some c ∧ c.state = 1 ∧
      c.targeted = true ∧ c.drain = none ∧ winzeWord s ctx 0x10 = some top ∧ winzeWord s ctx 0x18 = some target ∧ (top <
      target) ∧ (winzeWord s ctx 0x00 = some 0xC0000) := by
  refine ⟨(sWinze 0 1 none []), 0, 0, 1, (contextOf (sWinze 0 1 none [])), ?_, ?_, ?_, ?_, ?_, ?_, ?_, ?_⟩ <;> decide

theorem test_drain_starts_a_batch :
    ∃ s : State, ∃ ctx : Nat, ∃ top : Nat, ∃ target : Nat, ∃ c : Context, tget ctx s.contexts = some c ∧ c.state = 1 ∧
      c.targeted = true ∧ c.drain = none ∧ winzeWord s ctx 0x10 = some top ∧ winzeWord s ctx 0x18 = some target ∧ (target <
      top) ∧ (winzeRecord s ctx 0xC0000 (top - 1) = some recordOf) ∧ ((backwardLaunch (({ s with nextKey := s.nextKey + 1
      }).onContext ctx fun c => { c with targeted := false }) ctx s.nextKey 0x71000 (winzeRun s ctx 0xC0000 0x71000 5 (top -
      target) (top - 1))) = .ok batchLaunch) := by
  refine ⟨(sWinze 1 0 none []), 0, 1, 0, (contextOf (sWinze 1 0 none [])), ?_, ?_, ?_, ?_, ?_, ?_, ?_, ?_, sBatch_launch⟩ <;> decide

theorem test_batch_completes :
    ∃ s : State, ∃ ctx : Nat, ∃ key : Nat, ∃ n : Nat, ∃ base : Nat, ∃ c : Context, ∃ l : Launch, tget ctx s.contexts = some c ∧
      c.drain = some ⟨base, some key, n⟩ ∧ tget key s.launches = some l ∧ (l.status = some 1) ∧ (l.staged = []) ∧ (winzeWord s
      ctx 0x10 = some 1) ∧ (ctxWrite s ctx (low 64 (winzeVa s ctx + 0x10)) (leBytes 8 (1 - n)) = some popped) ∧ (winzeWord
      popped ctx 0x10 = some (1 - n)) ∧ (winzeWord popped ctx 0x18 = some (1 - n)) := by
  refine ⟨(sBatchEnds 1), 0, 8, 1, 0xC0000, (contextOf (sBatchEnds 1)), (ended 1), ?_, ?_, ?_, ?_, ?_, ?_, ?_, ?_, ?_⟩ <;>
    first
      | decide | exact witness_some (by decide)

theorem test_batch_fails :
    ∃ s : State, ∃ ctx : Nat, ∃ key : Nat, ∃ n : Nat, ∃ base : Nat, ∃ c : Context, ∃ l : Launch, tget ctx s.contexts = some c ∧
      c.drain = some ⟨base, some key, n⟩ ∧ tget key s.launches = some l ∧ (l.status = some 3) := by
  refine ⟨(sBatchEnds 3), 0, 8, 1, 0xC0000, (contextOf (sBatchEnds 3)), (ended 3), ?_, ?_, ?_, ?_⟩ <;>
    first
      | decide | exact witness_some (by decide)

theorem test_pass_ends :
    ∃ s : State, ∃ quad : Nat, ∃ entry : Nat, ∃ due : Nat, ∃ core : Nat, ∃ e : MatrixEntry, tget (matrixKey quad entry)
      s.matrix = some e ∧ e.state = .running ∧ e.due = some due ∧ due ≤ s.clk ∧ e.cores = [core] ∧ e.cfg.red = false ∧ (e.steps
      = [.pass 1 0 3 (some 5)]) ∧ (e.pins = [pinned]) ∧ (e.carry = []) ∧ (pinned.mismatch = none) ∧ (pinned.poisoned = none) ∧
      (pinned.a.length = e.cfg.m) ∧ (pinned.b.length = e.cfg.n) ∧ (e.cfg.n ≤ 128) := by
  refine ⟨(sCommand passing), 0, 0, 3, 0, passing, ?_, ?_, ?_, ?_, ?_, ?_, ?_, ?_, ?_, ?_, ?_, ?_, ?_, ?_⟩ <;> decide

theorem test_merge_ends :
    ∃ s : State, ∃ quad : Nat, ∃ entry : Nat, ∃ due : Nat, ∃ core : Nat, ∃ e : MatrixEntry, tget (matrixKey quad entry)
      s.matrix = some e ∧ e.state = .running ∧ e.due = some due ∧ due ≤ s.clk ∧ e.cores = [core] ∧ e.cfg.red = false ∧ (e.steps
      = [.merge 1 2 3]) ∧ (s.poison = []) ∧ (e.cfg.n ≤ 128) := by
  refine ⟨(sCommand merging), 0, 0, 3, 0, merging, ?_, ?_, ?_, ?_, ?_, ?_, ?_, ?_, ?_⟩ <;> decide

theorem test_command_retires :
    ∃ s : State, ∃ quad : Nat, ∃ entry : Nat, ∃ due : Nat, ∃ core : Nat, ∃ e : MatrixEntry, tget (matrixKey quad entry)
      s.matrix = some e ∧ e.state = .running ∧ e.due = some due ∧ due ≤ s.clk ∧ e.cores = [core] ∧ e.cfg.red = false ∧ (e.steps
      = []) ∧ (e.status = 0) ∧ (e.mismatch = none) ∧ (e.counted = [⟨4, 1⟩]) ∧ (s.ops = []) := by
  refine ⟨(sCommand spent), 0, 0, 3, 0, spent, ?_, ?_, ?_, ?_, ?_, ?_, ?_, ?_, ?_, ?_, ?_⟩ <;> decide

theorem test_engine_writes_are_performed_0 :
    ∃ s : State, ∃ op : Nat, ∃ d : Nat, ∃ a : Nat, ∃ n : Nat, ∃ dp : Nat, ∃ sp : Nat, ∃ o : CopyOp, tget op s.ops = some (.copy
      o) ∧ o.pieces = [(d, a, n)] ∧ n ≠ 0 ∧ (d + n - 1) / 4 = d / 4 ∧ capturedTarget s o.team o.dst d = some (.hbm dp) ∧
      sourcePieces s o (n + 1) a n = [(.hbm sp, n)] ∧ writeWaits s (.hbm dp) n = false ∧ lineHeld s (.hbm sp) n = false ∧
      banksHeld s (.hbm sp) n = false ∧ (∀ i, i < n → byteFault s o (d + i) (a + i) = none) ∧ s.poison = [] ∧ s.samples = [] ∧
      holdsStores s o.team = false ∧ NoWriters s o.team := by
  refine ⟨(sCopying [(0x60004, 0x70010, 4)]), 5, 0x60004, 0x70010, 4, 0x60004, 0x70010, (copyOp [(0x60004, 0x70010, 4)]), ?_,
    ?_, ?_, ?_, ?_, ?_, ?_, ?_, ?_, ?_, ?_, ?_, ?_, ?_⟩ <;>
    first
      | decide | exact witness_noWriters (by decide)

theorem test_engine_writes_are_performed_1 :
    ∃ s : State, ∃ op : Nat, ∃ va : Nat, ∃ pa : Nat, ∃ bs : List Byte, ∃ o : DrainOp, tget op s.ops = some (.drain o) ∧
      o.pieces = [(va, .hbm pa, bs)] ∧ writeWaits s (.hbm pa) bs.length = false ∧ s.samples = [] ∧ holdsStores s o.team = false
      ∧ NoWriters s o.team := by
  refine ⟨sDraining, 5, 0x60000, 0x60000, [1, 2, 3], drainOp, ?_, ?_, ?_, ?_, ?_, ?_⟩ <;>
    first
      | decide | exact witness_noWriters (by decide)

theorem test_engine_writes_are_performed_2 :
    ∃ s : State, ∃ op : Nat, ∃ o : CopyOp, ∃ c : Counted, tget op s.ops = some (.copy o) ∧ o.pieces = [] ∧ o.status = 0 ∧
      o.barrier = none ∧ o.cs = [c] ∧ (∀ e ∈ s.ops, ∀ x, e.2 = .store x → x.cmd ≠ some op) ∧ (∀ e ∈ s.groups, e.2.state ≠
      .draining) := by
  refine ⟨(sCopying []), 5, (copyOp []), ⟨4, 1⟩, ?_, ?_, ?_, ?_, ?_, witness_noStores (by decide),
    witness_groups (by decide)⟩ <;>
    first
      | decide | exact witness_nil rfl

theorem test_window_is_enabled :
    ∃ s : State, ∃ die : Nat, ∃ w : Nat, s.glob.ready = true ∧ (s.window die w).busy = false ∧ ((s.window die w).en = false) ∧
      (die < 4 ∧ w < 16) ∧ (enableError s die w (s.window die w) = 0) := by
  refine ⟨(sWindow (windowAt false false 2)), 0, 3, ?_, ?_, ?_, ?_, ?_⟩ <;> decide

theorem test_window_has_an_error :
    ∃ s : State, ∃ die : Nat, ∃ w : Nat, s.glob.ready = true ∧ (s.window die w).busy = false ∧ ((s.window die w).en = false) ∧
      (die < 4 ∧ w < 16) ∧ (enableError s die w (s.window die w) = 3) := by
  refine ⟨(sWindow (windowAt false false 12)), 0, 3, ?_, ?_, ?_, ?_, ?_⟩ <;> decide

theorem test_window_is_disabled :
    ∃ s : State, ∃ die : Nat, ∃ w : Nat, s.glob.ready = true ∧ (s.window die w).busy = false ∧ ((s.window die w).en = true) := by
  refine ⟨(sWindow (windowAt true false 2)), 0, 3, ?_, ?_, ?_⟩ <;> decide

theorem test_windows_and_walkers_answer_1 :
    ∃ s : State, ∃ die : Nat, ∃ w : Nat,
    let x := s.window die w
    x.busy = true ∧ (∀ e ∈ s.l2, x.base ≤ e.1 → e.1 < x.base + x.bytes → bankHeld s (e.1 / 64 * 64) = false) ∧ rangePinned s
      x.base x.bytes = false ∧ rangeAbroad s x.base x.bytes = false := by
  refine ⟨sPurging, 0, 3, ?_, (by decide), ?_, ?_⟩ <;> decide

theorem test_purge_waits_for_a_pinned_line :
    ∃ s : State, ∃ die : Nat, ∃ w : Nat, rangePinned s (s.window die w).base (s.window die w).bytes = true := by
  refine ⟨sPinned, 0, 3, ?_⟩ <;> decide

theorem test_walk_waits_for_a_held_bank :
    ∃ s : State, ∃ die : Nat, ∃ ctx : Nat, ∃ va : Word64, ∃ c : Context, tget ctx s.contexts = some c ∧ die < 4 ∧ c.state ≠ 0 ∧
      (walkWaits s die ctx va.toNat = true) := by
  refine ⟨sWalkHeld, 0, 0, 0x60010, (context0 idle), ?_, ?_, ?_, ?_⟩ <;>
    first
      | decide | exact sWalkHeld_waits

theorem test_walk_finds_a_leaf :
    ∃ s : State, ∃ die : Nat, ∃ ctx : Nat, ∃ va : Word64, ∃ c : Context, tget ctx s.contexts = some c ∧ die < 4 ∧ c.state ≠ 0 ∧
      (walkWaits s die ctx va.toNat = false) ∧ (leafOf s die ctx va.toNat = some (0x1F, 2 ^ 30)) := by
  refine ⟨idle, 0, 0, 0x60010, (context0 idle), ?_, ?_, ?_, ?_, ?_⟩ <;>
    first
      | decide | exact witness_noWait (by decide)

theorem test_walk_finds_none :
    ∃ s : State, ∃ die : Nat, ∃ ctx : Nat, ∃ va : Word64, ∃ c : Context, tget ctx s.contexts = some c ∧ die < 4 ∧ c.state ≠ 0 ∧
      (s.poison = []) ∧ (walkWaits s die ctx va.toNat = false) ∧ (leafOf s die ctx va.toNat = none) := by
  refine ⟨idle, 0, 0, 0x8000000000000, (context0 idle), ?_, ?_, ?_, ?_, ?_, ?_⟩ <;>
    first
      | decide | exact witness_noWait (by decide)

theorem test_invalidation_starts :
    ∃ s : State, ∃ die : Nat, ∃ v : Word64, (bit v.toNat 0 = true ∧ (s.die die).busy = false) := by
  refine ⟨(sWalker false), 0, 0x400000005, ?_⟩ <;> decide

theorem test_invalidation_ends :
    ∃ s : State, ∃ die : Nat, ((s.die die).busy = true ∧ s.ops = [] ∧ s.matrix = []) := by
  refine ⟨(sWalker true), 0, ?_⟩ <;> decide

theorem test_mailbox_is_bound :
    ∃ s : State, ∃ m : Nat, ∃ v : Word64, s.glob.ready = true ∧ ((s.mailbox m).state = .unbound) ∧ (bit v.toNat 0 = true) := by
  refine ⟨(sMailbox .unbound), 3, 5121, ?_, ?_, ?_⟩ <;> decide

theorem test_mailbox_is_unbound_or_starts :
    ∃ s : State, ∃ m : Nat, ∃ v : Word64, s.glob.ready = true ∧ ((s.mailbox m).state = .idle) ∧ (bit v.toNat 0 = false) := by
  refine ⟨(sMailbox .idle), 3, 0, ?_, ?_, ?_⟩ <;> decide

theorem test_mailbox_is_killed :
    ∃ s : State, ∃ m : Nat, s.glob.ready = true ∧ ((s.mailbox m).state = .running) := by
  refine ⟨(sMailbox .running), 3, ?_, ?_⟩ <;> decide

theorem test_episode_takes_a_hart :
    ∃ s : State, ∃ die : Nat, ∃ m : Nat, ∃ x : Mailbox, ∃ more : List (Nat × Mailbox), ∃ e : Episode, startQueue s die = (m, x)
      :: more ∧ tget m s.mailboxes = some x ∧ x.state = .starting ∧ x.episode = some e ∧ (episodeOk s die e = true) ∧ (freeHart
      s die = some 0) := by
  refine ⟨(sMailbox .starting { mailboxAt .starting with episode := some (episode) }), 0, 3,
    { mailboxAt .starting with episode := some (episode) }, [], (episode), ?_, ?_, ?_, ?_, ?_, ?_⟩ <;> decide

theorem test_episode_that_fails_its_check :
    ∃ s : State, ∃ die : Nat, ∃ m : Nat, ∃ x : Mailbox, ∃ more : List (Nat × Mailbox), ∃ e : Episode, startQueue s die = (m, x)
      :: more ∧ tget m s.mailboxes = some x ∧ x.state = .starting ∧ x.episode = some e ∧ (episodeOk s die e = false) := by
  refine ⟨(sMailbox .starting { mailboxAt .starting with episode := some ({ episode with stepLim := 0 }) }), 0, 3,
    { mailboxAt .starting with episode := some ({ episode with stepLim := 0 }) }, [], ({ episode with stepLim := 0 }), ?_, ?_,
    ?_, ?_, ?_⟩ <;> decide

theorem test_send_to_an_idle_mailbox :
    ∃ s : State, ∃ m : Nat, ∃ id : Nat, ∃ d : Nat, ∃ o : SendOp, ∃ t : Thread, headSend s m = some (id, o) ∧ tget id s.ops =
      some (.send o) ∧ o.ctx = (s.mailbox m).ctx ∧ o.dst = some d ∧ d < 384 ∧ tget o.c.thread s.threads = some t ∧
      o.payload.length ≤ 256 ∧ ((s.mailbox m).state = .idle) := by
  refine ⟨(sSending .idle), 3, 5, 20, sendOp, (tgetD 4 blankThread idle.threads), ?_, ?_, ?_, ?_, ?_, ?_, ?_, ?_⟩ <;> decide

theorem test_send_to_an_ending_episode :
    ∃ s : State, ∃ m : Nat, ∃ id : Nat, ∃ d : Nat, ∃ o : SendOp, ∃ t : Thread, headSend s m = some (id, o) ∧ tget id s.ops =
      some (.send o) ∧ o.ctx = (s.mailbox m).ctx ∧ o.dst = some d ∧ d < 384 ∧ tget o.c.thread s.threads = some t ∧
      o.payload.length ≤ 256 ∧ ((s.mailbox m).state = .ending) := by
  refine ⟨(sSending .ending), 3, 5, 20, sendOp, (tgetD 4 blankThread idle.threads), ?_, ?_, ?_, ?_, ?_, ?_, ?_, ?_⟩ <;> decide

theorem test_send_is_appended :
    ∃ s : State, ∃ m : Nat, ∃ id : Nat, ∃ d : Nat, ∃ o : SendOp, ∃ t : Thread, headSend s m = some (id, o) ∧ tget id s.ops =
      some (.send o) ∧ o.ctx = (s.mailbox m).ctx ∧ o.dst = some d ∧ d < 384 ∧ tget o.c.thread s.threads = some t ∧
      o.payload.length ≤ 256 ∧ ((s.mailbox m).state = .running) ∧ (actionSlots s m < 64) := by
  refine ⟨(sSending .running), 3, 5, 20, sendOp, (tgetD 4 blankThread idle.threads), ?_, ?_, ?_, ?_, ?_, ?_, ?_, ?_, ?_⟩ <;> decide

theorem test_send_wakes_a_hart :
    ∃ s : State, ∃ m : Nat, ∃ id : Nat, ∃ d : Nat, ∃ o : SendOp, ∃ t : Thread, headSend s m = some (id, o) ∧ tget id s.ops =
      some (.send o) ∧ o.ctx = (s.mailbox m).ctx ∧ o.dst = some d ∧ d < 384 ∧ tget o.c.thread s.threads = some t ∧
      o.payload.length ≤ 256 ∧ (actionSlots s m < 64) ∧ (episodeHart s m = some 2 ∧ (s.hart 2).wfi = true ∧ (s.hart 2).mailbox
      = some m) := by
  refine ⟨sWaking, 3, 5, 20, sendOp, (tgetD 4 blankThread idle.threads), ?_, ?_, ?_, ?_, ?_, ?_, ?_, ?_, ?_⟩ <;> decide

theorem test_mailbox_requests_are_served_1 :
    ∃ s : State, ∃ m : Nat, ∃ id : Nat, ∃ d : Nat, ∃ pa : Nat, ∃ o : RecvOp, ∃ t : Thread, ∃ h : SlotHdr, ∃ more : List
      SlotHdr, headRecv s m = some (id, o) ∧ tget id s.ops = some (.recv o) ∧ (s.mailbox m).observations = h :: more ∧ o.dst =
      some d ∧ d + 2 ≤ 384 ∧ tget o.c.thread s.threads = some t ∧ o.dest = [(.hbm pa, 256)] ∧ h.len ≤ 256 ∧ s.freshKey ∧
      writeWaits s (.hbm pa) h.len = false ∧ banksHeld s (.hbm pa) h.len = false ∧ s.poison = [] ∧ s.samples = [] ∧ holdsStores
      s t.team = false ∧ NoWriters s t.team := by
  refine ⟨sReceiving, 3, 5, 20, 0x60000, recvOp, (tgetD 4 blankThread idle.threads), observation, [], ?_, ?_, ?_, ?_, ?_, ?_,
    ?_, ?_, ?_, ?_, ?_, ?_, ?_, ?_, ?_⟩ <;>
    first
      | decide | exact witness_noWriters (by decide) | exact witness_fresh (by decide)

theorem test_atake_stalls :
    ∃ s : State, ∃ die : Nat, ∃ hart : Nat, ∃ m : Nat, ∃ v : Word64, (v = 1) ∧ ((s.hart (hartKey die hart)).held = none) ∧
      ((s.mailbox m).actions = []) ∧ (hartPa (s.hart (hartKey die hart)) .fetch (s.hart (hartKey die hart)).pc.toNat 4 ≠ none ∧
      hartRuns s (hartKey die hart) = some m) := by
  refine ⟨(sHart (mailboxAt .running) Hart.reset), 0, 2, 3, 1, ?_, ?_, ?_, ?_⟩ <;> decide

theorem test_atake_takes_an_action :
    ∃ s : State, ∃ die : Nat, ∃ hart : Nat, ∃ m : Nat, ∃ v : Word64, (v = 1) ∧ ((s.mailbox m).actions = [action]) ∧ ((s.hart
      (hartKey die hart)).held = none) ∧ (hartPa (s.hart (hartKey die hart)) .fetch (s.hart (hartKey die hart)).pc.toNat 4 ≠
      none ∧ hartRuns s (hartKey die hart) = some m) := by
  refine ⟨(sHart { mailboxAt .running with actions := [action] } Hart.reset), 0, 2, 3, 1, ?_, ?_, ?_, ?_⟩ <;> decide

theorem test_opost_posts_a_step :
    ∃ s : State, ∃ die : Nat, ∃ hart : Nat, ∃ m : Nat, ∃ v : Word64, (bit v.toNat 9 = false) ∧ (opostMisuse v = false) ∧
      ((s.hart (hartKey die hart)).held = some action) ∧ ((s.hart (hartKey die hart)).cycLeft ≠ 0) ∧ (hartPa (s.hart (hartKey
      die hart)) .fetch (s.hart (hartKey die hart)).pc.toNat 4 ≠ none ∧ hartRuns s (hartKey die hart) = some m) := by
  refine ⟨(sHart (mailboxAt .running) holding), 0, 2, 3, 8, ?_, ?_, ?_, ?_, ?_⟩ <;> decide

theorem test_opost_waits_for_a_slot :
    ∃ s : State, ∃ die : Nat, ∃ hart : Nat, ∃ m : Nat, ∃ v : Word64, (bit v.toNat 9 = false) ∧ (opostMisuse v = false) ∧
      ((s.hart (hartKey die hart)).held = some action) ∧ (63 ≤ (s.mailbox m).observations.length) ∧ (hartPa (s.hart (hartKey
      die hart)) .fetch (s.hart (hartKey die hart)).pc.toNat 4 ≠ none ∧ hartRuns s (hartKey die hart) = some m) := by
  refine ⟨(sHart fullBox holding), 0, 2, 3, 8, ?_, ?_, ?_, ?_, ?_⟩ <;> decide

theorem test_opost_without_an_action :
    ∃ s : State, ∃ die : Nat, ∃ hart : Nat, ∃ m : Nat, ∃ v : Word64, (bit v.toNat 9 = false) ∧ ((s.hart (hartKey die
      hart)).held = none) ∧ (hartPa (s.hart (hartKey die hart)) .fetch (s.hart (hartKey die hart)).pc.toNat 4 ≠ none ∧ hartRuns
      s (hartKey die hart) = some m) := by
  refine ⟨(sHart (mailboxAt .running) Hart.reset), 0, 2, 3, 8, ?_, ?_, ?_⟩ <;> decide

theorem test_atake_of_nothing :
    ∃ s : State, ∃ die : Nat, ∃ hart : Nat, ∃ m : Nat, ∃ v : Word64, (v = 0) ∧ (hartPa (s.hart (hartKey die hart)) .fetch
      (s.hart (hartKey die hart)).pc.toNat 4 ≠ none ∧ hartRuns s (hartKey die hart) = some m) := by
  refine ⟨(sHart (mailboxAt .running) Hart.reset), 0, 2, 3, 0, ?_, ?_⟩ <;> decide

theorem test_atake_with_an_action_held :
    ∃ s : State, ∃ die : Nat, ∃ hart : Nat, ∃ m : Nat, ∃ v : Word64, (v = 1 ∧ (s.hart (hartKey die hart)).held ≠ none) ∧
      (hartPa (s.hart (hartKey die hart)) .fetch (s.hart (hartKey die hart)).pc.toNat 4 ≠ none ∧ hartRuns s (hartKey die hart)
      = some m) := by
  refine ⟨(sHart (mailboxAt .running) holding), 0, 2, 3, 1, ?_, ?_⟩ <;> decide

theorem test_opost_turns_to_the_checker :
    ∃ s : State, ∃ die : Nat, ∃ hart : Nat, ∃ m : Nat, ∃ v : Word64, (bit v.toNat 9 = true) ∧ (opostMisuse v = false) ∧
      ((s.mailbox m).episode = some episode) ∧ (hartPa (s.hart (hartKey die hart)) .fetch (s.hart (hartKey die hart)).pc.toNat
      4 ≠ none ∧ hartRuns s (hartKey die hart) = some m) := by
  refine ⟨(sHart (mailboxAt .running) holding), 0, 2, 3, 512, ?_, ?_, ?_, ?_⟩ <;> decide

theorem test_checker_ends_the_episode :
    ∃ s : State, ∃ die : Nat, ∃ hart : Nat, ∃ m : Nat, ∃ v : Word64, ((s.hart (hartKey die hart)).checker = true) ∧ (bit
      v.toNat 9 = false) ∧ (opostMisuse v = false) ∧ (hartPa (s.hart (hartKey die hart)) .fetch (s.hart (hartKey die
      hart)).pc.toNat 4 ≠ none ∧ hartRuns s (hartKey die hart) = some m) := by
  refine ⟨(sHart (mailboxAt .checking) checking), 0, 2, 3, 8, ?_, ?_, ?_, ?_⟩ <;> decide

theorem test_curfew_or_exception :
    ∃ s : State, ∃ die : Nat, ∃ hart : Nat, ((s.hart (hartKey die hart)).timed = true) := by
  refine ⟨(sHart (mailboxAt .running) holding), 0, 2, ?_⟩ <;> decide

theorem test_hart_executes_an_addition :
    ∃ s : State, ∃ die : Nat, ∃ hart : Nat, ∃ m : Nat, (hartRuns s (hartKey die hart) = some m) ∧ (1 ≤ (s.hart (hartKey die
      hart)).cycLeft) ∧ (hartPa (s.hart (hartKey die hart)) .fetch (s.hart (hartKey die hart)).pc.toNat 2 = some 0x4000010) ∧
      (∀ a, bankHeld s a = false) ∧ (s.poison = []) ∧ (low 2 (hartValue s 0x4000010 2) = 3) ∧ (hartPa (s.hart (hartKey die
      hart)) .fetch (s.hart (hartKey die hart)).pc.toNat 4 = some 0x4000010) ∧ (decodeRv32 (hartValue s 0x4000010 4) = some
      (.alu .add 64 5 0 (.imm 7))) := by
  refine ⟨(sCode 0x00700293), 0, 2, 3, ?_, ?_, ?_, ?_, ?_, ?_, ?_, ?_⟩ <;>
    first
      | decide | exact witness_table (by decide) | exact witness_option (by decide) | exact witness_noHold (by decide)

theorem test_hart_meets_an_undefined_word :
    ∃ s : State, ∃ die : Nat, ∃ hart : Nat, ∃ m : Nat, (hartRuns s (hartKey die hart) = some m) ∧ (1 ≤ (s.hart (hartKey die
      hart)).cycLeft) ∧ (hartPa (s.hart (hartKey die hart)) .fetch (s.hart (hartKey die hart)).pc.toNat 2 = some 0x4000010) ∧
      (∀ a, bankHeld s a = false) ∧ (s.poison = []) ∧ (low 2 (hartValue s 0x4000010 2) = 3) ∧ (hartPa (s.hart (hartKey die
      hart)) .fetch (s.hart (hartKey die hart)).pc.toNat 4 = some 0x4000010) ∧ (decodeRv32 (hartValue s 0x4000010 4) = none) := by
  refine ⟨(sCode 0x00000073), 0, 2, 3, ?_, ?_, ?_, ?_, ?_, ?_, ?_, ?_⟩ <;>
    first
      | decide | exact witness_table (by decide) | exact witness_option (by decide) | exact witness_noHold (by decide)

theorem test_hart_writes_a_read_only_csr :
    ∃ s : State, ∃ die : Nat, ∃ hart : Nat, ∃ m : Nat, (hartRuns s (hartKey die hart) = some m) ∧ (1 ≤ (s.hart (hartKey die
      hart)).cycLeft) ∧ (hartPa (s.hart (hartKey die hart)) .fetch (s.hart (hartKey die hart)).pc.toNat 2 = some 0x4000010) ∧
      (∀ a, bankHeld s a = false) ∧ (s.poison = []) ∧ (low 2 (hartValue s 0x4000010 2) = 3) ∧ (hartPa (s.hart (hartKey die
      hart)) .fetch (s.hart (hartKey die hart)).pc.toNat 4 = some 0x4000010) ∧ (decodeRv32 (hartValue s 0x4000010 4) = some
      (.csr .rw 0x800 0 (.reg 5) true)) := by
  refine ⟨(sCode 0x80029073), 0, 2, 3, ?_, ?_, ?_, ?_, ?_, ?_, ?_, ?_⟩ <;>
    first
      | decide | exact witness_table (by decide) | exact witness_option (by decide) | exact witness_noHold (by decide)

theorem test_hart_stores :
    ∃ s : State, ∃ die : Nat, ∃ hart : Nat, ∃ m : Nat, (hartRuns s (hartKey die hart) = some m) ∧ (low 64 ((s.hart (hartKey die
      hart)).reg 10 + 8) % 8 = 0 ∧ hartPa (s.hart (hartKey die hart)) .store (low 64 ((s.hart (hartKey die hart)).reg 10 + 8))
      8 = some 0x2010008) ∧ (∀ a, bankHeld s a = false) ∧ (s.poison = []) := by
  refine ⟨(sHart (mailboxAt .running) holding), 0, 2, 3, ?_, ?_, ?_, ?_⟩ <;>
    first
      | decide | exact witness_noHold (by decide)

theorem test_hart_loads :
    ∃ s : State, ∃ die : Nat, ∃ hart : Nat, ∃ m : Nat, (hartRuns s (hartKey die hart) = some m) ∧ (low 64 ((s.hart (hartKey die
      hart)).reg 10 + 8) % 8 = 0 ∧ hartPa (s.hart (hartKey die hart)) .load (low 64 ((s.hart (hartKey die hart)).reg 10 + 8)) 8
      = some 0x2010008) ∧ (∀ a, bankHeld s a = false) ∧ (s.poison = []) := by
  refine ⟨(sHart (mailboxAt .running) holding), 0, 2, 3, ?_, ?_, ?_, ?_⟩ <;>
    first
      | decide | exact witness_noHold (by decide)

theorem test_hart_outside_its_image :
    ∃ s : State, ∃ die : Nat, ∃ hart : Nat, ∃ m : Nat, (hartRuns s (hartKey die hart) = some m) ∧ (hartPa (s.hart (hartKey die
      hart)) .fetch (s.hart (hartKey die hart)).pc.toNat 4 = none) := by
  refine ⟨sLost, 0, 2, 3, ?_, ?_⟩ <;> decide

theorem test_harts_run_their_episodes_1 :
    ∃ s : State, ∃ die : Nat, ∃ hart : Nat, ∃ m : Nat, ∃ a : SlotHdr, ∃ more : List SlotHdr,
    let k := hartKey die hart
    (s.hart k).mailbox = some m ∧ (s.hart k).stalled = true ∧ (s.mailbox m).actions = a :: more ∧ (.hart, k) ∉ s.frozen := by
  refine ⟨(sHart { mailboxAt .running with actions := [action] } { Hart.reset with stalled := true }), 0, 2, 3, action, [],
    ?_, ?_, ?_, ?_⟩ <;> decide

theorem test_harts_run_their_episodes_2 :
    ∃ s : State, ∃ m : Nat, ∃ e : Episode,
    let x := s.mailbox m
    x.state = .ending ∧ x.observations.length < 64 ∧ x.episode = some e := by
  refine ⟨(sHart { mailboxAt .ending with reason := 1 } holding), 3, episode, ?_, ?_, ?_⟩ <;> decide

theorem test_episode_ends_before_it_had_a_hart :
    ∃ s : State, ∃ m : Nat, ∃ e : Episode,
    let x := s.mailbox m
    x.state = .ending ∧ x.observations.length < 64 ∧ x.episode = some e ∧ (episodeHart s m = none ∧ arenaOk s (mailboxDie m)
      episode = true) := by
  refine ⟨(sMailbox .ending { mailboxAt .ending with reason := 4 }), 3, episode, ?_, ?_, ?_, ?_⟩ <;> decide

theorem test_request_takes_a_victim :
    ∃ s : State, ∃ cores : Nat, ∃ prio : Nat, ∃ source : PreemptSource, source ≠ .admission ∧ cores ≠ 0 ∧ cores ≤ 576 ∧ prio ≤
      7 ∧ ((chooseVictims (requested s cores) [0, 1, 2, 3] prio).victims = [2]) := by
  refine ⟨sRunning, 576, 5, .host, ?_, ?_, ?_, ?_, by decide +kernel⟩ <;> decide

theorem test_request_for_cores_that_are_free :
    ∃ s : State, ∃ cores : Nat, ∃ prio : Nat, ∃ source : PreemptSource, source ≠ .admission ∧ cores ≠ 0 ∧ cores ≤ 576 ∧ prio ≤
      7 ∧ (((requested s cores).requests.map (wantedOf (requested s cores) [0, 1, 2, 3])).sum ≤ freeCores (requested s cores)
      [0, 1, 2, 3]) := by
  refine ⟨sRunning, 1, 5, .host, ?_, ?_, ?_, ?_, by decide +kernel⟩ <;> decide

theorem test_teams_are_saved_and_resumed_1 :
    ∃ s : State, ∃ team : Nat, ∃ t : Team, tget team s.teams = some t ∧ t.state = .saving ∧ saveReady s team = true ∧
      s.residual = [] := by
  refine ⟨sSaving, 2, (team2 sSaving), ?_, ?_, ?_, ?_⟩ <;> decide

theorem test_teams_are_saved_and_resumed_2 :
    ∃ s : State, ∃ w : State, ∃ launch : Nat, ∃ k : Nat, ∃ l : Launch, tget launch s.launches = some l ∧ resumable s launch =
      some [k] ∧ outranked s l = false ∧ (openDies s l.ctx).findSome? (fun die => restoreOnDie die (some s) k) = some w := by
  refine ⟨sSaved, resumed, 1, 2, (launch1 sSaved), ?_, ?_, ?_, ?_⟩ <;>
    first
      | decide | exact witness_some (by decide)

theorem test_period_of_residual_service :
    ∃ s : State, (s.glob.residualAt ≤ s.clk) := by
  refine ⟨sPeriod, ?_⟩ <;> decide

theorem test_residual_inversion_and_retirement_1 :
    ∃ s : State, ∃ launch : Nat, ∃ l : Launch, tget launch s.launches = some l ∧ l.status = none ∧ max l.lastIssue l.reported +
      s.glob.invtmo ≤ s.clk := by
  refine ⟨sStill, 1, (launch1 sStill), ?_, ?_, ?_⟩ <;> decide

theorem test_empty_quad_retires :
    ∃ s : State, ∃ die : Nat, ∃ quad : Nat, die < 4 ∧ quad < 36 ∧
    let q := die * 36 + quad
    q ∉ s.retiredQuads ∧ q ∉ s.retiring ∧ (∀ c, c / 4 = q → teamsOn s c = [] ∧ (∀ e ∈ s.cages, e.1 / 64 ≠ c) ∧ ∀ e ∈
      s.entrants, e.2.core ≠ c) := by
  refine ⟨idle, 0, 9, ?_, ?_, ?_, ?_, witness_quad (by decide)⟩ <;> decide

theorem test_residual_inversion_and_retirement_3 :
    ∃ s : State, ∃ team : Nat, ∃ t : Team, ∃ iv : Interval, tget team s.teams = some t ∧ t.interval = some iv ∧ iv.closing =
      true ∧ t.state ≠ .saved ∧ (∀ o ∈ s.ops, (∀ x, o.2 = .store x → x.team ≠ team) ∧ ∀ x, o.2 = .tile x → x.storing = true →
      x.team ≠ team) := by
  refine ⟨sClosing, 2, (team2 sClosing), closing, ?_, ?_, ?_, ?_, witness_teamStores rfl⟩ <;>
    first
      | decide | exact witness_nil rfl

theorem test_patrols_and_masters_are_contained_0 :
    ∃ sector : Nat, sector % 64 = 0 ∧ sector < hbmBytes := by
  refine ⟨0x60040, ?_, ?_⟩ <;> decide

theorem test_patrols_and_masters_are_contained_1 :
    ∃ s : State, ∃ kind : MasterKind, ∃ id : Nat, masterExists s kind id = true ∧ (kind, id) ∉ s.frozen := by
  refine ⟨idle, .copyEngine, 3, ?_, ?_⟩ <;>
    first
      | decide | rfl

theorem test_sequencer_freezes :
    ∃ s : State, ∃ kind : MasterKind, ∃ id : Nat, masterExists s kind id = true ∧ (kind, id) ∉ s.frozen ∧ (tget (matrixKey 0 0)
      s.matrix = some passing) := by
  refine ⟨(sCommand passing), .matrixSequencer, 0, ?_, ?_, ?_⟩ <;>
    first
      | decide | rfl

theorem test_host_function_freezes :
    ∃ s : State, ∃ kind : MasterKind, ∃ id : Nat, masterExists s kind id = true ∧ (kind, id) ∉ s.frozen := by
  refine ⟨idle, .hostFunction, 0, ?_, ?_⟩ <;>
    first
      | decide | rfl

theorem test_patrols_and_masters_are_contained_2 :
    ∃ s : State, ∃ kind : MasterKind, ∃ id : Nat, (kind, id) ∈ s.frozen := by
  refine ⟨sFrozen, .core, 3, ?_⟩ <;> decide

theorem test_finished_team_is_sampled :
    ∃ s : State, ∃ launch : Nat, ∃ team : Nat, ∃ die : Nat, ∃ l : Launch, ∃ a : Assay, tget launch s.launches = some l ∧
      l.assay = some a ∧ (∀ e ∈ s.samples, e.2.launch = launch → e.2.team = team → e.2.replay ≠ none) ∧ l.unsampled.find? (fun
      u => u.1 = team) = some (team, die) ∧ (s.samples.length < 64) := by
  refine ⟨(sFinished 1), 1, 0, 0, sampled1, assay, ?_, ?_, ?_, ?_, ?_⟩ <;> decide

theorem test_sample_is_dropped :
    ∃ s : State, ∃ launch : Nat, ∃ team : Nat, ∃ die : Nat, ∃ l : Launch, ∃ a : Assay, tget launch s.launches = some l ∧
      l.assay = some a ∧ (∀ e ∈ s.samples, e.2.launch = launch → e.2.team = team → e.2.replay ≠ none) ∧ l.unsampled.find? (fun
      u => u.1 = team) = some (team, die) ∧ (64 ≤ s.samples.length) := by
  refine ⟨(sFinished 64), 1, 0, 0, sampled1, assay, ?_, ?_, ?_, ?_, ?_⟩ <;> decide

theorem test_replay_was_discarded :
    ∃ s : State, ∃ n : Nat, ∃ key : Nat, ∃ x : Sample, tget n s.samples = some x ∧ x.replay = some key ∧ (x.unverifiable =
      true) := by
  refine ⟨(sReplayed true), 20, 8, (replaying true), ?_, ?_, ?_⟩ <;> decide

theorem test_replay_ends :
    ∃ s : State, ∃ n : Nat, ∃ key : Nat, ∃ x : Sample, tget n s.samples = some x ∧ x.replay = some key ∧ (x.unverifiable =
      false) ∧ (replayDone s key = true) := by
  refine ⟨(sReplayed false), 20, 8, (replaying false), ?_, ?_, ?_, ?_⟩ <;> decide

theorem test_alerts_counters_and_the_power_limit_0 :
    ∃ s : State, ∃ die : Nat, ∃ ctrl : Nat, ∃ bank : Nat, ∃ row : Nat, ∃ n : Nat, (s.die die).rows.find? (fun r => r.1 = (ctrl,
      bank, row)) = some ((ctrl, bank, row), n) ∧ (s.die die).rmt ≤ n := by
  refine ⟨sRows, 1, 2, 3, 4, 5000, ?_, ?_⟩ <;> decide

theorem test_alerts_counters_and_the_power_limit_1 :
    ∃ s : State, ∃ die : Nat, ∃ ctrl : Nat, ∃ bank : Nat, ∃ u : Nat, ((ctrl, bank), u) ∈ (s.die die).holds ∧ u ≤ s.clk := by
  refine ⟨sRows, 1, 2, 5, 0, ?_, ?_⟩ <;> decide

theorem test_alerts_counters_and_the_power_limit_2 :
    ∃ s : State, contained s = false ∧ (s.glob.ready = false ∧ s.glob.asamp = 3) := by
  refine ⟨sCounters, ?_, ?_⟩ <;> decide

theorem test_alerts_are_read_when_ready :
    ∃ s : State, contained s = false ∧ (s.glob.ready = true) := by
  refine ⟨sReadyCounters, ?_, ?_⟩ <;> decide

theorem test_average_power_of_2900 :
    ∃ s : State, ∃ average : Nat, (s.glob.plim < average) := by
  refine ⟨idle, 2900, ?_⟩ <;> decide

theorem test_average_power_of_100 :
    ∃ s : State, ∃ average : Nat, (average < s.glob.plim) := by
  refine ⟨idle, 100, ?_⟩ <;> decide

theorem test_average_power_of_2800 :
    ∃ s : State, ∃ average : Nat, (average = s.glob.plim) := by
  refine ⟨idle, 2800, ?_⟩ <;> decide

theorem test_starts_run_their_steps_0 :
    ∃ s : State, (s ≠ State.reset) := by
  refine ⟨idle, ?_⟩ <;> decide

theorem test_starts_run_their_steps_1 :
    ∃ s : State, ∃ i : Instr, ∃ warm : Bool, (i = .pcieFundamentalReset ∧ warm = false ∨ (s.glob.ready = true ∨ s.glob.fail ≠
      0) ∧ (i = .coldStart ∧ warm = false ∨ i = .warmStart ∧ warm = true)) := by
  refine ⟨sReady, .pcieFundamentalReset, false, ?_⟩ <;>
    first
      | decide | exact Or.inl ⟨rfl, rfl⟩ | exact Or.inr ⟨Or.inl rfl, Or.inl ⟨rfl, rfl⟩⟩
      | exact Or.inr ⟨Or.inl rfl, Or.inr ⟨rfl, rfl⟩⟩

theorem test_starts_run_their_steps_1_b :
    ∃ s : State, ∃ i : Instr, ∃ warm : Bool, (i = .pcieFundamentalReset ∧ warm = false ∨ (s.glob.ready = true ∨ s.glob.fail ≠
      0) ∧ (i = .coldStart ∧ warm = false ∨ i = .warmStart ∧ warm = true)) := by
  refine ⟨sReady, .coldStart, false, ?_⟩ <;>
    first
      | decide | exact Or.inl ⟨rfl, rfl⟩ | exact Or.inr ⟨Or.inl rfl, Or.inl ⟨rfl, rfl⟩⟩
      | exact Or.inr ⟨Or.inl rfl, Or.inr ⟨rfl, rfl⟩⟩

theorem test_starts_run_their_steps_1_c :
    ∃ s : State, ∃ i : Instr, ∃ warm : Bool, (i = .pcieFundamentalReset ∧ warm = false ∨ (s.glob.ready = true ∨ s.glob.fail ≠
      0) ∧ (i = .coldStart ∧ warm = false ∨ i = .warmStart ∧ warm = true)) := by
  refine ⟨sReady, .warmStart, true, ?_⟩ <;>
    first
      | decide | exact Or.inl ⟨rfl, rfl⟩ | exact Or.inr ⟨Or.inl rfl, Or.inl ⟨rfl, rfl⟩⟩
      | exact Or.inr ⟨Or.inl rfl, Or.inr ⟨rfl, rfl⟩⟩

theorem test_zeroing_waits_for_writes :
    ∃ s : State, s.glob.step ≠ 0 ∧ (s.glob.step = 6 ∧ writesLeft s = true) := by
  refine ⟨sWriting, ?_, ?_⟩ <;> decide

theorem test_start_step_1_warm :
    ∃ s : State, s.glob.step ≠ 0 ∧ (s.glob.step = 1) := by
  refine ⟨(sStarting 1 true), ?_, ?_⟩ <;> decide

theorem test_start_step_1_cold :
    ∃ s : State, s.glob.step ≠ 0 ∧ (s.glob.step = 1) := by
  refine ⟨(sStarting 1 false), ?_, ?_⟩ <;> decide

theorem test_start_step_3_cold :
    ∃ s : State, s.glob.step ≠ 0 ∧ (s.glob.step = 3) := by
  refine ⟨(sStarting 3 false), ?_, ?_⟩ <;> decide

theorem test_start_step_5_cold :
    ∃ s : State, s.glob.step ≠ 0 ∧ (s.glob.step = 5) := by
  refine ⟨(sStarting 5 false), ?_, ?_⟩ <;> decide

theorem test_start_step_6_cold :
    ∃ s : State, s.glob.step ≠ 0 ∧ (s.glob.step = 6) := by
  refine ⟨(sStarting 6 false), ?_, ?_⟩ <;> decide

theorem test_start_step_6_warm :
    ∃ s : State, s.glob.step ≠ 0 ∧ (s.glob.step = 6) := by
  refine ⟨(sStarting 6 true), ?_, ?_⟩ <;> decide

theorem test_start_step_7_cold :
    ∃ s : State, s.glob.step ≠ 0 ∧ (s.glob.step = 7) := by
  refine ⟨(sStarting 7 false), ?_, ?_⟩ <;> decide

theorem test_start_step_8_cold :
    ∃ s : State, s.glob.step ≠ 0 ∧ (s.glob.step = 8) := by
  refine ⟨(sStarting 8 false), ?_, ?_⟩ <;> decide

theorem test_version_at_any_time :
    ∃ s : State, ∃ n : Nat, ∃ i : Instr, ∃ r : List Byte, [.getVersion r, .getCapabilities r, .negotiateAlgorithms r,
      .getDigests r, .getCertificate r, .challenge r, .getMeasurements r][n]? = some i ∧ contained s = false ∧ s.glob.step ≠ 1
      ∧ s.glob.fail ≠ 1 ∧ (s.spdm.stage = 3) := by
  refine ⟨(sSpdm 3), 0, (.getVersion [1]), [1], ?_, ?_, ?_, ?_, ?_⟩ <;>
    first
      | decide | rfl

theorem test_capabilities_in_turn :
    ∃ s : State, ∃ n : Nat, ∃ i : Instr, ∃ r : List Byte, [.getVersion r, .getCapabilities r, .negotiateAlgorithms r,
      .getDigests r, .getCertificate r, .challenge r, .getMeasurements r][n]? = some i ∧ contained s = false ∧ s.glob.step ≠ 1
      ∧ s.glob.fail ≠ 1 ∧ (s.spdm.stage = 1) := by
  refine ⟨(sSpdm 1), 1, (.getCapabilities [1]), [1], ?_, ?_, ?_, ?_, ?_⟩ <;>
    first
      | decide | rfl

theorem test_algorithms_out_of_turn :
    ∃ s : State, ∃ n : Nat, ∃ i : Instr, ∃ r : List Byte, [.getVersion r, .getCapabilities r, .negotiateAlgorithms r,
      .getDigests r, .getCertificate r, .challenge r, .getMeasurements r][n]? = some i ∧ contained s = false ∧ s.glob.step ≠ 1
      ∧ s.glob.fail ≠ 1 ∧ (s.spdm.stage = 1) := by
  refine ⟨(sSpdm 1), 2, (.negotiateAlgorithms [1]), [1], ?_, ?_, ?_, ?_, ?_⟩ <;>
    first
      | decide | rfl

theorem test_challenge_in_turn :
    ∃ s : State, ∃ n : Nat, ∃ i : Instr, ∃ r : List Byte, [.getVersion r, .getCapabilities r, .negotiateAlgorithms r,
      .getDigests r, .getCertificate r, .challenge r, .getMeasurements r][n]? = some i ∧ contained s = false ∧ s.glob.step ≠ 1
      ∧ s.glob.fail ≠ 1 ∧ (s.spdm.stage = 3) := by
  refine ⟨(sSpdm 3), 5, (.challenge [1]), [1], ?_, ?_, ?_, ?_, ?_⟩ <;>
    first
      | decide | rfl

theorem test_host_accesses_reach_the_package_0 :
    ∃ s : State, ∃ off : Nat, ∃ n : Nat, (contained s = false ∧ s.glob.ready = true ∧ off + n ≤ 2 ^ 36 ∧ s.glob.wbase + off + n
      ≤ hbmBytes) ∧ (lineHeld s (.hbm (s.glob.wbase + off)) n = false) ∧ (banksHeld s (.hbm (s.glob.wbase + off)) n = false) ∧
      (∀ a ∈ addrs (s.glob.wbase + off) n, arenaTableByte s a = none) ∧ (s.poison = []) ∧ (writeWaits s (.hbm (s.glob.wbase +
      off)) n = false) := by
  refine ⟨sHost, 4, 2, ?_, ?_, ?_, ?_, ?_, ?_⟩ <;> decide

theorem test_host_writes_a_register :
    ∃ s : State, ∃ v : Word64, contained s = false ∧ (600 ≤ bits v.toNat 0 16 ∧ bits v.toNat 0 16 ≤ 2800) := by
  refine ⟨sHost, 1000, ?_, ?_⟩ <;> decide

theorem test_host_misses_a_register :
    ∃ s : State, contained s = false ∧ (controlAssigned 0x140 = false) := by
  refine ⟨sHost, ?_, ?_⟩ <;> decide

theorem test_host_write_too_long :
    ∃ bs : List Byte, (512 < bs.length) := by
  refine ⟨(List.replicate 513 1), by rw [List.length_replicate]; decide⟩ <;> decide

/-! ## Ill-formed terms -/

/-- Words with a type, size, rounding, condition or form that their row does not have (R143 step 4). -/
theorem test_bad_fields_are_illegal_instructions :
    ([.mov (rw_ 20 1 0 0 0), .popc (rw_ 20 1 0 0 0x200), .fadd (rw_ 20 1 2 0 0x8F0),
      .cvt (rw_ 20 1 0 0x1F 0x880), .icmp (rw_ 1 1 2 6 0x300), .iaddImm 3 ⟨5, 20, 1, always, 0⟩, .ldCa (mw 20 2 0 7 7 0),
      .st (mw 20 2 0 7 7 0), .pref (mw 0 2 0 7 2 0), .pairedWord ⟨⟨0x1E, 20, 1, 2⟩, ⟨0, 0, 0, 0⟩, 0⟩,
      .atomFadd (rw_ 20 2 4 0 0x020), .ctb (rw_ 0 4 6 8 0x202), .claim { rw_ 0 0 0 8 0 with guard := ⟨false, 1⟩ },
      .wait (rw_ 20 2 4 14 0x200), .mdrain (rw_ 20 2 6 7 0x200), .fred (rw_ 0 8 4 7 0x100)] : List Instr).all
      (fun i => i.staticCause = some 0x01 && !i.wellFormed) = true := by decide

/-- Words with a reserved field that is not zero (R143 step 5). -/
theorem test_reserved_fields_are_refused :
    ([.mov (rw_ 20 1 1 0 0x300), .exit (rw_ 1 0 0 0 0), .bra 1 ⟨0, 0, 0, always, 0⟩, .ldCa (mw 20 2 0 7 4 0 true),
      .shlImm ⟨32, 20, 1, always, 0⟩, .movImm 0 ⟨5, 20, 1, always, 0⟩, .fence (rw_ 1 0 0 0 0x200), .trap (rw_ 0 0 0 256 0),
      .pairedWord ⟨⟨0, 20, 0, 0⟩, ⟨0, 0, 0, 0⟩, 0⟩, .mcfg (rw_ 0 2 0 0 0xE10), .sysret (rw_ 0 2 4 0 0), .disc (rw_ 1 2 4 0 0x200)]
      : List Instr).all (fun i => i.staticCause = some 0x02 && !i.wellFormed) = true := by decide

/-- Words with an operand that R129, R133, R138, R143 step 6 or their own rule shuts out. -/
theorem test_illegal_operands_are_refused :
    ([.iadd (rw_ 448 1 2 0 0x300), .iadd (rw_ 21 1 2 0 0x380), .ldCa (mw 20 3 0 7 4 0), .ldCa (mw 20 2 0 6 4 0),
      .ldCa (mw 20 2 0 7 4 6), .claim (rw_ 0 0 0 12 0), .barArrive (rw_ 20 0 0 0 0), .srd (rw_ 20 0 0 0x0C 0),
      .swr (rw_ 0 6 0 0 0), .call 0 ⟨0, 384, 0, always, 0⟩, .pairedWord ⟨⟨1, 20, 1, 2⟩, ⟨1, 24, 3, 3⟩, 0⟩,
      .fence (rw_ 0 0 0 0 0xF80)] : List Instr).all
      (fun i => i.staticCause = some 0x03 && !i.wellFormed) = true := by decide

/-- Events of units that the package does not have. -/
theorem test_events_of_no_unit_are_ill_formed :
    ([.pickIssueSet 576 0 .va, .pickIssueSet 0 8 .va, .cageTimerExpire 0 64, .groupLaunch 576 0, .queueDoorbell 64 0,
      .launchAdmit 64, .contextOpen 64 0, .contextClose 64, .claimGrant 0 8, .claimDeadlockTrap 576 0, .windowEnable 0 16,
      .windowDisable 4 0, .windowPurgeDone 4 0, .translationWalk 4 0 0, .walkerInvalidate 4 0, .walkerInvalidateDone 4,
      .matrixPassEnd 144 0, .matrixCommandRetire 0 64, .handleDeadlineExpire 0 1024, .linkFailure 24,
      .channelDeadlineExpire 0 4096, .stepNoticeReceive 64 0 0, .foremanPublish 64, .winzeDrainStart 64, .winzeBatchComplete 64,
      .mailboxBind 4096 0, .mailboxUnbind 4096 0, .mailboxStart 4096, .mailboxKill 4096, .episodeHartAssign 4, .actionAppend 4096,
      .observationTake 4096, .atake 0 32 0, .actionHold 4 0, .opostStep 0 32 0, .opostEnd 0 32 0, .opostTerminal 4 0 0,
      .curfewExpire 0 32, .hartException 4 0, .episodeEndComplete 4096, .preemptRequest 1 8 .host, .quadRetire 0 36,
      .patrolScrub 1 .clean, .rowActivationAlert 0 4 0 0, .bankHoldEnd 4 0 0, .alertsRead 4, .registerWrite 0x4 0,
      .driftLinkRetire 24, .linkFlitReceive 24 ⟨packet [] .notice, 0, 0, 0, true⟩] : List Instr).all
      (fun i => !i.wellFormed) = true := by decide

/-- The same with units that it has. -/
theorem test_events_of_units_are_well_formed :
    ([.pickIssueSet 575 7 .c, .claimGrant 575 7, .windowEnable 3 15, .matrixPassEnd 143 63, .handleDeadlineExpire 63 1023,
      .channelDeadlineExpire 63 4095, .mailboxBind 4095 0, .atake 3 31 0, .quadRetire 3 35, .registerWrite 0x10 0,
      .driftLinkRetire 23, .iadd (rw_ 20 1 2 0 0x300), .ldCa (mw 20 2 0 7 4 0)] : List Instr).all
      (fun i => i.wellFormed) = true := by decide

/-! ## Words written out from the encodings of spec/: the worked words of its sections 11 to 20, and one word of R147 and of
R149. -/

theorem test_decodes_fused_multiply_add : decodeWord .vector 0x2B0A004040378904 = .ok (.ffma ⟨20, 1, 2, 3, always, 0x890, 4⟩) ∧ encode (.ffma ⟨20, 1, 2, 3, always, 0x890, 4⟩) = some (.vector, 0x2B0A004040378904) := ⟨rfl, by decide⟩

theorem test_decodes_conversion : decodeWord .vector 0x3802818001179C80 = .ok (.cvt ⟨5, 6, 0, 0x11, always, 0x9C8, 0⟩) ∧ encode (.cvt ⟨5, 6, 0, 0x11, always, 0x9C8, 0⟩) = some (.vector, 0x3802818001179C80) := ⟨rfl, by decide⟩

theorem test_decodes_immediate_add : decodeWord .vector 0x850380C000478D00 = .ok (.iaddImm 0 ⟨0x12345, 7, 3, always, 0⟩) ∧ encode (.iaddImm 0 ⟨0x12345, 7, 3, always, 0⟩) = some (.vector, 0x850380C000478D00) := ⟨rfl, by decide⟩

theorem test_decodes_load : decodeWord .memory 0x0105013FFF072360 = .ok (.ldCg { mw 10 4 0xFFFC0 1 3 3 with look := 0 }) ∧ encode (.ldCg { mw 10 4 0xFFFC0 1 3 3 with look := 0 }) = some (.memory, 0x0105013FFF072360) := ⟨rfl, by decide⟩

theorem test_decodes_store_release : decodeWord .memory 0x0904810001072480 = .ok (.stRel (mw 9 4 0x40 1 4 4)) ∧ encode (.stRel (mw 9 4 0x40 1 4 4)) = some (.memory, 0x0904810001072480) := ⟨rfl, by decide⟩

theorem test_decodes_contribution : decodeWord .memory 0x2000008080772000 = .ok (.ctb (rw_ 0 2 4 7 0x200)) ∧ encode (.ctb (rw_ 0 2 4 7 0x200)) = some (.memory, 0x2000008080772000) := ⟨rfl, by decide⟩

theorem test_decodes_tile_store : decodeWord .memory 0x1100078382003200 = .ok (.stt { rw_ 0 30 28 32 0x320 with guard := ⟨false, 0⟩ }) ∧ encode (.stt { rw_ 0 30 28 32 0x320 with guard := ⟨false, 0⟩ }) = some (.memory, 0x1100078382003200) := ⟨rfl, by decide⟩

theorem test_decodes_atomic_add : decodeWord .memory 0x18050101204700C0 = .ok (.atom (rw_ 10 4 9 4 0x00C)) ∧ encode (.atom (rw_ 10 4 9 4 0x00C)) = some (.memory, 0x18050101204700C0) := ⟨rfl, by decide⟩

theorem test_decodes_fence : decodeWord .memory 0x280000000027F030 = .ok (.fence (rw_ 0 0 0 2 0xF03)) ∧ encode (.fence (rw_ 0 0 0 2 0xF03)) = some (.memory, 0x280000000027F030) := ⟨rfl, by decide⟩

theorem test_decodes_paired_word : decodeWord .vector 0xF0840081282C0C1C = .ok (.pairedWord ⟨⟨1, 8, 1, 2⟩, ⟨0x0A, 11, 3, 7⟩, 0⟩) ∧ encode (.pairedWord ⟨⟨1, 8, 1, 2⟩, ⟨0x0A, 11, 3, 7⟩, 0⟩) = some (.vector, 0xF0840081282C0C1C) := ⟨rfl, by decide⟩

theorem test_decodes_branch : decodeWord .control 0x1800003FFFF2FFC0 = .ok (.bra 0 ⟨0xFFFFFFF8, 0, 0, ⟨false, 2⟩, 0⟩) ∧ encode (.bra 0 ⟨0xFFFFFFF8, 0, 0, ⟨false, 2⟩, 0⟩) = some (.control, 0x1800003FFFF2FFC0) := ⟨rfl, by decide⟩

theorem test_decodes_barrier_arrival : decodeWord .control 0x0806000002370000 = .ok (.barArrive (rw_ 12 0 0 0x23 0)) ∧ encode (.barArrive (rw_ 12 0 0 0x23 0)) = some (.control, 0x0806000002370000) := ⟨rfl, by decide⟩

theorem test_decodes_barrier_arrival_with_bytes : decodeWord .control 0x090782C004100000 = .ok (.barArriveb { rw_ 15 11 0 0x41 0 with guard := ⟨false, 0⟩ }) ∧ encode (.barArriveb { rw_ 15 11 0 0x41 0 with guard := ⟨false, 0⟩ }) = some (.control, 0x090782C004100000) := ⟨rfl, by decide⟩

theorem test_decodes_claim : decodeWord .control 0x0C00000002070000 = .ok (.claim (rw_ 0 0 0 32 0)) ∧ encode (.claim (rw_ 0 0 0 32 0)) = some (.control, 0x0C00000002070000) := ⟨rfl, by decide⟩

theorem test_decodes_trap : decodeWord .system 0x0000000000770000 = .ok (.trap (rw_ 0 0 0 7 0)) ∧ encode (.trap (rw_ 0 0 0 7 0)) = some (.system, 0x0000000000770000) := ⟨rfl, by decide⟩

theorem test_decodes_matrix_multiply : decodeWord .engine 0x000A010100A74600 = .ok (.mmul (rw_ 20 4 8 10 0x460)) ∧ encode (.mmul (rw_ 20 4 8 10 0x460)) = some (.engine, 0x000A010100A74600) := ⟨rfl, by decide⟩

theorem test_decodes_matrix_drain : decodeWord .engine 0x020D870260374000 = .ok (.mdrain (rw_ 27 28 19 3 0x400)) ∧ encode (.mdrain (rw_ 27 28 19 3 0x400)) = some (.engine, 0x020D870260374000) := ⟨rfl, by decide⟩

theorem test_decodes_copy : decodeWord .engine 0x0800010122274000 = .ok (.cpy (rw_ 0 4 9 0x22 0x400)) ∧ encode (.cpy (rw_ 0 4 9 0x22 0x400)) = some (.engine, 0x0800010122274000) := ⟨rfl, by decide⟩

theorem test_decodes_reduction : decodeWord .engine 0x1200010100A76000 = .ok (.fred (rw_ 0 4 8 10 0x600)) ∧ encode (.fred (rw_ 0 4 8 10 0x600)) = some (.engine, 0x1200010100A76000) := ⟨rfl, by decide⟩

theorem test_decodes_ring_take : decodeWord .engine 0x1A06010000070000 = .ok (.rgtake (rw_ 12 4 0 0 0)) ∧ encode (.rgtake (rw_ 12 4 0 0 0)) = some (.engine, 0x1A06010000070000) := ⟨rfl, by decide⟩

theorem test_decodes_reciprocal : decodeWord .special 0x0202818000078800 = .ok (.rcp (rw_ 5 6 0 0 0x880)) ∧ encode (.rcp (rw_ 5 6 0 0 0x880)) = some (.special, 0x0202818000078800) := ⟨rfl, by decide⟩

/-! ## Steps and results -/

/-- An outcome's next state, a state where it has none, and whether it has one. -/
def nextOf (o : Host.Outcome State Fault Refusal) (d : State) : State := match o with
  | .next s => s
  | _ => d
def isNext (o : Host.Outcome State Fault Refusal) : Bool := match o with
  | .next _ => true
  | _ => false
theorem witness_next {o : Host.Outcome State Fault Refusal} {d : State} (h : isNext o = true) : o = .next (nextOf o d) := by
  cases o <;> simp_all [isNext, nextOf]

theorem test_a_step_from_canonical_memory : ∃ s t : State, s.memoryOk ∧ s.sorted ∧ step s = .next t :=
  ⟨sPort, nextOf (step sPort) idle, rfl, ⟨rfl, rfl⟩, witness_next (by decide)⟩

theorem test_integer_operands : ∃ (ty : Ty) (a b : Nat), ty ∈ ints4 ∧ a < 2 ^ ty.width ∧ b < 2 ^ ty.width :=
  ⟨.n32, 0xFFFFFFFF, 1, by decide⟩

theorem test_on_chip_address : ∃ (s : State) (die core off : Nat), die < 4 ∧ core < 144 ∧ off < 0x01000000 ∧
    coreEnabled s (die * 144 + core) = true := ⟨{ idle with retiredQuads := [] }, 3, 143, 0xFFFFFF, by decide⟩

theorem test_unassigned_on_chip_offset : ∃ pa : Nat, 0x00F0000000000000 ≤ pa ∧ pa ≤ 0x00F0000FFFFFFFFF ∧
    144 <<< 24 ≤ (pa - 0x00F0000000000000) % 2 ^ 34 := ⟨0x00F0000FFFFFFFFF, by decide⟩

/-- 0xFFFFFFFF + 1 wraps, and is clamped with .SAT (R164). -/
theorem test_sum_wraps_or_clamps : intBinary .n32 false (· + ·) 0xFFFFFFFF 1 = 0 ∧
    intBinary .n32 true (· + ·) 0xFFFFFFFF 1 = 0xFFFFFFFF ∧ intBinary .s32 true (· + ·) 0x7FFFFFFF 1 = 0x7FFFFFFF := by decide

/-- 1 + 1 = 2, and 1 + 2^-24 is a tie that goes to the even 1 (R27 to R30). -/
theorem test_float_sums : fpAdd .f32 .rn false false 0 0x3F800000 0x3F800000 = 0x40000000 ∧
    fpAdd .f32 .rn false false 0 0x3F800000 0x33800000 = 0x3F800000 := by decide

/-- IADD of 5 and 7 queues 12 for v20, due two clk later (R60, R162, R164). -/
theorem test_iadd_queues_its_sum :
    ((nextOf (exec addW sAdd) idle).fixed.map fun f => (f.2.due - sAdd.clk, f.2.writes)) = [(2, [.v 4 20 12])] := by decide


end Sys2Proof.Tests
end

section
/-! PROOFS. Bytes written at their homes (R4, R81): what a read at the home gives after `writeHomes`, inside and outside the run that
it writes, and the little-endian value of such a run. -/

namespace Sys2Proof

/-! ## Little-endian bytes (R4) -/

@[simp] theorem length_leBytes (n : Nat) : ∀ v, (leBytes n v).length = n := by
  induction n with
  | zero => intro v; rfl
  | succ n ih => intro v; rw [leBytes, List.length_cons, ih]

/-- `n` bytes hold a value modulo 256 ^ n. -/
theorem leValue_leBytes (n : Nat) : ∀ v, leValue (leBytes n v) = v % 256 ^ n := by
  induction n with
  | zero => intro v; rw [Nat.pow_zero, Nat.mod_one]; rfl
  | succ n ih => intro v; rw [leBytes, leValue, ih, Nat.pow_succ', Nat.mod_mul, BitVec.toNat_ofNat]

theorem leValue_leBytes_of_lt {n v : Nat} (h : v < 256 ^ n) : leValue (leBytes n v) = v := by
  rw [leValue_leBytes, Nat.mod_eq_of_lt h]

end Sys2Proof

namespace Sys2Proof.Machine

/-! ## Runs of bytes at their homes (R81) -/

@[simp] theorem length_addrs (a n : Nat) : (addrs a n).length = n := by rw [addrs, List.length_map, List.length_range]

@[simp] theorem getElem_addrs (a n i : Nat) (h : i < (addrs a n).length) : (addrs a n)[i] = a + i := by
  simp only [addrs, List.getElem_map, List.getElem_range]

/-- The bytes go to L2: HBM under it is as before. -/
@[simp] theorem writeHomes_mem (s : State) (pa : Nat) (bs : List Byte) : (writeHomes s pa bs).mem = s.mem :=
  foldl_keeps State.mem (fun s (e : Nat × Byte) => writeHome s e.1 e.2) (fun s e => writeHome_mem s e.1 e.2) _ s

theorem homeByte_writeHomes_inside (s : State) (pa : Nat) (bs : List Byte) (n : Nat) (h : n < bs.length) :
    homeByte (writeHomes s pa bs) (pa + n) = bs[n] := by
  rw [homeByte_writeHomes, if_pos (Nat.le_add_right pa n), Nat.add_sub_cancel_left, List.getElem?_eq_getElem h, Option.getD_some]

theorem homeByte_writeHomes_outside (s : State) (pa : Nat) (bs : List Byte) (a : Nat) (h : a < pa ∨ pa + bs.length ≤ a) :
    homeByte (writeHomes s pa bs) a = homeByte s a := by
  rw [homeByte_writeHomes]
  rcases h with below | above
  · rw [if_neg (Nat.not_le.2 below), Option.getD_none]
  · have past : bs[a - pa]? = none := List.getElem?_eq_none (by omega)
    rw [past, ite_self, Option.getD_none]

/-- Rising addresses read the run in its order. -/
theorem map_homeByte_writeHomes (s : State) (pa : Nat) (bs : List Byte) :
    (addrs pa bs.length).map (homeByte (writeHomes s pa bs)) = bs := by
  refine List.ext_getElem (by simp) fun i _ hi => ?_
  rw [List.getElem_map, getElem_addrs, homeByte_writeHomes_inside s pa bs i hi]

theorem leValue_homes_writeHomes (s : State) (pa : Nat) {v n : Nat} (h : v < 256 ^ n) :
    leValue ((addrs pa n).map (homeByte (writeHomes s pa (leBytes n v)))) = v := by
  have run := map_homeByte_writeHomes s pa (leBytes n v)
  rw [length_leBytes] at run
  rw [run, leValue_leBytes_of_lt h]

/-- Settles O12: each byte of the run, each byte beside it, HBM under L2, and the little-endian value of a run. -/
theorem homeBytesReadBack : Obligations.HomeBytesReadBack := fun s pa bs =>
  ⟨homeByte_writeHomes_inside s pa bs, homeByte_writeHomes_outside s pa bs, fun a => by rw [writeHomes_mem],
    fun _ _ => leValue_homes_writeHomes s pa⟩

end Sys2Proof.Machine
end

section
/-! PROOFS. The on-chip physical map (R18): the core that a window's address decodes to, the span of the map, and the offsets of a
die's window past its last core. -/

namespace Sys2Proof.Machine

/-! ## The address of a byte of a core's window (R18) -/

/-- The fields of R18's address: die at bit 34, core at bit 24, offset below. -/
theorem onchipPa_eq_shifts {core : Nat} (die off : Nat) (hc : core < coresPerDie) :
    onchipPa (die * coresPerDie + core) off = onchipBase + (die <<< 34) + (core <<< 24) + off := by
  have hpos : 0 < coresPerDie := by decide
  have hdie : (die * coresPerDie + core) / coresPerDie = die := by
    rw [Nat.mul_comm, Nat.mul_add_div hpos, Nat.div_eq_of_lt hc, Nat.add_zero]
  have hcore : (die * coresPerDie + core) % coresPerDie = core := by
    rw [Nat.mul_add_mod_self_right, Nat.mod_eq_of_lt hc]
  rw [onchipPa, hdie, hcore, Nat.shiftLeft_eq, Nat.shiftLeft_eq]

theorem onchipBase_le_onchipPa (core off : Nat) : onchipBase ≤ onchipPa core off := by
  rw [onchipPa, Nat.add_assoc, Nat.add_assoc]
  exact Nat.le_add_right _ _

/-- The windows of the four dies fill at most 64 GiB from the base of the map. -/
theorem onchipPa_lt {core off : Nat} (hc : core < 4 * coresPerDie) (ho : off < 2 ^ 24) :
    onchipPa core off < onchipBase + 0x1000000000 := by
  unfold coresPerDie at hc
  unfold onchipPa coresPerDie
  omega

/-! ## The core and region of an address (R18) -/

/-- The core of an address depends on its fields alone, whatever the region. -/
theorem regionOf_fst (s : State) (pa : Nat) :
    (regionOf s pa).1 = (pa - onchipBase) / 2 ^ 34 * coresPerDie + (pa - onchipBase) % 2 ^ 34 / 2 ^ 24 := by
  simp only [regionOf, apply_ite Prod.fst, ite_self]

/-- An address of a core's window decodes to that core, retired or not. -/
theorem regionOf_onchipPa_fst (s : State) (core : Nat) {off : Nat} (ho : off < 2 ^ 24) :
    (regionOf s (onchipPa core off)).1 = core := by
  rw [regionOf_fst, onchipPa]
  unfold coresPerDie
  omega

/-- Past the last core of a die nothing is assigned. -/
theorem regionOf_snd_of_past_cores (s : State) {pa : Nat} (h : coresPerDie <<< 24 ≤ (pa - onchipBase) % 2 ^ 34) :
    (regionOf s pa).2 = .unassigned := by
  have hcore : coresPerDie ≤ (pa - onchipBase) % 2 ^ 34 / 2 ^ 24 := by
    rwa [Nat.le_div_iff_mul_le (Nat.two_pow_pos 24), ← Nat.shiftLeft_eq]
  simp only [regionOf, hcore, decide_true, Bool.or_true, Bool.true_or, ↓reduceIte]

/-- An engine meets every address of the span as one of the on-chip map. -/
theorem engineLocal_of_onchip {pa : Nat} (low : onchipBase ≤ pa) (high : pa < onchipBase + 0x1000000000) :
    engineLocal pa = .onchip pa := by
  rw [engineLocal, decide_eq_true low, decide_eq_true high, Bool.and_self, if_pos rfl]

/-- Settles O5: the address by its fields, the bounds of the map, the core it decodes to, and the two facts of the span. -/
theorem onChipAddresses : Obligations.OnChipAddresses := by
  refine ⟨fun die core off hd hc ho => ?_, fun s pa low high => ?_⟩
  · have inMap : die * coresPerDie + core < 4 * coresPerDie := by unfold coresPerDie; omega
    exact ⟨onchipPa_eq_shifts die off hc, onchipBase_le_onchipPa _ off, Nat.le_of_lt_succ (onchipPa_lt inMap ho),
      fun s _ => regionOf_onchipPa_fst s _ ho⟩
  · exact ⟨engineLocal_of_onchip low (Nat.lt_succ_of_le high), regionOf_snd_of_past_cores s⟩

end Sys2Proof.Machine
end

section
/-! PROOFS. The way on behind a word (R55, R140): a member of the issue set that still issues after the word's effect goes on to the
next word of the clause, or, after its last word, to the next clause in sequence. -/

namespace Sys2Proof.Machine

/-! ## A member that still issues -/

/-- A thread stands in the issue set of a port of n words, at the word that issues. -/
def AtWord (s : State) (u : Issuing) (words k : Nat) : Prop :=
  (∃ p, tget (portKey u.core u.bay u.port) s.ports = some p ∧ p.pos = u.pos ∧ p.hdr = u.hdr ∧ p.words = words ∧ k ∈ p.members) ∧
    ∃ t, tget k s.threads = some t ∧ t.state = .issuing

/-- The state of a thread in the state machine of R63. -/
def threadState (s : State) (k : Nat) : Option TState := (tget k s.threads).map Thread.state

theorem threadState_eq_some {s : State} {k : Nat} {x : TState} :
    threadState s k = some x ↔ ∃ t, tget k s.threads = some t ∧ t.state = x := by
  rw [threadState, Option.map_eq_some_iff]

theorem threadState_onThread (s : State) (j k : Nat) (f : Thread → Thread) (h : ∀ t, (f t).state = t.state) :
    threadState (s.onThread j f) k = threadState s k := by
  rw [threadState, onThread_threads, tget_tmod, threadState]
  split
  · rw [Option.map_map]; exact congrArg (Option.map · _) (funext h)
  · rfl

/-- What keeps the ports and a thread's place in R63 keeps the thread at its word. -/
theorem AtWord.of_same {s t : State} {u : Issuing} {words k : Nat} (h : AtWord s u words k) (hp : t.ports = s.ports)
    (hk : threadState t k = threadState s k) : AtWord t u words k := by
  obtain ⟨port, thread⟩ := h
  exact ⟨by rw [hp]; exact port, threadState_eq_some.1 (hk.trans (threadState_eq_some.2 thread))⟩

theorem threadState_armStep (s : State) (j k : Nat) : threadState (armStep s j) k = threadState s k :=
  threadState_onThread s j k _ fun t => by split <;> rfl

theorem threadState_beginWord (s : State) (u : Issuing) (i : Instr) (k : Nat) : threadState (beginWord s u i) k = threadState s k := by
  unfold beginWord
  refine foldl_keeps (threadState · k) _ (fun s j => ?_) _ _
  split
  · exact threadState_onThread s j k _ fun _ => rfl
  · rfl

theorem ports_beginWord (s : State) (u : Issuing) (i : Instr) : ∃ f : PortState → PortState,
    (beginWord s u i).ports = tmod (portKey u.core u.bay u.port) f s.ports ∧
      ∀ p, (f p).pos = p.pos ∧ (f p).hdr = p.hdr ∧ (f p).words = p.words ∧ (f p).members = p.members := by
  unfold beginWord
  refine ⟨_, foldl_keeps State.ports _ (fun s j => ?_) _ _, fun _ => ⟨rfl, rfl, rfl, rfl⟩⟩
  split <;> rfl

/-- The beginning of a word leaves the members of its issue set at it. -/
theorem atWord_beginWord {s : State} {u : Issuing} (i : Instr) {words k : Nat} (h : AtWord s u words k) :
    AtWord (beginWord s u i) u words k := by
  obtain ⟨⟨p, hp, pos, hdr, len, mem⟩, thread⟩ := h
  obtain ⟨f, ports, same⟩ := ports_beginWord s u i
  obtain ⟨fpos, fhdr, fwords, fmembers⟩ := same p
  refine ⟨⟨f p, ?_, fpos.trans pos, fhdr.trans hdr, fwords.trans len, fmembers ▸ mem⟩,
    threadState_eq_some.1 ((threadState_beginWord s u i k).trans (threadState_eq_some.2 thread))⟩
  rw [ports, tget_tmod_same, hp, Option.map_some]

/-! ## The next clause in sequence (R140, R142) -/

theorem readyState_cases (s : State) (t : Thread) : readyState s t = .ready ∨ ∃ mask, readyState s t = .counter mask := by
  unfold readyState
  split
  · split
    · exact .inl rfl
    · exact .inr ⟨_, rfl⟩
  · exact .inl rfl

theorem goesOnAt_makeReady {s : State} {k : Nat} (pc : Nat) (h : (tget k s.threads).isSome) : GoesOnAt (makeReady s k pc) k pc := by
  obtain ⟨t, ht⟩ := Option.isSome_iff_exists.1 h
  simp only [makeReady, ht]
  exact ⟨_, tget_tset_same .., rfl, readyState_cases s _⟩

theorem makeReady_other (s : State) {j k : Nat} (pc : Nat) (h : k ≠ j) :
    tget k (makeReady s j pc).threads = tget k s.threads := by
  unfold makeReady
  split
  · rfl
  · exact tget_tset_ne h _ _

theorem goesOnAt_of_thread {s t : State} {k pc : Nat} (h : GoesOnAt s k pc) (e : tget k t.threads = tget k s.threads) :
    GoesOnAt t k pc := by
  unfold GoesOnAt at h ⊢
  rwa [e]

theorem goesOnAt_onThread {s : State} {k pc : Nat} (j : Nat) (f : Thread → Thread)
    (hf : ∀ t, (f t).pc = t.pc ∧ (f t).state = t.state) (h : GoesOnAt s k pc) : GoesOnAt (s.onThread j f) k pc := by
  by_cases e : k = j
  · obtain ⟨t, ht, hpc, hstate⟩ := h
    obtain ⟨fpc, fstate⟩ := hf t
    subst e
    exact ⟨f t, by rw [onThread_threads, tget_tmod_same, ht, Option.map_some], fpc.trans hpc, fstate ▸ hstate⟩
  · exact goesOnAt_of_thread h (tget_tmod_ne e _ _)

/-- A member at the end of its clause: READY at the next clause where it still issues (R140). -/
def endMember (next : Nat) (s : State) (k : Nat) : State :=
  match tget k s.threads with
  | some t => if t.state = .issuing then makeReady s k next else s
  | none => s

theorem endMember_other (next : Nat) (s : State) {j k : Nat} (h : k ≠ j) :
    tget k (endMember next s j).threads = tget k s.threads := by
  unfold endMember
  split
  · split
    · exact makeReady_other s next h
    · rfl
  · rfl

theorem goesOnAt_endMember_of_issuing {s : State} {k : Nat} (next : Nat) (h : threadState s k = some .issuing) :
    GoesOnAt (endMember next s k) k next := by
  obtain ⟨t, ht, issuing⟩ := threadState_eq_some.1 h
  simp only [endMember, ht, issuing, ↓reduceIte]
  exact goesOnAt_makeReady next (by rw [ht]; rfl)

theorem endMember_of_goesOnAt {s : State} {k pc : Nat} (next : Nat) (h : GoesOnAt s k pc) : endMember next s k = s := by
  obtain ⟨t, ht, -, ready | ⟨mask, counter⟩⟩ := h
  · simp [endMember, ht, ready]
  · simp [endMember, ht, counter]

theorem goesOnAt_endMember {s : State} {k pc : Nat} (next j : Nat) (h : GoesOnAt s k pc) :
    GoesOnAt (endMember next s j) k pc := by
  by_cases e : k = j
  · subst e; rwa [endMember_of_goesOnAt next h]
  · exact goesOnAt_of_thread h (endMember_other next s e)

theorem goesOnAt_foldl {k pc : Nat} (f : State → Nat → State) (hf : ∀ s j, GoesOnAt s k pc → GoesOnAt (f s j) k pc)
    (ks : List Nat) : ∀ s, GoesOnAt s k pc → GoesOnAt (ks.foldl f s) k pc := by
  induction ks with
  | nil => exact fun _ h => h
  | cons j js ih => exact fun s h => ih _ (hf s j h)

/-- Each member that still issues goes on at the next clause, whichever come before it in the issue set. -/
theorem goesOnAt_foldl_endMember {k : Nat} (next : Nat) (ks : List Nat) :
    ∀ s, k ∈ ks → threadState s k = some .issuing → GoesOnAt (ks.foldl (endMember next) s) k next := by
  induction ks with
  | nil => exact fun _ mem => absurd mem List.not_mem_nil
  | cons j js ih =>
    intro s mem issuing
    rw [List.foldl_cons]
    by_cases e : k = j
    · subst e
      exact goesOnAt_foldl _ (fun _ j => goesOnAt_endMember next j) js _ (goesOnAt_endMember_of_issuing next issuing)
    · refine ih _ (List.mem_of_ne_of_mem e mem) ?_
      rwa [threadState, endMember_other next s e]

/-- The members of a clause at its end, YIELD's hint noted (R140). -/
def endMembers (s : State) (p : PortState) : State :=
  let ended := p.members.foldl (endMember (nextClause p.hdr (p.words - 1))) s
  if bit p.hint.toNat 2 then p.members.foldl (fun s k => s.onThread k fun t => { t with yielded := 2 }) ended else ended

theorem threads_endClause (s : State) (key : Nat) (p : PortState) : (endClause s key p).threads = (endMembers s p).threads := rfl

theorem goesOnAt_endClause {s : State} {k : Nat} (key : Nat) {p : PortState} (mem : k ∈ p.members)
    (issuing : threadState s k = some .issuing) : GoesOnAt (endClause s key p) k (nextClause p.hdr (p.words - 1)) := by
  have ended := goesOnAt_foldl_endMember (nextClause p.hdr (p.words - 1)) p.members s mem issuing
  refine goesOnAt_of_thread (s := endMembers s p) ?_ (by rw [threads_endClause])
  unfold endMembers
  dsimp only
  split
  · refine goesOnAt_foldl _ (fun s j h => ?_) _ _ ended
    exact goesOnAt_onThread j _ (fun _ => ⟨rfl, rfl⟩) h
  · exact ended

/-! ## The end of a word (R55, R140) -/

/-- The members of a word, once it has had its effect: it issues no more, and a stepped member is to trap (R163). -/
def armed (s : State) (u : Issuing) : State := u.members.foldl armStep { s with issuing := none }

theorem ports_armed (s : State) (u : Issuing) : (armed s u).ports = s.ports :=
  foldl_keeps State.ports armStep (fun _ _ => rfl) u.members { s with issuing := none }

theorem threadState_armed (s : State) (u : Issuing) (k : Nat) : threadState (armed s u) k = threadState s k :=
  foldl_keeps (threadState · k) armStep (fun s j => threadState_armStep s j k) u.members { s with issuing := none }

/-- A port at the next word of its clause. -/
def PortState.nextWord (p : PortState) : PortState := { p with pos := p.pos + 1 }

/-- A port at a word, with a member left: it stands at the next word, or the clause has ended. -/
theorem finishWord_eq {s : State} {u : Issuing} {p : PortState} (h : tget (portKey u.core u.bay u.port) s.ports = some p)
    (left : p.members ≠ []) : finishWord s u =
      if p.words ≤ p.pos + 1 then endClause (armed s u) (portKey u.core u.bay u.port) p.nextWord
      else { armed s u with ports := tset (portKey u.core u.bay u.port) p.nextWord s.ports } := by
  have hp := ports_armed s u
  unfold armed at hp ⊢
  unfold finishWord
  simp [hp, h, left, PortState.nextWord]

/-- A word is behind a thread that stood at it as the word was found, and still stands at it after the word's effect. -/
theorem movesOn_finishWord {s t : State} {u : Issuing} {k : Nat} (mem : k ∈ u.members)
    (h : ∀ words, AtWord s u words k → AtWord t u words k) : MovesOn s (finishWord t u) u k := by
  intro p th hp pos hdr members hth issuing
  obtain ⟨⟨p', hp', pos', hdr', words', mem'⟩, standingAt⟩ := h p.words ⟨⟨p, hp, pos, hdr, rfl, members ▸ mem⟩, th, hth, issuing⟩
  have armedAt := (threadState_armed t u k).trans (threadState_eq_some.2 standingAt)
  rw [finishWord_eq hp' (List.ne_nil_of_mem mem'), pos', words', pos]
  refine ⟨fun more => ?_, fun last nonzero => ?_⟩
  · rw [if_neg (Nat.not_le.2 more)]
    exact ⟨⟨p'.nextWord, tget_tset_same .., congrArg (· + 1) pos', hdr', words', mem'⟩, threadState_eq_some.1 armedAt⟩
  · have next : nextClause p'.hdr (p'.words - 1) = (u.hdr + 8 * (p.words + 1)) % 2 ^ 64 := by
      rw [nextClause, low, hdr', words', show p.words - 1 + 2 = p.words + 1 by omega]
    rw [if_pos last, ← next]
    exact goesOnAt_endClause (portKey u.core u.bay u.port) (p := p'.nextWord) mem' armedAt

/-- A word whose effect moves no port and no thread's place in R63 is behind every thread of its issue set. -/
theorem onward_word {s t : State} {u : Issuing} {i : Instr} (hp : t.ports = (beginWord s u i).ports)
    (hk : ∀ k, threadState t k = threadState (beginWord s u i) k) : Onward s (finishWord t u) u := fun k mem =>
  movesOn_finishWord mem fun _ h => (atWord_beginWord i h).of_same hp (hk k)

end Sys2Proof.Machine
end

section
/-! PROOFS. Compute words (R60, R161, R162, R164 to R174): each is one issue whose effect is what the tables give its word, and what
such an issue comes to where the destination is a v register or a predicate. -/

namespace Sys2Proof.Machine

/-! ## The effect that the tables give (R60, R67, R161) -/

/-- The effect of a compute word for its active members: those that may write have their results queued, the members of a group that is
not whole take cause 0x21 at a g register (R67), and those left in the issue set draw where the word rounds at random (R34). -/
def Compute.effect (c : Compute) (s : State) (u : Issuing) (ks : List Nat) : State :=
  let bad := if 384 ≤ c.dst.getD 0 then ungathered s u ks else []
  let ok := ks.filter fun k => !bad.contains k
  let writers := if 384 ≤ c.dst.getD 0 then uniformWriters s ok else ok
  let queued := bad.foldl (fun s k => takeTrap0 s k 0x21) (queueFixed s u c.lat (c.all s writers))
  if c.draws then advanceDraw queued (ks.filter ((queued.issuing.map (·.members)).getD []).contains) else queued

@[simp] theorem queueFixed_threads (s : State) (u : Issuing) (lat : Nat) (ws : List RegWrite) :
    (queueFixed s u lat ws).threads = s.threads := by
  unfold queueFixed; split <;> rfl

@[simp] theorem queueFixed_ports (s : State) (u : Issuing) (lat : Nat) (ws : List RegWrite) :
    (queueFixed s u lat ws).ports = s.ports := by
  unfold queueFixed; split <;> rfl

@[simp] theorem queueFixed_issuing (s : State) (u : Issuing) (lat : Nat) (ws : List RegWrite) :
    (queueFixed s u lat ws).issuing = s.issuing := by
  unfold queueFixed; split <;> rfl

/-- The active members whose draw count a compute word advances (R34). -/
def Compute.drawers (c : Compute) (ks : List Nat) : List Nat := if c.draws then ks else []

/-- Nothing is ungathered at a v register or a predicate: every active member writes. -/
theorem Compute.effect_of_v {c : Compute} (hd : ∀ d, c.dst = some d → d < 384) (s : State) (u : Issuing) (ks : List Nat) :
    c.effect s u ks = advanceDraw (queueFixed s u c.lat (c.all s ks))
      (c.drawers (ks.filter ((s.issuing.map (·.members)).getD []).contains)) := by
  have inV : ¬ 384 ≤ c.dst.getD 0 := by
    cases h : c.dst with
    | none => simp
    | some d => simpa using hd d h
  have all : ks.filter (fun k => !([] : List Nat).contains k) = ks := List.filter_eq_self.2 fun _ _ => rfl
  simp only [effect, inV, ↓reduceIte, all, List.foldl_nil, queueFixed_issuing, drawers]
  split
  · rfl
  · rfl

/-- A word without a register destination that does not round queues its results, and does no more. -/
theorem Compute.effect_of_no_dst (lat : Nat) (f : State → Nat → Thread → List RegWrite) :
    (⟨lat, none, f, false⟩ : Compute).effect = fun s u ks => queueFixed s u lat ((⟨lat, none, f, false⟩ : Compute).all s ks) := by
  funext s u ks
  exact Compute.effect_of_v (by simp) s u ks

/-! ## One issue for each compute word (R162) -/

theorem computeWord_eq (i : Instr) (lat : Nat) (dst : BitVec 9) (n : Nat) (f : State → Thread → Nat) :
    computeWord i lat dst n f = issueWord i lat 7 noHold (Compute.value lat dst n f).effect := rfl

theorem predicateWord_eq (i : Instr) (lat : Nat) (dst : BitVec 9) (f : State → Thread → Bool) :
    predicateWord i lat dst f = issueWord i lat 7 noHold (Compute.pred lat dst f).effect := by
  rw [Compute.pred, Compute.effect_of_no_dst]
  rfl

theorem execPset_eq {w : RWord} {c : Compute} (h : computes (.pset w) = some c) :
    execPset w = issueWord (.pset w) c.lat 7 noHold c.effect := by
  obtain rfl := Option.some.inj h
  rw [Compute.effect_of_no_dst]
  rfl

theorem execNop_eq {w : RWord} {c : Compute} (h : computes (.nop w) = some c) :
    execNop w = issueWord (.nop w) c.lat 7 noHold c.effect := by
  obtain rfl := Option.some.inj h
  have nothing (s : State) (ks : List Nat) : (⟨0, none, fun _ _ _ => [], false⟩ : Compute).all s ks = [] :=
    List.flatMap_eq_nil_iff.2 fun k _ => by split <;> rfl
  rw [Compute.effect_of_no_dst]
  simp only [nothing]
  rfl

theorem roundingWord_eq (i : Instr) (lat : Nat) (dst : BitVec 9) (n : Nat) (mode : Mode) (f : State → Thread → Nat → Nat) :
    roundingWord i lat dst n mode f = issueWord i lat 7 noHold (Compute.rounded lat dst n mode f).effect := by
  cases mode <;> rfl

/-- A compute word is one issue, with the latency and the effect that the tables give it. -/
theorem exec_of_computes {i : Instr} {c : Compute} (h : computes i = some c) : exec i = issueWord i c.lat 7 noHold c.effect := by
  cases i
  case nop w => exact execNop_eq h
  case pset w => exact execPset_eq h
  case icmp | fcmp | fclass | plop =>
    obtain rfl := Option.some.inj h
    exact predicateWord_eq ..
  case fadd | fsub | fmul | ffma | cvt =>
    obtain rfl := Option.some.inj h
    exact roundingWord_eq ..
  case mov | sel | iadd | isub | imul | imulhi | imad | imin | imax | iabs | ineg | lea | popc | clz | brev | and | or | xor | not | andn
      | shl | shr | rotl | fmin | fmax | fminn | fmaxn | fabs | fneg | fcsgn | pack | unpack | pget | iaddImm | imulImm | andImm
      | orImm | xorImm | andnImm | movImm | faddImm | fmulImm | shlImm | shrN32Imm | shrS32Imm | rotlImm | exp2 | log2 | rcp | rsq
      | sin | cos =>
    obtain rfl := Option.some.inj h
    exact computeWord_eq ..
  -- No other word has a row in the tables.
  all_goals exact nomatch h

/-! ## What a compute word leaves (R34, R140) -/

theorem mem_of_mem_actives {s : State} {u : Issuing} {i : Instr} {k : Nat} (h : k ∈ actives s u i) : k ∈ u.members :=
  (List.mem_filter.1 h).1

theorem threadState_advanceDraw (s : State) (ks : List Nat) (k : Nat) : threadState (advanceDraw s ks) k = threadState s k := by
  refine foldl_keeps (threadState · k) _ (fun s j => ?_) ks s
  exact threadState_onThread s j k _ fun _ => rfl

theorem ports_advanceDraw (s : State) (ks : List Nat) : (advanceDraw s ks).ports = s.ports := by
  refine foldl_keeps State.ports _ (fun s j => ?_) ks s
  exact onThread_ports s j _

/-- A compute word that issues with a v register or predicate destination queues its values for its active members, which draw where
it rounds at random. -/
theorem exec_compute_of_v {i : Instr} {c : Compute} {s : State} {u : Issuing} (hc : computes i = some c)
    (hd : ∀ d, c.dst = some d → d < 384) (h : Issues s u i c.lat 7) :
    let b := beginWord s u i
    let ks := actives s u i
    exec i s = .next (finishWord (advanceDraw (queueFixed b u c.lat (c.all b ks)) (c.drawers ks)) u) := by
  have issuing : (beginWord s u i).issuing = some u := (beginWord_issuing s u i).trans h.word
  have left : (actives s u i).filter u.members.contains = actives s u i :=
    List.filter_eq_self.2 fun k hk => List.contains_iff_mem.2 (mem_of_mem_actives hk)
  rw [exec_of_computes hc, issueWord_issues noHold c.effect h rfl, Compute.effect_of_v hd, issuing, Option.map_some,
    Option.getD_some, left]

theorem queues_of_rest {s t t' : State} {u : Issuing} {lat : Nat} {ws : List RegWrite} (h : Queues s t u lat ws)
    (e : rest t' = rest t) : Queues s t' u lat ws :=
  (of_rest State.fixed e fun _ => rfl).trans h

/-- Settles O13: the word queues its results, and then it draws and ends, which changes nothing else that a program reads. -/
theorem computeWordsQueueTheirResult : Obligations.ComputeWordsQueueTheirResult := by
  intro i c s u hc hd h
  refine ⟨_, exec_compute_of_v hc hd h, ?_, ?_, ?_, fun k => ?_⟩
  · refine queues_of_rest (queues_word s u i c.lat _) ?_
    rw [rest_finishWord, rest_finishWord, rest_advanceDraw]
  · refine sameRest_of_restFixed ?_
    rw [restFixed_finishWord, restFixed_of_rest (rest_advanceDraw _ _), restFixed_queueFixed, restFixed_beginWord]
  · refine onward_word (i := i) ?_ fun k => ?_
    · rw [ports_advanceDraw, queueFixed_ports]
    · rw [threadState_advanceDraw, threadState, queueFixed_threads, threadState]
  · rw [seen_finishWord, seen_advanceDraw, seen_queueFixed, seen_beginWord]
    cases draws : c.draws <;> simp [Compute.drawers, draws]

end Sys2Proof.Machine
end
